-- ==== Sys2Proof/Word.lean ====
section
/-! DEFINITION. The word types of the block: bytes, 16-, 32- and 64-bit words, 64-byte queue entries and
frames.  Only abbreviations, so that every BitVec lemma applies to them. -/
namespace Sys2Proof

/-- One byte of memory. -/
abbrev Byte := BitVec 8
/-- A 16-bit field. -/
abbrev Half := BitVec 16
/-- A 32-bit register or lane. -/
abbrev Word := BitVec 32
/-- A 64-bit register. -/
abbrev DWord := BitVec 64
/-- A 64-byte unit: a queue entry, a message, a record, an SRAM line (bit n lies in byte n / 8, 00 Notation). -/
abbrev Entry := BitVec 512
/-- A vector register: 64 lanes of 32 bits (06 Table 6.1), or the 256 payload bytes of a frame (11 R259). -/
abbrev Frame := BitVec 2048

end Sys2Proof
end

