-- ==== Sys2Proof/Syntax.lean ====
section
/-! DEFINITION. The commands of the block (rows of spec/opcode_table.json) and their operand types. -/
namespace Sys2Proof

/-- A staged group and its commit register (00 R12-R17): the reply-ring and event-ring groups of a function
(16 R390, 23 R551), TMP_FREQ of a die, TMP_POWER, TMP_SCRUB (20 R486) and HBM_ARB of a group (10 Table 10.4). -/
inductive Group where
  | ring (fn : Nat)
  | evtRing (fn : Nat)
  | freq (die : Nat)
  | power
  | scrub
  | hbmArb (g : Nat)
deriving DecidableEq, Repr

/-- What a configuration request asks (15 R362, R365, R375, R379; 23 R553-R555). -/
inductive ConfigOp where
  /-- Read the dword at a configuration-space offset. -/
  | read (off : Nat)
  /-- Set Memory Space Enable. -/
  | setMse (on : Bool)
  /-- Set Bus Master Enable (the clearing has a row of its own). -/
  | setBme
  /-- Set Enable Relaxed Ordering. -/
  | setEro (on : Bool)
  /-- Set MSI-X Enable. -/
  | setMsixEnable (on : Bool)
  /-- Mask or unmask the whole function's vectors. -/
  | setMsixFunctionMask (on : Bool)
  /-- Mask one MSI-X vector (the unmasking has a row of its own). -/
  | maskVector (v : Nat)
  /-- Return to D0 from D3hot. -/
  | setD0
  /-- Set Max Payload Size to 128 * 2^k bytes. -/
  | setMps (k : Nat)
  /-- Set Max Read Request Size to 128 * 2^k bytes. -/
  | setMrrs (k : Nat)
  /-- Write NumVFs and set VF Enable of a PF (15 R365). -/
  | enableVfs (n : Nat)
  /-- Write a base address register: 0 to 5 of the header, 6 to 11 the VF BARs of the SR-IOV capability (15 Table 15.3). -/
  | setBar (i : Nat) (v : Word)
  /-- Write the AER Uncorrectable Error Mask (15 R362, R384, 16 R386). -/
  | setAerMask (v : Word)
  /-- Write the AER Uncorrectable Error Severity. -/
  | setAerSeverity (v : Word)
  /-- Write the AER Uncorrectable Error Status, whose bits a 1 clears. -/
  | clearAer (v : Word)
  /-- An AtomicOp request to a BAR of the function, which no row names (15 Table 15.2). -/
  | atomicOp
deriving DecidableEq, Repr

/-- Who waits for a spill, a fill or a FENCE (07 R182, R183, 12 R315): a program's context, or a command of a function. -/
inductive MoveWaiter where
  | program (h : Nat)
  | command (fn : Nat) (seq : Word)
deriving DecidableEq, Repr

/-- Where an injected packet comes from (08 R197): the head of a compute tile's outlet, or the head of the
queue of packets that a unit of the fabric has ready to send. -/
inductive TxSource where
  | outlet (tile outlet : Nat)
  | unit
deriving DecidableEq, Repr

/-- A flit error (08 R209, R210). -/
inductive FlitErr where
  /-- A single-bit error in a 64-bit group, at the router of endpoint address `router`. -/
  | single (router : Nat)
  /-- An uncorrectable error in the data of flit `flit`. -/
  | data (flit : Nat)
  /-- An uncorrectable error in the tag of the first flit, at the router of endpoint address `router`. -/
  | tag (router : Nat)
  /-- Any error on a die bridge or hub lane. -/
  | bridge
deriving DecidableEq, Repr

/-- How a read of a host or peer window completes (10 R250). -/
inductive ReadResult where
  | data (bytes : List Byte)
  /-- Unsupported Request, Completer Abort, a completion timeout or a poisoned completion, or not sent. -/
  | failed
deriving DecidableEq, Repr

/-- What a read of a line or unit finds (18 R425, R426, R428, R438). -/
inductive Finding where
  | clean
  /-- A correctable error at bit or symbol position `pos`. -/
  | correctable (pos : Nat)
  /-- An uncorrectable error; `mask` has a bit for each codeword or half in error. -/
  | uncorrectable (mask : Nat)
deriving DecidableEq, Repr

/-- Where a parity error shows as a bundle reads its tile's registers and queues (18 Table 18.1). -/
inductive ParityHit where
  | sreg (i : Nat)
  | areg (i : Nat)
  | pred (i : Nat)
  /-- A lane of a vector register. -/
  | vlane (v lane : Nat)
  | acc (i : Nat)
  /-- The oldest entry of an inlet. -/
  | inlet (n : Nat)
  /-- Entry `k` of an outlet. -/
  | outlet (n k : Nat)
deriving DecidableEq, Repr

/-- The sensor inputs of a Temper decision tick (20 R481), one entry for each die, with the rate that the
die's share of the module budget permits (20 R482 item 4, in 25 MHz units). -/
structure DieSense where
  /-- Highest junction sensor, in 1/16 degree C. -/
  tj : Int
  /-- Hottest HBM stack of the die, in 1/16 degree C. -/
  hbmTemp : Int
  /-- Die current above its rated limit. -/
  overCurrent : Bool
  /-- The die's share of the module's excess power asks for this many steps down (0: none). -/
  powerSteps : Nat
  /-- Highest FCLK target that the die's budget share permits. -/
  budgetF : Nat
  /-- Highest TCLK target that the die's budget share permits. -/
  budgetT : Nat
  /-- Highest FCLK target that the share permits with the die's pool of lent credits spent on it (20 R491). -/
  poolF : Nat := 0
deriving DecidableEq, Repr

/-- The inputs of one decision tick: the dies in order. -/
structure Sensors where
  dies : List DieSense
deriving DecidableEq, Repr

/-- The values that a telemetry update samples (20 Table 20.7), other than the clocks, which State holds. -/
structure Telemetry where
  temp : List Int
  hbmTemp : List Int
  diePower : List Nat
  modulePower : Nat
  energy : Nat
deriving DecidableEq, Repr

/-- The outcomes of start-up steps 6 to 10 (21 R501, R505): what the tests of the units find. -/
structure StartupTests where
  /-- Units that fail, by their bit of CAP_USABLE (03 Table 3.2). -/
  failedUnits : List Nat
  /-- Tiles that fail the built-in self-test (18 R436), by tile number. -/
  failedTiles : List Nat
  /-- HBM rows of the repair list whose bank has no spare row left (18 R442). -/
  exhaustedRows : List Nat
  /-- The base hub configuration loads (21 R506). -/
  hubConfigOk : Bool
  /-- The firmware hangs at this start-up step, 6 to 12, or at none (21 R516). -/
  hangAt : Option Nat
deriving DecidableEq, Repr

/-- A step of a PLDM firmware update (22 R541), by the steps of 21 R517. -/
inductive UpdateStep where
  /-- Checks and step 2: the slot's state becomes writing. -/
  | request (image : List Byte)
  /-- Steps 3 to 5; `readBackOk` is false when the flash does not hold what was programmed. -/
  | program (readBackOk : Bool)
deriving DecidableEq, Repr

/-- The commands of the block: one constructor for each row of the operation table, named after it.  An operand says
which unit, packet or program the step concerns, or carries what comes from outside (host data, a sensor
reading, a pin).  An operand `f` says what the row's read of storage finds, at byte `at_` of what it reads, and `fi` what
its read of an index finds (R425, R426). -/
inductive Instr where
  /-- REGISTER_WRITE (R1): A host write to a register field that has no row of its own takes the effect of the field's access code; a late one is in force in the register's domain only later (R10). -/
  | registerWrite (bar4 : Bool) (fn off size : Nat) (val : DWord) (late : Bool)
  /-- COMMIT (R14): Writing 1 to a commit register requests transfer of the staged group and sets COMMIT_PENDING. -/
  | commit (fn : Nat) (g : Group) (val : Word)
  /-- COMMIT_TRANSFER (R15): At the block's first safe point the whole staged group moves to the live copy and COMMIT_PENDING clears. -/
  | commitTransfer (g : Group)
  /-- ORD_FLUSH_READ (R377): A read of ORD_FLUSH waits until every earlier write of the function has taken effect. -/
  | ordFlushRead (fn : Nat) (ro : Bool)
  /-- FLUSH_COMPLETE (R377): The last covered write takes effect and the ORD_FLUSH read completes with 0. -/
  | flushComplete (fn : Nat)
  /-- MBX_POST (R385): Writing 1 to MBX_POST posts the 64 bytes in MBX_MSG as one message. -/
  | mbxPost (fn : Nat) (val : Word)
  /-- MBX_POST_SHORT (R385): A 64-bit write to MBX_POST_SHORT posts a message with the written header and zero arguments. -/
  | mbxPostShort (fn size : Nat) (val : DWord)
  /-- MBX_RING_CONS_WRITE (R394): Host software advances the reply-ring consumer index, which may free room for held replies. -/
  | mbxRingConsWrite (fn : Nat) (val : Word)
  /-- EVT_RING_CONS_WRITE (R551): Host software advances the event-ring consumer index. -/
  | evtRingConsWrite (fn : Nat) (val : Word)
  /-- DB_RING (R225): Writing 1 to a DB_RING bit rings that doorbell. -/
  | dbRing (fn : Nat) (val : Word)
  /-- DOORBELL_SERVICE (R225): Within 32 HCLK cycles a rung bit adds 1 to its bound host tally and is cleared. -/
  | doorbellService (fn bit : Nat)
  /-- HTALLY_SIGNAL (R213): A host write adds an amount to a host tally modulo 65,536 and re-evaluates its waits. -/
  | htallySignal (fn n : Nat) (val : Word)
  /-- HTALLY_ARM (R223): A host write arms or disarms a host tally with a target and MSI-X vector, firing at once if already satisfied. -/
  | htallyArm (fn n : Nat) (val : Word)
  /-- HLATCH_REQ (R228): A non-zero tag written to a free host latch makes it the holder, otherwise the write is discarded. -/
  | hlatchReq (fn j : Nat) (val : Word)
  /-- HLATCH_REL (R228): A release with the holder's tag frees a host latch, and any other sets rel_mismatch. -/
  | hlatchRel (fn j : Nat) (val : Word)
  /-- STW_LOCK_ACQUIRE (R412): An acquire write from a PF takes the steward lock when it is free. -/
  | stwLockAcquire (fn : Nat) (val : Word)
  /-- STW_LOCK_RELEASE (R412): A release write from the holding PF frees the steward lock. -/
  | stwLockRelease (fn : Nat) (val : Word)
  /-- HTALLY_LEASE_WRITE (R550): A write selects which owned OPEN lease's host tallies and latches the host tally page shows. -/
  | htallyLeaseWrite (fn : Nat) (val : Word)
  /-- HOST_WINDOW_WRITE (R367): A host or peer write arrives at BAR2 and is passed to the lease HBM that the window maps. -/
  | hostWindowWrite (fn off : Nat) (data : List (Option Byte)) (ep : Bool)
  /-- WINDOW_WRITE_LANDS (R371): The bytes of an accepted window write become visible to device reads and are added to the landing counter. -/
  | windowWriteLands (id : Nat)
  /-- HOST_WINDOW_READ (R367): A host read of BAR2 returns each 64-byte unit as it stood at one instant, behind the function's earlier BAR2 writes; `en` are its byte enables, `ro` its Relaxed Ordering attribute, and byte `at_` lies in the unit where HBM finds `f` (R425, R426). -/
  | hostWindowRead (fn off : Nat) (en : List Bool) (ro : Bool) (at_ : Nat) (f : Finding)
  /-- MSIX_VECTOR_UNMASK (R382): Unmasking a vector whose PBA bit is pending sends the held MSI-X message. -/
  | msixVectorUnmask (fn v : Nat)
  /-- CONFIG_REQUEST (R504): A configuration request to a function that is not ready receives Request Retry Status. -/
  | configRequest (fn : Nat) (op : ConfigOp)
  /-- BAR2_RESIZE (R370): A Resizable BAR write changes BAR2's size while windows stay mapped. -/
  | bar2Resize (fn sizeLog2 : Nat)
  /-- VF_ENABLE_CLEAR (R414): Clearing VF Enable acts on every VF of the PF as a function-level reset. -/
  | vfEnableClear (port : Nat)
  /-- FUNCTION_LEVEL_RESET (R414): An FLR resets the function, unmaps its windows, resets its mailbox and sends its leases to DRAINING. -/
  | functionLevelReset (fn : Nat)
  /-- HOT_RESET (R414): A hot reset of a port resets its functions and sends their leases to DRAINING. -/
  | hotReset (port : Nat)
  /-- LINK_DOWN (R414): A port's link goes down, resetting its functions and sending their leases to DRAINING. -/
  | linkDown (port : Nat)
  /-- LINK_UP (R503): A released port trains and its link comes up, starting the readiness time of its functions. -/
  | linkUp (port : Nat)
  /-- PERST_ASSERT (R536): A PERST# input goes low and holds its port in reset. -/
  | perstAssert (port : Nat)
  /-- PERST_DEASSERT (R503): A PERST# input goes high, letting the port train once step 11 has passed. -/
  | perstDeassert (port : Nat)
  /-- D3HOT_ENTRY (R375): A function enters D3hot and the device sends no request for its leases. -/
  | d3hotEntry (fn : Nat)
  /-- D3COLD_ENTRY (R514): A port's D3cold is treated as PERST# asserted on that port. -/
  | d3coldEntry (port : Nat)
  /-- BUS_MASTER_ENABLE_CLEAR (R375): Clearing Bus Master Enable stops every device request for the function's leases. -/
  | busMasterEnableClear (fn : Nat)
  /-- FUNCTION_READY (R504): A function's readiness time passes and it stops answering with RRS. -/
  | functionReady (fn : Nat)
  /-- MESSAGE_TAKE (R396): Firmware takes a message from a function's queue in sequence order and applies the common checks. -/
  | messageTake (fn : Nat)
  /-- MESSAGE_BEGIN (R395): A waiting message that names a lease begins once every earlier message of its function for that lease has replied. -/
  | messageBegin (fn : Nat) (seq : Word)
  /-- QUERY_CAPS (R66): Returns the capability registers, lease limit and DEV_STATE as at one instant. -/
  | queryCaps (fn : Nat) (seq : Word)
  /-- QUERY_TILEMAP (R74): Writes the 1,088-byte tile map to a host buffer. -/
  | queryTilemap (fn : Nat) (seq : Word)
  /-- QUERY_HEALTH (R398): Returns DEV_STATE, Quench cause, scrub state, temperature, power and counts. -/
  | queryHealth (fn : Nat) (seq : Word)
  /-- LEASE_OPEN (R404): Opens a lease with regions, HBM spans, host tallies and latches, a key and a reclaim token. -/
  | leaseOpen (fn : Nat) (seq : Word)
  /-- LEASE_RESIZE (R398): Changes a lease's span count and region mask, zeroising released resources. -/
  | leaseResize (fn : Nat) (seq : Word)
  /-- LEASE_CLOSE (R398): Stops a lease's programs, unbinds, unmaps, zeroises and frees the lease. -/
  | leaseClose (fn : Nat) (seq : Word)
  /-- LEASE_RECLAIM (R420): Reattaches a DORMANT lease to the posting function when port and token match, issuing a new token. -/
  | leaseReclaim (fn : Nat) (seq : Word)
  /-- LEASE_POLICY_LIMITS (R334): Sub-operation 0x00 sets the lend threshold and the section time limit. -/
  | leasePolicyLimits (fn : Nat) (seq : Word)
  /-- LEASE_POLICY_DEMAND_SIGNED (R399): Sub-operation 0x01 sets whether the lease demands signed ingots. -/
  | leasePolicyDemandSigned (fn : Nat) (seq : Word)
  /-- LEASE_POLICY_KEY_INSTALL (R304): Sub-operation 0x02 installs a P-384 public key in a key slot. -/
  | leasePolicyKeyInstall (fn : Nat) (seq : Word) (at_ : Nat) (f : Finding)
  /-- LEASE_POLICY_KEY_CLEAR (R399): Sub-operation 0x03 empties a key slot. -/
  | leasePolicyKeyClear (fn : Nat) (seq : Word)
  /-- LEASE_POLICY_DOORBELL_BIND (R225): Sub-operation 0x04 binds or unbinds a DB_RING bit to a host tally. -/
  | leasePolicyDoorbellBind (fn : Nat) (seq : Word)
  /-- LEASE_POLICY_DIE_PREFERENCE (R405): Sub-operation 0x05 sets the die preference for spans granted afterwards. -/
  | leasePolicyDiePreference (fn : Nat) (seq : Word)
  /-- LEASE_POLICY_DEBUG_PERMISSION (R398): Steward sub-operation 0x10 grants or withdraws the lease's debug permission. -/
  | leasePolicyDebugPermission (fn : Nat) (seq : Word)
  /-- LEASE_POLICY_MAX_DORMANCY (R418): Steward sub-operation 0x11 sets the lease's maximum dormancy. -/
  | leasePolicyMaxDormancy (fn : Nat) (seq : Word)
  /-- WINDOW_MAP_INBOUND (R368): Maps a BAR2 range of the function onto lease HBM as an inbound window. -/
  | windowMapInbound (fn : Nat) (seq : Word)
  /-- WINDOW_MAP_ENTRY (R374): Creates a window-list entry through which device DMA reaches host or peer memory. -/
  | windowMapEntry (fn : Nat) (seq : Word)
  /-- WINDOW_UNMAP_INBOUND (R372): Removes an inbound window and resets its landing counter. -/
  | windowUnmapInbound (fn : Nat) (seq : Word)
  /-- WINDOW_UNMAP_ENTRY (R376): Removes a window-list entry unless a running section, prologue or run-ahead names it. -/
  | windowUnmapEntry (fn : Nat) (seq : Word)
  /-- BILLET_SPILL (R181): Host command that spills a region's billets to lease HBM. -/
  | billetSpill (fn : Nat) (seq : Word)
  /-- BILLET_FILL (R181): Host command that fills a region's billets from lease HBM. -/
  | billetFill (fn : Nat) (seq : Word)
  /-- ZERO_FILL (R398): Writes zeros and clears poison marks over a range of the lease's HBM. -/
  | zeroFill (fn : Nat) (seq : Word)
  /-- INGOT_STAGE (R305): Applies the staging checks in order and copies a passing ingot into a slot. -/
  | ingotStage (fn : Nat) (seq : Word) (at_ : Nat) (f : Finding)
  /-- INGOT_VERIFY (R307): Applies staging checks 3 to 8 to an ingot without filling a slot. -/
  | ingotVerify (fn : Nat) (seq : Word) (at_ : Nat) (f : Finding)
  /-- INGOT_EVICT (R306): Empties an ingot slot unless a bound program runs it. -/
  | ingotEvict (fn : Nat) (seq : Word)
  /-- SEQ_START (R312): Copies and checks a section program and binds it to a sequencer context. -/
  | seqStart (fn : Nat) (seq : Word) (at_ : Nat) (f : Finding)
  /-- SEQ_STOP (R398): Stops a program, optionally aborting the regions of its running sections. -/
  | seqStop (fn : Nat) (seq : Word)
  /-- SEQ_SUSPEND (R398): Stops issue of a program, keeping its place and flags, replying once its sections have ended. -/
  | seqSuspend (fn : Nat) (seq : Word)
  /-- SEQ_RESUME (R398): Continues issue of a suspended program at its next instruction. -/
  | seqResume (fn : Nat) (seq : Word)
  /-- FENCE_COMMAND (R398): Host command that replies once writes of the lease's ended sections to host and peer memory have completed. -/
  | fenceCommand (fn : Nat) (seq : Word)
  /-- TALLY_READ (R233): Returns a tally's value and tail counter without changing anything. -/
  | tallyRead (fn : Nat) (seq : Word)
  /-- TALLY_SET (R233): Writes a tally's value, clears its tail counter, re-evaluates waits and marks bound contexts HAND_SET_TALLY. -/
  | tallySet (fn : Nat) (seq : Word)
  /-- SOLVER_BIND (R344): Binds a solver channel to a lease with a mode and deadline, by engine or emulation. -/
  | solverBind (fn : Nat) (seq : Word) (at_ : Nat) (f : Finding)
  /-- SOLVER_UNBIND (R345): Unbinds a solver channel and clears its quarter. -/
  | solverUnbind (fn : Nat) (seq : Word)
  /-- POWER_POLICY_FREQUENCY (R493): Sub-operation 0 stages and commits a die's FCLK cap, FCLK floor and TCLK cap. -/
  | powerPolicyFrequency (fn : Nat) (seq : Word)
  /-- POWER_POLICY_MODULE_CAP (R493): Sub-operation 1 stages and commits the module power cap. -/
  | powerPolicyModuleCap (fn : Nat) (seq : Word)
  /-- POWER_POLICY_LENDING (R493): Sub-operation 2 stages and commits whether budget may be lent between leases. -/
  | powerPolicyLending (fn : Nat) (seq : Word)
  /-- POWER_POLICY_SCRUB_CAP (R493): Sub-operation 3 stages and commits a scrub domain's rate cap. -/
  | powerPolicyScrubCap (fn : Nat) (seq : Word)
  /-- STEWARD_INFO (R398): Returns the steward function, lock generation and lease counts. -/
  | stewardInfo (fn : Nat) (seq : Word)
  /-- VF_PARTITION (R398): Sets a function's lease limit. -/
  | vfPartition (fn : Nat) (seq : Word)
  /-- FW_STAGE (R517): Checks a firmware image and writes and verifies it in the inactive flash slot; `readBackOk` is false when the flash does not hold what was programmed. -/
  | fwStage (fn : Nat) (seq : Word) (readBackOk : Bool) (at_ : Nat) (f : Finding)
  /-- FW_ACTIVATE (R518): Selects a verified slot for the next reset, optionally triggering a module reset. -/
  | fwActivate (fn : Nat) (seq : Word)
  /-- QUENCH_ENTER (R494): Steward command that enters Quench. -/
  | quenchEnter (fn : Nat) (seq : Word)
  /-- QUENCH_EXIT (R497): Leaves Quench when no trigger persists, restarting HBM and clocks. -/
  | quenchExit (fn : Nat) (seq : Word)
  /-- LOG_READ (R449): Writes patina log records to a host buffer. -/
  | logRead (fn : Nat) (seq : Word)
  /-- REMAP_STATUS (R398): Returns steered columns, absent tiles and repair counts. -/
  | remapStatus (fn : Nat) (seq : Word)
  /-- DEBUG_SNAPSHOT (R400): Writes region and program records of one lease to a host buffer. -/
  | debugSnapshot (fn : Nat) (seq : Word)
  /-- DEBUG_UNLOCK_REQUEST (R468): Step 0 creates a 48-byte debug challenge and voids any earlier one. -/
  | debugUnlockRequest (fn : Nat) (seq : Word)
  /-- DEBUG_UNLOCK_ANSWER (R470): Step 1 checks the signed answer and, if correct, aborts, closes, erases, zeroises and opens debug. -/
  | debugUnlockAnswer (fn : Nat) (seq : Word) (at_ : Nat) (f : Finding)
  /-- RUN (R309): Sequencer instruction that checks, places, relocates and loads an ingot's section. -/
  | run (h : Nat)
  /-- RUN_LOAD_BEGIN (R310): A waiting RUN begins loading once its regions and the device section limits allow. -/
  | runLoadBegin (h : Nat)
  /-- WAIT (R215): Sequencer instruction that stops the context until a host tally condition holds. -/
  | wait (h : Nat)
  /-- WAIT_SATISFIED (R214): A pending wait on a tally becomes satisfied and its waiter resumes. -/
  | waitSatisfied (h : Nat)
  /-- SIG (R213): Sequencer instruction that adds an amount to a host tally. -/
  | sig (h : Nat)
  /-- BR (R320): Sequencer branch on a host tally condition with an optional prediction for run-ahead. -/
  | br (h : Nat)
  /-- BR_EVALUATE (R320): Once earlier sections have ended, the branch evaluates and commits or cancels the run-ahead. -/
  | brEvaluate (h : Nat)
  /-- LOOP (R314): Sequencer instruction that repeats a block of instructions a counted number of times. -/
  | loop (h : Nat)
  /-- FENCE (R315): Sequencer instruction that stops issue until earlier sections and their host and peer writes have completed. -/
  | fence (h : Nat)
  /-- FENCE_COMPLETE (R315): The last covered write and zero-length peer read complete and the context issues again. -/
  | fenceComplete (w : MoveWaiter)
  /-- FENCE_PEER_READ (R381): A zero-length read to a written peer window completes or fails with PEER_UNREACHABLE. -/
  | fencePeerRead (w : MoveWaiter) (window : Nat) (ok : Bool)
  /-- NOTIFY (R316): Sequencer instruction that writes a completion record with value, flags and status. -/
  | notify (h : Nat)
  /-- SPILL (R317): Sequencer instruction that spills a region's selected billets to lease HBM. -/
  | spill (h : Nat)
  /-- FILL (R317): Sequencer instruction that fills a region's selected billets from lease HBM. -/
  | fill (h : Nat)
  /-- SPILL_FILL_COMPLETE (R182): A spill or fill finishes moving its billets and the waiting context or command proceeds. -/
  | spillFillComplete (w : MoveWaiter) (at_ : Nat) (f : Finding)
  /-- HALT (R318): Sequencer instruction that waits for the context's sections, discards flags and releases the context. -/
  | halt (h : Nat)
  /-- CONTEXT_SWAP (R322): Firmware saves or restores a bound program at an instruction boundary when more programs than contexts are bound. -/
  | contextSwap (h : Nat) (restore : Bool)
  /-- SECTION_START (R280): Every region of a placement is SEALED and the section starts, setting tiles, billets and streams to their starting states. -/
  | sectionStart (sec : Nat)
  /-- SECTION_END (R178): A section ends, discarding billet scoreboard state and keeping bytes and poison marks. -/
  | sectionEnd (sec : Nat)
  /-- BUNDLE_ISSUE (R135): A compute tile issues a bundle once every named inlet holds data and every named outlet has room. -/
  | bundleIssue (tile at_ : Nat) (f : Finding) (hit : Option ParityHit)
  /-- ENDSEC_COMPLETE (R153): A tile's outstanding work completes after ENDSEC, it stops issuing and sends its DRAIN and BARRIER packets. -/
  | endsecComplete (tile : Nat)
  /-- TENSOR_ROW_COMPLETE (R149): A streaming TOUT, TPART or TADDP finishes its row as room or data appears. -/
  | tensorRowComplete (tile : Nat)
  /-- INLET_ENTRY_ARRIVAL (R138): A DATA or REDUCE packet reaches a compute-tile inlet and is queued or discarded. -/
  | inletEntryArrival (pkt : Nat)
  /-- STREAM_START (R235): A stream's start condition holds and it begins issuing requests. -/
  | streamStart (sid : Nat)
  /-- PROLOGUE_STREAM_START (R240): A prefetch stream of the next section starts in the prologue into SHADOW billets. -/
  | prologueStreamStart (sid : Nat)
  /-- RUN_AHEAD_START (R243): Firmware writes the next descriptor set and fetch engines run ahead of an unresolved branch. -/
  | runAheadStart (h : Nat)
  /-- STREAM_ACCESS (R161): An address generator or fetch engine performs the next access of its walk. -/
  | streamAccess (sid : Nat) (f fi : Finding)
  /-- BILLET_READ_SERVED (R169): A waiting read of a billet is served once the billet is CLOSED at the stream's epoch. -/
  | billetReadServed (sid : Nat) (f fi : Finding)
  /-- MT_READ (R164): Memory-tile READ along a walk, pushed to the stream's destination. -/
  | mtRead (sid : Nat) (f fi : Finding)
  /-- MT_WRITE (R170): Memory-tile WRITE of a packet's data, optionally closing the billet. -/
  | mtWrite (pkt : Nat)
  /-- MT_GATHER (R163): Memory-tile READ at indexed addresses. -/
  | mtGather (sid : Nat) (f fi : Finding)
  /-- MT_SCATTER (R51): Memory-tile WRITE at indexed addresses, last element in stream order winning. -/
  | mtScatter (sid pkt : Nat) (fi : Finding)
  /-- MT_SADD (R165): Adds a sterling compact value into a stored sterling word. -/
  | mtSadd (pkt at_ : Nat) (f : Finding)
  /-- MT_IADD (R165): Adds 32-bit integers modulo 2^32. -/
  | mtIadd (pkt at_ : Nat) (f : Finding)
  /-- MT_MAX (R165): Elementwise INT32 or FP32 maximum. -/
  | mtMax (pkt at_ : Nat) (f : Finding)
  /-- MT_MIN (R165): Elementwise INT32 or FP32 minimum. -/
  | mtMin (pkt at_ : Nat) (f : Finding)
  /-- MT_CLOSE (R170): Closes a billet without writing data. -/
  | mtClose (pkt : Nat)
  /-- STALLY_ARRIVAL (R220): An in-band tally signal is applied after every earlier packet from its source to that port. -/
  | stallyArrival (pkt : Nat)
  /-- TALLY_SIG_ARRIVAL (R213): A control-network tally signal adds its amount to a tally. -/
  | tallySigArrival (pkt : Nat)
  /-- LATCH_ACQ (R226): A fabric latch acquire is granted when its requester is at the current sequence position, or held. -/
  | latchAcq (pkt : Nat)
  /-- LATCH_REL (R226): The holder releases a fabric latch, advancing the position and granting the next waiting requester. -/
  | latchRel (pkt : Nat)
  /-- REDUCE_COMBINE (R203): A router merges two matching REDUCE packets by adding their values and counts. -/
  | reduceCombine (i j : Nat)
  /-- BARRIER_COMBINE (R207): A router adds the arrivals of two BARRIER packets. -/
  | barrierCombine (i j : Nat)
  /-- FLAG_COMBINE (R207): A router merges two FLAG records order-free. -/
  | flagCombine (i j : Nat)
  /-- BARRIER_ARRIVAL (R207): BARRIER arrivals reach the barrier home, which signals the sequencer when complete. -/
  | barrierArrival (pkt : Nat)
  /-- FLAG_SEND (R252): A tile sends its FLAG record once every write under the setting is acknowledged. -/
  | flagSend (tile oset : Nat)
  /-- FLAG_ARRIVAL (R252): A FLAG record reaches its flag home, which writes the final record when the count reaches flag_elems. -/
  | flagArrival (pkt : Nat)
  /-- WR_ACK_ARRIVAL (R252): A write completion reply reaches its requester. -/
  | wrAckArrival (pkt : Nat)
  /-- DRAIN_ARRIVAL (R283): A DRAIN packet reaches an inlet of a ROLLING region. -/
  | drainArrival (pkt : Nat)
  /-- SEAM_PACKET (R274): A seam cell judges a packet crossing a region border as transit, accepted or refused. -/
  | seamPacket (pkt region side : Nat)
  /-- PACKET_INJECT (R197): A packet is stamped with its lease and injected, or discarded when its destination is reserved or unfitted. -/
  | packetInject (src : TxSource)
  /-- FLIT_ERROR (R209): A flit arrives with an error, which is corrected, poisoned or ends the sending section with ABORTED. -/
  | flitError (pkt : Nat) (e : FlitErr)
  /-- HBM_REQUEST_SERVED (R256): A pseudo-channel controller serves the chosen request by deadline or fixed split. -/
  | hbmRequestServed (pc : Nat) (pick : Nat) (f : Finding)
  /-- WINDOW_READ_COMPLETE (R250): A device read of a host or peer window completes, delivering data or poisoned data with PEER_UNREACHABLE. -/
  | windowReadComplete (req : Nat) (res : ReadResult)
  /-- WINDOW_WRITE_SEND (R251): A device write to a host or peer window is sent or, if it cannot be sent, discarded with PEER_UNREACHABLE. -/
  | windowWriteSend (req : Nat)
  /-- NOP (R264): Frame-stream no operation. -/
  | nop (engine : Nat)
  /-- SYNC (R264): Frame-stream word that ends discarding and starts a stream. -/
  | sync (engine : Nat) (cmd : Word)
  /-- FRAME_ADDR (R265): Sets the frame address for following FRAME_DATA, held under roll until the column drains. -/
  | frameAddr (engine : Nat) (cmd : Word)
  /-- FRAME_DATA (R265): Writes n frames at consecutive indices of one column-band. -/
  | frameData (engine : Nat) (cmd : Word) (payload : List Word)
  /-- WRITE_CREG (R271): Writes the staged copy of a region configuration register. -/
  | writeCreg (engine : Nat) (cmd val : Word)
  /-- CRC_CHECK (R266): Compares the CRC-32C of checked words with the operand and seals a column on success. -/
  | crcCheck (engine : Nat) (cmd val : Word) (eccOk : Bool)
  /-- REGION_OPEN (R268): Opens a region for loading, zeroing its frames unless roll is set. -/
  | regionOpen (engine lease : Nat) (cmd : Word)
  /-- REGION_SEAL (R271): Seals a region and transfers its staged configuration registers to the live copy. -/
  | regionSeal (engine : Nat) (cmd : Word)
  /-- DESYNC (R264): Ends a frame stream. -/
  | desync (engine : Nat) (cmd : Word)
  /-- COLUMN_DRAIN (R283): A column of a ROLLING region drains, its local ports are disabled and its frames are zeroed and loaded. -/
  | columnDrain (region col : Nat)
  /-- FRAME_PACKET_ARRIVAL (R279): An ICP FRAME packet writes a frame of a tile in the writer's region. -/
  | framePacketArrival (pkt : Nat)
  /-- PROGRESS_LIMIT (R329): A section's progress counter reaches 2^20 with work pending and the section ends with DEADLOCK. -/
  | progressLimit (sec : Nat)
  /-- SECTION_TIMEOUT (R334): A section outlives its lease's section time limit and ends with TIMEOUT. -/
  | sectionTimeout (sec : Nat)
  /-- REGION_IDLE_REPORT (R231): A region whose tiles have waited the lend threshold reports idle and Temper gates it. -/
  | regionIdleReport (region : Nat)
  /-- REGION_UNGATE (R492): The condition blocking an idle region is satisfied and the region is ungated within 1 µs. -/
  | regionUngate (region : Nat)
  /-- BUDGET_RECALL (R232): A woken region's full credit returns within 50 µs. -/
  | budgetRecall (region : Nat)
  /-- REGION_HANDOVER (R409): An idle region passes to the head RUN's lease: save, zeroise, restore and make resident. -/
  | regionHandover (region at_ : Nat) (f : Finding)
  /-- REGION_RESERVE (R408): The head RUN reserves each region of its placement whose resident has been resident 2 ms or more. -/
  | regionReserve (region : Nat)
  /-- LEASE_DRAINED (R416): Every section of a DRAINING lease has ended and it is saved and made DORMANT. -/
  | leaseDrained (lease at_ : Nat) (f : Finding)
  /-- DRAINING_LIMIT (R415): A DRAINING lease's section not ended 1 s after the trigger has its regions aborted. -/
  | drainingLimit (lease : Nat)
  /-- DORMANCY_EXPIRY (R418): A lease DORMANT longer than its maximum is closed. -/
  | dormancyExpiry (lease : Nat)
  /-- PROBLEM_DESCRIPTOR (R347): A problem descriptor entry reaches a solver channel. -/
  | problemDescriptor (pkt : Nat)
  /-- PROBLEM_INPUT_ARRIVED (R348): The last input value of a problem is written, iterate 0 is set and the deadline timer starts. -/
  | problemInputArrived (ch pkt : Nat)
  /-- ITERATION_COMPLETE (R340): A channel completes a body, producing iterate k and its residual. -/
  | iterationComplete (ch word : Nat) (f : Finding)
  /-- PROLOGUE_COMPLETE (R340): A channel completes the prologue of a problem. -/
  | prologueComplete (ch word : Nat) (f : Finding)
  /-- PROBLEM_COMPLETE (R355): A channel completes the epilogue and returns its result record and iterate. -/
  | problemComplete (ch word : Nat) (f : Finding)
  /-- SOLVER_DEADLINE (R356): A problem's deadline expires and the channel abandons it and returns a marked result. -/
  | solverDeadline (ch : Nat)
  /-- UNIT_OUT_OF_SERVICE (R61): A fitted unit ceases to be usable, CAP_USABLE and ID_CAP_GEN change and an event is sent. -/
  | unitOutOfService (unit : Nat)
  /-- SCRUB_LINE_READ (R429): A scrubber reads the next line of its domain, correcting or marking it. -/
  | scrubLineRead (die dom line : Nat) (f : Finding)
  /-- SCRUB_WRITE_BACK (R435): The Burnisher writes back a corrected codeword unless a writer has rewritten the line. -/
  | scrubWriteBack (die dom : Nat)
  /-- SCRUB_RESTORED (R431): After 10 quiet seconds an escalated domain returns to its cap. -/
  | scrubRestored (die dom : Nat)
  /-- CANARY_CHECK (R433): At the end of a configuration pass the canary frame is checked. -/
  | canaryCheck (die : Nat) (reportedBit : Nat) (crc : Word) (frames : Nat)
  /-- TMR_VOTE (R432): Each HCLK cycle the Burnisher's three control copies are voted and a disagreeing copy rewritten. -/
  | tmrVote (upset : Nat)
  /-- RUNTIME_SELF_TEST (R437): A region vacant for 100 ms is tested by built-in self-test; `router`: what failed is the tile's router (R196). -/
  | runtimeSelfTest (region : Nat) (failed : Option Nat) (router : Bool)
  /-- SPARE_CALIBRATION (R439): Once all four regions are idle the spare column is calibrated and mapped in and saved states restored. -/
  | spareCalibration (die at_ : Nat) (f : Finding)
  /-- DURABLE_PAGE_WRITE (R446): Firmware writes a durable-store page copy and then its header slot. -/
  | durablePageWrite (page : Nat) (content : List Byte) (interrupted : Nat)
  /-- PATINA_PAGE_FLUSH (R449): Within 1 s of a new record firmware writes the patina log page. -/
  | patinaPageFlush (page : Nat)
  /-- DRBG_RESEED (R456): The DRBG reseeds after 2^16 requests or 1 s. -/
  | drbgReseed
  /-- ENTROPY_HEALTH_FAIL (R457): An entropy health test fails and the DRBG stops generating. -/
  | entropyHealthFail
  /-- ENTROPY_RESTART (R457): Every 1 s the hub restarts the entropy source and clears entropy_fail once it passes. -/
  | entropyRestart (pass : Bool)
  /-- IDE_INTEGRITY_FAIL (R464): An IDE integrity check fails, the stream becomes Insecure and LINK_ERROR is raised. -/
  | ideIntegrityFail (port stream : Nat)
  /-- IDE_KM (R464): An IDE_KM message inside an SPDM session keys an IDE stream. -/
  | ideKm (port stream base limit : Nat)
  /-- GET_VERSION (R462): SPDM request for supported versions. -/
  | getVersion (port : Nat)
  /-- GET_CAPABILITIES (R462): SPDM request for capabilities. -/
  | getCapabilities (port : Nat)
  /-- NEGOTIATE_ALGORITHMS (R462): SPDM algorithm negotiation. -/
  | negotiateAlgorithms (port : Nat) (offered : Bool)
  /-- GET_DIGESTS (R462): SPDM request for certificate digests. -/
  | getDigests (port : Nat)
  /-- GET_CERTIFICATE (R463): SPDM request for a certificate chain. -/
  | getCertificate (port slot : Nat)
  /-- CHALLENGE (R463): SPDM challenge signed with the alias key. -/
  | challenge (port slot : Nat)
  /-- GET_MEASUREMENTS (R463): SPDM request for signed measurements. -/
  | getMeasurements (port index : Nat)
  /-- KEY_EXCHANGE (R462): SPDM session key exchange. -/
  | keyExchange (port : Nat)
  /-- FINISH (R462): SPDM session establishment finish. -/
  | finish (port : Nat) (verified : Bool)
  /-- END_SESSION (R462): SPDM session end. -/
  | endSession (port : Nat)
  /-- TEMPER_DECISION_TICK (R482): Every 10 µs Temper sets each die's FCLK and TCLK targets by cap, protection, floor and budget. -/
  | temperDecisionTick (sn : Sensors)
  /-- CLOCK_SLEW_STEP (R480): Every 0.25 µs a clock moves one 25 MHz step toward its target. -/
  | clockSlewStep (die : Nat) (tclk : Bool)
  /-- DROOP (R481): Die supply voltage falls below the droop threshold and FCLK cycles are stretched. -/
  | droop (die : Nat)
  /-- QUENCH_TRIGGER (R494): A Quench trigger appears and the device enters Quench or records the trigger. -/
  | quenchTrigger (code : Nat)
  /-- QUENCH_TRIGGER_CLEAR (R494): A persisting Quench trigger clears and its bit in TMP_QUENCH.triggers is reset. -/
  | quenchTriggerClear (code : Nat)
  /-- STANDBY_PRESENT (R526): Standby 12 V stays in range for 50 ms and start-up begins at step 1. -/
  | standbyPresent (modId : Nat)
  /-- STANDBY_LOSS (R526): Standby falls or rises out of range and a cold reset occurs. -/
  | standbyLoss
  /-- J1_VALID (R527): J1 has been valid and mated for 100 ms so main power may be enabled. -/
  | j1Valid
  /-- MAIN_POWER_ENABLE (R502): Firmware lets the module controller enable main power and DEV_STATE becomes BOOTING. -/
  | mainPowerEnable
  /-- MAIN_POWER_GOOD (R501): Every main rail is in its window and start-up proceeds through steps 6 to 12. -/
  | mainPowerGood (r : StartupTests)
  /-- STARTUP_RETRY (R502): After 10 s with no persisting trigger, start-up restarts at step 5. -/
  | startupRetry
  /-- STARTUP_WATCHDOG (R516): DEV_STATE reaches no final state within 3.0 s of main power good and a module reset is issued. -/
  | startupWatchdog
  /-- MODULE_RESET (R512): A module reset removes and restores main power and restarts at step 3. -/
  | moduleReset (code : Nat)
  /-- SUPPLY_FAULT (R528): The module controller reports a supply fault, Quench trigger 2. -/
  | supplyFault
  /-- MAIN_POWER_LOSS (R529): Main power is lost, every lease closes, links go down and DEV_STATE returns to STANDBY. -/
  | mainPowerLoss
  /-- J1_REVERSED (R530): A reversed J1 is blocked and reported and main power stays off. -/
  | j1Reversed
  /-- LEAK_SAMPLE (R531): Every 1 ms LEAK_IN is read and its median classified, any state but dry being a leak. -/
  | leakSample (mv : Nat)
  /-- FLOW_SAMPLE (R532): FLOW_IN averaged over 100 ms is compared with the minimum and the sensor window. -/
  | flowSample (mv : Nat)
  /-- THERMISTOR_SAMPLE (R533): Every 100 ms the coolant thermistors are read and faults or COOLANT_WARNING raised. -/
  | thermistorSample (inlet outlet : Int)
  /-- OUTPUT_FAULT (R534): An output's read-back differs from its drive for 10 ms and an output fault is reported. -/
  | outputFault (pin : Nat) (level : Bool)
  /-- I2C_BUS_STUCK (R535): The internal I2C bus stays low 35 ms and is clocked nine times and stopped, then reported each second. -/
  | i2cBusStuck (recovered : Bool)
  /-- SMBUS_BUS_HELD (R538): SMBus held for 35 ms makes the module release the bus and reset its interface. -/
  | smbusBusHeld
  /-- MCTP_PACKET (R538): An MCTP packet arrives on SMBus and is discarded when its PEC fails. -/
  | mctpPacket (pecOk : Bool) (addr : Nat)
  /-- PLDM_GET_SENSOR_READING (R539): PLDM request that returns a sensor's reading. -/
  | pldmGetSensorReading (id : Nat)
  /-- MODULE_RESET_REQUEST (R540): PLDM effecter 100 requests a module reset, refused in Quench. -/
  | moduleResetRequest
  /-- QUENCH_TEST (R540): PLDM effecter 101 drives QUENCH# low for 10 ms. -/
  | quenchTest (wentLow : Bool)
  /-- PLDM_FIRMWARE_UPDATE (R541): PLDM firmware update writes the inactive slot by the steps of FW_STAGE. -/
  | pldmFirmwareUpdate (step : UpdateStep)
  /-- ACTIVATE_FIRMWARE (R541): PLDM ActivateFirmware selects the written slot for the next reset. -/
  | activateFirmware
  /-- SSP_WORD (R542): A 32-bit word shifts into the serial slave port and is passed to the configuration engine. -/
  | sspWord (w : Word)
  /-- SSP_PARTIAL_WORD (R544): SSP_CS# rises mid-word, discarding the bits and breaking the stream. -/
  | sspPartialWord
  /-- RECOVERY_PACKAGE_CHECK (R508): At REGION_SEAL of the hub target the boot ROM checks the pushed recovery package. -/
  | recoveryPackageCheck
  /-- HBM_READ_DATA_ARRIVAL (R249): Read data from an HBM controller reaches the requesting memory tile and lands in its billets, ending the request's outstanding state. -/
  | hbmReadDataArrival (req : Nat)
  /-- TELEMETRY_UPDATE (R499): At least every 100 µs the device updates every telemetry register and samples TEL_THERM_WM. -/
  | telemetryUpdate (sn : Telemetry)
  /-- CE_SUMMARY (R448): Each hour the device writes a CE_SUMMARY patina record of the correctable errors per die and domain. -/
  | ceSummary
  /-- LEASE_FREED (R559): Zeroisation of a CLOSING lease completes, the lease becomes FREE, its id is freed and a LEASE_STATE record is sent. -/
  | leaseFreed (lease : Nat)
  /-- DROOP_RECOVERY (R481): Die supply voltage recovers above the droop threshold and FCLK cycle stretching stops. -/
  | droopRecovery (die : Nat)
  /-- JTAG_INSTRUCTION (R467): An instruction shifted in on the JTAG port selects its register, or bypass unless debug is unlocked. -/
  | jtagInstruction (code : Nat)
  /-- TRST_ASSERT (R545): TRST# is driven low and holds the TAP in Test-Logic-Reset. -/
  | trstAssert
deriving DecidableEq, Repr

end Sys2Proof
end

