-- ==== Sys2Proof/Decode.lean ====
section
/-! DEFINITION. The command that a word spells by the table's bits.  No row of the operation table gives bits: the
rows are events with operands, and none has an encoding. -/
namespace Sys2Proof

/-- The command that the word `w` of `nbits` bits spells: none, for every row of the table is without bits. -/
def decodeTableWord (_nbits _w : Nat) : Option Instr := none

end Sys2Proof
end

