-- ==== Sys2Proof/Config.lean ====
section
/-! DEFINITION. What the spec leaves open, as constants without a body: nothing in Lean can evaluate one or prove a
value of it, so every claim holds whatever it is.  A use applies one to the state's counter of free values, or to the
operands that the value depends on. -/
namespace Sys2Proof

/-- What the DRBG answers to a generate request, by request (19 R456): keys, tokens, nonces and seeds are drawn from it. -/
opaque Config.random : Nat → BitVec 512
/-- A 32-bit value that the spec leaves open in what an instruction of a section writes: by the bits of the instruction with
its operands, and by its place (02 R36: the same operands give the same bytes). -/
opaque Config.openWord : List Nat → Nat → Word
/-- An element that the spec leaves open in what a solver channel computes, by the words that it depends on and its index. -/
opaque Config.openDWord : List Nat → Nat → DWord
/-- A number that the spec leaves open, by draw. -/
opaque Config.freeNat : Nat → Nat
/-- Bytes of a signed response or certificate, whose private key no rule gives, by kind and draw (19 R463). -/
opaque Config.signedBytes : Nat → Nat → BitVec 768
/-- The SHA-384 digest of the boot ROM, whose contents no rule gives (19 Table 19.3). -/
opaque Config.bootRomDigest : BitVec 384
/-- The Vendor ID, which is printed on the module label only (23 R555). -/
opaque Config.vendorId : Nat
/-- Where a capability stands in configuration space, by its PCIe number: one of the header's list, or an extended one; and the
extended capabilities beside those that the model names. -/
opaque Config.capAt : Nat → Nat
opaque Config.extCapAt : Nat → Nat
opaque Config.moreCaps : List Nat
/-- Where the row of an HBM scrub line stands: stack * 2^40 + pseudo-channel * 2^32 + row; no rule places a unit in a row. -/
opaque Config.rowPlace : Nat → Nat
/-- A byte of a lineage table image, which is published apart from the spec (05 R128): LN2 or not, offset. -/
opaque Config.lineageByte : Bool → Nat → Byte
/-- The reduction id of the packets that a TPART sends, by the tile's place in the footprint and the tensor slot: no rule says
where it comes from. -/
opaque Config.partRedId : Nat → Nat → Nat
/-- Whether a TPART's packets carry close, by the tile's place in the footprint and the tensor slot: no rule says. -/
opaque Config.partClose : Nat → Nat → Bool
/-- Whether a reduction step of a TMAC falls in the padding of a block-format row (04 R82), by the tile's place in the
footprint, the tensor slot and the step: no field of the bundle or of the settings gives the row's extent. -/
opaque Config.isPad : Nat → Nat → Nat → Bool
/-- The place of an output block in its tensor, by the ingot's image and the stream's index: first row, first column, and
columns (0: the whole row).  No rule gives the block's declared shape (04 R99). -/
opaque Config.blockBox : List Byte → Nat → Nat × Nat × Nat
/-- The reduction id that a TADDP adds, by the inlet's red_id and the tensor slot: no rule ties a row to an id. -/
opaque Config.addRedId : Nat → Nat → Nat
/-- Whether a MAX or MIN request at an operation unit compares an element as FP32 rather than INT32, by the element's place (tile
and byte address): no field of the request says. -/
opaque Config.mtFp : Nat → Bool
/-- A byte that a cancelled run-ahead leaves unreadable until it is rewritten (07 R177), by its place: of the tile in its region, and
the byte's address (log 155). -/
opaque Config.lostByte : Nat → Nat → Byte
/-- What a spill stores for the bytes of an absent tile, by the tile's place in its region and the byte's address (log 155). -/
opaque Config.absentByte : Nat → Nat → Byte
/-- What a section snapshot gives in place of an empty inlet: for outlet n its code, for n = 4 that neither is named. -/
opaque Config.outletCode : Nat → Nat
/-- A dword of the header of a request that AER logs, by function, BAR, offset and dword: most of its fields are the requester's. -/
opaque Config.tlpHeader : Nat → Nat → Nat → Nat → Word
/-- A byte of a completion that its read did not enable, by function and BAR2 offset: PCIe leaves it open. -/
opaque Config.idleLane : Nat → Nat → Byte
/-- Every other dword of configuration space, as PCIe defines it, by function and offset. -/
opaque Config.cfgSpace : Nat → Nat → Word

end Sys2Proof
end

