-- ==== Sys2Proof/Machine/Bits.lean ====
section
/-! DEFINITION. Bit-field, byte-order and CRC helpers (00 Notation: memory is little-endian; bit n of a wide
structure lies in byte n / 8). -/
namespace Sys2Proof.Machine

/-- Bits [lo + len - 1 : lo] of a number. -/
def natBits (x lo len : Nat) : Nat := x / 2 ^ lo % 2 ^ len

/-- Bit `i` of a number. -/
def natBit (x i : Nat) : Bool := x / 2 ^ i % 2 == 1

/-- 1 for true. -/
def b2n (b : Bool) : Nat := if b then 1 else 0

/-- Put the low `len` bits of `v` at [lo + len - 1 : lo] of `x`. -/
def natPut (x lo len v : Nat) : Nat :=
  x - natBits x lo len * 2 ^ lo + v % 2 ^ len * 2 ^ lo

/-- A little-endian number from its bytes. -/
def leNat : List Byte → Nat
  | [] => 0
  | b :: r => b.toNat + 256 * leNat r

/-- A big-endian number from its bytes. -/
def beNat (bs : List Byte) : Nat := leNat bs.reverse

/-- The `n` little-endian bytes of a number. -/
def leBytes (x : Nat) : Nat → List Byte
  | 0 => []
  | n + 1 => BitVec.ofNat 8 x :: leBytes (x / 256) n

/-- The `n` big-endian bytes of a number. -/
def beBytes (x n : Nat) : List Byte := (leBytes x n).reverse

/-- `len` bytes of a list from offset `off`; bytes past the end are absent. -/
def slice (bs : List Byte) (off len : Nat) : List Byte := (bs.drop off).take len

/-- The little-endian field of `len` bytes at offset `off`. -/
def fieldAt (bs : List Byte) (off len : Nat) : Nat := leNat (slice bs off len)

/-- The 64 bytes of an entry. -/
def entryBytes (e : Entry) : List Byte := leBytes e.toNat 64

/-- An entry from up to 64 bytes; missing bytes are 0. -/
def entryOf (bs : List Byte) : Entry := BitVec.ofNat 512 (leNat bs)

/-- Field [lo + len - 1 : lo] of an entry. -/
def entryField (e : Entry) (lo len : Nat) : Nat := natBits e.toNat lo len

/-- Word `i` of a frame payload (11 R259: 64 little-endian 32-bit words). -/
def frameWord (f : Frame) (i : Nat) : Nat := natBits f.toNat (32 * i) 32

/-- Replace word `i` of a frame payload. -/
def frameSetWord (f : Frame) (i v : Nat) : Frame := BitVec.ofNat 2048 (natPut f.toNat (32 * i) 32 v)

/-- A frame from its words. -/
def frameOfWords (ws : List Word) : Frame :=
  BitVec.ofNat 2048 (ws.foldr (fun w a => w.toNat + 2 ^ 32 * a) 0)

/-- Two's-complement value of the low `w` bits. -/
def toSigned (w x : Nat) : Int :=
  let y := x % 2 ^ w
  if y < 2 ^ (w - 1) then (y : Int) else (y : Int) - 2 ^ w

/-- The low `w` bits of an integer. -/
def ofSigned (w : Nat) (x : Int) : Nat := (x % (2 ^ w : Int)).toNat

/-- Clamp an integer to [lo, hi]. -/
def clampInt (lo hi x : Int) : Int := if x < lo then lo else if hi < x then hi else x

/-- floor(log2 x) for x > 0 (0 for 0). -/
def log2Nat (x : Nat) : Nat := Nat.log2 x

/-- Round a Nat up to a multiple of `m`. -/
def alignUp (x m : Nat) : Nat := (x + m - 1) / m * m

/-- One step of CRC-32C, reflected (11 R266: Castagnoli polynomial). -/
def crcBit (c : Word) : Word := if c.getLsbD 0 then (c >>> 1) ^^^ 0x82F63B78#32 else c >>> 1

/-- CRC-32C register after one byte. -/
def crcByte (c : Word) (b : Byte) : Word :=
  crcBit (crcBit (crcBit (crcBit (crcBit (crcBit (crcBit (crcBit (c ^^^ b.zeroExtend 32))))))))

/-- CRC-32C register after a list of bytes. -/
def crcBytes (c : Word) (bs : List Byte) : Word := bs.foldl crcByte c

/-- CRC-32C register after a word, taken over its four bytes in little-endian order (11 R266). -/
def crcWord (c : Word) (w : Word) : Word := crcBytes c (leBytes w.toNat 4)

/-- CRC-32C of bytes: initial value and final exclusive-or 0xFFFF_FFFF (11 R266). -/
def crc32c (bs : List Byte) : Word := crcBytes 0xFFFFFFFF#32 bs ^^^ 0xFFFFFFFF#32

/-- Set element `i` of a list to `v` (no change past the end). -/
def listSet {α : Type} (l : List α) (i : Nat) (v : α) : List α := l.set i v

/-- Remove element `i` of a list. -/
def listDel {α : Type} (l : List α) (i : Nat) : List α := l.eraseIdx i

/-- Numbers 0 to n - 1. -/
def upTo (n : Nat) : List Nat := List.range n

/-- (a - b) modulo 2^16 below 2^15: the wait condition of 09 R214 on 16-bit serial numbers. -/
def waitHolds (value target : Half) : Bool := decide ((value - target).toNat < 32768)

/-- Saturating increment at `m`. -/
def satInc (x m : Nat) : Nat := if x < m then x + 1 else m

end Sys2Proof.Machine
end

