-- ==== Sys2Proof/Machine/Table.lean ====
section
/-! DEFINITION. Sparse tables: a list of (key, value) pairs with keys strictly rising and no value equal to
what an unlisted key reads as.  Every memory and every register array of the block is one of these, so that
equal contents are equal data. -/
namespace Sys2Proof.Machine

/-- A sparse table of `α` by number. -/
abbrev Table (α : Type) := List (Nat × α)

/-- The value at key `k`; `d` is what an unlisted key reads as. -/
def Table.get {α : Type} (d : α) (t : Table α) (k : Nat) : α :=
  match t with
  | [] => d
  | (a, v) :: r => if a = k then v else Table.get d r k

/-- Put the pair (k, v) at its place, replacing one with the same key. -/
def Table.ins {α : Type} (t : Table α) (k : Nat) (v : α) : Table α :=
  match t with
  | [] => [(k, v)]
  | (a, w) :: r =>
    if k < a then (k, v) :: (a, w) :: r
    else if k = a then (k, v) :: r
    else (a, w) :: Table.ins r k v

/-- Remove key `k`, wherever it is listed. -/
def Table.del {α : Type} (t : Table α) (k : Nat) : Table α :=
  match t with
  | [] => []
  | (a, w) :: r => if a = k then Table.del r k else (a, w) :: Table.del r k

/-- Write `v` at key `k`; writing what an unlisted key reads as removes the entry. -/
def Table.set {α : Type} [DecidableEq α] (d : α) (t : Table α) (k : Nat) (v : α) : Table α :=
  if v = d then t.del k else t.ins k v

/-- Change the value at key `k`. -/
def Table.upd {α : Type} [DecidableEq α] (d : α) (t : Table α) (k : Nat) (f : α → α) : Table α :=
  t.set d k (f (t.get d k))

/-- Keep the entries whose key satisfies `p` (used to zeroise: what is dropped reads as the default). -/
def Table.keep {α : Type} (t : Table α) (p : Nat → Bool) : Table α :=
  t.filter (fun e => p e.1)

/-- Rewrite every listed value (a pass over what is listed), dropping those that become the default. -/
def Table.mapVals {α : Type} [DecidableEq α] (d : α) (f : Nat → α → α) (t : Table α) : Table α :=
  (t.map (fun e => (e.1, f e.1 e.2))).filter (fun e => e.2 ≠ d)

/-- Do the listed keys rise strictly, from `lo` on? -/
def Table.sortedFrom {α : Type} (lo : Nat) : Table α → Bool
  | [] => true
  | (a, _) :: r => decide (lo ≤ a) && Table.sortedFrom (a + 1) r

/-- The canonical form: keys strictly rising and no listed value equal to the default. -/
def Table.wf {α : Type} [DecidableEq α] (d : α) (t : Table α) : Bool :=
  Table.sortedFrom 0 t && t.all (fun e => e.2 ≠ d)

/-- Write consecutive values from key `k`. -/
def Table.setList {α : Type} [DecidableEq α] (d : α) (t : Table α) (k : Nat) (vs : List α) : Table α :=
  match vs with
  | [] => t
  | v :: r => Table.setList d (t.set d k v) (k + 1) r

/-- Read `n` consecutive values from key `k`. -/
def Table.getList {α : Type} (d : α) (t : Table α) (k : Nat) : Nat → List α
  | 0 => []
  | n + 1 => t.get d k :: Table.getList d t (k + 1) n

end Sys2Proof.Machine
end

