-- ==== Sys2Proof/Machine/Types.lean ====
section
/-! DEFINITION. The data types that State is made of: messages, packets, tiles, streams, programs, sections,
leases, functions, ports, solver channels.  Plain data only. -/
namespace Sys2Proof.Machine

/-- The statuses of 16 Table 16.16; `Status.code` gives their values. -/
inductive Status where
  | ok | accepted | busy | badOpcode | badArg | noLease | noSpace | unitAbsent | tileAbsent | ingotCrc
  | ingotSignature | modeDenied | seamViolation | configLoadFailed | deadlock | writerConflict | poisoned
  | quenched | aborted | dormant | tokenRejected | stewardRequired | locked | timeout | peerUnreachable
deriving DecidableEq, Repr

/-- A watermark register (00 R19, Table 0.4). -/
structure Wm where
  level : Bool := false
  crossed : Bool := false
  crossings : Nat := 0
deriving DecidableEq, Repr

/-- A staged group (00 R12-R17): staged and live copies, COMMIT_PENDING and stage_drop. -/
structure Stg where
  staged : DWord := 0
  live : DWord := 0
  pending : Bool := false
  drop : Bool := false
deriving DecidableEq, Repr

/-- A ring of host memory (16 Table 16.1, 23 R551): bits [51:0] of the group hold the base's bits [63:12],
bits [55:52] the size_log2. -/
structure Ring where
  grp : Stg := {}
  prod : Word := 0
  cons : Word := 0
deriving DecidableEq, Repr

/-- A request-queue message with its sequence number (16 R386). -/
structure Msg where
  seq : Word
  bytes : Entry
deriving DecidableEq, Repr

/-- An inbound window (15 Table 15.4). -/
structure InWin where
  lease : Nat
  barOff : Nat
  length : Nat
  hbmOff : Nat
  writable : Bool
  /-- ORD_LANDING of the window (15 R371). -/
  landing : DWord := 0
deriving DecidableEq, Repr

/-- ORD_WIN_FAULT (15 Table 15.5). -/
structure WinFault where
  valid : Bool := false
  write : Bool := false
  count : Nat := 0
  barOff : Nat := 0
deriving DecidableEq, Repr

/-- A write to BAR0 or BAR4 that is accepted and not yet in force in the register's domain (00 R10). -/
structure RegWrite where
  bar4 : Bool
  off : Nat
  size : Nat
  val : DWord
deriving DecidableEq, Repr

/-- The request that AER has logged: its BAR and its offset in it (16 R386). -/
structure AerLog where
  bar : Nat
  off : Nat
  /-- The bit of the error in the status register. -/
  bit : Nat
deriving DecidableEq, Repr

/-- Per-function state: configuration bits, mailbox, rings, doorbells, windows, MSI-X (chapters 15, 16, 09, 23). -/
structure Fn where
  /-- The function answers without RRS (21 R504). -/
  ready : Bool := false
  /-- Memory Space Enable, Bus Master Enable, Enable Relaxed Ordering, D3hot (15 R375, R379). -/
  mse : Bool := false
  bme : Bool := false
  ero : Bool := true
  d3hot : Bool := false
  msixEnable : Bool := false
  msixFMask : Bool := false
  /-- Max Payload Size and Max Read Request Size as powers above 128 bytes. -/
  mps : Nat := 0
  mrrs : Nat := 2
  /-- log2 of the BAR2 size (15 Table 15.3). -/
  bar2Log2 : Nat := 26
  /-- The base address registers, by dword: 0 to 5 the function's, 6 to 11 those of the VFs in the SR-IOV capability (15 R365). -/
  bars : Table Word := []
  /-- MBX_MSG[0-7]. -/
  msg : Entry := 0
  /-- The request queue, oldest first. -/
  queue : List Msg := []
  nextSeq : Word := 0
  rejectedCount : Nat := 0
  rejectValid : Bool := false
  lastRejectSeq : Word := 0
  /-- AER's Uncorrectable Error Status, Mask and Severity and the request logged (15 R384, 16 R386; layout and reset values PRESUMED
  PCIe's, log 151). -/
  aerStatus : Word := 0
  aerMask : Word := 0
  aerSeverity : Word := 0x00462030
  aerLog : Option AerLog := none
  /-- Register writes accepted and not yet in force, oldest first (00 R10, 15 R378). -/
  regWrites : List RegWrite := []
  queueWm : Wm := {}
  ring : Ring := {}
  /-- Replies and records held while the ring is full, oldest first (16 R393). -/
  held : List Entry := []
  replyDropped : Word := 0
  evt : Ring := {}
  evtDropped : Word := 0
  /-- The next event number of the function (18 Table 18.6). -/
  evtNumber : Word := 0
  dbRing : Word := 0
  /-- Doorbell bindings: bit to (lease, host tally). -/
  dbBind : Table (Option (Nat × Nat)) := []
  winFault : WinFault := {}
  windows : Table (Option InWin) := []
  /-- HTALLY_LEASE (23 Table 23.9). -/
  htLease : Nat := 0xFFFF
  /-- Pending ORD_FLUSH reads, oldest first: the window writes that each still waits for, and its Relaxed Ordering. -/
  flushes : List (List Nat × Bool) := []
  /-- MSI-X vectors masked (all masked at reset), and the PBA. -/
  msixMask : BitVec 16 := 0xFFFF
  msixPba : BitVec 16 := 0
  /-- The address and data words of the MSI-X table, by dword (23 R552; reset 0, PCIe's). -/
  msixTable : Table Word := []
deriving DecidableEq, Repr

/-- An IDE stream (19 R464). -/
structure Ide where
  secure : Bool := false
  insecure : Bool := false
  base : Nat := 0
  limit : Nat := 0
deriving DecidableEq, Repr

/-- How far an SPDM connection has come (19 R462). -/
inductive SpdmState where
  | start | version | capabilities | negotiated | handshake | session
deriving DecidableEq, Repr

/-- Per-port state (chapters 15, 19, 21, 22). -/
structure Port where
  linkUp : Bool := false
  /-- PERSTn# is high (22 R536). -/
  perstHigh : Bool := false
  /-- The port was released at step 11 (21 R503). -/
  released : Bool := false
  /-- The port is in D3cold (21 R514). -/
  d3cold : Bool := false
  numVfs : Nat := 0
  vfEnable : Bool := false
  /-- Stream 0 is the link stream, 1 to 4 the selective streams. -/
  ide : Table Ide := []
  spdm : SpdmState := .start
deriving DecidableEq, Repr

/-- A BAR2 write accepted and not yet visible (15 R367, R558). -/
structure WinWrite where
  id : Nat
  fn : Nat
  window : Nat
  lease : Nat
  addr : Nat
  barOff : Nat
  data : List (Option Byte)
  ep : Bool
  /-- Its HBM was released since: the bytes are discarded (15 R558). -/
  lost : Bool := false
deriving DecidableEq, Repr

/-- The attributes of a memory request of the device (15 R374, R379, 19 R465). -/
structure Attr where
  ro : Bool := false
  ep : Bool := false
  /-- 0 in every request (15 R374). -/
  noSnoop : Bool := false
  /-- The port's IDE stream that carries it, where one does. -/
  ide : Option Nat := none
deriving DecidableEq, Repr

/-- What the device sends to its host ports and pins, in order. -/
inductive Out where
  /-- A posted memory write on function `fn`'s port. -/
  | memWrite (fn addr : Nat) (data : List Byte) (a : Attr)
  | msix (fn vector : Nat)
  | zeroRead (fn addr : Nat) (a : Attr)
  | memRead (fn addr len : Nat) (a : Attr)
  /-- Completion of a read: data, EP and Relaxed Ordering. -/
  | completion (fn : Nat) (data : List Byte) (ep ro : Bool)
  | unsupported (fn : Nat)
  | retryStatus (fn : Nat)
  /-- An error message that AER signals: ERR_FATAL or ERR_NONFATAL. -/
  | errMessage (fn : Nat) (fatal : Bool)
  | cfgData (fn : Nat) (v : Word)
  /-- An SPDM or IDE_KM response on a port's DOE: kind and content. -/
  | doe (port kind : Nat) (ok : Bool) (data : List Byte)
  /-- A PLDM response: completion code and data. -/
  | pldm (code : Nat) (data : List Int)
  /-- The status word that SSP_MISO shifts out. -/
  | sspMiso (w : Word)
deriving DecidableEq, Repr

/-- A sterling word (04 Table 4.7): the integer and the four flags. -/
structure Sterling where
  i : BitVec 632 := 0
  nan : Bool := false
  pinf : Bool := false
  ninf : Bool := false
  poison : Bool := false
deriving DecidableEq, Repr

/-- A value of the common internal form (04 Table 4.4), or one on its way into a format: a finite number
(-1)^neg * m * 2^e with its sign (zero has m = 0), an infinity, a NaN, or class 4, poison. -/
inductive Val where
  | num (neg : Bool) (m : Nat) (e : Int)
  | inf (neg : Bool)
  | nan
  | poison
deriving DecidableEq, Repr

/-- An accumulator (06 R148): a sterling word in FAST; otherwise the running state of the mode's order, with the
number of terms taken, as FP32 or INT32 words, and the strict flags raised. -/
structure Acc where
  st : Sterling := {}
  lanes : List Word := []
  terms : Nat := 0
  /-- Unpaired lineage LN2 products waiting for their pairs (05 R121), by lane. -/
  held : List (Nat × Val) := []
  /-- The terms are INT8 by INT8 in a lineage mode (05 R123). -/
  integ : Bool := false
  /-- The order code and block length of a STRICT reduction (05 R113). -/
  order : Nat := 0
  blockLog2 : Nat := 0
  flags : BitVec 5 := 0
  poison : Bool := false
deriving DecidableEq, Repr

/-- The strict flags raised in a section on the path of each of `n` bytes, five bits a byte (05 R116).  In STRICT mode every
element takes whole bytes, so each element has flags of its own. -/
abbrev ByteFl (n : Nat) := BitVec (5 * n)

/-- The flags of byte `i`. -/
def flAt {n : Nat} (f : ByteFl n) (i : Nat) : BitVec 5 := BitVec.ofNat 5 (f.toNat / 2 ^ (5 * i))
/-- The flags of `k` bytes from byte `i` on, together. -/
def flAny {n : Nat} (f : ByteFl n) (i k : Nat) : BitVec 5 := (List.range k).foldl (fun a j => a ||| flAt f (i + j)) 0
/-- Flags by byte from a function. -/
def flOf (n : Nat) (g : Nat → BitVec 5) : ByteFl n :=
  BitVec.ofNat (5 * n) ((List.range n).foldr (fun i a => (g i).toNat + 32 * a) 0)

/-- A queue entry with its poison mark (06 R154), the strict flags on the path of each of its bytes (05 R116), and the
output setting that wrote it: 1 + 8 tile + setting, or 0 (10 R252). -/
structure QEntry where
  data : Entry
  poison : Bool := false
  fl : ByteFl 64 := 0
  own : Nat := 0
deriving DecidableEq, Repr

/-- A sterling compact pair or row piece received or to be sent (08 Table 8.5). -/
structure Reduce where
  redId : Nat
  pair : Nat
  vals : List Sterling
  contrib : Nat := 1
  closes : Nat := 0
  tails : Nat := 0
deriving DecidableEq, Repr

/-- An output-block flag record in the making (04 Table 4.9). -/
structure FlagRec where
  nanInf : Bool := false
  poison : Bool := false
  firstIsNan : Bool := false
  strict : BitVec 5 := 0
  nanFirst : Nat := 0xFFFFFFFF
  poisonFirst : Nat := 0xFFFFFFFF
  count : Nat := 0
deriving DecidableEq, Repr

/-- The payload of a packet (08 Table 8.6). -/
inductive Payload where
  | none
  | entries (es : List QEntry)
  | reduce (r : Reduce)
  | signal (idx amount : Nat)
  | drain (tag : Nat)
  | mem (addr len : Nat) (data : List Byte) (poison : List Bool)
  /-- A memory-tile operation: tile byte address and operand bytes, with its poison and the strict flags of each byte. -/
  | mt (addr : Nat) (data : List Byte) (poison : Bool) (fl : List (BitVec 5))
  | nack (code : Nat)
  | frame (index : Nat) (f : Frame)
  | barrier (id arrivals : Nat)
  | flag (id : Nat) (r : FlagRec)
  | latch (idx gen : Nat) (abandoned : Bool)
  | event (e : Entry)
deriving DecidableEq, Repr

/-- A packet in flight (08 R200): virtual network, kind, addresses, stamp and header fields. -/
structure Packet where
  vn : Nat
  kind : Nat
  dst : Nat
  src : Nat
  port : Nat
  lease : Nat := 0
  op : Nat := 0
  close : Bool := false
  release : Bool := false
  sig : Bool := false
  sigTally : Nat := 0
  comb : Bool := false
  /-- The section that sent it. -/
  sec : Nat := 0
  /-- The request or stream that it belongs to, where one does. -/
  ref : Nat := 0
  /-- The sources of the packets that were merged into it (08 R203, R204). -/
  joined : List Nat := []
  /-- The packet travels inside the hub or between units that check the stamp themselves (11 R274). -/
  pl : Payload := .none
deriving DecidableEq, Repr

/-- A register value with its poison mark (06 R154). -/
structure PVal where
  v : Word := 0
  poison : Bool := false
  fl : ByteFl 4 := 0
deriving DecidableEq, Repr

/-- A predicate with its poison mark. -/
structure PBit where
  v : Bool := false
  poison : Bool := false
deriving DecidableEq, Repr

/-- A vector register: 64 lanes and a poison mark for each quarter (06 R154). -/
structure VReg where
  v : Frame := 0
  poison : BitVec 4 := 0
  /-- Strict flags on the path of each byte (05 R116). -/
  fl : ByteFl 256 := 0
deriving DecidableEq, Repr

/-- One level of the hardware loop stack (06 R151). -/
structure Loop where
  first : Nat
  last : Nat
  left : Nat
deriving DecidableEq, Repr

/-- A streaming tensor operation in progress (06 R149): kind 3 TOUT, 4 TPART, 5 TADDP, with the row, outlet or
inlet, the entries left to send, and for TADDP the reduction id and the contributors received of each pair. -/
structure RowOp where
  op : Nat
  row : Nat
  queue : Nat
  entries : List QEntry := []
  reduces : List Reduce := []
  redId : Nat := 0
  contribs : Table Nat := []
deriving DecidableEq, Repr

/-- How far a compute tile is in its section. -/
inductive TilePhase where
  | idle | issuing | ending | ended
deriving DecidableEq, Repr

/-- A compute tile (06 Table 6.1). -/
structure Tile where
  phase : TilePhase := .idle
  sec : Nat := 0
  pc : Nat := 0
  loops : List Loop := []
  ctlPoison : Bool := false
  s : Table PVal := []
  a : Table PVal := []
  p : Table PBit := []
  v : Table VReg := []
  acc : Table Acc := []
  inlets : Table (List QEntry) := []
  /-- REDUCE values waiting in reduction inlets. -/
  redIn : Table (List Reduce) := []
  /-- Outlet queues, with the close bit of each entry unused; REDUCE outlets hold `outRed`. -/
  outlets : Table (List QEntry) := []
  outRed : Table (List Reduce) := []
  /-- Entries sent from each outlet so far (09 R219). -/
  sent : Table Nat := []
  rowOp : Option RowOp := none
  /-- Flag records by output setting (06 R150), whether sent, and writes not yet acknowledged (10 R252). -/
  flags : Table FlagRec := []
  flagSent : Table Bool := []
  unacked : Table Nat := []
  /-- Advance of the scale address of each output setting (12 Table 12.7). -/
  scaleAdv : Table Nat := []
  /-- DRAIN packets received by inlet (11 R283). -/
  drains : Table Nat := []
  /-- DRAIN and BARRIER sent for the section (11 R282). -/
  drainSent : Bool := false
  /-- An outstanding acquire by latch: the requester reserved an inlet entry (09 R227). -/
  latchWait : List Nat := []
  /-- Local port disabled: the column drained (11 R284) or the tile is absent (08 R196). -/
  portOff : Bool := false
  /-- Ticks for which its issue has been blocked solely on tally-watch or latch inlets (09 R231). -/
  idle : Nat := 0
deriving DecidableEq, Repr

/-- A billet's scoreboard state (07 Table 7.7). -/
inductive BilletSt where
  | empty | opened | closed | shadow
deriving DecidableEq, Repr

/-- A declared billet of a running section, its state, epoch and count (07 R167). -/
structure Billet where
  kind : Nat
  count : Nat
  writer : Nat
  st : BilletSt := .empty
  epoch : Nat := 0
  /-- Releases (RING) or closes (ACCUM) so far. -/
  got : Nat := 0
  sec : Nat := 0
  zero : Bool := false
deriving DecidableEq, Repr

/-- A fabric latch (09 R226, R229). -/
structure FLatch where
  pos : Nat := 0
  held : Bool := false
  /-- The holder: 64 times its endpoint plus the port at which it takes grants. -/
  holder : Nat := 0
  generation : BitVec 8 := 0
  abandoned : Bool := false
  /-- Requesters (endpoint, port) that have asked. -/
  asked : List (Nat × Nat) := []
deriving DecidableEq, Repr

/-- A memory tile's own state (07 Table 7.1). -/
structure MTile where
  sec : Nat := 0
  billets : Table (Option Billet) := []
  tally : Table Half := []
  tail : Table Nat := []
  /-- Next firing k of each watch (09 R217). -/
  watch : Table Nat := []
  latch : Table FLatch := []
  /-- Pair counts of reduction stream ports (08 R206): contributors received by (port, redId, pair). -/
  redGot : Table Nat := []
  portOff : Bool := false
deriving DecidableEq, Repr

/-- A stream descriptor as 12 Table 12.6 lays it out: sixteen 64-bit words, endpoints relocated. -/
abbrev SDesc := BitVec 1024

/-- How far a stream is: it waits, issues, or has issued its last access (12 R299). -/
inductive StreamPhase where
  | waiting | running | done
deriving DecidableEq, Repr

/-- A stream of a section (10 R234). -/
structure Stream where
  sec : Nat
  index : Nat
  tile : Nat
  desc : SDesc
  phase : StreamPhase := .waiting
  /-- Its start condition has held since its engine came to it (09 R214, 10 R235). -/
  ready : Bool := false
  /-- Next access of the walk to perform, and the accesses of the head entry of its port performed already. -/
  pos : Nat := 0
  sub : Nat := 0
  /-- The access at `pos` waits for its billet (07 R169). -/
  blocked : Bool := false
  /-- Completed passes over each RING billet (07 R173); of a writing stream, a 1 for each billet it has written. -/
  passes : Table Nat := []
  /-- Requests sent and not complete. -/
  outstanding : Nat := 0
  /-- Accesses whose data have been written. -/
  landed : Nat := 0
  /-- Entries of data sent, and the bytes of an entry being put together, with poison and strict flags. -/
  sent : Nat := 0
  pack : List Byte := []
  packPoison : Bool := false
  packFl : List (BitVec 5) := []
  /-- The first out-of-billet index or range fault has been reported. -/
  faulted : Bool := false
  /-- It has asked for its latch, and holds it. -/
  latchAsked : Bool := false
  latchHeld : Bool := false
  /-- Signals due before its section started, which are given at the start (10 R245). -/
  owed : Nat := 0
  /-- Ticks for which it has waited on its start tally (09 R231). -/
  idle : Nat := 0
deriving DecidableEq, Repr

/-- A request for HBM (10 R255, R256) or for a host or peer window (10 R250, R251). -/
structure Req where
  id : Nat
  lease : Nat
  sec : Nat
  /-- Handle of the section's program. -/
  prog : Nat := 0
  /-- The stream (by number) that asked. -/
  sid : Nat
  write : Bool
  /-- True for a window; `window` is its index. -/
  isWindow : Bool
  window : Nat := 0
  addr : Nat
  /-- Bus address of a window request. -/
  bus : Nat := 0
  len : Nat
  data : List Byte := []
  poison : Bool := false
  /-- Strict flags on the path of each byte of the data (05 R116); none listed: none raised. -/
  fl : List (BitVec 5) := []
  /-- The access of the walk that it serves, or of a write the last access that its data come from. -/
  pos : Nat := 0
  /-- Of a read, the address in its memory tile where the data lands, or none where they are dropped (07 R163). -/
  land : Option Nat := none
  /-- Endpoint of the requester. -/
  src : Nat := 0
  slack : Nat := 0xFFF
  /-- Arrival at the controller, in ns of SCLK time. -/
  arrival : Nat := 0
  /-- Served by the controller, or sent by the port. -/
  served : Bool := false
  /-- The port whose tag a read of a window holds, until it is back (15 Table 15.1). -/
  port : Option Nat := none
  /-- Its data or its acknowledgement has come back; a stream takes these in the order of its requests. -/
  back : Bool := false
deriving DecidableEq, Repr

/-- A host tally (09 Table 9.4). -/
structure HTally where
  value : Half := 0
  armed : Bool := false
  vector : Nat := 2
  target : Half := 0
deriving DecidableEq, Repr

/-- A host latch (09 Table 9.6). -/
structure HLatch where
  holder : Half := 0
  generation : BitVec 8 := 0
  abandoned : Bool := false
  relMismatch : Bool := false
deriving DecidableEq, Repr

/-- A window-list entry (15 Table 15.6). -/
structure WinEntry where
  busAddr : Nat
  length : Nat
  read : Bool
  write : Bool
  peer : Bool
  runAheadSafe : Bool
deriving DecidableEq, Repr

/-- A staged ingot in its slot (12 R306): the image, and whether its column group was steered since (02 R45). -/
structure Slot where
  image : List Byte
  steered : List Nat := []
deriving DecidableEq, Repr

/-- The saved state of a region (17 R409): billets, poison marks, tallies, latch generations and ABANDONED. -/
structure Saved where
  sram : Table Byte := []
  poison : Table Bool := []
  tally : Table Half := []
  latchGen : Table (BitVec 8) := []
  latchAband : Table Bool := []
deriving DecidableEq, Repr

/-- Lease states (17 Table 17.2). -/
inductive LeaseSt where
  | free | opened | draining | dormant | closing
deriving DecidableEq, Repr

/-- A lease (17 Table 17.1). -/
structure Lease where
  st : LeaseSt := .free
  owner : Nat := 0
  /-- Region grants, bit r for region r. -/
  regions : DWord := 0
  /-- The die of each 64 MiB span, span 0 first (10 R254). -/
  spans : List Nat := []
  /-- The stack of the save area of each granted region, plus one (17 R405, 18 R443). -/
  saveStack : Table Nat := []
  tallies : Nat := 0
  latches : Nat := 0
  htally : Table HTally := []
  hlatch : Table HLatch := []
  token : BitVec 128 := 0
  /-- The lease key pair in the hub key store (19 R458). -/
  key : BitVec 512 := 0
  lendUs : Nat := 20
  limitUs : Nat := 0
  demandSigned : Bool := false
  keys : Table (Option (BitVec 768)) := []
  diePref : Nat := 0
  debugPerm : Bool := false
  maxDormS : Nat := 0
  entries : Table (Option WinEntry) := []
  slots : Table (Option Slot) := []
  saves : Table (Option Saved) := []
  /-- SCLK ticks at the DRAINING trigger and at the entry into DORMANT. -/
  drainAt : Nat := 0
  dormAt : Nat := 0
  /-- Peer windows that ended sections wrote, and of the last byte sent to each window its bus address and offset (15 R381). -/
  peerWins : List Nat := []
  peerLast : Table (Nat × Nat) := []
  /-- Cause of the close in progress (18 Table 18.7). -/
  cause : Nat := 0
  /-- The former owner, and the port it is on (17 R420). -/
  formerOwner : Nat := 0
  /-- The owner could be told when the close began (17 R559). -/
  told : Bool := false
deriving DecidableEq, Repr

/-- What a program waits for. -/
inductive ProgWait where
  | none
  | run            -- its RUN waits for regions, or loads
  | wait (tally target : Nat)   -- WAIT not satisfied
  | satisfied      -- a value change satisfied the WAIT (09 R214)
  | br             -- BR waits for earlier sections
  | fence          -- FENCE
  | move           -- SPILL or FILL
  | halt           -- HALT waits for its sections
deriving DecidableEq, Repr

/-- A spill or fill in progress (07 R181). -/
structure Move where
  fill : Bool
  lease : Nat
  region : Nat
  scope : Nat
  hbmOff : Nat
deriving DecidableEq, Repr

/-- A bound section program (12 R312) and its context. -/
structure Prog where
  lease : Nat
  fn : Nat
  tag : Nat
  seq : Word
  code : List DWord
  pc : Nat := 0
  loops : List Loop := []
  flags : BitVec 3 := 0
  poisoned : Bool := false
  /-- RUNs issued since SEQ_START (12 R311). -/
  runs : Nat := 0
  wait : ProgWait := .none
  /-- The section that the current RUN made. -/
  runSec : Nat := 0
  suspended : Bool := false
  /-- Stopping: no further instruction; the earliest failed RUN's index and status (12 R321). -/
  stopping : Bool := false
  failIdx : Nat := 0
  /-- Issue number of that RUN; 0 for a program that SEQ_STOP ended. -/
  failOrd : Nat := 0
  failSt : Status := .ok
  /-- Writes the record at the end (false once the owner is lost, 17 R415). -/
  silent : Bool := false
  /-- The hardware context it occupies, or none while swapped out (12 R322). -/
  ctx : Option Nat := none
  /-- Peer windows that the FENCE in progress has read. -/
  peerReads : List Nat := []
  /-- Peer windows that its sections wrote (15 R381). -/
  peerWins : List Nat := []
  move : Option Move := none
  /-- Run-ahead section for the first RUN past an unresolved BR (10 R243). -/
  aheadSec : Option Nat := none
  /-- The section of the last RUN, behind which a RUN with roll may roll: none after a WAIT, SPILL or FILL (11 R281). -/
  rollFrom : Option Nat := none
  /-- Index of the last instruction issued. -/
  lastIssued : Nat := 0
deriving DecidableEq, Repr

/-- An event or patina record before its number is given (18 Table 18.6): the fields that the raising rule names. -/
structure Ev where
  type : Nat
  status : Nat := 0
  lease : Nat := 0xFFFF
  unit : Nat := 0xFFFF
  tag : Nat := 0
  addr : Nat := 0
  body : List Byte := []
deriving DecidableEq, Repr

/-- How far a section is. -/
inductive SecPhase where
  | queued      -- its RUN waits (12 R310, 17 R407)
  | ahead       -- run-ahead of an unresolved branch
  | prologue    -- loading or rolling
  | running
  | ending      -- stopped by a check; ends at SECTION_END
deriving DecidableEq, Repr

/-- An entry of a section's billet table (12 Table 12.4), relocated: memory tile, billet, kind, ZERO_AT_START, count, and
the writer's endpoint address, 0xFFFF the fetch engine, 0xFFFE none. -/
structure BilDecl where
  tile : Nat
  index : Nat
  kind : Nat
  zero : Bool
  count : Nat
  writer : Nat
deriving DecidableEq, Repr

/-- A section: one placement of an ingot (12 R308). -/
structure Section where
  prog : Nat
  lease : Nat
  slot : Nat
  /-- Index of its RUN instruction. -/
  instr : Nat
  roll : Bool
  origin : Nat
  /-- (footprint index, region id). -/
  placed : List (Nat × Nat)
  phase : SecPhase := .queued
  /-- Its load has begun (12 R310, 11 R280). -/
  loading : Bool := false
  /-- RUNs issued since SEQ_START, this one included (12 R311). -/
  tag : Nat := 0
  mode : Nat := 0
  rounding : Nat := 0
  seed : DWord := 0
  /-- When it began to wait, and when it started, in SCLK ticks. -/
  since : Nat := 0
  started : Nat := 0
  limitUs : Nat := 0
  lendUs : Nat := 20
  /-- The status it will end with, when a check has decided one. -/
  verdict : Option Status := none
  /-- The SCLK count of that decision (13 R333). -/
  verdictAt : Nat := 0
  /-- Progress counter in fabric cycles (13 R329). -/
  progress : Nat := 0
  poisoned : Bool := false
  timingDep : Bool := false
  remapped : Bool := false
  /-- The billet table, relocated (12 R297), and the stream of each output setting in use: key 8 tile + setting, value
1 + stream index (12 R301). -/
  bils : List BilDecl := []
  osets : Table Nat := []
  /-- Records merged so far at flag homes, by stream index; those written; those declared (10 R252, R253). -/
  flagGot : Table FlagRec := []
  flagDone : Table Bool := []
  flagWant : List Nat := []
  /-- Barrier arrivals so far and the count that completes it (0: none). -/
  barrier : Nat := 0
  barrierWant : Nat := 0
  /-- Regions whose load failed once already (11 R288), and those that its load has opened. -/
  retried : List Nat := []
  opened : List Nat := []
  /-- The section it rolls behind. -/
  behind : Option Nat := none
  /-- Records of a run-ahead stream's failures, held until the branch commits (10 R247). -/
  heldEvs : List Ev := []
  /-- Channel problem source by channel (14 R349). -/
  chanSrc : Table Nat := []
  chanFault : List Nat := []
  /-- Peer windows written. -/
  peerWins : List Nat := []
deriving DecidableEq, Repr

/-- Region states (11 Table 11.7). -/
inductive RegionSt where
  | idle | opened | rolling | sealed | faulted
deriving DecidableEq, Repr

/-- A region (11 R272, 17 R406): state, configuration registers, residency, power. -/
structure Region where
  st : RegionSt := .idle
  /-- Staged and live configuration registers by number (11 Table 11.6). -/
  staged : Table Word := []
  live : Table Word := []
  /-- The resident lease, and since when (17 R406, R407). -/
  resident : Option Nat := none
  since : Nat := 0
  /-- Reserved for a section's RUN (17 R408) or for steering or a test (18 Table 18.4, R437). -/
  reserved : Option Nat := none
  steering : Bool := false
  /-- Reports idle (09 R231), clock-gated, duty of 16 and full credit (20 R490, R491). -/
  idle : Bool := false
  gated : Bool := false
  duty : Nat := 16
  lent : Bool := false
  /-- The idle region whose credit lifts this region's duty limit (20 R491). -/
  lender : Option Nat := none
  /-- Vacant since, and last self-test (18 R437), in SCLK ticks. -/
  vacantAt : Nat := 0
  testedAt : Option Nat := none
  /-- Columns sealed by the load in progress, and drained under roll. -/
  sealedCols : BitVec 9 := 0
  drainedCols : BitVec 9 := 0
  /-- A rolled RUN was cancelled; the region becomes IDLE when its ending section ends (11 R286). -/
  idlePending : Bool := false
  /-- A roll failed; the region becomes FAULTED when its ending section ends (11 R289). -/
  failPending : Bool := false
  /-- The emulation of a solver channel occupies it (14 R360). -/
  emulation : Option Nat := none
deriving DecidableEq, Repr

/-- Where the execution of a frame stream stands (11 R264 to R268). -/
structure CfgCtx where
  /-- Words are executed (false: discarded until SYNC). -/
  synced : Bool := false
  open_ : Option Nat := none
  lease : Nat := 0
  roll : Bool := false
  /-- Column and next index that the last FRAME_ADDR since REGION_OPEN set. -/
  at_ : Option (Nat × Nat) := none
  crc : Word := 0xFFFFFFFF
  /-- Frames of the current column written since its last passing CRC_CHECK. -/
  unchecked : Bool := false
  /-- Last frame address. -/
  lastAddr : Nat := 0
  /-- A FRAME_ADDR held until its column drains, or a REGION_SEAL held until the memory column does (11 R285). -/
  held : Option (Nat × Nat) := none
  heldSeal : Bool := false
deriving DecidableEq, Repr

/-- A relocated stream that firmware has pushed into an engine for a section, with the words still to execute (11 R277). -/
structure CfgPush where
  sec : Nat
  words : List Nat
  ctx : CfgCtx := {}
deriving DecidableEq, Repr

/-- A configuration engine (11 R264): index 0 to 3 for the dies, 4 for the hub target through the serial port. -/
structure CfgEng where
  /-- The stream whose words come from elsewhere than a push: the serial slave port's for engine 4. -/
  ctx : CfgCtx := {}
  /-- Streams that firmware pushes, oldest first: the engine holds the first eight of them (11 R277). -/
  pushes : List CfgPush := []
  /-- The section whose stream the engine serves, until that stream's next column boundary (11 R277). -/
  cur : Option Nat := none
  errValid : Bool := false
  errCount : Nat := 0
  errCause : Nat := 0
  errRegion : Nat := 0
  errAddr : Word := 0
  /-- Words of a command received through the serial slave port and not yet complete (22 R542). -/
  words : List Nat := []
deriving DecidableEq, Repr

/-- What a message that firmware has begun still waits for before its reply. -/
inductive CmdWait where
  | taken          -- waits to begin (16 R395)
  | begun
  | commit (g : Group)
  | move
  | suspend (h : Nat)
  | closing (l : Nat)
  /-- Requests to complete and peer windows to read (15 R380, R381). -/
  | fence (writes reads : List Nat)
deriving DecidableEq, Repr

/-- A message in flight (16 R397). -/
structure Flight where
  fn : Nat
  msg : Msg
  wait : CmdWait := .taken
  /-- The reply is discarded: the function was reset (16 R387). -/
  discard : Bool := false
  /-- The status of the check that failed when firmware took it, for a message that waits its turn to reply (16 R395). -/
  failed : Option Status := none
  move : Option Move := none
  /-- The conditions of 17 R420 held when firmware took this LEASE_RECLAIM. -/
  reclaim : Bool := false
deriving DecidableEq, Repr

/-- How far a solver channel's problem is (14 R340). -/
inductive ChanPhase where
  | idle | input | prologue | body | epilogue
deriving DecidableEq, Repr

/-- A word of a channel's quarter: 64 bits and its poison mark (14 R338). -/
abbrev Elem := DWord × Bool

/-- A solver channel (14 R344 to R361). -/
structure Chan where
  lease : Option Nat := none
  mode : Nat := 0
  deadline : Nat := 0
  /-- Served by emulation on a region, in a slot of the lease (03 R73, 14 R359). -/
  emulated : Bool := false
  region : Nat := 0xFF
  emuSlot : Nat := 0
  /-- The schedule loaded, with the slot it came from and the marking of its directory entry (14 R346, R358). -/
  sched : List Byte := []
  schedSlot : Option Nat := none
  schedModes : Nat := 0
  /-- The quarter's words, and those that are poisoned. -/
  mem : Table DWord := []
  memPoison : Table Bool := []
  phase : ChanPhase := .idle
  /-- The problem in progress: its number, the source and port that take the result, the endpoint that it was sent to, its
  section and program, and what its descriptor asked. -/
  seq : Word := 0
  src : Nat := 0
  srcPort : Nat := 0
  dst : Nat := 0
  sec : Nat := 0
  prog : Nat := 0
  bad : Bool := false
  warm : Bool := false
  /-- Input values written (14 R347). -/
  got : Nat := 0
  /-- Bodies completed. -/
  k : Nat := 0
  startTick : Nat := 0
  /-- Settings that the problem in progress keeps (14 R344, R358). -/
  curMode : Nat := 0
  curDeadline : Nat := 0
  timingDep : Bool := false
  /-- Iterate `k` and its residual. -/
  iter : List Elem := []
  resid : Elem := (0, false)
  /-- The kept iterate of BEST, its number and residual (14 R357). -/
  bestK : Nat := 0
  best : List Elem := []
  bestResid : Elem := (0, false)
  /-- The iterate that the channel last sent (14 R348). -/
  prev : List Elem := []
  /-- The program of the previous problem, if any since SOLVER_BIND (14 R348). -/
  lastProg : Option Nat := none
deriving DecidableEq, Repr

/-- A scrub domain of a die (18 R429 to R431). -/
structure Scrub where
  pos : Nat := 0
  pass : Nat := 0
  /-- SCLK times of the correctable errors of the last second. -/
  errs : List Nat := []
  escalated : Bool := false
  /-- SCLK time since when each second has seen fewer than 16 errors. -/
  quietAt : Nat := 0
  wm : Wm := {}
  /-- Lines queued for write-back (18 R425). -/
  writeBack : List Nat := []
  /-- Error position of each line on the last pass, for hard faults (18 R438). -/
  lastErr : Table (Option Nat) := []
  /-- Lines in which an uncorrectable error has been found (18 R438). -/
  unc : List Nat := []
  /-- Correctable errors of the hour (18 CE_SUMMARY). -/
  hourErrs : Nat := 0
  canaryFailed : Bool := false
deriving DecidableEq, Repr

/-- A frequency and clock state of a die (20 R476 to R488). -/
structure DieClk where
  fclk : Nat := 0
  fTarget : Nat := 0
  tclk : Nat := 0
  tTarget : Nat := 0
  /-- SCLK of the last change of each target. -/
  fChanged : Nat := 0
  tChanged : Nat := 0
  /-- TMP_FREQ (20 Table 20.4; reset TCLK cap 80, floor 32, FCLK cap 80). -/
  freq : Stg := { staged := 0x502050, live := 0x502050 }
  floorClamped : Bool := false
  /-- Override episode: begun at, first cause, lowest target, SCLK when back at the floor, seconds reported. -/
  episode : Bool := false
  epStart : Nat := 0
  epCause : Nat := 0
  epLow : Nat := 0
  epBack : Option Nat := none
  epSecs : Nat := 0
  ovrWm : Wm := {}
  /-- Droop: cycles are stretched, and 50 MHz to take off at the next tick. -/
  droop : Bool := false
  droopOwed : Bool := false
  /-- TEL_LIMIT causes, cap and duty bits. -/
  limit : BitVec 8 := 0
  temp : Int := 0
  power : Nat := 0
  thermWm : Wm := {}
  stopped : Bool := true
  /-- Telemetry's last copy of TEL_CLOCK and TEL_LIMIT. -/
  telClock : Word := 0
  telLimit : Word := 0
deriving DecidableEq, Repr

/-- A firmware slot (21 Table 21.7). -/
structure FwSlot where
  state : Nat := 0
  version : Nat := 0
  svn : Nat := 0
  image : List Byte := []
deriving DecidableEq, Repr

/-- A logical page of the durable store: its two copies and header slots (18 Table 18.5). -/
structure Page where
  copyA : List Byte := []
  copyB : List Byte := []
  hdrA : List Byte := []
  hdrB : List Byte := []
deriving DecidableEq, Repr

/-- The tile map's record of a die (03 Table 3.7). -/
structure DieMap where
  steered : Option Nat := none
  failed : Nat := 0
  epoch : Word := 0
  /-- Failed column being steered in at run time (18 Table 18.4). -/
  pendingSteer : Option Nat := none
deriving DecidableEq, Repr

end Sys2Proof.Machine
end

