-- ==== Sys2Proof/Machine/State.lean ====
section
/-! DEFINITION. The state of the block, its reset value, and the ways a step can stop.  State is plain data in
eleven groups: identity and tile map, boot, security, power, module, repair and logs, host functions and ports,
leases and messages, compute fabric, HBM requests and solver channels, and the sequencing of programs; beside them
the SCLK count, the counter of free values, what was sent out, and the queue of waiting commands. -/
namespace Sys2Proof.Machine

/-- Why a step stops with a fault.  Safe: the machine would go on. -/
inductive Fault where
  /-- Raised by JTAG_INSTRUCTION for a vendor debug instruction while debug is unlocked (19 R467): the spec opens
  these instructions and gives none of them an effect.  Safe: the model stops where the hardware goes on. -/
  | vendorInstruction (code : Nat)
  /-- Raised by BUNDLE_ISSUE for a bundle that holds a reserved value or one that its mode does not accept (06 R132, 05
  R107): staging refuses an ingot with one, so only an ICP write can put one there, and no rule says what it then does.
  Safe: the model stops where the hardware goes on. -/
  | reservedBundle (tile bundle : Nat)
deriving DecidableEq, Repr

/-- Why a step has no meaning.  Safe: the model stops where the hardware goes on. -/
inductive Refusal where
  /-- A row of the operation table without a meaning. -/
  | notModelled (mnemonic : String)
deriving DecidableEq, Repr

/-- Identity, capabilities and the tile map (chapter 03). -/
structure Dev where
  /-- ID_PART.part_code (03 R63, Table 3.1; reset 0x01, DESIGN CHOICE, log 3). -/
  part : Nat := 1
  /-- ID_PART.stepping (03 Table 3.4; reset 0x00, DESIGN CHOICE, log 3). -/
  stepping : Nat := 0
  /-- Fitted units out of service, by their bits of CAP_USABLE (03 R60, R61; reset 0: every fitted unit usable). -/
  dead : Word := 0
  /-- ID_CAP_GEN (03 Table 3.4; reset 0). -/
  capGen : Word := 0
  /-- Per-die records of the tile map: steered column, failed tiles, die epoch (03 Table 3.7; reset: spare unused, 0, 0). -/
  dies : Table DieMap := []
  /-- Absent tiles of the tile map, by tile number (03 Table 3.7; reset: none). -/
  absent : Table Bool := []
deriving DecidableEq, Repr

/-- DEV_STATE, firmware slots and recovery (chapter 21). -/
structure Boot where
  /-- DEV_STATE.state: 0 OFF, 1 STANDBY, 2 BOOTING, 3 READY, 4 DEGRADED, 5 QUENCHED, 6 RECOVERY (21 R500; reset 0). -/
  state : Nat := 0
  /-- DEV_STATE.step (21 R500; reset 0). -/
  step : Nat := 0
  /-- DEV_STATE.fail_step (21 R500; reset 0). -/
  failStep : Nat := 0
  /-- DEV_STATE.last_restart (21 R500; reset 1). -/
  lastRestart : Nat := 1
  /-- DEV_STATE.slot (21 R500; reset 0). -/
  slot : Nat := 0
  /-- DEV_STATE.fallback (21 R500; reset 0). -/
  fallback : Bool := false
  /-- The flash slots A and B with their page-4 state, version and svn (21 Table 21.7; reset: empty, DESIGN CHOICE, log 5). -/
  slots : Table FwSlot := []
  /-- Slot that the boot ROM tries first (21 Table 21.7; reset 0, DESIGN CHOICE, log 5). -/
  selected : Nat := 0
  /-- Boots of the selected slot that have not reached step 12 (21 Table 21.7; reset 0, DESIGN CHOICE, log 5). -/
  attempts : Nat := 0
  /-- The image that the Assayer runs, and the debug public key it holds (21 R510, 19 R468; reset: none). -/
  running : List Byte := []
  /-- The recovery firmware runs (21 R510; reset: no). -/
  recovery : Bool := false
  /-- A PLDM update lies between steps 2 and 5 of R517, with its image (21 R519; reset: none). -/
  updating : Option (List Byte) := none
  /-- Recovery status code (21 Table 21.5; reset 0). -/
  recStatus : Nat := 0
  /-- The Table 11.8 cause that goes with code 2 (21 R509; reset 0). -/
  recCause : Nat := 0
  /-- A sealed push of the hub target waits for the boot ROM's checks (21 R508; reset: no). -/
  pushed : Bool := false
  /-- Frames of the hub target, by index (11 R278, 21 R507; reset: none). -/
  hubFrames : Table Frame := []
  /-- The base hub configuration is loaded (21 R501 step 10; reset: no). -/
  hubLoaded : Bool := false
  /-- SCLK count since which no Quench trigger has persisted, while a restart at step 5 waits (21 R502; reset: none). -/
  clearSince : Option Nat := none
  /-- SCLK count of main power good (21 R516; reset 0). -/
  goodAt : Nat := 0
  /-- The next start-up at step 5 records last_restart 5 (21 R502; reset: no). -/
  restart5 : Bool := false
  /-- A module reset that FW_ACTIVATE (2) or the BMC (3) asked for waits to be issued (21 R518, 22 R540; reset 0). -/
  resetPending : Nat := 0
deriving DecidableEq, Repr

/-- Security registers, keys and debug (chapter 19). -/
structure Sec where
  /-- SEC_POLICY bits [3:0] (19 Table 19.5; reset 0). -/
  policy : BitVec 4 := 0
  /-- SEC_LOCK.policy_lock (19 Table 19.5; reset 0). -/
  lock : Bool := false
  /-- SEC_LOCK.policy_lock has been written since its reset (00 R1 RW1; reset: no). -/
  lockWritten : Bool := false
  /-- LOCK_VIOL.viol (19 Table 19.5; reset 0). -/
  viol : Bool := false
  /-- LOCK_VIOL.count (19 Table 19.5; reset 0). -/
  violCount : Nat := 0
  /-- LOCK_VIOL.function (19 Table 19.5; reset 0). -/
  violFn : Nat := 0
  /-- LOCK_VIOL_ADDR.offset (19 Table 19.5; reset 0). -/
  violAddr : Nat := 0
  /-- SEC_STATUS.debug_unlocked (19 R470; reset 0). -/
  debugUnlocked : Bool := false
  /-- SEC_STATUS.entropy_fail: the DRBG is stopped (19 R457; reset 0). -/
  entropyFail : Bool := false
  /-- The rollback floor of durable-store page 4 (19 R453; reset "page 4": 0, DESIGN CHOICE, log 5). -/
  floor : Nat := 0
  /-- Rollback fuses blown (19 R453; reset 0, DESIGN CHOICE, log 4). -/
  blown : Nat := 0
  /-- Fused SHA-384 hash of the firmware-signing key (19 Root of trust; reset 0, DESIGN CHOICE, log 4). -/
  fwKeyHash : BitVec 384 := 0
  /-- Fused SHA-384 hash of the debug key (19 Root of trust; reset 0, DESIGN CHOICE, log 4). -/
  dbgKeyHash : BitVec 384 := 0
  /-- The debug public key that the running firmware image holds (19 R468; reset 0, DESIGN CHOICE, log 4). -/
  dbgKey : BitVec 768 := 0
  /-- The device's unique secret (19 Root of trust; reset 0, DESIGN CHOICE, log 4). -/
  secret : BitVec 384 := 0
  /-- The debug challenge in force and its SCLK count (19 R468; reset: none). -/
  challenge : Option (List Byte × Nat) := none
  /-- Debug answers rejected since the last cold reset (19 R469; reset 0). -/
  rejected : Nat := 0
  /-- The hub key of HBM that no lease owns (19 R458; reset 0: cleared). -/
  hubKey : BitVec 512 := 0
  /-- The DRBG is seeded (19 R456; reset: no). -/
  seeded : Bool := false
  /-- Generate requests since the last reseed, and its SCLK count (19 R456; reset 0, 0). -/
  drbgReqs : Nat := 0
  drbgAt : Nat := 0
deriving DecidableEq, Repr

/-- Temper, Quench and telemetry (chapter 20). -/
structure Power where
  /-- Clocks, TMP_FREQ, TMP_STATUS, TMP_OVR_WM, TEL_CLOCK, TEL_LIMIT, TEL_TEMP, TEL_DIE_POWER and TEL_THERM_WM of each
  die (20 Tables 20.4, 20.7; reset: the values of `freqReset` for TMP_FREQ, 0 for the rest, clocks stopped). -/
  dies : Table DieClk := []
  /-- TMP_POWER (20 Table 20.4; reset 1,600 W, lending allowed). -/
  power : Stg := { staged := 1600, live := 1600 }
  /-- TMP_SCRUB (20 Table 20.4; reset 100 % in each field). -/
  scrub : Stg := { staged := 0x646464, live := 0x646464 }
  /-- TMP_QUENCH.active (20 Table 20.4; reset 0). -/
  active : Bool := false
  /-- TMP_QUENCH.triggers (20 Table 20.4; reset 0). -/
  triggers : BitVec 6 := 0
  /-- TMP_QUENCH.cause (20 Table 20.4; reset 0). -/
  cause : Nat := 0
  /-- HBM is in self-refresh (20 R495; reset: no). -/
  selfRefresh : Bool := false
  /-- FLOW_IN is below its minimum, as Temper sees it (20 Table 20.3 cause 5; reset: no). -/
  lowFlow : Bool := false
  /-- TEL_HBM_TEMP by stack (20 Table 20.7; reset 0). -/
  hbmTemp : Table Int := []
  /-- TEL_MODULE_POWER (20 Table 20.7; reset 0). -/
  modulePower : Nat := 0
  /-- TEL_ENERGY (20 Table 20.7; reset 0). -/
  energy : DWord := 0
  /-- Corrected flit errors by die: its telemetry counts them (08 R209; reset 0). -/
  flitErrs : Table Nat := []
  /-- TEL_REGION_IDLE as last updated (20 Table 20.7; reset 0). -/
  regionIdle : DWord := 0
deriving DecidableEq, Repr

/-- The module controller and J6 (chapter 22). -/
structure Module where
  /-- Standby power is present (22 R526; reset: no). -/
  standby : Bool := false
  /-- MOD_ID sampled when standby became present: the SMBus address is 0x60 plus it (22 R538; reset 0). -/
  modId : Nat := 0
  /-- J1 state of sensor 12: 0 unmated or never valid, 1 valid for 100 ms, 2 reversed, 3 out of range (22 R527, R530; reset 0). -/
  j1 : Nat := 0
  /-- Main power is enabled (22 R527; reset: no). -/
  mainOn : Bool := false
  /-- Every main rail is in its window (21 R501; reset: no). -/
  mainGood : Bool := false
  /-- The last five LEAK_IN readings, newest first, in mV (22 R531; reset: none). -/
  leak : List Nat := []
  /-- Class of the median: 0 dry, 1 wet, 2 short, 3 open (22 Table 22.6; reset 0). -/
  leakClass : Nat := 0
  /-- FLOW_IN average in mV, and the SCLK count since when it is below the minimum (22 R532; reset 0, none). -/
  flowMv : Nat := 0
  lowSince : Option Nat := none
  /-- Flow sensor fault (22 R532; reset: no). -/
  flowFault : Bool := false
  /-- Coolant inlet and outlet readings, in 0.1 °C (22 R533; reset 0). -/
  inlet : Int := 0
  outlet : Int := 0
  /-- Thermistor faults: inlet, outlet (22 R533; reset: no). -/
  inletFault : Bool := false
  outletFault : Bool := false
  /-- The COOLANT_WARNING of this excursion has been raised (22 R533; reset: no). -/
  warned : Bool := false
  /-- Output faults by J6 pin number (22 R534; reset: none). -/
  outFaults : Table Bool := []
  /-- Internal bus fault (22 R535; reset: no). -/
  busFault : Bool := false
  /-- Resets of the SMBus interface after a held bus (22 R538; reset 0). -/
  smbResets : Nat := 0
  /-- A PLDM event is pending: SMB_ALERT# is low (22 R538, log 12; reset: no). -/
  alert : Bool := false
  /-- MCTP packets accepted (22 R538; reset 0). -/
  mctpAccepted : Nat := 0
  /-- MCTP packets to the module discarded for their PEC (22 R538; reset 0). -/
  mctpDropped : Nat := 0
  /-- CFG_ERR# driven low (22 R537; reset: released). -/
  cfgErr : Bool := false
  /-- QUENCH# driven low (20 R496; reset: released). -/
  quenchDrive : Bool := false
  /-- QUENCH# driven low by the effecter-101 test since this SCLK count (22 R540; reset: no). -/
  quenchTest : Option Nat := none
  /-- The JTAG instruction in force, numbered as `execJtagInstruction` numbers them (19 R467; reset: 0, IDCODE). -/
  jtagIr : Nat := 0
  /-- The TAP is in Test-Logic-Reset (22 R545; reset: it is). -/
  tapReset : Bool := true
deriving DecidableEq, Repr

/-- Scrubbing, repair, the durable store and the patina log (chapter 18). -/
structure Ras where
  /-- Scrub domains by 4 d + k, with BRN_ESC_WM (18 R429 to R431; reset: pass 0, not escalated). -/
  scrubs : Table Scrub := []
  /-- BRN_STATUS.cfg_scrub_disabled (18 Table 18.3; reset 0). -/
  cfgDisabled : Bool := false
  /-- BRN_STATUS.canary_fails (18 Table 18.3; reset 0). -/
  canaryFails : Nat := 0
  /-- BRN_STATUS.tmr_votes (18 Table 18.3; reset 0). -/
  tmrVotes : Nat := 0
  /-- SRAM rows of the repair list: die and line (18 R438, Table 18.5; reset: none). -/
  sramRows : List (Nat × Nat) := []
  /-- HBM rows of the repair list: number, and whether marked exhausted (18 R442; reset: none). -/
  hbmRows : List (Nat × Bool) := []
  /-- HBM rows repaired (16 REMAP_STATUS; reset 0). -/
  rowsRepaired : Nat := 0
  /-- Durable-store pages (18 Table 18.5; reset: nothing written, DESIGN CHOICE, log 5). -/
  pages : Table Page := []
  /-- Boot count of page 5 (18 Table 18.5; reset 0, DESIGN CHOICE, log 5). -/
  bootCount : Word := 0
  /-- Patina log ring by slot, and the next record number (18 R449; reset: empty, 0). -/
  log : Table Entry := []
  logNext : Nat := 0
  /-- Log pages with records that the durable store does not hold yet (18 R449; reset: none). -/
  logDirty : List Nat := []
  /-- Poison marks of HBM that no lease owns, by physical unit (18 R426; reset: none). -/
  freePoison : Table Bool := []
deriving DecidableEq, Repr

/-- Host functions, ports, and what crosses the ports (chapters 15, 16, 19). -/
structure HostSt where
  /-- Functions by number (15 R365; reset: Table 16.1, Table 23.4 and 23.6 values). -/
  fns : Table Fn := []
  /-- Host ports (15 R362; reset: links down). -/
  ports : Table Port := []
  /-- BAR2 writes accepted and not yet visible, oldest first (15 R367, R558; reset: none). -/
  writes : List WinWrite := []
  nextWrite : Nat := 0
  /-- Messages in flight, oldest first (16 R397; reset: none). -/
  flights : List Flight := []
  /-- Commands whose replies are discarded so far (16 R387, log 153; reset 0). -/
  ghosts : Nat := 0
  /-- Lease limits set by VF_PARTITION (16 Table 16.14; reset: CAP_COUNTS.leases for a PF, 0 for a VF). -/
  limits : Table (Option Nat) := []
  /-- STW_LOCK_STATE: holder, generation, abandoned (17 Table 17.5; reset 0xFFFF, 0, 0). -/
  steward : Nat := 0xFFFF
  lockGen : BitVec 8 := 0
  lockAband : Bool := false
deriving DecidableEq, Repr

/-- Leases and regions (chapters 11 and 17). -/
structure LeaseTab where
  /-- Leases by id (17 Table 17.1; reset: all FREE). -/
  leases : Table Lease := []
  /-- Regions by id, with CFG_REGION_STATE (11 R272; reset: IDLE, vacant). -/
  regions : Table Region := []
  /-- Configuration engines: 0 to 3 the dies', 4 the hub target's; with CFG_ERR and CFG_ERR_ADDR (11 R264; reset: waiting
  for SYNC, no error). -/
  cfg : Table CfgEng := []
deriving DecidableEq, Repr

/-- The compute fabric (chapters 06 to 10). -/
structure Fabric where
  /-- Compute tiles by tile number (06 Table 6.1; reset 0, DESIGN CHOICE, log 6). -/
  tiles : Table Tile := []
  /-- Memory tiles by tile number (07 Table 7.1; reset 0, DESIGN CHOICE, log 6). -/
  mtiles : Table MTile := []
  /-- Scratchpad and memory-tile bytes, key tile * 2^21 + address (06 R141, 07 R158; reset 0, DESIGN CHOICE, log 6). -/
  sram : Table Byte := []
  /-- Poison marks of 64-byte lines, key tile * 2^15 + line (18 Table 18.1; reset: none). -/
  sramPoison : Table Bool := []
  /-- Strict flags that travel with each byte in the running section, key tile * 2^21 + address (05 R116; reset: none). -/
  sramFlags : Table (BitVec 5) := []
  /-- Configuration frames, key tile * 1024 + index (11 R259; reset 0, DESIGN CHOICE, log 6). -/
  frames : Table Frame := []
  /-- Settings frames that the ICP wrote for a tile that has not been restarted since, key as `frames` (06 R157; reset: none). -/
  icpFrames : Table Frame := []
  /-- Streams by number (10 R234; reset: none). -/
  streams : Table (Option Stream) := []
  nextStream : Nat := 0
  /-- Packets in flight, in order of injection (08 R197; reset: none). -/
  net : List Packet := []
  /-- Packets that a unit has ready to inject, oldest first (08 R197; reset: none). -/
  tx : List Packet := []
deriving DecidableEq, Repr

/-- HBM, its requests and arbitration (chapter 10). -/
structure Hbm where
  /-- Lease HBM bytes, key lease * 2^40 + lease-relative address (10 R254; reset 0, DESIGN CHOICE, log 6). -/
  mem : Table Byte := []
  /-- Poison marks of lease HBM by 64-byte unit, key lease * 2^34 + address / 64 (18 Table 18.1; reset: none). -/
  poison : Table Bool := []
  /-- Strict flags that travel with each byte which a running section wrote, key section * 2^51 + lease * 2^40 + address (05
  R116; reset: none). -/
  flags : Table (BitVec 5) := []
  /-- Requests for HBM and for windows, oldest first (10 R249 to R256; reset: none). -/
  reqs : List Req := []
  nextReq : Nat := 0
  /-- HBM_ARB and its commit and live view by group (10 Table 10.4; reset 0x0000_1088). -/
  arb : Table Stg := []
  /-- HBM_ARB_BAD (10 Table 10.4; reset 0). -/
  arbBad : DWord := 0
  /-- Slots of the current 16-slot frame served by class: read, write, remote, by pseudo-channel (10 R257; reset 0). -/
  slots : Table (List Nat) := []
deriving DecidableEq, Repr

/-- Section programs and solver channels (chapters 12 to 14). -/
structure Seq where
  /-- Bound programs by handle (12 R312; reset: none). -/
  progs : Table (Option Prog) := []
  /-- Hardware contexts in use, by number: the handle (12 R311; reset: none). -/
  contexts : Table (Option Nat) := []
  /-- Sections by number (12 R308; reset: none). -/
  sections : Table (Option Section) := []
  nextSec : Nat := 1
  /-- Handles of the programs whose RUN waits for regions, in order (17 R407; reset: none). -/
  runQueue : List Nat := []
  /-- Solver channels by number (14 R344; reset: unbound). -/
  chans : Table Chan := []
deriving DecidableEq, Repr

/-- The state of the block. -/
structure State where
  dev : Dev := {}
  boot : Boot := {}
  sec : Sec := {}
  power : Power := {}
  mod : Module := {}
  ras : Ras := {}
  host : HostSt := {}
  own : LeaseTab := {}
  fab : Fabric := {}
  hbm : Hbm := {}
  seq : Seq := {}
  /-- SCLK ticks since the last cold reset (18 Table 18.6; reset 0). -/
  sclk : Nat := 0
  /-- The model's own counter of free values drawn (log 1; reset 0, DESIGN CHOICE: no statement rests on it). -/
  free : Nat := 0
  /-- What was sent to host ports and pins, oldest first: the model's record of the block's outputs (log 2; reset: nothing). -/
  out : List Out := []
  /-- Commands that wait, first in first out (reset: none). -/
  pending : List Instr := []
deriving DecidableEq, Repr

/-- The block right after a cold reset: nothing powered, DEV_STATE OFF with last_restart 1. -/
def State.reset : State := {}

end Sys2Proof.Machine
end

