-- ==== Sys2Proof/Machine/Ops.lean ====
section
/-! DEFINITION. The named operations on State that meanings share: access to its parts, geometry and capabilities,
watermarks, staged groups, lease memory, what is sent to the host, event records and replies. -/
namespace Sys2Proof.Machine

/-- The answer of a command that the block takes. -/
def done (s : State) : Host.Outcome State Fault Refusal := .next s

/-! ### Access -/

/-- Function `f`. -/
def State.fnOf (s : State) (f : Nat) : Fn := s.host.fns.get {} f
/-- Set function `f`. -/
def State.setFn (s : State) (f : Nat) (x : Fn) : State := { s with host := { s.host with fns := s.host.fns.set {} f x } }
/-- Change function `f`. -/
def State.updFn (s : State) (f : Nat) (g : Fn → Fn) : State := s.setFn f (g (s.fnOf f))
/-- Port `n`. -/
def State.portOf (s : State) (n : Nat) : Port := s.host.ports.get {} n
/-- Set port `n`. -/
def State.setPort (s : State) (n : Nat) (x : Port) : State :=
  { s with host := { s.host with ports := s.host.ports.set {} n x } }
/-- Lease `l`. -/
def State.leaseOf (s : State) (l : Nat) : Lease := s.own.leases.get {} l
/-- Set lease `l`. -/
def State.setLease (s : State) (l : Nat) (x : Lease) : State :=
  { s with own := { s.own with leases := s.own.leases.set {} l x } }
/-- Change lease `l`. -/
def State.updLease (s : State) (l : Nat) (g : Lease → Lease) : State := s.setLease l (g (s.leaseOf l))
/-- Region `r`. -/
def State.regionOf (s : State) (r : Nat) : Region := s.own.regions.get {} r
/-- Set region `r`. -/
def State.setRegion (s : State) (r : Nat) (x : Region) : State :=
  { s with own := { s.own with regions := s.own.regions.set {} r x } }
/-- Change region `r`. -/
def State.updRegion (s : State) (r : Nat) (g : Region → Region) : State := s.setRegion r (g (s.regionOf r))
/-- Configuration engine `e`. -/
def State.engOf (s : State) (e : Nat) : CfgEng := s.own.cfg.get {} e
/-- Set configuration engine `e`. -/
def State.setEng (s : State) (e : Nat) (x : CfgEng) : State :=
  { s with own := { s.own with cfg := s.own.cfg.set {} e x } }
/-- The clocks and limits of die `d`. -/
def State.clkOf (s : State) (d : Nat) : DieClk := s.power.dies.get {} d
/-- Set the clocks and limits of die `d`. -/
def State.setClk (s : State) (d : Nat) (x : DieClk) : State :=
  { s with power := { s.power with dies := s.power.dies.set {} d x } }
/-- Compute tile `t`. -/
def State.tileOf (s : State) (t : Nat) : Tile := s.fab.tiles.get {} t
/-- Set compute tile `t`. -/
def State.setTile (s : State) (t : Nat) (x : Tile) : State :=
  { s with fab := { s.fab with tiles := s.fab.tiles.set {} t x } }
/-- Memory tile `t`. -/
def State.mtileOf (s : State) (t : Nat) : MTile := s.fab.mtiles.get {} t
/-- Set memory tile `t`. -/
def State.setMTile (s : State) (t : Nat) (x : MTile) : State :=
  { s with fab := { s.fab with mtiles := s.fab.mtiles.set {} t x } }
/-- Stream `i`, if there is one. -/
def State.streamOf (s : State) (i : Nat) : Option Stream := s.fab.streams.get none i
/-- Set or remove stream `i`. -/
def State.setStream (s : State) (i : Nat) (x : Option Stream) : State :=
  { s with fab := { s.fab with streams := s.fab.streams.set none i x } }
/-- The program with handle `h`, if bound. -/
def State.progOf (s : State) (h : Nat) : Option Prog := s.seq.progs.get none h
/-- Set or release the program with handle `h`. -/
def State.setProg (s : State) (h : Nat) (x : Option Prog) : State :=
  { s with seq := { s.seq with progs := s.seq.progs.set none h x } }
/-- Section `i`, if there is one. -/
def State.secOf (s : State) (i : Nat) : Option Section := s.seq.sections.get none i
/-- Set or remove section `i`. -/
def State.setSec (s : State) (i : Nat) (x : Option Section) : State :=
  { s with seq := { s.seq with sections := s.seq.sections.set none i x } }
/-- Solver channel `c`. -/
def State.chanOf (s : State) (c : Nat) : Chan := s.seq.chans.get {} c
/-- Set solver channel `c`. -/
def State.setChan (s : State) (c : Nat) (x : Chan) : State :=
  { s with seq := { s.seq with chans := s.seq.chans.set {} c x } }

/-- Set the lease-HBM bytes. -/
def State.setHbmMem (s : State) (m : Table Byte) : State := { s with hbm := { s.hbm with mem := m } }
/-- Set the lease-HBM poison marks. -/
def State.setHbmPoison (s : State) (m : Table Bool) : State := { s with hbm := { s.hbm with poison := m } }
/-- Set the SRAM bytes. -/
def State.setSram (s : State) (m : Table Byte) : State := { s with fab := { s.fab with sram := m } }
/-- Set the SRAM poison marks. -/
def State.setSramPoison (s : State) (m : Table Bool) : State := { s with fab := { s.fab with sramPoison := m } }
/-- Set the frames. -/
def State.setFrames (s : State) (m : Table Frame) : State := { s with fab := { s.fab with frames := m } }

/-- The numbers of the bound programs. -/
def State.handles (s : State) : List Nat := s.seq.progs.map Prod.fst
/-- The sections, with their numbers. -/
def State.secs (s : State) : List (Nat × Section) :=
  s.seq.sections.filterMap (fun e => e.2.map (fun x => (e.1, x)))
/-- The programs, with their handles. -/
def State.bound (s : State) : List (Nat × Prog) :=
  s.seq.progs.filterMap (fun e => e.2.map (fun x => (e.1, x)))
/-- The streams, with their numbers. -/
def State.strms (s : State) : List (Nat × Stream) :=
  s.fab.streams.filterMap (fun e => e.2.map (fun x => (e.1, x)))

/-- Append to what was sent. -/
def State.emit (s : State) (o : Out) : State := { s with out := s.out ++ [o] }

/-! ### Geometry (01 R22 to R28) and capabilities (03) -/

/-- Compute dies fitted (03 Table 3.1). -/
def State.nDies (s : State) : Nat := if s.dev.part ≤ 2 then 4 else 2
/-- Tungsten engines are fitted: an F part (03 Table 3.1). -/
def State.hasEngines (s : State) : Bool := s.dev.part == 1 || s.dev.part == 3
/-- Host ports fitted. -/
def State.nPorts (s : State) : Nat := s.nDies
/-- Most open leases (CAP_COUNTS.leases). -/
def State.nLeases (s : State) : Nat := 256 * s.nDies
/-- Regions fitted. -/
def State.nRegions (s : State) : Nat := 16 * s.nDies
/-- Solver channels. -/
def State.nChans (s : State) : Nat := 8 * s.nDies
/-- HBM stacks fitted. -/
def State.nStacks (s : State) : Nat := 2 * s.nDies

/-- Tile number of tile d/x/y. -/
def tileNo (d x y : Nat) : Nat := d * 1152 + x * 32 + y
/-- Die, column and row of a tile number. -/
def tileDie (t : Nat) : Nat := t / 1152
def tileX (t : Nat) : Nat := t % 1152 / 32
def tileY (t : Nat) : Nat := t % 32
/-- Region of tile d/x/y: 16 d + 4 b + g for band b and column group g (01 R28). -/
def regionOfXY (d x y : Nat) : Nat := 16 * d + 4 * (y / 8) + x / 9
/-- Region of a tile number. -/
def tileRegion (t : Nat) : Nat := regionOfXY (tileDie t) (tileX t) (tileY t)
/-- Die of a region. -/
def regionDie (r : Nat) : Nat := r / 16
/-- A memory column: 8, 17, 26 or 35. -/
def isMemCol (x : Nat) : Bool := x % 9 == 8
/-- The tile at region-relative column i and row j of a region. -/
def regionTile (r i j : Nat) : Nat := tileNo (r / 16) (9 * (r % 4) + i) (8 * (r % 16 / 4) + j)
/-- The compute tiles of a region, column by column. -/
def regionCTiles (r : Nat) : List Nat := (upTo 64).map (fun k => regionTile r (k / 8) (k % 8))
/-- The memory tiles of a region, row by row. -/
def regionMTiles (r : Nat) : List Nat := (upTo 8).map (fun j => regionTile r 8 j)
/-- The endpoint address of a tile (08 Table 8.1). -/
def epOf (t : Nat) : Nat := tileDie t * 2048 + tileX t * 32 + tileY t
/-- The tile number of an endpoint address. -/
def epTile (a : Nat) : Nat := tileNo (a / 2048) (a / 32 % 64) (a % 32)
/-- Column field of an endpoint address. -/
def epX (a : Nat) : Nat := a / 32 % 64
def epDie (a : Nat) : Nat := a / 2048
def epY (a : Nat) : Nat := a % 32
/-- An endpoint of the mesh: a compute or memory tile. -/
def epIsTile (a : Nat) : Bool := decide (epX a < 36) && decide (a < 8192)
/-- A memory tile's address. -/
def epIsMem (a : Nat) : Bool := epIsTile a && isMemCol (epX a)
/-- A compute tile's address. -/
def epIsCompute (a : Nat) : Bool := epIsTile a && !isMemCol (epX a)
/-- A hub unit's address (08 Table 8.1). -/
def epIsHub (a : Nat) : Bool := epX a == 48
/-- An engine's address: W or E. -/
def epIsEngine (a : Nat) : Bool := epX a == 56 || epX a == 57

/-- CAP_FITTED (03 Table 3.3). -/
def State.capFitted (s : State) : Word :=
  if s.dev.part = 1 then 0x0FFFFFFF#32 else if s.dev.part = 2 then 0x0FF00FFF#32
  else if s.dev.part = 3 then 0x0F30F0F3#32 else 0x0F3000F3#32
/-- CAP_USABLE (03 R60, R64). -/
def State.capUsable (s : State) : Word := s.capFitted &&& ~~~ s.dev.dead
/-- CAP_COUNTS (03 Table 3.4). -/
def State.capCounts (s : State) : Word := BitVec.ofNat 32 (128 * 2 ^ 24 + s.nRegions * 2 ^ 16 + s.nLeases)
/-- CAP_CHANNELS. -/
def State.capChannels (s : State) : Word := BitVec.ofNat 32 s.nChans
/-- ID_PART. -/
def State.idPart (s : State) : Word := BitVec.ofNat 32 (s.dev.stepping % 256 * 256 + s.dev.part)
/-- ID_FW_IF: 1.0 for this manual (03 Table 3.4). -/
def idFwIf : Word := 0x100#32
/-- A fitted unit is usable, by its bit of CAP_USABLE. -/
def State.usable (s : State) (bit : Nat) : Bool := s.capUsable.getLsbD bit
/-- Die `d` is usable. -/
def State.dieUsable (s : State) (d : Nat) : Bool := s.usable d
/-- Stack `k` is usable. -/
def State.stackUsable (s : State) (k : Nat) : Bool := s.usable (4 + k)
/-- The tile is marked absent. -/
def State.absent (s : State) (t : Nat) : Bool := s.dev.absent.get false t

/-- Some fitted unit is not usable, or configuration scrubbing is disabled (18 R444). -/
def State.degraded (s : State) : Bool := s.ras.cfgDisabled || s.capUsable != s.capFitted
/-- The state that reads READY or DEGRADED (18 R444). -/
def State.readyState (s : State) : Nat := if s.degraded then 4 else 3
/-- DEV_STATE.state reads DEGRADED in place of READY once R444 applies. -/
def State.refreshReady (s : State) : State :=
  if s.boot.state = 3 then { s with boot := { s.boot with state := s.readyState } } else s
/-- The device is QUENCHED. -/
def State.quenched (s : State) : Bool := s.boot.state == 5
/-- DEV_STATE (21 Table 21.1). -/
def State.devState (s : State) : Word :=
  BitVec.ofNat 32 (b2n s.boot.fallback * 2 ^ 21 + s.boot.slot % 2 * 2 ^ 20 + s.boot.lastRestart % 16 * 2 ^ 16 +
    s.boot.failStep % 16 * 2 ^ 12 + s.boot.step % 16 * 2 ^ 8 + s.boot.state % 8)

/-! ### Functions and ports (15 R365) -/

/-- Port of a function. -/
def fnPort (f : Nat) : Nat := f / 257
/-- Is the function a PF? -/
def fnIsPf (f : Nat) : Bool := f % 257 == 0
/-- The function exists on this part. -/
def State.fnExists (s : State) (f : Nat) : Bool := decide (fnPort f < s.nPorts)
/-- The functions of port `n` that State lists, and its PF. -/
def State.portFns (s : State) (n : Nat) : List Nat :=
  257 * n :: (s.host.fns.map Prod.fst).filter (fun f => fnPort f == n && f != 257 * n)
/-- The VF is enabled in its PF. -/
def State.fnEnabled (s : State) (f : Nat) : Bool :=
  s.fnExists f && (fnIsPf f || ((s.portOf (fnPort f)).vfEnable && decide (f % 257 ≤ (s.portOf (fnPort f)).numVfs)))
/-- The lease limit of a function (16 VF_PARTITION). -/
def State.limitOf (s : State) (f : Nat) : Nat :=
  match s.host.limits.get none f with
  | some n => n
  | none => if fnIsPf f then s.nLeases else 0
/-- Does `f` hold the steward lock? -/
def State.isSteward (s : State) (f : Nat) : Bool := f == s.host.steward && f != 0xFFFF
/-- The link IDE stream of the port is Secure, or the policy does not ask for it (19 R466). -/
def State.ideOk (s : State) (port : Nat) : Bool :=
  !(s.sec.policy.getLsbD 0) || ((s.portOf port).ide.get {} 0).secure
/-- Stream `k` of a port is Secure and covers the address. -/
def ideCovers (p : Port) (addr k : Nat) : Bool :=
  (p.ide.get {} k).secure && decide ((p.ide.get {} k).base ≤ addr) && decide (addr ≤ (p.ide.get {} k).limit)
/-- The IDE stream under which a request to an address goes: to a peer window a selective stream that is Secure and covers it,
and else the link stream, where it is Secure (19 R465). -/
def State.ideFor (s : State) (port addr : Nat) (peer : Bool) : Option Nat :=
  match (if peer then [1, 2, 3, 4].find? (ideCovers (s.portOf port) addr) else none) with
  | some k => some k
  | none => if ((s.portOf port).ide.get {} 0).secure then some 0 else none
/-- Some stream may carry the request: one that is Secure; or none, where the policy does not ask for one and the link stream is
not Insecure (19 R464, R466; a peer's covering stream carries it also while the link stream is not Secure: DEDUCED, log 152). -/
def State.ideCarries (s : State) (port addr : Nat) (peer : Bool) : Bool :=
  (s.ideFor port addr peer).isSome || (!(s.sec.policy.getLsbD 0) && !((s.portOf port).ide.get {} 0).insecure)
/-- The device may send a request to that address for the function (15 R375, 10 R251). -/
def State.canSendTo (s : State) (f addr : Nat) (peer : Bool) : Bool :=
  (s.portOf (fnPort f)).linkUp && (s.fnOf f).bme && !(s.fnOf f).d3hot && s.ideCarries (fnPort f) addr peer
/-- The device may send memory requests to host memory for the function (15 R375, 16 R393). -/
def State.canSend (s : State) (f : Nat) : Bool := s.canSendTo f 0 false
/-- The attributes of a request of the function: No Snoop 0, and the stream of R465 (15 R374). -/
def State.attr (s : State) (f addr : Nat) (peer ro ep : Bool) : Attr :=
  { ro := ro, ep := ep, ide := s.ideFor (fnPort f) addr peer }
/-- A memory request to the function's BARs is served; otherwise it completes with Unsupported Request (15 Table 15.8,
21 R504, 19 R466). -/
def State.barOpen (s : State) (f : Nat) : Bool :=
  (s.portOf (fnPort f)).linkUp && s.fnEnabled f && (s.fnOf f).ready && (s.fnOf f).mse && !(s.fnOf f).d3hot &&
    s.ideOk (fnPort f)

/-! ### Watermarks (00 R19 to R21) -/

/-- A sample of the watched level (00 R20). -/
def sampleWm (w : Wm) (level : Bool) : Wm :=
  if level && !w.level then { level := true, crossed := true, crossings := satInc w.crossings 255 }
  else { w with level := level }
/-- A write to a watermark register: a 1 in `crossed` clears crossed and crossings (00 Table 0.4). -/
def writeWm (w : Wm) (v : Word) : Wm := if v.getLsbD 1 then { w with crossed := false, crossings := 0 } else w
/-- What a watermark register reads. -/
def readWm (w : Wm) : Word := BitVec.ofNat 32 (w.crossings % 256 * 256 + b2n w.crossed * 2 + b2n w.level)

/-! ### Staged groups (00 R12 to R17) -/

/-- A write to a staged field: it lands in the staged copy, or is dropped while a commit is pending (00 R16). -/
def stageWrite (g : Stg) (v : DWord) : Stg := if g.pending then { g with drop := true } else { g with staged := v }
/-- A write to the commit register (00 Table 0.3). -/
def commitWrite (g : Stg) (v : Word) : Stg :=
  let g := if v.getLsbD 2 then { g with drop := false } else g
  if v.getLsbD 0 then { g with pending := true } else g
/-- What a commit register reads. -/
def commitRead (g : Stg) : Word := BitVec.ofNat 32 (b2n g.drop * 4 + b2n g.pending * 2)
/-- The transfer at a safe point (00 R15). -/
def transfer (g : Stg) : Stg := if g.pending then { g with live := g.staged, pending := false } else g
/-- HBM_ARB at reset: DEADLINE, 8 reads, 4 writes, 4 remote (10 Table 10.4). -/
def arbReset : Stg := { staged := 0x1088, live := 0x1088 }

/-- The staged group `g`. -/
def State.groupOf (s : State) (g : Group) : Stg :=
  match g with
  | .ring f => (s.fnOf f).ring.grp
  | .evtRing f => (s.fnOf f).evt.grp
  | .freq d => (s.clkOf d).freq
  | .power => s.power.power
  | .scrub => s.power.scrub
  | .hbmArb k => s.hbm.arb.get arbReset k

/-- Set the staged group `g`. -/
def State.setGroup (s : State) (g : Group) (x : Stg) : State :=
  match g with
  | .ring f => s.updFn f (fun y => { y with ring := { y.ring with grp := x } })
  | .evtRing f => s.updFn f (fun y => { y with evt := { y.evt with grp := x } })
  | .freq d => s.setClk d { s.clkOf d with freq := x }
  | .power => { s with power := { s.power with power := x } }
  | .scrub => { s with power := { s.power with scrub := x } }
  | .hbmArb k => { s with hbm := { s.hbm with arb := s.hbm.arb.set arbReset k x } }

/-! ### Free values -/

/-- Count one draw of a free value. -/
def State.drew (s : State) : State := { s with free := s.free + 1 }
/-- What the DRBG answers next (19 R456). -/
def State.random (s : State) : BitVec 512 := Config.random s.free
/-- The state after a DRBG generate request. -/
def State.drewRandom (s : State) : State :=
  { s with free := s.free + 1, sec := { s.sec with drbgReqs := s.sec.drbgReqs + 1 } }

/-! ### What goes to the host -/

/-- Send MSI-X vector `v`, or set its pending bit while it is masked (15 R382). -/
def State.msix (s : State) (f v : Nat) : State :=
  if (s.fnOf f).msixEnable && !(s.fnOf f).msixFMask && !((s.fnOf f).msixMask.getLsbD v) && s.canSend f then
    s.emit (.msix f v)
  else s.updFn f (fun y => { y with msixPba := y.msixPba ||| (1#16 <<< v) })

/-- The pieces of a range between multiples of `m`, counted from `org` before it: (address, length); `f` bounds them. -/
def pieces (m org a n : Nat) : Nat → List (Nat × Nat)
  | 0 => []
  | f + 1 =>
    if n = 0 then [] else
    let k := min n (m - (org + a) % m)
    (a, k) :: pieces m org (a + k) (n - k) f

/-- The pieces of at most `m` bytes of a range none of which crosses a 4 KiB boundary; `f` bounds them (15 R374). -/
def portPieces (m a n : Nat) : Nat → List (Nat × Nat)
  | 0 => []
  | f + 1 =>
    if n = 0 then [] else
    let k := min (min n m) (4096 - a % 4096)
    (a, k) :: portPieces m (a + k) (n - k) f
/-- Max Payload Size and Max Read Request Size in bytes (15 Table 15.1). -/
def Fn.payload (y : Fn) : Nat := 128 * 2 ^ y.mps
def Fn.readReq (y : Fn) : Nat := 128 * 2 ^ y.mrrs

/-- Write bytes to host memory from bus address `a` on, in writes of at most Max Payload Size none of which crosses a 4 KiB
boundary (15 R374). -/
def State.writeHost (s : State) (f a : Nat) (bs : List Byte) : State :=
  (portPieces (s.fnOf f).payload a bs.length (bs.length + 1)).foldl (fun t p =>
    t.emit (.memWrite f p.1 ((bs.drop (p.1 - a)).take p.2) (s.attr f p.1 false false false))) s

/-- Entries of a ring of `size_log2`, 0 when disabled. -/
def ringSize (r : Ring) : Nat := if natBits r.grp.live.toNat 52 4 = 0 then 0 else 2 ^ natBits r.grp.live.toNat 52 4
/-- Bus address of a ring. -/
def ringBase (r : Ring) : Nat := natBits r.grp.live.toNat 0 52 * 4096
/-- The ring has no room (16 R393, R394: also when cons is ahead of prod or too far behind). -/
def ringFull (r : Ring) : Bool := decide ((r.prod - r.cons).toNat ≥ ringSize r)
/-- Where the next entry goes (16 R391). -/
def ringSlot (r : Ring) : Nat := ringBase r + 64 * (r.prod.toNat % ringSize r)
/-- The phase of the next entry (16 R392). -/
def ringPhase (r : Ring) : Bool := r.prod.toNat / ringSize r % 2 == 0

/-- Write one reply-ring entry: bytes 1 to 63, then byte 0 with the phase, then prod, then vector 0 (16 R391, R392). -/
def State.writeReply (s : State) (f : Nat) (e : Entry) : State :=
  let r := (s.fnOf f).ring
  let bs := entryBytes (if ringPhase r then e ||| 1#512 else e &&& ~~~ 1#512)
  ((((s.emit (.memWrite f (ringSlot r + 1) (bs.drop 1) (s.attr f 0 false false false))).emit
      (.memWrite f (ringSlot r) (bs.take 1) (s.attr f 0 false false false))).updFn f
        (fun y => { y with ring := { y.ring with prod := y.ring.prod + 1 } })).msix f 0)

/-- The reply ring takes an entry now (16 R393). -/
def State.replyRoom (s : State) (f : Nat) : Bool := !(ringFull (s.fnOf f).ring) && s.canSend f

/-- Write held entries, oldest first, while there is room (16 R393).  `n` bounds the entries written. -/
def State.drainHeld (s : State) (f : Nat) : Nat → State
  | 0 => s
  | n + 1 =>
    match (s.fnOf f).held with
    | [] => s
    | e :: r =>
      if s.replyRoom f then ((s.updFn f (fun y => { y with held := r })).writeReply f e).drainHeld f n else s

/-- The held entries of every function of a port go out, where they now can (16 R393). -/
def State.drainPort (s : State) (port : Nat) : State := (s.portFns port).foldl (fun s f => s.drainHeld f 64) s

/-- AER logs an error of a request to a BAR: its status bit is set; where it is not masked, the header of the first is logged and
the error is signalled by its severity (15 R384, 16 R386; bit places PRESUMED PCIe's, log 151). -/
def State.aerError (s : State) (f bit bar off : Nat) : State :=
  let y := s.fnOf f
  let y1 := { y with aerStatus := y.aerStatus ||| (1#32 <<< bit) }
  if y.aerMask.getLsbD bit then s.setFn f y1
  else
    let log := match y.aerLog with
      | some h => if y.aerStatus.getLsbD h.bit then some h else some { bar := bar, off := off, bit := bit }
      | none => some { bar := bar, off := off, bit := bit }
    (s.setFn f { y1 with aerLog := log }).emit (.errMessage f (y.aerSeverity.getLsbD bit))
/-- AER's bits: Poisoned TLP Received, Completer Abort. -/
def aerPoisoned : Nat := 12
def aerAbort : Nat := 15

/-- Produce a reply or record: written, held up to 64, or dropped and counted (16 R393). -/
def State.produce (s : State) (f : Nat) (e : Entry) : State :=
  if (s.fnOf f).held.isEmpty && s.replyRoom f then s.writeReply f e
  else if (s.fnOf f).held.length < 64 then s.updFn f (fun y => { y with held := y.held ++ [e] })
  else s.updFn f (fun y => { y with replyDropped := y.replyDropped + 1 })

/-- The values of 16 Table 16.16. -/
def statusCode : Status → Nat
  | .ok => 0x00 | .accepted => 0x01 | .busy => 0x02 | .badOpcode => 0x03 | .badArg => 0x04 | .noLease => 0x05
  | .noSpace => 0x06 | .unitAbsent => 0x07 | .tileAbsent => 0x08 | .ingotCrc => 0x09 | .ingotSignature => 0x0A
  | .modeDenied => 0x0B | .seamViolation => 0x0C | .configLoadFailed => 0x0D | .deadlock => 0x0E
  | .writerConflict => 0x0F | .poisoned => 0x10 | .quenched => 0x11 | .aborted => 0x12 | .dormant => 0x13
  | .tokenRejected => 0x14 | .stewardRequired => 0x15 | .locked => 0x16 | .timeout => 0x17 | .peerUnreachable => 0x18

/-- A reply-ring entry (16 Table 16.3), phase 0 until it is written. -/
def replyEntry (kind : Nat) (st : Status) (flags opcode tag lease seq : Nat) (results : List Byte) : Entry :=
  entryOf ([BitVec.ofNat 8 (kind % 8 * 2), BitVec.ofNat 8 (statusCode st), BitVec.ofNat 8 flags, BitVec.ofNat 8 opcode]
    ++ leBytes tag 2 ++ leBytes lease 2 ++ leBytes seq 4 ++ leBytes 0 4 ++ results.take 48)

/-! ### Event records (18 R448, 23 R551) -/

/-- The 64 bytes of a record (18 Table 18.6). -/
def recordOf (s : State) (e : Ev) (number : Nat) : Entry :=
  entryOf ([BitVec.ofNat 8 e.type, BitVec.ofNat 8 e.status] ++ leBytes e.lease 2 ++ leBytes number 4 ++
    leBytes s.sclk 8 ++ leBytes s.ras.bootCount.toNat 4 ++ leBytes e.unit 2 ++ leBytes e.tag 2 ++
    leBytes e.addr 8 ++ e.body.take 32)

/-- The event ring takes a record now (23 R551). -/
def State.evtRoom (s : State) (f : Nat) : Bool := !(ringFull (s.fnOf f).evt) && s.canSend f

/-- A record for the function's event ring: it takes the next number, and is written or dropped (23 R551). -/
def State.eventTo (s : State) (e : Ev) (f : Nat) : State :=
  let n := (s.fnOf f).evtNumber
  let r := (s.fnOf f).evt
  let s1 := s.updFn f (fun y => { y with evtNumber := y.evtNumber + 1 })
  if s.evtRoom f then
    ((s1.emit (.memWrite f (ringSlot r) (entryBytes (recordOf s e n.toNat)) (s.attr f 0 false false false))).updFn f
      (fun y => { y with evt := { y.evt with prod := y.evt.prod + 1 } })).msix f 1
  else s1.updFn f (fun y => { y with evtDropped := y.evtDropped + 1 })

/-- A patina log record (18 R449). -/
def State.logEvent (s : State) (e : Ev) : State :=
  let n := s.ras.logNext
  let slot := n % 31232
  { s with ras := { s.ras with
      log := s.ras.log.set 0 slot (recordOf s e n), logNext := n + 1,
      logDirty := if s.ras.logDirty.contains (32 + slot / 16) then s.ras.logDirty
        else s.ras.logDirty ++ [32 + slot / 16] } }

/-- The function that owns a lease and can be told: none once the owner is lost (17 R415, R416). -/
def State.ownerOf (s : State) (l : Nat) : Option Nat :=
  match (s.leaseOf l).st with
  | .opened => some (s.leaseOf l).owner
  | .closing => some (s.leaseOf l).owner
  | _ => none

/-- Remove repeats, keeping first places. -/
def dedup (l : List Nat) : List Nat := l.foldl (fun a x => if a.contains x then a else a ++ [x]) []

/-- Send a record to functions, and to the log. -/
def State.event (s : State) (e : Ev) (fns : List Nat) (log : Bool) : State :=
  let s1 := (dedup fns).foldl (fun s f => s.eventTo e f) s
  if log then s1.logEvent e else s1

/-- The steward as a recipient, or none while the lock is free (17 R413). -/
def State.stewardFn (s : State) : List Nat := if s.host.steward = 0xFFFF then [] else [s.host.steward]
/-- The owner of a lease as a recipient. -/
def State.leaseFn (s : State) (l : Nat) : List Nat := (s.ownerOf l).toList

/-- A record for the lease alone: with no owning function it goes to the log (23 R551). -/
def State.eventLease (s : State) (e : Ev) (l : Nat) : State :=
  s.event { e with lease := l } (s.leaseFn l) (s.leaseFn l).isEmpty
/-- A record for the steward, which goes to the log alone while the lock is free (17 R413). -/
def State.eventSteward (s : State) (e : Ev) : State := s.event e s.stewardFn s.stewardFn.isEmpty
/-- A record for the steward and the log. -/
def State.eventStewardLog (s : State) (e : Ev) : State := s.event e s.stewardFn true
/-- A record for the lease, the steward and the log. -/
def State.eventLeaseStewardLog (s : State) (e : Ev) (l : Nat) : State :=
  s.event { e with lease := l } (s.leaseFn l ++ s.stewardFn) true
/-- A record for the lease and the steward (once, 23 R551). -/
def State.eventLeaseSteward (s : State) (e : Ev) (l : Nat) : State :=
  s.event { e with lease := l } (s.leaseFn l ++ s.stewardFn) ((s.leaseFn l).isEmpty || s.stewardFn.isEmpty)

/-- The leases in use, with their ids. -/
def State.leaseIds (s : State) : List Nat :=
  (s.own.leases.filter (fun e => e.2.st ≠ .free)).map Prod.fst
/-- The OPEN leases. -/
def State.openIds (s : State) : List Nat :=
  (s.own.leases.filter (fun e => e.2.st = .opened)).map Prod.fst
/-- A record for every OPEN lease, the steward and the log: each function once. -/
def State.eventAllOpen (s : State) (e : Ev) : State :=
  s.event e (s.openIds.map (fun l => (s.leaseOf l).owner) ++ s.stewardFn) true
/-- Leases that a function owns as OPEN. -/
def State.openOf (s : State) (f : Nat) : List Nat :=
  s.openIds.filter (fun l => (s.leaseOf l).owner == f)
/-- A `LEASE_STATE` record (17 R559, 18 Table 18.7). -/
def State.leaseStateEvent (s : State) (l newState cause former new : Nat) (fns : List Nat) : State :=
  s.event { type := 0x0A, lease := l,
            body := leBytes newState 1 ++ leBytes cause 1 ++ leBytes former 2 ++ leBytes new 2 }
    (fns ++ s.stewardFn) (s.stewardFn.isEmpty)

/-! ### Lease memory (10 R254, 18 R424) -/

/-- Bytes in a span. -/
def spanBytes : Nat := 67108864
/-- Bytes of a lease's addressable HBM. -/
def State.leaseBytes (s : State) (l : Nat) : Nat := spanBytes * (s.leaseOf l).spans.length
/-- Key of a lease HBM byte. -/
def hbmKey (l a : Nat) : Nat := l * 2 ^ 40 + a
/-- Key of the poison mark of the unit that holds byte `a`. -/
def unitKey (l a : Nat) : Nat := l * 2 ^ 34 + a / 64
/-- Is the range inside the lease's memory? -/
def State.inLease (s : State) (l a n : Nat) : Bool := decide (a + n ≤ s.leaseBytes l)
/-- A byte of lease HBM. -/
def State.hbmByte (s : State) (l a : Nat) : Byte := s.hbm.mem.get 0 (hbmKey l a)
/-- `n` bytes of lease HBM. -/
def State.hbmRead (s : State) (l a n : Nat) : List Byte := Table.getList 0 s.hbm.mem (hbmKey l a) n
/-- The poison mark of the unit of byte `a`. -/
def State.hbmPoisoned (s : State) (l a : Nat) : Bool := s.hbm.poison.get false (unitKey l a)
/-- Some unit of the range is poisoned. -/
def State.hbmAnyPoison (s : State) (l a n : Nat) : Bool :=
  s.hbm.poison.any (fun e => decide (unitKey l a ≤ e.1) && decide (e.1 ≤ unitKey l (a + n - 1)) && e.2) && decide (0 < n)
/-- Set the poison marks of the units that the range touches. -/
def State.hbmMark (s : State) (l a n : Nat) (p : Bool) : State :=
  if n = 0 then s else
  s.setHbmPoison (Table.setList false s.hbm.poison (unitKey l a) (List.replicate ((a + n - 1) / 64 - a / 64 + 1) p))
/-- Clear the marks of the units that the range covers whole (07 R180). -/
def State.hbmClearWhole (s : State) (l a n : Nat) : State :=
  let lo := (a + 63) / 64
  let hi := (a + n) / 64
  if lo < hi then
    s.setHbmPoison (Table.setList false s.hbm.poison (l * 2 ^ 34 + lo) (List.replicate (hi - lo) false))
  else s
/-- Write bytes of lease HBM; a unit written whole loses its poison mark (07 R180, 18 R427). -/
def State.hbmWrite (s : State) (l a : Nat) (bs : List Byte) : State :=
  (s.setHbmMem (Table.setList 0 s.hbm.mem (hbmKey l a) bs)).hbmClearWhole l a bs.length
/-- Zero a range of lease HBM and its poison marks (18 R427, 16 ZERO_FILL). -/
def State.hbmZero (s : State) (l a n : Nat) : State :=
  (s.setHbmMem (s.hbm.mem.keep (fun k => !(decide (hbmKey l a ≤ k) && decide (k < hbmKey l (a + n)))))).setHbmPoison
    (s.hbm.poison.keep (fun k => !(decide (unitKey l a ≤ k) && decide (k < l * 2 ^ 34 + (a + n) / 64))))
/-- Zero every byte and mark of a lease. -/
def State.hbmErase (s : State) (l : Nat) : State :=
  (s.setHbmMem (s.hbm.mem.keep (fun k => !(k / 2 ^ 40 == l)))).setHbmPoison
    (s.hbm.poison.keep (fun k => !(k / 2 ^ 34 == l)))

/-! ### On-chip SRAM (06 R141, 07 R158, R180) -/

/-- Key of an SRAM byte of tile `t`. -/
def sramKey (t a : Nat) : Nat := t * 2 ^ 21 + a
/-- Key of the poison mark of the line that holds byte `a`. -/
def lineKey (t a : Nat) : Nat := t * 2 ^ 15 + a / 64
/-- `n` bytes of a tile's SRAM. -/
def State.sramRead (s : State) (t a n : Nat) : List Byte := Table.getList 0 s.fab.sram (sramKey t a) n
/-- Some line of the range is poisoned. -/
def State.sramPoisoned (s : State) (t a n : Nat) : Bool :=
  decide (0 < n) && (upTo ((a + n - 1) / 64 - a / 64 + 1)).any (fun i => s.fab.sramPoison.get false (lineKey t a + i))
/-- Set the marks of the lines that the range touches. -/
def State.sramMark (s : State) (t a n : Nat) (p : Bool) : State :=
  if n = 0 then s else
  s.setSramPoison (Table.setList false s.fab.sramPoison (lineKey t a) (List.replicate ((a + n - 1) / 64 - a / 64 + 1) p))
/-- Clear the marks of the lines that the range covers whole (07 R180). -/
def State.sramClearWhole (s : State) (t a n : Nat) : State :=
  let lo := (a + 63) / 64
  let hi := (a + n) / 64
  if lo < hi then
    s.setSramPoison (Table.setList false s.fab.sramPoison (t * 2 ^ 15 + lo) (List.replicate (hi - lo) false))
  else s
/-- Write bytes of a tile's SRAM with a poison mark: a poisoned write marks the lines it touches, an unpoisoned one
clears the lines it covers whole (06 R154, 07 R180). -/
def State.sramWrite (s : State) (t a : Nat) (bs : List Byte) (poison : Bool) : State :=
  let s1 := s.setSram (Table.setList 0 s.fab.sram (sramKey t a) bs)
  let s2 := s1.sramClearWhole t a bs.length
  if poison then s2.sramMark t a bs.length true else s2
/-- The strict flags of the bytes of a range: none listed where none is raised (05 R116). -/
def State.sramFl (s : State) (t a n : Nat) : List (BitVec 5) :=
  if s.fab.sramFlags.isEmpty then [] else Table.getList 0 s.fab.sramFlags (sramKey t a) n
/-- Set the strict flags of a range of `n` bytes that is written. -/
def State.sramFlWrite (s : State) (t a n : Nat) (fl : List (BitVec 5)) : State :=
  if s.fab.sramFlags.isEmpty && fl.all (fun f => f == 0) then s
  else { s with fab := { s.fab with
    sramFlags := Table.setList 0 s.fab.sramFlags (sramKey t a) ((upTo n).map (fun i => fl.getD i 0)) } }
/-- The same of HBM bytes that section `sec` wrote. -/
def State.hbmFl (s : State) (sec l a n : Nat) : List (BitVec 5) :=
  if s.hbm.flags.isEmpty then [] else Table.getList 0 s.hbm.flags (sec * 2 ^ 51 + hbmKey l a) n
def State.hbmFlWrite (s : State) (sec l a n : Nat) (fl : List (BitVec 5)) : State :=
  if s.hbm.flags.isEmpty && fl.all (fun f => f == 0) then s
  else { s with hbm := { s.hbm with
    flags := Table.setList 0 s.hbm.flags (sec * 2 ^ 51 + hbmKey l a) ((upTo n).map (fun i => fl.getD i 0)) } }
/-- The flags of `na` bytes followed by those of `nb` bytes. -/
def flCat (na : Nat) (a : List (BitVec 5)) (nb : Nat) (b : List (BitVec 5)) : List (BitVec 5) :=
  if a.isEmpty && b.isEmpty then [] else (upTo na).map (fun i => a.getD i 0) ++ (upTo nb).map (fun i => b.getD i 0)
/-- Each byte's flags in either list. -/
def flOr (n : Nat) (a b : List (BitVec 5)) : List (BitVec 5) :=
  if a.isEmpty && b.isEmpty then [] else (upTo n).map (fun i => a.getD i 0 ||| b.getD i 0)
/-- Zeroise the SRAM of a tile, with its marks (07 R185). -/
def State.sramErase (s : State) (ts : List Nat) : State :=
  (s.setSram (s.fab.sram.keep (fun k => !(ts.contains (k / 2 ^ 21))))).setSramPoison
    (s.fab.sramPoison.keep (fun k => !(ts.contains (k / 2 ^ 15))))

/-! ### The words of a solver channel (14 R335, R361) -/

/-- The memory tiles that hold the quarter of an emulated channel: the first two of its region that are present (log 146). -/
def emuTiles (s : State) (x : Chan) : List Nat := ((regionMTiles x.region).filter (fun t => !(s.absent t))).take 2
/-- Channel words in one memory tile. -/
def emuWords : Nat := 262144
/-- The words that an emulated channel's memory tiles hold, word `k` of tile number `n` of them at `262144 n + k`. -/
def emuMem (s : State) (x : Chan) : Table DWord :=
  ((emuTiles s x).zipIdx).foldl (fun m e =>
    (s.fab.sram.keep (fun k => k / 2 ^ 21 == e.1)).foldl (fun m b =>
      m.upd 0 (e.2 * emuWords + b.1 % 2 ^ 21 / 8) (fun w => w ||| (BitVec.setWidth 64 b.2 <<< (8 * (b.1 % 8))))) m) []
/-- The words that an error in those tiles' lines poisons, beside the elements that are poisoned. -/
def emuPoison (s : State) (x : Chan) : Table Bool :=
  ((emuTiles s x).zipIdx).foldl (fun m e =>
    (s.fab.sramPoison.keep (fun k => k / 2 ^ 15 == e.1)).foldl (fun m b =>
      Table.setList false m (e.2 * emuWords + b.1 % 2 ^ 15 * 8) (List.replicate 8 true)) m) x.memPoison
/-- Channel `c` with its words: its engine's quarter, or what its emulation region holds (14 R361). -/
def State.chanIn (s : State) (c : Nat) : Chan :=
  let x := s.chanOf c
  if x.emulated then { x with mem := emuMem s x, memPoison := emuPoison s x } else x
/-- Set channel `c` with its words: those of an emulated one go to its region, whose marks are the poisoned elements from then
on. -/
def State.putChan (s : State) (c : Nat) (x : Chan) : State :=
  if x.emulated then
    let ts := emuTiles s x
    let base := s.fab.sram.keep (fun k => !(ts.contains (k / 2 ^ 21)))
    let sram := x.mem.foldl (fun m e =>
      match ts[e.1 / emuWords]? with
      | some t => Table.setList 0 m (sramKey t (8 * (e.1 % emuWords))) (leBytes e.2.toNat 8)
      | none => m) base
    ((s.setSram sram).setSramPoison (s.fab.sramPoison.keep (fun k => !(ts.contains (k / 2 ^ 15))))).setChan c { x with mem := [] }
  else s.setChan c x

/-! ### Frames (11 R259) -/

/-- Key of frame `i` of tile `t`. -/
def frameKey (t i : Nat) : Nat := t * 1024 + i
/-- Frame `i` of tile `t`. -/
def State.frameOf (s : State) (t i : Nat) : Frame := s.fab.frames.get 0 (frameKey t i)
/-- Set frame `i` of tile `t`. -/
def State.setFrame (s : State) (t i : Nat) (f : Frame) : State :=
  s.setFrames (s.fab.frames.set 0 (frameKey t i) f)
/-- Zero the frames of tiles (11 R268, R291). -/
def State.frameErase (s : State) (ts : List Nat) : State :=
  s.setFrames (s.fab.frames.keep (fun k => !(ts.contains (k / 1024))))
/-- Word `w` of frame `i` of tile `t`. -/
def State.frameW (s : State) (t i w : Nat) : Nat := frameWord (s.frameOf t i) w

end Sys2Proof.Machine
end

