-- ==== Sys2Proof/Machine/Access.lean ====
section
/-! DEFINITION. Host accesses to BAR0 and BAR4 registers: what a read returns, what a write to each register does, and
the operations behind the registers with rows of their own (chapters 00, 09, 16, 17, 19, 23). -/
namespace Sys2Proof.Machine

/-! ### Host tallies and latches (chapter 09) -/

/-- Programs of lease `l` whose WAIT on tally `n` the value `v` satisfies go on (09 R214: every pending wait is evaluated
when the value changes, and stays satisfied). -/
def satisfyWaits (ps : Table (Option Prog)) (l n : Nat) (v : Half) : Table (Option Prog) :=
  ps.map (fun e => (e.1, e.2.map (fun p =>
    match p.wait with
    | .wait t target =>
      if p.lease = l ∧ t = n ∧ waitHolds v (BitVec.ofNat 16 target) then { p with wait := .satisfied } else p
    | _ => p)))

/-- An armed host tally whose target is satisfied sends its vector once and disarms (09 R218). -/
def State.fireArmed (s : State) (l n : Nat) : State :=
  let t := (s.leaseOf l).htally.get {} n
  if t.armed && waitHolds t.value t.target then
    let s1 := s.updLease l (fun x => { x with htally := x.htally.set {} n { t with armed := false } })
    match s1.ownerOf l with
    | some f => s1.msix f t.vector
    | none => s1
  else s

/-! ### Start conditions of streams (10 R235, 12 R299) -/

/-- A field of a stream descriptor (12 Table 12.6). -/
def descW (d : SDesc) (w lo len : Nat) : Nat := natBits d.toNat (64 * w + lo) len
/-- Engine, direction, op, external kind, prefetch, start kind. -/
def descEngine (d : SDesc) : Nat := descW d 0 32 3
def descWrite (d : SDesc) : Bool := descW d 0 35 1 == 1
def descOp (d : SDesc) : Nat := descW d 0 36 4
def descExt (d : SDesc) : Nat := descW d 0 40 2
def descPrefetch (d : SDesc) : Bool := descW d 0 42 1 == 1
def descStart (d : SDesc) : Nat := descW d 0 45 2
/-- The stream reads HBM or a window into billets. -/
def isFetch (d : SDesc) : Bool := !descWrite d && descExt d != 0

/-- The stream's section runs; or it is in prologue or running ahead, and the stream may prefetch (10 R238, R240). -/
def State.streamMay (s : State) (x : Stream) : Bool :=
  match s.secOf x.sec with
  | none => false
  | some y => y.phase == .running || ((y.phase == .prologue || y.phase == .ahead) && descPrefetch x.desc && isFetch x.desc)

/-- Its engine has come to the stream: every earlier descriptor of the engine has issued its last access (12 R299). -/
def State.streamTurn (s : State) (x : Stream) : Bool :=
  x.phase == .waiting && s.streamMay x &&
  s.strms.all (fun e => !(e.2.sec == x.sec && e.2.tile == x.tile && descEngine e.2.desc == descEngine x.desc &&
    decide (e.2.index < x.index)) || e.2.phase == .done)

/-- The start condition holds now. -/
def State.startHolds (s : State) (x : Stream) : Bool :=
  let t := descW x.desc 3 0 12
  let target : Half := BitVec.ofNat 16 (descW x.desc 3 16 16)
  match descStart x.desc with
  | 0 => true
  | 1 =>
    let l := match s.secOf x.sec with
      | some y => y.lease
      | none => 0
    decide (t < (s.leaseOf l).tallies) && waitHolds ((s.leaseOf l).htally.get {} t).value target
  | 2 => decide (t < 64) && waitHolds ((s.mtileOf x.tile).tally.get 0 t) target
  | _ => false

/-- Note every stream whose turn has come and whose start condition holds (09 R214: at each change of a value, and when the
wait is posted). -/
def State.markReady (s : State) : State :=
  (s.strms.filter (fun e => !e.2.ready && s.streamTurn e.2 && s.startHolds e.2)).foldl
    (fun s e => s.setStream e.1 (some { e.2 with ready := true })) s

/-- Give a host tally a value and evaluate every wait on it (09 R214, R218). -/
def State.setHTally (s : State) (l n : Nat) (v : Half) : State :=
  let s1 := s.updLease l (fun x => { x with htally := x.htally.upd {} n (fun t => { t with value := v }) })
  let s2 := { s1 with seq := { s1.seq with progs := satisfyWaits s1.seq.progs l n v } }
  (s2.markReady).fireArmed l n

/-- Add an amount to a host tally modulo 65,536 (09 R213). -/
def State.addHTally (s : State) (l n amount : Nat) : State :=
  s.setHTally l n (((s.leaseOf l).htally.get {} n).value + BitVec.ofNat 16 amount)

/-- The lease that the function's host tally page shows (23 R550). -/
def State.pageLease (s : State) (f : Nat) : Option Nat :=
  if (s.fnOf f).htLease = 0xFFFF then none else some (s.fnOf f).htLease

/-- A host signal or latch operation with an index beyond the lease's page is discarded, and a TILE_FAULT record names the index (09
R212); it names no unit and no section. -/
def pageFault (l n : Nat) (s : State) : State := s.eventLease { type := 0x01, body := leBytes n 4 } l

/-- HTALLY_SIGNAL: entries beyond the lease's count discard writes (09 Table 9.4, R212). -/
def signalHTally (f n : Nat) (v : Word) (s : State) : State :=
  match s.pageLease f with
  | none => s
  | some l => if n < (s.leaseOf l).tallies then s.addHTally l n (natBits v.toNat 0 16) else pageFault l n s

/-- HTALLY_ARM (09 R223, R218): a vector of 0 or 1 keeps the previous vector. -/
def armHTally (f n : Nat) (v : Word) (s : State) : State :=
  match s.pageLease f with
  | none => s
  | some l =>
    if n < (s.leaseOf l).tallies then
      let old := (s.leaseOf l).htally.get {} n
      let vec := natBits v.toNat 16 4
      let t : HTally := { old with armed := v.getLsbD 31, vector := if vec < 2 then old.vector else vec,
                                   target := BitVec.ofNat 16 (natBits v.toNat 0 16) }
      (s.updLease l (fun x => { x with htally := x.htally.set {} n t })).fireArmed l n
    else s

/-- HLATCH_REQ (09 R228, R212). -/
def requestHLatch (f j : Nat) (v : Word) (s : State) : State :=
  match s.pageLease f with
  | none => s
  | some l =>
    let h := (s.leaseOf l).hlatch.get {} j
    let tag : Half := BitVec.ofNat 16 (natBits v.toNat 0 16)
    if (s.leaseOf l).latches ≤ j then pageFault l j s
    else if h.holder = 0 ∧ tag ≠ 0 then
      s.updLease l (fun x => { x with hlatch := x.hlatch.set {} j { h with holder := tag } })
    else s

/-- HLATCH_REL (09 R228, R229): the holder's release frees the latch and clears ABANDONED; any other is a mismatch. -/
def releaseHLatch (f j : Nat) (v : Word) (s : State) : State :=
  match s.pageLease f with
  | none => s
  | some l =>
    let h := (s.leaseOf l).hlatch.get {} j
    let tag : Half := BitVec.ofNat 16 (natBits v.toNat 0 16)
    if j < (s.leaseOf l).latches then
      if h.holder ≠ 0 ∧ tag = h.holder then
        s.updLease l (fun x => { x with hlatch := x.hlatch.set {} j { h with holder := 0, abandoned := false } })
      else s.updLease l (fun x => { x with hlatch := x.hlatch.set {} j { h with relMismatch := true } })
    else pageFault l j s

/-- HTALLY_LEASE (23 R550): 0xFFFF, or a lease that the function owns as OPEN; any other value is reserved. -/
def writeHtLease (f : Nat) (v : Word) (s : State) : State :=
  let l := natBits v.toNat 0 16
  if l = 0xFFFF ∨ ((s.leaseOf l).st = .opened ∧ (s.leaseOf l).owner = f) then
    s.updFn f (fun y => { y with htLease := l })
  else s

/-! ### Doorbells (09 R225) -/

/-- DB_RING: a 1 rings the bit. -/
def ringDoorbells (f : Nat) (v : Word) (s : State) : State :=
  s.updFn f (fun y => { y with dbRing := y.dbRing ||| v })

/-- Service of a rung bit: 1 to the bound tally, and the bit is cleared. -/
def serviceDoorbell (f bit : Nat) (s : State) : State :=
  if (s.fnOf f).dbRing.getLsbD bit then
    let s1 := s.updFn f (fun y => { y with dbRing := y.dbRing &&& ~~~ (1#32 <<< bit) })
    match (s.fnOf f).dbBind.get none bit with
    | some (l, n) => s1.addHTally l n 1
    | none => s1
  else s

/-! ### The mailbox (16 R385, R386) and the rings -/

/-- Post 64 bytes as one message, or reject the post of BAR0 offset `off`: a Completer Abort (16 R386). -/
def postMessage (f off : Nat) (bytes : Entry) (s : State) : State :=
  let x := s.fnOf f
  if x.queue.length < 32 then
    s.setFn f { x with queue := x.queue ++ [{ seq := x.nextSeq, bytes := bytes }], nextSeq := x.nextSeq + 1,
                       queueWm := sampleWm x.queueWm (decide (24 ≤ x.queue.length + 1)) }
  else
    (s.setFn f { x with rejectedCount := satInc x.rejectedCount 65535, rejectValid := true,
                        lastRejectSeq := x.nextSeq }).aerError f aerAbort 0 off

/-- MBX_POST. -/
def writePost (f : Nat) (v : Word) (s : State) : State :=
  if v.getLsbD 0 then postMessage f 0x1040 (s.fnOf f).msg s else s

/-- MBX_POST_SHORT: only a 64-bit write posts (16 R385). -/
def writePostShort (f size : Nat) (v : DWord) (s : State) : State :=
  if size = 8 then postMessage f 0x1048 (v.zeroExtend 512) s else s

/-- MBX_RING_CONS, and the held replies that now have room (16 R393, R394). -/
def writeRingCons (f : Nat) (v : Word) (s : State) : State :=
  (s.updFn f (fun y => { y with ring := { y.ring with cons := v } })).drainHeld f 64

/-- EVT_RING_CONS (23 R551). -/
def writeEvtCons (f : Nat) (v : Word) (s : State) : State :=
  s.updFn f (fun y => { y with evt := { y.evt with cons := v } })

/-! ### The steward lock (17 R412) and lock violations (00 R11, 19 R473, R474) -/

/-- Take the lock: a PF, while it is free. -/
def acquireLock (f : Nat) (v : Word) (s : State) : State :=
  if fnIsPf f && v.getLsbD 0 && !(v.getLsbD 1) && s.host.steward == 0xFFFF then
    { s with host := { s.host with steward := f } }
  else s

/-- Free the lock: the holder; ABANDONED clears at a release by a holder (09 R229). -/
def releaseLock (f : Nat) (v : Word) (s : State) : State :=
  if v.getLsbD 1 && !(v.getLsbD 0) && s.isSteward f then
    { s with host := { s.host with steward := 0xFFFF, lockAband := false } }
  else s

/-- A write to STW_LOCK_REQ. -/
def writeLockReq (f : Nat) (v : Word) (s : State) : State := releaseLock f v (acquireLock f v s)

/-- A lock violation: logged, counted and sent to the steward (19 R474). -/
def lockViolation (f off : Nat) (v : Word) (s : State) : State :=
  let s1 := { s with sec := { s.sec with
    viol := true, violCount := satInc (if s.sec.viol then s.sec.violCount else 0) 255,
    violFn := if s.sec.viol then s.sec.violFn else f,
    violAddr := if s.sec.viol then s.sec.violAddr else off } }
  s1.eventSteward { type := 0x09, body := leBytes off 4 ++ leBytes f 4 ++ leBytes v.toNat 8 }

/-- SEC_POLICY (RWL), SEC_LOCK (RW1) and LOCK_VIOL (W1C) from a PF (19 Table 19.5, R473). -/
def writeSec (f off : Nat) (v : Word) (s : State) : State :=
  if !(s.isSteward f) then lockViolation f off v s
  else if off = 0x8010 then
    if s.sec.lock then lockViolation f off v s
    else
      let s1 := { s with sec := { s.sec with policy := BitVec.ofNat 4 v.toNat } }
      (upTo s.nPorts).foldl State.drainPort s1
  else if off = 0x8014 then
    if s.sec.lockWritten then lockViolation f off v s
    else { s with sec := { s.sec with lock := v.getLsbD 0, lockWritten := true } }
  else if v.getLsbD 31 then { s with sec := { s.sec with viol := false, violCount := 0 } } else s

/-! ### Staged groups -/

/-- A field of a staged group: its new value where the value is allowed, else the old one (00 R9). -/
def stageField (old v lo len : Nat) (ok : Nat → Bool) : Nat :=
  if ok (natBits v lo len) then natPut old lo len (natBits v lo len) else old

/-- TMP_FREQ with reserved values refused by field (20 Table 20.4). -/
def mergeFreq (old v : Nat) : Nat :=
  stageField (stageField (stageField old v 0 8 (fun x => decide (32 ≤ x) && decide (x ≤ 80))) v 8 8
    (fun x => decide (32 ≤ x) && decide (x ≤ 80))) v 16 8 (fun x => decide (16 ≤ x) && decide (x ≤ 80))
/-- TMP_POWER. -/
def mergePower (old v : Nat) : Nat :=
  stageField (stageField old v 0 16 (fun x => decide (400 ≤ x) && decide (x ≤ 1600))) v 16 1 (fun _ => true)
/-- TMP_SCRUB. -/
def mergeScrub (old v : Nat) : Nat :=
  let ok := fun x => decide (1 ≤ x) && decide (x ≤ 100)
  stageField (stageField (stageField old v 0 8 ok) v 8 8 ok) v 16 8 ok
/-- HBM_ARB (10 Table 10.4). -/
def mergeArb (old v : Nat) : Nat :=
  let ok := fun x => decide (x ≤ 16)
  stageField (stageField (stageField (stageField old v 0 5 ok) v 5 5 ok) v 10 5 ok) v 31 1 (fun _ => true)
/-- size_log2 of a ring: 0 or 6 to 12 (16 Table 16.1). -/
def okRingSize (x : Nat) : Bool := x == 0 || (decide (6 ≤ x) && decide (x ≤ 12))

/-- A write to a staged register. -/
def State.stage (s : State) (g : Group) (merge : Nat → Nat) : State :=
  s.setGroup g (stageWrite (s.groupOf g) (BitVec.ofNat 64 (merge (s.groupOf g).staged.toNat)))

/-- Base registers of a ring: the low half gives bits [31:12], the high half bits [63:32] (16 Table 16.1). -/
def mergeBaseLo (v old : Nat) : Nat := natPut old 0 20 (natBits v 12 20)
def mergeBaseHi (v old : Nat) : Nat := natPut old 20 32 v
/-- The configuration register of a ring. -/
def mergeCfg (v old : Nat) : Nat := stageField old (natBits v 0 4 * 2 ^ 52) 52 4 okRingSize

/-- A write to the commit register of group `g`. -/
def writeCommit (g : Group) (v : Word) (s : State) : State := s.setGroup g (commitWrite (s.groupOf g) v)

/-- FIXED shares that do not sum to 16 (10 R258). -/
def arbBadShares (g : DWord) : Bool :=
  g.getLsbD 31 && natBits g.toNat 0 5 + natBits g.toNat 5 5 + natBits g.toNat 10 5 != 16

/-- What else a transfer does: a ring's counters become 0 and held entries go to it (16 R390, R394), a bad split is
flagged (10 R258). -/
def afterTransfer (g : Group) (s : State) : State :=
  match g with
  | .ring f => (s.updFn f (fun y => { y with ring := { y.ring with prod := 0, cons := 0 } })).drainHeld f 64
  | .evtRing f => s.updFn f (fun y => { y with evt := { y.evt with prod := 0, cons := 0 } })
  | .hbmArb k =>
    if arbBadShares (s.groupOf g).live then
      { s with hbm := { s.hbm with arbBad := s.hbm.arbBad ||| (1#64 <<< k) } }
    else s
  | _ => s

/-- The transfer of a pending group at its safe point (00 R15). -/
def transferGroup (g : Group) (s : State) : State :=
  if (s.groupOf g).pending then afterTransfer g (s.setGroup g (transfer (s.groupOf g))) else s

/-! ### BAR0 and BAR4 -/

/-- Index of an array register: entry number of offset `off` from `base` with step 4, if below `n`. -/
def arrIx (off base n : Nat) : Option Nat :=
  if base ≤ off ∧ off < base + 4 * n ∧ (off - base) % 4 = 0 then some ((off - base) / 4) else none

/-- A 32-bit write to the steward page by a PF (23 Table 23.8, R549). -/
def writeSteward (f off : Nat) (v : Word) (s : State) : State :=
  if off = 0x8000 then writeLockReq f v s
  else if off = 0x8010 || off = 0x8014 || off = 0x801C then writeSec f off v s
  else if !(s.isSteward f) then s
  else match arrIx off 0x8100 s.nDies with
  | some d => s.stage (.freq d) (fun o => mergeFreq o v.toNat)
  | none => match arrIx off 0x8110 s.nDies with
  | some d => writeCommit (.freq d) v s
  | none =>
    if off = 0x8130 then s.stage .power (fun o => mergePower o v.toNat)
    else if off = 0x8134 then writeCommit .power v s
    else if off = 0x8140 then s.stage .scrub (fun o => mergeScrub o v.toNat)
    else if off = 0x8144 then writeCommit .scrub v s
    else match arrIx off 0x8160 s.nDies with
    | some d => s.setClk d { s.clkOf d with ovrWm := writeWm (s.clkOf d).ovrWm v }
    | none => match arrIx off 0x8200 (8 * s.nStacks) with
    | some g => s.stage (.hbmArb g) (fun o => mergeArb o v.toNat)
    | none => match arrIx off 0x8300 (8 * s.nStacks) with
    | some g => writeCommit (.hbmArb g) v s
    | none =>
      if off = 0x8500 then { s with hbm := { s.hbm with arbBad := s.hbm.arbBad &&& ~~~ (v.zeroExtend 64) } }
      else if off = 0x8504 then
        { s with hbm := { s.hbm with arbBad := s.hbm.arbBad &&& ~~~ (v.zeroExtend 64 <<< 32) } }
      else match arrIx off 0x8600 s.nDies with
      | some d => if v.getLsbD 31 then s.setEng d { s.engOf d with errValid := false, errCount := 0 } else s
      | none => match arrIx off 0x8810 16 with
      | some i =>
        if i / 4 < s.nDies ∧ i % 4 < 3 then
          { s with ras := { s.ras with scrubs := s.ras.scrubs.upd {} i (fun b => { b with wm := writeWm b.wm v }) } }
        else s
      | none => s

/-- A 32-bit write to a BAR0 register: reserved and undefined offsets discard it (00 R8, 23 R547). -/
def writeReg (f off : Nat) (v : Word) (s : State) : State :=
  if 0x8000 ≤ off then (if fnIsPf f then writeSteward f off v s else s)
  else match arrIx off 0x1000 16 with
  | some i => s.updFn f (fun y => { y with msg := BitVec.ofNat 512 (natPut y.msg.toNat (32 * i) 32 v.toNat) })
  | none =>
    if off = 0x1040 then writePost f v s
    else if off = 0x1048 || off = 0x104C then writePostShort f 4 (v.zeroExtend 64) s
    else if off = 0x1050 then
      if v.getLsbD 15 then s.updFn f (fun y => { y with rejectValid := false, rejectedCount := 0 }) else s
    else if off = 0x105C then s.updFn f (fun y => { y with queueWm := writeWm y.queueWm v })
    else if off = 0x1060 then s.stage (.ring f) (mergeBaseLo v.toNat)
    else if off = 0x1064 then s.stage (.ring f) (mergeBaseHi v.toNat)
    else if off = 0x1068 then s.stage (.ring f) (mergeCfg v.toNat)
    else if off = 0x106C then writeCommit (.ring f) v s
    else if off = 0x1080 then writeRingCons f v s
    else if off = 0x2000 then ringDoorbells f v s
    else if off = 0x300C then
      if v.getLsbD 31 then
        s.updFn f (fun y => { y with winFault := { y.winFault with valid := false, count := 0 } })
      else s
    else match arrIx off 0x4100 64 with
    | some n => signalHTally f n v s
    | none => match arrIx off 0x4200 64 with
    | some n => armHTally f n v s
    | none => match arrIx off 0x4400 8 with
    | some j => requestHLatch f j v s
    | none => match arrIx off 0x4420 8 with
    | some j => releaseHLatch f j v s
    | none => match arrIx off 0x4440 8 with
    | some j =>
      match s.pageLease f with
      | none => s
      | some l =>
        if v.getLsbD 25 ∧ j < (s.leaseOf l).latches then
          s.updLease l (fun x => { x with hlatch := x.hlatch.upd {} j (fun h => { h with relMismatch := false }) })
        else s
    | none =>
      if off = 0x4F00 then writeHtLease f v s
      else if off = 0x5000 then s.stage (.evtRing f) (mergeBaseLo v.toNat)
      else if off = 0x5004 then s.stage (.evtRing f) (mergeBaseHi v.toNat)
      else if off = 0x5008 then s.stage (.evtRing f) (mergeCfg v.toNat)
      else if off = 0x500C then writeCommit (.evtRing f) v s
      else if off = 0x5020 then writeEvtCons f v s
      else match arrIx off 0x6080 s.nDies with
      | some d => s.setClk d { s.clkOf d with thermWm := writeWm (s.clkOf d).thermWm v }
      | none => s

/-- A naturally aligned 32-bit or 64-bit access (00 R6). -/
def aligned (off size : Nat) : Bool := (size == 4 && off % 4 == 0) || (size == 8 && off % 8 == 0)

/-- Send the held messages of unmasked vectors whose bit is pending (15 R382). -/
def unmaskVector (f v : Nat) (s : State) : State :=
  let s1 := s.updFn f (fun y => { y with msixMask := y.msixMask &&& ~~~ (1#16 <<< v) })
  if (s.fnOf f).msixPba.getLsbD v && (s.fnOf f).msixEnable && !(s.fnOf f).msixFMask && s.canSend f then
    (s1.updFn f (fun y => { y with msixPba := y.msixPba &&& ~~~ (1#16 <<< v) })).emit (.msix f v)
  else s1

/-- A 32-bit write to BAR4: the vector-control word of a table entry holds its mask bit (23 R552). -/
def writeBar4 (f off : Nat) (v : Word) (s : State) : State :=
  if off < 256 ∧ off % 16 = 12 then
    if v.getLsbD 0 then s.updFn f (fun y => { y with msixMask := y.msixMask ||| (1#16 <<< (off / 16)) })
    else unmaskVector f (off / 16) s
  else if off < 256 then
    s.updFn f (fun y => { y with msixTable := y.msixTable.set 0 (off / 4) v })
  else s

/-- A write to BAR0 or BAR4 comes into force.  A 64-bit write reaches MBX_POST_SHORT whole and any other pair of registers as its
two halves, low half first; an access that is not naturally aligned is discarded (00 R6). -/
def regWrite (bar4 : Bool) (f off size : Nat) (val : DWord) (s : State) : State :=
  if !(aligned off size) then s
  else
    let lo := val.truncate 32
    let hi := (val >>> 32).truncate 32
    if bar4 then
      let s1 := if off < 8192 then writeBar4 f off lo s else s
      if size = 8 then writeBar4 f (off + 4) hi s1 else s1
    else if off = 0x1048 ∧ size = 8 then writePostShort f 8 val s
    else
      let s1 := writeReg f off lo s
      if size = 8 then writeReg f (off + 4) hi s1 else s1

/-- The function's register writes that are not yet in force come into force, in the order in which the port received them
(00 R10, 15 R378). -/
def settleRegs (f : Nat) (s : State) : State :=
  match (s.fnOf f).regWrites with
  | [] => s
  | ws => ws.foldl (fun s w => regWrite w.bar4 f w.off w.size w.val s) (s.updFn f (fun y => { y with regWrites := [] }))
/-- Every function's. -/
def settleAll (s : State) : State := (s.host.fns.map Prod.fst).foldl (fun s f => settleRegs f s) s

/-- A host write to BAR0 or BAR4 is in force at once, after the earlier ones of its function, or only later (00 R10). -/
def hostWrite (bar4 : Bool) (f off size : Nat) (val : DWord) (late : Bool) (s : State) : State :=
  if !(s.barOpen f) then s.emit (.unsupported f)
  else if late then
    s.updFn f (fun y => { y with regWrites := y.regWrites ++ [{ bar4 := bar4, off := off, size := size, val := val }] })
  else regWrite bar4 f off size val (settleRegs f s)

/-! ### Reads -/

/-- STW_LOCK_STATE (17 Table 17.5). -/
def readLockState (s : State) : Word :=
  BitVec.ofNat 32 (b2n s.host.lockAband * 2 ^ 24 + s.host.lockGen.toNat * 2 ^ 16 + s.host.steward % 2 ^ 16)

/-- TMP_QUENCH (20 Table 20.4). -/
def readQuench (s : State) : Word :=
  BitVec.ofNat 32 (b2n s.power.active * 2 ^ 31 + s.power.triggers.toNat * 2 ^ 16 + s.power.cause % 256)

/-- CFG_REGION_STATE.state of a region (11 Table 11.7). -/
def regionStCode : RegionSt → Nat
  | .idle => 0 | .opened => 1 | .rolling => 2 | .sealed => 3 | .faulted => 4

/-- A 32-bit read of the steward page by a PF (23 Table 23.8). -/
def readSteward (s : State) (off : Nat) : Word :=
  if off = 0x8004 then readLockState s
  else if off = 0x8010 then s.sec.policy.zeroExtend 32
  else if off = 0x8014 then BitVec.ofNat 32 (b2n s.sec.lock)
  else if off = 0x8018 then
    BitVec.ofNat 32 (b2n s.sec.debugUnlocked * 2 ^ 31 + b2n s.sec.entropyFail * 2 ^ 30 + s.sec.floor % 65536)
  else if off = 0x801C then
    BitVec.ofNat 32 (b2n s.sec.viol * 2 ^ 31 + s.sec.violCount % 256 * 2 ^ 16 + s.sec.violFn % 2048)
  else if off = 0x8020 then BitVec.ofNat 32 (s.sec.violAddr % 65536)
  else match arrIx off 0x8100 s.nDies with
  | some d => (s.clkOf d).freq.staged.truncate 32
  | none => match arrIx off 0x8110 s.nDies with
  | some d => commitRead (s.clkOf d).freq
  | none => match arrIx off 0x8120 s.nDies with
  | some d => (s.clkOf d).freq.live.truncate 32
  | none =>
    if off = 0x8130 then s.power.power.staged.truncate 32
    else if off = 0x8134 then commitRead s.power.power
    else if off = 0x8138 then s.power.power.live.truncate 32
    else if off = 0x8140 then s.power.scrub.staged.truncate 32
    else if off = 0x8144 then commitRead s.power.scrub
    else if off = 0x8148 then s.power.scrub.live.truncate 32
    else match arrIx off 0x8150 s.nDies with
    | some d => BitVec.ofNat 32 (b2n (s.clkOf d).episode * 2 + b2n (s.clkOf d).floorClamped)
    | none => match arrIx off 0x8160 s.nDies with
    | some d => readWm (s.clkOf d).ovrWm
    | none =>
      if off = 0x8170 then readQuench s
      else match arrIx off 0x8200 (8 * s.nStacks) with
      | some g => (s.groupOf (.hbmArb g)).staged.truncate 32
      | none => match arrIx off 0x8300 (8 * s.nStacks) with
      | some g => commitRead (s.groupOf (.hbmArb g))
      | none => match arrIx off 0x8400 (8 * s.nStacks) with
      | some g => (s.groupOf (.hbmArb g)).live.truncate 32
      | none =>
        if off = 0x8500 then s.hbm.arbBad.truncate 32
        else if off = 0x8504 then (s.hbm.arbBad >>> 32).truncate 32
        else match arrIx off 0x8600 s.nDies with
        | some d =>
          BitVec.ofNat 32 (b2n (s.engOf d).errValid * 2 ^ 31 + (s.engOf d).errCount % 256 * 2 ^ 16 +
            (s.engOf d).errCause % 256 * 2 ^ 8 + (s.engOf d).errRegion % 256)
        | none => match arrIx off 0x8610 s.nDies with
        | some d => (s.engOf d).errAddr
        | none => match arrIx off 0x8700 s.nRegions with
        | some r =>
          BitVec.ofNat 32 (((s.regionOf r).live.get 0 0).toNat % 1024 * 2 ^ 16 + regionStCode (s.regionOf r).st)
        | none =>
          if off = 0x8800 then
            BitVec.ofNat 32 (b2n s.ras.cfgDisabled * 2 ^ 31 + s.ras.canaryFails % 256 * 2 ^ 16 + s.ras.tmrVotes % 65536)
          else match arrIx off 0x8810 16 with
          | some i => if i / 4 < s.nDies ∧ i % 4 < 3 then readWm (s.ras.scrubs.get {} i).wm else 0
          | none => 0

/-- The half of a 64-bit value that an offset names. -/
def half (v : Nat) (hi : Bool) : Word := BitVec.ofNat 32 (if hi then v / 2 ^ 32 else v)

/-- The host tally page (09 Tables 9.4, 9.6, 23 R550). -/
def readTallyPage (s : State) (f off : Nat) : Word :=
  if off = 0x4F00 then BitVec.ofNat 32 ((s.fnOf f).htLease % 65536)
  else match s.pageLease f with
  | none => 0
  | some l =>
    match arrIx off 0x4000 64 with
    | some n => if n < (s.leaseOf l).tallies then ((s.leaseOf l).htally.get {} n).value.zeroExtend 32 else 0
    | none => match arrIx off 0x4300 64 with
    | some n =>
      let t := (s.leaseOf l).htally.get {} n
      if n < (s.leaseOf l).tallies then
        BitVec.ofNat 32 (b2n t.armed * 2 ^ 31 + t.vector % 16 * 2 ^ 16 + t.target.toNat)
      else 0
    | none => match arrIx off 0x4440 8 with
    | some j =>
      let h := (s.leaseOf l).hlatch.get {} j
      if j < (s.leaseOf l).latches then
        BitVec.ofNat 32 (b2n h.relMismatch * 2 ^ 25 + b2n h.abandoned * 2 ^ 24 + h.generation.toNat * 2 ^ 16 +
          h.holder.toNat)
      else 0
    | none => 0

/-- The telemetry page (20 Table 20.7). -/
def readTelemetry (s : State) (off : Nat) : Word :=
  match arrIx off 0x6000 s.nDies with
  | some d => (s.clkOf d).telClock
  | none => match arrIx off 0x6010 s.nDies with
  | some d => (s.clkOf d).telLimit
  | none => match arrIx off 0x6020 s.nDies with
  | some d => BitVec.ofNat 32 (ofSigned 16 (s.clkOf d).temp)
  | none => match arrIx off 0x6030 s.nStacks with
  | some k => BitVec.ofNat 32 (ofSigned 16 (s.power.hbmTemp.get 0 k))
  | none => match arrIx off 0x6050 s.nDies with
  | some d => BitVec.ofNat 32 ((s.clkOf d).power % 65536)
  | none =>
    if off = 0x6060 then BitVec.ofNat 32 (s.power.modulePower % 65536)
    else if off = 0x6068 then half s.power.energy.toNat false
    else if off = 0x606C then half s.power.energy.toNat true
    else if off = 0x6070 then half s.power.regionIdle.toNat false
    else if off = 0x6074 then half s.power.regionIdle.toNat true
    else match arrIx off 0x6080 s.nDies with
    | some d => readWm (s.clkOf d).thermWm
    | none => 0

/-- MBX_STATUS (16 Table 16.1). -/
def mbxStatus (y : Fn) : Nat :=
  y.lastRejectSeq.toNat * 2 ^ 32 + y.rejectedCount % 65536 * 2 ^ 16 + b2n y.rejectValid * 2 ^ 15 + y.queue.length

/-- ORD_WIN_FAULT (15 Table 15.5). -/
def winFaultReg (w : WinFault) : Nat :=
  b2n w.valid * 2 ^ 63 + b2n w.write * 2 ^ 62 + w.count % 256 * 2 ^ 40 + w.barOff % 2 ^ 40

/-- Base and configuration registers of a ring group's staged or live copy. -/
def baseReg (g : DWord) : Nat := natBits g.toNat 0 52 * 4096
def cfgReg (g : DWord) : Nat := natBits g.toNat 52 4

/-- The per-function pages below the host tally page, and the events page. -/
def readFnPage (s : State) (f off : Nat) : Word :=
  let y := s.fnOf f
  match arrIx off 0x1000 16 with
  | some i => BitVec.ofNat 32 (natBits y.msg.toNat (32 * i) 32)
  | none =>
    if off = 0x1050 then half (mbxStatus y) false
    else if off = 0x1054 then half (mbxStatus y) true
    else if off = 0x1058 then y.nextSeq
    else if off = 0x105C then readWm y.queueWm
    else if off = 0x1060 then half (baseReg y.ring.grp.staged) false
    else if off = 0x1064 then half (baseReg y.ring.grp.staged) true
    else if off = 0x1068 then BitVec.ofNat 32 (cfgReg y.ring.grp.staged)
    else if off = 0x106C then commitRead y.ring.grp
    else if off = 0x1070 then half (baseReg y.ring.grp.live) false
    else if off = 0x1074 then half (baseReg y.ring.grp.live) true
    else if off = 0x1078 then BitVec.ofNat 32 (cfgReg y.ring.grp.live)
    else if off = 0x107C then y.ring.prod
    else if off = 0x1080 then y.ring.cons
    else if off = 0x1084 then BitVec.ofNat 32 y.held.length
    else if off = 0x1088 then y.replyDropped
    else if off = 0x2000 then y.dbRing
    else if off = 0x3008 then half (winFaultReg y.winFault) false
    else if off = 0x300C then half (winFaultReg y.winFault) true
    else if off = 0x5000 then half (baseReg y.evt.grp.staged) false
    else if off = 0x5004 then half (baseReg y.evt.grp.staged) true
    else if off = 0x5008 then BitVec.ofNat 32 (cfgReg y.evt.grp.staged)
    else if off = 0x500C then commitRead y.evt.grp
    else if off = 0x5010 then half (baseReg y.evt.grp.live) false
    else if off = 0x5014 then half (baseReg y.evt.grp.live) true
    else if off = 0x5018 then BitVec.ofNat 32 (cfgReg y.evt.grp.live)
    else if off = 0x501C then y.evt.prod
    else if off = 0x5020 then y.evt.cons
    else if off = 0x5024 then y.evtDropped
    else match arrIx off 0x3100 32 with
    | some i => match y.windows.get none (i / 2) with
      | some w => half w.landing.toNat (i % 2 == 1)
      | none => 0
    | none => 0

/-- What a 32-bit read of BAR0 returns (23 R547): reserved and undefined offsets read 0, a VF's steward page reads 0. -/
def readReg (s : State) (f off : Nat) : Word :=
  if 0x8000 ≤ off then (if fnIsPf f then readSteward s off else 0)
  else if off = 0 then s.idPart
  else if off = 4 then idFwIf
  else if off = 8 then s.capFitted
  else if off = 0xC then s.capUsable
  else if off = 0x10 then s.capCounts
  else if off = 0x14 then s.capChannels
  else if off = 0x18 then s.dev.capGen
  else if off = 0x1C then s.devState
  else if 0x4000 ≤ off ∧ off < 0x5000 then readTallyPage s f off
  else if 0x6000 ≤ off ∧ off < 0x7000 then readTelemetry s off
  else readFnPage s f off

/-- What a 32-bit read of BAR4 returns (23 R552): the MSI-X table, the PBA, and 0 elsewhere. -/
def readBar4 (s : State) (f off : Nat) : Word :=
  let y := s.fnOf f
  if off < 256 then
    if off % 16 = 12 then BitVec.ofNat 32 (b2n (y.msixMask.getLsbD (off / 16))) else y.msixTable.get 0 (off / 4)
  else if off = 0x1000 then y.msixPba.zeroExtend 32
  else 0

/-- What a host read of BAR0 or BAR4 returns: a naturally aligned 32-bit read its dword, a 64-bit read both halves of one state
(00 R7), any other access 0 (00 R6).  A read changes nothing (00 R3), so the table has no row for it. -/
def hostRead (s : State) (bar4 : Bool) (f off size : Nat) : DWord :=
  let rd := fun o => if bar4 then readBar4 s f o else readReg s f o
  if !(aligned off size) then 0
  else if size = 4 then (rd off).zeroExtend 64
  else (rd off).zeroExtend 64 ||| ((rd (off + 4)).zeroExtend 64 <<< 32)

/-! ### The rows -/

/-- REGISTER_WRITE (00 R1): a host write to BAR0 or BAR4 takes the effect of the access code of each field. -/
def execRegisterWrite (bar4 : Bool) (fn off size : Nat) (val : DWord) (late : Bool) (s : State) :
    Host.Outcome State Fault Refusal := done (hostWrite bar4 fn off size val late s)

/-- A per-function or steward register write with a row of its own reaches the device only while the BARs are open, and takes
effect after the function's earlier register writes (15 R378). -/
def gated (f : Nat) (act : State → State) (s : State) : State :=
  if s.barOpen f then act (settleRegs f s) else s.emit (.unsupported f)

/-- Is a write of this group's commit register accepted from the function (23 R549)? -/
def mayCommit (s : State) (f : Nat) (g : Group) : Bool :=
  match g with
  | .ring k => k == f
  | .evtRing k => k == f
  | .freq d => s.isSteward f && decide (d < s.nDies)
  | .hbmArb k => s.isSteward f && decide (k < 8 * s.nStacks)
  | _ => s.isSteward f

/-- COMMIT (00 R14): writing 1 requests the transfer and sets COMMIT_PENDING; a pending request is unaffected (R16). -/
def execCommit (fn : Nat) (g : Group) (val : Word) (s : State) : Host.Outcome State Fault Refusal :=
  done (gated fn (fun s => if mayCommit s fn g then writeCommit g val s else s) s)

/-- MBX_POST (16 R385, R386). -/
def execMbxPost (fn : Nat) (val : Word) (s : State) : Host.Outcome State Fault Refusal :=
  done (gated fn (writePost fn val) s)

/-- MBX_POST_SHORT (16 R385). -/
def execMbxPostShort (fn size : Nat) (val : DWord) (s : State) : Host.Outcome State Fault Refusal :=
  done (gated fn (writePostShort fn size val) s)

/-- MBX_RING_CONS_WRITE (16 R394). -/
def execMbxRingConsWrite (fn : Nat) (val : Word) (s : State) : Host.Outcome State Fault Refusal :=
  done (gated fn (writeRingCons fn val) s)

/-- EVT_RING_CONS_WRITE (23 R551). -/
def execEvtRingConsWrite (fn : Nat) (val : Word) (s : State) : Host.Outcome State Fault Refusal :=
  done (gated fn (writeEvtCons fn val) s)

/-- DB_RING (09 R225). -/
def execDbRing (fn : Nat) (val : Word) (s : State) : Host.Outcome State Fault Refusal :=
  done (gated fn (ringDoorbells fn val) s)

/-- DOORBELL_SERVICE (09 R225). -/
def execDoorbellService (fn bit : Nat) (s : State) : Host.Outcome State Fault Refusal :=
  done (serviceDoorbell fn bit s)

/-- HTALLY_SIGNAL (09 R213). -/
def execHtallySignal (fn n : Nat) (val : Word) (s : State) : Host.Outcome State Fault Refusal :=
  done (gated fn (signalHTally fn n val) s)

/-- HTALLY_ARM (09 R223). -/
def execHtallyArm (fn n : Nat) (val : Word) (s : State) : Host.Outcome State Fault Refusal :=
  done (gated fn (armHTally fn n val) s)

/-- HLATCH_REQ (09 R228). -/
def execHlatchReq (fn j : Nat) (val : Word) (s : State) : Host.Outcome State Fault Refusal :=
  done (gated fn (requestHLatch fn j val) s)

/-- HLATCH_REL (09 R228). -/
def execHlatchRel (fn j : Nat) (val : Word) (s : State) : Host.Outcome State Fault Refusal :=
  done (gated fn (releaseHLatch fn j val) s)

/-- STW_LOCK_ACQUIRE (17 R412). -/
def execStwLockAcquire (fn : Nat) (val : Word) (s : State) : Host.Outcome State Fault Refusal :=
  done (gated fn (acquireLock fn val) s)

/-- STW_LOCK_RELEASE (17 R412). -/
def execStwLockRelease (fn : Nat) (val : Word) (s : State) : Host.Outcome State Fault Refusal :=
  done (gated fn (releaseLock fn val) s)

/-- HTALLY_LEASE_WRITE (23 R550). -/
def execHtallyLeaseWrite (fn : Nat) (val : Word) (s : State) : Host.Outcome State Fault Refusal :=
  done (gated fn (writeHtLease fn val) s)

/-- MSIX_VECTOR_UNMASK (15 R382). -/
def execMsixVectorUnmask (fn v : Nat) (s : State) : Host.Outcome State Fault Refusal :=
  done (gated fn (unmaskVector fn v) s)

end Sys2Proof.Machine
end

