-- ==== Sys2Proof/Machine/Crypto.lean ====
section
/-! DEFINITION. The cryptographic checks that the spec names: SHA-384 (FIPS 180-4) and the verification of an ECDSA P-384
signature (12 R304, 19 R451, R468).  The constants are the standards' (PRESUMED, log 9). -/
namespace Sys2Proof.Machine

/-- Round constants of SHA-384 (FIPS 180-4), part 0. -/
def shaK0 : List DWord :=
  [0x428A2F98D728AE22#64, 0x7137449123EF65CD#64, 0xB5C0FBCFEC4D3B2F#64, 0xE9B5DBA58189DBBC#64,
   0x3956C25BF348B538#64, 0x59F111F1B605D019#64, 0x923F82A4AF194F9B#64, 0xAB1C5ED5DA6D8118#64,
   0xD807AA98A3030242#64, 0x12835B0145706FBE#64, 0x243185BE4EE4B28C#64, 0x550C7DC3D5FFB4E2#64,
   0x72BE5D74F27B896F#64, 0x80DEB1FE3B1696B1#64, 0x9BDC06A725C71235#64, 0xC19BF174CF692694#64]
/-- Round constants of SHA-384 (FIPS 180-4), part 1. -/
def shaK1 : List DWord :=
  [0xE49B69C19EF14AD2#64, 0xEFBE4786384F25E3#64, 0x0FC19DC68B8CD5B5#64, 0x240CA1CC77AC9C65#64,
   0x2DE92C6F592B0275#64, 0x4A7484AA6EA6E483#64, 0x5CB0A9DCBD41FBD4#64, 0x76F988DA831153B5#64,
   0x983E5152EE66DFAB#64, 0xA831C66D2DB43210#64, 0xB00327C898FB213F#64, 0xBF597FC7BEEF0EE4#64,
   0xC6E00BF33DA88FC2#64, 0xD5A79147930AA725#64, 0x06CA6351E003826F#64, 0x142929670A0E6E70#64]
/-- Round constants of SHA-384 (FIPS 180-4), part 2. -/
def shaK2 : List DWord :=
  [0x27B70A8546D22FFC#64, 0x2E1B21385C26C926#64, 0x4D2C6DFC5AC42AED#64, 0x53380D139D95B3DF#64,
   0x650A73548BAF63DE#64, 0x766A0ABB3C77B2A8#64, 0x81C2C92E47EDAEE6#64, 0x92722C851482353B#64,
   0xA2BFE8A14CF10364#64, 0xA81A664BBC423001#64, 0xC24B8B70D0F89791#64, 0xC76C51A30654BE30#64,
   0xD192E819D6EF5218#64, 0xD69906245565A910#64, 0xF40E35855771202A#64, 0x106AA07032BBD1B8#64]
/-- Round constants of SHA-384 (FIPS 180-4), part 3. -/
def shaK3 : List DWord :=
  [0x19A4C116B8D2D0C8#64, 0x1E376C085141AB53#64, 0x2748774CDF8EEB99#64, 0x34B0BCB5E19B48A8#64,
   0x391C0CB3C5C95A63#64, 0x4ED8AA4AE3418ACB#64, 0x5B9CCA4F7763E373#64, 0x682E6FF3D6B2B8A3#64,
   0x748F82EE5DEFB2FC#64, 0x78A5636F43172F60#64, 0x84C87814A1F0AB72#64, 0x8CC702081A6439EC#64,
   0x90BEFFFA23631E28#64, 0xA4506CEBDE82BDE9#64, 0xBEF9A3F7B2C67915#64, 0xC67178F2E372532B#64]
/-- Round constants of SHA-384 (FIPS 180-4), part 4. -/
def shaK4 : List DWord :=
  [0xCA273ECEEA26619C#64, 0xD186B8C721C0C207#64, 0xEADA7DD6CDE0EB1E#64, 0xF57D4F7FEE6ED178#64,
   0x06F067AA72176FBA#64, 0x0A637DC5A2C898A6#64, 0x113F9804BEF90DAE#64, 0x1B710B35131C471B#64,
   0x28DB77F523047D84#64, 0x32CAAB7B40C72493#64, 0x3C9EBE0A15C9BEBC#64, 0x431D67C49C100D4C#64,
   0x4CC5D4BECB3E42B6#64, 0x597F299CFC657E2A#64, 0x5FCB6FAB3AD6FAEC#64, 0x6C44198C4A475817#64]
/-- The 80 round constants. -/
def shaK : List DWord := shaK0 ++ shaK1 ++ shaK2 ++ shaK3 ++ shaK4
/-- The initial hash value of SHA-384. -/
def shaInit : List DWord :=
  [0xCBBB9D5DC1059ED8#64, 0x629A292A367CD507#64, 0x9159015A3070DD17#64, 0x152FECD8F70E5939#64,
   0x67332667FFC00B31#64, 0x8EB44A8768581511#64, 0xDB0C2E0D64F98FA7#64, 0x47B5481DBEFA4FA4#64]

/-- Rotate right. -/
def ror (x : DWord) (k : Nat) : DWord := x.rotateRight k
/-- The small sigmas of the message schedule. -/
def shaS0 (x : DWord) : DWord := ror x 1 ^^^ ror x 8 ^^^ (x >>> 7)
def shaS1 (x : DWord) : DWord := ror x 19 ^^^ ror x 61 ^^^ (x >>> 6)

/-- Extend the message schedule, newest word first, by `n` words. -/
def shaExtend : Nat → List DWord → List DWord
  | 0, w => w
  | n + 1, w => shaExtend n ((shaS1 (w.getD 1 0) + w.getD 6 0 + shaS0 (w.getD 14 0) + w.getD 15 0) :: w)

/-- One round on the working variables a to h. -/
def shaRound (v : List DWord) (kw : DWord × DWord) : List DWord :=
  match v with
  | [a, b, c, d, e, f, g, h] =>
    let t1 := h + (ror e 14 ^^^ ror e 18 ^^^ ror e 41) + ((e &&& f) ^^^ (~~~e &&& g)) + kw.1 + kw.2
    let t2 := (ror a 28 ^^^ ror a 34 ^^^ ror a 39) + ((a &&& b) ^^^ (a &&& c) ^^^ (b &&& c))
    [t1 + t2, a, b, c, d + t1, e, f, g]
  | _ => v

/-- The big-endian 64-bit words of a block. -/
def blockWords (bs : List Byte) : List DWord := (upTo 16).map (fun i => BitVec.ofNat 64 (beNat (slice bs (8 * i) 8)))

/-- The hash value after a block of 128 bytes. -/
def shaBlock (h : List DWord) (bs : List Byte) : List DWord :=
  let w := (shaExtend 64 (blockWords bs).reverse).reverse
  List.zipWith (· + ·) h ((List.zip shaK w).foldl shaRound h)

/-- The padding of a message of `n` bytes. -/
def shaPad (n : Nat) : List Byte :=
  0x80#8 :: (List.replicate ((239 - n % 128) % 128) 0#8 ++ beBytes (8 * n) 16)

/-- Take blocks of 128 bytes from a padded message of `k` blocks. -/
def shaBlocks (h : List DWord) (bs : List Byte) : Nat → List DWord
  | 0 => h
  | k + 1 => shaBlocks (shaBlock h (bs.take 128)) (bs.drop 128) k

/-- SHA-384 of bytes, as a number. -/
def sha384 (bs : List Byte) : BitVec 384 :=
  let m := bs ++ shaPad bs.length
  BitVec.ofNat 384 (((shaBlocks shaInit m (m.length / 128)).take 6).foldl (fun a w => a * 2 ^ 64 + w.toNat) 0)

/-- The field prime of P-384 (FIPS 186). -/
def p384P : Nat := 0xfffffffffffffffffffffffffffffffffffffffffffffffffffffffffffffffeffffffff0000000000000000ffffffff
/-- The coefficient b. -/
def p384B : Nat := 0xb3312fa7e23ee7e4988e056be3f82d19181d9c6efe8141120314088f5013875ac656398d8a2ed19d2a85c8edd3ec2aef
/-- The base point. -/
def p384Gx : Nat := 0xaa87ca22be8b05378eb1c71ef320ad746e1d3b628ba79b9859f741e082542a385502f25dbf55296c3a545e3872760ab7
def p384Gy : Nat := 0x3617de4a96262c6f5d9e98bf9292dc29f8f41dbd289a147ce9da3113b5f0b8c00a60b1ce1d7e819d7a431d7c90ea0e5f
/-- The order of the base point. -/
def p384N : Nat := 0xffffffffffffffffffffffffffffffffffffffffffffffffc7634d81f4372ddf581a0db248b0a77aecec196accc52973

/-- a ^ e modulo m, over `k` bits of e. -/
def modPow (a e m : Nat) : Nat → Nat
  | 0 => 1 % m
  | k + 1 =>
    let h := modPow (a * a % m) (e / 2) m k
    if e % 2 = 1 then a * h % m else h

/-- The inverse modulo a prime. -/
def modInv (a m : Nat) : Nat := modPow (a % m) (m - 2) m 384
/-- a - b modulo the field prime. -/
def subP (a b : Nat) : Nat := (a % p384P + p384P - b % p384P) % p384P

/-- A point of the curve in Jacobian coordinates: (x / z^2, y / z^3), or the point at infinity where z is 0. -/
structure Point where
  x : Nat
  y : Nat
  z : Nat
deriving DecidableEq, Repr

/-- Twice a point; the curve's coefficient a is -3. -/
def dblPoint (a : Point) : Point :=
  let p := p384P
  let yy := a.y * a.y % p
  let zz := a.z * a.z % p
  let s := 4 * a.x * yy % p
  let m := 3 * subP a.x zz * (a.x + zz) % p
  let x := subP (m * m) (2 * s)
  { x := x, y := subP (m * subP s x) (8 * yy * yy), z := 2 * a.y * a.z % p }

/-- Addition of points. -/
def addPoint (a b : Point) : Point :=
  let p := p384P
  if a.z = 0 then b
  else if b.z = 0 then a
  else
    let za := a.z * a.z % p
    let zb := b.z * b.z % p
    let u := a.x * zb % p
    let v := a.y * (zb * b.z % p) % p
    let h := subP (b.x * za) u
    let r := subP (b.y * (za * a.z % p)) v
    if h = 0 then (if r = 0 then dblPoint a else { x := 1, y := 1, z := 0 })
    else
      let hh := h * h % p
      let hhh := hh * h % p
      let x := subP (r * r) (hhh + 2 * u * hh)
      { x := x, y := subP (r * subP (u * hh) x) (v * hhh), z := h * a.z % p * b.z % p }

/-- k times a point, over `n` bits of k. -/
def mulPoint (k : Nat) (a : Point) : Nat → Point
  | 0 => { x := 1, y := 1, z := 0 }
  | n + 1 =>
    let h := mulPoint (k / 2) (dblPoint a) n
    if k % 2 = 1 then addPoint a h else h

/-- The point lies on the curve. -/
def onCurve (x y : Nat) : Bool :=
  decide (x < p384P) && decide (y < p384P) && y * y % p384P == (x * x * x + subP p384B (3 * x)) % p384P

/-- Does (r, s) verify as an ECDSA P-384 signature over the digest under the public key (x, y)? -/
def ecdsaOk (x y : Nat) (digest : BitVec 384) (r s : Nat) : Bool :=
  if r = 0 ∨ p384N ≤ r ∨ s = 0 ∨ p384N ≤ s then false
  else if !(onCurve x y) then false
  else
    let w := modInv s p384N
    let u1 := digest.toNat * w % p384N
    let u2 := r * w % p384N
    let v := addPoint (mulPoint u1 { x := p384Gx, y := p384Gy, z := 1 } 384) (mulPoint u2 { x := x, y := y, z := 1 } 384)
    v.z != 0 && v.x * modInv (v.z * v.z % p384P) p384P % p384P % p384N == r

end Sys2Proof.Machine
end

