-- ==== Sys2Proof/Machine/Sections.lean ====
section
/-! DEFINITION. What sections, programs, regions and leases share: ending a section, stopping and releasing a program,
cancelling what has not started, saving, zeroising and restoring a region, and the changes of a lease's state
(chapters 11, 12, 13, 17). -/
namespace Sys2Proof.Machine

/-- Virtual networks (08 Table 8.2). -/
def vnReq : Nat := 0
def vnReply : Nat := 1
def vnStream : Nat := 2
def vnCtl : Nat := 3

/-- A unit puts packets into its sending queue (08 R197). -/
def State.sendAll (s : State) (ps : List Packet) : State := { s with fab := { s.fab with tx := s.fab.tx ++ ps } }
/-- Live configuration register `n` of region `r` (11 Table 11.6, R271). -/
def creg (s : State) (r n : Nat) : Nat := ((s.regionOf r).live.get 0 n).toNat
/-- CREG_LEASE.lease. -/
def regLease (s : State) (r : Nat) : Nat := creg s r 0 % 1024

/-- The section tag of a record that concerns section `i`, 0 where it concerns none (18 Table 18.6). DEDUCED, log 24. -/
def secTag (s : State) (i : Nat) : Nat :=
  match s.secOf i with
  | some y => y.tag % 65536
  | none => 0
/-- A TILE_FAULT record about a section (18 Table 18.7). -/
def tileFaultEv (s : State) (sec lease unit : Nat) (fields : List Nat) : Ev :=
  { type := 0x01, lease := lease, unit := unit, tag := secTag s sec, body := (fields.map (fun x => leBytes x 4)).flatten }
/-- Send a TILE_FAULT record to a lease. -/
def State.tileFault (s : State) (sec lease unit : Nat) (fields : List Nat) : State :=
  s.eventLease (tileFaultEv s sec lease unit fields) lease

/-! ### Requesters of fabric latches (09 R226, R229) -/

/-- Length of a latch's grant sequence: memory-tile frame 7, five bits for each latch word (11 Table 11.5). -/
def latchLen (s : State) (t j : Nat) : Nat := natBits (s.frameW t 7 j) 0 5
/-- The requester at a position of the sequence: endpoint and port (11 Table 11.4, frames 3 to 6). -/
def latchReq (s : State) (t j pos : Nat) : Nat × Nat :=
  let w := s.frameW t (3 + j / 4) (16 * (j % 4) + pos)
  (w % 8192, natBits w 16 6)

/-- Grant latch `j` of memory tile `t` when it is free and the requester at the current position has asked (09 R226). -/
def grantLatch (t j : Nat) (s : State) : State :=
  let m := s.mtileOf t
  let x := m.latch.get {} j
  let r := latchReq s t j x.pos
  if !x.held && x.asked.contains r then
    let y := { x with held := true, holder := 64 * r.1 + r.2, asked := x.asked.filter (fun q => q != r) }
    let p : Packet := { vn := vnCtl, kind := 5, dst := r.1, src := epOf t, port := r.2, lease := regLease s (tileRegion t),
                        sec := m.sec, pl := .latch j x.generation.toNat x.abandoned }
    (s.setMTile t { m with latch := m.latch.set {} j y }).sendAll [p]
  else s

/-- Abandon latch `j` of memory tile `t`: freed, generation plus one, ABANDONED, position advanced (09 R229). -/
def abandonLatch (s : State) (t j lease : Nat) : State :=
  let m := s.mtileOf t
  let x := m.latch.get {} j
  if x.held then
    let n := latchLen s t j
    let y := { x with held := false, generation := x.generation + 1, abandoned := true,
                      pos := if n = 0 then 0 else (x.pos + 1) % n }
    (s.setMTile t { m with latch := m.latch.set {} j y }).eventLease
      { type := 0x08, unit := epOf t, tag := secTag s m.sec, body := leBytes 0 1 ++ leBytes j 1 ++ leBytes y.generation.toNat 1 } lease
  else s

/-- Abandon the latches that tiles chosen by `p` hold; one in no region of `rs` goes to its next requester (09 Table 9.7). -/
def abandonHeld (s : State) (p : Nat → Bool) (rs : List Nat) (lease : Nat) : State :=
  (s.fab.mtiles.map Prod.fst).foldl (fun s t =>
    (upTo 16).foldl (fun s j =>
      let x := (s.mtileOf t).latch.get {} j
      if x.held && p (epTile (x.holder / 64)) then
        let s1 := abandonLatch s t j lease
        if rs.contains (tileRegion t) then s1 else grantLatch t j s1
      else s) s) s
/-- Abandon the latches that endpoints of regions `rs` hold. -/
def abandonLatches (s : State) (rs : List Nat) (lease : Nat) : State :=
  abandonHeld s (fun t => rs.contains (tileRegion t)) rs lease

/-- Abandon every held latch of a region (its own abort, 09 Table 9.7). -/
def abandonAllLatches (s : State) (r lease : Nat) : State :=
  (regionMTiles r).foldl (fun s t => (upTo 16).foldl (fun s j => abandonLatch s t j lease) s) s

/-! ### The end of a section (07 R178, 09 R222, 06 R153) -/

/-- Discard what is left in a compute tile at the section's end, reporting entries left in its inlets (06 R153). -/
def endTile (lease : Nat) (s : State) (t : Nat) : State :=
  let x := s.tileOf t
  let left := (upTo 4).foldl (fun n i => n + (x.inlets.get [] i).length + (x.redIn.get [] i).length) 0
  let s1 := s.setTile t { x with phase := .ended, inlets := [], redIn := [], outlets := [], outRed := [],
                                 rowOp := none, latchWait := [] }
  if left = 0 then s1 else s1.tileFault x.sec lease (epOf t) [left]

/-- Discard section `i`'s scoreboard and the tail counters of a memory tile, reporting counters that are not 0 (07 R178, 09
R222). -/
def endMTile (lease i : Nat) (s : State) (t : Nat) : State :=
  let m := s.mtileOf t
  let keep := m.billets.filter (fun e => e.2.any (fun b => b.sec != i))
  let s1 := s.setMTile t { m with billets := keep, tail := [], redGot := [], watch := [],
                                  latch := m.latch.mapVals {} (fun _ x => { x with asked := [] }) }
  m.tail.foldl (fun s e => if e.2 = 0 then s else s.tileFault i lease (epOf t) [e.1, e.2]) s1

/-- Drop the streams of a section, its undelivered stream packets and what it has not sent, its reads that have not landed,
the acknowledgements of its writes, its frame streams still to execute and its problems at solver channels; writes already
issued complete in full (13 R332). -/
def dropSection (s : State) (i : Nat) : State :=
  { s with
    own := { s.own with cfg := s.own.cfg.mapVals {} (fun _ e =>
      { e with pushes := e.pushes.filter (fun p => p.sec != i) }) }
    fab := { s.fab with
      streams := s.fab.streams.filter (fun e => match e.2 with | some x => x.sec != i | none => false)
      net := s.fab.net.filter (fun p => !(p.sec == i && p.vn != vnCtl))
      tx := s.fab.tx.filter (fun p => p.sec != i) }
    hbm := { s.hbm with reqs := s.hbm.reqs.filter (fun q => !(q.sec == i && (!q.write || q.served))) }
    seq := { s.seq with chans := s.seq.chans.mapVals {} (fun _ c => if c.sec = i then { c with phase := .idle } else c) } }

/-- The region's state when the section on it ends: FAULTED after a failed roll (11 R289), IDLE after a cancelled roll
(11 R286), else unchanged. -/
def endRegion (s : State) (r : Nat) : State :=
  s.updRegion r (fun x =>
    let y := { x with idle := false, gated := false }
    if x.failPending then { y with st := .faulted, failPending := false, idlePending := false }
    else if x.idlePending then { y with st := .idle, idlePending := false }
    else y)

/-- The place of a tile in its region, which no choice of region changes. -/
def regionPlace (t : Nat) : Nat := 8 * (tileX t % 9) + tileY t % 8

/-- The bytes of billet `b` of tile `t` are unreadable until rewritten: whatever a cancelled fetch left, none of it is read (07 R177,
02 R55).  What they read as is open, by place and address (log 155). -/
def loseBillet (t b : Nat) (s : State) : State :=
  let s1 := s.sramWrite t (4096 * b) ((upTo 4096).map (fun i => Config.lostByte (regionPlace t) (4096 * b + i))) false
  s1.sramFlWrite t (4096 * b) 4096 []

/-- The billets that section `i`, not started, has filled become EMPTY, and their bytes are unreadable (07 R177): its SHADOW ones,
and those that its fetches have opened and not closed (DEDUCED, log 155). -/
def emptyShadow (s : State) (i : Nat) (t : Nat) : State :=
  let m := s.mtileOf t
  let gone := m.billets.filter (fun e => e.2.any (fun x => x.sec == i && (x.st == .shadow || x.st == .opened)))
  let s1 := s.setMTile t { m with billets := m.billets.filter (fun e => !(gone.any (fun g => g.1 == e.1))) }
  gone.foldl (fun s e => loseBillet t e.1 s) s1

/-- A section other than `i` runs on region `r`. -/
def State.busyOther (s : State) (i r : Nat) : Bool :=
  s.secs.any (fun e => e.1 != i && (e.2.phase == .running || e.2.phase == .ending) && (e.2.placed.map Prod.snd).contains r)

/-- A region of a cancelled RUN becomes IDLE, at once or when the section that runs on it ends; a FAULTED one stays (11
R272, R286). -/
def idleRegion (i : Nat) (s : State) (r : Nat) : State :=
  s.updRegion r (fun y => if y.st = .faulted then y else if s.busyOther i r then { y with idlePending := true }
    else { y with st := .idle })

/-- Cancel a section that has not started: its streams stop, its SHADOW billets become EMPTY (10 R246), and the regions
that its load has opened, or with `all` every region of a rolled RUN, become IDLE (11 R286, R288). -/
def cancelCore (all : Bool) (s : State) (i : Nat) : State :=
  match s.secOf i with
  | none => s
  | some x =>
    let rs := x.placed.map Prod.snd
    let s1 := (rs.flatMap regionMTiles).foldl (fun s t => emptyShadow s i t) (dropSection s i)
    let s2 := (if all && x.behind.isSome then rs else x.opened).foldl (idleRegion i) s1
    let s3 := rs.foldl (fun s r => s.updRegion r (fun y =>
      if y.reserved = some x.prog then { y with reserved := none } else y)) s2
    let s4 := match s3.progOf x.prog with
      | some p => if p.aheadSec = some i then s3.setProg x.prog (some { p with aheadSec := none }) else s3
      | none => s3
    ({ s4 with seq := { s4.seq with runQueue := s4.seq.runQueue.filter (fun h => h != x.prog) } }).setSec i none

/-- Cancel a section that has not started. -/
def cancelSection (s : State) (i : Nat) : State := cancelCore true s i

/-- Cancel what section `i` has prepared: a RUN in prologue is as it was before its load began, and a run-ahead is only
cancelled.  True where a RUN is left. -/
def rewound (s : State) (i : Nat) : State × Bool :=
  match s.secOf i with
  | none => (s, false)
  | some x =>
    let ahead := (s.progOf x.prog).any (fun p => p.aheadSec == some i)
    let s1 := cancelSection s i
    if x.phase = .prologue ∧ ahead = false then
      (s1.setSec i (some { x with phase := .queued, loading := false, opened := [], retried := [], behind := none,
                                  heldEvs := [], since := s.sclk }), true)
    else (s1, false)

/-- The prologue of a region that is to be steered begins anew later (18 Table 18.4). -/
def rewindSection (s : State) (i : Nat) : State := (rewound s i).1

/-- A prologue on a region that is handed over is cancelled and its RUN waits again, at the end of the queue; a run-ahead
is only cancelled (17 R407, R408). -/
def requeueSection (s : State) (i : Nat) : State :=
  let r := rewound s i
  match s.secOf i, r.2 with
  | some x, true => { r.1 with seq := { r.1.seq with runQueue := r.1.seq.runQueue ++ [x.prog] } }
  | _, _ => r.1

/-- The sections of a program that have started. -/
def State.runningOf (s : State) (h : Nat) : List (Nat × Section) :=
  s.secs.filter (fun e => e.2.prog == h && (e.2.phase == .running || e.2.phase == .ending))

/-- Cancel the prologue, run-ahead and waiting RUN of a program (12 R321). -/
def cancelPending (s : State) (h : Nat) : State :=
  (s.secs.filter (fun e => e.2.prog == h && !(e.2.phase == .running || e.2.phase == .ending))).foldl
    (fun s e => cancelSection s e.1) s

/-- The record of a program's end, or none for an owner that is lost (16 Table 16.4, 17 R415). -/
def endRecord (s : State) (h : Nat) (p : Prog) : State :=
  if p.silent then s
  else s.produce p.fn (replyEntry 2 p.failSt p.flags.toNat 0x40 p.tag p.lease p.seq.toNat
    (leBytes 0 4 ++ leBytes p.failIdx 2 ++ leBytes h 2))

/-- Release a program and its context (12 R318); a later program of the same handle is another to the channels (14 R348). -/
def releaseProg (s : State) (h : Nat) : State :=
  let s1 := s.setProg h none
  { s1 with seq := { s1.seq with chans := s1.seq.chans.mapVals {} (fun _ c =>
                                   if c.lastProg = some h then { c with lastProg := none } else c)
                                 contexts := s1.seq.contexts.filter (fun e => e.2 != some h),
                                 runQueue := s1.seq.runQueue.filter (fun k => k != h) } }

/-- Stop a program for a reason that stands first in program order (12 R321): nothing further issues, its prologue and
run-ahead are cancelled, and it ends when its sections have. -/
def stopProg (s : State) (h ord idx : Nat) (st : Status) : State :=
  match s.progOf h with
  | none => s
  | some p =>
    let p1 := if p.stopping && decide (p.failOrd ≤ ord) then p
      else { p with stopping := true, failOrd := ord, failIdx := idx, failSt := st }
    cancelPending (s.setProg h (some { p1 with wait := .none, move := none })) h

/-- Take a command off the list of those in flight. -/
def dropFlight (s : State) (fn : Nat) (seq : Word) : State :=
  let fl := s.host.flights.eraseP (fun x => x.fn == fn && x.msg.seq == seq)
  { s with host := { s.host with flights := fl } }

/-- The command of a function in flight with that sequence number, whose reply is still wanted. -/
def flightOf (s : State) (fn : Nat) (seq : Word) : Option Flight :=
  s.host.flights.find? (fun x => x.fn == fn && x.msg.seq == seq)

/-- Send the reply of a command in flight, unless its function was reset (16 R387), and take it off the list. -/
def finishCmd (s : State) (fn : Nat) (seq : Word) (st : Status) (flags : Nat) (results : List Byte) : State :=
  match flightOf s fn seq with
  | none => s
  | some x =>
    let b := entryBytes x.msg.bytes
    if x.discard then dropFlight s fn seq
    else (dropFlight s fn seq).produce fn
      (replyEntry 0 st flags (fieldAt b 0 1) (fieldAt b 2 2) (fieldAt b 4 2) seq.toNat results)

/-- The transfer of a pending group at its safe point; POWER_POLICY commands that waited for it reply OK (20 R493). -/
def safePoint (g : Group) (s : State) : State :=
  if (s.groupOf g).pending then
    let s1 := transferGroup g s
    (s1.host.flights.filter (fun x => x.wait == .commit g)).foldl (fun s x => finishCmd s x.fn x.msg.seq .ok 0 []) s1
  else s

/-! ### A lease leaves OPEN (17 Table 17.2, R559) -/

/-- The named lease leaves OPEN: pages that showed it show none, and doorbell bits bound to it are unbound
(23 R550, 09 R225). -/
def leftOpen (s : State) (l : Nat) : State :=
  { s with host := { s.host with fns := s.host.fns.mapVals {} (fun _ y =>
      { y with htLease := if y.htLease = l then 0xFFFF else y.htLease,
               dbBind := y.dbBind.mapVals none (fun _ b =>
                 match b with
                 | some (k, n) => if k = l then none else some (k, n)
                 | none => none) }) } }

/-- Abandon the host latches of a lease (09 R229): freed, generation plus one, ABANDONED, one record each. -/
def abandonHLatches (s : State) (l : Nat) : State :=
  (upTo (s.leaseOf l).latches).foldl (fun s j =>
    let h := (s.leaseOf l).hlatch.get {} j
    if h.holder = 0 then s else
    let h' := { h with holder := 0, generation := h.generation + 1, abandoned := true }
    (s.updLease l (fun x => { x with hlatch := x.hlatch.set {} j h' })).eventLease
      { type := 0x08, body := leBytes 1 1 ++ leBytes j 1 ++ leBytes h'.generation.toNat 1 } l) s

/-- Inbound windows of a lease go (15 R373, 16 LEASE_CLOSE); no landing counter counts the writes still on their way. -/
def unmapLease (s : State) (l : Nat) : State :=
  { s with host := { s.host with
      fns := s.host.fns.mapVals {} (fun _ y => { y with windows := y.windows.mapVals none (fun _ w =>
        match w with
        | some v => if v.lease = l then none else some v
        | none => none) }),
      writes := s.host.writes.map (fun w => if w.lease = l then { w with window := 16 } else w) } }

/-- The part of a write that lies below lease byte `lo`, and the rest, discarded. -/
def cutWrite (lo fresh : Nat) (w : WinWrite) : List WinWrite :=
  if lo ≤ w.addr then [{ w with lost := true }]
  else
    let k := lo - w.addr
    [{ w with data := w.data.take k },
     { w with id := fresh, addr := lo, barOff := w.barOff + k, data := w.data.drop k, window := 16, lost := true }]

/-- HBM of a lease from byte `lo` on is released: the bytes there of writes still on their way are discarded as accesses
without a window (15 R558). -/
def loseWrites (l lo : Nat) (s : State) : State :=
  s.host.writes.foldl (fun s w =>
    if w.lease = l ∧ lo < w.addr + w.data.length then
      let n := s.host.nextWrite
      let ws := s.host.writes.flatMap (fun x => if x.id = w.id then cutWrite lo n w else [x])
      { s with host := { s.host with nextWrite := n + 1, writes := ws } }
    else s) s

/-- A lease begins to close: it enters CLOSING and is reported (17 R559). -/
def startClosing (s : State) (l cause : Nat) (reach : List Nat) : State :=
  let x := s.leaseOf l
  let s1 := leftOpen (s.setLease l { x with st := .closing, cause := cause, told := !reach.isEmpty }) l
  let s2 := s1.leaseStateEvent l 4 cause x.owner 0xFFFF reach
  abandonHLatches (loseWrites l 0 (unmapLease s2 l)) l

/-- The owner of a lease that can be told of its closing. -/
def reachOf (s : State) (l : Nat) : List Nat :=
  if (s.leaseOf l).st = .opened then [(s.leaseOf l).owner] else []

/-- No section and no bound program of the lease is left. -/
def leaseStill (s : State) (l : Nat) : Bool :=
  s.secs.all (fun e => e.2.lease != l) && s.bound.all (fun e => e.2.lease != l)

/-- A LEASE_CLOSE that waited for the lease's sections goes on (16 Table 16.8). -/
def closeGoesOn (l : Nat) (s : State) : State :=
  if s.host.flights.any (fun x => x.wait == .closing l) && leaseStill s l && (s.leaseOf l).st != .closing then
    startClosing s l 6 (reachOf s l)
  else s

/-- What may go on once sections have ended: stopped and halted programs are released, and suspensions and closes go on
(12 R318, R321, 16 SEQ_SUSPEND, LEASE_CLOSE). -/
def settleProg (s : State) (h : Nat) : State :=
  match s.progOf h with
  | none => s
  | some p =>
    if !(s.runningOf h).isEmpty then s
    else
      let s1 := (s.host.flights.filter (fun x => x.wait == .suspend h)).foldl
        (fun s x => finishCmd s x.fn x.msg.seq .ok 0 []) s
      if p.stopping then closeGoesOn p.lease (releaseProg (endRecord s1 h p) h)
      else if p.wait = .halt then closeGoesOn p.lease (releaseProg s1 h)
      else s1

/-- The flags that a section adds to its program's (02 R43, R45). -/
def sectionFlags (x : Section) : BitVec 3 :=
  (if x.timingDep then 1 else 0) ||| (if x.remapped then 4 else 0)

/-- End section `i` with a status: its billets lose their scoreboard, its tiles stop, its latches are abandoned, and its
program takes its flags, or stops (07 R178, 12 R321). -/
def endSection (s : State) (i : Nat) (st : Status) : State :=
  match s.secOf i with
  | none => s
  | some x =>
    let rs := x.placed.map Prod.snd
    let ok := st = .ok ∨ st = .poisoned
    let s1 := abandonLatches s rs x.lease
    let s2 := (rs.flatMap regionMTiles).foldl (endMTile x.lease i)
      ((rs.flatMap regionCTiles).foldl (fun s t => if (s.tileOf t).sec = i then endTile x.lease s t else s) s1)
    let s3 := (dropSection s2 i).setSec i none
    let s4 := s3.updLease x.lease (fun l => { l with peerWins := dedup (l.peerWins ++ x.peerWins) })
    let s5 := match s4.progOf x.prog with
      | none => s4
      | some p => s4.setProg x.prog (some { p with
          flags := p.flags ||| sectionFlags x, poisoned := p.poisoned || st == .poisoned,
          peerWins := dedup (p.peerWins ++ x.peerWins) })
    let s6 := if ok then s5 else
      -- a rolled RUN behind it is cancelled (11 R286) and the program stops (12 R321)
      let s' := (s5.secs.filter (fun e => e.2.behind == some i)).foldl (fun s e => cancelSection s e.1) s5
      stopProg s' x.prog x.tag x.instr st
    settleProg (rs.foldl endRegion s6) x.prog

/-- The order in which R333 records causes of one cycle. -/
def rankOfVerdict : Status → Nat
  | .quenched => 0
  | .aborted => 1
  | .seamViolation => 2
  | .writerConflict => 3
  | .timeout => 4
  | .deadlock => 5
  | _ => 6
/-- The status with which section `x` ends when `st` ends it now: an earlier verdict stands, and of one cycle the first in R333's
order.  The SCLK tick stands for the cycle of the origin die (DESIGN CHOICE, log 150). -/
def endStatus (s : State) (x : Section) (st : Status) : Status :=
  match x.phase, x.verdict with
  | .ending, some v => if x.verdictAt = s.sclk ∧ rankOfVerdict st < rankOfVerdict v then st else v
  | _, _ => st

/-- A check ends a running section: the first verdict stands, or of one cycle the first in order, its tiles and streams stop,
requests already issued go on, and SECTION_END follows (13 R332, R333). -/
def verdictOn (s : State) (i : Nat) (st : Status) : State :=
  match s.secOf i with
  | none => s
  | some x =>
    if x.phase = .running then
      let s1 := dropSection (s.setSec i (some { x with phase := .ending, verdict := some st, verdictAt := s.sclk })) i
      { s1 with fab := { s1.fab with net := s.fab.net.filter (fun p => !(p.sec == i && p.vn != vnCtl && p.vn != vnReq)) } }
    else if x.phase = .ending ∧ x.verdictAt = s.sclk ∧ x.verdict.any (fun v => decide (rankOfVerdict st < rankOfVerdict v)) = true then
      s.setSec i (some { x with verdict := some st })
    else s

/-- Region abort: the section on the region ends with ABORTED and the region goes to IDLE (11 R272, 09 Table 9.7). -/
def abortRegion (s : State) (r : Nat) : State :=
  let on := s.secs.filter (fun e => (e.2.placed.map Prod.snd).contains r)
  let lease := (s.regionOf r).resident.getD 0xFFFF
  let s1 := abandonAllLatches s r lease
  let s2 := on.foldl (fun s e =>
    if e.2.phase = .running ∨ e.2.phase = .ending then endSection s e.1 (endStatus s e.2 .aborted)
    else if e.2.phase = .prologue then stopProg (cancelSection s e.1) e.2.prog e.2.tag e.2.instr .aborted
    else s) s1
  let s3 := s2.updRegion r (fun x => { x with st := .idle, failPending := false, idlePending := false })
  on.foldl (fun s e => settleProg s e.2.prog) s3

/-! ### Regions: save, zeroise, restore (17 R409, R410) -/

/-- Does region `r` contain the tile? -/
def inRegion (r t : Nat) : Bool := decide (t < 4608) && tileRegion t == r

/-- What a save of region `r` holds (17 R409 step 1). -/
def saveOf (s : State) (r : Nat) : Saved where
  sram := s.fab.sram.filter (fun e => inRegion r (e.1 / 2 ^ 21))
  poison := s.fab.sramPoison.filter (fun e => inRegion r (e.1 / 2 ^ 15))
  tally := (regionMTiles r).foldl (fun a t =>
    (upTo 64).foldl (fun a j => a.set 0 (t * 64 + j) ((s.mtileOf t).tally.get 0 j)) a) []
  latchGen := (regionMTiles r).foldl (fun a t =>
    (upTo 16).foldl (fun a j => a.set 0 (t * 16 + j) (((s.mtileOf t).latch.get {} j).generation)) a) []
  latchAband := (regionMTiles r).foldl (fun a t =>
    (upTo 16).foldl (fun a j => a.set false (t * 16 + j) (((s.mtileOf t).latch.get {} j).abandoned)) a) []

/-- Save region `r` to lease `l`'s save area. -/
def saveRegion (s : State) (l r : Nat) : State :=
  s.updLease l (fun x => { x with saves := x.saves.set none r (some (saveOf s r)) })

/-- Zeroise region `r`: billets, marks, frames, configuration registers, fabric tallies and latches; the region is IDLE
(07 R185, 09 R211, 11 R291). -/
def zeroiseRegion (s : State) (r : Nat) : State :=
  let ts := regionCTiles r ++ regionMTiles r
  let s1 := (s.sramErase ts).frameErase ts
  let s2 := { s1 with fab := { s1.fab with
      mtiles := s1.fab.mtiles.filter (fun e => !(inRegion r e.1)),
      tiles := s1.fab.tiles.filter (fun e => !(inRegion r e.1)) } }
  s2.updRegion r (fun x => { x with st := .idle, staged := [], live := [], sealedCols := 0, drainedCols := 0,
                                    failPending := false, idlePending := false, vacantAt := s.sclk })

/-- Merge listed entries into a table. -/
def mergeTable {α : Type} [DecidableEq α] (d : α) (t add : Table α) : Table α :=
  add.foldl (fun t e => t.set d e.1 e.2) t

/-- Restore the saved state of region `r` of lease `l`, where there is one; billets of absent tiles are not restored
(17 R409 step 3, R410, 18 R440). -/
def restoreRegion (s : State) (l r : Nat) : State :=
  match (s.leaseOf l).saves.get none r with
  | none => s
  | some v =>
    let s1 := (s.setSram (mergeTable 0 s.fab.sram (v.sram.filter (fun e => !(s.absent (e.1 / 2 ^ 21)))))).setSramPoison
      (mergeTable false s.fab.sramPoison (v.poison.filter (fun e => !(s.absent (e.1 / 2 ^ 15)))))
    (regionMTiles r).foldl (fun s t =>
      if s.absent t then s else
      let m := s.mtileOf t
      s.setMTile t { m with
        tally := (upTo 64).foldl (fun a j => a.set 0 j (v.tally.get 0 (t * 64 + j))) m.tally
        latch := (upTo 16).foldl (fun a j => a.upd {} j (fun x =>
          { x with generation := v.latchGen.get 0 (t * 16 + j), abandoned := v.latchAband.get false (t * 16 + j) }))
          m.latch }) s1

/-- Sections that use the region: running, ending, in prologue or running ahead. -/
def State.regionUsers (s : State) (r : Nat) : List (Nat × Section) :=
  s.secs.filter (fun e => e.2.phase != .queued && (e.2.placed.map Prod.snd).contains r)

/-- The region is idle (17 R406). -/
def State.regionFree (s : State) (r : Nat) : Bool :=
  (s.regionUsers r).isEmpty && (s.regionOf r).emulation.isNone && !(s.regionOf r).steering

/-! ### What reads of storage find (18 R425, R426, R431) -/

/-- SCLK ticks in a second. -/
def second : Nat := 25000000

/-- Errors of a domain in the second before now. -/
def errsIn (now : Nat) (b : Scrub) (k : Nat) : Nat :=
  (b.errs.filter (fun t => decide (now < t + (k + 1) * second) && decide (t + k * second ≤ now))).length

/-- The lease that owns a region's storage: its resident. -/
def storageLease (s : State) (r : Nat) : Option Nat := (s.regionOf r).resident

/-- The name of the billet that holds SRAM byte `a` of tile `t` (07 Table 7.5). -/
def billetName (t a : Nat) : Nat := tileDie t * 2 ^ 30 + tileX t * 2 ^ 24 + tileY t * 2 ^ 19 + a / 4096

/-- A SCRUB_ESCALATED or SCRUB_RESTORED record. -/
def scrubEvent (type die dom errs : Nat) (s : State) : State :=
  s.eventStewardLog { type := type, body := leBytes die 1 ++ leBytes dom 1 ++ leBytes errs 4 }

/-- Set a scrub domain. -/
def setScrub (s : State) (i : Nat) (b : Scrub) : State :=
  { s with ras := { s.ras with scrubs := s.ras.scrubs.set {} i b } }

/-- A domain whose errors reach 64 in one second escalates (18 R431). -/
def escalate (die dom : Nat) (s : State) : State :=
  let b := s.ras.scrubs.get {} (4 * die + dom)
  let n := errsIn s.sclk b 0
  if 64 ≤ n && !b.escalated then
    scrubEvent 0x12 die dom n (setScrub s (4 * die + dom)
      { b with escalated := true, quietAt := s.sclk, wm := sampleWm b.wm true })
  else s

/-- A POISON_FOUND record (18 Table 18.7): domain, found by, mask, with the tag of the section whose read found it. -/
def poisonFound (lease unit addr domain by_ mask tag : Nat) (owned : Bool) (s : State) : State :=
  let e : Ev := { type := 0x10, lease := if owned then lease else 0xFFFF, unit := unit, addr := addr, tag := tag,
                  body := leBytes domain 1 ++ leBytes by_ 1 ++ leBytes mask 1 }
  if owned then s.eventLeaseStewardLog e lease else s.eventStewardLog e

/-- A correctable error is counted in its domain of the die, and its line is queued for write-back (18 R425). -/
def countCorrectable (die dom line : Nat) (s : State) : State :=
  let b := s.ras.scrubs.get {} (4 * die + dom)
  let old := b.errs.filter (fun t => decide (s.sclk < t + 11 * second))
  escalate die dom (setScrub s (4 * die + dom)
    { b with errs := old ++ [s.sclk], hourErrs := b.hourErrs + 1, writeBack := b.writeBack ++ [line] })

/-- What a read of lease HBM finds at byte `a` (18 R425, R426): an uncorrectable error marks the unit and is reported. -/
def hbmFinding (l a by_ tag : Nat) (f : Finding) (s : State) : State :=
  match f with
  | .clean => s
  | .correctable _ => countCorrectable ((s.leaseOf l).spans.getD (a / spanBytes) 0) 1 (unitKey l a) s
  | .uncorrectable mask => poisonFound l 0xFFFF a 1 by_ mask tag true (s.hbmMark l a 1 true)

/-- What a read of SRAM finds at byte `a` of tile `t` (18 R425, R426). -/
def sramFinding (t a by_ tag : Nat) (f : Finding) (s : State) : State :=
  match f with
  | .clean => s
  | .correctable _ => countCorrectable (tileDie t) 0 (t % 1152 * 2 ^ 15 + a / 64) s
  | .uncorrectable mask =>
    let s1 := s.sramMark t a 1 true
    let addr := billetName t a + a % 4096 / 64 * 64 * 2 ^ 32
    match storageLease s (tileRegion t) with
    | some l => poisonFound l (epOf t) addr 0 by_ mask tag true s1
    | none => poisonFound 0 (epOf t) addr 0 by_ mask tag false s1

/-- What the save of region `r` finds at byte `k` (tile * 2^21 + address) of its tiles (18 R425, R426): nothing elsewhere. -/
def saveFinding (r k : Nat) (f : Finding) (s : State) : State :=
  match (s.regionOf r).resident with
  | some o => if inRegion r (k / 2 ^ 21) && (s.leaseOf o).st != .closing then sramFinding (k / 2 ^ 21) (k % 2 ^ 21) 3 0 f s else s
  | none => s

/-! ### Solver channels (14 R345) -/

/-- The emulation of channel `c` ends: its region is cleared and free again, and so is its slot (03 R73, 14 R345, R360). -/
def endEmulation (c : Nat) (s : State) : State :=
  let x := s.chanOf c
  match x.lease with
  | some l =>
    if x.emulated = true ∧ (s.regionOf x.region).emulation = some c then
      ((zeroiseRegion s x.region).updRegion x.region (fun r => { r with emulation := none })).updLease l
        (fun y => { y with slots := y.slots.set none x.emuSlot none })
    else s
  | none => s

/-- Unbind a channel: its quarter is cleared (14 R345). -/
def unbindChan (s : State) (c : Nat) : State := (endEmulation c s).setChan c {}

/-- Unbind every channel of a lease. -/
def unbindChans (s : State) (l : Nat) : State :=
  (upTo s.nChans).foldl (fun s c => if (s.chanOf c).lease = some l then unbindChan s c else s) s

/-! ### Lease states (17 Table 17.2, R559) -/

/-- An OPEN lease loses its owner and drains: no further instruction issues, prologues, run-ahead and rolled RUNs are
cancelled, records to the lost function stop (17 R414, R415). -/
def startDraining (s : State) (l : Nat) : State :=
  let x := s.leaseOf l
  if x.st ≠ .opened then s else
  let s1 := leftOpen (s.setLease l { x with st := .draining, drainAt := s.sclk, formerOwner := x.owner, cause := 0 }) l
  let s2 := (s1.bound.filter (fun e => e.2.lease == l)).foldl (fun s e =>
    cancelPending (s.setProg e.1 (some { e.2 with silent := true, suspended := true })) e.1) s1
  s2.leaseStateEvent l 2 0 x.owner 0xFFFF []

/-- What a freed lease still had under way goes with it. -/
def dropLease (s : State) (l : Nat) : State :=
  { s with fab := { s.fab with net := s.fab.net.filter (fun p => p.lease != l), tx := s.fab.tx.filter (fun p => p.lease != l) }
           hbm := { s.hbm with reqs := s.hbm.reqs.filter (fun q => q.lease != l) } }

/-- Commands on a lease that is freed, of another function than the one that closed it, and that still wait: a spill or fill,
or a FENCE.  They reply NO_LEASE (17 Table 17.2). -/
def dropCommands (l : Nat) (s : State) : State :=
  (s.host.flights.filter (fun x => fieldAt (entryBytes x.msg.bytes) 4 2 == l &&
    (match x.wait with
     | .move => true
     | .fence _ _ => true
     | _ => false))).foldl (fun s x => finishCmd s x.fn x.msg.seq .noLease 0 []) s

/-- Zeroise what a lease holds and free it (16 LEASE_CLOSE, 17 R410, 07 R185, 11 R291): regions on which it is resident
are zeroised without a save, channels unbound, HBM and key gone, and the id is free (17 R559). -/
def freeLease (s : State) (l : Nat) (reach : List Nat) : State :=
  let x := s.leaseOf l
  let s1 := unbindChans s l
  let s2 := (upTo s.nRegions).foldl (fun s r =>
    if (s.regionOf r).resident = some l then
      (zeroiseRegion s r).updRegion r (fun y => { y with resident := none })
    else s) s1
  let s3 := dropLease (((dropCommands l s2).hbmErase l).setLease l {}) l
  s3.leaseStateEvent l 0 x.cause x.owner 0xFFFF reach

end Sys2Proof.Machine
end

