-- ==== Sys2Proof/Machine/CfgSpace.lean ====
section
/-! DEFINITION. What a read of configuration space returns: identity, BARs, capabilities, SR-IOV, Resizable BAR and AER (15 R362,
R365, 23 R553 to R555).  The places of PCIe's own structures are free values, the places of bits within them PCIe's (PRESUMED, log
151). -/
namespace Sys2Proof.Machine

/-- Device ID of a PF, or of a VF (23 R554). -/
def deviceId (s : State) (f : Nat) : Nat := (if fnIsPf f then 0x59A0 else 0x59B0) + s.dev.part

/-! ### Capabilities (15 Tables 15.1, 15.2) -/

/-- The header's capabilities: Power Management, PCI Express, MSI-X. -/
def stdCaps : List Nat := [0x01, 0x10, 0x11]
/-- Extended capabilities that the device does not have: ATS, multicast, PRI, TPH, PASID, L1 PM Substates, DVSEC. -/
def absentCaps : List Nat := [0x0F, 0x12, 0x13, 0x17, 0x1B, 0x1E, 0x23]
/-- The extended capabilities: AER, VSEC and ARI of every function; SR-IOV, Resizable BAR, VF Resizable BAR, DOE and IDE of a PF. -/
def extCaps (f : Nat) : List Nat :=
  [0x01, 0x0B, 0x0E] ++ (if fnIsPf f then [0x10, 0x15, 0x24, 0x2E, 0x30] else []) ++
    Config.moreCaps.filter (fun c => !(absentCaps.contains c))
/-- The capability after `c` in a list. -/
def capAfter (l : List Nat) (c : Nat) : Option Nat := ((l.dropWhile (fun x => x != c)).drop 1).head?
/-- The first dword of a capability of the header's list: its number and the place of the next. -/
def stdHeader (f c : Nat) : Nat :=
  c + 256 * ((capAfter stdCaps c).elim 0 Config.capAt % 256) + (Config.cfgSpace f (Config.capAt c)).toNat / 2 ^ 16 * 2 ^ 16
/-- The first dword of an extended capability: its number, its version and the place of the next. -/
def extHeader (f c : Nat) : Nat :=
  c + (if c = 0x0B then 1 else (Config.cfgSpace f (Config.extCapAt c)).toNat / 2 ^ 16 % 16) * 2 ^ 16 +
    (capAfter (extCaps f) c).elim 0 Config.extCapAt % 4096 * 2 ^ 20

/-! ### BARs (15 Table 15.3) -/

/-- log2 of the size of a BAR. -/
def barLog2 (bar2 i : Nat) : Nat := if i = 0 then 16 else if i = 1 then bar2 else 13
/-- Dword `i` of a group of three 64-bit BARs: the address bits above the size that host software wrote, and the type: 64-bit, and
prefetchable for BAR2. -/
def barDword (bars : Table Word) (first bar2 i : Nat) : Nat :=
  let n := barLog2 bar2 (i / 2)
  let v := (bars.get 0 (first + i)).toNat
  if i % 2 = 0 then v / 2 ^ min n 32 * 2 ^ min n 32 + (if i = 2 then 0xC else 0x4)
  else v / 2 ^ (n - 32) * 2 ^ (n - 32)

/-! ### Structures of capabilities: dword at offset `o` within one -/

/-- Power Management: PME_Support 0, no D1 or D2; No_Soft_Reset 1, and D0 or D3hot. -/
def pmDword (y : Fn) (free o : Nat) : Nat :=
  if o = 4 then natPut (natPut free 0 2 (if y.d3hot then 3 else 0)) 3 1 1 else free
/-- PCI Express: Max Payload Size Supported 512; Enable Relaxed Ordering, Max Payload Size and Max Read Request Size; ASPM Support
00b; AtomicOp Completer Supported 0. -/
def pcieDword (y : Fn) (free o : Nat) : Nat :=
  if o = 4 then natPut free 0 3 2
  else if o = 8 then natPut (natPut (natPut free 4 1 (b2n y.ero)) 5 3 y.mps) 12 3 y.mrrs
  else if o = 0xC then natPut free 10 2 0
  else if o = 0x24 then natPut (natPut free 7 3 0) 12 2 0
  else free
/-- MSI-X: Table Size 15, with Function Mask and Enable in the first dword; both structures in BAR4 (23 R552). -/
def msixFirst (y : Fn) (h : Nat) : Nat := natPut (natPut (natPut h 16 11 15) 30 1 (b2n y.msixFMask)) 31 1 (b2n y.msixEnable)
def msixDword (o : Nat) : Nat := if o = 4 then 4 else 0x1004
/-- SR-IOV: InitialVFs and TotalVFs 256 (none in RECOVERY), NumVFs and VF Enable, First VF Offset and VF Stride 1, the VF Device ID
and the VF BARs. -/
def sriovDword (s : State) (f free o : Nat) : Nat :=
  let p := s.portOf (fnPort f)
  let n := if s.boot.state = 6 then 0 else 256
  if o = 8 then natPut free 0 1 (b2n p.vfEnable)
  else if o = 0xC then n * 65536 + n
  else if o = 0x10 then natPut free 0 16 p.numVfs
  else if o = 0x14 then 0x10001
  else if o = 0x18 then natPut free 16 16 (0x59B0 + s.dev.part)
  else if 0x24 ≤ o ∧ o < 0x3C then barDword (s.fnOf f).bars 6 (s.fnOf (f + 1)).bar2Log2 ((o - 0x24) / 4)
  else free
/-- Resizable BAR: 64 MiB to 256 GiB; BAR2, one BAR, and its size. -/
def rebarDword (log2 o : Nat) : Nat := if o = 4 then 0x1FFF * 2 ^ 10 else 2 + 32 + (log2 - 20) * 256
/-- AER: status, mask, severity, the first error's bit, and the logged header. -/
def aerDword (y : Fn) (f free o : Nat) : Nat :=
  if o = 4 then y.aerStatus.toNat else if o = 8 then y.aerMask.toNat else if o = 0xC then y.aerSeverity.toNat
  else match y.aerLog with
  | none => free
  | some h =>
    if o = 0x18 then natPut free 0 5 h.bit
    else if 0x1C ≤ o ∧ o < 0x2C then (Config.tlpHeader f h.bar h.off ((o - 0x1C) / 4)).toNat else free
/-- VSEC (23 Table 23.11). -/
def vsecDword (s : State) (f o : Nat) : Nat :=
  if o = 4 then 0x01810001 else if o = 8 then 0x584E4C51 else if o = 0xC then fnPort f * 65536 + s.idPart.toNat
  else if o = 0x10 then f else idFwIf.toNat

/-- A dword of an extended capability beyond its first. -/
def extDword (s : State) (f c free o : Nat) : Nat :=
  if c = 0x0B then vsecDword s f o
  else if c = 0x01 then aerDword (s.fnOf f) f free o
  else if c = 0x10 then sriovDword s f free o
  else if c = 0x15 then rebarDword (s.fnOf f).bar2Log2 o
  else if c = 0x24 then rebarDword (s.fnOf (f + 1)).bar2Log2 o
  else free
/-- Bytes of a capability's structure that the model names. -/
def stdLen (c : Nat) : Nat := if c = 0x01 then 8 else if c = 0x10 then 0x28 else 12
def extLen (c : Nat) : Nat := if c = 0x0B then 0x18 else if c = 0x01 then 0x2C else if c = 0x10 then 0x3C else
  if c = 0x15 ∨ c = 0x24 then 12 else 4
/-- The capability of a list whose structure holds offset `off`. -/
def capAtOff (l : List Nat) (place len : Nat → Nat) (off : Nat) : Option Nat :=
  l.find? (fun c => decide (place c ≤ off) && decide (off < place c + len c))

/-- A dword of the configuration header. -/
def headerDword (s : State) (f free off : Nat) : Nat :=
  let y := s.fnOf f
  if off = 0 ∨ off = 0x2C then deviceId s f * 65536 + Config.vendorId % 65536
  else if off = 4 then natPut (natPut free 1 1 (b2n y.mse)) 2 1 (b2n y.bme)
  else if off = 8 then 0x120000 * 256 + free % 256
  else if 0x10 ≤ off ∧ off < 0x28 then (if fnIsPf f then barDword y.bars 0 y.bar2Log2 ((off - 0x10) / 4) else 0)
  else if off = 0x34 then natPut free 0 8 (Config.capAt 0x01)
  else if off = 0x3C then natPut free 8 8 0
  else free

/-- A dword of configuration space. -/
def cfgRead (s : State) (f off : Nat) : Word :=
  let free := (Config.cfgSpace f off).toNat
  let y := s.fnOf f
  BitVec.ofNat 32 (if off < 0x40 then headerDword s f free off
  else if off < 0x100 then
    match capAtOff stdCaps Config.capAt stdLen off with
    | none => free
    | some c =>
      let o := off - Config.capAt c
      if o = 0 then
        (if c = 0x11 then msixFirst y (stdHeader f c)
         else if c = 0x01 then natPut (natPut (stdHeader f c) 25 2 0) 27 5 0 else stdHeader f c)
      else if c = 0x01 then pmDword y free o
      else if c = 0x10 then pcieDword y free o
      else msixDword o
  else match capAtOff (extCaps f) Config.extCapAt extLen off with
    | none => free
    | some c => if off = Config.extCapAt c then extHeader f c else extDword s f c free (off - Config.extCapAt c))

end Sys2Proof.Machine
end

