-- ==== Sys2Proof/Machine/Windows.lean ====
section
/-! DEFINITION. BAR2 and its windows, ORD_FLUSH, configuration requests, staged transfers, and the resets and power
states of functions and ports (chapters 15, 17, 19, 21, 23). -/
namespace Sys2Proof.Machine

/-! ### Staged transfers and the FLUSH read -/

/-- The pseudo-channel of a lease-relative address. -/
def pcOf (s : State) (l a : Nat) : Nat :=
  64 * (s.leaseOf l).spans.getD (a / spanBytes) 0 + (a / 256 ^^^ a / 16384) % 64
/-- The block of group `g` stands at its safe point.  Each controller of an arbitration group starts a frame of 16 slots (10 R258): it
has served none of its frame, or has no request, so that its frames pass empty; in self-refresh it serves nothing (20 R495). -/
def atSafePoint (s : State) (g : Group) : Bool :=
  match g with
  | .hbmArb k => s.power.selfRefresh || (upTo 4).all (fun i =>
      let pc := 4 * k + i
      (s.hbm.slots.get [] pc).isEmpty ||
        !(s.hbm.reqs.any (fun q => !q.isWindow && !q.served && pcOf s q.lease q.addr == pc)))
  | _ => true
/-- The controllers of an arbitration group start a new frame. -/
def newFrames (g : Group) (s : State) : State :=
  match g with
  | .hbmArb k => { s with hbm := { s.hbm with slots := (upTo 4).foldl (fun a i => a.set [] (4 * k + i) []) s.hbm.slots } }
  | _ => s

/-- COMMIT_TRANSFER (00 R15): at the block's safe point the staged group moves to the live copy. -/
def execCommitTransfer (g : Group) (s : State) : Host.Outcome State Fault Refusal :=
  done (if (s.groupOf g).pending && atSafePoint s g then safePoint g (newFrames g s) else s)

/-- The BAR2 writes of a function that are not yet visible. -/
def openWrites (s : State) (f : Nat) : List Nat := (s.host.writes.filter (fun w => w.fn == f)).map WinWrite.id

/-- A read of ORD_FLUSH waits for the writes that the port received before it (15 R377). -/
def flushRead (f : Nat) (ro : Bool) (s : State) : State :=
  if s.barOpen f then s.updFn f (fun y => { y with flushes := y.flushes ++ [(openWrites s f, ro)] })
  else s.emit (.unsupported f)

/-- ORD_FLUSH_READ (15 R377). -/
def execOrdFlushRead (fn : Nat) (ro : Bool) (s : State) : Host.Outcome State Fault Refusal := done (flushRead fn ro s)

/-- The oldest pending read completes with 0 once every write that it covers has taken effect: those to windows have landed, and
those to registers come into force. -/
def flushDone (f : Nat) (s : State) : State :=
  match (s.fnOf f).flushes with
  | [] => s
  | (ids, ro) :: r =>
    if (openWrites s f).any (fun i => ids.contains i) then s
    else ((settleRegs f s).updFn f (fun y => { y with flushes := r })).emit (.completion f (leBytes 0 4) false ro)

/-- FLUSH_COMPLETE (15 R377). -/
def execFlushComplete (fn : Nat) (s : State) : Host.Outcome State Fault Refusal := done (flushDone fn s)

/-! ### BAR2 -/

/-- The window of function `f` that maps BAR2 byte `o`. -/
def windowAt (s : State) (f o : Nat) : Option (Nat × InWin) :=
  (upTo 16).findSome? (fun i =>
    match (s.fnOf f).windows.get none i with
    | some w => if w.barOff ≤ o ∧ o < w.barOff + w.length then some (i, w) else none
    | none => none)

/-- A discarded BAR2 access: recorded, and reported while ORD_WIN_FAULT.valid is 0 (15 R369). -/
def windowFault (f off : Nat) (write : Bool) (s : State) : State :=
  let w := (s.fnOf f).winFault
  if w.valid then s.updFn f (fun y => { y with winFault := { w with count := satInc w.count 255 } })
  else
    (s.updFn f (fun y => { y with winFault := { valid := true, write := write, count := 1, barOff := off } })).eventTo
      { type := 0x02, body := leBytes (off % 2 ^ 40 + b2n write * 2 ^ 62) 8 } f

/-- Group the bytes of a write by window, from BAR2 offset `o`: runs (first offset, window if writable, bytes). -/
def writeRuns (s : State) (f : Nat) : Nat → List (Option Byte) → List (Nat × Option (Nat × InWin) × List (Option Byte))
  | _, [] => []
  | o, b :: r =>
    let w := match windowAt s f o with
      | some (i, x) => if x.writable then some (i, x) else none
      | none => none
    match writeRuns s f (o + 1) r with
    | (o', w', bs) :: t => if w'.map Prod.fst = w.map Prod.fst then (o, w, b :: bs) :: t
                           else (o, w, [b]) :: (o', w', bs) :: t
    | [] => [(o, w, [b])]

/-- A BAR2 write arrives: each run in a writable window is accepted, the rest is discarded (15 R367, R369, R384). -/
def windowWrite (f off : Nat) (data : List (Option Byte)) (ep : Bool) (s : State) : State :=
  if !(s.barOpen f) || decide (2 ^ (s.fnOf f).bar2Log2 < off + data.length) then s.emit (.unsupported f)
  else
    let runs := writeRuns s f off data
    let s1 := runs.foldl (fun s x =>
      match x with
      | (o, some (i, w), bs) =>
        let e : WinWrite := { id := s.host.nextWrite, fn := f, window := i, lease := w.lease,
                              addr := w.hbmOff + (o - w.barOff), barOff := o, data := bs, ep := ep }
        { s with host := { s.host with writes := s.host.writes ++ [e], nextWrite := s.host.nextWrite + 1 } }
      | _ => s) s
    let s2 := if ep then s1.aerError f aerPoisoned 2 off else s1
    match runs.find? (fun x => x.2.1.isNone && x.2.2.any Option.isSome) with
    | some (o, _, _) => windowFault f o true s2
    | none => s2

/-- HOST_WINDOW_WRITE (15 R367). -/
def execHostWindowWrite (fn off : Nat) (data : List (Option Byte)) (ep : Bool) (s : State) :
    Host.Outcome State Fault Refusal := done (windowWrite fn off data ep s)

/-- The runs of enabled bytes of a write from address `a` on. -/
def enabledRuns : Nat → List (Option Byte) → List (Nat × List Byte)
  | _, [] => []
  | a, none :: r => enabledRuns (a + 1) r
  | a, some b :: r =>
    match enabledRuns (a + 1) r with
    | (o, bs) :: t => if o = a + 1 then (a, b :: bs) :: t else (a, [b]) :: (o, bs) :: t
    | [] => [(a, [b])]

/-- Write the enabled bytes of a window write to lease HBM; with EP every unit touched is marked (15 R384). -/
def landBytes (l a : Nat) (data : List (Option Byte)) (ep : Bool) (s : State) : State :=
  let runs := enabledRuns a data
  let s1 := runs.foldl (fun s x => s.hbmWrite l x.1 x.2) s
  if ep then runs.foldl (fun s x => s.hbmMark l x.1 x.2.length true) s1 else s1

/-- An earlier write of the same function to bytes of this one is still on its way: the later one lands after it (15 R367). -/
def behindOwn (s : State) (w : WinWrite) : Bool :=
  (s.host.writes.takeWhile (fun x => x.id != w.id)).any (fun x =>
    x.fn == w.fn && x.lease == w.lease && !x.lost && decide (x.addr < w.addr + w.data.length) &&
      decide (w.addr < x.addr + x.data.length))

/-- An accepted write becomes visible, after earlier ones of its function to the same bytes, and is counted by its window's landing
counter; bytes whose HBM was released are discarded as accesses without a window (15 R371, R558). -/
def landWrite (id : Nat) (s : State) : State :=
  match s.host.writes.find? (fun w => w.id == id) with
  | none => s
  | some w =>
    if !w.lost && behindOwn s w then s else
    let ws := s.host.writes.filter (fun x => x.id != id)
    let s1 := { s with host := { s.host with writes := ws } }
    if w.lost then windowFault w.fn w.barOff true s1
    else
      let n := (w.data.filter Option.isSome).length
      (landBytes w.lease w.addr w.data w.ep s1).updFn w.fn (fun y =>
        { y with windows := y.windows.upd none w.window (fun v =>
            v.map (fun x => { x with landing := x.landing + BitVec.ofNat 64 n })) })

/-- WINDOW_WRITE_LANDS (15 R371). -/
def execWindowWriteLands (id : Nat) (s : State) : Host.Outcome State Fault Refusal := done (landWrite id s)

/-- The state as the function's own reads see it: its accepted writes in place (15 R367). -/
def withOwnWrites (f : Nat) (s : State) : State :=
  (s.host.writes.filter (fun w => w.fn == f && !w.lost)).foldl (fun s w => landBytes w.lease w.addr w.data w.ep s) s

/-- The pieces of a range that lie within naturally aligned 64-byte units of HBM: (offset, length). `n` bounds them. -/
def unitPieces (o len : Nat) : Nat → List (Nat × Nat)
  | 0 => []
  | n + 1 => if len = 0 then [] else
      let k := min len (64 - o % 64)
      (o, k) :: unitPieces (o + k) (len - k) n

/-- What BAR2 bytes [o, o + k) of one unit read as: data and poison; unmapped bytes are zeros. -/
def windowPiece (s v : State) (f o k : Nat) : List Byte × Bool :=
  match windowAt s f o with
  | some (_, w) => (v.hbmRead w.lease (w.hbmOff + (o - w.barOff)) k, v.hbmPoisoned w.lease (w.hbmOff + (o - w.barOff)))
  | none => (List.replicate k 0, false)

/-- The bytes of a completion for the bytes from offset `o` on that a read enables. -/
def enabledBytes (f : Nat) : Nat → List Byte → List Bool → List Byte
  | o, b :: bs, e :: es => (if e then b else Config.idleLane f o) :: enabledBytes f (o + 1) bs es
  | _, bs, _ => bs

/-- A BAR2 read of the bytes that `en` enables: each unit as it stands at one instant, poisoned units with EP (15 R367, 07 R184);
unmapped bytes are zeros and a fault is recorded (15 R369).  A read that enables no byte completes as any other (15 R366).  Byte
`at_` lies in the unit where the read finds `fd`. -/
def windowRead (f off : Nat) (en : List Bool) (ro : Bool) (at_ : Nat) (fd : Finding) (s : State) : State :=
  let len := en.length
  if !(s.barOpen f) || decide (2 ^ (s.fnOf f).bar2Log2 < off + len) then s.emit (.unsupported f)
  else
    let s0 := match windowAt s f (off + at_) with
      | some (_, w) => hbmFinding w.lease (w.hbmOff + (off + at_ - w.barOff)) 4 0 fd s
      | none => s
    let v := withOwnWrites f s0
    let ps := unitPieces off len (len / 64 + 2)
    let s1 := ps.foldl (fun t p =>
      let x := windowPiece s0 v f p.1 p.2
      t.emit (.completion f (enabledBytes f p.1 x.1 (en.drop (p.1 - off))) x.2 ro)) s0
    match ps.find? (fun p => (windowAt s0 f p.1).isNone) with
    | some p => windowFault f p.1 false s1
    | none => s1

/-- HOST_WINDOW_READ (15 R366, R367). -/
def execHostWindowRead (fn off : Nat) (en : List Bool) (ro : Bool) (at_ : Nat) (f : Finding) (s : State) :
    Host.Outcome State Fault Refusal := done (windowRead fn off en ro at_ f s)

/-! ### Configuration requests (21 R504, 23 R553 to R555) -/

/-- The effect of a configuration request on a function that is ready. -/
def cfgAct (f : Nat) (op : ConfigOp) (s : State) : State :=
  match op with
  | .read off => s.emit (.cfgData f (cfgRead s f off))
  | .setMse b => s.updFn f (fun y => { y with mse := b })
  | .setBme => (s.updFn f (fun y => { y with bme := true })).drainHeld f 64
  | .setEro b => s.updFn f (fun y => { y with ero := b })
  | .setMsixEnable b => s.updFn f (fun y => { y with msixEnable := b })
  | .setMsixFunctionMask b =>
    let s1 := s.updFn f (fun y => { y with msixFMask := b })
    if b then s1
    else (upTo 16).foldl (fun s v => if (s.fnOf f).msixMask.getLsbD v then s else unmaskVector f v s) s1
  | .maskVector v => s.updFn f (fun y => { y with msixMask := y.msixMask ||| (1#16 <<< v) })
  | .setD0 => (s.updFn f (fun y => { y with d3hot := false })).drainHeld f 64
  | .setMps k => if k ≤ 2 then s.updFn f (fun y => { y with mps := k }) else s
  | .setMrrs k => if k ≤ 5 then s.updFn f (fun y => { y with mrrs := k }) else s
  | .enableVfs n =>
    if fnIsPf f && decide (n ≤ 256) && s.boot.state != 6 then
      s.setPort (fnPort f) { s.portOf (fnPort f) with numVfs := n, vfEnable := true }
    else s
  | .setBar i v => s.updFn f (fun y => { y with bars := y.bars.set 0 i v })
  | .setAerMask v => s.updFn f (fun y => { y with aerMask := v })
  | .setAerSeverity v => s.updFn f (fun y => { y with aerSeverity := v })
  | .clearAer v => s.updFn f (fun y => { y with aerStatus := y.aerStatus &&& ~~~ v })
  | .atomicOp => s.emit (.unsupported f)

/-- A configuration request: nothing while the link is down, RRS while the function is not ready (21 R504). -/
def cfgRequest (f : Nat) (op : ConfigOp) (s : State) : State :=
  if !(s.portOf (fnPort f)).linkUp then s
  else if !(s.fnEnabled f) then s.emit (.unsupported f)
  else if !(s.fnOf f).ready then s.emit (.retryStatus f)
  else cfgAct f op s

/-- CONFIG_REQUEST (21 R504). -/
def execConfigRequest (fn : Nat) (op : ConfigOp) (s : State) : Host.Outcome State Fault Refusal :=
  done (cfgRequest fn op s)

/-- BAR2_RESIZE (15 R370): while Memory Space Enable is 0; windows stay mapped. -/
def execBar2Resize (fn sizeLog2 : Nat) (s : State) : Host.Outcome State Fault Refusal :=
  done (if (s.fnOf fn).ready && !(s.fnOf fn).mse && decide (26 ≤ sizeLog2) && decide (sizeLog2 ≤ 38) then
    s.updFn fn (fun y => { y with bar2Log2 := sizeLog2 }) else s)

/-- BUS_MASTER_ENABLE_CLEAR (15 R375). -/
def execBusMasterEnableClear (fn : Nat) (s : State) : Host.Outcome State Fault Refusal :=
  done (if (s.fnOf fn).ready then s.updFn fn (fun y => { y with bme := false }) else s)

/-- D3HOT_ENTRY (15 R375, 21 R514: the function keeps its state). -/
def execD3hotEntry (fn : Nat) (s : State) : Host.Outcome State Fault Refusal :=
  done (if (s.fnOf fn).ready then s.updFn fn (fun y => { y with d3hot := true }) else s)

/-! ### Resets of functions and ports (16 R387, 17 R413, R414, 21 Table 21.6) -/

/-- The steward lock is abandoned when its holder is reset, and every PF is told (17 R413, 09 R229). -/
def abandonStewardLock (s : State) : State :=
  let s1 := { s with host := { s.host with steward := 0xFFFF, lockGen := s.host.lockGen + 1, lockAband := true } }
  s1.event { type := 0x08, body := leBytes 2 1 ++ leBytes 0 1 ++ leBytes (s.host.lockGen + 1).toNat 1 }
    ((upTo s.nPorts).map (fun n => 257 * n)) false

/-- The commands of function `f` in flight run on with their replies discarded.  Each is known from then on by a number that no
message of the function will have, counted down from 2^32 - 1 by those discarded so far (16 R387; DESIGN CHOICE, log 153). -/
def ghostFlights (f : Nat) : Nat → List Flight → List Flight
  | _, [] => []
  | n, x :: r =>
    if x.fn = f ∧ x.discard = false then
      { x with discard := true, msg := { x.msg with seq := BitVec.ofNat 32 (2 ^ 32 - 1 - n) } } :: ghostFlights f (n + 1) r
    else x :: ghostFlights f n r

/-- A function is reset: mailbox, rings, windows, doorbells and configuration space return to reset; commands taken run on
with their replies discarded; its leases drain (16 R387, 15 R373, 17 R414). -/
def resetFn (s : State) (f : Nat) : State :=
  let owned := s.openOf f
  let ws := s.host.writes.map (fun w => if w.fn = f then { w with window := 16 } else w)
  let h := { s.host with flights := ghostFlights f s.host.ghosts s.host.flights, writes := ws,
                         ghosts := s.host.ghosts + (s.host.flights.filter (fun x => x.fn == f && !x.discard)).length }
  let s1 := ({ s with host := h }).setFn f {}
  let s2 := { s1 with sec := { s1.sec with challenge := none } }
  let s3 := if s2.isSteward f then abandonStewardLock s2 else s2
  owned.foldl startDraining s3

/-- Clearing VF Enable resets every VF of the PF (17 R414). -/
def clearVfs (s : State) (port : Nat) : State :=
  let vfs := (s.portFns port).filter (fun f => !(fnIsPf f))
  let owners := dedup ((s.openIds.map (fun l => (s.leaseOf l).owner)).filter
    (fun f => fnPort f == port && !(fnIsPf f)))
  let s1 := (dedup (vfs ++ owners)).foldl resetFn s
  s1.setPort port { s1.portOf port with vfEnable := false, numVfs := 0 }

/-- VF_ENABLE_CLEAR (17 R414). -/
def execVfEnableClear (port : Nat) (s : State) : Host.Outcome State Fault Refusal :=
  done (if (s.fnOf (257 * port)).ready then clearVfs s port else s)

/-- FUNCTION_LEVEL_RESET (17 R414): a PF's clears VF Enable as well. -/
def execFunctionLevelReset (fn : Nat) (s : State) : Host.Outcome State Fault Refusal :=
  done (if fnIsPf fn then resetFn (clearVfs s (fnPort fn)) fn else resetFn s fn)

/-- A port reset: every function of the port is reset and its link goes down; session and stream keys are lost. -/
def resetPort (s : State) (port : Nat) : State :=
  let s1 := resetFn (clearVfs s port) (257 * port)
  s1.setPort port { s1.portOf port with linkUp := false, ide := [], spdm := .start }

/-- HOT_RESET (17 R414). -/
def execHotReset (port : Nat) (s : State) : Host.Outcome State Fault Refusal := done (resetPort s port)

/-- LINK_DOWN (17 R414). -/
def execLinkDown (port : Nat) (s : State) : Host.Outcome State Fault Refusal := done (resetPort s port)

/-- A released port with PERST# high trains (21 R503, 22 R536). -/
def mayTrain (s : State) (port : Nat) : Bool :=
  decide (port < s.nPorts) && s.usable (20 + port) && (s.portOf port).released && (s.portOf port).perstHigh &&
    !(s.portOf port).d3cold

/-- LINK_UP (21 R503). -/
def execLinkUp (port : Nat) (s : State) : Host.Outcome State Fault Refusal :=
  done (if mayTrain s port then s.setPort port { s.portOf port with linkUp := true } else s)

/-- PERST_ASSERT (22 R536). -/
def execPerstAssert (port : Nat) (s : State) : Host.Outcome State Fault Refusal :=
  let s1 := resetPort s port
  done (s1.setPort port { s1.portOf port with perstHigh := false })

/-- PERST_DEASSERT (21 R503). -/
def execPerstDeassert (port : Nat) (s : State) : Host.Outcome State Fault Refusal :=
  done (s.setPort port { s.portOf port with perstHigh := true, d3cold := false })

/-- D3COLD_ENTRY (21 R514): as PERST# asserted on the port. -/
def execD3coldEntry (port : Nat) (s : State) : Host.Outcome State Fault Refusal :=
  let s1 := resetPort s port
  done (s1.setPort port { s1.portOf port with d3cold := true })

/-- FUNCTION_READY (21 R504): from step 12 on, with the link up. -/
def execFunctionReady (fn : Nat) (s : State) : Host.Outcome State Fault Refusal :=
  done (if (s.portOf (fnPort fn)).linkUp && s.fnEnabled fn && s.boot.step == 12 then
    s.updFn fn (fun y => { y with ready := true }) else s)

end Sys2Proof.Machine
end

