-- ==== Sys2Proof/Machine/Power.lean ====
section
/-! DEFINITION. Temper's loops, telemetry and Quench (chapter 20). -/
namespace Sys2Proof.Machine

/-! ### The decision tick (20 R481 to R485) -/

/-- Fields of a TMP_FREQ value, in 25 MHz units. -/
def fclkCap (g : DWord) : Nat := natBits g.toNat 0 8
def fclkFloor (g : DWord) : Nat := natBits g.toNat 8 8
def tclkCap (g : DWord) : Nat := natBits g.toNat 16 8
/-- The floor in force: the cap, when the floor lies above it (20 R483). -/
def floorOf (g : DWord) : Nat := min (fclkFloor g) (fclkCap g)
/-- SCLK ticks of the minimum dwell, 50 µs (20 R484). -/
def dwellTicks : Nat := 1250

/-- The protection limits that act on a die at a tick: cause code, FCLK bound, TCLK bound (20 Table 20.3).  A bound is the
present target lowered by the cause's step, no lower than the lowest rate. -/
def limitsOf (c : DieClk) (x : DieSense) (lowFlow : Bool) : List (Nat × Nat × Nat) :=
  (if c.droopOwed then [(1, max 32 (c.fTarget - 2), c.tTarget)] else []) ++
  (if x.overCurrent then [(2, max 32 (c.fTarget - 4), c.tTarget)] else []) ++
  (if 1600 ≤ x.tj ∨ 1520 ≤ x.hbmTemp then [(3, max 32 (c.fTarget - 4), max 16 (c.tTarget - 4))] else []) ++
  (if 0 < x.powerSteps then [(4, max 32 (c.fTarget - x.powerSteps), max 16 (c.tTarget - x.powerSteps))] else []) ++
  (if lowFlow then [(5, 32, 16)] else [])

/-- The least of some bounds. -/
def leastOf (l : List Nat) (d : Nat) : Nat := l.foldl min d

/-- The next FCLK target (20 R482): cap and protection at once; with no limit acting, a rise waits for the dwell, and goes
to the floor first when the target lies below it. -/
def nextF (now : Nat) (c : DieClk) (x : DieSense) (lim : List (Nat × Nat × Nat)) : Nat :=
  let cap := fclkCap c.freq.live
  let fl := floorOf c.freq.live
  if !lim.isEmpty then leastOf (lim.map (fun l => l.2.1)) (min cap c.fTarget)
  else
    let want := if c.fTarget < fl then fl else max fl (min cap x.budgetF)
    if want ≤ c.fTarget then want
    else if dwellTicks ≤ now - c.fChanged then want else min cap c.fTarget

/-- The next TCLK target. -/
def nextT (now : Nat) (c : DieClk) (x : DieSense) (lim : List (Nat × Nat × Nat)) : Nat :=
  let cap := tclkCap c.freq.live
  if !lim.isEmpty then leastOf (lim.map (fun l => l.2.2)) (min cap c.tTarget)
  else
    let want := min cap x.budgetT
    if want ≤ c.tTarget then want
    else if dwellTicks ≤ now - c.tChanged then want else min cap c.tTarget

/-- The cause whose bound is the lowest, the first of equals (20 R485: the one that took the target below the floor). -/
def lowestCause (lim : List (Nat × Nat × Nat)) : Nat :=
  match lim with
  | [] => 0
  | (c, f, _) :: r => (r.foldl (fun a l => if l.2.1 < a.2 then (l.1, l.2.1) else a) (c, f)).1

/-- A POLICY_OVERRIDE record (20 R485). -/
def overrideEvent (d : Nat) (c : DieClk) (ticks : Nat) (last : Bool) (s : State) : State :=
  let body := leBytes d 4 ++ leBytes c.epCause 4 ++ leBytes (25 * floorOf c.freq.live) 4 ++
    leBytes (25 * c.epLow) 4 ++ leBytes ticks 8 ++ leBytes (b2n last) 4
  s.eventStewardLog { type := 0x0B, body := body }

/-- The override episode of a die after a decision (20 R485): its begin, its lowest target, the decision at which the
target was back at the floor, and its end 50 µs after that. -/
def episodeStep (now : Nat) (c : DieClk) (lim : List (Nat × Nat × Nat)) : DieClk :=
  let below := decide (c.fTarget < floorOf c.freq.live)
  if c.episode then
    let c1 := { c with epLow := min c.epLow c.fTarget,
                       epBack := if below then none else some (c.epBack.getD now) }
    match c1.epBack with
    | some b => if dwellTicks ≤ now - b then { c1 with episode := false } else c1
    | none => c1
  else if below && !lim.isEmpty then
    { c with episode := true, epStart := now, epCause := lowestCause lim, epLow := c.fTarget, epBack := none, epSecs := 0 }
  else c

/-- Causes, cap and duty bits of TEL_LIMIT (20 Table 20.7). -/
def limitBits (c : DieClk) (x : DieSense) (lim : List (Nat × Nat × Nat)) (duty : Bool) : BitVec 8 :=
  BitVec.ofNat 8 ((lim.map (fun l => 2 ^ (l.1 - 1))).foldl (· + ·) 0 +
    b2n (lim.isEmpty && c.fTarget == fclkCap c.freq.live && decide (fclkCap c.freq.live ≤ x.budgetF)) * 64 + b2n duty * 128)

/-- A region of the die runs below duty 16. -/
def dieDuty (s : State) (d : Nat) : Bool := (upTo 16).any (fun i => (s.regionOf (16 * d + i)).duty != 16)

/-- TMP_POWER.forbid_lend in force (20 Table 20.4). -/
def lendForbidden (s : State) : Bool := natBit s.power.power.live.toNat 16
/-- The die's pool may raise its FCLK target (20 R491): some region's credit is lent, and where lending between leases is forbidden
every region of the die that a lease holds and that does not report idle is of the lending lease ("active": DEDUCED, log 156). -/
def poolOnF (s : State) (d : Nat) : Bool :=
  let rs := (upTo 16).map (16 * d + ·)
  rs.any (fun r => (s.regionOf r).lent && (!(lendForbidden s) || rs.all (fun k =>
    (s.regionOf k).resident.isNone || (s.regionOf k).idle || (s.regionOf k).resident == (s.regionOf r).resident)))
/-- A die's inputs with what its pool adds to the FCLK budget. -/
def withPool (s : State) (d : Nat) (x : DieSense) : DieSense :=
  if poolOnF s d then { x with budgetF := max x.budgetF x.poolF } else x

/-- One die's decision (20 R482): its commit completes, its targets are set, and its override episode goes on. -/
def decideDie (s : State) (d : Nat) (x : DieSense) : State :=
  let s1 := safePoint (.freq d) s
  let c0 := s1.clkOf d
  let c := { c0 with floorClamped := decide (fclkCap c0.freq.live < fclkFloor c0.freq.live) }
  if c.stopped then s1.setClk d c
  else
    let lim := limitsOf c x s1.power.lowFlow
    let f := nextF s1.sclk c x lim
    let t := nextT s1.sclk c x lim
    let c1 := { c with fTarget := f, tTarget := t, droopOwed := false,
                       fChanged := if f = c.fTarget then c.fChanged else s1.sclk,
                       tChanged := if t = c.tTarget then c.tChanged else s1.sclk }
    let c2 := episodeStep s1.sclk c1 lim
    let secs := (s1.sclk - c2.epStart) / 25000000
    let c3 := { c2 with ovrWm := sampleWm c2.ovrWm c2.episode, limit := limitBits c2 x lim (dieDuty s1 d),
                        epSecs := if c2.episode then secs else c2.epSecs }
    let s2 := s1.setClk d c3
    if c1.episode && !c2.episode then overrideEvent d c2 (c2.epBack.getD c2.epStart - c2.epStart) true s2
    else if c2.episode && decide (c2.epSecs < secs) then overrideEvent d c2 (s1.sclk - c2.epStart) false s2
    else s2

/-! ### Quench (20 R494 to R497) -/

/-- Codes for which the device drives QUENCH# (20 R496). -/
def drivesPin (code : Nat) : Bool := decide (1 ≤ code) && decide (code ≤ 4)
/-- A trigger for which QUENCH# is driven persists (21 R502). -/
def ownTrigger (s : State) : Bool := s.power.triggers.toNat % 16 != 0

/-- Stop every FCLK and TCLK. -/
def stopClocks (s : State) : State :=
  (upTo s.nDies).foldl (fun s d => s.setClk d { s.clkOf d with stopped := true, fclk := 0, tclk := 0 }) s

/-- Restart the clocks of the usable dies at their lowest rates, FCLK at its floor when that is higher (20 R497). -/
def startClocks (s : State) : State :=
  (upTo s.nDies).foldl (fun s d =>
    if s.dieUsable d then
      let c := s.clkOf d
      let f := max 32 (floorOf c.freq.live)
      let t := if s.hasEngines then 16 else 0
      s.setClk d { c with stopped := false, fclk := f, fTarget := f, tclk := t, tTarget := t,
                          fChanged := s.sclk, tChanged := s.sclk }
    else s) s

/-- End every section and program with QUENCHED, and put every region into IDLE (20 R495). -/
def quenchSections (s : State) : State :=
  let s1 := (s.secs.filter (fun e => e.2.phase == .running || e.2.phase == .ending)).foldl
    (fun s e => endSection s e.1 (endStatus s e.2 .quenched)) s
  let s2 := s1.bound.foldl (fun s e =>
    settleProg (stopProg s e.1 (e.2.runs + 1) e.2.lastIssued .quenched) e.1) s1
  let s3 := s2.secs.foldl (fun s e => cancelSection s e.1) s2
  (upTo s3.nRegions).foldl (fun s r =>
    s.updRegion r (fun x => { x with st := .idle, idlePending := false, failPending := false })) s3

/-- Enter Quench (20 R495, R496). -/
def enterQuench (code : Nat) (s : State) : State :=
  let s1 := stopClocks (quenchSections s)
  { s1 with boot := { s1.boot with state := 5 }, mod := { s1.mod with quenchDrive := drivesPin code },
            power := { s1.power with active := true, cause := code, selfRefresh := true } }

/-- Main power goes during start-up or in STANDBY: the sequence stops and waits (21 R502). -/
def abortStartup (s : State) : State :=
  let ports := s.host.ports.mapVals {} (fun _ p => { p with released := false, linkUp := false })
  let s1 := stopClocks s
  { s1 with boot := { s1.boot with state := 1, step := 4, restart5 := true, clearSince := none },
            mod := { s1.mod with mainOn := false, mainGood := false },
            host := { s1.host with ports := ports } }

/-- Is the device past step 12, so that a trigger enters Quench? -/
def pastStep12 (s : State) : Bool := s.boot.step == 12 && (s.boot.state == 3 || s.boot.state == 4 || s.boot.state == 6)

/-- A trigger appears (20 R494): its bit is set where it persists; past step 12 the device enters Quench, in Quench the
cause stands, and in start-up main power is removed (21 R502). -/
def raiseTrigger (code : Nat) (s : State) : State :=
  let s1 := if code = 6 then s else
    { s with power := { s.power with triggers := s.power.triggers ||| (1#6 <<< (code - 1)) } }
  if s.boot.state = 5 then s1
  else if pastStep12 s then enterQuench code s1
  else if code = 6 then s1
  else
    let s2 := if s.boot.state = 2 then abortStartup s1 else s1
    { s2 with boot := { s2.boot with clearSince := none },
              mod := { s2.mod with quenchDrive := s2.mod.quenchDrive || (s2.boot.state == 1 && ownTrigger s2) } }

/-- A persisting trigger clears (20 Table 20.5).  Outside Quench QUENCH# is released once no own trigger persists, and the
10 s of 21 R502 begin once none persists at all. -/
def clearTrigger (code : Nat) (s : State) : State :=
  if !(s.power.triggers.getLsbD (code - 1)) then s else
  let s1 := { s with power := { s.power with triggers := s.power.triggers &&& ~~~ (1#6 <<< (code - 1)) } }
  if s.boot.state = 5 then s1
  else { s1 with boot := { s1.boot with clearSince := if s1.power.triggers = 0 then some s1.sclk else none },
                 mod := { s1.mod with quenchDrive := s1.mod.quenchDrive && ownTrigger s1 } }

/-- QUENCH_TRIGGER (20 R494). -/
def execQuenchTrigger (code : Nat) (s : State) : Host.Outcome State Fault Refusal :=
  done (if 1 ≤ code ∧ code ≤ 5 then raiseTrigger code s else s)

/-- QUENCH_TRIGGER_CLEAR (20 R494). -/
def execQuenchTriggerClear (code : Nat) (s : State) : Host.Outcome State Fault Refusal :=
  done (if 1 ≤ code ∧ code ≤ 5 then clearTrigger code s else s)

/-- Leave Quench on QUENCH_EXIT (20 R497); under the recovery firmware DEV_STATE reads RECOVERY (21 R510). -/
def leaveQuench (s : State) : State :=
  let s1 := startClocks { s with power := { s.power with active := false, selfRefresh := false },
                                 mod := { s.mod with quenchDrive := false } }
  { s1 with boot := { s1.boot with state := if s1.boot.recovery then 6 else s1.readyState } }

/-- The hottest junction sensor of the dies calls for, or ends, the thermal trigger (20 Table 20.5). -/
def thermalTrigger (sn : Sensors) (s : State) : State :=
  if sn.dies.any (fun x => decide (1760 ≤ x.tj)) then raiseTrigger 1 s
  else if sn.dies.all (fun x => decide (x.tj < 1600)) then clearTrigger 1 s
  else s

/-- TEMPER_DECISION_TICK (20 R482): the safe point of TMP_POWER (R487), then each die in order. -/
def execTemperDecisionTick (sn : Sensors) (s : State) : Host.Outcome State Fault Refusal :=
  let s1 := safePoint .power s
  let s2 := (sn.dies.zipIdx).foldl (fun s x => if x.2 < s.nDies then decideDie s x.2 (withPool s x.2 x.1) else s) s1
  done (if sn.dies.isEmpty then s2 else thermalTrigger sn s2)

/-- One 25 MHz step toward a target. -/
def slewOne (cur target : Nat) : Nat := if cur < target then cur + 1 else if target < cur then cur - 1 else cur

/-- CLOCK_SLEW_STEP (20 R480). -/
def execClockSlewStep (die : Nat) (tclk : Bool) (s : State) : Host.Outcome State Fault Refusal :=
  let c := s.clkOf die
  done (if c.stopped then s
    else if tclk then s.setClk die { c with tclk := slewOne c.tclk c.tTarget }
    else s.setClk die { c with fclk := slewOne c.fclk c.fTarget })

/-- DROOP (20 Table 20.3, cause 1): cycles are stretched until the voltage recovers. -/
def execDroop (die : Nat) (s : State) : Host.Outcome State Fault Refusal :=
  done (if (s.clkOf die).stopped then s else s.setClk die { s.clkOf die with droop := true })

/-- DROOP_RECOVERY (20 Table 20.3, cause 1): stretching stops, and 50 MHz come off at the next tick. -/
def execDroopRecovery (die : Nat) (s : State) : Host.Outcome State Fault Refusal :=
  done (if (s.clkOf die).droop then s.setClk die { s.clkOf die with droop := false, droopOwed := true } else s)

/-- Bits of the regions that report idle. -/
def idleBits (s : State) : DWord :=
  (upTo s.nRegions).foldl (fun a r => if (s.regionOf r).idle then a ||| (1#64 <<< r) else a) 0

/-- TEL_CLOCK of a die (20 Table 20.7). -/
def telClockOf (c : DieClk) : Word := BitVec.ofNat 32 (c.tclk % 256 * 65536 + c.fTarget % 256 * 256 + c.fclk % 256)

/-- TELEMETRY_UPDATE (20 R499). -/
def execTelemetryUpdate (sn : Telemetry) (s : State) : Host.Outcome State Fault Refusal :=
  let s1 := (upTo s.nDies).foldl (fun s d =>
    let c := s.clkOf d
    let t := sn.temp.getD d 0
    s.setClk d { c with telClock := telClockOf c, telLimit := c.limit.zeroExtend 32, temp := t,
                        power := sn.diePower.getD d 0, thermWm := sampleWm c.thermWm (decide (1600 ≤ t)) }) s
  let ht := (upTo s.nStacks).foldl (fun a k => a.set 0 k (sn.hbmTemp.getD k 0)) s1.power.hbmTemp
  let pw := { s1.power with hbmTemp := ht, modulePower := sn.modulePower, energy := BitVec.ofNat 64 sn.energy,
                            regionIdle := idleBits s1 }
  done { s1 with power := pw }

end Sys2Proof.Machine
end

