-- ==== Sys2Proof/Machine/Ras.lean ====
section
/-! DEFINITION. Scrubbing, self-check, tile tests and steering, the durable store and the patina log (chapter 18), and
units that cease to be usable (chapter 03). -/
namespace Sys2Proof.Machine

/-! ### Units and tiles -/

/-- A fitted unit ceases to be usable: its bit clears, ID_CAP_GEN rises and every open lease and the steward are told
(03 R61, 18 Table 18.7).  The record names the unit by CAP_USABLE alone; its unit field (bytes 21:20) keeps the value of no
unit, since an engine has several endpoint addresses (08 Table 8.1): DESIGN CHOICE, log 147. -/
def outOfService (bit : Nat) (s : State) : State :=
  if s.usable bit then
    let dv := { s.dev with dead := s.dev.dead ||| (1#32 <<< bit), capGen := s.dev.capGen + 1 }
    let s1 := { s with dev := dv }
    (s1.eventAllOpen { type := 0x18, body := leBytes s1.capUsable.toNat 4 ++ leBytes dv.capGen.toNat 4 }).refreshReady
  else s

/-- The leases granted any of some regions. -/
def grantedTo (s : State) (rs : List Nat) : List Nat :=
  s.leaseIds.filter (fun l => rs.any (fun r => (s.leaseOf l).regions.getLsbD r))

/-- The four regions of a column group of a die, bands 0 to 3. -/
def groupRegions (d x : Nat) : List Nat := (upTo 4).map (fun b => 16 * d + 4 * b + x / 9)

/-- A TILE_FAILED record to every lease granted an affected region, the steward and the log (18 Table 18.7). -/
def tileFailedEvent (t kind col test : Nat) (rs : List Nat) (s : State) : State :=
  let fns := (grantedTo s rs).flatMap (fun l => s.leaseFn l)
  s.event { type := 0x17, unit := epOf t, body := leBytes kind 1 ++ leBytes col 1 ++ leBytes test 1 }
    (fns ++ s.stewardFn) true

/-- Staged ingots placed on a column steered since carry REMAPPED, and so does a section that has not started, whose regions
are drained and loaded anew (02 R45). -/
def markSteered (rs : List Nat) (s : State) : State :=
  let ls := s.own.leases.mapVals {} (fun _ l =>
    { l with slots := l.slots.mapVals none (fun _ x => x.map (fun y => { y with steered := dedup (y.steered ++ rs) })) })
  let qs := s.seq.sections.mapVals none (fun _ x => x.map (fun y =>
    if (y.phase = .queued ∨ y.phase = .ahead ∨ y.phase = .prologue) ∧ (y.placed.map Prod.snd).any rs.contains = true then
      { y with remapped := true } else y))
  { s with own := { s.own with leases := ls }, seq := { s.seq with sections := qs } }

/-- A tile fails (18 R439, R440, 03 R75, R76): a compute tile's column is steered to the spare when that is unused; any
other failed tile is marked absent at its logical coordinates.  `test` is 0 at start-up, 1 at run time. -/
def tileFailed (t test : Nat) (s : State) : State :=
  let d := tileDie t
  let x := tileX t
  let m := s.dev.dies.get {} d
  if s.absent t then s
  else if isMemCol x || m.steered.isSome then
    let m1 := { m with failed := satInc m.failed 255, epoch := m.epoch + 1 }
    let dv := { s.dev with dies := s.dev.dies.set {} d m1, absent := s.dev.absent.set false t true,
                           capGen := s.dev.capGen + 1 }
    tileFailedEvent t 1 0xFF test [tileRegion t] { s with dev := dv }
  else
    let rs := groupRegions d x
    let m1 := { m with steered := some x, failed := satInc m.failed 255, epoch := m.epoch + 1,
                       pendingSteer := if test = 1 then some x else none }
    let dv := { s.dev with dies := s.dev.dies.set {} d m1, capGen := s.dev.capGen + 1 }
    let s1 := markSteered rs { s with dev := dv }
    let s2 := if test = 1 then rs.foldl (fun s r => s.updRegion r (fun y => { y with steering := true })) s1 else s1
    tileFailedEvent t 0 x test rs s2

/-- RUNTIME_SELF_TEST (18 R437): a region vacant for 100 ms, at most once in 24 h; it then holds zeros.  Where it is the router of
the failed tile that fails, the die goes out of service (08 R196). -/
def execRuntimeSelfTest (region : Nat) (failed : Option Nat) (router : Bool) (s : State) : Host.Outcome State Fault Refusal :=
  let x := s.regionOf region
  let due := match x.testedAt with
    | none => true
    | some t => decide (2160000000000 ≤ s.sclk - t)
  done (if x.resident.isNone && due && decide (2500000 ≤ s.sclk - x.vacantAt) && s.regionFree region then
    let s1 := (zeroiseRegion s region).updRegion region
      (fun y => { y with testedAt := some s.sclk, vacantAt := x.vacantAt })
    match failed with
    | some t =>
      if tileRegion t = region then
        if router then outOfService (tileDie t) (tileFailed t 1 s1) else tileFailed t 1 s1
      else s1
    | none => s1
  else s)

/-- SPARE_CALIBRATION (18 Table 18.4 steps 3 to 5): once no section runs on the four regions, prologues there begin anew and
run-aheads are cancelled; each resident lease's state is saved, the
spare is mapped in with fresh frames, and the state is restored; the reservation ends.  The save finds `f` at byte `at_` of the tiles. -/
def execSpareCalibration (die at_ : Nat) (f : Finding) (s : State) : Host.Outcome State Fault Refusal :=
  let m := s.dev.dies.get {} die
  done (match m.pendingSteer with
  | none => s
  | some x =>
    let rs := groupRegions die x
    if rs.all (fun r => (s.regionUsers r).all (fun e => e.2.phase != .running && e.2.phase != .ending) &&
        (s.regionOf r).emulation.isNone) && !s.quenched then
      let s0 := (rs.flatMap (fun r => s.regionUsers r)).foldl (fun s e => rewindSection s e.1) s
      let s1 := rs.foldl (fun s r =>
        match (s.regionOf r).resident with
        | some l => saveRegion (saveFinding r at_ f s) l r
        | none => s) s0
      let s2 := s1.frameErase ((upTo 32).map (fun y => tileNo die x y))
      let s3 := rs.foldl (fun s r =>
        (match (s.regionOf r).resident with
         | some l => restoreRegion s l r
         | none => s).updRegion r (fun y => { y with steering := false, st := .idle })) s2
      { s3 with dev := { s3.dev with dies := s3.dev.dies.set {} die { m with pendingSteer := none } } }
    else s)

/-! ### Scrubbing (18 R425 to R431, R438) -/

/-- The address of frame `f` of tile `t` (11 R261, Table 11.2). -/
def frameAddress (t f : Nat) : Nat :=
  tileDie t * 2 ^ 30 + tileX t * 2 ^ 24 + tileY t / 8 * 2 ^ 22 +
    ((if isMemCol (tileX t) then 16 else 72) * (tileY t % 8) + f) * 2 ^ 12

/-- Where a line of the SRAM or HBM domain lies, as a record names it: lease or 0xFFFF, unit, address (18 Table 18.6).  Lines of
a die's SRAM domain are those of its tiles, then of its Tungsten quarters; lines of HBM are counted in units of each lease. -/
def lineWhere (s : State) (die dom line : Nat) : Nat × Nat × Nat :=
  if dom = 0 then
    if line < 1152 * 2 ^ 15 then
      let t := die * 1152 + line / 2 ^ 15
      let a := line % 2 ^ 15 * 64
      ((storageLease s (tileRegion t)).getD 0xFFFF, epOf t, billetName t a + a % 4096 * 2 ^ 32)
    else
      let w := (line - 1152 * 2 ^ 15) * 8
      let x := s.chanOf (8 * die + w / 524288)
      (if x.emulated then 0xFFFF else x.lease.getD 0xFFFF, 0xFFFF, w % 524288 * 8)
  else
    let l := line / 2 ^ 34
    (if l < 1024 ∧ (s.leaseOf l).st ≠ .free then l else 0xFFFF, 0xFFFF, line % 2 ^ 34 * 64)

/-- A hard fault: reported, and the line goes to the repair list (18 R438). -/
def hardFault (die dom line pos : Nat) (s : State) : State :=
  let ras := if dom = 0 then { s.ras with sramRows := s.ras.sramRows ++ [(die, line)] }
             else { s.ras with hbmRows := s.ras.hbmRows ++ [(line, false)] }
  let w := lineWhere s die dom line
  let code := if dom = 0 ∧ 1152 * 2 ^ 15 ≤ line then 2 else dom
  ({ s with ras := ras }).eventStewardLog
    { type := 0x11, lease := w.1, unit := w.2.1, addr := w.2.2, body := leBytes code 1 ++ leBytes pos 1 }

/-- A frame that cannot be corrected: the region is FAULTED, and the section on it, running or loaded on it to start, ends
ABORTED (18 R428). -/
def frameUncorrectable (r addr : Nat) (s : State) : State :=
  let lease := storageLease s r
  let on := s.secs.filter (fun e => (e.2.placed.map Prod.snd).contains r)
  let s1 := on.foldl (fun s e =>
    if e.2.phase = .running ∨ e.2.phase = .ending then endSection s e.1 (endStatus s e.2 .aborted)
    else if e.2.phase = .prologue ∧ e.2.opened.contains r = true then
      settleProg (stopProg (cancelSection s e.1) e.2.prog e.2.tag e.2.instr .aborted) e.2.prog
    else s) s
  let s2 := s1.updRegion r (fun x => { x with st := .faulted })
  let e : Ev := { type := 0x16, addr := addr, body := leBytes r 1 }
  match lease with
  | some l => s2.eventLeaseStewardLog e l
  | none => s2.eventStewardLog e

/-- Mark what an uncorrectable error struck, and report it (18 R426): SRAM lines below 1152 * 2^15 of the die, then the
Tungsten quarters; HBM units by lease, or physical where no lease owns them; frames by R428. -/
def markUncorrectable (die dom line mask : Nat) (s : State) : State :=
  let w := lineWhere s die dom line
  let code := if dom = 0 ∧ 1152 * 2 ^ 15 ≤ line then 2 else dom
  let found := poisonFound w.1 w.2.1 w.2.2 code 0 mask 0 (w.1 != 0xFFFF)
  if dom = 0 then
    if line < 1152 * 2 ^ 15 then found (s.sramMark (die * 1152 + line / 2 ^ 15) (line % 2 ^ 15 * 64) 64 true)
    else
      let k := (line - 1152 * 2 ^ 15) * 8
      let c := 8 * die + k / 524288
      let x := s.chanOf c
      if x.emulated then found s else found (s.setChan c { x with memPoison := Table.setList false x.memPoison (k % 524288) (List.replicate 8 true) })
  else if dom = 1 then
    if w.1 ≠ 0xFFFF then found (s.setHbmPoison (s.hbm.poison.set false line true))
    else found { s with ras := { s.ras with freePoison := s.ras.freePoison.set false line true } }
  else
    let t := die * 1152 + line / 1024
    frameUncorrectable (tileRegion t) (frameAddress t (line % 1024)) s

/-- Is the line marked poisoned now? -/
def lineMarked (s : State) (die dom line : Nat) : Bool :=
  if dom = 0 then
    if line < 1152 * 2 ^ 15 then s.fab.sramPoison.get false (die * 1152 * 2 ^ 15 + line)
    else
      let w := (line - 1152 * 2 ^ 15) * 8
      !(s.chanOf (8 * die + w / 524288)).emulated && (s.chanOf (8 * die + w / 524288)).memPoison.get false (w % 524288)
  else if dom = 1 then s.hbm.poison.get false line || s.ras.freePoison.get false line
  else false

/-- A correctable error of a domain: counted and queued for write-back; a second one at the same place on the next pass is
a hard fault (18 R425, R438). -/
def correctable (die dom line pos : Nat) (s : State) : State :=
  let b := s.ras.scrubs.get {} (4 * die + dom)
  let s1 := countCorrectable die dom line (setScrub s (4 * die + dom) { b with lastErr := b.lastErr.set none line (some pos) })
  if dom ≠ 2 ∧ b.lastErr.get none line = some pos then hardFault die dom line pos s1 else s1

/-- An uncorrectable error: a second one after the line was fully written is a hard fault as well (18 R426, R438). -/
def uncorrectable (die dom line mask : Nat) (s : State) : State :=
  let b := s.ras.scrubs.get {} (4 * die + dom)
  let again := b.unc.contains line && !(lineMarked s die dom line)
  let s1 := setScrub s (4 * die + dom) { b with unc := dedup (b.unc ++ [line]) }
  let s2 := markUncorrectable die dom line mask s1
  if again && dom != 2 then hardFault die dom line 0 s2 else s2

/-- The Burnisher reads line `line` of a domain: of configuration frames those of sealed columns only, so never a column under
load (11 R292, 18 R433). -/
def scrubReads (s : State) (die dom line : Nat) : Bool :=
  let t := die * 1152 + line / 1024
  dom != 2 || (s.regionOf (tileRegion t)).sealedCols.getLsbD (tileX t % 9)

/-- SCRUB_LINE_READ (18 R429): the domain's next line, in the order of addresses, wrapping after the last; the safe point
of TMP_SCRUB (20 R487). Lines are numbered as `markUncorrectable` reads them; one that the Burnisher passes over finds nothing. -/
def execScrubLineRead (die dom line : Nat) (f : Finding) (s : State) : Host.Outcome State Fault Refusal :=
  let s0 := safePoint .scrub s
  done (if dom = 2 && s0.ras.cfgDisabled then s0
  else
    let b := s0.ras.scrubs.get {} (4 * die + dom)
    let s1 := setScrub s0 (4 * die + dom)
      { b with pos := line + 1, pass := if line < b.pos ∧ dom ≠ 2 then b.pass + 1 else b.pass }
    match (if scrubReads s0 die dom line then f else .clean) with
    | .clean => setScrub s1 (4 * die + dom)
        { s1.ras.scrubs.get {} (4 * die + dom) with lastErr := b.lastErr.set none line none }
    | .correctable pos => correctable die dom line pos s1
    | .uncorrectable mask => uncorrectable die dom line mask s1)

/-- SCRUB_WRITE_BACK (18 R435, R425): the oldest queued line is written back, or skipped when a writer has rewritten it.
The model holds corrected data, so the stored bytes do not change either way. -/
def execScrubWriteBack (die dom : Nat) (s : State) : Host.Outcome State Fault Refusal :=
  let b := s.ras.scrubs.get {} (4 * die + dom)
  done (setScrub s (4 * die + dom) { b with writeBack := b.writeBack.drop 1 })

/-- SCRUB_RESTORED (18 R431): fewer than 16 errors in each of 10 consecutive seconds. -/
def execScrubRestored (die dom : Nat) (s : State) : Host.Outcome State Fault Refusal :=
  let b := s.ras.scrubs.get {} (4 * die + dom)
  done (if b.escalated && decide (10 * second ≤ s.sclk - b.quietAt) &&
      (upTo 10).all (fun k => decide (errsIn s.sclk b k < 16)) then
    scrubEvent 0x13 die dom (errsIn s.sclk b 0)
      (setScrub s (4 * die + dom) { b with escalated := false, wm := sampleWm b.wm false })
  else s)

/-- Frames of the sealed columns of a die, as its configuration engine counts them (18 R433, 11 R267). -/
def sealedFrames (s : State) (die : Nat) : Nat :=
  (upTo 16).foldl (fun a i => (upTo 9).foldl (fun a c =>
    if (s.regionOf (16 * die + i)).sealedCols.getLsbD c then a + (if c = 8 then 128 else 576) else a) a) 0

/-- CANARY_CHECK (18 R433, R434). -/
def execCanaryCheck (die reportedBit : Nat) (crc : Word) (frames : Nat) (s : State) : Host.Outcome State Fault Refusal :=
  let b := s.ras.scrubs.get {} (4 * die + 2)
  done (if s.ras.cfgDisabled then s
  else if reportedBit = b.pass % 2304 ∧ crc = 0x9D41E60B#32 ∧ frames = sealedFrames s die then
    setScrub s (4 * die + 2) { b with canaryFailed := false, pass := b.pass + 1 }
  else
    let s1 := { s with ras := { s.ras with canaryFails := satInc s.ras.canaryFails 255 } }
    let s2 := setScrub s1 (4 * die + 2) { b with canaryFailed := true, pos := 0 }
    let s3 := s2.eventStewardLog
      { type := 0x14, body := leBytes die 1 ++ leBytes (b2n b.canaryFailed) 1 ++ leBytes b.pass 4 }
    if b.canaryFailed then
      (({ s3 with ras := { s3.ras with cfgDisabled := true } }).refreshReady).eventAllOpen
        { type := 0x15, body := leBytes die 1 }
    else s3)

/-- TMR_VOTE (18 R432): `upset` names the copy that disagrees; 3 or more: none does.  A disagreeing copy is rewritten and
counted. -/
def execTmrVote (upset : Nat) (s : State) : Host.Outcome State Fault Refusal :=
  done (if upset < 3 then { s with ras := { s.ras with tmrVotes := satInc s.ras.tmrVotes 65535 } } else s)

/-- CE_SUMMARY (18 Table 18.7): one log record for each die and domain, and the hour's counts begin again. -/
def execCeSummary (s : State) : Host.Outcome State Fault Refusal :=
  done ((upTo (4 * s.nDies)).foldl (fun s i =>
    if i % 4 = 3 then s else
    let b := s.ras.scrubs.get {} i
    setScrub (s.logEvent { type := 0x1B, body := leBytes (i / 4) 1 ++ leBytes (i % 4) 1 ++ leBytes b.hourErrs 4 }) i
      { b with hourErrs := 0 }) s)

/-! ### The durable store (18 R445, R446) -/

/-- A header slot (18 Table 18.5). -/
def pageHeader (p seq : Nat) (content : List Byte) : List Byte :=
  let h := leBytes 0x5047 2 ++ leBytes p 2 ++ leBytes seq 4 ++ leBytes (crc32c content).toNat 4 ++ leBytes 0 16
  h ++ leBytes (crc32c h).toNat 4

/-- The content of a page as manufactured: copy A of zeros with seq 0 (log 5). -/
def blankContent : List Byte := List.replicate 1024 0

/-- Copy A of page `p`: content and header. -/
def copyOfA (p : Nat) (g : Page) : List Byte × List Byte :=
  if g.hdrA.isEmpty then (blankContent, pageHeader p 0 blankContent) else (g.copyA, g.hdrA)
/-- Copy B of page `p`. -/
def copyOfB (g : Page) : List Byte × List Byte := (g.copyB, g.hdrB)

/-- A copy is valid (18 R445). -/
def copyValid (p : Nat) (c : List Byte × List Byte) : Bool :=
  c.2.length == 32 && fieldAt c.2 0 2 == 0x5047 && fieldAt c.2 28 4 == (crc32c (c.2.take 28)).toNat &&
    fieldAt c.2 2 2 == p && fieldAt c.2 8 4 == (crc32c c.1).toNat && c.1.length == 1024

/-- Is sequence `a` later than `b`, as serial numbers of 32 bits? -/
def seqLater (a b : Nat) : Bool := a != b && decide ((a + 2 ^ 32 - b) % 2 ^ 32 < 2 ^ 31)

/-- Which copy a read of page `p` returns: true for A; none when neither is valid (18 R445, R447). -/
def pageCurrent (p : Nat) (g : Page) : Option Bool :=
  let a := copyOfA p g
  let b := copyOfB g
  if copyValid p a && copyValid p b then some (!(seqLater (fieldAt b.2 4 4) (fieldAt a.2 4 4)))
  else if copyValid p a then some true
  else if copyValid p b then some false
  else none

/-- What a read of page `p` returns. -/
def pageRead (p : Nat) (g : Page) : Option (List Byte) :=
  (pageCurrent p g).map (fun a => if a then (copyOfA p g).1 else (copyOfB g).1)

/-- Write the first `n` bytes of the sequence "content, then header" over an old copy: the copy first, then its header
slot (18 R446). -/
def overlay (old new : List Byte) (n : Nat) : List Byte := new.take n ++ old.drop n

/-- A page write that power loss stops after `n` of its 1,056 bytes (18 R446). -/
def pageWrite (p : Nat) (content : List Byte) (n : Nat) (g : Page) : Page :=
  match pageCurrent p g with
  | none => g
  | some a =>
    let cur := if a then copyOfA p g else copyOfB g
    let old := if a then copyOfB g else copyOfA p g
    let hdr := pageHeader p ((fieldAt cur.2 4 4 + 1) % 2 ^ 32) content
    let c := overlay (if old.1.length = 1024 then old.1 else blankContent) content (min n 1024)
    let h := overlay (if old.2.length = 32 then old.2 else List.replicate 32 0) hdr (n - 1024)
    if a then { g with copyA := cur.1, hdrA := cur.2, copyB := c, hdrB := h }
    else { g with copyA := c, hdrA := h }

/-- Write a durable-store page; a page without a valid copy is left alone and reported (18 R447). -/
def writePage (p : Nat) (content : List Byte) (n : Nat) (s : State) : State :=
  let g := s.ras.pages.get {} p
  match pageCurrent p g with
  | none => s.eventSteward { type := 0x1A, body := leBytes p 2 }
  | some _ => { s with ras := { s.ras with pages := s.ras.pages.set {} p (pageWrite p content n g) } }

/-- DURABLE_PAGE_WRITE (18 R446): `interrupted` bytes of the 1,056 are written before power fails; 1,056 or more: all. -/
def execDurablePageWrite (page : Nat) (content : List Byte) (interrupted : Nat) (s : State) :
    Host.Outcome State Fault Refusal :=
  done (if page < 1984 ∧ content.length = 1024 then writePage page content interrupted s else s)

/-- The 1,024 bytes of a log page: 16 records (18 R449). -/
def logPage (s : State) (page : Nat) : List Byte :=
  ((upTo 16).map (fun i => entryBytes (s.ras.log.get 0 ((page - 32) * 16 + i)))).flatten

/-- PATINA_PAGE_FLUSH (18 R449). -/
def execPatinaPageFlush (page : Nat) (s : State) : Host.Outcome State Fault Refusal :=
  done (if s.ras.logDirty.contains page then
    let s1 := writePage page (logPage s page) 1056 s
    { s1 with ras := { s1.ras with logDirty := s1.ras.logDirty.filter (fun k => k != page) } }
  else s)

/-- Records that the durable store does not hold are lost with power (18 R449). -/
def reloadLog (s : State) : State :=
  s.ras.logDirty.foldl (fun s page =>
    let bytes := (pageRead page (s.ras.pages.get {} page)).getD blankContent
    let lg := (upTo 16).foldl (fun a i => a.set 0 ((page - 32) * 16 + i) (entryOf (slice bytes (64 * i) 64))) s.ras.log
    { s with ras := { s.ras with log := lg, logDirty := s.ras.logDirty.filter (fun k => k != page) } }) s

end Sys2Proof.Machine
end

