-- ==== Sys2Proof/Machine/Boot.lean ====
section
/-! DEFINITION. Firmware images, the boot ROM, start-up and the resets of the whole module (chapters 19, 21, 22). -/
namespace Sys2Proof.Machine

/-! ### Images (19 Table 19.2, R451) -/

/-- Magic of a firmware image, and of a recovery package (21 R507). -/
def fwMagic : Nat := 0x4C4E4657
def recoveryMagic : Nat := 0x4C4E5250

/-- What the checks of R451 find. -/
inductive ImgCheck where
  | ok | malformed | key | svn
deriving DecidableEq, Repr

/-- The image without what stands after its length field. -/
def imgBody (img : List Byte) : List Byte := img.take (fieldAt img 12 4)
/-- version, svn and floor_raise of the header. -/
def imgVersion (img : List Byte) : Nat := fieldAt img 4 4
def imgSvn (img : List Byte) : Nat := fieldAt img 8 2
def imgFloorRaise (img : List Byte) : Nat := fieldAt img 10 2

/-- Magic and length are those of an image. -/
def imgFormed (magic : Nat) (img : List Byte) : Bool :=
  fieldAt img 0 4 == magic && decide (fieldAt img 12 4 ≤ img.length) && decide (208 ≤ fieldAt img 12 4)

/-- The key hash is the fused one and the signature verifies. -/
def imgSigned (keyHash : BitVec 384) (img : List Byte) : Bool :=
  let b := imgBody img
  let n := b.length - 96
  sha384 (slice b 16 96) == keyHash &&
    ecdsaOk (beNat (slice b 16 48)) (beNat (slice b 64 48)) (sha384 (b.take n)) (beNat (slice b n 48))
      (beNat (slice b (n + 48) 48))

/-- The checks of R451, with the floor in force. -/
def imgCheck (s : State) (magic : Nat) (img : List Byte) : ImgCheck :=
  if !(imgFormed magic img) then .malformed
  else if !(imgSigned s.sec.fwKeyHash img) then .key
  else if imgSvn img < s.sec.floor then .svn
  else .ok

/-- The fused floor (19 R453). -/
def fusedFloor (s : State) : Nat := 1024 * s.sec.blown

/-- With neither copy of page 4 valid the floor is rebuilt from the fuses and the slots (19 R454). -/
def rebuildFloor (s : State) : State :=
  match pageCurrent 4 (s.ras.pages.get {} 4) with
  | some _ => s
  | none =>
    let slots := (upTo 2).map (fun k => (s.boot.slots.get {} k).image)
    let good := slots.filter (fun i => imgFormed fwMagic i && imgSigned s.sec.fwKeyHash i)
    let fl := good.foldl (fun a i => max a (imgSvn i)) (fusedFloor s)
    let s1 := s.eventSteward { type := 0x1A, body := leBytes 4 2 }
    { s1 with sec := { s1.sec with floor := fl } }

/-! ### The boot ROM (21 Table 21.2 steps 1 to 4, R516) -/

/-- Slot `k` is marked failed (21 R516). -/
def markFailed (k : Nat) (s : State) : State :=
  { s with boot := { s.boot with slots := s.boot.slots.upd {} k (fun x => { x with state := 3 }) } }

/-- Try slot `k`: an attempt at the selected slot is counted first; a slot that fails R451 is marked failed. -/
def trySlot (k : Nat) (s : State) : State × Bool :=
  let s1 := if k = s.boot.selected then
      { s with boot := { s.boot with attempts := satInc s.boot.attempts 3 } } else s
  let img := (s1.boot.slots.get {} k).image
  if imgCheck s1 fwMagic img = .ok then
    ({ s1 with boot := { s1.boot with slot := k, fallback := k != s1.boot.selected, running := imgBody img } }, true)
  else (markFailed k s1, false)

/-- The Assayer runs the accepted firmware: the DRBG is seeded, a hub key is drawn, and DEV_STATE reads STANDBY
(19 R456, R458, 21 Table 21.2 step 4). -/
def runFirmware (s : State) : State :=
  let s1 := s.drewRandom
  let sec := { s1.sec with seeded := true, drbgReqs := 1, drbgAt := s.sclk, hubKey := s.random }
  { s1 with sec := sec, boot := { s1.boot with state := 1, step := 4 }, mod := { s1.mod with quenchDrive := ownTrigger s1 } }

/-- Start-up failed: the device goes to RECOVERY with the step recorded and CFG_ERR# asserted, and the Assayer returns to
the boot ROM's recovery loop (21 R506, R509). -/
def enterRecovery (step : Nat) (s : State) : State :=
  let code := if s.boot.recovery then 6 else 0
  let b := { s.boot with state := 6, failStep := step, recovery := false, running := [], recStatus := code, recCause := 0 }
  { s with boot := b, mod := { s.mod with cfgErr := true } }

/-- Steps 2 to 4: the boot ROM tries the two slots in the order of R516. -/
def bootRom (s : State) : State :=
  let s0 := rebuildFloor { s with boot := { s.boot with state := 0, step := 2, failStep := 0, recovery := false,
                                                        recStatus := 0, recCause := 0, fallback := false } }
  let sel := s0.boot.selected
  let first := if s0.boot.attempts < 3 then sel else 1 - sel
  let a := trySlot first s0
  if a.2 then runFirmware a.1
  else
    let b := trySlot (1 - first) a.1
    if b.2 then runFirmware b.1 else enterRecovery 3 b.1

/-! ### Start-up from main power good (21 Table 21.2 steps 6 to 12) -/

/-- Step `k` is done. -/
def atStep (k : Nat) (s : State) : State := { s with boot := { s.boot with step := k } }

/-- Units fail: the ones whose bit satisfies `p` cease to be usable (21 R505). -/
def failUnits (p : Nat → Bool) (units : List Nat) (s : State) : State :=
  (units.filter p).foldl (fun s b => outOfService b s) s

/-- Clocks of the usable dies start at their lowest rates (21 Table 21.2 step 6). -/
def lowestClocks (s : State) : State :=
  (upTo s.nDies).foldl (fun s d =>
    if s.dieUsable d then
      let t := if s.hasEngines then 16 else 0
      s.setClk d { s.clkOf d with stopped := false, fclk := 32, fTarget := 32, tclk := t, tTarget := t,
                                  fChanged := s.sclk, tChanged := s.sclk }
    else s) s

/-- Step 6. -/
def startStep6 (r : StartupTests) (s : State) : State :=
  atStep 6 (lowestClocks (failUnits (fun b => decide (b < 4)) r.failedUnits s))

/-- One row of the HBM repair list at step 7 (18 R442). -/
def repairRow (exhausted : List Nat) (s : State) (x : Nat × Bool) : State :=
  if exhausted.contains x.1 then
    let s1 := { s with ras := { s.ras with hbmRows := s.ras.hbmRows ++ [(x.1, true)] } }
    if x.2 then s1
    else
      let p := Config.rowPlace x.1
      s1.eventStewardLog { type := 0x19, body := leBytes (p / 2 ^ 40) 1 ++ leBytes (p / 2 ^ 32) 1 ++ leBytes p 4 }
  else { s with ras := { s.ras with rowsRepaired := s.ras.rowsRepaired + 1 } }

/-- Step 7: HBM trains, and post-package repair is applied. -/
def startStep7 (r : StartupTests) (s : State) : State :=
  let s1 := failUnits (fun b => decide (4 ≤ b) && decide (b < 12)) r.failedUnits s
  atStep 7 (s1.ras.hbmRows.foldl (repairRow r.exhaustedRows) { s1 with ras := { s1.ras with hbmRows := [] } })

/-- Step 8: built-in self-test; rows of on-chip SRAM are replaced from their spares (18 R436, R438). -/
def startStep8 (r : StartupTests) (s : State) : State :=
  let s1 := failUnits (fun b => decide (12 ≤ b)) r.failedUnits s
  let s2 := (r.failedTiles.filter (fun t => decide (tileDie t < s.nDies))).foldl (fun s t => tileFailed t 0 s) s1
  atStep 8 { s2 with ras := { s2.ras with sramRows := [] } }

/-- Step 9: every recorded steering and absent marking is in force (18 R441). -/
def startStep9 (s : State) : State :=
  let ds := s.dev.dies.mapVals {} (fun _ m => { m with pendingSteer := none })
  atStep 9 { s with dev := { s.dev with dies := ds } }

/-- A stream error of the hub target is recorded in CFG_ERR[0] (11 R290). -/
def recordHubError (cause addr : Nat) (s : State) : State :=
  let e := s.engOf 0
  let e1 := if e.errValid then e
    else { e with errValid := true, errCause := cause, errRegion := 0x7F, errAddr := BitVec.ofNat 32 addr }
  s.setEng 0 { e1 with errCount := satInc e1.errCount 255 }

/-- Steps 11 and 12: ports are released, then functions may become ready (21 Table 21.2, R503, R510, 19 R453). -/
def startStep11 (s : State) : State :=
  let s1 := (upTo s.nPorts).foldl (fun s n => s.setPort n { s.portOf n with released := true }) s
  atStep 11 { s1 with mod := { s1.mod with cfgErr := s1.mod.cfgErr && !s1.boot.recovery } }

/-- The rollback floor rises to the image's floor_raise, and fuses follow it (19 R453); page 4 is written anew (R454). -/
def raiseFloor (s : State) : State :=
  let fl := max s.sec.floor (imgFloorRaise s.boot.running)
  let pages := match pageCurrent 4 (s.ras.pages.get {} 4) with
    | some _ => s.ras.pages
    | none => s.ras.pages.set {} 4 {}
  { s with sec := { s.sec with floor := fl, blown := max s.sec.blown (min 64 (fl / 1024)) },
           ras := { s.ras with pages := pages } }

/-- Step 12. -/
def startStep12 (s : State) : State :=
  let s1 := { s with ras := { s.ras with bootCount := s.ras.bootCount + 1 } }
  let s2 := if s1.boot.recovery then s1
    else raiseFloor { s1 with boot := { s1.boot with attempts := 0 } }
  atStep 12 { s2 with boot := { s2.boot with state := if s2.boot.recovery then 6 else s2.readyState, hubLoaded := true } }

/-- Steps 10 to 12. -/
def startFrom10 (r : StartupTests) (s : State) : State :=
  if r.hangAt = some 10 then s
  else if !r.hubConfigOk then
    enterRecovery 10 (recordHubError (Config.freeNat s.free % 256) (Config.freeNat (s.free + 1)) (s.drew.drew))
  else
    let s1 := atStep 10 s
    if r.hangAt = some 11 then s1
    else if r.hangAt = some 12 then startStep11 s1
    else startStep12 (startStep11 s1)

/-- Steps 6 to 12; the firmware may hang at one of them (21 R516). -/
def startFrom6 (r : StartupTests) (s : State) : State :=
  if r.hangAt = some 6 then s
  else
    let s6 := startStep6 r s
    if r.hangAt = some 7 then s6
    else
      let s7 := startStep7 r s6
      if r.hangAt = some 8 then s7
      else
        let s8 := startStep8 r s7
        if r.hangAt = some 9 then s8 else startFrom10 r (startStep9 s8)

/-- MAIN_POWER_GOOD (21 R501): start-up goes on at step 6; under a recovery firmware accepted with main power already
good, at step 10 (R510). -/
def execMainPowerGood (r : StartupTests) (s : State) : Host.Outcome State Fault Refusal :=
  done (if s.mod.mainOn && !s.mod.mainGood && s.boot.state == 2 then
    startFrom6 r { s with mod := { s.mod with mainGood := true }, boot := { s.boot with goodAt := s.sclk } }
  else if s.mod.mainGood && s.boot.recovery && s.boot.state == 6 && s.boot.step == 9 then startFrom10 r s
  else s)

/-- STANDBY_PRESENT (22 R526): start-up begins at step 1. -/
def execStandbyPresent (modId : Nat) (s : State) : Host.Outcome State Fault Refusal :=
  done (if s.mod.standby then s
    else bootRom { s with mod := { s.mod with standby := true, modId := modId % 8 } })

/-- Main power may be enabled: J1 valid and mated for 100 ms and no trigger (21 R502, 22 R527). -/
def powerAllowed (s : State) : Bool := s.mod.j1 == 1 && s.power.triggers == 0

/-- Main power is enabled: DEV_STATE reads BOOTING (21 Table 21.2 step 5). -/
def enablePower (s : State) : State :=
  { s with mod := { s.mod with mainOn := true }, boot := { s.boot with state := 2, step := 5 } }

/-- MAIN_POWER_ENABLE (21 R502, R510). -/
def execMainPowerEnable (s : State) : Host.Outcome State Fault Refusal :=
  done (if (s.boot.state == 1 || (s.boot.state == 6 && s.boot.recovery)) && !s.mod.mainOn && !s.boot.restart5 &&
      powerAllowed s then enablePower s else s)

/-- STARTUP_RETRY (21 R502): no trigger for 10 s; the restart records last_restart 5. -/
def execStartupRetry (s : State) : Host.Outcome State Fault Refusal :=
  done (match s.boot.clearSince with
  | none => s
  | some t =>
    if s.boot.state == 1 && s.boot.restart5 && !s.mod.mainOn && decide (10 * second ≤ s.sclk - t) && powerAllowed s then
      enablePower { s with boot := { s.boot with restart5 := false, lastRestart := 5, clearSince := none } }
    else s)

/-! ### Resets of the module (21 R512, R513, Tables 21.4, 21.6) -/

/-- What every reset of the module keeps of the identity: the part and the tile map. -/
def keepDev (s : State) : Dev := { part := s.dev.part, stepping := s.dev.stepping, dies := s.dev.dies, absent := s.dev.absent }
/-- The flash slots and page 4's slot state. -/
def keepBoot (s : State) : Boot :=
  { slots := s.boot.slots, selected := s.boot.selected, attempts := s.boot.attempts }
/-- Fuses and the floor. -/
def keepSec (s : State) : Sec :=
  { floor := s.sec.floor, blown := s.sec.blown, fwKeyHash := s.sec.fwKeyHash, dbgKeyHash := s.sec.dbgKeyHash,
    dbgKey := s.sec.dbgKey, secret := s.sec.secret }
/-- The durable store, the repair lists and the log. -/
def keepRas (s : State) : Ras :=
  { sramRows := s.ras.sramRows, hbmRows := s.ras.hbmRows, rowsRepaired := s.ras.rowsRepaired, pages := s.ras.pages,
    bootCount := s.ras.bootCount, log := s.ras.log, logNext := s.ras.logNext }
/-- The levels of the PERST# inputs, which come from outside. -/
def keepPins (s : State) : Table Port := s.host.ports.mapVals {} (fun _ p => { perstHigh := p.perstHigh })

/-- Slot states while an update is cut off stay as page 4 holds them (21 R517). -/
def coldState (s : State) : State :=
  { dev := keepDev s, boot := keepBoot s, sec := keepSec s, ras := keepRas s, host := { ports := keepPins s },
    free := s.free, out := s.out, pending := s.pending }

/-- STANDBY_LOSS (22 R526): a cold reset. -/
def execStandbyLoss (s : State) : Host.Outcome State Fault Refusal := done (coldState (reloadLog s))

/-- What a module reset leaves (21 Table 21.6): beside what a cold reset keeps, the record time, the debug state, the
module controller and the triggers that persist. -/
def moduleState (s : State) : State :=
  let c := coldState s
  let m := { s.mod with mainOn := false, mainGood := false, cfgErr := false, quenchDrive := false }
  { c with sclk := s.sclk, mod := m,
           sec := { c.sec with debugUnlocked := s.sec.debugUnlocked, rejected := s.sec.rejected },
           power := { c.power with triggers := s.power.triggers, lowFlow := s.power.lowFlow } }

/-- A module reset restarts at step 3 and records its cause. -/
def moduleReset (code : Nat) (s : State) : State :=
  let s1 := moduleState (reloadLog s)
  bootRom { s1 with boot := { s1.boot with lastRestart := code } }

/-- MODULE_RESET (21 R512, R515): the reset that FW_ACTIVATE (2) or the BMC (3) asked for; none in Quench. -/
def execModuleReset (code : Nat) (s : State) : Host.Outcome State Fault Refusal :=
  done (if (code = 2 ∨ code = 3) ∧ s.boot.resetPending = code ∧ s.boot.state ≠ 5 then moduleReset code s else s)

/-- STARTUP_WATCHDOG (21 R516): 3.0 s after main power good, still BOOTING. -/
def execStartupWatchdog (s : State) : Host.Outcome State Fault Refusal :=
  done (if s.boot.state == 2 && s.mod.mainGood && decide (3 * second ≤ s.sclk - s.boot.goodAt) then moduleReset 4 s else s)

/-- Regions after main power has gone: IDLE and vacant, with no frame, billet or register. -/
def freshRegions (s : State) : Table Region :=
  (upTo s.nRegions).foldl (fun t r => t.set {} r { vacantAt := s.sclk }) []

/-- A lease closes because its HBM has lost power: both changes of its state are reported, with a cause that Table 18.7
does not name (log 10). -/
def losePower (s : State) (l : Nat) : State :=
  freeLease (startClosing s.drew l (Config.freeNat s.free % 256) []) l []

/-- What a main-power restart clears (21 R513): leases, keys, HBM and the fabric; the functions as by a port reset of
every port; the security and power settings, the debug state, SCLK and the tile map stay. -/
def loseMainPower (s : State) : State :=
  let down := s.host.ports.mapVals {} (fun _ p => { p with linkUp := false, released := false })
  let s1 := { s with host := { s.host with ports := down }, seq := {} }
  let s2 := s1.leaseIds.foldl losePower s1
  let s3 := (upTo s.nPorts).foldl resetPort s2
  let h := { s3.host with flights := [], writes := [], nextWrite := 0 }
  { s3 with own := { s3.own with leases := [], regions := freshRegions s,
                                 cfg := s3.own.cfg.mapVals {} (fun _ e =>
                                   { errValid := e.errValid, errCount := e.errCount, errCause := e.errCause,
                                     errRegion := e.errRegion, errAddr := e.errAddr }) },
            fab := {}, hbm := { arb := s.hbm.arb, arbBad := s.hbm.arbBad },
            host := h, ras := { s3.ras with freePoison := [] } }

/-- MAIN_POWER_LOSS (22 R529, 21 R513): after step 12 DEV_STATE returns to STANDBY and the restart waits as R502 gives;
during start-up the sequence stops (21 R502); the boot ROM's recovery loop goes on without main power (R506). -/
def execMainPowerLoss (s : State) : Host.Outcome State Fault Refusal :=
  done (if !s.mod.mainOn then s
  else if s.boot.step = 12 then
    let s1 := stopClocks (loseMainPower s)
    let b := { s1.boot with state := 1, step := 4, restart5 := true, hubLoaded := false,
                            clearSince := if s.power.triggers = 0 then some s.sclk else none }
    { s1 with boot := b,
              mod := { s1.mod with mainOn := false, mainGood := false, quenchDrive := ownTrigger s },
              power := { s1.power with active := false, selfRefresh := false } }
  else if s.boot.state = 6 && !s.boot.recovery then
    { stopClocks s with mod := { s.mod with mainOn := false, mainGood := false } }
  else
    let s1 := abortStartup s
    { s1 with boot := { s1.boot with clearSince := if s.power.triggers = 0 then some s.sclk else none },
              mod := { s1.mod with quenchDrive := s1.mod.quenchDrive || ownTrigger s1 } })

/-! ### Writing a flash slot (21 R517 to R519) -/

/-- The slot that the device did not boot. -/
def inactiveSlot (s : State) : Nat := 1 - s.boot.slot % 2

/-- Change slot `k`. -/
def setSlot (s : State) (k : Nat) (x : FwSlot) : State :=
  { s with boot := { s.boot with slots := s.boot.slots.set {} k x } }

/-- Step 2: the slot's state becomes writing, and the update is in progress. -/
def beginUpdate (img : List Byte) (s : State) : State :=
  let k := inactiveSlot s
  let s1 := setSlot s k { s.boot.slots.get {} k with state := 1 }
  { s1 with boot := { s1.boot with updating := some img } }

/-- Steps 3 to 5: the slot is programmed and read back; what the flash holds after a failed read-back is not the image. -/
def endUpdate (img : List Byte) (readBackOk : Bool) (s : State) : State :=
  let k := inactiveSlot s
  let x : FwSlot := if readBackOk && imgCheck s fwMagic img == .ok then
      { state := 2, version := imgVersion img, svn := imgSvn img, image := imgBody img }
    else { s.boot.slots.get {} k with state := 3, image := [] }
  let s1 := setSlot s k x
  { s1 with boot := { s1.boot with updating := none } }

/-- Select slot `k` for the next reset (21 R518). -/
def selectSlot (k : Nat) (s : State) : State := { s with boot := { s.boot with selected := k, attempts := 0 } }

/-! ### The recovery package (21 R507 to R510) -/

/-- Bytes of the hub target's frames from index 0. -/
def hubBytes (s : State) (n : Nat) : List Byte :=
  ((upTo ((n + 255) / 256)).flatMap (fun i => leBytes (s.boot.hubFrames.get 0 i).toNat 256)).take n

/-- The pushed package, by its total_len. -/
def pushedPackage (s : State) : List Byte :=
  let n := fieldAt (hubBytes s 16) 12 4
  if n ≤ 262144 then hubBytes s n else []

/-- The status code of a package that fails; for a malformed one Table 21.5 names no code (log 11). -/
def packageCode (s : State) : ImgCheck → Nat
  | .ok => 5
  | .key => 3
  | .svn => 4
  | .malformed => Config.freeNat s.free % 256

/-- RECOVERY_PACKAGE_CHECK (21 R508 to R510): an accepted package runs, from step 5 or from step 10; any other is
discarded whole. -/
def execRecoveryPackageCheck (s : State) : Host.Outcome State Fault Refusal :=
  done (if s.boot.pushed && s.boot.state == 6 && !s.boot.recovery then
    let img := pushedPackage s
    let c := imgCheck s recoveryMagic img
    let s1 := { s.drew with boot := { s.boot with pushed := false, recStatus := packageCode s c, recCause := 0 } }
    if c = .ok then
      { s1 with boot := { s1.boot with recovery := true, running := imgBody img, step := if s.mod.mainGood then 9 else 4,
                                       failStep := 0 } }
    else { s1 with boot := { s1.boot with hubFrames := [] } }
  else s)

end Sys2Proof.Machine
end

