-- ==== Sys2Proof/Machine/Operands.lean ====
section
/-! DEFINITION. Every number format, its decoding and its encoding, the sterling word and its compact form, and the
stochastic draw (chapter 04). -/
namespace Sys2Proof.Machine

/-! ### Rounding -/

/-- A rounding: the directions of 05 Table 5.5, and the stochastic rounding of 04 R105 with its 32 random bits. -/
inductive Rnd where
  | rne | rta | rtz | rtp | rtn
  | sr (x : Nat)
deriving DecidableEq, Repr

/-- The direction that a code of 05 Table 5.5 names. -/
def rndOf (code : Nat) : Rnd :=
  match code with
  | 0 => .rne
  | 1 => .rta
  | 2 => .rtz
  | 3 => .rtp
  | _ => .rtn

/-- Is the magnitude rounded up, given the kept part `n`, the discarded part `rem` of 2^k, and whether more is discarded
below it? -/
def roundsUp (r : Rnd) (neg : Bool) (n rem k : Nat) (sticky : Bool) : Bool :=
  match r with
  | .rne => decide (2 ^ k < 2 * rem) || (decide (2 * rem = 2 ^ k) && (sticky || n % 2 == 1))
  | .rta => decide (2 ^ k ≤ 2 * rem)
  | .rtz => false
  | .rtp => !neg && (rem != 0 || sticky)
  | .rtn => neg && (rem != 0 || sticky)
  | .sr x => decide (2 ^ 32 ≤ rem * 2 ^ 32 / 2 ^ k + x)

/-- Round m * 2^e (or a little more, when sticky) to a multiple of 2^q: the multiple, and whether it is inexact. -/
def roundAt (r : Rnd) (neg : Bool) (m : Nat) (e : Int) (sticky : Bool) (q : Int) : Nat × Bool :=
  if q ≤ e then
    let n := m * 2 ^ (e - q).toNat
    match r with
    | .rtp => (if !neg && sticky then n + 1 else n, sticky)
    | .rtn => (if neg && sticky then n + 1 else n, sticky)
    | _ => (n, sticky)
  else
    let k := (q - e).toNat
    let n := m / 2 ^ k
    let rem := m % 2 ^ k
    (if roundsUp r neg n rem k sticky then n + 1 else n, rem != 0 || sticky)

/-! ### Floating-point formats (04 Table 4.2) -/

/-- A floating-point format: exponent and fraction widths, bias, the code of the largest finite magnitude, whether the next
code is an infinity, and the canonical NaN (0: none). -/
structure Flt where
  eb : Nat
  fb : Nat
  bias : Nat
  maxCode : Nat
  hasInf : Bool
  nanCode : Nat
deriving DecidableEq, Repr

def fltE4M3 : Flt := ⟨4, 3, 7, 0x7E, false, 0x7F⟩
def fltE5M2 : Flt := ⟨5, 2, 15, 0x7B, true, 0x7E⟩
def fltFP16 : Flt := ⟨5, 10, 15, 0x7BFF, true, 0x7E00⟩
def fltBF16 : Flt := ⟨8, 7, 127, 0x7F7F, true, 0x7FC0⟩
def fltFP32 : Flt := ⟨8, 23, 127, 0x7F7FFFFF, true, 0x7FC00000⟩
def fltFP64 : Flt := ⟨11, 52, 1023, 0x7FEFFFFFFFFFFFFF, true, 0x7FF8000000000000⟩
def fltE3M2 : Flt := ⟨3, 2, 3, 0x1F, false, 0⟩
def fltE2M3 : Flt := ⟨2, 3, 1, 0x1F, false, 0⟩
def fltE2M1 : Flt := ⟨2, 1, 1, 0x7, false, 0⟩

/-- Bits of an encoding. -/
def Flt.width (f : Flt) : Nat := 1 + f.eb + f.fb
/-- The exponent of the smallest normal. -/
def Flt.emin (f : Flt) : Int := 1 - (f.bias : Int)
/-- The sign bit of an encoding. -/
def Flt.signBit (f : Flt) (neg : Bool) : Nat := b2n neg * 2 ^ (f.eb + f.fb)

/-- Decode an encoding (04 R79, R80). -/
def decodeFlt (f : Flt) (code : Nat) : Val :=
  let neg := natBit code (f.eb + f.fb)
  let mag := code % 2 ^ (f.eb + f.fb)
  if f.maxCode < mag then (if f.hasInf ∧ mag = f.maxCode + 1 then .inf neg else .nan)
  else
    let ef := mag / 2 ^ f.fb
    let fr := mag % 2 ^ f.fb
    if ef = 0 then .num neg fr (f.emin - f.fb)
    else .num neg (2 ^ f.fb + fr) ((ef : Int) - f.bias - f.fb)

/-- The magnitude code of a non-zero finite value, possibly past the largest finite one, and whether it is inexact. -/
def magCode (f : Flt) (r : Rnd) (neg : Bool) (m : Nat) (e : Int) (sticky : Bool) : Nat × Bool :=
  let top := (log2Nat m : Int) + e
  let q := max top f.emin - f.fb
  let n := roundAt r neg m e sticky q
  ((q - (f.emin - f.fb)).toNat * 2 ^ f.fb + n.1, n.2)

/-- Tiny after rounding (05 R115): with an unbounded exponent the result would lie below the smallest normal. -/
def tinyAfter (f : Flt) (r : Rnd) (neg : Bool) (m : Nat) (e : Int) (sticky : Bool) : Bool :=
  let top := (log2Nat m : Int) + e
  let n := (roundAt r neg m e sticky (top - f.fb)).1
  decide (top < f.emin) && !(decide (top = f.emin - 1) && decide (2 ^ (f.fb + 1) ≤ n))

/-- How an element counts in an output block's flags (04 R100). -/
inductive Note where
  | plain | nan | inf | poison
deriving DecidableEq, Repr

/-- Encode a value in FAST mode (04 R86, R87, Table 4.6): the code and how it counts. -/
def encodeFlt (f : Flt) (r : Rnd) (sat : Bool) (v : Val) : Nat × Note :=
  match v with
  | .poison => (f.nanCode, .poison)
  | .nan => (f.nanCode, .nan)
  | .inf neg =>
    if f.hasInf then (f.signBit neg + f.maxCode + 1, .inf)
    else if sat then (f.signBit neg + f.maxCode, .inf) else (f.nanCode, .nan)
  | .num neg m e =>
    if m = 0 then (0, .plain)
    else
      let c := (magCode f r neg m e false).1
      if c ≤ f.maxCode then (if c = 0 then 0 else f.signBit neg + c, .plain)
      else if sat then (f.signBit neg + f.maxCode, .plain)
      else if f.hasInf then (f.signBit neg + f.maxCode + 1, .inf) else (f.nanCode, .nan)

/-- Round to the nearest integer, ties to even, in units of 2^q; the sign apart. -/
def nearest (neg : Bool) (m : Nat) (e q : Int) : Int :=
  let n := (roundAt .rne neg m e false q).1
  if neg then -(n : Int) else n

/-- Encode a value in an integer format of the range [lo, hi] and width `w` (04 R86, R87, Table 4.6). -/
def encodeInt (w : Nat) (lo hi : Int) (v : Val) : Nat × Note :=
  match v with
  | .poison => (ofSigned w lo, .poison)
  | .nan => (0, .nan)
  | .inf neg => (ofSigned w (if neg then lo else hi), .inf)
  | .num neg m e => (ofSigned w (clampInt lo hi (nearest neg m e 0)), .plain)

/-! ### Format codes (04 Table 4.1) -/

/-- Element bits by format code. -/
def fmtBits (fmt : Nat) : Nat :=
  match fmt with
  | 0x0 => 4
  | 0x3 => 32
  | 0x6 => 16
  | 0x7 => 16
  | 0x8 => 32
  | 0x9 => 64
  | 0xB => 6
  | 0xC => 6
  | 0xD => 4
  | _ => 8

/-- A block format: MX or LB8. -/
def fmtIsBlock (fmt : Nat) : Bool := decide (0xA ≤ fmt) && decide (fmt ≤ 0xF)
/-- Elements of a block. -/
def fmtBlock (fmt : Nat) : Nat := if fmt = 0xF then 16 else 32

/-- The scalar floating-point format of a code, or the element format of an MX code. -/
def fmtFlt (fmt : Nat) : Option Flt :=
  match fmt with
  | 0x4 => some fltE4M3
  | 0x5 => some fltE5M2
  | 0x6 => some fltFP16
  | 0x7 => some fltBF16
  | 0x8 => some fltFP32
  | 0x9 => some fltFP64
  | 0xA => some fltE4M3
  | 0xB => some fltE3M2
  | 0xC => some fltE2M3
  | 0xD => some fltE2M1
  | _ => none

/-- The value of an integer. -/
def valInt (x : Int) : Val := .num (decide (x < 0)) x.natAbs 0

/-- Multiply a finite value by 2^k. -/
def scaleVal (v : Val) (k : Int) : Val :=
  match v with
  | .num n m e => .num n m (e + k)
  | x => x

/-- Decode an element, with its block's scale for a block format (04 R79 to R84). -/
def decodeElem (fmt code scale : Nat) : Val :=
  match fmt with
  | 0x0 => valInt (toSigned 4 code)
  | 0x1 => valInt (toSigned 8 code)
  | 0x2 => valInt (code % 256)
  | 0x3 => valInt (toSigned 32 code)
  | 0xE => if scale = 0xFF then .nan else scaleVal (valInt (toSigned 8 code)) ((scale : Int) - 133)
  | 0xF => if scale = 0xFF then .nan else scaleVal (valInt (toSigned 8 code)) ((scale : Int) - 133)
  | _ =>
    match fmtFlt fmt with
    | none => .nan
    | some f => if fmtIsBlock fmt then (if scale = 0xFF then .nan else scaleVal (decodeFlt f code) ((scale : Int) - 127))
                else decodeFlt f code

/-- Element `i` of packed elements of `w` bits (04 R81). -/
def elemAt (bits : Nat) (w i : Nat) : Nat := natBits bits (w * i) w

/-- Pack codes of `w` bits from bit 0 on (04 R81). -/
def packBits (w : Nat) (codes : List Nat) : Nat := codes.foldr (fun c a => c % 2 ^ w + 2 ^ w * a) 0

/-- Encode an element of a scalar format (FAST). -/
def encodeElem (fmt : Nat) (r : Rnd) (sat : Bool) (v : Val) : Nat × Note :=
  match fmt with
  | 0x0 => encodeInt 4 (-8) 7 v
  | 0x1 => encodeInt 8 (-128) 127 v
  | 0x2 => encodeInt 8 0 255 v
  | 0x3 => encodeInt 32 (-2147483648) 2147483647 v
  | _ =>
    match fmtFlt fmt with
    | none => (0, .plain)
    | some f => encodeFlt f r sat v

/-! ### Block formats (04 R88, R89) -/

/-- floor(log2 |v|) of a non-zero finite value. -/
def valTop (v : Val) : Option Int :=
  match v with
  | .num _ m e => if m = 0 then none else some ((log2Nat m : Int) + e)
  | _ => none

/-- The exponent of the largest source magnitude of a block. -/
def blockTop (vs : List Val) : Option Int :=
  vs.foldl (fun a v => match a, valTop v with
    | none, b => b
    | b, none => b
    | some x, some y => some (max x y)) none

/-- Some source element is a NaN or infinite, or poisoned. -/
def blockBad (vs : List Val) : Bool := vs.any (fun v => match v with
  | .num _ _ _ => false
  | _ => true)

/-- How each element of a block written as NaN counts (04 R94 case 1, R100). -/
def badNotes (vs : List Val) : List Note := vs.map (fun v => match v with
  | .poison => .poison
  | _ => .nan)

/-- emax of 04 R88. -/
def mxEmax (fmt : Nat) : Int :=
  match fmt with
  | 0xA => 8
  | 0xB => 4
  | 0xC => 2
  | 0xD => 2
  | _ => 0

/-- An MX element after division by 2^(X - 127), rounded and clamped (04 R88 step 3). -/
def mxElem (fmt : Nat) (r : Rnd) (k : Int) (v : Val) : Nat :=
  match v with
  | .num neg m e =>
    if fmt = 0xE then ofSigned 8 (clampInt (-127) 127 (nearest neg m (e - k + 6) 0))
    else match fmtFlt fmt with
      | none => 0
      | some f => (encodeFlt f r true (.num neg m (e - k))).1
  | _ => 0

/-- Encode an MX block: codes, scale, and how the elements count (04 R88). -/
def encodeMx (fmt : Nat) (rs : List Rnd) (vs : List Val) : List Nat × Nat × List Note :=
  if blockBad vs then (vs.map (fun _ => 0), 0xFF, badNotes vs)
  else match blockTop vs with
    | none => (vs.map (fun _ => 0), 0, vs.map (fun _ => .plain))
    | some t =>
      let x := clampInt 0 254 (t - mxEmax fmt + 127)
      ((vs.zip rs).map (fun p => mxElem fmt p.2 (x - 127) p.1), x.toNat, vs.map (fun _ => .plain))

/-- An LB8 significand: divided by 2^(E - 133) and rounded half away from zero. -/
def lb8Elem (e : Int) (v : Val) : Int :=
  match v with
  | .num neg m ve =>
    let n := (roundAt .rta neg m (ve - (e - 133)) false 0).1
    if neg then -(n : Int) else n
  | _ => 0

/-- Encode an LB8 block (04 R89). -/
def encodeLb8 (vs : List Val) : List Nat × Nat × List Note :=
  if blockBad vs then (vs.map (fun _ => 0), 0xFF, badNotes vs)
  else match blockTop vs with
    | none => (vs.map (fun _ => 0), 0, vs.map (fun _ => .plain))
    | some t =>
      let e := clampInt 0 254 (t + 127)
      let e1 := if decide (e < 254) && vs.any (fun v => lb8Elem e v == 128) then e + 1 else e
      (vs.map (fun v => ofSigned 8 (clampInt (-128) 127 (lb8Elem e1 v))), e1.toNat, vs.map (fun _ => .plain))

/-! ### The sterling word (04 R90 to R94) -/

/-- The exact product of two operands (04 R85, R91). -/
def mulVal (a b : Val) : Val :=
  match a, b with
  | .poison, _ => .poison
  | _, .poison => .poison
  | .nan, _ => .nan
  | _, .nan => .nan
  | .num n m e, .num n' m' e' => .num (n != n') (m * m') (e + e')
  | .inf n, .inf n' => .inf (n != n')
  | .inf n, .num n' m _ => if m = 0 then .nan else .inf (n != n')
  | .num n m _, .inf n' => if m = 0 then .nan else .inf (n != n')

/-- Enter a product into a sterling word (04 R91). -/
def Sterling.addProduct (s : Sterling) (p : Val) : Sterling :=
  match p with
  | .poison => { s with poison := true }
  | .nan => { s with nan := true }
  | .inf neg => if neg then { s with ninf := true } else { s with pinf := true }
  | .num neg m e =>
    if m = 0 then s
    else if 256 ≤ (log2Nat m : Int) + e then (if neg then { s with ninf := true } else { s with pinf := true })
    else
      let x : Int := if 0 ≤ e + 316 then (m : Int) * 2 ^ (e + 316).toNat else (m : Int) / 2 ^ (-(e + 316)).toNat
      { s with i := s.i + BitVec.ofInt 632 (if neg then -x else x) }

/-- Add two sterling words (04 R92). -/
def Sterling.add (a b : Sterling) : Sterling where
  i := a.i + b.i
  nan := a.nan || b.nan
  pinf := a.pinf || b.pinf
  ninf := a.ninf || b.ninf
  poison := a.poison || b.poison

/-- What a sterling word converts to (04 R94). -/
def Sterling.toVal (s : Sterling) : Val :=
  if s.poison then .poison
  else if s.nan || (s.pinf && s.ninf) then .nan
  else if s.pinf then .inf false
  else if s.ninf then .inf true
  else .num (decide (s.i.toInt < 0)) s.i.toInt.natAbs (-316)

/-- The 80 bytes of a sterling word (04 Table 4.7). -/
def Sterling.toNat (s : Sterling) : Nat :=
  s.i.toNat + b2n s.nan * 2 ^ 632 + b2n s.pinf * 2 ^ 633 + b2n s.ninf * 2 ^ 634 + b2n s.poison * 2 ^ 635
/-- A stored sterling word: reserved bits that are not 0 set poison (04 R90). -/
def Sterling.ofNat (x : Nat) : Sterling where
  i := BitVec.ofNat 632 x
  nan := natBit x 632
  pinf := natBit x 633
  ninf := natBit x 634
  poison := natBit x 635 || natBits x 636 4 != 0

/-! ### Sterling compact (04 R95 to R98) -/

/-- The integer sign-extended to 640 bits. -/
def Sterling.wide (s : Sterling) : BitVec 640 := s.i.signExtend 640
/-- Limb `k`. -/
def limbOf (x : BitVec 640) (k : Nat) : DWord := x.extractLsb' (64 * k) 64
/-- 64 copies of the sign. -/
def fillLimb (fill : Bool) : DWord := if fill then BitVec.allOnes 64 else 0

/-- A sterling compact value: the header's flags and fill, and the limbs present, by number (04 Table 4.8). -/
structure Compact where
  nan : Bool := false
  pinf : Bool := false
  ninf : Bool := false
  poison : Bool := false
  reserved : Bool := false
  fill : Bool := false
  /-- Limb k, where it is present. -/
  limbs : List (Option DWord) := []
deriving DecidableEq, Repr

/-- Number of limbs up to the highest that is not a copy of the sign: 0 when every limb is. -/
def sigLimbs (x : BitVec 640) (fill : Bool) : Nat → Nat
  | 0 => 0
  | k + 1 => if limbOf x k ≠ fillLimb fill then k + 1 else sigLimbs x fill k

/-- The canonical compact form (04 R97). -/
def Sterling.compact (s : Sterling) : Compact :=
  let x := s.wide
  let fill := x.msb
  let n := sigLimbs x fill 10
  { nan := s.nan, pinf := s.pinf, ninf := s.ninf, poison := s.poison, fill := fill,
    limbs := (upTo 10).map (fun k =>
      if k + 1 = n then some (limbOf x k)
      else if k + 1 < n ∧ limbOf x k ≠ 0 then some (limbOf x k) else none) }

/-- The number of limbs up to the highest present: 0 for none. -/
def topLimb (l : List (Option DWord)) : Nat → Nat
  | 0 => 0
  | k + 1 => if (l.getD k none).isSome then k + 1 else topLimb l k

/-- Limb `k` that a compact value stands for (04 R96). -/
def Compact.limb (c : Compact) (k : Nat) : DWord :=
  match c.limbs.getD k none with
  | some v => v
  | none => if k < topLimb c.limbs 10 then 0 else fillLimb c.fill

/-- The 640 bits from ten limbs. -/
def limbsWord (f : Nat → DWord) : BitVec 640 := BitVec.ofNat 640 ((upTo 10).foldr (fun k a => (f k).toNat + 2 ^ 64 * a) 0)

/-- Decode a compact value (04 R96, R98). -/
def Compact.decode (c : Compact) : Sterling :=
  let x := limbsWord c.limb
  let top := x.extractLsb' 631 9
  { i := x.truncate 632, nan := c.nan, pinf := c.pinf, ninf := c.ninf,
    poison := c.poison || c.reserved || (top != 0 && top != BitVec.allOnes 9) }

/-- Bytes of a compact value (04 R95). -/
def Compact.bytes (c : Compact) : List Byte :=
  let mask := (upTo 10).foldl (fun a k => a + b2n (c.limbs.getD k none).isSome * 2 ^ k) 0
  let hdr := mask + b2n c.fill * 2 ^ 10 + b2n c.nan * 2 ^ 11 + b2n c.pinf * 2 ^ 12 + b2n c.ninf * 2 ^ 13 +
    b2n c.poison * 2 ^ 14 + b2n c.reserved * 2 ^ 15
  leBytes hdr 2 ++ (upTo 10).flatMap (fun k => match c.limbs.getD k none with
    | some v => leBytes v.toNat 8
    | none => [])

/-- The present limbs that a mask names, taken in order from bytes. -/
def takeLimbs (mask : Nat) (bs : List Byte) : Nat → Nat → List (Option DWord)
  | _, 0 => []
  | k, n + 1 =>
    if natBit mask k then some (BitVec.ofNat 64 (fieldAt bs 0 8)) :: takeLimbs mask (bs.drop 8) (k + 1) n
    else none :: takeLimbs mask bs (k + 1) n

/-- A compact value from its bytes. -/
def Compact.ofBytes (bs : List Byte) : Compact :=
  let h := fieldAt bs 0 2
  { nan := natBit h 11, pinf := natBit h 12, ninf := natBit h 13, poison := natBit h 14, reserved := natBit h 15,
    fill := natBit h 10, limbs := takeLimbs h (bs.drop 2) 0 10 }

/-! ### Stochastic rounding (04 R103, R105) -/

/-- One round of sr_draw. -/
def srRound (seed w mul : Nat) (sh : Nat) (x : BitVec 64) : BitVec 64 :=
  let y := (x ^^^ (BitVec.ofNat 64 seed + BitVec.ofNat 64 w)) * BitVec.ofNat 64 mul
  y ^^^ (y >>> sh)

/-- sr_draw (04 R103, Table 4.10). -/
def srDraw (seed tensor index : Nat) : BitVec 64 :=
  let x0 : BitVec 64 := BitVec.ofNat 64 (tensor % 65536 * 2 ^ 48 + index % 2 ^ 48)
  let x1 := srRound seed 0 0x8B3E71D52C94A06F 31 x0
  let x2 := srRound seed 0x5E3AC9F10D74B862 0xC25A9F07E3B14D29 29 x1
  let x3 := srRound seed 0x2B9740E6A1C53D18 0xA7D416C85B3F92E1 32 x2
  srRound seed 0x7C08F3B5629ED14A 0x9F612DA8C47E0B35 27 x3

/-- The random bits of an element's rounding: bits [63:32] of its draw (04 R105). -/
def srBits (seed tensor index : Nat) : Nat := (srDraw seed tensor index).toNat / 2 ^ 32

end Sys2Proof.Machine
end

