-- ==== Sys2Proof/Machine/Flags.lean ====
section
/-! DEFINITION. Flag computations: the output-block flag record and its order-free merge (04 R99 to R101, 08 R207), and
the strict exception flags of a conversion (05 R115, R118). -/
namespace Sys2Proof.Machine

/-- Strict flags (04 Table 4.9): invalid, division by zero, overflow, underflow, inexact. -/
def flInvalid : BitVec 5 := 1
def flDivZero : BitVec 5 := 2
def flOverflow : BitVec 5 := 4
def flUnderflow : BitVec 5 := 8
def flInexact : BitVec 5 := 16

/-- `f` where the condition holds. -/
def flIf (b : Bool) (f : BitVec 5) : BitVec 5 := if b then f else 0

/-! ### Output-block flag records -/

/-- Merge two records (08 R207). -/
def FlagRec.merge (a b : FlagRec) : FlagRec where
  nanInf := a.nanInf || b.nanInf
  poison := a.poison || b.poison
  firstIsNan :=
    if a.nanFirst < b.nanFirst then a.firstIsNan
    else if b.nanFirst < a.nanFirst then b.firstIsNan else a.firstIsNan || b.firstIsNan
  strict := a.strict ||| b.strict
  nanFirst := min a.nanFirst b.nanFirst
  poisonFirst := min a.poisonFirst b.poisonFirst
  count := a.count + b.count

/-- The record of one element at position `pos` (04 R100). -/
def FlagRec.element (pos : Nat) (n : Note) : FlagRec :=
  match n with
  | .plain => { count := 1 }
  | .nan => { count := 1, nanInf := true, firstIsNan := true, nanFirst := pos }
  | .inf => { count := 1, nanInf := true, nanFirst := pos }
  | .poison => { count := 1, poison := true, poisonFirst := pos }

/-- The 16 bytes of a record (04 Table 4.9). -/
def FlagRec.bytes (r : FlagRec) : List Byte :=
  leBytes (b2n r.nanInf + b2n r.poison * 2 + b2n (r.firstIsNan && r.nanInf) * 4) 1 ++ leBytes r.strict.toNat 1 ++
    leBytes 0 2 ++ leBytes r.nanFirst 4 ++ leBytes r.poisonFirst 4 ++ leBytes r.count 4

/-! ### Conversions that raise strict flags -/

/-- Does the direction carry an overflow of the sign to an infinity (05 R115)? -/
def overflowsToInf (r : Rnd) (neg : Bool) : Bool :=
  match r with
  | .rtz => false
  | .rtp => !neg
  | .rtn => neg
  | _ => true

/-- Encode a value under a rounding-direction attribute, with the flags it raises (05 R112, R115). -/
def encodeStrict (f : Flt) (r : Rnd) (v : Val) : Nat × BitVec 5 :=
  match v with
  | .poison => (f.nanCode, 0)
  | .nan => (f.nanCode, 0)
  | .inf neg => if f.hasInf then (f.signBit neg + f.maxCode + 1, 0) else (f.nanCode, flInvalid)
  | .num neg m e =>
    if m = 0 then (f.signBit neg, 0)
    else
      let c := magCode f r neg m e false
      if c.1 ≤ f.maxCode then
        (f.signBit neg + c.1, flIf c.2 flInexact ||| flIf (c.2 && tinyAfter f r neg m e false) flUnderflow)
      else
        (if f.hasInf then f.signBit neg + f.maxCode + b2n (overflowsToInf r neg) else f.nanCode, flOverflow ||| flInexact)

/-- Replace a subnormal encoding by zero of the same sign (05 R119, R120). -/
def ftzCode (f : Flt) (code : Nat) : Nat :=
  if code % 2 ^ (f.eb + f.fb) < 2 ^ f.fb then code / 2 ^ (f.eb + f.fb) * 2 ^ (f.eb + f.fb) else code

/-- Is an encoding a NaN, or an infinity? -/
def codeIsNan (f : Flt) (code : Nat) : Bool := match decodeFlt f code with
  | .nan => true
  | _ => false

/-- How an element with value `v` and encoding `code` counts (04 R100). -/
def noteOf (f : Flt) (v : Val) (code : Nat) : Note :=
  match v with
  | .poison => .poison
  | .nan => .nan
  | .inf _ => if codeIsNan f code then .nan else .inf
  | .num _ _ _ => match decodeFlt f code with
    | .nan => .nan
    | .inf _ => .inf
    | _ => .plain

end Sys2Proof.Machine
end

