-- ==== Sys2Proof/Machine/Functions.lean ====
section
/-! DEFINITION. Arithmetic on values, exact before one rounding: sums, products, quotients, roots, comparisons, and the
functions of 05 Table 5.4.  A result that is not a finite binary fraction stands as a value with one bit more below its
kept bits, set, so that every rounding of it is that of the exact result. -/
namespace Sys2Proof.Machine

/-- Is the value below zero, or minus zero? -/
def valNeg : Val → Bool
  | .num n _ _ => n
  | .inf n => n
  | _ => false

/-- Is the value a zero? -/
def valZero : Val → Bool
  | .num _ m _ => m == 0
  | _ => false

/-- Is the value an infinity? -/
def valInf : Val → Bool
  | .inf _ => true
  | _ => false

/-- Is the value a NaN? -/
def valNan : Val → Bool
  | .nan => true
  | .poison => true
  | _ => false

/-- Change the sign. -/
def negVal : Val → Val
  | .num n m e => .num (!n) m e
  | .inf n => .inf (!n)
  | v => v

/-- The sign made plus. -/
def absVal : Val → Val
  | .num _ m e => .num false m e
  | .inf _ => .inf false
  | v => v

/-- A signed integer times 2^e. -/
def sigAt (neg : Bool) (m : Nat) (e lo : Int) : Int :=
  let x : Int := (m : Int) * 2 ^ (e - lo).toNat
  if neg then -x else x

/-- The exact sum; a zero sum of opposite signs is +0, or -0 where `down` (05 R117). -/
def addVal (down : Bool) (a b : Val) : Val :=
  match a, b with
  | .poison, _ => .poison
  | _, .poison => .poison
  | .nan, _ => .nan
  | _, .nan => .nan
  | .inf n, .inf n' => if n = n' then .inf n else .nan
  | .inf n, .num _ _ _ => .inf n
  | .num _ _ _, .inf n => .inf n
  | .num n m e, .num n' m' e' =>
    if m = 0 ∧ m' = 0 then .num (if n = n' then n else down) 0 0
    else if m = 0 then b
    else if m' = 0 then a
    else
      let lo := min e e'
      let x := sigAt n m e lo + sigAt n' m' e' lo
      if x = 0 then .num down 0 0 else .num (decide (x < 0)) x.natAbs lo

/-- A sum of opposite infinities is invalid. -/
def addInvalid (a b : Val) : Bool :=
  match a, b with
  | .inf n, .inf n' => n != n'
  | _, _ => false

/-- A product of a zero and an infinity is invalid. -/
def mulInvalid (a b : Val) : Bool := (valInf a && valZero b) || (valZero a && valInf b)

/-- a < b, a = b, a > b as -1, 0, 1, or none when unordered. -/
def cmpVal (a b : Val) : Option Int :=
  match a, b with
  | .num n m e, .num n' m' e' =>
    let lo := min e e'
    some (sigAt n m e lo - sigAt n' m' e' lo).sign
  | .inf n, .inf n' => some (if n = n' then 0 else if n then -1 else 1)
  | .inf n, .num _ _ _ => some (if n then -1 else 1)
  | .num _ _ _, .inf n => some (if n then 1 else -1)
  | _, _ => none

/-- minimum and maximum of IEEE 754-2019: a NaN wins, and -0 lies below +0. -/
def minMax (isMax : Bool) (a b : Val) : Val :=
  match cmpVal a b with
  | none => .nan
  | some c =>
    let aFirst := if c = 0 then valNeg a else decide (c < 0)
    if aFirst != isMax then a else b

/-- minimumNumber and maximumNumber: a NaN loses against a number. -/
def minMaxNum (isMax : Bool) (a b : Val) : Val :=
  if valNan a then b else if valNan b then a else minMax isMax a b

/-- The condition of VCMP (06 Table 6.8), and whether it is invalid. -/
def cmpHolds (cond : Nat) (a b : Val) : Bool × Bool :=
  let c := cmpVal a b
  (match cond with
   | 0 => c == some 0
   | 1 => c != some 0
   | 2 => c == some (-1)
   | 3 => c == some (-1) || c == some 0
   | 4 => c == none
   | 5 => c == some (-1)
   | _ => c == some (-1) || c == some 0,
   (cond == 5 || cond == 6) && c.isNone)

/-- Round to an integer in a direction, keeping the sign of a zero result. -/
def rndInt (r : Rnd) (v : Val) : Val :=
  match v with
  | .num n m e => .num n (roundAt r n m e false 0).1 0
  | x => x

/-- A value strictly between m * 2^e and (m + 1) * 2^e. -/
def between (neg : Bool) (m : Nat) (e : Int) : Val := .num neg (2 * m + 1) (e - 1)

/-- m * 2^e, or a little more when `more`. -/
def valMore (neg : Bool) (m : Nat) (e : Int) (more : Bool) : Val := if more then between neg m e else .num neg m e

/-! ### Quotients and roots -/

/-- The quotient of finite values, the divisor not zero. -/
def quotient (n : Bool) (m : Nat) (e : Int) (n' : Bool) (m' : Nat) (e' : Int) : Val :=
  if m = 0 then .num (n != n') 0 0
  else
    let k := 256 + log2Nat m'
    let x := m * 2 ^ k
    valMore (n != n') (x / m') (e - e' - k) (x % m' != 0)

/-- floor(sqrt n), with a bound on the digits. -/
def isqrt : Nat → Nat → Nat
  | 0, _ => 0
  | k + 1, n =>
    let r := 2 * isqrt k (n / 4)
    if (r + 1) * (r + 1) ≤ n then r + 1 else r

/-- The square root of a positive finite value. -/
def sqrtPos (m : Nat) (e : Int) : Val :=
  let k := 520 + (e % 2).toNat
  let x := m * 2 ^ k
  let r := isqrt (log2Nat x / 2 + 2) x
  valMore false r ((e - k) / 2) (r * r != x)

/-- The reciprocal of the square root of a positive finite value. -/
def rsqrtPos (m : Nat) (e : Int) : Val :=
  -- m * 2^e with e even: 1/sqrt = sqrt(2^(2k) / m) * 2^(-k - e/2)
  let m := m * 2 ^ (e % 2).toNat
  let e := e - e % 2
  let k := 300 + log2Nat m
  let x := 2 ^ (2 * k) / m
  let r := isqrt (log2Nat x / 2 + 2) x
  valMore false r (-(k : Int) - e / 2) (r * r * m != 2 ^ (2 * k))

/-! ### Transcendental functions in fixed point, 400 fraction bits -/

/-- Fraction bits. -/
def fixP : Nat := 400
def fixOne : Nat := 2 ^ fixP

/-- The terms z^(2n+1) / (2n+1) of atanh, z scaled. -/
def atanhSum (z2 : Nat) : Nat → Nat → Nat → Nat
  | 0, _, _ => 0
  | k + 1, p, d => p / d + atanhSum z2 k (p * z2 / fixOne) (d + 2)

/-- atanh of z in [0, 1/3], scaled. -/
def fixAtanh (z : Nat) : Nat := atanhSum (z * z / fixOne) 130 z 1

/-- ln 2, scaled. -/
def fixLn2 : Nat := 2 * fixAtanh (fixOne / 3)

/-- The terms r^n / n! of exp, r scaled. -/
def expSum (r : Nat) : Nat → Nat → Nat → Nat
  | 0, _, _ => 0
  | k + 1, t, n => t + expSum r k (t * r / fixOne / (n + 1)) (n + 1)

/-- exp of r in [0, 1), scaled. -/
def fixExp (r : Nat) : Nat := expSum r 90 fixOne 0

/-- ln of r in [1, 2), scaled. -/
def fixLn (r : Nat) : Nat := 2 * fixAtanh ((r - fixOne) * fixOne / (r + fixOne))

/-- A scaled positive quantity, good to 360 bits, times 2^e: its kept bits and one more, set. -/
def fixVal (neg : Bool) (x : Nat) (e : Int) : Val := between neg (x / 2 ^ 40) (e - fixP + 40)

/-- A value of magnitude below 2^15, scaled and rounded down; larger ones clamped. -/
def toFix (neg : Bool) (m : Nat) (e : Int) : Int :=
  if m = 0 then 0
  else if 15 ≤ (log2Nat m : Int) + e then (if neg then -(2 ^ 15 * fixOne : Nat) else (2 ^ 15 * fixOne : Nat))
  else
    let x : Int := if neg then -(m : Int) else m
    if 0 ≤ e + fixP then x * 2 ^ (e + fixP).toNat else x / 2 ^ (-(e + fixP)).toNat

/-- A value a little above (or below) one times 2^e. -/
def nearOne (below : Bool) (e : Int) : Val := if below then .num false (2 ^ 201 - 1) (e - 201) else .num false (2 ^ 201 + 1) (e - 201)

/-- Is the magnitude below 2^-k? -/
def tinyMag (m : Nat) (e : Int) (k : Nat) : Bool := decide ((log2Nat m : Int) + e < -(k : Int))

/-- exp of a scaled quantity: scaled significand and exponent. -/
def expFix (x : Int) : Nat × Int :=
  let k := x / (fixLn2 : Int)
  (fixExp (x - k * fixLn2).toNat, k)

/-- e^x for finite x. -/
def expFin (neg : Bool) (m : Nat) (e : Int) : Val :=
  if m = 0 then .num false 1 0
  else if tinyMag m e 100 then nearOne neg 0
  else
    let y := expFix (toFix neg m e)
    fixVal false y.1 y.2

/-- 2^x for finite x. -/
def exp2Fin (neg : Bool) (m : Nat) (e : Int) : Val :=
  if m = 0 then .num false 1 0
  else if tinyMag m e 100 then nearOne neg 0
  else
    let x := toFix neg m e
    let n := x / (fixOne : Int)
    let f := (x % (fixOne : Int)).toNat
    if f = 0 then .num false 1 n else fixVal false (fixExp (f * fixLn2 / fixOne)) n

/-- ln of a positive finite value, scaled. -/
def lnFix (m : Nat) (e : Int) : Int :=
  let top := log2Nat m
  ((top : Int) + e) * fixLn2 + (fixLn (m * fixOne / 2 ^ top) : Int)

/-- ln x for positive finite x. -/
def lnFin (m : Nat) (e : Int) : Val :=
  let top := log2Nat m
  if m = 2 ^ top ∧ (top : Int) + e = 0 then .num false 0 0
  else
    let y := lnFix m e
    fixVal (decide (y < 0)) y.natAbs 0

/-- log2 x for positive finite x. -/
def log2Fin (m : Nat) (e : Int) : Val :=
  let top := log2Nat m
  if m = 2 ^ top then valInt ((top : Int) + e)
  else
    let y := lnFix m e * fixOne / (fixLn2 : Int)
    fixVal (decide (y < 0)) y.natAbs 0

/-- 2^-k applied to a scaled quantity. -/
def shiftFix (y : Nat × Int) : Nat := if 0 ≤ y.2 then y.1 * 2 ^ y.2.toNat else y.1 / 2 ^ (min (-y.2).toNat 100000)

/-- tanh x for finite x. -/
def tanhFin (neg : Bool) (m : Nat) (e : Int) : Val :=
  if m = 0 then .num neg 0 0
  else if tinyMag m e 70 then .num neg (m * 2 ^ 61 - 1) (e - 61)
  else if 7 ≤ (log2Nat m : Int) + e then .num neg (2 ^ 201 - 1) (-201)
  else
    let t := shiftFix (expFix (-(2 * toFix false m e)))
    fixVal neg ((fixOne - t) * fixOne / (fixOne + t)) 0

/-- 1 / (1 + e^-x) for finite x. -/
def sigmoidFin (neg : Bool) (m : Nat) (e : Int) : Val :=
  if m = 0 then .num false 1 (-1)
  else if tinyMag m e 100 then nearOne neg (-1)
  else
    let y := expFix (-(toFix false m e))
    if neg then fixVal false (y.1 * fixOne / (fixOne + shiftFix y)) y.2
    else if 8 ≤ (log2Nat m : Int) + e then nearOne true 0
    else fixVal false (fixOne * fixOne / (fixOne + shiftFix y)) 0

/-! ### The functions of 05 Table 5.4 -/

/-- The value is 1. -/
def valOne (v : Val) : Bool :=
  match v with
  | .num n m e => !n && m != 0 && decide (m = 2 ^ log2Nat m) && decide ((log2Nat m : Int) + e = 0)
  | _ => false

/-- Special operands: result and flags, or none for an ordinary operand (05 Table 5.4). -/
def funSpecial (fn : Nat) (a b : Val) : Option (Val × BitVec 5) :=
  if valNan a || (fn == 0 && valNan b) then some (.nan, 0)
  else match fn with
  | 0 =>
    if valZero b then
      (if valZero a then some (.nan, flInvalid)
       else if valInf a then some (.inf (valNeg a != valNeg b), 0)
       else some (.inf (valNeg a != valNeg b), flDivZero))
    else if valInf a && valInf b then some (.nan, flInvalid)
    else if valInf a then some (.inf (valNeg a != valNeg b), 0)
    else if valInf b then some (.num (valNeg a != valNeg b) 0 0, 0)
    else none
  | 1 =>
    if valZero a then some (.inf (valNeg a), flDivZero)
    else if valInf a then some (.num (valNeg a) 0 0, 0) else none
  | 2 =>
    if valZero a then some (a, 0)
    else if valNeg a then some (.nan, flInvalid)
    else if valInf a then some (a, 0) else none
  | 3 =>
    if valZero a then some (.inf (valNeg a), flDivZero)
    else if valNeg a then some (.nan, flInvalid)
    else if valInf a then some (.num false 0 0, 0) else none
  | 4 => if valInf a then some (if valNeg a then .num false 0 0 else a, 0) else none
  | 5 => if valInf a then some (if valNeg a then .num false 0 0 else a, 0) else none
  | 6 =>
    if valZero a then some (.inf true, flDivZero)
    else if valNeg a then some (.nan, flInvalid)
    else if valInf a then some (a, 0)
    else if valOne a then some (.num false 0 0, 0) else none
  | 7 =>
    if valZero a then some (.inf true, flDivZero)
    else if valNeg a then some (.nan, flInvalid)
    else if valInf a then some (a, 0)
    else if valOne a then some (.num false 0 0, 0) else none
  | 8 => if valInf a then some (.num (valNeg a) 1 0, 0) else if valZero a then some (a, 0) else none
  | _ => if valInf a then some (if valNeg a then .num false 0 0 else .num false 1 0, 0) else none

/-- The special results that Table 5.4 itself lists, which a lineage function takes: of a division only those of a zero
divisor and of two infinities. -/
def lineageSpecial (fn : Nat) (a b : Val) : Option (Val × BitVec 5) :=
  if fn = 0 ∧ (valInf a != valInf b || (valInf a && valZero b)) ∧ !(valNan a || valNan b) then none else funSpecial fn a b

/-- The exact value of a function at ordinary operands (05 R111, R117). -/
def funExact (fn : Nat) (a b : Val) : Val :=
  match a with
  | .num n m e =>
    match fn with
    | 0 => match b with
      | .num n' m' e' => quotient n m e n' m' e'
      | _ => .nan
    | 1 => quotient false 1 0 n m e
    | 2 => sqrtPos m e
    | 3 => rsqrtPos m e
    | 4 => expFin n m e
    | 5 => exp2Fin n m e
    | 6 => lnFin m e
    | 7 => log2Fin m e
    | 8 => tanhFin n m e
    | _ => sigmoidFin n m e
  | v => v

end Sys2Proof.Machine
end

