-- ==== Sys2Proof/Machine/Arith.lean ====
section
/-! DEFINITION. The four numeric modes (chapter 05): rounding and flushing by mode, the functions of each mode, the
reductions in each mode's order, and the conversion of a result into an output format. -/
namespace Sys2Proof.Machine

/-- The numeric mode of a section (05 Table 5.1) and its rounding-direction attribute (Table 5.5). -/
structure NumCtx where
  mode : Nat
  rnd : Rnd
deriving DecidableEq, Repr

/-- The numeric modes. -/
def mFast : Nat := 0
def mStrict : Nat := 1
def mLn1 : Nat := 2
def mLn2 : Nat := 3

/-- Round a result into a format by the mode, with the flags it raises (05 R110, R115, R125). -/
def finish (c : NumCtx) (f : Flt) (v : Val) : Nat × BitVec 5 :=
  if c.mode = mFast then ((encodeFlt f .rne false v).1, 0)
  else if c.mode = mStrict then encodeStrict f c.rnd v
  else if c.mode = mLn1 then (ftzCode f (encodeStrict f .rne v).1, 0)
  else ((encodeStrict f .rne v).1, 0)

/-- Replace an operand that is subnormal in its source format by zero of its sign, in LINEAGE_LN1 (05 R119, R125). -/
def flushIn (c : NumCtx) (fmt code : Nat) (v : Val) : Val :=
  if c.mode = mLn1 then
    match fmtFlt fmt, v with
    | some f, .num n _ _ => if code % 2 ^ (f.eb + f.fb) < 2 ^ f.fb then .num n 0 0 else v
    | _, _ => v
  else v

/-- Decode an operand in a mode. -/
def operand (c : NumCtx) (fmt code scale : Nat) : Val := flushIn c fmt code (decodeElem fmt code scale)

/-- A result rounded to FP32 by the mode, as a value. -/
def rd32 (c : NumCtx) (v : Val) : Val := decodeFlt fltFP32 (finish c fltFP32 v).1

/-- A zero sum of opposite signs is -0: STRICT toward negative (05 R117). -/
def sumDown (c : NumCtx) : Bool := c.mode == mStrict && c.rnd == .rtn

/-! ### Lineage functions (05 R126, R127) -/

/-- Entries of a lineage table. -/
def lnEntries (c : NumCtx) : Nat := if c.mode = mLn1 then 128 else 256

/-- The size of a lineage table image: four functions of N entries of three 4-byte coefficients (05 Table 5.9). -/
def lineageSize (ln2 : Bool) : Nat := if ln2 then 12288 else 6144
/-- The check code of a lineage table image (05 Table 5.9). -/
def lineageCrc (ln2 : Bool) : Word := if ln2 then 0x1B7A3F08 else 0x6D2E91C4
/-- A lineage table image (05 R128). -/
def lineageImage (ln2 : Bool) : List Byte := (upTo (lineageSize ln2)).map (Config.lineageByte ln2)
/-- The image is the published one: its CRC-32C is the check code (05 R128). -/
def lineageGenuine (ln2 : Bool) : Prop := crc32c (lineageImage ln2) = lineageCrc ln2
/-- Where the image holds coefficient `k` of entry `j` of function `fn` (0 recip, 1 rsqrt, 2 exp2, 3 log2). -/
def lineageAt (n fn j k : Nat) : Nat := 4 * (3 * (n * fn + j) + k)

/-- A coefficient: a little-endian FP32 of the mode's image (05 R128). -/
def lnCoef (c : NumCtx) (fn j k : Nat) : Val :=
  let a := lineageAt (lnEntries c) fn j k
  decodeFlt fltFP32 (leNat ((upTo 4).map (fun i => Config.lineageByte (c.mode == mLn2) (a + i))))

/-- The polynomial of step 4. -/
def lnPoly (c : NumCtx) (fn j : Nat) (t : Val) : Val :=
  let c0 := lnCoef c fn j 0
  let c1 := lnCoef c fn j 1
  let c2 := lnCoef c fn j 2
  if c.mode = mLn1 then
    rd32 c (addVal false c0 (rd32 c (mulVal t (rd32 c (addVal false c1 (rd32 c (mulVal t c2)))))))
  else rd32 c (addVal false (mulVal t (rd32 c (addVal false (mulVal t c2) c1))) c0)

/-- The scaling of step 5: what lies below the normal range is flushed in LN1, and rounded to a subnormal in LN2. -/
def lnScale (c : NumCtx) (v : Val) (k : Int) : Val :=
  match scaleVal v k with
  | .num n m e =>
    if m != 0 && c.mode == mLn1 && decide ((log2Nat m : Int) + e < -126) then .num n 0 0 else rd32 c (.num n m e)
  | x => rd32 c x

/-- The base functions of R126 at a finite non-zero operand in their domain: 0 recip, 1 rsqrt, 2 exp2, 3 log2. -/
def lnBase (c : NumCtx) (fn : Nat) (neg : Bool) (m : Nat) (e : Int) : Val :=
  let n := lnEntries c
  let top := log2Nat m
  match fn with
  | 0 =>
    let j := (m - 2 ^ top) * n / 2 ^ top
    let y := lnPoly c 0 j (.num false (m * n - (n + j) * 2 ^ top) (-(top : Int) - log2Nat n))
    let r := lnScale c y (-(top + e))
    if neg then negVal r else r
  | 1 =>
    let m2 := 2 * m
    let e2 := e - 1
    let tt := top + 1
    -- x = r * 2^E with E even and r = m2 / 2^s in [1, 4)
    let ev := ((tt : Int) + e2) - ((tt : Int) + e2) % 2
    let s := (ev - e2).toNat
    let j := (m2 - 2 ^ s) * n / (3 * 2 ^ s)
    let y := lnPoly c 1 j (.num false (m2 * n - (n + 3 * j) * 2 ^ s) (-(s : Int) - log2Nat n))
    lnScale c y (-(ev / 2))
  | 2 =>
    let x : Int := if neg then -(m : Int) else m
    let fl : Int × Nat × Nat :=   -- floor, remainder, and the remainder's fraction bits
      if 0 ≤ e then (x * 2 ^ (min e 40).toNat, 0, 0)
      else (x / 2 ^ (-e).toNat, (x % 2 ^ (-e).toNat).toNat, (-e).toNat)
    let j := fl.2.1 * n / 2 ^ fl.2.2
    let y := lnPoly c 2 j (.num false (fl.2.1 * n - j * 2 ^ fl.2.2) (-(fl.2.2 : Int) - log2Nat n))
    lnScale c y (clampInt (-4096) 4096 fl.1)
  | _ =>
    let j := (m - 2 ^ top) * n / 2 ^ top
    let y := lnPoly c 3 j (.num false (m * n - (n + j) * 2 ^ top) (-(top : Int) - log2Nat n))
    rd32 c (addVal false y (valInt (top + e)))

/-- A base function at any operand: the special results of Table 5.4, or R126.  `fn` as in 06 Table 6.8. -/
def lnFun (c : NumCtx) (fn : Nat) (x : Val) : Val :=
  match funSpecial fn x x with
  | some r => r.1
  | none =>
    match x with
    | .num n m e =>
      if m = 0 then lnPoly c 2 0 (.num false 0 0)
      else lnBase c (if fn = 1 then 0 else if fn = 3 then 1 else if fn = 5 then 2 else 3) n m e
    | v => v

/-- An FP32 constant. -/
def fp32c (x : Nat) : Val := decodeFlt fltFP32 x

/-- The product and the sum of R125. -/
def lnMul (c : NumCtx) (a b : Val) : Val := rd32 c (mulVal a b)
def lnAdd (c : NumCtx) (a b : Val) : Val := rd32 c (addVal false a b)

/-- The lineage functions (05 R126, R127): the special operands that Table 5.4 lists take its results whatever the composition
of Table 5.8 gives (DEDUCED, log 140), every other operand the composition's. -/
def lineageFun (c : NumCtx) (fn : Nat) (a b : Val) : Val :=
  match lineageSpecial fn a b with
  | some r => r.1
  | none =>
    match fn with
    | 0 => lnMul c a (lnFun c 1 b)
    | 1 => lnFun c 1 a
    | 2 => lnMul c a (lnFun c 3 a)
    | 3 => lnFun c 3 a
    | 4 => lnFun c 5 (lnMul c a (fp32c 0x3FB8AA3B))
    | 5 => lnFun c 5 a
    | 6 => lnMul c (lnFun c 7 a) (fp32c 0x3F317218)
    | 7 => lnFun c 7 a
    | 8 => lnAdd c (valInt 1)
        (negVal (lnMul c (valInt 2) (lnFun c 1 (lnAdd c (lnFun c 5 (lnMul c a (fp32c 0x4038AA3B))) (valInt 1)))))
    | _ => lnFun c 1 (lnAdd c (valInt 1) (lnFun c 5 (lnMul c (negVal a) (fp32c 0x3FB8AA3B))))

/-- A function in any mode: the encoding and the flags it raises (05 R111, R117, R126). -/
def vecFun (c : NumCtx) (f : Flt) (fn : Nat) (a b : Val) : Nat × BitVec 5 :=
  if c.mode = mLn1 ∨ c.mode = mLn2 then finish c f (lineageFun c fn a b)
  else
    match funSpecial fn a b with
    | some r => let x := finish c f r.1; (x.1, if c.mode = mStrict then x.2 ||| r.2 else 0)
    | none => finish c f (funExact fn a b)

/-! ### Reductions (05 R113, R119, R121, R123, R148) -/

/-- The FP32 word of a value rounded by the mode, with the flags. -/
def rdWord (c : NumCtx) (v : Val) : Word × BitVec 5 :=
  let x := finish c fltFP32 v
  (BitVec.ofNat 32 x.1, x.2)
/-- The value of an FP32 word. -/
def wordVal (w : Word) : Val := decodeFlt fltFP32 w.toNat

/-- Merge equal subtrees of a TREE reduction, as a binary counter carries: `n` terms are in the tree, and `lanes` holds
the subtrees, the smallest first. -/
def treePush (c : NumCtx) (lanes : List Word) (n : Nat) (v : Word) (fl : BitVec 5) : List Word × BitVec 5 :=
  match lanes with
  | [] => ([v], fl)
  | l :: r =>
    if n % 2 = 1 then
      let x := rdWord c (addVal (sumDown c) (wordVal l) (wordVal v))
      treePush c r (n / 2) x.1 (fl ||| x.2 ||| flIf (addInvalid (wordVal l) (wordVal v)) flInvalid)
    else (v :: lanes, fl)

/-- One more term of a STRICT reduction: the product of `a` and `b` (05 R113). -/
def strictFeed (c : NumCtx) (x : Acc) (a b : Val) : Acc :=
  let p := mulVal a b
  let pInv := flIf (mulInvalid a b) flInvalid
  let start : Word × BitVec 5 := rdWord c p
  let fused (s : Word) : Word × BitVec 5 :=
    let y := rdWord c (addVal (sumDown c) p (wordVal s))
    (y.1, y.2 ||| flIf (addInvalid p (wordVal s)) flInvalid)
  let y : List Word × BitVec 5 :=
    match x.order with
    | 1 => treePush c x.lanes x.terms start.1 start.2
    | 2 =>
      if x.terms % 2 ^ x.blockLog2 = 0 then
        match x.lanes with
        | [cur, tot] =>
          let z := rdWord c (addVal (sumDown c) (wordVal tot) (wordVal cur))
          ([start.1, z.1], start.2 ||| z.2 ||| flIf (addInvalid (wordVal tot) (wordVal cur)) flInvalid)
        | [cur] => ([start.1, cur], start.2)
        | _ => ([start.1], start.2)
      else
        match x.lanes with
        | cur :: r => let z := fused cur; (z.1 :: r, z.2)
        | [] => ([start.1], start.2)
    | _ =>
      match x.lanes with
      | cur :: _ => let z := fused cur; ([z.1], z.2)
      | [] => ([start.1], start.2)
  { x with lanes := y.1, terms := x.terms + 1, flags := x.flags ||| y.2 ||| pInv }

/-- Sum the subtrees or blocks that remain, the smallest or latest first, into `w`. -/
def strictFoldInto (c : NumCtx) (w : Word) (fl : BitVec 5) : List Word → Word × BitVec 5
  | [] => (w, fl)
  | l :: r =>
    let x := rdWord c (addVal (sumDown c) (wordVal l) (wordVal w))
    strictFoldInto c x.1 (fl ||| x.2 ||| flIf (addInvalid (wordVal l) (wordVal w)) flInvalid) r

/-- The value of a STRICT reduction; of no terms, +0 (05 R113). -/
def strictFold (c : NumCtx) : List Word → Word × BitVec 5
  | [] => (0, 0)
  | w :: r => strictFoldInto c w 0 r

/-- Lanes of a lineage accumulator (05 R119, R121). -/
def lnLanes (c : NumCtx) : Nat := if c.mode = mLn1 then 4 else 16

/-- Lane `k`, +0 before anything is added. -/
def laneAt (x : Acc) (k : Nat) : Word := x.lanes.getD k 0
/-- Set lane `k` of `n`. -/
def setLane (x : Acc) (n k : Nat) (w : Word) : Acc :=
  { x with lanes := (upTo n).map (fun i => if i = k then w else laneAt x i) }

/-- One more term of a lineage reduction (05 R119, R121, R123). -/
def lineageFeed (c : NumCtx) (x : Acc) (a b : Val) : Acc :=
  let x1 := { x with terms := x.terms + 1 }
  let p := mulVal a b
  if x.integ then
    match p with
    | .num n m e => { x1 with lanes := [laneAt x 0 + BitVec.ofInt 32 (nearest n m e 0)] }
    | _ => x1
  else if c.mode = mLn1 then
    let k := x.terms % 4
    setLane x1 4 k (rdWord c (addVal false (wordVal (laneAt x k)) (rd32 c p))).1
  else
    let k := x.terms % 16
    if x.terms / 16 % 2 = 0 then { x1 with held := x.held.filter (fun h => h.1 != k) ++ [(k, p)] }
    else
      let first := ((x.held.find? (fun h => h.1 == k)).map Prod.snd).getD (.num false 0 0)
      let q := rd32 c (addVal false first p)
      setLane { x1 with held := x.held.filter (fun h => h.1 != k) } 16 k
        (rdWord c (addVal false (wordVal (laneAt x k)) q)).1

/-- The last elements that stand alone are rounded and added to their lanes (05 R121). -/
def settleHeld (c : NumCtx) (x : Acc) : Acc :=
  x.held.foldl (fun x h => setLane x 16 h.1 (rdWord c (addVal false (wordVal (laneAt x h.1)) (rd32 c h.2))).1)
    { x with held := [] }

/-- Pairwise sums of a list of lanes. -/
def pairUp (c : NumCtx) : List Word → List Word
  | a :: b :: r => (rdWord c (addVal false (wordVal a) (wordVal b))).1 :: pairUp c r
  | l => l

/-- The value of a lineage accumulator: the lane combination of R119 or R121. -/
def lineageValue (c : NumCtx) (x : Acc) : Word :=
  if x.integ then laneAt x 0
  else if c.mode = mLn1 then
    ((pairUp c (pairUp c ((upTo 4).map (laneAt x))))).headD 0
  else
    let y := settleHeld c x
    (pairUp c (pairUp c (pairUp c (pairUp c ((upTo 16).map (laneAt y)))))).headD 0

/-- A new accumulator for a reduction: its order, from the output setting (05 R113), and whether both operands are INT8
(R123). -/
def accStart (c : NumCtx) (x : Acc) (order blockLog2 : Nat) (integ : Bool) : Acc :=
  if x.terms = 0 ∧ x.lanes = [] then
    { x with order := order, blockLog2 := blockLog2, integ := integ && (c.mode == mLn1 || c.mode == mLn2) }
  else x

/-- The accumulator carries poison. -/
def Acc.isPoison (x : Acc) : Bool := x.poison || x.st.poison

/-- Present one term to an accumulator (06 R145, R148). -/
def accFeed (c : NumCtx) (x : Acc) (a b : Val) : Acc :=
  if c.mode = mFast then { x with st := x.st.addProduct (mulVal a b), terms := x.terms + 1 }
  else if c.mode = mStrict then strictFeed c x a b
  else lineageFeed c x a b

/-- The value that an accumulator converts from, with the flags raised so far (04 R94, 05 R113). -/
def accValue (c : NumCtx) (x : Acc) : Val × BitVec 5 :=
  if c.mode = mFast then (x.st.toVal, 0)
  else if x.poison then (.poison, x.flags)
  else if c.mode = mStrict then
    let y := strictFold c x.lanes
    (wordVal y.1, x.flags ||| y.2)
  else if x.integ then (valInt (laneAt x 0).toInt, 0)
  else (wordVal (lineageValue c x), 0)

/-- The FP32 words that TPART sends (06 R148): the lanes in the lineage modes, and in STRICT the current value, +0 before any
term.  Under BLOCKED the current value is the sum that the blocks so far give; R148 names no state for TREE, of which the
subtrees not yet joined are sent, the smallest first (DESIGN CHOICE, log 141). -/
def accWords (c : NumCtx) (x : Acc) : List Word :=
  if c.mode = mStrict then (if x.order = 1 ∧ x.lanes ≠ [] then x.lanes else [(strictFold c x.lanes).1])
  else if x.integ then [laneAt x 0]
  else
    let y := if c.mode = mLn2 then settleHeld c x else x
    (upTo (lnLanes c)).map (laneAt y)

/-! ### Conversion into an output format (04 R86, R94, 05 R112, R120, R122, R123) -/

/-- Convert a value into a scalar format: the code, how it counts, and the flags. -/
def convertOut (c : NumCtx) (fmt : Nat) (r : Rnd) (sat : Bool) (v : Val) : Nat × Note × BitVec 5 :=
  if c.mode = mFast then let x := encodeElem fmt r sat v; (x.1, x.2, 0)
  else
    match fmtFlt fmt with
    | some f =>
      let v1 := match v with
        | .poison => Val.nan
        | w => w
      let x := finish c f v1
      (x.1, noteOf f v x.1, x.2)
    | none => let x := encodeElem fmt .rne false v; (x.1, x.2, 0)

end Sys2Proof.Machine
end

