-- ==== Sys2Proof/Machine/Fabric.lean ====
section
/-! DEFINITION. What the units of the fabric share: the live configuration registers, the settings frames, signal
attachments, the making, injection and arrival of packets, and seams (chapters 08, 09, 11). -/
namespace Sys2Proof.Machine

/-! ### Live configuration registers (11 Table 11.6, R271) -/

/-- The numeric mode and attribute of the section on region `r` (CREG_MODE). -/
def regCtx (s : State) (r : Nat) : NumCtx := ⟨creg s r 1 % 256, rndOf (creg s r 1 / 256 % 256)⟩
/-- CREG_SECTION_TAG. -/
def regTag (s : State) (r : Nat) : Nat := creg s r 2 % 65536
/-- CREG_SEED. -/
def regSeed (s : State) (r : Nat) : Nat := creg s r 3 + creg s r 4 * 2 ^ 32
/-- The region's live registers hold: SEALED or ROLLING (11 Table 11.7). -/
def regionLive (s : State) (r : Nat) : Bool := (s.regionOf r).st == .sealed || (s.regionOf r).st == .rolling

/-! ### Compute-tile settings (11 Table 11.3) -/

/-- Inlet n: kind, source, contributors, red_id. -/
def inKind (s : State) (t n : Nat) : Nat := s.frameW t 65 (16 * n) % 8
def inSrc (s : State) (t n : Nat) : Nat := s.frameW t 65 (16 * n + 1) % 8192
def inContrib (s : State) (t n : Nat) : Nat := s.frameW t 65 (16 * n + 2) % 65536
def inRed (s : State) (t n : Nat) : Nat := s.frameW t 65 (16 * n + 3) % 4096
/-- Outlet n: destination, port, REDUCE, comb. -/
def outWord (s : State) (t n : Nat) : Nat := s.frameW t 66 (16 * n)
def outDst (s : State) (t n : Nat) : Nat := outWord s t n % 8192
def outPort (s : State) (t n : Nat) : Nat := natBits (outWord s t n) 16 6
def outRedKind (s : State) (t n : Nat) : Bool := natBit (outWord s t n) 24
def outComb (s : State) (t n : Nat) : Bool := natBit (outWord s t n) 25
/-- Holds the ICP; latch ports enabled, latch outlet and inlet. -/
def icpHolder (s : State) (t : Nat) : Bool := natBit (s.frameW t 64 16) 0
def latchEn (s : State) (t : Nat) : Bool := natBit (s.frameW t 64 16) 1
def latchOutlet (s : State) (t : Nat) : Nat := natBits (s.frameW t 64 16) 2 2
def latchInlet (s : State) (t : Nat) : Nat := natBits (s.frameW t 64 16) 4 2
/-- Word `w` of live output setting `k` (12 Table 12.7). -/
def osetW (s : State) (t k w : Nat) : Nat := s.frameW t 67 (8 * k + w)

/-- The ingot of a section. -/
def secImage (s : State) (x : Section) : List Byte :=
  match (s.leaseOf x.lease).slots.get none x.slot with
  | some k => k.image
  | none => []

/-- The stream index of output setting `k` of tile `t` in its section (12 R301). -/
def osetIndex (s : State) (t k : Nat) : Nat :=
  match s.secOf (s.tileOf t).sec with
  | some x => x.osets.get 0 (8 * t + k) - 1
  | none => 0
/-- The place of a tile in its section's footprint, which no placement changes: 128 times the footprint index of its region,
plus its place in the region. -/
def footPlace (s : State) (t : Nat) : Nat :=
  let p := match s.secOf (s.tileOf t).sec with
    | some x => ((x.placed.find? (fun e => e.2 == tileRegion t)).map Prod.fst).getD 0
    | none => 0
  128 * p + 8 * (tileX t % 9) + tileY t % 8

/-! ### Signal attachments (09 Table 9.3) -/

/-- A signal attachment. -/
structure Sig where
  mode : Nat := 0
  atEnd : Bool := false
  period : Nat := 1
  tally : Nat := 0
  amount : Nat := 0
  dst : Nat := 0
deriving DecidableEq, Repr

/-- A signal attachment from its three 32-bit words. -/
def sigOf (w1 w2 w3 : Nat) : Sig where
  mode := w1 % 4
  atEnd := natBit w1 2
  period := natBits w1 16 16 + 1
  tally := w2 % 4096
  amount := natBits w2 16 16
  dst := w3 % 8192
/-- The attachment of outlet `n`. -/
def outSig (s : State) (t n : Nat) : Sig :=
  sigOf (s.frameW t 66 (16 * n + 1)) (s.frameW t 66 (16 * n + 2)) (s.frameW t 66 (16 * n + 3))
/-- The attachment of a stream: descriptor words 9 and 10. -/
def descSig (d : SDesc) : Sig := sigOf (descW d 9 0 32) (descW d 9 32 32) (descW d 10 0 16)

/-- A signal goes with entry number `n` (09 R219). -/
def sigDue (g : Sig) (n : Nat) : Bool := g.mode != 0 && n % g.period == 0
/-- The signal packet behind a packet: STALLY to the same port, or TALLY_SIG to sig_dst; none for TAIL (09 R220, R221). -/
def sigPacket (g : Sig) (p : Packet) : List Packet :=
  if g.mode = 1 then
    [{ p with kind := 2, close := false, release := false, sig := false, comb := false, pl := .signal g.tally g.amount }]
  else if g.mode = 3 then
    [{ p with vn := vnCtl, kind := 1, dst := g.dst, port := if epIsMem g.dst then 16 else 0, close := false, release := false,
              sig := false, comb := false, pl := .signal g.tally g.amount }]
  else []
/-- A packet with the signals of its entry, when they are due (09 R219 to R221). -/
def attachSig (g : Sig) (due : Bool) (p : Packet) : List Packet :=
  if due then (if g.mode = 2 then { p with sig := true, sigTally := g.tally % 64 } else p) :: sigPacket g p else [p]
/-- A packet that carries entry number `n` of its stream, with its signals. -/
def withSignals (g : Sig) (n : Nat) (p : Packet) : List Packet := attachSig g (sigDue g n) p
/-- A signal goes with entry `n`, the last one or not (09 R219). -/
def sigDueEnd (g : Sig) (n : Nat) (last : Bool) : Bool := sigDue g n || (g.mode != 0 && g.atEnd && last)

/-! ### Packets -/

/-- Put packets on the network. -/
def State.onNet (s : State) (ps : List Packet) : State := { s with fab := { s.fab with net := s.fab.net ++ ps } }

/-- The tile of a packet's source lies in a region. -/
def srcRegion (p : Packet) : Option Nat := if epIsTile p.src then some (tileRegion (epTile p.src)) else none
/-- The region of a packet's destination. -/
def dstRegion (p : Packet) : Option Nat := if epIsTile p.dst then some (tileRegion (epTile p.dst)) else none

/-- Is the endpoint a unit of this part (08 Table 8.1, R187)? -/
def endpointFitted (s : State) (a : Nat) : Bool :=
  if epIsTile a then decide (epDie a < s.nDies)
  else if epX a = 48 then decide (epY a ≤ 2) && decide (epDie a ≤ 1)
  else if epIsEngine a then s.hasEngines && decide (epY a ≤ 3) && decide (epDie a < s.nDies)
  else false

/-- A TILE_FAULT for a packet, to the lease of its stamp: source, destination, port and kind. -/
def packetFault (s : State) (p : Packet) : State := s.tileFault p.sec p.lease p.src [p.src, p.dst, p.port, p.vn * 16 + p.kind]

/-- Acknowledge the writes of entries under the output settings that wrote them (10 R252). -/
def ackOwners (s : State) (os : List Nat) : State :=
  os.foldl (fun s o =>
    if o = 0 then s else
    let t := (o - 1) / 8
    let x := s.tileOf t
    s.setTile t { x with unacked := x.unacked.upd 0 ((o - 1) % 8) (· - 1) }) s
/-- Owners of the entries of a packet. -/
def payloadOwners : Payload → List Nat
  | .entries es => es.map (fun e => e.own)
  | _ => []

/-- A progress event of a section (13 R329). -/
def progressed (s : State) (i : Nat) : State :=
  match s.secOf i with
  | some x => s.setSec i (some { x with progress := 0 })
  | none => s
/-- Some output of the section carries poison (16 Table 16.16, 06 R155). -/
def sectionPoisoned (s : State) (i : Nat) : State :=
  match s.secOf i with
  | some x => s.setSec i (some { x with poisoned := true })
  | none => s
/-- The section runs. -/
def secRuns (s : State) (i : Nat) : Bool :=
  match s.secOf i with
  | some x => x.phase == .running
  | none => false

/-! ### Routes and seams (08 R194, R195, 11 R273 to R276) -/

/-- Global column and row of a tile number (08 R186). -/
def gx (t : Nat) : Nat := tileX t + 36 * (tileDie t % 2)
def gy (t : Nat) : Nat := tileY t + 32 * (tileDie t / 2)

/-- The tile whose router a packet leaves or enters by: an engine's attachment router, the tile itself, or none for the hub
(08 R188, R189). -/
def routerOf (a : Nat) : Option Nat :=
  if epIsTile a then some (epTile a)
  else if epX a = 56 then some (tileNo (epDie a) 0 (3 + 8 * epY a))
  else if epX a = 57 then some (tileNo (epDie a) 35 (3 + 8 * epY a))
  else none

/-- The die whose hub link carries the hub traffic of die `d`: the southern die of its own column, or the other southern die
where that one is out of service (01 R23, 08 R195). -/
def hubDie (s : State) (d : Nat) : Nat := if 2 ≤ d ∧ s.dieUsable (d % 2) = false then 1 - d % 2 else d % 2
/-- The router by which a packet between endpoints `a` and `other` leaves or enters the mesh at `a`.  For the hub it is the one
at row 0 of the hub link's lane, in the column of the other end; on the detour that is the same column of the other die, which
no rule names (DEDUCED, log 149). -/
def routerAt (s : State) (a other : Nat) : Nat :=
  match routerOf a with
  | some t => t
  | none =>
    let t := (routerOf other).getD 0
    tileNo (hubDie s (tileDie t)) (tileX t) 0

/-- The packet goes along gy first: the die that dimension order would cross is out of service (08 R195). -/
def rowsFirst (s : State) (a b : Nat) : Bool :=
  tileDie a % 2 != tileDie b % 2 && tileDie a / 2 != tileDie b / 2 && !s.dieUsable (tileDie b % 2 + 2 * (tileDie a / 2))

/-- Bit of a side in the seam enables, as CREG_SEAM lists them, most significant first: north 3, east 2, south 1, west 0. -/
def sideN : Nat := 3
def sideE : Nat := 2
def sideS : Nat := 1
def sideW : Nat := 0

/-- The side by which a packet leaves region `r`, to tile `b` from tile `a` of it. -/
def exitSide (s : State) (r a b : Nat) : Nat :=
  let inX := tileX b / 9 == r % 4 && tileDie b % 2 == regionDie r % 2
  let inY := tileY b / 8 == r % 16 / 4 && tileDie b / 2 == regionDie r / 2
  let ns := if gy a < gy b then sideN else sideS
  let ew := if gx a < gx b then sideE else sideW
  if rowsFirst s a b then (if inY then ew else ns) else if inX then ns else ew
/-- The side by which a packet enters region `r`, from tile `a` to tile `b` of it. -/
def entrySide (s : State) (r a b : Nat) : Nat :=
  let inX := tileX a / 9 == r % 4 && tileDie a % 2 == regionDie r % 2
  let inY := tileY a / 8 == r % 16 / 4 && tileDie a / 2 == regionDie r / 2
  let ns := if gy a < gy b then sideS else sideN
  let ew := if gx a < gx b then sideW else sideE
  if rowsFirst s a b then (if inX then ns else ew) else if inY then ew else ns

/-- Packets that no inbound condition touches: EVENT, and packets to or from an HBM port or an engine (11 R274). -/
def seamExempt (p : Packet) : Bool :=
  (p.vn == vnCtl && p.kind == 7) || p.port == 63 || epIsEngine p.src || epIsEngine p.dst || (p.vn == vnReply && p.op == 63)

/-- The region and side of the seam cell that refuses a packet, if one does (11 R274, R275): every crossing of a region that is
neither SEALED nor ROLLING is closed (Table 11.7). -/
def seamRefuses (s : State) (p : Packet) : Option (Nat × Nat) :=
  if srcRegion p = dstRegion p then none
  else
    let exit : Option (Nat × Nat) := match srcRegion p with
      | none => none
      | some r =>
        let side := exitSide s r (epTile p.src) (routerAt s p.dst p.src)
        if seamExempt p && p.vn != vnStream then none
        else if regionLive s r && (p.vn != vnStream || natBit (creg s r 0x10) (4 + side)) then none
        else some (r, side)
    match exit with
    | some x => some x
    | none =>
      match dstRegion p with
      | none => none
      | some r =>
        let side := entrySide s r (routerAt s p.src p.dst) (epTile p.dst)
        if seamExempt p then none
        else if regionLive s r && regLease s r == p.lease && (p.vn != vnStream || natBit (creg s r 0x10) side) then none
        else some (r, side)

/-- The sources whose packets a packet carries: its own, and those of the packets merged into it. -/
def Packet.sources (p : Packet) : List Nat := p.src :: p.joined

/-- Packet `p` does not overtake the earlier packet `q`: both come from one source and go to one destination endpoint and port
on one network (08 R198, R204); REDUCE packets with comb set do not wait for each other. -/
def mustFollow (q p : Packet) : Bool :=
  q.vn == p.vn && q.dst == p.dst && q.port == p.port && q.sources.any (fun a => p.sources.contains a) &&
    !(q.comb && p.comb && q.vn == vnStream && q.kind == 1 && p.kind == 1)

/-- An earlier packet that packet `i` does not overtake has not arrived (08 R198). -/
def mustWait (net : List Packet) (i : Nat) (p : Packet) : Bool := (net.take i).any (fun q => mustFollow q p)

/-- Bytes of a REDUCE packet's payload: its 16-byte preamble (08 Table 8.5) and its sterling compact values with no gap (08
R201). -/
def reduceBytes (r : Reduce) : List Byte :=
  leBytes (r.redId % 4096 + r.pair % 16 * 2 ^ 12 + r.vals.length % 4 * 2 ^ 16 + r.contrib % 65536 * 2 ^ 32 +
    r.closes % 65536 * 2 ^ 48 + r.tails % 65536 * 2 ^ 64) 16 ++ r.vals.flatMap (fun v => v.compact.bytes)
/-- Flits of a packet (08 R190, R201, Table 8.6). -/
def Packet.flits (p : Packet) : Nat :=
  match p.pl with
  | .reduce r => ((reduceBytes r).length + 63) / 64
  | .frame _ _ => 4
  | .entries es => max 1 es.length
  | .mt _ d _ _ => max 1 ((d.length + 3 + 63) / 64)
  | _ => 1
/-- The payload bytes of a packet, unused bytes 0 (08 R201, Table 8.6). -/
def Packet.payload (p : Packet) : List Byte :=
  let bs : List Byte := match p.pl with
    | .reduce r => reduceBytes r
    | .frame _ f => leBytes f.toNat 256
    | .entries es => es.flatMap (fun e => entryBytes e.data)
    | .mt a d _ _ => leBytes (a % 2 ^ 21) 3 ++ d
    | .signal t n => leBytes (t % 4096 + n % 65536 * 65536) 4
    | .barrier _ n => leBytes n 2
    | .flag _ r => r.bytes
    | .latch _ g _ => leBytes g 1
    | .drain t => leBytes t 2
    | _ => []
  bs ++ List.replicate (64 * p.flits - bs.length) 0

/-- The header of a packet (08 Table 8.4), as the records that name one carry it. -/
def headerOf (p : Packet) : Nat :=
  let ctl := match p.pl with
    | .frame i _ => i % 1024
    | .barrier id _ => id % 16384
    | .flag id _ => id % 16384
    | .latch j _ _ => j % 16
    | _ => 0
  let low := if p.vn = vnCtl then ctl
    else p.op % 16 * 1024 + b2n p.close * 512 + b2n p.release * 256 + b2n p.sig * 128 + p.sigTally % 64 * 2 + b2n p.comb
  p.vn * 2 ^ 62 + (p.flits - 1) % 4 * 2 ^ 60 + p.kind % 16 * 2 ^ 56 + p.dst * 2 ^ 43 + p.src * 2 ^ 30 + p.port * 2 ^ 24 +
    p.lease % 1024 * 2 ^ 14 + low


/-- The units that a region's flow of requests and entries meets: 16 entries of room at an inlet or outlet. -/
def queueDepth : Nat := 16

/-! ### Credits (08 R190, R192, R202, Table 8.3) -/

/-- Flit credits of a router's input: from a mesh link, or from a bridge or hub lane. -/
def linkCredits (vn : Nat) (deep : Bool) : Nat :=
  match vn with
  | 2 => if deep then 48 else 16
  | 3 => if deep then 8 else 4
  | _ => if deep then 32 else 8
/-- Flit credits of a port.  A compute inlet's 16 are those of its queue, and a solver channel grants 16 (14 R350); a reply finds
the room that its requester has reserved (R193).  Table 8.3 gives control ports 8 and signals 4. -/
def portCredits (s : State) (p : Packet) : Nat :=
  if p.vn = vnReply then 2 ^ 32
  else if p.vn = vnReq then 16
  else if p.vn = vnCtl then 8
  else if epIsCompute p.dst then
    let x := s.tileOf (epTile p.dst)
    queueDepth - ((x.inlets.get [] p.port).length + (x.redIn.get [] p.port).length)
  else if epIsMem p.dst then (if p.port ≤ 4 then 32 else 4)
  else 16

/-- The coordinates after `a` up to `b`. -/
def lineTo (a b : Nat) : List Nat := if a ≤ b then (upTo (b - a)).map (fun i => a + 1 + i) else (upTo (a - b)).map (fun i => a - 1 - i)
/-- The routers after tile `a` on the way to tile `b`, by global column and row (08 R194, R195). -/
def routersTo (s : State) (a b : Nat) : List (Nat × Nat) :=
  if rowsFirst s a b then (lineTo (gy a) (gy b)).map (fun y => (gx a, y)) ++ (lineTo (gx a) (gx b)).map (fun x => (x, gy b))
  else (lineTo (gx a) (gx b)).map (fun x => (x, gy a)) ++ (lineTo (gy a) (gy b)).map (fun y => (gx b, y))
/-- The input by which a step enters a router: 0 west, 1 east, 2 south, 3 north. -/
def stepDir (a b : Nat × Nat) : Nat := if a.1 < b.1 then 0 else if b.1 < a.1 then 1 else if a.2 < b.2 then 2 else 3
/-- The step crosses a die bridge. -/
def stepBridge (a b : Nat × Nat) : Bool := a.1 / 36 != b.1 / 36 || a.2 / 32 != b.2 / 32
/-- Key of a router input on a network; input 4 is the hub's own, 5 the one from the hub lane. -/
def inputKey (vn : Nat) (r : Nat × Nat) (dir : Nat) : Nat := ((vn * 8 + dir) * 128 + r.1) * 64 + r.2
/-- Key of a port. -/
def portKey (p : Packet) : Nat := 2 ^ 24 + (p.vn * 64 + p.port % 64) * 8192 + p.dst
/-- Key of the combine buffer of the output that feeds a buffer. -/
def combKey (k : Nat) : Nat := 2 ^ 40 + k
/-- The inputs that the steps from a router on take, with their credits. -/
def linkBufs (vn : Nat) (at_ : Nat × Nat) : List (Nat × Nat) → List (Nat × Nat)
  | [] => []
  | r :: rest => (inputKey vn r (stepDir at_ r), linkCredits vn (stepBridge at_ r)) :: linkBufs vn r rest

/-- The buffers that a packet passes, each with its credits: the last is its port's, or the hub's. -/
def routeBufs (s : State) (p : Packet) : List (Nat × Nat) :=
  let a := routerAt s p.src p.dst
  let b := routerAt s p.dst p.src
  let at_ := (gx a, gy a)
  (if epIsHub p.src then [(inputKey p.vn at_ 5, linkCredits p.vn true)] else []) ++ linkBufs p.vn at_ (routersTo s a b) ++
  [if epIsHub p.dst then (inputKey p.vn (gx b, gy b) 4, linkCredits p.vn true) else (portKey p, portCredits s p)]

/-- Packets that the combine buffer of an output holds of this packet's kind: four REDUCE, two BARRIER or FLAG. -/
def Packet.combCap (p : Packet) : Nat :=
  if p.vn = vnStream ∧ p.kind = 1 then 4 else if p.vn = vnCtl ∧ (p.kind = 2 ∨ p.kind = 3) then 2 else 0

/-- How far a packet gets over buffers that hold `occ` flits: the buffer in which it stands, and whether it is its last.  It
enters a buffer with its credits only, does not pass what stands there, and without a credit waits where it is, or in the combine
buffer of its output while that has room. -/
def advance (p : Packet) (occ : Table Nat) : Option Nat → List (Nat × Nat) → Option Nat × Bool
  | cur, [] => (cur, true)
  | cur, (k, c) :: rest =>
    if occ.get 0 k + p.flits ≤ c then
      if rest.isEmpty then (some k, true)
      else if occ.get 0 k ≠ 0 then (some k, false)
      else advance p occ (some k) rest
    else if cur.isSome && decide (occ.get 0 (combKey k) < p.combCap) then (some (combKey k), false)
    else (cur, false)

/-- The flits in each buffer once every packet, oldest first, has gone as far as credits let it. -/
def occupied (s : State) (net : List Packet) : Table Nat :=
  net.foldl (fun occ p =>
    match (advance p occ none (routeBufs s p)).1 with
    | some k => occ.upd 0 k (fun n => n + (if 2 ^ 40 ≤ k then 1 else p.flits))
    | none => occ) []
/-- Packet `i` has come to its port. -/
def atPort (s : State) (i : Nat) (p : Packet) : Bool :=
  (advance p (occupied s (s.fab.net.take i)) none (routeBufs s p)).2
/-- The first buffer on the packet's way has a credit for each of its flits. -/
def hasCredit (s : State) (p : Packet) : Bool := (advance p (occupied s s.fab.net) none (routeBufs s p)).1.isSome

/-- A kind that Table 8.2 reserves. -/
def reservedKind (p : Packet) : Bool :=
  decide ((if p.vn = vnStream then 3 else if p.vn = vnCtl then 7 else 2) < p.kind)

/-- Remove packet `i` from the network. -/
def State.offNet (s : State) (i : Nat) : State := { s with fab := { s.fab with net := s.fab.net.eraseIdx i } }

/-- Put a packet back at place `i`. -/
def State.putNet (s : State) (i : Nat) (p : Packet) : State :=
  { s with fab := { s.fab with net := s.fab.net.take i ++ p :: s.fab.net.drop i } }

/-- Packet `i` arrives at its endpoint: it is next in its order, has come to its port (08 R192), is of the kind that the row takes, and
every seam cell on its way passes it.  A router discards a packet of a reserved kind and reports it (08 R190).  A tile whose local
port is off discards it and reports it (11 R284); a region that is not running takes no stream packet (Table 11.7).  What the endpoint cannot take yet stays in place. -/
def arriveKeep (i : Nat) (ok : Packet → Bool) (act : Packet → State → State × Option Packet) (s : State) : State :=
  match s.fab.net[i]? with
  | none => s
  | some p =>
    if reservedKind p then packetFault (s.offNet i) p
    else if !ok p || mustWait s.fab.net i p || !(atPort s i p) || (seamRefuses s p).isSome then s
    else
      let s1 := s.offNet i
      let off := epIsTile p.dst &&
        (s.absent (epTile p.dst) || (epIsCompute p.dst && (s.tileOf (epTile p.dst)).portOff) ||
          (epIsMem p.dst && (s.mtileOf (epTile p.dst)).portOff))
      if off then packetFault s1 p
      else if p.vn = vnStream ∧ ((dstRegion p).any (fun r => !regionLive s r)) = true then s1
      else match act p s1 with
        | (s2, none) => s2
        | (s2, some q) => s2.putNet i q

/-- Packet `i` arrives and is taken whole. -/
def arrive (i : Nat) (ok : Packet → Bool) (act : Packet → State → State) (s : State) : State :=
  arriveKeep i ok (fun p s => (act p s, none)) s

end Sys2Proof.Machine
end

