-- ==== Sys2Proof/Machine/Bundle.lean ====
section
/-! DEFINITION. The 512-bit bundle: its slots and their fields (06 Tables 6.2 to 6.11), what a bundle names, reads and
writes, and the checks that staging applies to it (06 R132, R146, R147, R150, 05 R107). -/
namespace Sys2Proof.Machine

/-! ### Slots and fields -/

/-- The slots of a bundle (06 Table 6.2). -/
def ctlSlot (b : Nat) : Nat := natBits b 480 32
def tenSlot (b : Nat) : Nat := natBits b 384 96
def vaSlot (b : Nat) : Nat := natBits b 320 64
def vbSlot (b : Nat) : Nat := natBits b 256 64
def memSlot (b i : Nat) : Nat := if i = 0 then natBits b 160 96 else natBits b 64 96
def queueSlot (b : Nat) : Nat := natBits b 0 64
/-- Move field `i` of the queue slot. -/
def moveField (b i : Nat) : Nat := natBits (queueSlot b) (if i = 0 then 32 else 8) 24

/-- Control slot fields (06 Table 6.3). -/
def cOp (c : Nat) : Nat := natBits c 26 6
def cTarget (c : Nat) : Nat := natBits c 18 8
def cSreg (c : Nat) : Nat := natBits c 13 5
def cAreg (c : Nat) : Nat := natBits c 4 4
/-- Tensor slot fields (06 Table 6.5). -/
def tOp (t : Nat) : Nat := natBits t 90 6
def tFmtA (t : Nat) : Nat := natBits t 86 4
def tFmtB (t : Nat) : Nat := natBits t 82 4
def tASrc (t : Nat) : Bool := natBit t 81
def tAInlet (t : Nat) : Nat := natBits t 79 2
def tAAreg (t : Nat) : Nat := natBits t 75 4
def tBSrc (t : Nat) : Bool := natBit t 74
def tBInlet (t : Nat) : Nat := natBits t 72 2
def tBAreg (t : Nat) : Nat := natBits t 68 4
def tPart (t : Nat) : Nat := 4 * natBits t 32 1 + natBits t 66 2
def tQuad (t : Nat) : Nat := natBits t 64 2
def tScaleEn (t : Nat) : Bool := natBit t 63
def tScaleReg (t : Nat) : Nat := natBits t 58 5
def tOset (t : Nat) : Nat := natBits t 55 3
def tOutlet (t : Nat) : Nat := natBits t 53 2
def tDest (t : Nat) : Bool := natBit t 52
def tDestAreg (t : Nat) : Nat := natBits t 48 4
def tRow (t : Nat) : Nat := natBits t 43 5
def tSbase (t : Nat) : Nat := natBits t 38 5
/-- Vector slot fields (06 Table 6.7). -/
def vOp (v : Nat) : Nat := natBits v 58 6
def vVd (v : Nat) : Nat := natBits v 53 5
def vSa (v : Nat) : Nat := natBits v 47 6
def vSb (v : Nat) : Nat := natBits v 41 6
def vSc (v : Nat) : Nat := natBits v 35 6
def vFmt (v : Nat) : Nat := natBits v 31 4
def vDtype (v : Nat) : Nat := natBits v 29 2
def vSub (v : Nat) : Nat := natBits v 16 8
/-- Memory slot fields (06 Table 6.9). -/
def mOp (m : Nat) : Nat := natBits m 90 6
def mDst (m : Nat) : Nat := natBits m 85 5
def mSrcA (m : Nat) : Nat := natBits m 80 5
def mSrcB (m : Nat) : Nat := natBits m 75 5
def mAreg (m : Nat) : Nat := natBits m 71 4
def mQuarter (m : Nat) : Nat := natBits m 69 2
def mCond (m : Nat) : Nat := natBits m 66 3
def mBImm (m : Nat) : Bool := natBit m 65
def mImm (m : Nat) : Nat := natBits m 32 32
/-- Move field fields (06 Table 6.11). -/
def qMop (m : Nat) : Nat := natBits m 20 4
def qQ (m : Nat) : Nat := natBits m 18 2
def qQ2 (m : Nat) : Nat := natBits m 16 2
def qVreg (m : Nat) : Nat := natBits m 11 5
def qQuarter (m : Nat) : Nat := natBits m 9 2
def qAreg (m : Nat) : Nat := natBits m 5 4
/-- The pop field. -/
def popField (b : Nat) : Nat := natBits (queueSlot b) 60 4

/-- A predicate: enabled, number, and whether it holds when 0. -/
structure PredRef where
  en : Bool
  p : Nat
  neg : Bool
deriving DecidableEq, Repr

def cPred (c : Nat) : PredRef := ⟨natBit c 12, natBits c 9 3, natBit c 8⟩
def tPred (t : Nat) : PredRef := ⟨natBit t 37, natBits t 34 3, natBit t 33⟩
def vPred (v : Nat) : PredRef := ⟨natBit v 28, natBits v 25 3, natBit v 24⟩
def mPred (m : Nat) : PredRef := ⟨natBit m 64, natBits m 29 3, natBit m 28⟩

/-- Is the opcode one of the instructions that write s[dst]: LDS, the arithmetic, SMOV, SMOVA? -/
def mWritesS (op : Nat) : Bool := op == 1 || (decide (0x09 ≤ op) && decide (op ≤ 0x14)) || op == 0x19
/-- LDA, AADD, AMOV write a[dst]. -/
def mWritesA (op : Nat) : Bool := op == 7 || op == 0x17 || op == 0x18

/-! ### What a bundle names -/

/-- Inlets whose head a slot reads, or that the pop field pops (06 R135): a bit for each. -/
def namedInlets (b : Nat) : List Nat :=
  let t := tenSlot b
  let ten := if tOp t = 1 then (if tASrc t then [] else [tAInlet t]) ++ (if tBSrc t then [] else [tBInlet t])
    else if tOp t = 5 then [tAInlet t] else []
  let mv := (upTo 2).flatMap (fun i => let m := moveField b i
    if qMop m = 1 ∨ qMop m = 2 ∨ qMop m = 5 then [qQ m] else [])
  (upTo 4).filter (fun n => natBit (popField b) n || ten.contains n || mv.contains n)

/-- Outlets that the moves push to, one entry each, in move order. -/
def movePushes (b : Nat) : List Nat :=
  (upTo 2).flatMap (fun i => let m := moveField b i
    if qMop m = 3 ∨ qMop m = 4 then [qQ m] else if qMop m = 5 then [qQ2 m] else [])

/-- The outlet that a TOUT or TPART pushes to. -/
def tensorOutlet (b : Nat) : Option Nat :=
  let t := tenSlot b
  if tOp t = 4 ∨ (tOp t = 3 ∧ tDest t = false) then some (tOutlet t) else none

/-- Entries that the bundle needs room for at outlet `n` (06 R135, R149). -/
def roomNeeded (b n : Nat) : Nat :=
  ((movePushes b).filter (fun k => k == n)).length + b2n (tensorOutlet b == some n)

/-! ### Reserved values and conflicts (06 R132) -/

/-- What the slots write, by slot number and target: s register r as r, a as 32 + r, p as 64 + r, quarter q of v register r
as 128 + 4 r + q, outlet n as 512 + n. -/
def bundleWrites (b : Nat) : List (Nat × Nat) :=
  let c := ctlSlot b
  let t := tenSlot b
  let quarters (r : Nat) : List Nat := (upTo 4).map (fun q => 128 + 4 * r + q)
  let ctl := if cOp c = 4 then [cSreg c] else []
  let ten := (if tOp t = 1 then (if tASrc t then [32 + tAAreg t] else []) ++ (if tBSrc t then [32 + tBAreg t] else [])
    else []) ++ (tensorOutlet b).toList.map (fun n => 512 + n)
  let va := if vOp (vaSlot b) = 0 then [] else quarters (vVd (vaSlot b))
  let vb := if vOp (vbSlot b) = 0 then [] else if vOp (vbSlot b) = 0x24 then [vVd (vbSlot b)] else quarters (vVd (vbSlot b))
  let mem (i : Nat) : List Nat :=
    let m := memSlot b i
    if mWritesS (mOp m) then [mDst m]
    else if mWritesA (mOp m) then [32 + mDst m]
    else if mOp m = 3 then quarters (mDst m)
    else if mOp m = 5 then [128 + 4 * mDst m + mQuarter m]
    else if mOp m = 0x15 ∨ mOp m = 0x16 then [64 + mDst m % 8] else []
  let mv := (upTo 2).flatMap (fun i => let m := moveField b i
    (if qMop m = 1 then [128 + 4 * qVreg m + qQuarter m] else []) ++
    (if qMop m = 2 ∨ qMop m = 4 then [32 + qAreg m] else []) ++
    (if qMop m = 3 ∨ qMop m = 4 then [512 + qQ m] else if qMop m = 5 then [512 + qQ2 m] else []))
  ctl.map (fun k => (0, k)) ++ ten.map (fun k => (1, k)) ++ va.map (fun k => (2, k)) ++ vb.map (fun k => (3, k)) ++
    (mem 0).map (fun k => (4, k)) ++ (mem 1).map (fun k => (5, k)) ++ mv.map (fun k => (6, k))

/-- Two slots write one target. -/
def writesClash (ws : List (Nat × Nat)) : Bool := ws.any (fun x => ws.any (fun y => x.1 != y.1 && x.2 == y.2))

/-- Parts of the narrower operand's entry (06 R146). -/
def partsOf (fa fb : Nat) : Nat :=
  let w := max (fmtBits fa) (fmtBits fb)
  let n := min (fmtBits fa) (fmtBits fb)
  if w = n then 1
  else if n = 4 ∧ w = 32 then 8
  else if (n = 8 ∧ w = 32) ∨ (n = 4 ∧ w = 16) then 4
  else 2

/-- A reserved value in the control slot. -/
def ctlBad (c : Nat) : Bool := decide (5 < cOp c) || natBits c 0 4 != 0
/-- A reserved value in the tensor slot; `inUse` gives the output format of each setting in use (06 R132, R146, R147, R150). -/
def tenBad (t : Nat) (inUse : Nat → Option Nat) : Bool :=
  decide (7 < tOp t) || natBits t 0 32 != 0 ||
  (tOp t == 1 && ((fmtIsBlock (tFmtA t) || fmtIsBlock (tFmtB t)) != tScaleEn t ||
    decide (partsOf (tFmtA t) (tFmtB t) ≤ tPart t))) ||
  (tOp t == 3 && (match inUse (tOset t) with
    | none => true
    | some f => fmtIsBlock f && !tDest t))
/-- The largest value of sub that a slot A opcode takes. -/
def subLimit (op : Nat) : Nat :=
  match op with
  | 0x0B => 6
  | 0x0D => 4
  | 0x0E => 9
  | 0x12 => 4
  | _ => 255
/-- A reserved value in vector slot A. -/
def vaBad (v mode : Nat) : Bool :=
  natBits v 0 16 != 0 || decide (0x1B < vOp v) || vDtype v == 3 || (vOp v != 0 && (decide (subLimit (vOp v) < vSub v) ||
    (vOp v == 0x0C && fmtIsBlock (vFmt v)) ||
    (vOp v == 0x0F && mode == 1 && (decide (2 < vSub v % 8) ||
      (vSub v % 8 == 2 && (vSub v / 8 % 16 == 0 || decide (8 < vSub v / 8 % 16)))))))
/-- A reserved value in vector slot B. -/
def vbBad (v : Nat) : Bool :=
  natBits v 0 16 != 0 || vDtype v == 3 || (vOp v != 0 && (decide (vOp v < 0x20) || decide (0x24 < vOp v) ||
    ((vOp v == 0x23 || vOp v == 0x24) && decide (63 < vSub v))))
/-- A reserved value in a memory slot. -/
def memBad (m : Nat) : Bool :=
  natBits m 0 28 != 0 || decide (0x19 < mOp m) || (mWritesA (mOp m) && decide (15 < mDst m)) ||
  ((mOp m == 8 || mOp m == 0x17 || mOp m == 0x19) && decide (15 < mSrcA m)) || (mOp m == 0x15 && decide (5 < mCond m)) ||
  (mOp m == 0x16 && (decide (7 < mSrcA m) || decide (7 < mSrcB m)))
/-- A reserved value in the queue slot. -/
def queueBad (b : Nat) : Bool :=
  natBits (queueSlot b) 56 4 != 0 || natBits (queueSlot b) 0 8 != 0 ||
  (upTo 2).any (fun i => decide (5 < qMop (moveField b i)) || natBits (moveField b i) 0 5 != 0)

/-- A bundle that staging refuses with BAD_ARG (06 R132). -/
def bundleBad (mode : Nat) (inUse : Nat → Option Nat) (b : Nat) : Bool :=
  ctlBad (ctlSlot b) || tenBad (tenSlot b) inUse || vaBad (vaSlot b) mode || vbBad (vbSlot b) ||
  memBad (memSlot b 0) || memBad (memSlot b 1) || queueBad b || writesClash (bundleWrites b)

/-! ### What a mode accepts (05 Table 5.2) -/

/-- Tensor input formats of a mode. -/
def modeInputs (mode : Nat) : List Nat :=
  match mode with
  | 0 => [0, 1, 2, 4, 5, 6, 7, 8, 10, 11, 12, 13, 14, 15]
  | 1 => [4, 5, 6, 7, 8]
  | 2 => [1, 6, 7, 15]
  | _ => [1, 4, 5, 6, 7, 15]
/-- Output formats of a mode. -/
def modeOutputs (mode : Nat) : List Nat :=
  match mode with
  | 0 => [0, 1, 2, 3, 4, 5, 6, 7, 8, 10, 11, 12, 13, 14, 15]
  | 1 => [4, 5, 6, 7, 8]
  | 2 => [1, 3, 6, 7, 8, 15]
  | _ => [1, 3, 4, 5, 6, 7, 8, 15]
/-- VCVT targets of a mode. -/
def modeTargets (mode : Nat) : List Nat :=
  match mode with
  | 0 => [0, 1, 2, 3, 4, 5, 6, 7, 8]
  | 1 => [4, 5, 6, 7, 8, 9]
  | 2 => [1, 3, 6, 7, 8]
  | _ => [1, 3, 4, 5, 6, 7, 8]

/-- The bundle uses what its mode does not accept (05 R107, 06 R149).  In FAST, INT32 and FP64 operands break 04 R78,
which is `bundleBadFormat`.  Of the vector unit's formats only binary64 arithmetic is refused outside STRICT: a slot B
operation copies bits whatever its dtype, and INT32 lanes are taken as no format of Table 5.2's row, so both are accepted in
every mode (DEDUCED, log 143). -/
def bundleDenied (mode b : Nat) : Bool :=
  let t := tenSlot b
  let v := vaSlot b
  (tOp t == 1 && mode != 0 && !((modeInputs mode).contains (tFmtA t) && (modeInputs mode).contains (tFmtB t))) ||
  (tOp t == 5 && mode != 0) || (vOp v != 0 && vDtype v == 1 && mode != 1) ||
  (vOp v == 0x0C && !fmtIsBlock (vFmt v) && !((modeTargets mode).contains (vFmt v)))

/-- A FAST TMAC of an INT32 or FP64 operand (04 R78). -/
def bundleBadFormat (mode b : Nat) : Bool :=
  let t := tenSlot b
  tOp t == 1 && mode == 0 && !((modeInputs 0).contains (tFmtA t) && (modeInputs 0).contains (tFmtB t))

end Sys2Proof.Machine
end

