-- ==== Sys2Proof/Machine/Message.lean ====
section
/-! DEFINITION. Taking messages (16 R395 to R397) and the commands that name no region, program or ingot: discovery,
power policy, steward commands and windows (16 Tables 16.7, 16.10, 16.13, 16.14). -/
namespace Sys2Proof.Machine

/-! ### Opcodes and checks (16 Table 16.6, R396) -/

/-- Opcodes by group (16 Table 16.6). -/
def opcodes : List Nat :=
  [0x01, 0x02, 0x03, 0x10, 0x11, 0x12, 0x13, 0x14, 0x20, 0x21, 0x22, 0x23, 0x24, 0x30, 0x31, 0x32,
   0x40, 0x41, 0x42, 0x43, 0x44, 0x50, 0x51, 0x58, 0x59, 0x60,
   0x70, 0x71, 0x72, 0x73, 0x74, 0x75, 0x76, 0x77, 0x7E, 0x7F]
/-- Commands marked S. -/
def stewardOps : List Nat := [0x60, 0x71, 0x72, 0x73, 0x74, 0x75, 0x76, 0x77, 0x7F]
/-- Commands marked L. -/
def leaseOps : List Nat :=
  [0x11, 0x12, 0x13, 0x14, 0x20, 0x21, 0x22, 0x23, 0x24, 0x30, 0x31, 0x32, 0x40, 0x41, 0x42, 0x43, 0x44, 0x50, 0x51,
   0x58, 0x59, 0x72, 0x7E]
/-- Commands marked Q. -/
def quenchOps : List Nat := [0x10, 0x11, 0x22, 0x23, 0x24, 0x30, 0x40, 0x43, 0x58]
/-- Commands served in RECOVERY (21 R511). -/
def recoveryOps : List Nat := [0x01, 0x03, 0x70, 0x10, 0x12, 0x20, 0x21, 0x72, 0x73, 0x76]
/-- Commands that the steward may give for any lease in use (16 R396). -/
def stewardLeaseOps : List Nat := [0x51, 0x12, 0x7E]

/-- Argument bytes that a command uses, as (first, last), by opcode and byte 8 (16 Tables 16.7 to 16.15, 20.6). -/
def usedBytes (op b8 : Nat) : List (Nat × Nat) :=
  match op with
  | 0x02 => [(8, 15)]
  | 0x10 => [(8, 10), (12, 14), (16, 23)]
  | 0x11 => [(8, 9), (16, 23)]
  | 0x13 => [(8, 23)]
  | 0x14 =>
    match b8 with
    | 0x00 => [(8, 8), (12, 19)]
    | 0x01 => [(8, 8), (12, 12)]
    | 0x02 => [(8, 8), (12, 12), (16, 23)]
    | 0x03 => [(8, 8), (12, 12)]
    | 0x04 => [(8, 8), (12, 14)]
    | 0x05 => [(8, 8), (12, 12)]
    | 0x10 => [(8, 8), (12, 12)]
    | 0x11 => [(8, 8), (12, 15)]
    | _ => [(8, 63)]
  | 0x20 => match b8 with
    | 0 => [(8, 10), (16, 39)]
    | 1 => [(8, 10), (16, 31)]
    | _ => [(8, 63)]
  | 0x21 => [(8, 9)]
  | 0x22 => [(8, 9), (16, 23)]
  | 0x23 => [(8, 9), (16, 23)]
  | 0x24 => [(16, 31)]
  | 0x30 => [(8, 8), (16, 23)]
  | 0x31 => [(16, 23)]
  | 0x32 => [(8, 8)]
  | 0x40 => [(16, 25)]
  | 0x41 => [(8, 10)]
  | 0x42 => [(8, 9)]
  | 0x43 => [(8, 9)]
  | 0x50 => if b8 = 0 then [(8, 9)] else [(8, 11)]
  | 0x51 => if b8 = 0 then [(8, 9), (12, 13)] else [(8, 13)]
  | 0x58 => [(8, 9), (12, 15)]
  | 0x59 => [(8, 8)]
  | 0x60 => match b8 with
    | 0 => [(8, 15)]
    | 1 => [(8, 8), (10, 11)]
    | 2 => [(8, 9)]
    | 3 => [(8, 10)]
    | _ => [(8, 63)]
  | 0x71 => [(8, 11)]
  | 0x72 => [(16, 27)]
  | 0x73 => [(8, 9)]
  | 0x76 => [(8, 13), (16, 23)]
  | 0x7E => [(16, 27)]
  | 0x7F => if b8 = 1 then [(8, 8), (16, 23)] else [(8, 8)]
  | _ => []

/-- A sub-operation, kind or step that some row of the tables lists (16 Table 16.9, 16.10, 16.13, 16.15). -/
def subListed (op b8 : Nat) : Bool :=
  match op with
  | 0x14 => [0, 1, 2, 3, 4, 5, 0x10, 0x11].contains b8
  | 0x20 => decide (b8 < 2)
  | 0x21 => decide (b8 < 2)
  | 0x60 => decide (b8 < 4)
  | 0x7F => decide (b8 < 2)
  | _ => true

/-- The header's fields. -/
def msgOp (b : List Byte) : Nat := fieldAt b 0 1
def msgLease (b : List Byte) : Nat := fieldAt b 4 2

/-- No reserved byte of the message is other than 0 (16 R388). -/
def reservedClear (b : List Byte) : Bool :=
  let used := usedBytes (msgOp b) (fieldAt b 8 1)
  fieldAt b 1 1 == 0 && fieldAt b 6 2 == 0 &&
    (upTo 56).all (fun i => used.any (fun r => decide (r.1 ≤ i + 8) && decide (i + 8 ≤ r.2)) || fieldAt b (i + 8) 1 == 0)

/-- Check 4: the lease, for a command that names one and is not LEASE_RECLAIM.  A dormant lease takes the steward's sub-operations of
LEASE_POLICY (17 Table 17.2, R418; log 28). -/
def leaseCheck (s : State) (fn : Nat) (b : List Byte) : Option Status :=
  let l := msgLease b
  if !(leaseOps.contains (msgOp b)) || msgOp b == 0x13 then none
  else
    let x := s.leaseOf l
    let inUse := decide (l < 1024) && (x.st == .opened || x.st == .draining || x.st == .dormant)
    let policy := msgOp b == 0x14 && (fieldAt b 8 1 == 0x10 || fieldAt b 8 1 == 0x11)
    if !inUse then some .noLease
    else if x.st == .dormant && policy && s.isSteward fn then none
    else if stewardLeaseOps.contains (msgOp b) && s.isSteward fn then none
    else if x.owner != fn then some .noLease
    else if x.st == .opened then none else some .dormant

/-- Check 5. -/
def quenchCheck (s : State) (b : List Byte) : Option Status :=
  if s.quenched && quenchOps.contains (msgOp b) then some .quenched else none

/-- Commands that count as in flight: messages without a reply yet, but for those whose reply is to be BUSY (16 R397). -/
def countedFlights (s : State) : List Flight := s.host.flights.filter (fun x => x.failed != some .busy)

/-- The leases named by the command replies that the device holds: each command is in flight until its reply is written, but a BUSY
one and one that ACCEPTED counts through its program (16 R393, R397). -/
def heldReplies (s : State) : List Nat :=
  s.host.fns.flatMap (fun e => e.2.held.filterMap (fun r =>
    let b := entryBytes r
    if fieldAt b 0 1 / 2 % 8 = 0 ∧ fieldAt b 1 1 ≠ 2 ∧ fieldAt b 1 1 ≠ 1 then some (fieldAt b 6 2) else none))

/-- Commands in flight that name lease `l`: messages without a reply yet, held replies, and bound programs (16 R397). -/
def inFlight (s : State) (l : Nat) : Nat :=
  ((countedFlights s).filter (fun x => msgLease (entryBytes x.msg.bytes) == l)).length +
    ((heldReplies s).filter (fun k => k == l)).length + (s.bound.filter (fun e => e.2.lease == l)).length

/-- Check 6: Table 16.5. -/
def limitCheck (s : State) (b : List Byte) : Option Status :=
  if 4096 ≤ (countedFlights s).length + (heldReplies s).length + s.bound.length then some .busy
  else if msgLease b ≠ 0xFFFF ∧ 64 ≤ inFlight s (msgLease b) then some .busy
  else none

/-- The first of some checks that fails. -/
def firstFail (l : List (Option Status)) : Option Status := l.findSome? id

/-- Checks 1 to 6 of R396, after RECOVERY's own (21 R511). -/
def takeChecks (s : State) (fn : Nat) (b : List Byte) : Option Status :=
  firstFail
    [ if s.boot.state == 6 && !(recoveryOps.contains (msgOp b)) then some .busy else none,
      if opcodes.contains (msgOp b) then none else some .badOpcode,
      if stewardOps.contains (msgOp b) && !(s.isSteward fn) then some .stewardRequired else none,
      if !(reservedClear b) || (!(leaseOps.contains (msgOp b)) && msgLease b != 0xFFFF) then some .badArg else none,
      leaseCheck s fn b, quenchCheck s b, limitCheck s b ]

/-- Earlier messages of the function that name the same lease have all replied (16 R395). -/
def mayBegin (fn lease : Nat) (earlier : List Flight) : Bool :=
  lease == 0xFFFF || !(earlier.any (fun x => x.fn == fn && msgLease (entryBytes x.msg.bytes) == lease))

/-- A message begins: one whose sub-operation no row lists fails its argument check at once. -/
def beginMsg (fn : Nat) (m : Msg) (s : State) : State :=
  let b := entryBytes m.bytes
  if subListed (msgOp b) (fieldAt b 8 1) then s else finishCmd s fn m.seq .badArg 0 []

/-- A message joins those in flight. -/
def fly (s : State) (x : Flight) : State := { s with host := { s.host with flights := s.host.flights ++ [x] } }

/-- SCLK ticks of the maximum dormancy have passed (17 R418). -/
def dormancyOver (s : State) (x : Lease) : Bool :=
  x.maxDormS != 0 && decide (x.maxDormS * second < s.sclk - x.dormAt)

/-- The conditions of R420 on a message of function `fn`, as they are when firmware takes it. -/
def reclaimMet (s : State) (fn : Nat) (b : List Byte) : Bool :=
  let x := s.leaseOf (msgLease b)
  msgOp b == 0x13 && decide (msgLease b < 1024) && x.st == .dormant && !(dormancyOver s x) &&
    fnPort fn == fnPort x.formerOwner && BitVec.ofNat 128 (fieldAt b 8 16) == x.token

/-- MESSAGE_TAKE (16 R395, R396, 17 R420): a message that fails a check replies at once, or after the earlier messages of its lease. -/
def execMessageTake (fn : Nat) (s : State) : Host.Outcome State Fault Refusal :=
  done (match (s.fnOf fn).queue with
  | [] => s
  | m :: r =>
    let b := entryBytes m.bytes
    let s1 := s.updFn fn (fun y => { y with queue := r, queueWm := sampleWm y.queueWm (decide (24 ≤ r.length)) })
    let now := mayBegin fn (msgLease b) s1.host.flights
    match takeChecks s1 fn b with
    | some st =>
      if now then s1.produce fn (replyEntry 0 st 0 (msgOp b) (fieldAt b 2 2) (msgLease b) m.seq.toNat [])
      else fly s1 { fn := fn, msg := m, failed := some st }
    | none =>
      let s2 := fly s1 { fn := fn, msg := m, wait := if now then .begun else .taken, reclaim := reclaimMet s fn b }
      if now then beginMsg fn m s2 else s2)

/-- Change the first command in flight with that sequence number. -/
def updFlight (s : State) (fn : Nat) (seq : Word) (g : Flight → Flight) : State :=
  { s with host := { s.host with flights :=
      match s.host.flights.findIdx? (fun x => x.fn == fn && x.msg.seq == seq) with
      | some i => s.host.flights.modify i g
      | none => s.host.flights } }

/-- MESSAGE_BEGIN (16 R395, R396): one that failed a check replies; for the others checks 4 and 5 are made again. -/
def execMessageBegin (fn : Nat) (seq : Word) (s : State) : Host.Outcome State Fault Refusal :=
  done (match flightOf s fn seq with
  | none => s
  | some x =>
    let b := entryBytes x.msg.bytes
    let earlier := s.host.flights.takeWhile (fun y => !(y.fn == fn && y.msg.seq == seq))
    if x.wait = .taken ∧ mayBegin fn (msgLease b) earlier then
      match firstFail [x.failed, leaseCheck s fn b, quenchCheck s b] with
      | some st => finishCmd s fn seq st 0 []
      | none => beginMsg fn x.msg (updFlight s fn seq (fun y => { y with wait := .begun }))
    else s)

/-! ### Carrying out a command -/

/-- The status with which a begun command replies when its lease has changed since: NO_LEASE where another command has closed it (17
Table 17.2); where it has lost its owner, DORMANT from one that would start or go on with a program, and from any that finds the lease
DORMANT (17 R415; DEDUCED, log 154). -/
def staleStatus (s : State) (fn op : Nat) (b : List Byte) : Option Status :=
  match leaseCheck s fn b with
  | some .noLease => some .noLease
  | some .dormant => if (s.leaseOf (msgLease b)).st = .dormant ∨ op = 0x40 ∨ op = 0x43 then some .dormant else none
  | _ => none

/-- The command of `fn` with sequence number `seq` acts once it has begun, when it has this opcode and sub-operation and its lease
still stands. -/
def onCmd (fn : Nat) (seq : Word) (op : Nat) (sub : Option Nat) (act : List Byte → State → State) (s : State) : State :=
  match flightOf s fn seq with
  | none => s
  | some x =>
    let b := entryBytes x.msg.bytes
    if x.wait = .begun ∧ msgOp b = op ∧ (sub = none ∨ sub = some (fieldAt b 8 1)) then
      match staleStatus s fn op b with
      | some st => finishCmd s fn seq st 0 []
      | none => act b s
    else s

/-- Reply with a status and no results. -/
def fail (fn : Nat) (seq : Word) (st : Status) (s : State) : State := finishCmd s fn seq st 0 []
/-- Reply OK with results from byte 16 on. -/
def reply (fn : Nat) (seq : Word) (results : List Byte) (s : State) : State := finishCmd s fn seq .ok 0 results
/-- Firmware reads `n` bytes of a lease's memory at `off`, and finds `f` at byte `at_` of them (18 R425, R426). -/
def fwRead (l off n at_ : Nat) (f : Finding) (s : State) : State :=
  match f with
  | .clean => s
  | f => if at_ < n && s.inLease l off n then hbmFinding l (off + at_) 1 0 f s else s
/-- The command goes on waiting. -/
def waitFor (fn : Nat) (seq : Word) (w : CmdWait) (s : State) : State := updFlight s fn seq (fun y => { y with wait := w })

/-! ### Discovery (16 Table 16.7, 03 R66, R74) -/

/-- QUERY_CAPS (03 R66). -/
def execQueryCaps (fn : Nat) (seq : Word) (s : State) : Host.Outcome State Fault Refusal :=
  done (onCmd fn seq 0x01 none (fun _ s => reply fn seq
    (leBytes s.capFitted.toNat 4 ++ leBytes s.capUsable.toNat 4 ++ leBytes s.capCounts.toNat 4 ++
      leBytes s.capChannels.toNat 4 ++ leBytes s.idPart.toNat 4 ++ leBytes idFwIf.toNat 4 ++
      leBytes s.dev.capGen.toNat 4 ++ leBytes (s.limitOf fn) 2 ++ leBytes (s.openOf fn).length 2 ++
      leBytes s.devState.toNat 1) s) s)

/-- A record of the tile map (03 Table 3.7).  A fitted die that is not usable has die_state 0, with its other fields kept:
DESIGN CHOICE, log 148. -/
def dieRecord (s : State) (d : Nat) : List Byte :=
  if d < s.nDies then
    let m := s.dev.dies.get {} d
    let bits := (upTo 144).map (fun i => BitVec.ofNat 8 ((upTo 8).foldl
      (fun a k => a + b2n (s.absent (d * 1152 + 8 * i + k)) * 2 ^ k) 0))
    leBytes (b2n (s.dieUsable d)) 1 ++ leBytes (m.steered.getD 0xFF) 1 ++ leBytes m.failed 1 ++ leBytes 0 1 ++
      leBytes m.epoch.toNat 4 ++ leBytes 0 8 ++ bits ++ leBytes 0 96
  else leBytes 0 1 ++ leBytes 0xFF 1 ++ leBytes 0 254

/-- The tile map (03 R74). -/
def tileMap (s : State) : List Byte :=
  leBytes s.dev.capGen.toNat 4 ++ leBytes (s.dev.absent.filter (fun e => e.2)).length 2 ++
    leBytes (s.capFitted.toNat % 16) 1 ++ leBytes 0 57 ++ (upTo 4).flatMap (dieRecord s)

/-- QUERY_TILEMAP (03 R74, R76): written whole to the host buffer, then the reply. -/
def execQueryTilemap (fn : Nat) (seq : Word) (s : State) : Host.Outcome State Fault Refusal :=
  done (onCmd fn seq 0x02 none (fun b s =>
    let a := fieldAt b 8 8
    if a % 64 ≠ 0 then fail fn seq .badArg s
    else if !(s.canSend fn) then fail fn seq .peerUnreachable s
    else reply fn seq (leBytes s.dev.capGen.toNat 4) (s.writeHost fn a (tileMap s))) s)

/-- Patina log records still in the ring. -/
def logCount (s : State) : Nat := min s.ras.logNext 31232

/-- The highest junction temperature that telemetry last read, in 1/16 °C. -/
def topTemp (s : State) : Int :=
  ((upTo s.nDies).map (fun d => (s.clkOf d).temp)).foldl (fun a t => if a < t then t else a) (s.clkOf 0).temp

/-- QUERY_HEALTH (16 Table 16.7). -/
def execQueryHealth (fn : Nat) (seq : Word) (s : State) : Host.Outcome State Fault Refusal :=
  done (onCmd fn seq 0x03 none (fun _ s => reply fn seq
    (leBytes s.devState.toNat 1 ++ leBytes (if s.quenched then s.power.cause else 0) 1 ++
      leBytes (b2n s.ras.cfgDisabled) 1 ++ leBytes 0 1 ++ leBytes (ofSigned 16 (topTemp s)) 2 ++
      leBytes s.power.modulePower 2 ++ leBytes (logCount s) 4 ++
      leBytes ((s.fnOf fn).evtNumber - (s.fnOf fn).evtDropped).toNat 4) s) s)

/-! ### Power policy (20 R493, Table 20.6) -/

/-- Stage and commit a group for a command, which then waits for the transfer.  While an earlier commit is pending the
command has not acted yet (00 R16 would drop its write). -/
def policyCommit (fn : Nat) (seq : Word) (g : Group) (merge : Nat → Nat) (s : State) : State :=
  if (s.groupOf g).pending then s
  else waitFor fn seq (.commit g) (writeCommit g 1 (s.stage g merge))

/-- A frequency in MHz is a multiple of 25 within [lo, 2000] (20 R493, Table 20.4). -/
def freqOk (mhz lo : Nat) : Bool := mhz % 25 == 0 && decide (lo ≤ mhz) && decide (mhz ≤ 2000)

/-- POWER_POLICY sub-operation 0. -/
def execPowerPolicyFrequency (fn : Nat) (seq : Word) (s : State) : Host.Outcome State Fault Refusal :=
  done (onCmd fn seq 0x60 (some 0) (fun b s =>
    let d := fieldAt b 9 1
    let cap := fieldAt b 10 2
    let fl := fieldAt b 12 2
    let tc := fieldAt b 14 2
    if s.nDies ≤ d ∨ !(freqOk cap 800) ∨ !(freqOk fl 800) ∨ !(freqOk tc 400) then fail fn seq .badArg s
    else policyCommit fn seq (.freq d) (fun _ => tc / 25 * 65536 + fl / 25 * 256 + cap / 25) s) s)

/-- POWER_POLICY sub-operation 1. -/
def execPowerPolicyModuleCap (fn : Nat) (seq : Word) (s : State) : Host.Outcome State Fault Refusal :=
  done (onCmd fn seq 0x60 (some 1) (fun b s =>
    let w := fieldAt b 10 2
    if w < 400 ∨ 1600 < w then fail fn seq .badArg s
    else policyCommit fn seq .power (fun old => natPut old 0 16 w) s) s)

/-- POWER_POLICY sub-operation 2. -/
def execPowerPolicyLending (fn : Nat) (seq : Word) (s : State) : Host.Outcome State Fault Refusal :=
  done (onCmd fn seq 0x60 (some 2) (fun b s =>
    if 1 < fieldAt b 9 1 then fail fn seq .badArg s
    else policyCommit fn seq .power (fun old => natPut old 16 1 (fieldAt b 9 1)) s) s)

/-- POWER_POLICY sub-operation 3. -/
def execPowerPolicyScrubCap (fn : Nat) (seq : Word) (s : State) : Host.Outcome State Fault Refusal :=
  done (onCmd fn seq 0x60 (some 3) (fun b s =>
    let k := fieldAt b 9 1
    let p := fieldAt b 10 1
    if 2 < k ∨ p < 1 ∨ 100 < p then fail fn seq .badArg s
    else policyCommit fn seq .scrub (fun old => natPut old (8 * k) 8 p) s) s)

/-! ### Steward commands (16 Table 16.14) -/

/-- STEWARD_INFO. -/
def execStewardInfo (fn : Nat) (seq : Word) (s : State) : Host.Outcome State Fault Refusal :=
  done (onCmd fn seq 0x70 none (fun _ s =>
    let dormant := (s.own.leases.filter (fun e => e.2.st = .dormant)).length
    reply fn seq (leBytes s.host.steward 2 ++ leBytes s.host.lockGen.toNat 1 ++ leBytes (b2n s.host.lockAband) 1 ++
      leBytes s.openIds.length 2 ++ leBytes dormant 2) s) s)

/-- VF_PARTITION. -/
def execVfPartition (fn : Nat) (seq : Word) (s : State) : Host.Outcome State Fault Refusal :=
  done (onCmd fn seq 0x71 none (fun b s =>
    let f := fieldAt b 8 2
    let n := fieldAt b 10 2
    if !(s.fnExists f) ∨ s.nLeases < n then fail fn seq .badArg s
    else reply fn seq [] { s with host := { s.host with limits := s.host.limits.set none f (some n) } }) s)

/-- FW_STAGE (21 R517, R519, 19 R452). -/
def execFwStage (fn : Nat) (seq : Word) (readBackOk : Bool) (at_ : Nat) (f : Finding) (s : State) :
    Host.Outcome State Fault Refusal :=
  done (onCmd fn seq 0x72 none (fun b s0 =>
    let l := msgLease b
    let off := fieldAt b 16 8
    let len := fieldAt b 24 4
    let s := if len ≤ 16777216 then fwRead l off len at_ f s0 else s0
    if 16777216 < len ∨ !(s.inLease l off len) then fail fn seq .badArg s
    else
      let img := s.hbmRead l off len
      match imgCheck s fwMagic img with
      | .malformed => fail fn seq .badArg s
      | .key => fail fn seq .ingotSignature s
      | .svn => fail fn seq .locked s
      | .ok =>
        if s.boot.updating.isSome then fail fn seq .busy s
        else
          let s1 := endUpdate img readBackOk (beginUpdate img s)
          if readBackOk then
            reply fn seq (leBytes (inactiveSlot s) 1 ++ leBytes 0 3 ++ leBytes (imgVersion img) 4) s1
          else fail fn seq .ingotSignature s1) s)

/-- FW_ACTIVATE (21 R518, R515): with now, a module reset is asked for after the reply. -/
def execFwActivate (fn : Nat) (seq : Word) (s : State) : Host.Outcome State Fault Refusal :=
  done (onCmd fn seq 0x73 none (fun b s =>
    let k := fieldAt b 8 1
    let now := fieldAt b 9 1
    if 1 < k ∨ 1 < now ∨ (s.boot.slots.get {} k).state ≠ 2 then fail fn seq .badArg s
    else if now = 1 ∧ (s.quenched ∨ !s.bound.isEmpty) then fail fn seq .busy s
    else
      let s1 := reply fn seq [] (selectSlot k s)
      if now = 1 then { s1 with boot := { s1.boot with resetPending := 2 } } else s1) s)

/-- QUENCH_ENTER (20 R494, Table 20.5 trigger 6). -/
def execQuenchEnter (fn : Nat) (seq : Word) (s : State) : Host.Outcome State Fault Refusal :=
  done (onCmd fn seq 0x74 none (fun _ s => reply fn seq [] (raiseTrigger 6 s)) s)

/-- QUENCH_EXIT (20 R497). -/
def execQuenchExit (fn : Nat) (seq : Word) (s : State) : Host.Outcome State Fault Refusal :=
  done (onCmd fn seq 0x75 none (fun _ s =>
    if s.power.triggers ≠ 0 then fail fn seq .busy s
    else reply fn seq [] (if s.quenched then leaveQuench s else s)) s)

/-- LOG_READ (18 R449): the records asked for that are still in the ring. -/
def execLogRead (fn : Nat) (seq : Word) (s : State) : Host.Outcome State Fault Refusal :=
  done (onCmd fn seq 0x76 none (fun b s =>
    let first := fieldAt b 8 4
    let count := fieldAt b 12 2
    let lo := max first (s.ras.logNext - 31232)
    let hi := min (first + count) s.ras.logNext
    let bytes := (upTo (hi - lo)).flatMap (fun i => entryBytes (s.ras.log.get 0 ((lo + i) % 31232)))
    if !(s.canSend fn) then fail fn seq .peerUnreachable s
    else reply fn seq (leBytes (hi - lo) 4 ++ leBytes (logCount s) 4)
      (s.writeHost fn (fieldAt b 16 8) bytes)) s)

/-- Absent tiles of die `d`. -/
def absentOn (s : State) (d : Nat) : Nat := (s.dev.absent.filter (fun e => e.2 && tileDie e.1 == d)).length

/-- REMAP_STATUS (16 Table 16.14). -/
def execRemapStatus (fn : Nat) (seq : Word) (s : State) : Host.Outcome State Fault Refusal :=
  done (onCmd fn seq 0x77 none (fun _ s =>
    let steered := (upTo 4).flatMap (fun d => leBytes ((s.dev.dies.get {} d).steered.getD 0xFF) 1)
    let remaps := ((upTo 4).filter (fun d => (s.dev.dies.get {} d).steered.isSome)).length +
      (s.dev.absent.filter (fun e => e.2)).length
    reply fn seq (steered ++ (upTo 4).flatMap (fun d => leBytes (absentOn s d) 2) ++ leBytes remaps 4 ++
      leBytes s.ras.rowsRepaired 4) s) s)

/-! ### Windows (15 R368, R374, Tables 15.4, 15.6) -/

/-- Do two ranges share a byte? -/
def overlaps (a n b m : Nat) : Bool := decide (a < b + m) && decide (b < a + n)

/-- 2 MiB. -/
def winUnit : Nat := 2097152

/-- WINDOW_MAP kind 0 (15 R368, Table 15.4). -/
def execWindowMapInbound (fn : Nat) (seq : Word) (s : State) : Host.Outcome State Fault Refusal :=
  done (onCmd fn seq 0x20 (some 0) (fun b s =>
    let i := fieldAt b 9 1
    let wr := fieldAt b 10 1
    let bo := fieldAt b 16 8
    let len := fieldAt b 24 8
    let ho := fieldAt b 32 8
    let y := s.fnOf fn
    if 15 < i ∨ 1 < wr ∨ bo % winUnit ≠ 0 ∨ len % winUnit ≠ 0 ∨ len < winUnit ∨ ho % winUnit ≠ 0 ∨
        !(s.inLease (msgLease b) ho len) ∨ 2 ^ y.bar2Log2 < bo + len ∨
        y.windows.any (fun e => match e.2 with
          | some w => overlaps bo len w.barOff w.length
          | none => false) then fail fn seq .badArg s
    else if (y.windows.get none i).isSome then fail fn seq .busy s
    else
      let w : InWin := { lease := msgLease b, barOff := bo, length := len, hbmOff := ho, writable := wr == 1 }
      reply fn seq [] (s.updFn fn (fun y => { y with windows := y.windows.set none i (some w) }))) s)

/-- WINDOW_MAP kind 1 (15 Table 15.6). -/
def execWindowMapEntry (fn : Nat) (seq : Word) (s : State) : Host.Outcome State Fault Refusal :=
  done (onCmd fn seq 0x20 (some 1) (fun b s =>
    let i := fieldAt b 9 1
    let at10 := fieldAt b 10 1
    let ba := fieldAt b 16 8
    let len := fieldAt b 24 8
    let l := msgLease b
    if 15 < at10 ∨ at10 % 4 = 0 ∨ ba % 4096 ≠ 0 ∨ len % 4096 ≠ 0 ∨ len < 4096 ∨ 2 ^ 40 < len then fail fn seq .badArg s
    else if ((s.leaseOf l).entries.get none i).isSome then fail fn seq .busy s
    else
      let e : WinEntry := { busAddr := ba, length := len, read := natBit at10 0, write := natBit at10 1,
                            peer := natBit at10 2, runAheadSafe := natBit at10 3 }
      reply fn seq [] (s.updLease l (fun x => { x with entries := x.entries.set none i (some e) }))) s)

/-- No window of the function counts the writes that its window `i` accepted and that are still on their way (15 R371). -/
def forgetWindow (fn i : Nat) (s : State) : State :=
  { s with host := { s.host with writes := s.host.writes.map (fun w =>
      if w.fn = fn ∧ w.window = i then { w with window := 16 } else w) } }

/-- WINDOW_UNMAP kind 0 (15 R372): the window and its landing counter go; writes that it accepted still land. -/
def execWindowUnmapInbound (fn : Nat) (seq : Word) (s : State) : Host.Outcome State Fault Refusal :=
  done (onCmd fn seq 0x21 (some 0) (fun b s =>
    let i := fieldAt b 9 1
    match (s.fnOf fn).windows.get none i with
    | some w =>
      if w.lease = msgLease b then
        reply fn seq [] (forgetWindow fn i (s.updFn fn (fun y => { y with windows := y.windows.set none i none })))
      else fail fn seq .badArg s
    | none => fail fn seq .badArg s) s)

end Sys2Proof.Machine
end

