-- ==== Sys2Proof/Machine/Schedule.lean ====
section
/-! DEFINITION. Tungsten schedules: the image, its directory, the schedule header and operations, and the checks that
staging applies to them (12 R302, 14 R339 to R343, R358). -/
namespace Sys2Proof.Machine

/-- Words of a channel's quarter (14 R335). -/
def quarterWords : Nat := 524288
/-- The address that stands for no best copy. -/
def noBest : Nat := 0xFFFFFFFF

/-! ### Schedule header (14 Table 14.1) -/

def scClass (b : List Byte) : Nat := fieldAt b 0x04 1
def scHorizon (b : List Byte) : Nat := fieldAt b 0x05 1
def scIters (b : List Byte) : Nat := fieldAt b 0x08 4
def scInLen (b : List Byte) : Nat := fieldAt b 0x0C 4
def scInAddr (b : List Byte) : Nat := fieldAt b 0x10 4
def scOutLen (b : List Byte) : Nat := fieldAt b 0x14 4
def scX (b : List Byte) : Nat := fieldAt b 0x18 4
def scBest (b : List Byte) : Nat := fieldAt b 0x1C 4
def scResid (b : List Byte) : Nat := fieldAt b 0x20 4
def scPro (b : List Byte) : Nat := fieldAt b 0x24 4
def scBody (b : List Byte) : Nat := fieldAt b 0x28 4
def scEpi (b : List Byte) : Nat := fieldAt b 0x2C 4
def scData (b : List Byte) : Nat := fieldAt b 0x30 4
def scStage (b : List Byte) : Nat := fieldAt b 0x34 4
/-- Operations of the schedule. -/
def scOps (b : List Byte) : Nat := scPro b + scBody b + scEpi b

/-- Operation `j` as a 128-bit number. -/
def scOp (b : List Byte) (j : Nat) : Nat := fieldAt b (64 + 16 * j) 16
/-- Data word `i`. -/
def scWord (b : List Byte) (i : Nat) : Nat := fieldAt b (64 + 16 * scOps b + 8 * i) 8

/-! ### Operation fields (14 Table 14.3) -/

def opCode (o : Nat) : Nat := natBits o 122 6
def opSub (o : Nat) : Nat := natBits o 118 4
def opCount (o : Nat) : Nat := natBits o 96 22
def opDst (o : Nat) : Nat := natBits o 75 21
def opA (o : Nat) : Nat := natBits o 54 21
def opB (o : Nat) : Nat := natBits o 33 21
def opC (o : Nat) : Nat := natBits o 12 21

/-- The variants that an operation has (14 Table 14.4). -/
def subOk (op sub : Nat) : Bool :=
  match op with
  | 0x01 => decide (sub ≤ 2)
  | 0x02 => decide (sub ≤ 2)
  | 0x03 => decide (sub ≤ 1)
  | 0x04 => decide (sub ≤ 5) || (decide (8 ≤ sub) && decide (sub ≤ 13))
  | 0x05 => decide (sub ≤ 8)
  | 0x07 => decide (sub ≤ 2)
  | 0x0D => decide (sub ≤ 1)
  | _ => sub == 0

/-- The words that each operand of an operation spans, as (address, extent); an index list spans half a word an entry. -/
def extents (o : Nat) : List (Nat × Nat) :=
  let n := opCount o
  let d := opDst o
  let a := opA o
  let b := opB o
  let c := opC o
  let h := (n + 1) / 2
  match opCode o with
  | 0x01 => [(d, 1), (a, n), (b, n)]
  | 0x02 => [(d, 1), (a, n), (c, h)]
  | 0x03 => [(d, n), (a, n), (b, 1)]
  | 0x04 => [(d, n), (a, n), (b, if opSub o < 8 then n else 1)]
  | 0x05 => [(d, 1), (a, 1)] ++ (if opSub o = 5 ∨ opSub o = 6 then [] else [(b, 1)]) ++ (if opSub o = 4 then [(c, 1)] else [])
  | 0x06 => [(d, 1), (a, 1), (b, 1)]
  | 0x07 => if opSub o = 0 then [(d, n), (a, n)] else if opSub o = 1 then [(a, n), (c, h)] else [(d, n), (c, h)]
  | 0x08 => [(d, n), (a, n), (b, n), (c, n)]
  | 0x09 => [(d, 1), (a, n)]
  | 0x0A => [(d, 1), (a, n)]
  | 0x0B => [(d, n * n), (a, n * n), (b, n * n)]
  | 0x0C => [(d, n * n), (b, 1)]
  | 0x0D => [(d, n), (a, n), (b, n * n)]
  | 0x0E => [(d, 1), (a, n)]
  | _ => []

/-- The base address that an index list of the operation is added to. -/
def indexedBase (o : Nat) : Option Nat :=
  if opCode o = 0x02 then some (opB o)
  else if opCode o = 0x07 then (if opSub o = 1 then some (opDst o) else if opSub o = 2 then some (opA o) else none)
  else none

/-- An index value that the data words hold is outside the quarter (14 R343: the values a static walk of the list shows). -/
def indexBad (b : List Byte) (o : Nat) : Bool :=
  match indexedBase o with
  | none => false
  | some base => (upTo (opCount o)).any (fun i =>
      let w := opC o + i / 2
      decide (w < scData b) && decide (quarterWords ≤ base + natBits (scWord b w) (32 * (i % 2)) 32))

/-- The addresses that an operation names, each of which lies in the quarter whatever its extent. -/
def opAddrs (o : Nat) : List Nat := (extents o).map Prod.fst ++ (indexedBase o).toList

/-- An operation that 14 R343 refuses, for a class; an ITER of no value reads none. -/
def operationBad (b : List Byte) (o : Nat) : Bool :=
  let op := opCode o
  decide (0x0E < op) || !subOk op (opSub o) || natBits o 0 12 != 0 || (op == 0x0E && opCount o == 0) ||
  ((scClass b == 5 || scClass b == 6) && (op == 0x0B || op == 0x0C || op == 0x0D) && decide (512 < opCount o)) ||
  (opAddrs o).any (fun a => decide (quarterWords ≤ a)) || (extents o).any (fun e => decide (quarterWords < e.1 + e.2)) ||
  indexBad b o

/-- Two ranges overlap. -/
def rangesMeet (x y : Nat × Nat) : Bool := decide (x.1 < y.1 + y.2) && decide (y.1 < x.1 + x.2)
/-- Two ranges of a list overlap. -/
def anyMeet : List (Nat × Nat) → Bool
  | [] => false
  | x :: r => r.any (rangesMeet x) || anyMeet r

/-- A schedule of `size` bytes whose directory entry gives `cls` and `modes` breaks 14 R343, R339 or R358. -/
def scheduleBad (b : List Byte) (cls modes : Nat) : Bool :=
  let h := scHorizon b
  let best := scBest b
  let ranges := [(scInAddr b, scInLen b), (scX b, scOutLen b)] ++ (if best = noBest then [] else [(best, scOutLen b)])
  decide (b.length < 64) || fieldAt b 0 4 != 0x4C4E5343 || fieldAt b 6 2 != 0 || fieldAt b 0x38 8 != 0 ||
  scClass b != cls || decide (cls < 1) || decide (6 < cls) || h == 0 || decide (scIters b < 1) || decide (65535 < scIters b) ||
  decide (scInLen b < 1) || decide (quarterWords ≤ scInLen b) || decide (scOutLen b < 1) || decide (quarterWords ≤ scOutLen b) ||
  scOutLen b != h * scStage b || decide (b.length < 64 + 16 * scOps b + 8 * scData b) ||
  decide (quarterWords < scData b + 2 * scOps b) || ranges.any (fun r => decide (quarterWords < r.1 + r.2)) ||
  decide (quarterWords ≤ scResid b) || anyMeet ranges ||
  ((modes == 0 || modes == 2) && best == noBest) || ((modes == 0 || modes == 3) && h == 1) ||
  (upTo (scOps b)).any (fun j => operationBad b (scOp b j))

/-! ### The image (12 R302, Table 12.8) -/

/-- Directory entries. -/
def imgEntries (b : List Byte) : Nat := fieldAt b 6 2
def dirChan (b : List Byte) (i : Nat) : Nat := fieldAt b (16 + 16 * i) 1
def dirClass (b : List Byte) (i : Nat) : Nat := fieldAt b (16 + 16 * i + 1) 1
def dirModes (b : List Byte) (i : Nat) : Nat := fieldAt b (16 + 16 * i + 2) 1
def dirOff (b : List Byte) (i : Nat) : Nat := fieldAt b (16 + 16 * i + 4) 4
def dirSize (b : List Byte) (i : Nat) : Nat := fieldAt b (16 + 16 * i + 8) 4
/-- The schedule of directory entry `i`. -/
def dirSched (b : List Byte) (i : Nat) : List Byte := slice b (dirOff b i) (dirSize b i)

/-- The channels of a mask. -/
def maskChans (m : Nat) : List Nat := (upTo 32).filter (natBit m)

/-- A schedule image breaks a rule (12 R302, 14 R343, R358). -/
def imageBad (b : List Byte) (mask : Nat) : Bool :=
  let n := imgEntries b
  decide (b.length < 16) || fieldAt b 0 4 != 0x4C4E5453 || fieldAt b 4 2 != 1 || decide (n < 1) || decide (32 < n) ||
  fieldAt b 8 4 != b.length || fieldAt b 12 4 != 0 || decide (b.length < 16 + 16 * n) ||
  (upTo n).any (fun i =>
    decide (31 < dirChan b i) || decide (3 < dirModes b i) || fieldAt b (16 + 16 * i + 3) 1 != 0 ||
    fieldAt b (16 + 16 * i + 12) 4 != 0 || (upTo i).any (fun k => dirChan b k == dirChan b i) ||
    dirOff b i % 64 != 0 || decide (dirOff b i < 16 + 16 * n) || decide (b.length < dirOff b i + dirSize b i) ||
    scheduleBad (dirSched b i) (dirClass b i) (dirModes b i)) ||
  anyMeet ((upTo n).map (fun i => (dirOff b i, dirSize b i))) ||
  (upTo 32).any (fun c => natBit mask c != (upTo n).any (fun i => dirChan b i == c))

/-- The directory entry of a channel. -/
def imgEntryOf (b : List Byte) (c : Nat) : Option Nat := (upTo (imgEntries b)).find? (fun i => dirChan b i == c)

end Sys2Proof.Machine
end

