-- ==== Sys2Proof/Machine/Ingot.lean ====
section
/-! DEFINITION. The ingot: its header and parts, what the parts name and use, the staging checks, and the commands that
stage, verify and evict it (chapter 12; 04 R78, R93, R102, R104; 05 R106 to R108; 06 R132, R152; 07 R162; 11 R262, R269). -/
namespace Sys2Proof.Machine

/-! ### Header (12 Table 12.2) -/

def igTotal (b : List Byte) : Nat := fieldAt b 0x14 4
def igCrc (b : List Byte) : Nat := fieldAt b 0xFC 4
def igMode (b : List Byte) : Nat := fieldAt b 0x07 1
def igRound (b : List Byte) : Nat := fieldAt b 0x08 1
def igW (b : List Byte) : Nat := fieldAt b 0x09 1
def igH (b : List Byte) : Nat := fieldAt b 0x0A 1
def igUnits (b : List Byte) : Nat := fieldAt b 0x0C 2
def igMask (b : List Byte) : Nat := fieldAt b 0x10 4
def igSeed (b : List Byte) : Nat := fieldAt b 0x18 8
def igUseOff (b : List Byte) : Nat := fieldAt b 0x20 4
def igBilOff (b : List Byte) : Nat := fieldAt b 0x24 4
def igBils (b : List Byte) : Nat := fieldAt b 0x28 4
def igStrOff (b : List Byte) : Nat := fieldAt b 0x2C 4
def igStrs (b : List Byte) : Nat := fieldAt b 0x30 4
def igFrmOff (b : List Byte) : Nat := fieldAt b 0x34 4
def igFrmLen (b : List Byte) : Nat := fieldAt b 0x38 4
def igTsOff (b : List Byte) : Nat := fieldAt b 0x3C 4
def igTsLen (b : List Byte) : Nat := fieldAt b 0x40 4
def igSigOff (b : List Byte) : Nat := fieldAt b 0x44 4
def igMaxRed (b : List Byte) : Nat := fieldAt b 0x48 8

/-- The footprint indexes 8 fy + fx, ascending. -/
def igFps (b : List Byte) : List Nat := (upTo (igH b)).flatMap (fun fy => (upTo (igW b)).map (fun fx => 8 * fy + fx))
/-- A footprint index of a w by h footprint. -/
def inFp (w h i : Nat) : Bool := decide (i % 8 < w) && decide (i / 8 < h)
/-- Record of the tile-use bitmap for the `k`-th footprint region. -/
def igUseRec (b : List Byte) (k : Nat) : Nat := fieldAt b (igUseOff b + 16 * k) 16
/-- Billet-table entry `i`. -/
def igBil (b : List Byte) (i : Nat) : Nat := fieldAt b (igBilOff b + 16 * i) 16
/-- Stream descriptor `i`. -/
def igStr (b : List Byte) (i : Nat) : Nat := fieldAt b (igStrOff b + 128 * i) 128
/-- The Tungsten schedule image, empty when there is none. -/
def igImage (b : List Byte) : List Byte := if igTsOff b = 0 then [] else slice b (igTsOff b) (igTsLen b)

/-- The words of a list of bytes. -/
def wordsOf : List Byte → List Nat
  | a :: b :: c :: d :: r => leNat [a, b, c, d] :: wordsOf r
  | _ => []
/-- The frame stream's words. -/
def igFrames (b : List Byte) : List Nat := wordsOf (slice b (igFrmOff b) (igFrmLen b))

/-! ### Check 3: layout (12 R293, R294) -/

/-- The parts that are present, as (offset, length), the header first (12 R293). -/
def igParts (b : List Byte) : List (Nat × Nat) :=
  let size (off n : Nat) : List (Nat × Nat) := if n = 0 then [] else [(off, n)]
  let opt (off n : Nat) : List (Nat × Nat) := if off = 0 then [] else [(off, n)]
  (0, 256) :: (size (igUseOff b) (16 * igW b * igH b) ++ size (igBilOff b) (16 * igBils b) ++
    size (igStrOff b) (128 * igStrs b) ++ size (igFrmOff b) (igFrmLen b) ++ opt (igTsOff b) (igTsLen b) ++
    opt (igSigOff b) 128)

/-- The header's 256 bytes give a length that an ingot may have. -/
def igLenOk (b : List Byte) : Bool := igTotal b % 64 == 0 && decide (256 ≤ igTotal b) && decide (igTotal b ≤ 67108864)

/-- Check 3 but for the source range. -/
def igLayoutOk (b : List Byte) : Bool :=
  fieldAt b 0 4 == 0x4C4E4947 && fieldAt b 4 2 == 1 && fieldAt b 6 1 == 3 && igLenOk b && igFrmLen b % 4 == 0 &&
  (igParts b).all (fun p => p.1 % 64 == 0 && decide (p.1 + p.2 ≤ igTotal b)) && !(anyMeet (igParts b)) &&
  (igSigOff b == 0 || igSigOff b + 128 == igTotal b)

/-! ### Checks 4 and 5 (12 R303, R304) -/

/-- The image with its crc field taken as zero. -/
def igNoCrc (b : List Byte) : List Byte := b.take 0xFC ++ List.replicate 4 0 ++ b.drop 0x100
/-- The whole-ingot check code holds. -/
def igCrcOk (b : List Byte) : Bool := (crc32c (igNoCrc b)).toNat == igCrc b

/-- The signature block verifies with the lease's key. -/
def igSigned (x : Lease) (b : List Byte) : Bool :=
  let o := igSigOff b
  let blk := slice b o 128
  if o = 0 ∨ fieldAt blk 0 4 ≠ 0x4C4E5347 ∨ 7 < fieldAt blk 4 1 ∨ fieldAt blk 5 11 ≠ 0 ∨ fieldAt blk 112 16 ≠ 0 then false
  else match x.keys.get none (fieldAt blk 4 1) with
    | none => false
    | some k => ecdsaOk (k.toNat / 2 ^ 384) (k.toNat % 2 ^ 384) (sha384 ((igNoCrc b).take o))
        (beNat (slice blk 16 48)) (beNat (slice blk 64 48))

/-! ### Endpoints (12 R295) -/

/-- The class of an ingot endpoint. -/
def ieClass (v : Nat) : Nat := natBits v 13 3
/-- A tile of the ingot by footprint index, column and row: key (9 fp + c) 8 + r. -/
def igTile (fp c r : Nat) : Nat := (9 * fp + c) * 8 + r
def igTileFp (k : Nat) : Nat := k / 72
def igTileCol (k : Nat) : Nat := k / 8 % 9
def igTileRow (k : Nat) : Nat := k % 8
/-- The tile that a class-0 endpoint of the footprint names. -/
def ieTile (w h v : Nat) : Option Nat :=
  if ieClass v = 0 ∧ inFp w h (natBits v 7 6) = true ∧ natBits v 3 4 ≤ 8 then some (igTile (natBits v 7 6) (natBits v 3 4) (natBits v 0 3))
  else none
/-- The tile is a memory tile. -/
def igIsMem (k : Nat) : Bool := igTileCol k == 8
/-- What a field must name. -/
inductive Want where
  | any | compute | memory
deriving DecidableEq, Repr
/-- The endpoint breaks 12 R295, or names what the field does not take. -/
def ieBad (w h v : Nat) (want : Want) : Bool :=
  match ieTile w h v with
  | some k => match want with
    | .any => false
    | .compute => igIsMem k
    | .memory => !(igIsMem k)
  | none => want != .any ||
      !((ieClass v == 1 && decide (natBits v 0 2 ≤ 2) && natBits v 2 11 == 0) || (ieClass v == 2 && natBits v 7 6 == 0))

/-! ### What an examination finds -/

/-- A finding at a place of a part. -/
structure Mark where
  at_ : Nat
  /-- A use that the mode does not accept (check 7); otherwise a broken rule (check 8). -/
  denied : Bool
deriving DecidableEq, Repr

/-- An endpoint field in use, with its place. -/
structure EpUse where
  at_ : Nat
  v : Nat
  want : Want := .any
deriving DecidableEq, Repr

/-- A mark when a condition holds. -/
def markIf (c : Bool) (at_ : Nat) (denied : Bool) : List Mark := if c then [⟨at_, denied⟩] else []
/-- The marks of endpoint fields. -/
def epMarks (w h : Nat) (us : List EpUse) : List Mark := us.flatMap (fun u => markIf (ieBad w h u.v u.want) u.at_ false)

/-- Check 7 on a part: a refused use before the first broken rule (12 R305). -/
def partDenied (ms : List Mark) : Bool :=
  ms.any (fun m => m.denied && ms.all (fun k => k.denied || decide (m.at_ < k.at_)))
/-- Check 8 on a part. -/
def partBad (ms : List Mark) : Bool := ms.any (fun m => !m.denied)

/-! ### Frame-stream words (11 Table 11.5) -/

def cmdOp (w : Nat) : Nat := natBits w 28 4
def cmdCount (w : Nat) : Nat := natBits w 0 10
def cmdReg (w : Nat) : Nat := natBits w 0 12
def cmdRegion (w : Nat) : Nat := natBits w 0 7
def cmdAddr (w : Nat) : Nat := natBits w 0 20 * 4096
/-- The word is a reserved command or holds a reserved field value (11 Table 11.8 cause 1). -/
def cmdReserved (w : Nat) : Bool :=
  match cmdOp w with
  | 0 => natBits w 0 28 != 0
  | 1 => w != 0x1C0F5E01
  | 2 => natBits w 20 8 != 0
  | 3 => natBits w 10 18 != 0 || cmdCount w == 0 || decide (576 < cmdCount w)
  | 4 => natBits w 12 16 != 0 || !(decide (cmdReg w ≤ 5) || (decide (0x10 ≤ cmdReg w) && decide (cmdReg w ≤ 0x12)))
  | 5 => natBits w 0 28 != 0
  | 6 => natBits w 9 19 != 0 || natBit w 7 || (decide (64 ≤ cmdRegion w) && cmdRegion w != 0x7F)
  | 7 => natBits w 7 21 != 0 || (decide (64 ≤ cmdRegion w) && cmdRegion w != 0x7F)
  | 8 => natBits w 0 28 != 0
  | _ => true
/-- Operand words that follow a command word. -/
def cmdOperands (w : Nat) : Nat := if cmdOp w = 3 then 64 * cmdCount w else if cmdOp w = 4 ∨ cmdOp w = 5 then 1 else 0
/-- A configuration-register value holds a reserved bit (11 Table 11.6). -/
def cregReserved (r v : Nat) : Bool :=
  match r with
  | 0x10 => natBits v 8 24 != 0
  | 0x11 => natBits v 14 2 != 0
  | 0x12 => natBits v 16 16 != 0
  | _ => false
/-- Frames of a column-band, and of a tile in it. -/
def bandFrames (c : Nat) : Nat := if c = 8 then 128 else 576
def tileFrames (c : Nat) : Nat := if c = 8 then 16 else 72

/-- A region group being examined. -/
structure FGroup where
  fp : Nat
  ok : Bool
  col : Option Nat := none
  addr : Option Nat := none
  crc : Word := 0xFFFFFFFF
  unchecked : Bool := false
  home : Option (Nat × Nat) := none
  count : Nat := 0
deriving DecidableEq, Repr

/-- The examination of a frame stream so far: frames by key 1024 tile + index, with their places. -/
structure FScan where
  pos : Nat := 0
  g : Option FGroup := none
  opened : List Nat := []
  sealed_ : List Nat := []
  passed : Bool := false
  marks : List Mark := []
  frames : Table (Nat × Frame) := []
  homes : List EpUse := []
deriving DecidableEq, Repr

/-- Note a broken rule. -/
def FScan.bad (x : FScan) (c : Bool) : FScan := if c then { x with marks := x.marks ++ [⟨x.pos, false⟩] } else x
/-- CRC register after checked words. -/
def crcWords (c : Word) (ws : List Nat) : Word := ws.foldl (fun c w => crcWord c (BitVec.ofNat 32 w)) c

/-- The frames of a FRAME_DATA, with their places. -/
def scanData (x : FScan) (g : FGroup) (n : Nat) (ws : List Nat) : FScan :=
  match g.addr, g.col with
  | some i, some c =>
    if bandFrames c < i + n then x.bad true
    else
      let put (t : Table (Nat × Frame)) (j : Nat) : Table (Nat × Frame) :=
        let k := igTile g.fp c ((i + j) / tileFrames c) * 1024 + (i + j) % tileFrames c
        t.ins k (x.pos + 1 + 64 * j, frameOfWords (((ws.drop (64 * j)).take 64).map (BitVec.ofNat 32)))
      { x with g := some { g with addr := some (i + n), crc := crcWords g.crc ws, unchecked := true },
               frames := if g.ok then (upTo n).foldl put x.frames else x.frames }
  | _, _ => x.bad true

/-- Examine one command with its operand words (11 R264 to R269). -/
def scanCmd (w h : Nat) (x : FScan) (cw : Nat) (ws : List Nat) : FScan :=
  let y := { x with passed := false }
  match cmdOp cw with
  | 0 => { x with passed := false }
  | 1 => y.bad true
  | 8 => y.bad true
  | 6 =>
    let fp := natBits cw 0 6
    let ok := inFp w h fp && !(x.opened.contains fp)
    let z := (y.bad x.g.isSome).bad (natBits cw 6 3 != 0 || !ok)
    { z with g := some { fp := fp, ok := ok }, opened := if ok then x.opened ++ [fp] else x.opened }
  | op =>
    match x.g with
    | none => y.bad true
    | some g =>
      if op = 2 then
        let a := cmdAddr cw
        let c := natBits a 24 6
        let i := natBits a 12 10
        if natBits a 30 2 ≠ 0 ∨ natBits a 22 2 ≠ 0 ∨ 8 < c ∨ bandFrames c ≤ i then
          { y.bad true with g := some { g with addr := none } }
        else
          let z := y.bad (g.unchecked && g.col != some c)
          let z1 := z.bad (g.col.any (fun k => decide (c < k)))
          { z1 with g := some { g with col := some c, addr := some i } }
      else if op = 3 then scanData y g (cmdCount cw) ws
      else if op = 4 then
        let v := ws.getD 0 0
        let r := cmdReg cw
        let z := y.bad (decide (r ≤ 5) || cregReserved r v)
        { z with g := some { g with crc := crcWords g.crc [v],
                                    home := if r = 0x11 then some (x.pos, v / 65536) else g.home,
                                    count := if r = 0x12 then v else g.count } }
      else if op = 5 then
        if (g.crc ^^^ 0xFFFFFFFF#32).toNat = ws.getD 0 0 then
          { x with passed := true, g := some { g with crc := 0xFFFFFFFF, unchecked := false } }
        else { y.bad true with g := some { g with crc := 0xFFFFFFFF } }
      else
        let z := y.bad (cmdRegion cw != g.fp || !x.passed || g.unchecked)
        { z with g := none, sealed_ := if g.ok then z.sealed_ ++ [g.fp] else z.sealed_,
                 homes := z.homes ++ (match g.home with
                   | some (p, v) => if g.count = 0 then [] else [⟨p, v, .any⟩]
                   | none => []) }

/-- Examine a frame stream; an unreadable command or a missing operand ends the examination there. -/
def scanFrames (w h : Nat) (x : FScan) (ws : List Nat) : Nat → FScan
  | 0 => x
  | n + 1 =>
    match ws with
    | [] => x
    | cw :: r =>
      let k := cmdOperands cw
      if cmdReserved cw ∨ r.length < k then x.bad true
      else
        let y := scanCmd w h x cw (r.take k)
        scanFrames w h { y with pos := x.pos + 1 + k } (r.drop k) n

/-- The whole frame stream of an ingot. -/
def igScan (b : List Byte) : FScan :=
  let ws := igFrames b
  let x := scanFrames (igW b) (igH b) {} ws ws.length
  let y := { x with pos := ws.length }
  y.bad (x.g.isSome || (igFps b).any (fun i => !(x.sealed_.contains i)))

/-! ### Settings frames (11 R262, 12 R300, R301) -/

/-- Frame `f` of tile `k`, and its place. -/
def FScan.frame (x : FScan) (k f : Nat) : Frame := (x.frames.get (0, 0) (k * 1024 + f)).2
def FScan.place (x : FScan) (k f : Nat) : Nat := (x.frames.get (0, 0) (k * 1024 + f)).1
/-- Word `w` of frame `f` of tile `k`. -/
def FScan.word (x : FScan) (k f w : Nat) : Nat := frameWord (x.frame k f) w
/-- The tiles that the stream writes. -/
def FScan.tiles (x : FScan) : List Nat :=
  (x.frames.foldl (fun (a : List Nat) e => if a.head? = some (e.1 / 1024) then a else e.1 / 1024 :: a) []).reverse

/-- Bits of word `w` of a compute tile's settings frame that are not reserved. -/
def cMask (f w : Nat) : Nat :=
  match f with
  | 64 => if w < 16 then 0xFFFFFFFF else if w = 16 then 0x3F else 0
  | 65 => match w % 16 with
    | 0 => 7
    | 1 => 0xFFFF
    | 2 => 0xFFFF
    | 3 => 0xFFF
    | _ => 0
  | 66 => match w % 16 with
    | 0 => 0x033FFFFF
    | 1 => 0xFFFF0007
    | 2 => 0xFFFF0FFF
    | 3 => 0xFFFF
    | _ => 0
  | 67 => if w % 8 = 0 then 0xFFFFFFFF else 0
  | _ => 0
/-- Bits of word `w` of a memory tile's frame that are not reserved. -/
def mMask (f w : Nat) : Nat :=
  match f with
  | 0 => if w < 34 then 0xFFFFFFFF else 0
  | 1 => if w < 32 then 0xFFFFFFFF else 0
  | 2 => match w % 4 with
    | 0 => 0xFFFF003F
    | 1 => 0xFFFFFFFF
    | 2 => 0x3FFFF
    | _ => 0
  | 3 => 0x3FFFFF
  | 4 => 0x3FFFFF
  | 5 => 0x3FFFFF
  | 6 => 0x3FFFFF
  | 7 => if w < 16 then 0x1F else 0
  | 8 => if 20 ≤ w then 0 else if w % 4 = 0 then 0x1FFFF else if w % 4 = 1 then 0xFFFF else 0
  | _ => 0
/-- Marks of the reserved bits of frame `f` of tile `k`. -/
def maskMarks (x : FScan) (k f : Nat) (mask : Nat → Nat → Nat) : List Mark :=
  (upTo 64).flatMap (fun w => markIf (x.word k f w &&& mask f w != x.word k f w) (x.place k f + w) false)

/-- The stream index that output setting `j` of compute tile `k` uses (12 R301). -/
def osetStream (x : FScan) (k j : Nat) : Option Nat :=
  let v := x.word k 67 (8 * j)
  if natBit v 31 then some (v % 65536) else none
/-- The bundles of a compute tile that are not empty, with their numbers and places. -/
def tileBundles (x : FScan) (k : Nat) : List (Nat × Nat × Nat) :=
  (upTo 256).filterMap (fun i =>
    let b := natBits (x.frame k (i / 4)).toNat (512 * (i % 4)) 512
    if b = 0 then none else some (i, x.place k (i / 4) + 16 * (i % 4), b))
/-- The outlets that a tile's bundles push to. -/
def tilePushes (x : FScan) (k : Nat) : List Nat :=
  (upTo 4).filter (fun n => (tileBundles x k).any (fun b => (movePushes b.2.2).contains n || tensorOutlet b.2.2 == some n))

/-! ### Loops (06 R152) -/

/-- LOOPs and BRs of a tile: (bundle, target, place). -/
def ctlOf (op : Nat) (bs : List (Nat × Nat × Nat)) : List (Nat × Nat × Nat) :=
  bs.filterMap (fun b => if cOp (ctlSlot b.2.2) = op then some (b.1, cTarget (ctlSlot b.2.2), b.2.1) else none)
/-- The loops whose body holds bundle `i`. -/
def loopsAt (ls : List (Nat × Nat × Nat)) (i : Nat) : List Nat :=
  (ls.filter (fun l => decide (l.1 < i) && decide (i ≤ l.2.1))).map Prod.fst
/-- Marks of a tile's loops and branches: two bodies, from LOOP + 1 to the target, meet without one holding the other, or four
others hold one. -/
def loopMarks (bs : List (Nat × Nat × Nat)) : List Mark :=
  let ls := ctlOf 2 bs
  let brs := ctlOf 1 bs
  ls.flatMap (fun l => markIf (decide (l.2.1 ≤ l.1) ||
      ls.any (fun m => decide (m.1 < l.1) && decide (l.1 < m.2.1) && decide (m.2.1 < l.2.1)) ||
      decide (4 ≤ (ls.filter (fun m => decide (m.1 < l.1) && decide (l.2.1 ≤ m.2.1))).length)) l.2.2 false) ++
  brs.flatMap (fun r => markIf (loopsAt ls r.1 != loopsAt ls r.2.1) r.2.2 false)

/-! ### Tiles -/

/-- The output format of a stream descriptor. -/
def sdFmt (d : Nat) : Nat := natBits d (64 * 11) 4
/-- A field of a stream descriptor. -/
def sd (d w lo len : Nat) : Nat := natBits d (64 * w + lo) len

/-- Marks and endpoint uses of a compute tile. -/
def computeMarks (b : List Byte) (x : FScan) (k : Nat) : List Mark × List EpUse :=
  let m := igMode b
  let bs := tileBundles x k
  let fmtOf (j : Nat) : Option Nat := (osetStream x k j).map (fun i => sdFmt (igStr b i))
  let res := [64, 65, 66, 67, 68, 69, 70, 71].flatMap (fun f => maskMarks x k f cMask)
  let sets := (upTo 8).flatMap (fun j =>
    let v := x.word k 67 (8 * j)
    markIf (if natBit v 31 then natBits v 16 15 != 0 || decide (igStrs b ≤ v % 65536) else v != 0) (x.place k 67 + 8 * j) false)
  let bun := bs.flatMap (fun c =>
    markIf (bundleBad m fmtOf c.2.2 || bundleBadFormat m c.2.2) c.2.1 false ++ markIf (bundleDenied m c.2.2) c.2.1 true)
  let ins := (upTo 4).flatMap (fun n =>
    let kind := x.word k 65 (16 * n)
    markIf (decide (4 < kind)) (x.place k 65 + 16 * n) false ++ markIf (kind == 2 && m != 0) (x.place k 65 + 16 * n) true)
  let outs := (upTo 4).flatMap (fun n =>
    markIf ((natBit (x.word k 66 (16 * n)) 24 || natBit (x.word k 66 (16 * n)) 25) && m != 0) (x.place k 66 + 16 * n) true)
  let inEps := (upTo 4).flatMap (fun n =>
    let kind := x.word k 65 (16 * n)
    if kind = 1 ∨ kind = 3 then [(⟨x.place k 65 + 16 * n + 1, x.word k 65 (16 * n + 1) % 65536, .any⟩ : EpUse)] else [])
  let outEps := (upTo 4).flatMap (fun n =>
    (if (tilePushes x k).contains n then [(⟨x.place k 66 + 16 * n, x.word k 66 (16 * n) % 65536, .any⟩ : EpUse)] else []) ++
    (if x.word k 66 (16 * n + 1) % 4 = 3 then [(⟨x.place k 66 + 16 * n + 3, x.word k 66 (16 * n + 3) % 65536, .any⟩ : EpUse)] else []))
  (res ++ sets ++ bun ++ ins ++ outs ++ loopMarks bs, inEps ++ outEps)

/-- Marks and endpoint uses of a memory tile; `fed` are the stream ports that a stream of the ingot feeds (12 R296). -/
def memoryMarks (b : List Byte) (x : FScan) (fed : List (Nat × Nat)) (k : Nat) : List Mark × List EpUse :=
  let m := igMode b
  let res := (upTo 16).flatMap (fun f => maskMarks x k f mMask)
  let watch (i : Nat) : Bool := natBits (x.word k 2 (4 * i + 1)) 16 16 != 0
  let ws := (upTo 16).flatMap (fun i =>
    markIf (!(watch i) && (x.word k 2 (4 * i) != 0 || x.word k 2 (4 * i + 1) != 0 || x.word k 2 (4 * i + 2) != 0))
      (x.place k 2 + 4 * i) false)
  let wEps := (upTo 16).flatMap (fun i =>
    if watch i then [(⟨x.place k 2 + 4 * i + 2, x.word k 2 (4 * i + 2) % 65536, .compute⟩ : EpUse)] else [])
  let len (j : Nat) : Nat := x.word k 7 j % 32
  let lat := (upTo 16).flatMap (fun j =>
    markIf (decide (16 < len j)) (x.place k 7 + j) false ++
    (upTo 16).flatMap (fun q => markIf (len j == 0 && x.word k (3 + j / 4) (16 * (j % 4) + q) != 0)
      (x.place k (3 + j / 4) + 16 * (j % 4) + q) false))
  let lEps := (upTo 16).flatMap (fun j => (upTo (min 16 (len j))).map (fun q =>
    (⟨x.place k (3 + j / 4) + 16 * (j % 4) + q, x.word k (3 + j / 4) (16 * (j % 4) + q) % 65536, .any⟩ : EpUse)))
  let ps := (upTo 5).flatMap (fun p => markIf (natBit (x.word k 8 (4 * p)) 16 && m != 0) (x.place k 8 + 4 * p) true)
  let pEps := (upTo 5).flatMap (fun p =>
    if fed.contains (k, p) ∧ natBit (x.word k 8 (4 * p)) 16 = false then
      [(⟨x.place k 8 + 4 * p, x.word k 8 (4 * p) % 65536, .any⟩ : EpUse)] else [])
  (res ++ ws ++ lat ++ ps, wEps ++ lEps ++ pEps)

/-! ### Streams (12 R298, R299, 07 R162, 10 R236) -/

/-- Bits that a descriptor may set (12 Table 12.6). -/
def descMask : List Nat :=
  [0x00FFFFFF0000FFFF, 0x000000FFFFFFFFFF, 0x0007FFFFFFFFFFFF, 0x003FFFFFFFFF0FFF, 0x0007FFFF00FFFFFF, 0xFFFFFFFFFFFFFFFF,
   0x0FFFFFFFFFFFFFFF, 0x00000FFFFFFFFFFF, 0x000007FFFFFFFFFF, 0xFFFF0FFFFFFF0007, 0xFFFF001FFFFFFFFF, 0xFFFFFFFF00001FFF,
   0x000000000003FFFF, 0xFFFFFFFF3FFFFFFF, 0x0000FFFFFFFFFFFF, 0]

def sdOwner (d : Nat) : Nat := sd d 0 0 16
def sdEngine (d : Nat) : Nat := sd d 0 32 3
def sdWrite (d : Nat) : Bool := natBit d 35
def sdOp (d : Nat) : Nat := sd d 0 36 4
def sdExt (d : Nat) : Nat := sd d 0 40 2
def sdWindow (d : Nat) : Nat := sd d 0 48 8
def sdBase (d : Nat) : Nat := sd d 1 0 40
def sdLen (d : Nat) : Nat := sd d 2 0 40
def sdDst (d : Nat) : Nat := sd d 3 32 16
def sdDstPort (d : Nat) : Nat := sd d 3 48 6
def sdUnit (d : Nat) : Nat := 2 ^ sd d 4 21 3
def sdBil (d : Nat) : Nat := sd d 4 32 9
def sdBils (d : Nat) : Nat := sd d 4 41 10
/-- Iterations of dimension `k` minus 1. -/
def sdCount (d k : Nat) : Nat := natBits d (64 * 5 + 16 * k) 16
/-- Signed byte step of dimension `k`. -/
def sdStride (d k : Nat) : Int :=
  toSigned 22 (match k with
    | 0 => sd d 6 16 22
    | 1 => sd d 6 38 22
    | 2 => sd d 7 0 22
    | 3 => sd d 7 22 22
    | _ => sd d 8 0 22)
def sdSigMode (d : Nat) : Nat := sd d 9 0 2
/-- The stream pushes entries to its destination. -/
def sdPushes (d : Nat) : Bool := !(sdWrite d) && sdExt d == 0
/-- The descriptor carries an output. -/
def sdHasOutput (d : Nat) : Bool := natBits d (64 * 11) 256 != 0
/-- The destination endpoint is used: by what the stream pushes, or as the sink of the signals of a write to HBM (12 R296). -/
def sdUsesDst (d : Nat) : Bool := sdPushes d || (sdWrite d && sdExt d == 1 && (sdSigMode d == 1 || sdSigMode d == 2))

/-- Every access of a static walk is aligned and inside the stream's billets (07 R162); the extremes are attained, since
the dimensions are independent. -/
def walkInside (d : Nat) : Bool :=
  let u := sdUnit d
  let base : Int := sd d 4 0 21
  let ext (k : Nat) : Int := sdCount d k * sdStride d k
  let lo := base + (upTo 5).foldl (fun a k => a + min 0 (ext k)) (0 : Int)
  let hi := base + (upTo 5).foldl (fun a k => a + max 0 (ext k)) (0 : Int) + u
  base % u == 0 && (upTo 5).all (fun k => sdCount d k == 0 || sdStride d k % u == 0) &&
  decide ((4096 * sdBil d : Int) ≤ lo) && decide (hi ≤ (4096 * (sdBil d + sdBils d) : Int))

/-- Union of a set of units (as bits) with its copies 1 to `left` steps on, by doubling; `have` copies are in already. -/
def spread (st : Int) : Nat → Nat → Nat → Nat → Nat
  | 0, bits, _, _ => bits
  | f + 1, bits, left, have_ =>
    if left = 0 ∨ st = 0 then bits
    else
      let m := min left have_
      let n := m * st.natAbs
      spread st f (bits ||| (if 0 < st then bits <<< n else bits >>> n)) (left - m) (have_ + m)
/-- The access units that a walk touches, as bits. -/
def walkUnits (d : Nat) : Nat :=
  (upTo 5).foldl (fun bits k => spread (sdStride d k / sdUnit d) 17 bits (sdCount d k) 1) (1 <<< (sd d 4 0 21 / sdUnit d))
/-- A walk reaches a billet that the billet table does not declare for its memory tile. -/
def walkUndeclared (d : Nat) (declared : List Nat) : Bool :=
  let per := 4096 / sdUnit d
  let missing := ((upTo (sdBils d)).map (fun i => sdBil d + i)).filter (fun i => !(declared.contains i))
  if missing.isEmpty then false
  else
    let us := walkUnits d
    missing.any (fun i => natBits us (i * per) per != 0)

/-- The billets that the table declares in memory tile `k`. -/
def declaredIn (b : List Byte) (k : Nat) : List Nat :=
  (upTo (igBils b)).filterMap (fun i =>
    let v := igBil b i
    if igTile (natBits v 26 6) (natBits v 22 4) (natBits v 19 3) = k then some (natBits v 0 9) else none)

/-- Formats that take stochastic rounding (04 R102). -/
def srFormats : List Nat := [4, 5, 6, 7, 10, 11, 12, 13]

/-- The streams that are outputs: their words say so, or a setting names them. -/
def igOutputs (b : List Byte) (x : FScan) : List Nat :=
  let named := (x.tiles.filter (fun k => !(igIsMem k))).flatMap (fun k => (upTo 8).filterMap (osetStream x k))
  (upTo (igStrs b)).filter (fun i => sdHasOutput (igStr b i) || named.contains i)

/-- Marks of descriptor `i`. -/
def streamMarks (b : List Byte) (outs : List Nat) (i : Nat) : List Mark :=
  let d := igStr b i
  let m := igMode b
  let own := ieTile (igW b) (igH b) (sdOwner d)
  let out := outs.contains i
  let fmt := sdFmt d
  let rnd := natBit d (64 * 11 + 4)
  let bytes := if sdExt d = 0 then 4096 * sdBils d else sdLen d
  markIf ((upTo 16).any (fun w => natBits d (64 * w) 64 &&& descMask.getD w 0 != natBits d (64 * w) 64)) i false ++
  markIf (decide (4 < sdEngine d) || sdExt d == 3 || sd d 0 43 2 == 3 || sd d 0 45 2 == 3 || decide (8 < sdOp d) ||
    sd d 4 21 3 == 7 || decide (1024 < sd d 2 40 11) || sdBils d == 0 || decide (512 < sdBil d + sdBils d) ||
    (sd d 0 45 2 == 2 && decide (63 < sd d 3 0 12))) i false ++
  markIf (decide (2 < sd d 11 6 3) || (sd d 11 6 3 == 2 && (sd d 11 9 4 == 0 || decide (8 < sd d 11 9 4)))) i false ++
  markIf (sdOp d != 2 && sdOp d != 3 && sd d 4 21 3 != 7 && (!(walkInside d) ||
    (match own with
     | some k => walkUndeclared d (declaredIn b k)
     | none => false))) i false ++
  markIf (decide (16 < ((upTo (igStrs b)).filter (fun j => sdOwner (igStr b j) == sdOwner d && sdEngine (igStr b j) == sdEngine d)).length))
    i false ++
  markIf (sdWrite d && sdExt d != 0 && sdLen d != 0 && (upTo i).any (fun j =>
    let e := igStr b j
    sdWrite e && sdExt e == sdExt d && (sdExt d == 1 || sdWindow e == sdWindow d) && sdLen e != 0 &&
      rangesMeet (sdBase d, sdLen d) (sdBase e, sdLen e))) i false ++
  markIf (out && ((m == 0 && fmt == 9) || (rnd && m == 0 && !(srFormats.contains fmt)) ||
    (rnd && decide (2 ^ 48 < bytes * 8 / fmtBits fmt)))) i false ++
  markIf (m != 0 && (natBit d 47 || sdOp d == 4)) i true ++
  markIf (out && m != 0 && (!((modeOutputs m).contains fmt) || natBit d (64 * 11 + 5) || rnd)) i true

/-- Endpoint uses of descriptor `i`. -/
def streamEps (b : List Byte) (outs : List Nat) (i : Nat) : List EpUse :=
  let d := igStr b i
  [⟨i, sdOwner d, .memory⟩] ++ (if sdUsesDst d then [⟨i, sdDst d, .any⟩] else []) ++
  (if sdSigMode d = 3 then [⟨i, sd d 10 0 16, .any⟩] else []) ++ (if natBit d (640 + 32) then [⟨i, sd d 10 48 16, .memory⟩] else []) ++
  (if outs.contains i then [⟨i, sd d 13 0 16, .memory⟩] else [])

/-! ### Billets (12 R297) -/

/-- Marks of billet-table entry `i`. -/
def billetMarks (b : List Byte) (i : Nat) : List Mark :=
  let v := igBil b i
  let kind := natBits v 32 8
  let cnt := natBits v 48 16
  let wr := natBits v 64 16
  markIf (natBits v 9 10 != 0 || natBits v 41 7 != 0 || natBits v 80 48 != 0 || natBits v 22 4 != 8 ||
    !(inFp (igW b) (igH b) (natBits v 26 6)) || decide (3 < kind) || (kind == 2 && (cnt == 0 || decide (255 < cnt))) ||
    (kind == 3 && cnt == 0) || (decide (kind < 2) && cnt != 0) ||
    (if kind = 1 ∨ kind = 2 then wr != 0xFFFF && ieBad (igW b) (igH b) wr .compute else wr != 0xFFFE) ||
    (upTo i).any (fun j => natBits (igBil b j) 0 32 == natBits v 0 32)) i false

/-! ### The whole ingot -/

/-- What an examination of every part gives. -/
structure Exam where
  scan : FScan
  outs : List Nat
  header : List Mark
  bitmap : List Mark
  billets : List Mark
  streams : List Mark
  frames : List Mark
  eps : List EpUse
  /-- Tails: the endpoint of the destination, and the tally. -/
  tails : List (Nat × Nat)
deriving DecidableEq, Repr

/-- Examine an image whose layout holds. -/
def examine (b : List Byte) : Exam :=
  let w := igW b
  let h := igH b
  let x := igScan b
  let outs := igOutputs b x
  let m := igMode b
  let hdr := markIf (fieldAt b 0x0B 1 != 0 || fieldAt b 0x0E 2 != 0 || leNat (slice b 0x50 0xAC) != 0 || w == 0 || h == 0 ||
    decide (8 < w) || decide (8 < h) || decide (1024 < igStrs b) || decide (2 ^ 56 < igMaxRed b) ||
    (decide (m < 4) && ((m != 1 && igRound b != 0) || decide (4 < igRound b)))) 0 false
  let bmp := (upTo (w * h)).flatMap (fun k => markIf (natBits (igUseRec b k) 72 56 != 0) k false)
  let ctiles := x.tiles.filter (fun k => !(igIsMem k))
  let cm := ctiles.map (computeMarks b x)
  let fedBy (v p : Nat) : List (Nat × Nat) := match ieTile w h v with
    | some k => [(k, p)]
    | none => []
  let fed := (upTo (igStrs b)).flatMap (fun i => let d := igStr b i; if sdPushes d then fedBy (sdDst d) (sdDstPort d) else [])
  let mm := (x.tiles.filter igIsMem).map (memoryMarks b x fed)
  let sEps := (upTo (igStrs b)).flatMap (streamEps b outs)
  let fEps := (cm ++ mm).flatMap Prod.snd ++ x.homes
  let stails := (upTo (igStrs b)).flatMap (fun i =>
    let d := igStr b i
    if sdSigMode d = 2 then
      [(if sdPushes d || (sdWrite d && sdExt d == 1) then sdDst d else if sdWrite d && sdExt d == 2 then 0x2000 else sdOwner d,
        sd d 9 32 12)] else [])
  let ctails := ctiles.flatMap (fun k => (tilePushes x k).flatMap (fun n =>
    if x.word k 66 (16 * n + 1) % 4 = 2 then [(x.word k 66 (16 * n) % 65536, x.word k 66 (16 * n + 2) % 4096)] else []))
  { scan := x, outs := outs, header := hdr, bitmap := bmp,
    billets := (upTo (igBils b)).flatMap (billetMarks b),
    streams := (upTo (igStrs b)).flatMap (streamMarks b outs) ++ epMarks w h sEps,
    frames := x.marks ++ (cm ++ mm).flatMap Prod.fst ++ epMarks w h fEps,
    eps := sEps ++ fEps, tails := stails ++ ctails }

/-- The tiles that the ingot uses (12 R296). -/
def usedTiles (b : List Byte) (e : Exam) : List Nat :=
  dedup (e.eps.filterMap (fun u => ieTile (igW b) (igH b) u.v) ++
    (e.scan.frames.filter (fun f => f.2.2 != 0)).map (fun f => f.1 / 1024) ++
    (upTo (igBils b)).map (fun i => let v := igBil b i; igTile (natBits v 26 6) (natBits v 22 4) (natBits v 19 3)) ++
    (upTo (igBils b)).filterMap (fun i => ieTile (igW b) (igH b) (natBits (igBil b i) 64 16)))

/-- The footprint region `fp` is the `k`-th of the bitmap. -/
def fpRank (w fp : Nat) : Nat := w * (fp / 8) + fp % 8

/-- Rules that look across parts: the bitmap covers every used tile, the channels named are in the mask, tails have a
target, the schedule image holds (12 R296, R302, 09 R222). -/
def crossBad (b : List Byte) (e : Exam) : Bool :=
  (usedTiles b e).any (fun k => !(natBit (igUseRec b (fpRank (igW b) (igTileFp k))) (8 * igTileCol k + igTileRow k))) ||
  e.eps.any (fun u => ieClass u.v == 2 && !(natBit (igMask b) (natBits u.v 0 5))) ||
  e.tails.any (fun t => match ieTile (igW b) (igH b) t.1 with
    | some k => !(igIsMem k) || decide (63 < t.2) || natBits (e.scan.word k 1 (t.2 / 2)) (16 * (t.2 % 2)) 16 == 0
    | none => true) ||
  (if igTsOff b = 0 then igMask b != 0 else imageBad (igImage b) (igMask b))

/-- Check 7 (12 R305). -/
def modeDenied (b : List Byte) (e : Exam) : Bool :=
  decide (4 ≤ igMode b) || partDenied e.streams || partDenied e.frames
/-- Check 8. -/
def structureBad (b : List Byte) (e : Exam) : Bool :=
  partBad e.header || partBad e.bitmap || partBad e.billets || partBad e.streams || partBad e.frames || crossBad b e

/-- Combining in the network is asked for somewhere (03 R69): by the comb bit of any descriptor, or of any outlet of a compute
tile, whether a bundle pushes to it and whatever its packet kind (DESIGN CHOICE, log 144). -/
def asksComb (b : List Byte) (e : Exam) : Bool :=
  (upTo (igStrs b)).any (fun i => natBit (igStr b i) 47) ||
  (e.scan.tiles.filter (fun k => !(igIsMem k))).any (fun k => (upTo 4).any (fun n => natBit (e.scan.word k 66 (16 * n)) 25))

/-- The engine that serves a channel is usable (03 R59). -/
def engineUsable (s : State) (c : Nat) : Bool := s.usable (12 + c / 4)

/-- The device satisfies a required-units mask now (03 R68, Table 3.5). -/
def unitsSatisfied (s : State) (req mask : Nat) : Bool :=
  (!(natBit req 0) || s.usable 24) && (!(natBit req 1) || s.usable 25) && (!(natBit req 2) || s.usable 26) &&
  (!(natBit req 3) || s.usable 27) && (!(natBit req 4) || (maskChans mask).all (engineUsable s)) &&
  (!(natBit req 5) || (s.usable 2 && s.usable 3)) && natBits req 6 10 == 0

/-- Check 6 (03 R68, R69). -/
def unitAbsent (s : State) (b : List Byte) (e : Exam) : Bool :=
  let req := igUnits b
  !(unitsSatisfied s req (igMask b)) || (igMask b != 0 && !(natBit req 3)) || (igMode b == 1 && !(natBit req 1)) ||
  ((igMode b == 2 || igMode b == 3) && !(natBit req 0)) || (asksComb b e && !(natBit req 2)) ||
  (decide (4 < igH b) && !(natBit req 5))

/-- Checks 6 to 8. -/
def deepCheck (s : State) (b : List Byte) : Status :=
  let e := examine b
  if unitAbsent s b e then .unitAbsent else if modeDenied b e then .modeDenied else if structureBad b e then .badArg else .ok

/-- Checks 3 to 8 of Table 12.9 on the ingot at an offset of the lease's memory: the status, and the header when it lies
in that memory.  Poisoned source bytes fail check 4. -/
def stagingChecks (s : State) (l off : Nat) : Status × Option (List Byte) :=
  if !(s.inLease l off 256) then (.badArg, none)
  else
    let hd := s.hbmRead l off 256
    if !(igLenOk hd) ∨ !(s.inLease l off (igTotal hd)) then (.badArg, some hd)
    else
      let b := s.hbmRead l off (igTotal hd)
      if !(igLayoutOk b) then (.badArg, some hd)
      else if s.hbmAnyPoison l off (igTotal hd) ∨ !(igCrcOk b) then (.ingotCrc, some hd)
      else if (s.leaseOf l).demandSigned ∧ !(igSigned (s.leaseOf l) b) then (.ingotSignature, some hd)
      else (deepCheck s b, some hd)

/-- Firmware reads the ingot at an offset of the lease's memory, and finds `f` at byte `at_` of it. -/
def ingotRead (l off at_ : Nat) (f : Finding) (s : State) : State :=
  let hd := s.hbmRead l off 256
  fwRead l off (if igLenOk hd ∧ s.inLease l off (igTotal hd) = true then max 256 (igTotal hd) else 256) at_ f s

/-- The result bytes of INGOT_STAGE and INGOT_VERIFY (16 Table 16.11). -/
def ingotResults (hd : Option (List Byte)) : List Byte :=
  match hd with
  | some b => leBytes (igTotal b) 4 ++ leBytes (igCrc b) 4
  | none => leBytes 0 8

/-! ### The commands -/

/-- INGOT_STAGE (12 R305, R306). -/
def execIngotStage (fn : Nat) (seq : Word) (at_ : Nat) (f : Finding) (s : State) : Host.Outcome State Fault Refusal :=
  done (onCmd fn seq 0x30 none (fun b s =>
    let l := msgLease b
    let k := fieldAt b 8 1
    let off := fieldAt b 16 8
    if 63 < k then finishCmd s fn seq .badArg 0 (ingotResults none)
    else if ((s.leaseOf l).slots.get none k).isSome then finishCmd s fn seq .busy 0 (ingotResults none)
    else
      let s := ingotRead l off at_ f s
      let r := stagingChecks s l off
      match r.1, r.2 with
      | .ok, some hd =>
        finishCmd (s.updLease l (fun x => { x with
          slots := x.slots.set none k (some { image := s.hbmRead l off (igTotal hd) }) })) fn seq .ok 0 (ingotResults r.2)
      | st, _ => finishCmd s fn seq st 0 (ingotResults r.2)) s)

/-- INGOT_VERIFY (12 R307). -/
def execIngotVerify (fn : Nat) (seq : Word) (at_ : Nat) (f : Finding) (s : State) : Host.Outcome State Fault Refusal :=
  done (onCmd fn seq 0x31 none (fun b s0 =>
    let s := ingotRead (msgLease b) (fieldAt b 16 8) at_ f s0
    let r := stagingChecks s (msgLease b) (fieldAt b 16 8)
    finishCmd s fn seq r.1 0 (ingotResults r.2)) s)

/-- Fields of a sequencer instruction (12 Table 12.10). -/
def iOp (i : DWord) : Nat := natBits i.toNat 58 6
def iSlot (i : DWord) : Nat := natBits i.toNat 52 6

/-- A bound program of the lease has a RUN of the slot, or an emulated channel occupies it (12 R306, 03 R73). -/
def slotInUse (s : State) (l k : Nat) : Bool :=
  s.bound.any (fun e => e.2.lease == l && e.2.code.any (fun i => iOp i == 1 && iSlot i == k)) ||
  s.seq.chans.any (fun e => e.2.lease == some l && e.2.emulated && e.2.emuSlot == k)

/-- Empty a slot; channels no longer hold the schedule "from the same slot" (14 R346). -/
def evictSlot (l k : Nat) (s : State) : State :=
  let s1 := s.updLease l (fun x => { x with slots := x.slots.set none k none })
  { s1 with seq := { s1.seq with chans := s1.seq.chans.mapVals {} (fun _ c =>
      if c.lease = some l ∧ c.schedSlot = some k then { c with schedSlot := none } else c) } }

/-- INGOT_EVICT (12 R306). -/
def execIngotEvict (fn : Nat) (seq : Word) (s : State) : Host.Outcome State Fault Refusal :=
  done (onCmd fn seq 0x32 none (fun b s =>
    let l := msgLease b
    let k := fieldAt b 8 1
    if 63 < k then fail fn seq .badArg s
    else if slotInUse s l k then fail fn seq .busy s
    else reply fn seq [] (evictSlot l k s)) s)

end Sys2Proof.Machine
end

