-- ==== Sys2Proof/Machine/Placement.lean ====
section
/-! DEFINITION. Where a RUN places an ingot, the checks of a RUN, and the relocation of the ingot to its placement: frame
streams, endpoints, billets, descriptors and output settings (03 R59, R70, R71, 11 R263, R270, 12 R295, R297, R300, R301,
R308, R309, 14 R346, R359). -/
namespace Sys2Proof.Machine

/-! ### Placement (12 R308) -/

/-- The region of footprint region (fx, fy) of a RUN with the given origin. -/
def placeOne (origin fx fy : Nat) : Option Nat :=
  let d := origin / 16
  let gc := origin % 4 + 4 * (d % 2) + fx
  let gb := origin % 16 / 4 + 4 * (d / 2) + fy
  if 7 < gc ∨ 7 < gb then none else some (16 * (2 * (gb / 4) + gc / 4) + 4 * (gb % 4) + gc % 4)

/-- The placement of a list of footprint indexes, when every one has a region. -/
def placeAll (origin : Nat) : List Nat → Option (List (Nat × Nat))
  | [] => some []
  | fp :: r =>
    match placeOne origin (fp % 8) (fp / 8), placeAll origin r with
    | some x, some l => some ((fp, x) :: l)
    | _, _ => none

/-- The lease holds the region. -/
def holdsRegion (s : State) (l r : Nat) : Bool := decide (r < s.nRegions) && (s.leaseOf l).regions.getLsbD r

/-- The region on which a footprint index is placed. -/
def placedOn (placed : List (Nat × Nat)) (fp : Nat) : Option Nat := (placed.find? (fun e => e.1 == fp)).map Prod.snd

/-! ### The checks of a RUN (12 R309, 14 R346) -/

/-- The placement uses a tile that the tile map marks absent (03 R71). -/
def usesAbsent (s : State) (b : List Byte) (placed : List (Nat × Nat)) : Bool :=
  placed.any (fun e => (upTo 72).any (fun k =>
    natBit (igUseRec b (fpRank (igW b) e.1)) k && s.absent (regionTile e.2 (k / 8) (k % 8))))

/-- A range from `a` of `n` bytes passes a limit. -/
def passes (a n limit : Nat) : Bool := n != 0 && decide (limit < a + n)

/-- A stream's declared range lies outside the lease's memory or a mapped window, or uses a direction that the window's entry
lacks (12 R309, 15 R375). -/
def rangeBad (s : State) (l d : Nat) : Bool :=
  if sdExt d = 1 then passes (sdBase d) (sdLen d) (s.leaseBytes l)
  else if sdExt d = 2 then
    match (s.leaseOf l).entries.get none (sdWindow d) with
    | none => true
    | some w => passes (sdBase d) (sdLen d) w.length || (if sdWrite d then !w.write else !w.read)
  else false

/-- The checks of a RUN in their order: the status, and the placement. -/
def runChecks (s : State) (l : Nat) (b : List Byte) (origin : Nat) : Status × List (Nat × Nat) :=
  if !(unitsSatisfied s (igUnits b) (igMask b)) then (.unitAbsent, [])
  else match placeAll origin (igFps b) with
    | none => (.badArg, [])
    | some placed =>
      if b.isEmpty || !(placed.all (fun e => holdsRegion s l e.2)) then (.badArg, [])
      else if usesAbsent s b placed then (.tileAbsent, [])
      else if (upTo (igStrs b)).any (fun i => rangeBad s l (igStr b i)) then (.badArg, [])
      else if (maskChans (igMask b)).any (fun c => (s.chanOf c).lease != some l) then (.noLease, [])
      else (.ok, placed)

/-! ### Endpoints (12 Table 12.3, 03 R59, 14 R359) -/

/-- The 13-bit address of a hub unit for packets of a die: it names the die whose hub link they use (08 Table 8.1). -/
def hubEp (s : State) (die unit : Nat) : Nat := hubDie s die * 2048 + 48 * 32 + unit
/-- The address of an engine's attachment: engine 2 d is d/W, 2 d + 1 is d/E. -/
def engineEp (e att : Nat) : Nat := e / 2 * 2048 + (if e % 2 = 0 then 56 else 57) * 32 + att

/-- The channel and attachment of a class-2 endpoint: the address, and the port field that goes with it. -/
def channelEp (s : State) (c att : Nat) : Nat × Nat :=
  let x := s.chanOf c
  if x.emulated then (epOf (regionTile x.region 8 att), c % 4) else (engineEp (c / 4) att, c % 4)

/-- Relocate a 16-bit ingot endpoint held by a tile of die `die`: its 13-bit address, and the port that replaces the
accompanying field for a solver channel.  A field that names nothing is only cut to 13 bits. -/
def relocEp (s : State) (placed : List (Nat × Nat)) (die v : Nat) : Nat × Option Nat :=
  match ieClass v with
  | 0 => match placedOn placed (natBits v 7 6) with
    | some r => if natBits v 3 4 ≤ 8 then (epOf (regionTile r (natBits v 3 4) (natBits v 0 3)), none) else (v % 8192, none)
    | none => (v % 8192, none)
  | 1 => (hubEp s die (natBits v 0 2), none)
  | 2 => let x := channelEp s (natBits v 0 5) (natBits v 5 2)
         (x.1, some x.2)
  | _ => (v % 8192, none)

/-- Rewrite the endpoint at bit `lo` of `w`, and the port of 6 bits at `port` where there is one. -/
def relocField (s : State) (placed : List (Nat × Nat)) (die w lo : Nat) (port : Option Nat) : Nat :=
  let x := relocEp s placed die (natBits w lo 16)
  let w1 := natPut w lo 16 x.1
  match x.2, port with
  | some p, some at_ => natPut w1 at_ 6 p
  | _, _ => w1

/-! ### Frames (12 R300, R301, 11 R263) -/

/-- Word `k % 8` of the live output setting of descriptor `d` (12 Table 12.7). -/
def liveSetting (d k : Nat) : Nat :=
  match k with
  | 0 => sd d 11 0 13
  | 1 => sd d 11 32 32
  | 2 => sd d 10 16 16
  | 3 => sd d 12 0 18
  | _ => 0

/-- Relocate word `i`, of value `w`, of frame `f` of a tile in region-relative column `c`. -/
def relocWord (s : State) (placed : List (Nat × Nat)) (b : List Byte) (die c f : Nat) (ws : List Nat) (i w : Nat) : Nat :=
  if c = 8 then
    if f = 2 ∧ i % 4 = 2 then relocField s placed die w 0 none
    else if 3 ≤ f ∧ f ≤ 6 then relocField s placed die w 0 (some 16)
    else if f = 8 ∧ i % 4 = 0 ∧ i < 20 then relocField s placed die w 0 none
    else w
  else if f = 65 ∧ i % 16 = 1 then relocField s placed die w 0 none
  else if f = 66 ∧ i % 16 = 0 then relocField s placed die w 0 (some 16)
  else if f = 66 ∧ i % 16 = 3 then relocField s placed die w 0 none
  else if f = 67 then
    let u := ws.getD (i / 8 * 8) 0
    if natBit u 31 then liveSetting (igStr b (u % 65536)) (i % 8) else 0
  else w

/-- Relocate the 64 words of frame `f`; the frames other than the settings that hold endpoints are copied. -/
def relocFrame (s : State) (placed : List (Nat × Nat)) (b : List Byte) (die c f : Nat) (ws : List Nat) : List Nat :=
  (ws.zipIdx).map (fun e => relocWord s placed b die c f ws e.2 e.1)

/-- A walk over an ingot's frame stream that relocates it: the groups done, and the one under way, words last first. -/
structure Reloc where
  done : List (Nat × List Nat) := []
  region : Nat := 0
  col : Nat := 0
  index : Nat := 0
  /-- Words of the group so far, in pieces, last first. -/
  out : List (List Nat) := []
  crc : Word := 0xFFFFFFFF
deriving DecidableEq, Repr

/-- What every group of a RUN shares. -/
structure RelocEnv where
  s : State
  placed : List (Nat × Nat)
  img : List Byte
  /-- Registers that firmware writes: (number, value). -/
  fw : List (Nat × Nat)
  roll : Nat → Bool
/-- Firmware's WRITE_CREG words and their CRC_CHECK (11 R270). -/
def firmwareWords (fw : List (Nat × Nat)) : List Nat :=
  (fw.map (fun e => [0x40000000 + e.1, e.2])).flatten ++
    [0x50000000, (crcWords 0xFFFFFFFF (fw.map Prod.snd) ^^^ 0xFFFFFFFF#32).toNat]

/-- The relocated frames of a FRAME_DATA. -/
def relocData (e : RelocEnv) (x : Reloc) (n : Nat) (ws : List Nat) : List Nat :=
  (upTo n).flatMap (fun j => relocFrame e.s e.placed e.img (regionDie x.region) x.col ((x.index + j) % tileFrames x.col)
    ((ws.drop (64 * j)).take 64))

/-- Relocate one command with its operands. -/
def relocCmd (e : RelocEnv) (x : Reloc) (cw : Nat) (ws : List Nat) : Reloc :=
  let put (p : List Nat) : Reloc := { x with out := p :: x.out }
  match cmdOp cw with
  | 2 =>
    let c := natBits (cmdAddr cw) 24 6
    let i := natBits (cmdAddr cw) 12 10
    let a := regionDie x.region * 2 ^ 30 + (9 * (x.region % 4) + c) * 2 ^ 24 + x.region % 16 / 4 * 2 ^ 22 + i * 4096
    { put [0x20000000 + a / 4096] with col := c, index := i }
  | 3 =>
    let fs := relocData e x (cmdCount cw) ws
    { put (cw :: fs) with index := x.index + cmdCount cw, crc := crcWords x.crc fs }
  | 4 =>
    let v := ws.getD 0 0
    let w := if cmdReg cw = 0x11 then relocField e.s e.placed (regionDie x.region) v 16 none else v
    { put [cw, w] with crc := crcWords x.crc [w] }
  | 5 => { put [cw, (x.crc ^^^ 0xFFFFFFFF#32).toNat] with crc := 0xFFFFFFFF }
  | 6 =>
    let r := (placedOn e.placed (natBits cw 0 6)).getD 0
    { x with region := r, crc := 0xFFFFFFFF,
             out := [(0x60000000 + (if e.roll r then 256 else 0) + r) :: firmwareWords e.fw] }
  | 7 => { x with done := x.done ++ [(x.region, (x.out.reverse).flatten ++ [0x70000000 + x.region])], out := [] }
  | _ => put [cw]

/-- Relocate a whole frame stream; `n` bounds the words. -/
def relocWalk (e : RelocEnv) (x : Reloc) (ws : List Nat) : Nat → Reloc
  | 0 => x
  | n + 1 =>
    match ws with
    | [] => x
    | cw :: r => relocWalk e (relocCmd e x cw (r.take (cmdOperands cw))) (r.drop (cmdOperands cw)) n

/-- The relocated groups of an ingot in its order: (region, words from REGION_OPEN to REGION_SEAL). -/
def relocGroups (e : RelocEnv) : List (Nat × List Nat) :=
  let ws := igFrames e.img
  (relocWalk e {} ws ws.length).done

/-! ### Descriptors, billets and settings (12 R297, R298, R301) -/

/-- A stream descriptor with absolute endpoints. -/
def relocDesc (s : State) (placed : List (Nat × Nat)) (d : Nat) : SDesc :=
  let own := (relocEp s placed 0 (sdOwner d)).1
  let die := epDie own
  let d1 := relocField s placed die d 0 none
  let d2 := relocField s placed die d1 (64 * 3 + 32) (some (64 * 3 + 48))
  let d3 := relocField s placed die d2 (64 * 10) none
  let d4 := relocField s placed die d3 (64 * 10 + 48) none
  BitVec.ofNat 1024 (relocField s placed die d4 (64 * 13) none)

/-- Billet-table entry `i`, relocated. -/
def relocBil (s : State) (placed : List (Nat × Nat)) (b : List Byte) (i : Nat) : BilDecl :=
  let v := igBil b i
  let t := regionTile ((placedOn placed (natBits v 26 6)).getD 0) 8 (natBits v 19 3)
  let w := natBits v 64 16
  { tile := t, index := natBits v 0 9, kind := natBits v 32 8, zero := natBit v 40, count := natBits v 48 16,
    writer := if w < 0xFFFE then (relocEp s placed (tileDie t) w).1 else w }

/-- The stream of each output setting in use, with keys 8 tile + setting. -/
def relocOsets (placed : List (Nat × Nat)) (x : FScan) : Table Nat :=
  ((x.tiles.filter (fun k => !(igIsMem k))).foldl (fun t k =>
    match placedOn placed (igTileFp k) with
    | none => t
    | some r => (upTo 8).foldl (fun t j =>
        match osetStream x k j with
        | some i => t.ins (8 * regionTile r (igTileCol k) (igTileRow k) + j) (i + 1)
        | none => t) t) [])

/-- The registers that firmware writes for a section (11 Table 11.6). -/
def firmwareRegs (x : Section) (ctx : Nat) : List (Nat × Nat) :=
  [(0, 2 ^ 31 + x.lease % 1024), (1, x.rounding % 256 * 256 + x.mode % 256), (2, x.tag % 65536),
   (3, x.seed.toNat % 2 ^ 32), (4, x.seed.toNat / 2 ^ 32), (5, ctx % 128)]

/-- The region rolls: the RUN's roll flag is set and the section that it rolls behind holds the region (11 R281). -/
def rollsOn (s : State) (x : Section) (r : Nat) : Bool :=
  x.roll && (match x.behind with
    | none => false
    | some k => match s.secOf k with
      | none => false
      | some y => (y.placed.map Prod.snd).contains r)

/-- The relocated groups of a section's ingot. -/
def secGroups (s : State) (x : Section) : List (Nat × List Nat) :=
  let ctx := match s.progOf x.prog with
    | some p => p.ctx.getD 0
    | none => 0
  relocGroups { s := s, placed := x.placed, img := secImage s x, fw := firmwareRegs x ctx, roll := rollsOn s x }

end Sys2Proof.Machine
end

