-- ==== Sys2Proof/Machine/Vector.lean ====
section
/-! DEFINITION. The vector unit: every operation of slots A and B on register values, with poison by quarter and
strict flags by byte (06 Tables 6.7, 6.8, R133, R134, R154, R557, 05 R110, R116, R117, R125).  A value that the spec leaves
open is a function of the slot and of its operands. -/
namespace Sys2Proof.Machine

/-! ### Quarters -/

/-- The flags of quarter `q` of a register. -/
def flQ (f : ByteFl 256) (q : Nat) : ByteFl 64 := BitVec.ofNat 320 (natBits f.toNat (320 * q) 320)
/-- The flags of the `n` bytes of a value, as a list that is empty where none is raised. -/
def flList (n : Nat) (f : ByteFl n) : List (BitVec 5) := if f = 0 then [] else (upTo n).map (flAt f)
/-- Flags by byte from such a list. -/
def flFrom (n : Nat) (l : List (BitVec 5)) : ByteFl n := if l.isEmpty then 0 else flOf n (fun i => l.getD i 0)
/-- One value's flags in each of its `n` bytes. -/
def flAll (n : Nat) (x : BitVec 5) : ByteFl n := if x = 0 then 0 else flOf n (fun _ => x)
/-- Poison by quarter from a function. -/
def pqOf (f : Nat → Bool) : BitVec 4 := BitVec.ofNat 4 ((upTo 4).foldr (fun q a => b2n (f q) + 2 * a) 0)

/-- The 64 lanes of a register. -/
def lanes32 (f : Frame) : List Nat := (upTo 64).map (frameWord f)
/-- The 32 binary64 values of a register: low half in lane 2i (06 R133). -/
def lanes64 (f : Frame) : List Nat := (upTo 32).map (fun i => natBits f.toNat (64 * i) 64)
/-- A register from its lanes. -/
def ofLanes32 (l : List Nat) : Frame := BitVec.ofNat 2048 (packBits 32 l)
def ofLanes64 (l : List Nat) : Frame := BitVec.ofNat 2048 (packBits 64 l)

/-- The values of an element type's lanes. -/
def lanesOf (dt : Nat) (f : Frame) : List Nat := if dt = 1 then lanes64 f else lanes32 f
def ofLanes (dt : Nat) (l : List Nat) : Frame := if dt = 1 then ofLanes64 l else ofLanes32 l
/-- Lanes of an element type in a quarter. -/
def perQuarter (dt : Nat) : Nat := if dt = 1 then 8 else 16
/-- Format code and format of an element type. -/
def dtFmt (dt : Nat) : Nat := if dt = 1 then 9 else 8
def dtFlt (dt : Nat) : Flt := if dt = 1 then fltFP64 else fltFP32

/-- A vector operand: v0 to v31, or a scalar register in every lane (06 Table 6.7). -/
def vOperand (x : Tile) (sel : Nat) : VReg :=
  if sel < 32 then x.v.get {} sel
  else
    let r := x.s.get {} (sel - 32)
    { v := ofLanes32 (List.replicate 64 r.v.toNat), poison := pqOf (fun _ => r.poison),
      fl := if r.fl = 0 then 0 else flOf 256 (fun i => flAt r.fl (i % 4)) }

/-- Bytes of a lane of an element type. -/
def laneBytes (dt : Nat) : Nat := if dt = 1 then 8 else 4
/-- The flags of each lane of `w` bytes of a register: none where none is raised. -/
def lanesFl (w : Nat) (f : ByteFl 256) : List (BitVec 5) :=
  if f = 0 then [] else (upTo (256 / w)).map (fun i => flAny f (w * i) w)
/-- A register's flags from those of its lanes of `w` bytes. -/
def ofLanesFl (w : Nat) (l : List (BitVec 5)) : ByteFl 256 :=
  if l.all (fun x => x == 0) then 0 else flOf 256 (fun k => l.getD (k / w) 0)
/-- The flags of lane `i` of every operand of a list together. -/
def joinFl (ls : List (List (BitVec 5))) (i : Nat) : BitVec 5 := ls.foldl (fun a l => a ||| l.getD i 0) 0

/-! ### Elementwise operations -/

/-- Operands that a slot A opcode uses. -/
def vaArity (op sub : Nat) : Nat :=
  match op with
  | 0x04 => 3
  | 0x09 => 1
  | 0x0A => 1
  | 0x0C => 1
  | 0x0D => 1
  | 0x0E => if sub = 0 then 2 else 1
  | 0x0F => 1
  | 0x10 => 1
  | 0x11 => 1
  | 0x12 => 1
  | _ => 2

/-- All ones of a lane. -/
def allOnes (dt : Nat) : Nat := if dt = 1 then 2 ^ 64 - 1 else 2 ^ 32 - 1

/-- convertToInteger to INT32 in a direction: the code, and whether it is invalid (05 Table 5.7). -/
def toInt32 (r : Rnd) (v : Val) : Nat × Bool :=
  match rndInt r v with
  | .num n m e =>
    let i : Int := sigAt n m e (min e 0)
    let i := if e < 0 then i / 2 ^ (-e).toNat else i
    (ofSigned 32 (clampInt (-2147483648) 2147483647 i), decide (i < -2147483648) || decide (2147483647 < i))
  | .inf n => (if n then 0x80000000 else 0x7FFFFFFF, true)
  | _ => (0, true)

/-- One floating-point lane: the encoding and its flags (05 R110, R117, R125). -/
def fpLane (c : NumCtx) (dt op sub x y z : Nat) : Nat × BitVec 5 :=
  let f := dtFlt dt
  let a := operand c (dtFmt dt) x 0
  let b := operand c (dtFmt dt) y 0
  let d := operand c (dtFmt dt) z 0
  let withInv (r : Nat × BitVec 5) (inv : Bool) : Nat × BitVec 5 := (r.1, if c.mode = mStrict then r.2 ||| flIf inv flInvalid else 0)
  match op with
  | 0x01 => withInv (finish c f (addVal (sumDown c) a b)) (addInvalid a b)
  | 0x02 => withInv (finish c f (addVal (sumDown c) a (negVal b))) (addInvalid a (negVal b))
  | 0x03 => withInv (finish c f (mulVal a b)) (mulInvalid a b)
  | 0x04 =>
    let p := mulVal a b
    withInv (finish c f (addVal (sumDown c) p d)) (mulInvalid a b || addInvalid p d)
  | 0x05 => finish c f (minMax false a b)
  | 0x06 => finish c f (minMax true a b)
  | 0x07 => finish c f (minMaxNum false a b)
  | 0x08 => finish c f (minMaxNum true a b)
  | 0x09 => finish c f (absVal a)
  | 0x0A => finish c f (negVal a)
  | 0x0B => let r := cmpHolds sub a b; (if r.1 then allOnes dt else 0, if c.mode = mStrict then flIf r.2 flInvalid else 0)
  | 0x0D => finish c f (rndInt (rndOf sub) a)
  | 0x0E => vecFun c f sub a b
  | _ => let r := toInt32 (rndOf sub) a; (r.1, if c.mode = mStrict then flIf r.2 flInvalid else 0)

/-- An INT32 result, or the open value where it leaves the range. -/
def int32Or (free : Word) (i : Int) : Nat :=
  if -2147483648 ≤ i ∧ i ≤ 2147483647 then ofSigned 32 i else free.toNat

/-- A condition of VCMP on integers. -/
def intCmp (cond : Nat) (x y : Int) : Bool :=
  match cond with
  | 0 => x == y
  | 1 => x != y
  | 4 => false
  | 2 => decide (x < y)
  | 5 => decide (x < y)
  | _ => decide (x ≤ y)

/-- One INT32 lane of a numeric opcode. -/
def intLane (free : Word) (op sub x y z : Nat) : Nat :=
  let a := toSigned 32 x
  let b := toSigned 32 y
  match op with
  | 0x01 => int32Or free (a + b)
  | 0x02 => int32Or free (a - b)
  | 0x03 => int32Or free (a * b)
  | 0x04 => int32Or free (a * b + toSigned 32 z)
  | 0x05 => ofSigned 32 (min a b)
  | 0x06 => ofSigned 32 (max a b)
  | 0x07 => ofSigned 32 (min a b)
  | 0x08 => ofSigned 32 (max a b)
  | 0x09 => int32Or free (a.natAbs : Int)
  | 0x0A => int32Or free (-a)
  | 0x0B => if intCmp sub a b then allOnes 0 else 0
  | 0x0D => x
  | 0x12 => x
  | _ => free.toNat

/-- The integer operations that lanes and scalars share: sum, difference, product, and, or, xor, shifts, modulo 2^32
(06 Tables 6.8, 6.10, R557). -/
def intOp (k x y : Nat) : Nat :=
  let n := y % 32
  match k with
  | 0 => (x + y) % 2 ^ 32
  | 1 => (x + 2 ^ 32 - y % 2 ^ 32) % 2 ^ 32
  | 2 => x * y % 2 ^ 32
  | 3 => x &&& y
  | 4 => x ||| y
  | 5 => x ^^^ y
  | 6 => x * 2 ^ n % 2 ^ 32
  | 7 => x / 2 ^ n
  | 8 => ofSigned 32 (toSigned 32 x / 2 ^ n)
  | 9 => ofSigned 32 (min (toSigned 32 x) (toSigned 32 y))
  | _ => ofSigned 32 (max (toSigned 32 x) (toSigned 32 y))

/-! ### Sums and maxima of lanes -/

/-- One rounded addition in a list sum: encoding, and flags so far. -/
def addStep (c : NumCtx) (f : Flt) (s : Val × BitVec 5) (v : Val) : Val × BitVec 5 :=
  let r := finish c f (addVal (sumDown c) s.1 v)
  (decodeFlt f r.1, s.2 ||| r.2 ||| flIf (addInvalid s.1 v) flInvalid)

/-- A sum from left to right. -/
def seqSum (c : NumCtx) (f : Flt) : List Val → Val × BitVec 5
  | [] => (.num false 0 0, 0)
  | v :: r => r.foldl (addStep c f) (v, 0)

/-- One level of pairwise sums. -/
def pairLevel (c : NumCtx) (f : Flt) : List (Val × BitVec 5) → List (Val × BitVec 5)
  | a :: b :: r => let x := addStep c f a b.1; (x.1, x.2 ||| b.2) :: pairLevel c f r
  | l => l

/-- Levels of a pairwise tree. -/
def treeSum (c : NumCtx) (f : Flt) : Nat → List (Val × BitVec 5) → Val × BitVec 5
  | 0, l => l.headD (.num false 0 0, 0)
  | k + 1, l => treeSum c f k (pairLevel c f l)

/-- Consecutive blocks of `n`; `k` bounds their number. -/
def blocksOf (n : Nat) : Nat → List Val → List (List Val)
  | 0, _ => []
  | _, [] => []
  | k + 1, l => l.take n :: blocksOf n k (l.drop n)

/-- VSUM (06 R134): the sum's encoding and flags. -/
def sumLanes (c : NumCtx) (dt sub : Nat) (vs : List Val) : Nat × BitVec 5 :=
  let f := dtFlt dt
  if c.mode = mFast then finish c f (vs.foldl (addVal false) (.num false 0 0))
  else if c.mode = mStrict then
    let r := match sub % 8 with
      | 1 => treeSum c f 6 (vs.map (fun v => (v, 0)))
      | 2 =>
        let bs := (blocksOf (2 ^ (sub / 8 % 16)) 64 vs).map (seqSum c f)
        let t := seqSum c f (bs.map Prod.fst)
        (t.1, bs.foldl (fun (a : BitVec 5) (b : Val × BitVec 5) => a ||| b.2) t.2)
      | _ => seqSum c f vs
    ((encodeStrict f c.rnd r.1).1, r.2)
  else ((encodeStrict f .rne (seqSum c f vs).1).1, 0)

/-- The bits of a value that already has the format. -/
def sameBits (f : Flt) (v : Val) : Nat := (encodeStrict f .rne v).1

/-! ### Slot A -/

/-- The result register of a slot A operation (06 Table 6.8), for `op` not VNOP.  Of a VCVT whose results fill more than the
register (64 binary32 lanes into FP64), the first 256 bytes stand (log 139). -/
def vecA (c : NumCtx) (x : Tile) (v : Nat) : VReg :=
  let op := vOp v
  let sub := vSub v
  let dt := vDtype v
  let a := vOperand x (vSa v)
  let b := vOperand x (vSb v)
  let d := vOperand x (vSc v)
  let n := vaArity op sub
  let fw : Nat → Word := Config.openWord [v, a.v.toNat, b.v.toNat, d.v.toNat]
  let poison := a.poison ||| (if 2 ≤ n then b.poison else 0) ||| (if 3 ≤ n then d.poison else 0)
  let w := laneBytes dt
  let fls := lanesFl w a.fl :: ((if 2 ≤ n then [lanesFl w b.fl] else []) ++ (if 3 ≤ n then [lanesFl w d.fl] else []))
  let fl (raised : List (BitVec 5)) : ByteFl 256 :=
    if fls.all List.isEmpty && raised.all (fun f => f == 0) then 0
    else ofLanesFl w ((upTo (256 / w)).map (fun i => joinFl fls i ||| raised.getD i 0))
  let tri (l m r : List Nat) : List (Nat × Nat × Nat) := l.zip (m.zip r)
  if 0x13 ≤ op then
    { v := ofLanes32 ((tri (lanes32 a.v) (lanes32 b.v) (lanes32 d.v)).map (fun t => intOp (op - 0x13) t.1 t.2.1)),
      poison := poison, fl := fl [] }
  else if op = 0x0C then
    -- VCVT: packed from byte 0; what lies beyond is open
    let fw0 := fmtBits (vFmt v)
    let vs := (lanesOf dt a.v).map (fun y => if dt = 2 then valInt (toSigned 32 y) else operand c (dtFmt dt) y 0)
    let rs := vs.map (fun y => convertOut c (vFmt v) .rne false y)
    let bits := fw0 * vs.length
    let free := packBits 32 ((upTo 64).map (fun i => (fw i).toNat))
    let per := perQuarter dt
    -- source elements of each quarter of the result
    let inQ (q : Nat) : List Nat := (upTo vs.length).filter (fun i => decide (512 * q < fw0 * (i + 1)) && decide (fw0 * i < 512 * (q + 1)))
    let el := (upTo vs.length).map (fun i => joinFl [lanesFl w a.fl] i ||| (rs.getD i (0, .plain, 0)).2.2)
    { v := BitVec.ofNat 2048 (packBits fw0 (rs.map (fun r => r.1)) + (if bits < 2048 then free / 2 ^ bits * 2 ^ bits else 0)),
      poison := pqOf (fun q => (inQ q).any (fun i => a.poison.getLsbD (i / per))),
      fl := if el.all (fun f => f == 0) then 0 else flOf 256 (fun k => el.getD (8 * k / fw0) 0) }
  else if op = 0x0F ∨ op = 0x10 ∨ op = 0x11 then
    let rest (i : Nat) : Nat := if op = 0x0F then 0 else (fw i).toNat
    let r : Nat × BitVec 5 :=
      if dt = 2 then
        let is := (lanes32 a.v).map (toSigned 32)
        (if op = 0x0F then int32Or (fw 0) (is.foldl (· + ·) 0)
         else if op = 0x10 then ofSigned 32 (is.foldl max (is.headD 0)) else ofSigned 32 (is.foldl min (is.headD 0)), 0)
      else
        let vs := (lanesOf dt a.v).map (fun y => operand c (dtFmt dt) y 0)
        if op = 0x0F then sumLanes c dt sub vs
        else finish c (dtFlt dt) (vs.foldl (minMax (op == 0x10)) (vs.headD .nan))
    { v := ofLanes dt (r.1 :: (upTo (if dt = 1 then 31 else 63)).map (fun i => rest (i + 1))),
      poison := pqOf (fun q => q == 0 && a.poison != 0),
      fl := ofLanesFl w [flAny a.fl 0 256 ||| r.2] }
  else if dt = 2 then
    { v := ofLanes32 ((upTo 64).map (fun i => intLane (fw i) op sub (frameWord a.v i) (frameWord b.v i) (frameWord d.v i))),
      poison := poison, fl := fl [] }
  else
    let rs := (tri (lanesOf dt a.v) (lanesOf dt b.v) (lanesOf dt d.v)).map (fun t => fpLane c dt op sub t.1 t.2.1 t.2.2)
    -- a binary64 ICVT leaves its INT32 result in lane 2i; lane 2i + 1 is open
    let codes := (upTo rs.length).map (fun i => (rs.getD i (0, 0)).1 +
      (if op = 0x12 ∧ dt = 1 then (fw i).toNat * 2 ^ 32 else 0))
    { v := ofLanes dt codes, poison := poison, fl := fl (rs.map Prod.snd) }

/-! ### Slot B -/

/-- The result register of a slot B operation other than VTOS. -/
def vecB (x : Tile) (v : Nat) : VReg :=
  let a := vOperand x (vSa v)
  let b := vOperand x (vSb v)
  let d := vOperand x (vSc v)
  let l := vSub v % 64
  match vOp v with
  | 0x20 => a
  | 0x21 =>
    { v := ofLanes32 ((upTo 64).map (fun i => if frameWord d.v i != 0 then frameWord a.v i else frameWord b.v i)),
      poison := a.poison ||| b.poison ||| d.poison,
      fl := ofLanesFl 4 ((upTo 64).map (fun i => joinFl [lanesFl 4 d.fl, lanesFl 4 (if frameWord d.v i != 0 then a.fl else b.fl)] i)) }
  | 0x22 =>
    let ix (i : Nat) : Nat := frameWord b.v i % 64
    let inQ (q : Nat) : List Nat := (upTo 16).map (fun k => ix (16 * q + k) / 16)
    { v := ofLanes32 ((upTo 64).map (fun i => frameWord a.v (ix i))),
      poison := pqOf (fun q => b.poison.getLsbD q || (inQ q).any (fun k => a.poison.getLsbD k)),
      fl := ofLanesFl 4 ((upTo 64).map (fun i => joinFl [lanesFl 4 a.fl] (ix i) ||| joinFl [lanesFl 4 b.fl] i)) }
  | _ =>
    { v := ofLanes32 (List.replicate 64 (frameWord a.v l)), poison := pqOf (fun _ => a.poison.getLsbD (l / 16)),
      fl := if a.fl = 0 then 0 else flOf 256 (fun k => flAt a.fl (4 * l + k % 4)) }

/-- VTOS: lane sub of sa. -/
def vToS (x : Tile) (v : Nat) : PVal :=
  let a := vOperand x (vSa v)
  let l := vSub v % 64
  { v := BitVec.ofNat 32 (frameWord a.v l), poison := a.poison.getLsbD (l / 16),
    fl := BitVec.ofNat 20 (natBits a.fl.toNat (20 * l) 20) }

end Sys2Proof.Machine
end

