-- ==== Sys2Proof/Machine/Tile.lean ====
section
/-! DEFINITION. The compute tile: the issue of a bundle with every slot, the end of a tile's section, the streaming tensor
operations, and the arrival of entries at inlets (chapter 06). -/
namespace Sys2Proof.Machine

/-- What the slots of a bundle read: the tile as it stands at issue, the mode, and whether its writes carry poison. -/
structure TileEnv where
  t : Nat
  x : Tile
  s : State
  c : NumCtx
  cp : Bool

/-- One effect of a slot, applied after every slot has read (06 R139). -/
abbrev Eff := State → State

/-- Change tile `t`. -/
def State.updTile (s : State) (t : Nat) (f : Tile → Tile) : State := s.setTile t (f (s.tileOf t))

/-- The bundle at index `pc` of a tile (11 R260). -/
def bundleAt (s : State) (t pc : Nat) : Nat := natBits (s.frameOf t (pc / 4)).toNat (512 * (pc % 4)) 512

/-! ### Predicates and control poison (06 R154, R155) -/

/-- The predicate holds; a poisoned one is taken as 0. -/
def predHolds (x : Tile) (r : PredRef) : Bool :=
  let p := x.p.get {} r.p
  !r.en || ((p.v && !p.poison) != r.neg)
/-- A poisoned predicate decides the slot. -/
def predPoison (x : Tile) (r : PredRef) : Bool := r.en && (x.p.get {} r.p).poison

/-- The memory opcodes that access the scratchpad. -/
def mAccess (op : Nat) : Bool := decide (1 ≤ op) && decide (op ≤ 8)
/-- The address registers that the tensor slot uses for accesses. -/
def tenAregs (t : Nat) : List Nat :=
  match tOp t with
  | 1 => (if tASrc t then [tAAreg t] else []) ++ (if tBSrc t then [tBAreg t] else [])
  | 3 => if tDest t then [tDestAreg t] else []
  | 6 => [tDestAreg t]
  | 7 => [tAAreg t]
  | _ => []

/-- Bytes of the scratchpad. -/
def padBytes : Nat := 196608
/-- The largest power of two that divides an access's size, up to 256: its alignment. -/
def alignOf (n : Nat) : Nat :=
  if n % 256 = 0 then 256 else if n % 128 = 0 then 128 else if n % 64 = 0 then 64 else if n % 32 = 0 then 32
  else if n % 16 = 0 then 16 else if n % 8 = 0 then 8 else if n % 4 = 0 then 4 else 1
/-- The address of an access of alignment `al` (06 R142); a poisoned register is taken as 0 (R155). -/
def padAddr (x : Tile) (areg imm al : Nat) : Nat :=
  let r := x.a.get {} areg
  let a := ((if r.poison then 0 else r.v.toNat) + imm) % 2 ^ 32 % 2 ^ 18
  a / al * al
/-- The bytes of a range of `n` from `a` that lie in the scratchpad. -/
def padIn (a n : Nat) : Nat := min n (padBytes - a)

/-- The bundle executes an ICPW whose 256 bytes carry a poison mark: its ICP operand is poisoned (06 R155). -/
def icpwPoison (s : State) (t : Nat) (x : Tile) (b : Nat) : Bool :=
  let c := ctlSlot b
  let a := padAddr x (cAreg c) 0 256
  cOp c == 4 && predHolds x (cPred c) && s.sramPoisoned t a (padIn a 256)

/-- A poisoned value of the bundle steers control, an access or the ICP (06 R155). -/
def bundlePoisons (x : Tile) (b : Nat) : Bool :=
  let ap (r : Nat) : Bool := (x.a.get {} r).poison
  let sp (r : Nat) : Bool := (x.s.get {} r).poison
  let c := ctlSlot b
  let ctl := cOp c != 0 && (predPoison x (cPred c) || (predHolds x (cPred c) &&
    ((cOp c == 2 && sp (cSreg c)) || (cOp c == 4 && (sp (cSreg c) || ap (cAreg c))) || (cOp c == 5 && sp (cSreg c)))))
  let t := tenSlot b
  let ten := tOp t != 0 && (predPoison x (tPred t) || (predHolds x (tPred t) && (tenAregs t).any ap))
  let vec (v : Nat) : Bool := vOp v != 0 && predPoison x (vPred v)
  let mem (m : Nat) : Bool := mOp m != 0 && (predPoison x (mPred m) || (predHolds x (mPred m) && mAccess (mOp m) && ap (mAreg m)))
  let mv (i : Nat) : Bool := let m := moveField b i; (qMop m == 2 || qMop m == 4) && ap (qAreg m)
  ctl || ten || vec (vaSlot b) || vec (vbSlot b) || mem (memSlot b 0) || mem (memSlot b 1) || mv 0 || mv 1

/-! ### Register writes -/

def putS (e : TileEnv) (r : Nat) (v : PVal) : Eff := fun s =>
  s.updTile e.t (fun x => { x with s := x.s.set {} r v })
def putA (e : TileEnv) (r : Nat) (v : PVal) : Eff := fun s =>
  s.updTile e.t (fun x => { x with a := x.a.set {} (r % 16) v })
def putP (e : TileEnv) (r : Nat) (v : PBit) : Eff := fun s =>
  s.updTile e.t (fun x => { x with p := x.p.set {} (r % 8) v })
def putV (e : TileEnv) (r : Nat) (v : VReg) : Eff := fun s =>
  s.updTile e.t (fun x => { x with v := x.v.set {} r v })
/-- Write quarter `q` of a vector register. -/
def putQ (e : TileEnv) (r q : Nat) (d : Entry) (poison : Bool) (fl : ByteFl 64) : Eff := fun s =>
  s.updTile e.t (fun x =>
    let o := x.v.get {} r
    let n : VReg := { v := BitVec.ofNat 2048 (natPut o.v.toNat (512 * q) 512 d.toNat),
                      poison := pqOf (fun i => if i = q then poison else o.poison.getLsbD i),
                      fl := BitVec.ofNat 1280 (natPut o.fl.toNat (320 * q) 320 fl.toNat) }
    { x with v := x.v.set {} r n })

/-! ### Scratchpad (06 R142, R154) -/

/-- The bytes, poison and flags of a load (06 R142): bytes beyond the scratchpad are zeros. -/
def padLoad (e : TileEnv) (a n : Nat) : Nat × Bool × List (BitVec 5) :=
  let k := padIn a n
  (leNat (e.s.sramRead e.t a k), e.s.sramPoisoned e.t a k, e.s.sramFl e.t a k)
/-- The report of an access that reaches beyond the scratchpad. -/
def padReport (e : TileEnv) (a n : Nat) : List Eff :=
  if a + n ≤ padBytes then [] else [fun s => s.tileFault (s.tileOf e.t).sec (regLease s (tileRegion e.t)) (epOf e.t) [a]]
/-- A store, with the poison of each 64 bytes from `a` on; bytes beyond the scratchpad are discarded (06 R142). -/
def padStore (e : TileEnv) (a : Nat) (bs : List Byte) (poison : Nat → Bool) (fl : List (BitVec 5)) : List Eff :=
  let ws := bs.take (padIn a bs.length)
  (fun s =>
    let s1 := (upTo ((ws.length + 63) / 64)).foldl (fun s i =>
      if poison i || e.cp then s.sramMark e.t (a + 64 * i) (min 64 (ws.length - 64 * i)) true else s)
      (s.sramWrite e.t a ws false)
    s1.sramFlWrite e.t a ws.length fl) :: padReport e a bs.length

/-! ### Memory slots (06 Tables 6.9, 6.10) -/

/-- SCMP's condition. -/
def scmp (cond x y : Nat) : Bool :=
  match cond with
  | 0 => x == y
  | 1 => x != y
  | 2 => decide (toSigned 32 x < toSigned 32 y)
  | 3 => decide (toSigned 32 y ≤ toSigned 32 x)
  | 4 => decide (x < y)
  | _ => decide (y ≤ x)

/-- PLOG's operation. -/
def plog (k : Nat) (a b : Bool) : Bool :=
  match k with
  | 0 => a && b
  | 1 => a || b
  | 2 => a != b
  | _ => a && !b

/-- Effects of a memory slot. -/
def memEff (e : TileEnv) (m : Nat) : List Eff :=
  let x := e.x
  if mOp m = 0 || !predHolds x (mPred m) then []
  else
    let d := mDst m
    let sa := mSrcA m
    let b : PVal := if mBImm m then { v := BitVec.ofNat 32 (mImm m) } else x.s.get {} (mSrcB m)
    let rs := x.s.get {} sa
    let ra := x.a.get {} (sa % 16)
    let at_ (n : Nat) : Nat := padAddr x (mAreg m) (mImm m) n
    let ld (n : Nat) : Nat × Bool × List (BitVec 5) := padLoad e (at_ n) n
    let w32 (r : Nat × Bool × List (BitVec 5)) : PVal := { v := BitVec.ofNat 32 r.1, poison := r.2.1, fl := flFrom 4 r.2.2 }
    let both (k : Nat) : PVal :=
      { v := BitVec.ofNat 32 (intOp k rs.v.toNat b.v.toNat), poison := rs.poison || b.poison,
        fl := flAll 4 (flAny rs.fl 0 4 ||| flAny b.fl 0 4) }
    match mOp m with
    | 0x01 => putS e d (w32 (ld 4)) :: padReport e (at_ 4) 4
    | 0x02 => padStore e (at_ 4) (leBytes rs.v.toNat 4) (fun _ => rs.poison) (flList 4 rs.fl)
    | 0x03 =>
      let a := at_ 256
      let l := padLoad e a 256
      putV e d { v := BitVec.ofNat 2048 l.1, poison := pqOf (fun q => e.s.sramPoisoned e.t (a + 64 * q) (padIn (a + 64 * q) 64)),
                 fl := flFrom 256 l.2.2 } :: padReport e a 256
    | 0x04 =>
      let v := x.v.get {} sa
      padStore e (at_ 256) (leBytes v.v.toNat 256) (fun q => v.poison.getLsbD q) (flList 256 v.fl)
    | 0x05 => let l := ld 64; putQ e d (mQuarter m) (BitVec.ofNat 512 l.1) l.2.1 (flFrom 64 l.2.2) :: padReport e (at_ 64) 64
    | 0x06 =>
      let v := x.v.get {} sa
      let q := mQuarter m
      padStore e (at_ 64) (leBytes (natBits v.v.toNat (512 * q) 512) 64) (fun _ => v.poison.getLsbD q) (flList 64 (flQ v.fl q))
    | 0x07 => putA e d (w32 (ld 4)) :: padReport e (at_ 4) 4
    | 0x08 => padStore e (at_ 4) (leBytes ra.v.toNat 4) (fun _ => ra.poison) (flList 4 ra.fl)
    | 0x14 => [putS e d b]
    | 0x15 => [putP e d { v := scmp (mCond m) rs.v.toNat b.v.toNat, poison := rs.poison || b.poison }]
    | 0x16 =>
      let p := x.p.get {} (sa % 8)
      let q := x.p.get {} (mSrcB m % 8)
      [putP e d { v := plog (mImm m % 4) p.v q.v, poison := p.poison || q.poison }]
    | 0x17 => [putA e d { v := ra.v + b.v, poison := ra.poison || b.poison,
                          fl := flAll 4 (flAny ra.fl 0 4 ||| flAny b.fl 0 4) }]
    | 0x18 => [putA e d b]
    | 0x19 => [putS e d ra]
    | op => [putS e d (both (op - 0x09))]

/-! ### Queues (06 R135, R136) -/

/-- The head entry of an inlet; the head of a reduction inlet, whose bytes no slot is given, is open. -/
def inletHead (e : TileEnv) (n : Nat) : QEntry :=
  match e.x.inlets.get [] n, e.x.redIn.get [] n with
  | q :: _, _ => q
  | [], rs =>
    let key := (rs.take 1).flatMap (fun r => [r.redId, r.pair, r.contrib] ++ r.vals.map Sterling.toNat)
    { data := BitVec.ofNat 512 (packBits 32 ((upTo 16).map (fun i => (Config.openWord key i).toNat))) }

/-- The inlet holds at least one entry. -/
def inletHas (x : Tile) (n : Nat) : Bool := !(x.inlets.get [] n).isEmpty || !(x.redIn.get [] n).isEmpty
/-- Entries in an outlet. -/
def outletUsed (x : Tile) (n : Nat) : Nat := (x.outlets.get [] n).length + (x.outRed.get [] n).length

/-- Push an entry to an outlet. -/
def pushOut (e : TileEnv) (n : Nat) (q : QEntry) : Eff := fun s =>
  s.updTile e.t (fun x => { x with outlets := x.outlets.upd [] n (· ++ [{ q with poison := q.poison || e.cp }]) })

/-- Pop the inlets that the pop field names. -/
def popInlets (e : TileEnv) (b : Nat) : List Eff :=
  (upTo 4).filterMap (fun n => if natBit (popField b) n then
    some (fun s => s.updTile e.t (fun x =>
      if (x.inlets.get [] n).isEmpty then { x with redIn := x.redIn.upd [] n (List.drop 1) }
      else { x with inlets := x.inlets.upd [] n (List.drop 1) })) else none)

/-- Effects of a queue move. -/
def moveEff (e : TileEnv) (m : Nat) : List Eff :=
  let x := e.x
  let q := qQ m
  let r := x.a.get {} (qAreg m)
  let a := padAddr x (qAreg m) 0 64
  let bump := putA e (qAreg m) { r with v := r.v + 64 }
  match qMop m with
  | 1 => let h := inletHead e q; [putQ e (qVreg m) (qQuarter m) h.data h.poison h.fl]
  | 2 => let h := inletHead e q; padStore e a (entryBytes h.data) (fun _ => h.poison) (flList 64 h.fl) ++ [bump]
  | 3 =>
    let v := x.v.get {} (qVreg m)
    [pushOut e q { data := BitVec.ofNat 512 (natBits v.v.toNat (512 * qQuarter m) 512),
                   poison := v.poison.getLsbD (qQuarter m), fl := flQ v.fl (qQuarter m) }]
  | 4 =>
    let l := padLoad e a 64
    pushOut e q { data := BitVec.ofNat 512 l.1, poison := l.2.1, fl := flFrom 64 l.2.2 } :: bump :: padReport e a 64
  | 5 => [pushOut e (qQ2 m) (inletHead e q)]
  | _ => []

/-! ### Tensor slot (06 R145 to R150) -/

/-- Key of accumulator (r, c). -/
def accKey (r c : Nat) : Nat := 32 * r + c
/-- Accumulator (r, c) of an FP32 quadrant, row-major in the array: quadrant 0 at (0, 0), 1 at (0, 16), 2 at (16, 0). -/
def quadKey (q r c : Nat) : Nat := accKey (16 * (q / 2) + r) (16 * (q % 2) + c)

/-- An operand's entry: bits, poison, flags. -/
def tenEntry (e : TileEnv) (src : Bool) (inlet areg : Nat) : Nat × Bool × ByteFl 64 :=
  if src then let l := padLoad e (padAddr e.x areg 0 64) 64; (l.1, l.2.1, flFrom 64 l.2.2)
  else let h := inletHead e inlet; (h.data.toNat, h.poison, h.fl)

/-- The shape of a TMAC (06 R145): the wider element width, the rows, and the steps of an entry. -/
structure MacShape where
  w : Nat
  rows : Nat
  k : Nat
deriving DecidableEq, Repr
def macShape (fa fb : Nat) : MacShape :=
  let w := max (fmtBits fa) (fmtBits fb)
  { w := w, rows := if w = 32 then 16 else 32, k := if w = 32 then 1 else 512 / (32 * w) }
/-- The place in its entry of element (r, j) of an operand (06 R145, R146): that of the part in use, for the narrower one. -/
def elemPlace (m : MacShape) (fmt part r j : Nat) : Nat :=
  (if fmtBits fmt < m.w then part * m.rows * m.k else 0) + m.rows * j + r

/-- Element (r, j) of an operand (06 R145 to R147), with the scale bytes from `sc` on: class 4 where its entry or its scale is
poisoned (04 R84). -/
def tenElem (e : TileEnv) (m : MacShape) (fmt : Nat) (ent : Nat × Bool × ByteFl 64) (part sreg sc r j : Nat) : Val :=
  let v := e.x.v.get {} sreg
  if ent.2.1 || (fmtIsBlock fmt && v.poison.getLsbD 0) then .poison
  else operand e.c fmt (elemAt ent.1 (fmtBits fmt) (elemPlace m fmt part r j)) (natBits v.v.toNat (8 * (sc + r)) 8)
/-- The strict flags on the path of that element. -/
def tenElemFl (m : MacShape) (fmt : Nat) (ent : Nat × Bool × ByteFl 64) (part r j : Nat) : BitVec 5 :=
  if ent.2.2 = 0 then 0
  else let n := fmtBits fmt; flAny ent.2.2 (n * elemPlace m fmt part r j / 8) (max 1 (n / 8))

/-- The step values of a row of an operand, with their flags. -/
def tenRow (e : TileEnv) (m : MacShape) (fmt : Nat) (ent : Nat × Bool × ByteFl 64) (part sreg sc r : Nat) :
    List (Val × BitVec 5) :=
  (upTo m.k).map (fun j => (tenElem e m fmt ent part sreg sc r j, tenElemFl m fmt ent part r j))

/-- Effects of a TMAC.  A step in the padding of a block-format row is ignored (04 R82).  An address register that A and B
both use advances by 64 once: each slot's field adds to the value it read (DESIGN CHOICE, log 139). -/
def tmacEff (e : TileEnv) (t : Nat) : List Eff :=
  let fa := tFmtA t
  let fb := tFmtB t
  let m := macShape fa fb
  let ea := tenEntry e (tASrc t) (tAInlet t) (tAAreg t)
  let eb := tenEntry e (tBSrc t) (tBInlet t) (tBAreg t)
  let block := fmtIsBlock fa || fmtIsBlock fb
  let pad (step : Nat) : Bool := block && Config.isPad (footPlace e.s e.t) t step
  let va := (upTo m.rows).map (fun r => tenRow e m fa ea (tPart t) (tScaleReg t) 0 r)
  let vb := (upTo m.rows).map (fun r => tenRow e m fb eb (tPart t) (tScaleReg t) 32 r)
  let o := osetW e.s e.t (tOset t) 0
  let poisoned : Bool := va.any (fun r => r.any (fun v => v.1 == .poison)) || vb.any (fun r => r.any (fun v => v.1 == .poison))
  let acc (old : Acc) (r c : Nat) : Acc :=
    let a0 := accStart e.c old (natBits o 6 3) (natBits o 9 4) (fa == 1 && fb == 1)
    let ps := ((va.getD r []).zip (vb.getD c [])).zip (upTo m.k)
    let live := ps.filter (fun p => !pad (a0.terms + p.2))
    let a1 := live.foldl (fun x p =>
      let y := accFeed e.c x p.1.1.1 p.1.2.1
      { y with flags := y.flags ||| p.1.1.2 ||| p.1.2.2 }) a0
    if poisoned then { a1 with poison := true, st := { a1.st with poison := true } } else a1
  let bump (r : Nat) : Eff := let v := e.x.a.get {} r; putA e r { v with v := v.v + 64 }
  let key (i : Nat) : Nat :=
    if m.w = 32 then quadKey (tQuad t) (i / m.rows) (i % m.rows) else accKey (i / m.rows) (i % m.rows)
  let add (a : Table Acc) (i : Nat) : Table Acc := a.upd {} (key i) (fun old => acc old (i / m.rows) (i % m.rows))
  (fun s => s.updTile e.t (fun x => { x with acc := (upTo (m.rows * m.rows)).foldl add x.acc })) ::
  ((if tASrc t then bump (tAAreg t) :: padReport e (padAddr e.x (tAAreg t) 0 64) 64 else []) ++
   (if tBSrc t then bump (tBAreg t) :: padReport e (padAddr e.x (tBAreg t) 0 64) 64 else []))

/-- The accumulators that TZERO clears. -/
def tzeroEff (e : TileEnv) (t : Nat) : List Eff :=
  let q := tQuad t
  let left (a : Table Acc) : Table Acc := if q = 0 then [] else a.keep (fun k => !(k / 32 / 16 == q / 2 && k % 32 / 16 == q % 2))
  [fun s => s.updTile e.t (fun x => { x with acc := left x.acc })]

/-- What a TOUT writes. -/
structure OutRow where
  /-- Element bits, packed, and their width in bits. -/
  bits : Nat
  width : Nat
  /-- Bits of an element. -/
  elem : Nat
  scales : List Nat
  /-- How each element counts, padding included, and the strict flags on its path. -/
  notes : List Note
  fls : List (BitVec 5)
  /-- Column by column: the element is padding (04 R82), and its position in the output block (R101). -/
  pads : List Bool
  pos : List Nat
deriving DecidableEq, Repr

/-- The index in its tensor of element (row, c) of a TOUT (06 R150). -/
def toutIndex (e : TileEnv) (t c : Nat) : Nat :=
  let sb := tSbase t
  (e.x.s.get {} sb).v.toNat + (e.x.s.get {} ((sb + 1) % 32)).v.toNat % 2 ^ 16 * 2 ^ 32 +
    tRow t * osetW e.s e.t (tOset t) 1 + c
/-- The element index base is poisoned (06 R154). -/
def toutBasePoison (e : TileEnv) (t : Nat) : Bool :=
  (e.x.s.get {} (tSbase t)).poison || (e.x.s.get {} ((tSbase t + 1) % 32)).poison
/-- Column `c` of a block-format TOUT is padding: it lies past the tensor's innermost extent, which row_stride gives (04 R82;
DEDUCED, log 142). -/
def toutPad (e : TileEnv) (t c : Nat) : Bool :=
  let stride := osetW e.s e.t (tOset t) 1
  let first := toutIndex e t 0
  fmtIsBlock (osetW e.s e.t (tOset t) 0 % 16) && stride != 0 && decide (stride ≤ first % stride + c)
/-- The position of a tensor index in its output block, row-major from 0 (04 R99, R101; log 142). -/
def blockPos (e : TileEnv) (k idx : Nat) : Nat :=
  let b := Config.blockBox (((e.s.secOf e.x.sec).map (secImage e.s)).getD []) (osetIndex e.s e.t k)
  let stride := osetW e.s e.t k 1
  let w := if b.2.2 = 0 then stride else b.2.2
  (if stride = 0 then idx - b.2.1 else (idx / stride - b.1) * w + (idx % stride - b.2.1)) % 2 ^ 32

/-- What a TOUT writes (06 R150, 05 R112). -/
def toutData (e : TileEnv) (t : Nat) : OutRow :=
  let k := tOset t
  let o := osetW e.s e.t k 0
  let fmt := o % 16
  let accs := (upTo 32).map (fun c => e.x.acc.get {} (accKey (tRow t) c))
  let vals := accs.map (fun a => accValue e.c a)
  let pads := (upTo 32).map (toutPad e t)
  let vs := (vals.zip pads).map (fun v =>
    if v.2 then Val.num false 0 0 else if e.cp || toutBasePoison e t then Val.poison else v.1.1)
  let fls := vals.map (fun v => v.2)
  let rnd (c : Nat) : Rnd :=
    if natBit o 4 then .sr (srBits (regSeed e.s (tileRegion e.t)) (osetW e.s e.t k 2 % 65536) (toutIndex e t c))
    else if e.c.mode = mStrict then e.c.rnd else .rne
  let rs := (upTo 32).map rnd
  let pos := (upTo 32).map (fun c => blockPos e k (toutIndex e t c))
  let r : OutRow := { bits := 0, width := 32 * fmtBits fmt, elem := fmtBits fmt, scales := [], notes := [], fls := fls,
                      pads := pads, pos := pos }
  if fmt = 0xF then
    let b0 := encodeLb8 (vs.take 16)
    let b1 := encodeLb8 (vs.drop 16)
    { r with bits := packBits 8 (b0.1 ++ b1.1), scales := [b0.2.1, b1.2.1], notes := b0.2.2 ++ b1.2.2 }
  else if fmtIsBlock fmt then
    let b := encodeMx fmt rs vs
    { r with bits := packBits (fmtBits fmt) b.1, scales := [b.2.1], notes := b.2.2 }
  else
    let cs := (vs.zip rs).map (fun p => convertOut e.c fmt p.2 (natBit o 5) p.1)
    { r with bits := packBits (fmtBits fmt) (cs.map (fun c => c.1)), notes := cs.map (fun c => c.2.1),
             fls := (fls.zip cs).map (fun p => p.1 ||| p.2.2.2) }

/-- Some element of 64-byte entry `i` was written as poison. -/
def entryPoison (d : OutRow) (i : Nat) : Bool :=
  (upTo d.notes.length).any (fun j => d.notes.getD j .plain == .poison && decide (d.elem * j / 512 = i))
/-- The strict flags of each byte of a row: those of its element. -/
def OutRow.byteFl (d : OutRow) : List (BitVec 5) :=
  if d.fls.all (fun f => f == 0) then [] else (upTo (d.width / 8)).map (fun i => d.fls.getD (8 * i / d.elem) 0)

/-- The output-block record of a row: its padding is no element of the block (04 R100). -/
def rowRecord (c : NumCtx) (d : OutRow) : FlagRec :=
  let cells := (d.pos.zip (d.notes.zip (d.pads.zip d.fls))).filter (fun p => !p.2.2.1)
  cells.foldl (fun (r : FlagRec) p =>
    r.merge { FlagRec.element p.1 p.2.1 with strict := if c.mode = mStrict then p.2.2.2 else 0 }) {}

/-- Effects of a TOUT (06 R150, 12 Table 12.7). -/
def toutEff (e : TileEnv) (t : Nat) : List Eff :=
  let k := tOset t
  let d := toutData e t
  let rec_ : Eff := fun s =>
    let add (r : FlagRec) : FlagRec := r.merge (rowRecord e.c d)
    let s1 := s.updTile e.t (fun x => { x with flags := x.flags.upd {} k add })
    if d.notes.contains .poison then sectionPoisoned s1 e.x.sec else s1
  if tDest t then
    let n := d.width / 8
    let a := padAddr e.x (tDestAreg t) 0 (alignOf n)
    let sc := (osetW e.s e.t k 3 + e.x.scaleAdv.get 0 k) % 2 ^ 18
    padStore e a (leBytes d.bits n) (entryPoison d) d.byteFl ++
    (if d.scales.isEmpty then [] else
      padStore e sc (d.scales.map (fun v => BitVec.ofNat 8 v)) (fun _ => d.notes.contains .poison) [] ++
      [fun s => s.updTile e.t (fun x => { x with scaleAdv := x.scaleAdv.upd 0 k (· + d.scales.length) })]) ++ [rec_]
  else
    let dst := outDst e.s e.t (tOutlet t)
    let own := if epIsCompute dst then 0 else 1 + 8 * e.t + k
    let pad := packBits 32 ((upTo 16).map (fun i => (Config.openWord [t, d.bits] i).toNat))
    let es := (upTo ((d.width + 511) / 512)).map (fun i =>
      let b := natBits d.bits (512 * i) 512
      let used := min 512 (d.width - 512 * i)
      ({ data := BitVec.ofNat 512 (b + pad / 2 ^ used * 2 ^ used), poison := entryPoison d i || e.cp,
         fl := flFrom 64 ((d.byteFl.drop (64 * i)).take 64), own := own } : QEntry))
    let op : RowOp := { op := 3, row := tRow t, queue := tOutlet t, entries := es }
    [fun s => s.updTile e.t (fun x =>
       { x with rowOp := some op, unacked := if own = 0 then x.unacked else x.unacked.upd 0 k (· + es.length) }), rec_]

/-- Effects of a TPART (06 R148, 08 R201). -/
def tpartEff (e : TileEnv) (t : Nat) : List Eff :=
  let n := tOutlet t
  let accs := (upTo 32).map (fun c => e.x.acc.get {} (accKey (tRow t) c))
  if e.c.mode = mFast then
    let close := Config.partClose (footPlace e.s e.t) t
    let rs := (upTo 16).map (fun p =>
      ({ redId := Config.partRedId (footPlace e.s e.t) t % 4096, pair := p,
         vals := (slice2 accs (2 * p)).map (fun a => if e.cp then { a.st with poison := true } else a.st),
         closes := b2n close } : Reduce))
    [fun s => s.updTile e.t (fun x => { x with rowOp := some { op := 4, row := tRow t, queue := n, reduces := rs } })]
  else
    let ws := accs.flatMap (fun a => (accWords e.c a).map (fun w => (w, (accValue e.c a).2)))
    let poison := e.cp || accs.any Acc.isPoison
    let pad := (upTo 16).map (Config.openWord (t :: ws.map (fun w => w.1.toNat)))
    let es := (upTo ((ws.length + 15) / 16)).map (fun i =>
      let l := (ws.drop (16 * i)).take 16
      ({ data := BitVec.ofNat 512 (packBits 32 (((l.map Prod.fst) ++ pad.drop l.length).map BitVec.toNat)), poison := poison,
         fl := if l.all (fun w => w.2 == 0) then 0 else flOf 64 (fun k => (l.getD (k / 4) (0, 0)).2) } : QEntry))
    [fun s => s.updTile e.t (fun x => { x with rowOp := some { op := 4, row := tRow t, queue := n, entries := es } })]
where
  /-- Two consecutive accumulators. -/
  slice2 (l : List Acc) (i : Nat) : List Acc := (l.drop i).take 2

/-- Effects of the tensor slot. -/
def tenEff (e : TileEnv) (t : Nat) : List Eff :=
  if tOp t = 0 || !predHolds e.x (tPred t) then []
  else
    let row := tRow t
    match tOp t with
    | 1 => tmacEff e t
    | 2 => tzeroEff e t
    | 3 => toutEff e t
    | 4 => tpartEff e t
    | 5 =>
      let op : RowOp := { op := 5, row := row, queue := tAInlet t,
                          redId := Config.addRedId (inRed e.s e.t (tAInlet t)) t % 4096 }
      [fun s => s.updTile e.t (fun x => { x with rowOp := some op })]
    | 6 =>
      let a := padAddr e.x (tDestAreg t) 0 16
      let accs := (upTo 32).map (fun c => e.x.acc.get {} (accKey row c))
      let bs := accs.flatMap (fun x =>
        leBytes (if e.c.mode = mFast then x.st.toNat
          else packBits 32 ((upTo 20).map (fun i => (Config.openWord (t :: x.terms :: x.lanes.map BitVec.toNat) i).toNat))) 80)
      -- 64-byte piece i holds words of accumulators 64 i / 80 to (64 i + 63) / 80
      padStore e a bs (fun i => (accs.getD (64 * i / 80) {}).isPoison || (accs.getD ((64 * i + 63) / 80) {}).isPoison)
        (if accs.all (fun x => x.flags == 0) then [] else (upTo 2560).map (fun i => (accs.getD (i / 80) {}).flags))
    | 7 =>
      let a := padAddr e.x (tAAreg t) 0 16
      let load (c : Nat) : Acc :=
        let l := padLoad e (a + 80 * c) 80
        if e.c.mode = mFast then
          let w := Sterling.ofNat l.1
          { st := { w with poison := w.poison || l.2.1 }, terms := 1 }
        else { lanes := (upTo 16).map (Config.openWord [t, l.1]), terms := 1, poison := l.2.1,
               flags := l.2.2.foldl (· ||| ·) 0 }
      (fun s => s.updTile e.t (fun x => { x with acc := (upTo 32).foldl (fun m c => m.set {} (accKey row c) (load c)) x.acc })) ::
        padReport e a 2560
    | _ => []

/-! ### Control slot (06 R151, R153, R156, R157) -/

/-- The bundle after `cp` when it ends loop bodies: the next issue and the loops left, the innermost first. -/
def loopEnd (cp nxt : Nat) : List Loop → Nat × List Loop
  | [] => (nxt, [])
  | l :: r =>
    if l.last = cp then
      if 1 < l.left then (l.first, { l with left := l.left - 1 } :: r) else loopEnd cp nxt r
    else (nxt, l :: r)

/-- A scalar operand of the ICP or of LOOP; a poisoned one is taken as 0. -/
def ctlOperand (x : Tile) (r : Nat) : Nat := let v := x.s.get {} r; if v.poison then 0 else v.v.toNat

/-- The tile of a frame address in the ICP's form: column, row within the band, frame; none outside the compute tiles. -/
def icpTarget (x : Tile) (c : Nat) (t : Nat) : Option (Nat × Nat) :=
  let v := ctlOperand x (cSreg c)
  let col := natBits v 24 6
  let i := natBits v 12 10
  if col < 8 ∧ i < 576 then some (regionTile (tileRegion t) col (i / 72), i % 72) else none

/-- The status of an ICPW (06 Table 6.13). -/
def icpStatus (s : State) (x : Tile) (c t : Nat) : Nat :=
  if !icpHolder s t then 1
  else match icpTarget x c t with
    | none => 2
    | some p => if p.1 = t then 3 else 0

/-- The tile that an ICPRUN names, for the holder of the ICP. -/
def icprunTile (s : State) (x : Tile) (c t : Nat) : Option Nat :=
  let v := ctlOperand x (cSreg c)
  if icpHolder s t ∧ v < 64 then some (regionTile (tileRegion t) (v / 8) (v % 8)) else none

/-- A tile's registers and accumulators at the start of a section (06 R130): s0-s7 and a0-a7 from frame 64. -/
def startRegs (s : State) (t : Nat) (x : Tile) : Tile :=
  let ini (b : Nat) : Table PVal :=
    (upTo 8).foldl (fun m i => m.set {} i { v := BitVec.ofNat 32 (s.frameW t 64 (b + i)) }) []
  { x with s := ini 0, a := ini 8, p := [], v := [], acc := [], pc := 0, loops := [] }

/-- Restart a tile (06 R157): the settings frames that the ICP wrote for it take effect, a rewritten frame 67 from its scale
addresses on, and its registers take their section-start values. -/
def icpRestart (t : Nat) (s : State) : State :=
  let mine (k : Nat) : Bool := k / 1024 == t
  let held := s.fab.icpFrames.filter (fun f => mine f.1)
  let s1 := { s with fab := { s.fab with icpFrames := s.fab.icpFrames.keep (fun k => !mine k) } }
  let s2 := held.foldl (fun s f => s.setFrame t (f.1 % 1024) f.2) s1
  s2.updTile t (fun y => { startRegs s2 t y with
    phase := .issuing, scaleAdv := if held.any (fun f => f.1 % 1024 == 67) then [] else y.scaleAdv })

/-- Effects of the control slot, with the next bundle.  A LOOP or a taken BR in the last bundle of a loop body goes where it
says, and the body's count stands (DESIGN CHOICE, log 139). -/
def ctlEff (e : TileEnv) (b : Nat) : List Eff :=
  let c := ctlSlot b
  let x := e.x
  let pc := x.pc
  let goto (n : Nat) (ls : List Loop) : Eff := fun s =>
    s.updTile e.t (fun y => if n ≤ 255 then { y with pc := n, loops := ls } else { y with pc := 255, loops := ls, phase := .ending })
  let next : Nat × List Loop := loopEnd pc (pc + 1) x.loops
  let go := goto next.1 next.2
  if !predHolds x (cPred c) then [go]
  else match cOp c with
    | 1 => [goto (cTarget c) x.loops]
    | 2 =>
      let n := ctlOperand x (cSreg c)
      if n = 0 then let r := loopEnd (cTarget c) (cTarget c + 1) x.loops; [goto r.1 r.2]
      else [goto (pc + 1) ({ first := pc + 1, last := cTarget c, left := n } :: x.loops)]
    | 3 => [fun s => s.updTile e.t (fun y => { y with phase := .ending })]
    | 4 =>
      let st := icpStatus e.s x c e.t
      let a := padAddr x (cAreg c) 0 256
      let l := padLoad e a 256
      let send : List Eff := match icpTarget x c e.t with
        | some p => if st = 0 then
            [fun s => s.sendAll [{ vn := vnCtl, kind := 0, dst := epOf p.1, src := epOf e.t, port := 32,
                                   lease := regLease s (tileRegion e.t), sec := x.sec,
                                   pl := .frame (72 * (tileY p.1 % 8) + p.2) (if l.2.1 then 0 else BitVec.ofNat 2048 l.1) }]] else []
        | none => []
      go :: putS e (cSreg c) { v := BitVec.ofNat 32 st } :: (send ++ padReport e a 256)
    | 5 =>
      (match icprunTile e.s x c e.t with
       | some t => [icpRestart t]
       | none => []) ++ [go]
    | _ => [go]

/-! ### Issue (06 R129, R135, R140, R149, R157) -/

/-- The control slot waits for another tile's ENDSEC, and a restart also for the frames on their way to that tile. -/
def icpWaits (s : State) (x : Tile) (t b : Nat) : Bool :=
  let c := ctlSlot b
  if !predHolds x (cPred c) then false
  else if cOp c = 4 ∧ icpStatus s x c t = 0 then
    match icpTarget x c t with
    | some p => (s.tileOf p.1).phase != .ended
    | none => false
  else if cOp c = 5 then
    match icprunTile s x c t with
    | some u => (s.tileOf u).phase != .ended ||
        (s.fab.tx ++ s.fab.net).any (fun p => p.vn == vnCtl && p.kind == 0 && p.dst == epOf u)
    | none => false
  else false

/-- The bundle waits for the row that a streaming tensor operation has not finished (06 R149). -/
def rowBlocks (x : Tile) (b : Nat) : Bool :=
  match x.rowOp with
  | none => false
  | some r =>
    tOp (tenSlot b) != 0 ||
    (if r.op = 5 then (namedInlets b).contains r.queue
     else (movePushes b).contains r.queue || tensorOutlet b == some r.queue)

/-- The firing rule: every named inlet holds an entry and every named outlet has room (06 R135). -/
def mayFire (x : Tile) (b : Nat) : Bool :=
  (namedInlets b).all (fun n => inletHas x n) &&
  (upTo 4).all (fun n => roomNeeded b n == 0 || decide (outletUsed x n + roomNeeded b n ≤ queueDepth))

/-- The tile's clock runs and its section runs. -/
def tileRuns (s : State) (t : Nat) : Bool :=
  let x := s.tileOf t
  secRuns s x.sec && regionLive s (tileRegion t) && !(s.regionOf (tileRegion t)).gated && !(s.clkOf (tileDie t)).stopped &&
  !s.absent t && !x.portOff

/-- Bundle `b` can issue now. -/
def canIssue (s : State) (t b : Nat) : Bool :=
  let x := s.tileOf t
  tileRuns s t && x.phase == .issuing && mayFire x b && !rowBlocks x b && !icpWaits s x t b

/-- The environment of a bundle. -/
def bundleEnv (s : State) (t b : Nat) : TileEnv :=
  let x := s.tileOf t
  { t := t, x := x, s := s, c := regCtx s (tileRegion t), cp := x.ctlPoison || bundlePoisons x b || icpwPoison s t x b }

/-- Effects of the vector slots. -/
def vecEff (e : TileEnv) (b : Nat) : List Eff :=
  let va := vaSlot b
  let vb := vbSlot b
  (if vOp va != 0 && predHolds e.x (vPred va) then [putV e (vVd va) (vecA e.c e.x va)] else []) ++
  (if vOp vb != 0 && predHolds e.x (vPred vb) then
    (if vOp vb = 0x24 then [putS e (vVd vb) (vToS e.x vb)] else [putV e (vVd vb) (vecB e.x vb)]) else [])

/-- Every effect of a bundle, after all its reads (06 R139), the stores in the order in which R143 serves the slots: memory 0,
memory 1, tensor, move 0, move 1, so that of two stores to one byte the later stands (DEDUCED, log 139).  No two slots write one
register (R132), but the two moves of the one queue slot may: the second stands, and an address register that both use
advances by 64 once (DESIGN CHOICE, log 139). -/
def bundleEff (e : TileEnv) (b : Nat) : List Eff :=
  popInlets e b ++ memEff e (memSlot b 0) ++ memEff e (memSlot b 1) ++ vecEff e b ++ tenEff e (tenSlot b) ++
  moveEff e (moveField b 0) ++ moveEff e (moveField b 1) ++ ctlEff e b

/-- Issue bundle `b` of tile `t`. -/
def issue (s : State) (t b : Nat) : State :=
  let e := bundleEnv s t b
  let s1 := (bundleEff e b).foldl (fun s f => f s) s
  let s2 := if e.cp then sectionPoisoned (s1.updTile t (fun x => { x with ctlPoison := true })) e.x.sec else s1
  (progressed s2 e.x.sec).updTile t (fun x => { x with idle := 0 })

/-- The scratchpad ranges that the slots of a bundle load: (address, bytes). -/
def bundleLoads (x : Tile) (b : Nat) : List (Nat × Nat) :=
  let mem (m : Nat) : List (Nat × Nat) :=
    let n := if mOp m = 0x01 ∨ mOp m = 0x07 then 4 else if mOp m = 0x03 then 256 else if mOp m = 0x05 then 64 else 0
    if n = 0 ∨ predHolds x (mPred m) = false then [] else [(padAddr x (mAreg m) (mImm m) n, n)]
  let mv (m : Nat) : List (Nat × Nat) := if qMop m = 4 then [(padAddr x (qAreg m) 0 64, 64)] else []
  let t := tenSlot b
  let c := ctlSlot b
  let ten : List (Nat × Nat) :=
    if predHolds x (tPred t) = false then []
    else if tOp t = 1 then
      (if tASrc t then [(padAddr x (tAAreg t) 0 64, 64)] else []) ++ (if tBSrc t then [(padAddr x (tBAreg t) 0 64, 64)] else [])
    else if tOp t = 7 then [(padAddr x (tAAreg t) 0 16, 2560)] else []
  let ctl : List (Nat × Nat) := if cOp c = 4 ∧ predHolds x (cPred c) = true then [(padAddr x (cAreg c) 0 256, 256)] else []
  mem (memSlot b 0) ++ mem (memSlot b 1) ++ mv (moveField b 0) ++ mv (moveField b 1) ++ ten ++ ctl
/-- What a bundle's loads find at scratchpad byte `a` (18 R425, R426): nothing where none of them reads it. -/
def bundleFinding (t a : Nat) (f : Finding) (s : State) : State :=
  let x := s.tileOf t
  if (bundleLoads x (bundleAt s t x.pc)).any (fun l => decide (l.1 ≤ a) && decide (a < l.1 + l.2) && decide (l.1 + l.2 ≤ padBytes)) then
    sramFinding t a 1 (secTag s x.sec) f s
  else s

/-- A parity error in a register, a predicate, an accumulator or a queue entry poisons the value (18 R424, Table 18.1, 06 R154). -/
def parityHit (h : ParityHit) (x : Tile) : Tile :=
  let bad (k : Nat) (q : List QEntry) : List QEntry := q.zipIdx.map (fun e => if e.2 = k then { e.1 with poison := true } else e.1)
  let badRed (k : Nat) (q : List Reduce) : List Reduce := q.zipIdx.map (fun e =>
    if e.2 = k then { e.1 with vals := e.1.vals.map (fun v => { v with poison := true }) } else e.1)
  match h with
  | .sreg i => { x with s := x.s.upd {} i (fun v => { v with poison := true }) }
  | .areg i => { x with a := x.a.upd {} i (fun v => { v with poison := true }) }
  | .pred i => { x with p := x.p.upd {} i (fun v => { v with poison := true }) }
  | .vlane v l => { x with v := x.v.upd {} v (fun r => { r with poison := r.poison ||| (1#4 <<< (l / 16)) }) }
  | .acc i => { x with acc := x.acc.upd {} i (fun a => { a with poison := true, st := { a.st with poison := true } }) }
  | .inlet n => { x with inlets := x.inlets.upd [] n (bad 0), redIn := x.redIn.upd [] n (badRed 0) }
  | .outlet n k => { x with outlets := x.outlets.upd [] n (bad k), outRed := x.outRed.upd [] n (badRed k) }

/-- BUNDLE_ISSUE (06 R135); the loads find `f` at byte `at_`, and the tile's parity finds `hit` (18 Table 18.1). -/
def execBundleIssue (tile at_ : Nat) (f : Finding) (hit : Option ParityHit) (s : State) : Host.Outcome State Fault Refusal :=
  let b := bundleAt s tile (s.tileOf tile).pc
  let m := (regCtx s (tileRegion tile)).mode
  if canIssue s tile b then
    if bundleBad m (fun k => some (osetW s tile k 0 % 16)) b || bundleDenied m b || bundleBadFormat m b then
      .fault (.reservedBundle tile (s.tileOf tile).pc)
    else
      let s1 := match hit with
        | some h => s.updTile tile (parityHit h)
        | none => s
      done (issue (bundleFinding tile at_ f s1) tile b)
  else done s

/-! ### The end of a tile's section (06 R153, 09 R219, 11 R282, 08 R207) -/

/-- Outlet `n` is in use: a bundle of the tile pushes to it (12 R296), or it is the latch outlet. -/
def outUsed (s : State) (t n : Nat) : Bool :=
  (latchEn s t && latchOutlet s t == n) ||
  (upTo 256).any (fun pc => let b := bundleAt s t pc; b != 0 && ((movePushes b).contains n || tensorOutlet b == some n))

/-- A packet of outlet `n`. -/
def outPacket (s : State) (t n : Nat) : Packet where
  vn := vnStream
  kind := 0
  dst := outDst s t n
  src := epOf t
  port := outPort s t n
  lease := regLease s (tileRegion t)
  sec := (s.tileOf t).sec

/-- What follows the last entry of outlet `n`: the signal of sig_at_end, and the DRAIN to a compute tile. -/
def outTail (s : State) (t n : Nat) : List Packet :=
  if !outUsed s t n then [] else
  let g := outSig s t n
  let p := outPacket s t n
  let sent := (s.tileOf t).sent.get 0 n
  let sigs := if g.mode != 0 && g.atEnd && sent % g.period != 0 then
      (if g.mode = 2 then [{ p with sig := true, sigTally := g.tally % 64, pl := .entries [] }] else sigPacket g p)
    else []
  sigs ++ (if epIsCompute p.dst then [{ p with kind := 3, pl := .drain (regTag s (tileRegion t)) }] else [])

/-- The BARRIER packet of a tile (08 R207, 11 CREG_BARRIER_HOME). -/
def barrierPacket (s : State) (t : Nat) : List Packet :=
  let r := tileRegion t
  if creg s r 0x12 % 65536 = 0 then [] else
  [{ vn := vnCtl, kind := 2, dst := natBits (creg s r 0x11) 16 13, src := epOf t, port := 5, lease := regLease s r,
     sec := (s.tileOf t).sec, pl := .barrier (creg s r 0x11 % 16384) 1 }]

/-- ENDSEC completes: nothing of the tile is outstanding (06 R153). -/
def endsec (t : Nat) (s : State) : State :=
  let x := s.tileOf t
  if x.phase = .ending ∧ x.rowOp = none ∧ (upTo 4).all (fun n => outletUsed x n == 0) ∧ secRuns s x.sec then
    let ps := (upTo 4).flatMap (outTail s t) ++ barrierPacket s t
    (s.updTile t (fun y => { y with phase := .ended, drainSent := true })).sendAll ps
  else s

/-- ENDSEC_COMPLETE (06 R153). -/
def execEndsecComplete (tile : Nat) (s : State) : Host.Outcome State Fault Refusal := done (endsec tile s)

/-! ### Streaming tensor operations (06 R149, 08 R206) -/

/-- Room in outlet `n`. -/
def outRoom (x : Tile) (n : Nat) : Nat := queueDepth - outletUsed x n

/-- A TADDP takes values from its reduction inlet: those of its row whose pair is not complete (08 R206). -/
def addRows (need : Nat) (row : Nat) (id : Nat) : List Reduce → Table Nat → Table Acc → List Reduce × Table Nat × Table Acc
  | [], got, acc => ([], got, acc)
  | v :: rest, got, acc =>
    if v.redId = id ∧ v.pair < 16 ∧ got.get 0 v.pair < need then
      let acc1 := (upTo v.vals.length).foldl (fun m i =>
        m.upd {} (accKey row (2 * v.pair + i)) (fun a => { a with st := a.st.add (v.vals.getD i {}), terms := a.terms + 1 })) acc
      addRows need row id rest (got.upd 0 v.pair (· + v.contrib)) acc1
    else
      let r := addRows need row id rest got acc
      (v :: r.1, r.2.1, r.2.2)

/-- The row goes on as room or data appears. -/
def rowStep (t : Nat) (s : State) : State :=
  let x := s.tileOf t
  match x.rowOp with
  | none => s
  | some r =>
    if !secRuns s x.sec then s
    else if r.op = 5 then
      let need := inContrib s t r.queue
      let y := addRows need r.row r.redId (x.redIn.get [] r.queue) r.contribs x.acc
      let all := (upTo 16).all (fun p => decide (need ≤ y.2.1.get 0 p))
      s.setTile t { x with redIn := x.redIn.set [] r.queue y.1, acc := y.2.2,
                           rowOp := if all then none else some { r with contribs := y.2.1 } }
    else
      let n := outRoom x r.queue
      let es := r.entries.drop n
      let rs := r.reduces.drop n
      s.setTile t { x with
        outlets := x.outlets.upd [] r.queue (· ++ r.entries.take n)
        outRed := x.outRed.upd [] r.queue (· ++ r.reduces.take n)
        rowOp := if es.isEmpty && rs.isEmpty then none else some { r with entries := es, reduces := rs } }

/-- TENSOR_ROW_COMPLETE (06 R149). -/
def execTensorRowComplete (tile : Nat) (s : State) : Host.Outcome State Fault Refusal := done (rowStep tile s)

/-! ### Arrival at an inlet (06 R138, 09 R227, 11 R284) -/

/-- The packet may enter inlet `n`: an ordinary or watch inlet takes entries of its source, a reduction inlet values in a
FAST section, a latch inlet a grant. -/
def inletTakes (s : State) (t n : Nat) (p : Packet) : Bool :=
  match inKind s t n with
  | 1 => p.src == inSrc s t n && p.kind == 0
  | 3 => p.src == inSrc s t n && p.kind == 0
  | 2 => p.kind == 1 && (regCtx s (tileRegion t)).mode == mFast
  | _ => false

/-- The inlet holds fewer than 16 entries (08 R192: the sender holds a credit). -/
def inletRoom (x : Tile) (n : Nat) : Bool :=
  decide ((x.inlets.get [] n).length + (x.redIn.get [] n).length < queueDepth)

/-- Queue the packet at the inlet of its port, or discard and report it. -/
def inletTake (p : Packet) (s : State) : State :=
  let t := epTile p.dst
  let n := p.port
  let x := s.tileOf t
  if 4 ≤ n ∨ p.sig ∨ !inletTakes s t n p then packetFault s p
  else
    let s1 := match p.pl with
      | .entries es => s.setTile t { x with inlets := x.inlets.upd [] n (· ++ es) }
      | .reduce r => s.setTile t { x with redIn := x.redIn.upd [] n (· ++ [r]) }
      | _ => s
    progressed s1 p.sec

/-- A latch grant enters the latch inlet, one of kind 4, as one entry: index, generation, ABANDONED (09 R226, 11 Table 11.3);
for any other inlet it is discarded and reported (06 R138). -/
def grantTake (p : Packet) (s : State) : State :=
  let t := epTile p.dst
  match p.pl with
  | .latch j g ab =>
    let n := latchInlet s t
    if !latchEn s t || inKind s t n != 4 then packetFault s p
    else
      progressed (s.updTile t (fun x => { x with
        inlets := x.inlets.upd [] n (· ++ [{ data := BitVec.ofNat 512 (j % 256 + g % 256 * 256 + b2n ab * 65536) }]),
        latchWait := x.latchWait.filter (fun k => k != j) })) p.sec
  | _ => s

/-- INLET_ENTRY_ARRIVAL (06 R138). -/
def execInletEntryArrival (pkt : Nat) (s : State) : Host.Outcome State Fault Refusal :=
  done (arrive pkt
    (fun p => epIsCompute p.dst && ((p.vn == vnStream && (p.kind == 0 || p.kind == 1) &&
      (decide (4 ≤ p.port) || inletRoom (s.tileOf (epTile p.dst)) p.port)) || (p.vn == vnCtl && p.kind == 5)))
    (fun p s => if p.vn = vnCtl then grantTake p s else inletTake p s) s)

end Sys2Proof.Machine
end

