-- ==== Sys2Proof/Machine/ConfigEngine.lean ====
section
/-! DEFINITION. The configuration engines: frame-stream commands, stream errors, pushed streams, rolling reconfiguration,
the serial slave port and ICP frame writes (chapter 11, 21 R507, R509, 22 R542 to R544). -/
namespace Sys2Proof.Machine

/-! ### Addresses and columns -/

/-- Column, row band and die of a frame address lie in region `r`; the region-relative column. -/
def addrColumn (r a : Nat) : Option Nat :=
  if natBits a 30 2 = regionDie r ∧ natBits a 22 2 = r % 16 / 4 ∧ natBits a 24 6 / 9 = r % 4 ∧ natBits a 24 6 < 36 then
    some (natBits a 24 6 % 9)
  else none
/-- The tiles of region-relative column `c`. -/
def columnTiles (r c : Nat) : List Nat := (upTo 8).map (regionTile r c)
/-- Bit `c` of a column set. -/
def colBit (c : Nat) : BitVec 9 := 1#9 <<< c
/-- Every column of the region has drained. -/
def allDrained (x : Region) : Bool := x.drainedCols == 0x1FF#9

/-! ### Errors (11 R287 to R290, 21 R509) -/

/-- Record an error in CFG_ERR and CFG_ERR_ADDR of die `d` (11 R290). -/
def recordError (d cause region addr : Nat) (s : State) : State :=
  let e := s.engOf d
  let e1 := if e.errValid then e
    else { e with errValid := true, errCause := cause, errRegion := region, errAddr := BitVec.ofNat 32 addr }
  s.setEng d { e1 with errCount := satInc e1.errCount 255 }

/-- A region whose load fails: FAULTED, or once the ending section on it ends (11 R287, R289). -/
def faultRegion (s : State) (r : Nat) : State :=
  s.updRegion r (fun x =>
    if x.st = .rolling ∧ s.busyOther 0 r = true then { x with failPending := true } else { x with st := .faulted })

/-- A stream error of engine `e`: the open region fails, the error is recorded and reported to the pushing lease, or for the
hub target to the module controller.  Errors of the hub target are recorded in CFG_ERR[0], whichever engine finds them (11 R290). -/
def streamError (sec e cause region : Nat) (x : CfgCtx) (s : State) : State :=
  let s1 := match x.open_ with
    | some r => if r < 64 then faultRegion s r else s
    | none => s
  let at_ := if region = 0x7F then 0 else e
  if e = 4 then
    let s2 := recordError 0 cause region x.lastAddr s1
    { s2 with boot := { s2.boot with recStatus := 2, recCause := cause } }
  else
    (recordError at_ cause region x.lastAddr s1).eventLease
      { type := 0x07, tag := secTag s sec, addr := x.lastAddr, body := [BitVec.ofNat 8 cause, BitVec.ofNat 8 region, 0, 0] ++ leBytes x.lastAddr 4 }
      x.lease

/-! ### Commands -/

/-- The outcome of a command: the state, where the stream then stands, and an error (cause and region). -/
structure CfgRes where
  s : State
  x : CfgCtx
  err : Option (Nat × Nat) := none

/-- A command whose stream goes on. -/
def goOn (s : State) (x : CfgCtx) : CfgRes := { s := s, x := x }
/-- A command in error; the region is the open one, or one that the command names. -/
def inError (s : State) (x : CfgCtx) (cause : Nat) (named : Option Nat) : CfgRes :=
  match x.open_, named with
  | some r, _ => { s := s, x := x, err := some (cause, r) }
  | none, some r => { s := s, x := x, err := some (cause, r) }
  | none, none => { s := s.drew, x := x, err := some (cause, Config.freeNat s.free % 128) }

/-- The pushing lease holds the region: granted and resident (11 Table 11.8 cause 4). -/
def leaseHas (s : State) (l r : Nat) : Bool := holdsRegion s l r && (s.regionOf r).resident == some l

/-- SYNC (11 R264): a wrong version is a reserved value; to the hub target it starts a new attempt (21 R508). -/
def cfgSync (e w : Nat) (x : CfgCtx) (s : State) : CfgRes :=
  if w ≠ 0x1C0F5E01 then
    if x.synced || w / 256 == 0x1C0F5E then inError s x 1 (if e = 4 then some 0x7F else none) else goOn s x
  else if e = 4 then
    goOn { s with boot := { s.boot with hubFrames := [], recStatus := 1, recCause := 0, pushed := false } } { synced := true }
  else goOn s { x with synced := true }

/-- Region `r` opens for a rolling load.  A repeat after a failed one (R288) finds the columns drained that have drained since: their
frames are zeroed again and no column is waited for twice (R284, R285). -/
def openRolling (r : Nat) (s : State) : State :=
  let x := s.regionOf r
  let kept := if x.failPending ∨ x.st = .faulted then x.drainedCols else 0
  let ts := ((upTo 9).filter (fun c => kept.getLsbD c)).flatMap (fun c => (upTo 8).map (regionTile r c))
  (s.frameErase ts).updRegion r (fun y =>
    { y with st := .rolling, staged := [], drainedCols := kept, sealedCols := y.sealedCols &&& ~~~ kept, failPending := false,
             idlePending := false })

/-- Region `r` opens: its frames are zeroed, and the latches that its tiles hold are abandoned (11 R268, 09 Table 9.7). -/
def openWhole (r lease : Nat) (s : State) : State :=
  ((abandonLatches s [r] lease).frameErase (regionCTiles r ++ regionMTiles r)).updRegion r (fun y =>
    { y with st := .opened, staged := [], sealedCols := 0, drainedCols := 0, failPending := false, idlePending := false })

/-- REGION_OPEN (11 R268, R271, R278). -/
def cfgOpen (e lease w : Nat) (x : CfgCtx) (s : State) : CfgRes :=
  let r := cmdRegion w
  let roll := natBit w 8
  if x.open_.isSome then inError s x 7 none
  else if r = 0x7F then
    if e = 4 && !s.boot.recovery then goOn { s with boot := { s.boot with hubFrames := [] } } { synced := true, open_ := some 0x7F }
    else inError s x 8 (some r)
  else if e = 4 then inError s x 8 (some r)
  else if !(leaseHas s lease r) then inError s { x with lease := lease } 4 (some r)
  else if regionDie r ≠ e then inError s.drew { x with lease := lease } (Config.freeNat s.free % 256) (some r)
  else
    let x1 : CfgCtx := { synced := true, open_ := some r, lease := lease, roll := roll, lastAddr := x.lastAddr }
    if roll then goOn (openRolling r s) x1 else goOn (openWhole r lease s) x1

/-- FRAME_ADDR (11 R261, R265, R267, R285). -/
def cfgAddr (w : Nat) (x : CfgCtx) (s : State) : CfgRes :=
  let a := cmdAddr w
  let i := natBits a 12 10
  let x1 := { x with lastAddr := a }
  match x.open_ with
  | none => inError s x1 3 none
  | some r =>
    if r = 0x7F then
      if natBits a 22 10 ≠ 0 then inError s x1 3 none
      else goOn s { x1 with at_ := some (0, i) }
    else match addrColumn r a with
      | none => inError s x1 3 none
      | some c =>
        if bandFrames c ≤ i then inError s x1 3 none
        else if x.unchecked && x.at_.any (fun k => k.1 != c) then inError s x1 7 none
        else if (s.regionOf r).st = .rolling ∧ (s.regionOf r).drainedCols.getLsbD c = false then
          goOn s { x1 with held := some (c, i) }
        else goOn s { x1 with at_ := some (c, i) }

/-- Write the frames of a FRAME_DATA from index `i` of column `c`. -/
def putFrames (r c i n : Nat) (ws : List Nat) (s : State) : State :=
  (upTo n).foldl (fun s j =>
    let f := frameOfWords (((ws.drop (64 * j)).take 64).map (BitVec.ofNat 32))
    if r = 0x7F then { s with boot := { s.boot with hubFrames := s.boot.hubFrames.set 0 (i + j) f } }
    else s.setFrame (regionTile r c ((i + j) / tileFrames c)) ((i + j) % tileFrames c) f) s

/-- Frames are written into column `c` of region `r`: it is no longer sealed (11 R267). -/
def unsealColumn (r c : Nat) (s : State) : State :=
  if r = 0x7F then s else s.updRegion r (fun y => { y with sealedCols := y.sealedCols &&& ~~~ colBit c })

/-- FRAME_DATA (11 R265). -/
def cfgData (w : Nat) (ws : List Nat) (x : CfgCtx) (s : State) : CfgRes :=
  let n := cmdCount w
  match x.open_ with
  | none => inError s x 7 none
  | some r =>
    match x.at_ with
    | none => inError s x 2 none
    | some (c, i) =>
      if (if r = 0x7F then 1024 else bandFrames c) < i + n then inError s x 3 none
      else goOn (unsealColumn r c (putFrames r c i n ws s)) { x with at_ := some (c, i + n), crc := crcWords x.crc ws, unchecked := true }

/-- WRITE_CREG (11 R271): the staged copy. -/
def cfgCreg (w v : Nat) (x : CfgCtx) (s : State) : CfgRes :=
  match x.open_ with
  | none => inError s x 7 none
  | some r =>
    if r = 0x7F then inError s x 7 none
    else
      goOn (s.updRegion r (fun y => { y with staged := y.staged.set 0 (cmdReg w) (BitVec.ofNat 32 v) }))
        { x with crc := crcWords x.crc [v] }

/-- CRC_CHECK (11 R266, R267): a column whose frames have been checked, and read back without error, is sealed. -/
def cfgCheck (v : Nat) (eccOk : Bool) (x : CfgCtx) (s : State) : CfgRes :=
  match x.open_ with
  | none => inError s x 7 none
  | some r =>
    if (x.crc ^^^ 0xFFFFFFFF#32).toNat ≠ v then inError s x 5 none
    else if x.unchecked && !eccOk then inError s x 6 none
    else
      let x1 := { x with crc := 0xFFFFFFFF, unchecked := false }
      match x.at_ with
      | some (c, _) =>
        if x.unchecked && r != 0x7F then
          goOn (s.updRegion r (fun y => { y with sealedCols := y.sealedCols ||| colBit c })) x1
        else goOn s x1
      | none => goOn s x1

/-- A region is sealed: every column, and the whole staged copy of its registers becomes live (11 R267, R271). -/
def sealRegion (r : Nat) (s : State) : State :=
  s.updRegion r (fun y => { y with st := .sealed, live := y.staged, sealedCols := 0x1FF })

/-- REGION_SEAL (11 R267, R271, R285). -/
def cfgSeal (w : Nat) (x : CfgCtx) (s : State) : CfgRes :=
  match x.open_ with
  | none => inError s x 7 (some (cmdRegion w))
  | some r =>
    if cmdRegion w ≠ r ∨ x.unchecked then inError s x 7 none
    else if r = 0x7F then
      goOn { s with boot := { s.boot with pushed := true } } { synced := true, lastAddr := x.lastAddr }
    else if (s.regionOf r).st = .rolling ∧ allDrained (s.regionOf r) = false then goOn s { x with heldSeal := true }
    else goOn (sealRegion r s) { synced := true, lease := x.lease, lastAddr := x.lastAddr }

/-- Execute one command word with its operand words (11 R264). -/
def cfgExec (e lease w : Nat) (ws : List Nat) (eccOk : Bool) (x : CfgCtx) (s : State) : CfgRes :=
  if cmdOp w = 1 then cfgSync e w x s
  else if !x.synced then goOn s x
  else if cmdReserved w then inError s x 1 none
  else match cmdOp w with
    | 2 => cfgAddr w x s
    | 3 => cfgData w ws x s
    | 4 => cfgCreg w (ws.getD 0 0) x s
    | 5 => cfgCheck (ws.getD 0 0) eccOk x s
    | 6 => cfgOpen e lease w x s
    | 7 => cfgSeal w x s
    | 8 => if x.open_.isSome then inError s x 7 none else goOn s {}
    | _ => goOn s x

/-! ### Pushed streams (11 R277, R288) -/

/-- A stream waits for a column to drain (11 R277, R285). -/
def cfgWaits (x : CfgCtx) : Bool := x.held.isSome || x.heldSeal

/-- Push the groups of a section's frame stream that engine `e` loads, from region `from_` on where one is named. -/
def pushGroups (i e : Nat) (from_ : Option Nat) (s : State) : State :=
  match s.secOf i with
  | none => s
  | some x =>
    let gs := (secGroups s x).filter (fun g => regionDie g.1 == e)
    let gs1 := match from_ with
      | none => gs
      | some r => gs.dropWhile (fun g => g.1 != r)
    if gs1.isEmpty then s
    else
      let p : CfgPush := { sec := i, words := 0x1C0F5E01 :: ((gs1.map Prod.snd).flatten ++ [0x80000000]) }
      let g := s.engOf e
      s.setEng e { g with pushes := g.pushes ++ [p] }

/-- A region of section `i` fails to load in a stream of engine `e` (11 R288): once for CRC or ECC the load is repeated,
else the RUN ends with CONFIG_LOAD_FAILED. -/
def loadFailure (i e cause region : Nat) (s : State) : State :=
  match s.secOf i with
  | none => s
  | some x =>
    if (cause = 5 ∨ cause = 6) ∧ x.retried.contains region = false then
      pushGroups i e (some region) (s.setSec i (some { x with retried := x.retried ++ [region] }))
    else
      settleProg (stopProg (cancelCore false s i) x.prog x.tag x.instr .configLoadFailed) x.prog

/-- Note the region that a section's load has opened. -/
def noteOpened (i : Nat) (x y : CfgCtx) (s : State) : State :=
  match x.open_, y.open_, s.secOf i with
  | none, some r, some z => s.setSec i (some { z with opened := dedup (z.opened ++ [r]) })
  | _, _, _ => s

/-- Replace push `k` of engine `e`, or remove it. -/
def setPush (e k : Nat) (p : Option CfgPush) (s : State) : State :=
  let g := s.engOf e
  s.setEng e { g with pushes := match p with
    | some q => g.pushes.set k q
    | none => g.pushes.eraseIdx k }

/-- The engine executes the next words of push `k`. -/
def runPush (e k : Nat) (p : CfgPush) (w : Nat) (ws : List Nat) (eccOk : Bool) (s : State) : State :=
  let lease := match s.secOf p.sec with
    | some x => x.lease
    | none => 0
  let r := cfgExec e lease w ws eccOk p.ctx s
  match r.err with
  | some (cause, region) =>
    loadFailure p.sec e cause region (setPush e k none (streamError p.sec e cause region { r.x with lease := lease } r.s))
  | none =>
    let rest := p.words.drop (1 + ws.length)
    let s1 := noteOpened p.sec p.ctx r.x r.s
    setPush e k (if rest.isEmpty then none else some { p with words := rest, ctx := r.x }) s1

/-- The engine executes words that no push holds. -/
def runOwn (e lease w : Nat) (ws : List Nat) (eccOk : Bool) (s : State) : State :=
  let x := (s.engOf e).ctx
  if cfgWaits x then s
  else
    let r := cfgExec e lease w ws eccOk x s
    match r.err with
    | some (cause, region) =>
      let s1 := streamError 0 e cause region r.x r.s
      s1.setEng e { s1.engOf e with ctx := {} }
    | none => r.s.setEng e { r.s.engOf e with ctx := r.x }

/-- Engine `e` is there: a fitted die's, or the serial port's while DEV_STATE is RECOVERY (11 R277, R278). -/
def engineThere (s : State) (e : Nat) : Bool := decide (e < s.nDies) || (e == 4 && s.boot.state == 6)

/-- A pushed stream stands inside a column: its next command neither names another column nor opens, seals or ends (11 R277). -/
def inColumn (p : CfgPush) : Bool :=
  match p.ctx.at_, p.words with
  | some (c, _), w :: _ =>
    if cmdOp w = 2 then (match p.ctx.open_ with
      | some r => addrColumn r (cmdAddr w) == some c
      | none => false)
    else !([6, 7, 8].contains (cmdOp w))
  | _, _ => false
/-- The stream that the engine serves next (11 R277): the one it is in, until its column boundary; then the oldest of the eight it
holds that does not wait for a column to drain. -/
def pushTurn (g : CfgEng) : Option Nat :=
  let ps := g.pushes.take 8
  match g.cur.bind (fun i => ps.findIdx? (fun p => p.sec == i && !(cfgWaits p.ctx) && inColumn p)) with
  | some k => some k
  | none => ps.findIdx? (fun p => !(cfgWaits p.ctx))

/-- The engine takes a command: the next words of the pushed stream whose turn it is, which must be these; with
no pushed stream, the words as they come. -/
def engineRow (e lease w : Nat) (ws : List Nat) (eccOk : Bool) (s : State) : State :=
  if !(engineThere s e) || ws.length != cmdOperands w then s
  else
    let ps := (s.engOf e).pushes
    if ps.isEmpty then runOwn e lease w ws eccOk s
    else match pushTurn (s.engOf e) with
      | none => s
      | some k => match ps[k]? with
        | none => s
        | some p => 
          if p.words.take (1 + ws.length) = w :: ws then
            runPush e k p w ws eccOk (s.setEng e { s.engOf e with cur := some p.sec })
          else s

/-- NOP (11 Table 11.5). -/
def execNop (engine : Nat) (s : State) : Host.Outcome State Fault Refusal := done (engineRow engine 0 0 [] true s)
/-- SYNC (11 R264). -/
def execSync (engine : Nat) (cmd : Word) (s : State) : Host.Outcome State Fault Refusal :=
  done (if cmdOp cmd.toNat = 1 then engineRow engine 0 cmd.toNat [] true s else s)
/-- FRAME_ADDR (11 R265). -/
def execFrameAddr (engine : Nat) (cmd : Word) (s : State) : Host.Outcome State Fault Refusal :=
  done (if cmdOp cmd.toNat = 2 then engineRow engine 0 cmd.toNat [] true s else s)
/-- FRAME_DATA (11 R265). -/
def execFrameData (engine : Nat) (cmd : Word) (payload : List Word) (s : State) : Host.Outcome State Fault Refusal :=
  done (if cmdOp cmd.toNat = 3 then engineRow engine 0 cmd.toNat (payload.map BitVec.toNat) true s else s)
/-- WRITE_CREG (11 R271). -/
def execWriteCreg (engine : Nat) (cmd val : Word) (s : State) : Host.Outcome State Fault Refusal :=
  done (if cmdOp cmd.toNat = 4 then engineRow engine 0 cmd.toNat [val.toNat] true s else s)
/-- CRC_CHECK (11 R266); `eccOk` says that the column's read-back finds no ECC error. -/
def execCrcCheck (engine : Nat) (cmd val : Word) (eccOk : Bool) (s : State) : Host.Outcome State Fault Refusal :=
  done (if cmdOp cmd.toNat = 5 then engineRow engine 0 cmd.toNat [val.toNat] eccOk s else s)
/-- REGION_OPEN (11 R268). -/
def execRegionOpen (engine lease : Nat) (cmd : Word) (s : State) : Host.Outcome State Fault Refusal :=
  done (if cmdOp cmd.toNat = 6 then engineRow engine lease cmd.toNat [] true s else s)
/-- REGION_SEAL (11 R271). -/
def execRegionSeal (engine : Nat) (cmd : Word) (s : State) : Host.Outcome State Fault Refusal :=
  done (if cmdOp cmd.toNat = 7 then engineRow engine 0 cmd.toNat [] true s else s)
/-- DESYNC (11 R264). -/
def execDesync (engine : Nat) (cmd : Word) (s : State) : Host.Outcome State Fault Refusal :=
  done (if cmdOp cmd.toNat = 8 then engineRow engine 0 cmd.toNat [] true s else s)

/-! ### Rolling (11 R282 to R285) -/

/-- Every enabled inlet of kind 1 or 2 of a compute tile has its DRAIN packets (11 R283). -/
def inletsDrained (s : State) (t : Nat) : Bool :=
  (upTo 4).all (fun n =>
    let k := inKind s t n
    let got := (s.tileOf t).drains.get 0 n
    if k = 1 then decide (1 ≤ got) else if k = 2 then decide (inContrib s t n ≤ got) else true)

/-- Column `c` of region `r` may drain. -/
def mayDrain (s : State) (r c : Nat) : Bool :=
  (s.regionOf r).st == .rolling && !((s.regionOf r).drainedCols.getLsbD c) &&
  (!(s.busyOther 0 r) || (c != 8 && (columnTiles r c).all (fun t =>
    s.absent t || ((s.tileOf t).phase == .ended && inletsDrained s t))))

/-- A tile's local port is disabled, entries left in its inlets are discarded and reported (11 R284, 06 R153), and the latches that
it holds are abandoned (09 Table 9.7). -/
def drainTile (lease c : Nat) (s : State) (t : Nat) : State :=
  if c = 8 then s.setMTile t { s.mtileOf t with portOff := true }
  else
    let s1 := abandonHeld (endTile lease s t) (· == t) [] lease
    s1.setTile t { s1.tileOf t with portOff := true }

/-- A FRAME_ADDR held for column `c` of region `r` takes effect, and a held REGION_SEAL once every column has drained. -/
def releaseHeld (r c : Nat) (drained : Bool) (x : CfgCtx) : CfgCtx :=
  if x.open_ ≠ some r then x
  else
    let y := match x.held with
      | some (k, i) => if k = c then { x with held := none, at_ := some (k, i) } else x
      | none => x
    if y.heldSeal && drained then { synced := true, lease := y.lease, lastAddr := y.lastAddr } else y

/-- COLUMN_DRAIN (11 R283 to R285). -/
def drainColumn (r c : Nat) (s : State) : State :=
  let ts := columnTiles r c
  let lease := (s.regionOf r).resident.getD 0xFFFF
  let s1 := (ts.foldl (drainTile lease c) s).frameErase ts
  let s2 := s1.updRegion r (fun y => { y with drainedCols := y.drainedCols ||| colBit c,
                                              sealedCols := y.sealedCols &&& ~~~ colBit c })
  let all := allDrained (s2.regionOf r)
  let e := regionDie r
  let g := s2.engOf e
  let sealing := all && (g.ctx :: g.pushes.map (fun p => p.ctx)).any (fun x => x.open_ == some r && x.heldSeal)
  let s3 := s2.setEng e { g with ctx := releaseHeld r c all g.ctx,
                                 pushes := g.pushes.map (fun p => { p with ctx := releaseHeld r c all p.ctx }) }
  if sealing then sealRegion r s3 else s3

/-- COLUMN_DRAIN (11 R283). -/
def execColumnDrain (region col : Nat) (s : State) : Host.Outcome State Fault Refusal :=
  done (if decide (region < s.nRegions) && decide (col < 9) && mayDrain s region col then drainColumn region col s else s)

/-! ### ICP frames (11 R279) -/

/-- Write a frame that the ICP sends: a settings frame is held until the tile's restart (06 R157). -/
def icpFrame (t f : Nat) (v : Frame) (s : State) : State :=
  if f < 64 then s.setFrame t f v
  else { s with fab := { s.fab with icpFrames := s.fab.icpFrames.ins (t * 1024 + f) v } }

/-- FRAME_PACKET_ARRIVAL (11 R279): a FRAME packet at port 32 of a compute tile of the writer's region, whose index 72 r + f names
the tile's row in its band (R261). -/
def execFramePacketArrival (pkt : Nat) (s : State) : Host.Outcome State Fault Refusal :=
  done (arrive pkt (fun p => p.vn == vnCtl && p.kind == 0) (fun p s =>
    match p.pl with
    | .frame i f =>
      if srcRegion p = dstRegion p ∧ epIsCompute p.dst = true ∧ p.port = 32 ∧ i / 72 = tileY (epTile p.dst) % 8 then
        progressed (icpFrame (epTile p.dst) (i % 72) f s) p.sec
      else packetFault s p
    | _ => packetFault s p) s)

/-! ### The serial slave port (22 R542 to R544) -/

/-- The status word that SSP_MISO shifts out (22 R543). -/
def sspStatus (s : State) : Word :=
  BitVec.ofNat 32 (0x5A * 2 ^ 24 + s.boot.recStatus % 256 * 65536 + (if s.boot.recStatus = 2 then s.boot.recCause % 256 else 0) * 256)

/-- A word reaches the engine of the serial slave port; operand words wait for their command to be complete. -/
def sspFeed (w : Nat) (s : State) : State :=
  let g := s.engOf 4
  match g.words with
  | [] =>
    if g.ctx.synced && cmdOp w != 1 && !(cmdReserved w) && cmdOperands w != 0 then s.setEng 4 { g with words := [w] }
    else runOwn 4 0 w [] true s
  | c :: ws =>
    if ws.length + 1 < cmdOperands c then s.setEng 4 { g with words := c :: (ws ++ [w]) }
    else runOwn 4 0 c (ws ++ [w]) true (s.setEng 4 { g with words := [] })

/-- SSP_WORD (22 R542, R543): while DEV_STATE is RECOVERY; otherwise the word is discarded. -/
def execSspWord (w : Word) (s : State) : Host.Outcome State Fault Refusal :=
  done (if s.boot.state = 6 then sspFeed w.toNat (s.emit (.sspMiso (sspStatus s))) else s)

/-- SSP_PARTIAL_WORD (22 R544): the stream is broken with BAD_COMMAND. -/
def execSspPartialWord (s : State) : Host.Outcome State Fault Refusal :=
  done (if s.boot.state = 6 then
    let x := (s.engOf 4).ctx
    let s1 := streamError 0 4 1 (x.open_.getD 0x7F) x s
    s1.setEng 4 { s1.engOf 4 with ctx := {}, words := [] }
  else s)

end Sys2Proof.Machine
end

