-- ==== Sys2Proof/Machine/Leases.lean ====
section
/-! DEFINITION. Leases: opening, resizing, closing, reclaiming, policy, and the movement of regions between leases
(chapter 17, 16 Tables 16.8, 16.9). -/
namespace Sys2Proof.Machine

/-! ### Placement (17 R404, R405, 18 R443) -/

/-- Bytes of an HBM stack, and of a save area. -/
def stackBytes : Nat := 36000000000
def saveBytes : Nat := 28 * 1048576 + 4096

/-- Capacity of stack `k`: a usable one of a usable die. -/
def stackCap (s : State) (k : Nat) : Nat := if s.dieUsable (k / 2) && s.stackUsable k then stackBytes else 0
/-- Bytes of stack `k` that a lease holds: a span interleaves over both stacks of its die, a save area lies in one (18 R443). -/
def leaseUse (x : Lease) (k : Nat) : Nat :=
  spanBytes / 2 * (x.spans.filter (fun d => d == k / 2)).length + saveBytes * (x.saveStack.filter (fun e => e.2 == k + 1)).length
/-- Bytes of stack `k` in use by the leases. -/
def stackUse (s : State) (k : Nat) : Nat :=
  s.own.leases.foldl (fun a e => if e.2.st = .free then a else a + leaseUse e.2 k) 0
/-- Free bytes of each stack, with the leases as they stand. -/
def stackFree (s : State) : List Nat := (upTo (2 * s.nDies)).map (fun k => stackCap s k - stackUse s k)
/-- Free capacity of die `d`. -/
def dieRoom (free : List Nat) (d : Nat) : Nat := free.getD (2 * d) 0 + free.getD (2 * d + 1) 0

/-- The die with the most free capacity, the lowest-numbered among equals, of those that satisfy `ok`. -/
def bestDie (free : List Nat) (ok : Nat → Bool) : Option Nat :=
  ((upTo (free.length / 2)).foldl (fun a d =>
    if ok d then
      match a with
      | none => some d
      | some e => if dieRoom free e < dieRoom free d then some d else a
    else a) none)

/-- A span fits on die `d`: both stacks usable, each with room for its half. -/
def spanFits (s : State) (free : List Nat) (d : Nat) : Bool :=
  s.dieUsable d && s.stackUsable (2 * d) && s.stackUsable (2 * d + 1) &&
    decide (spanBytes / 2 ≤ free.getD (2 * d) 0) && decide (spanBytes / 2 ≤ free.getD (2 * d + 1) 0)
/-- What stays free when stack `k` gives `n` bytes. -/
def takeBytes (free : List Nat) (k n : Nat) : List Nat := free.set k (free.getD k 0 - n)
/-- What stays free when die `d` takes a span. -/
def takeSpan (free : List Nat) (d : Nat) : List Nat := takeBytes (takeBytes free (2 * d) (spanBytes / 2)) (2 * d + 1) (spanBytes / 2)
/-- The die of the next span (17 R405). -/
def spanDie (s : State) (pref : Nat) (free : List Nat) : Option Nat :=
  ((upTo (free.length / 2)).find? (fun d => natBit pref d && spanFits s free d)).orElse (fun _ => bestDie free (spanFits s free))

/-- Place `n` spans, given the free bytes; the preference is a mask of dies. -/
def placeSpans (s : State) (pref : Nat) : Nat → List Nat → Option (List Nat × List Nat)
  | 0, free => some ([], free)
  | n + 1, free =>
    match spanDie s pref free with
    | none => none
    | some d => (placeSpans s pref n (takeSpan free d)).map (fun r => (d :: r.1, r.2))

/-- A stack of die `d` with room for a save area: the lower-numbered where both have it (DESIGN CHOICE, log 157). -/
def saveStackOn (free : List Nat) (d : Nat) : Option Nat := [2 * d, 2 * d + 1].find? (fun k => decide (saveBytes ≤ free.getD k 0))
/-- The stack of the save area of region `r` (17 R405). -/
def saveStackFor (free : List Nat) (r : Nat) : Option Nat :=
  (saveStackOn free (regionDie r)).orElse (fun _ => (bestDie free (fun d => (saveStackOn free d).isSome)).bind (saveStackOn free))

/-- Place a save area for each region: the region, and its stack. -/
def placeSaves : List Nat → List Nat → Option (List (Nat × Nat) × List Nat)
  | [], free => some ([], free)
  | r :: rs, free =>
    match saveStackFor free r with
    | none => none
    | some k => (placeSaves rs (takeBytes free k saveBytes)).map (fun q => ((r, k) :: q.1, q.2))

/-- Leases that hold a grant of region `r`. -/
def grantsOf (s : State) (r : Nat) : Nat := (grantedTo s [r]).length
/-- Region `r` may take another grant. -/
def grantable (s : State) (r : Nat) : Bool := decide (r < s.nRegions) && s.dieUsable (regionDie r) && decide (grantsOf s r < 16)

/-- Regions in the order of R404: fewest grants, preferred dies, lowest id. -/
def regionOrder (s : State) (pref : Nat) : List Nat :=
  let cand := (upTo s.nRegions).filter (grantable s)
  (upTo 16).flatMap (fun g =>
    let eq := cand.filter (fun r => grantsOf s r == g)
    eq.filter (fun r => natBit pref (regionDie r)) ++ eq.filter (fun r => !(natBit pref (regionDie r))))

/-- The regions of a mask. -/
def maskRegions (m : Nat) : List Nat := (upTo 64).filter (natBit m)
/-- The mask of some regions. -/
def regionsMask (rs : List Nat) : DWord := rs.foldl (fun a r => a ||| (1#64 <<< r)) 0

/-- The regions that LEASE_OPEN grants. -/
def pickRegions (s : State) (n mask pref : Nat) : Option (List Nat) :=
  if mask ≠ 0 then (if (maskRegions mask).all (grantable s) then some (maskRegions mask) else none)
  else
    let l := (regionOrder s pref).take n
    if l.length = n then some l else none

/-- The lowest free lease id (17 R402). -/
def freeId (s : State) : Option Nat := (upTo s.nLeases).find? (fun l => (s.leaseOf l).st = .free)

/-- Host tallies and latches in use (09 Table 9.1). -/
def talliesUsed (s : State) : Nat := s.own.leases.foldl (fun a e => a + e.2.tallies) 0
def latchesUsed (s : State) : Nat := s.own.leases.foldl (fun a e => a + e.2.latches) 0

/-- Save areas as State holds them: region to stack plus one. -/
def saveTable (l : List (Nat × Nat)) : Table Nat := l.foldl (fun t e => t.set 0 e.1 (e.2 + 1)) []

/-- The DRBG generates (19 R456, R457). -/
def drbgOk (s : State) : Bool := s.sec.seeded && !s.sec.entropyFail

/-- What LEASE_OPEN would grant, when everything suffices. -/
def openGrant (s : State) (fn n ht hl spans pref mask : Nat) : Option (Nat × List Nat × List Nat × List (Nat × Nat)) :=
  if s.limitOf fn ≤ (s.openOf fn).length ∨ 4096 < talliesUsed s + ht ∨ 256 < latchesUsed s + hl then none
  else match freeId s, pickRegions s n mask pref with
  | some id, some rs =>
    match placeSpans s pref spans (stackFree s) with
    | none => none
    | some p => (placeSaves (maskRegions (regionsMask rs).toNat) p.2).map (fun q => (id, rs, p.1, q.1))
  | _, _ => none

/-- A lease that function `f` opens or reclaims: HTALLY_LEASE shows it where it named none (23 R550). -/
def showLease (f l : Nat) (s : State) : State :=
  s.updFn f (fun y => { y with htLease := if y.htLease = 0xFFFF then l else y.htLease })

/-- `n` spans of a lease from span `k` on are zero-filled and lose every poison mark, before the grant takes effect (18 R427). -/
def grantHbm (l k n : Nat) (s : State) : State :=
  let s1 := s.hbmZero l (spanBytes * k) (spanBytes * n)
  let lo := unitKey l (spanBytes * k)
  { s1 with ras := { s1.ras with freePoison := s1.ras.freePoison.keep (fun u =>
      !(decide (lo ≤ u) && decide (u < lo + spanBytes / 64 * n))) } }

/-- LEASE_OPEN (17 R402 to R405, 19 R457, R458, R471): the key and the token come from the DRBG. -/
def execLeaseOpen (fn : Nat) (seq : Word) (s : State) : Host.Outcome State Fault Refusal :=
  done (onCmd fn seq 0x10 none (fun b s =>
    let n := fieldAt b 8 1
    let ht := fieldAt b 9 1
    let hl := fieldAt b 10 1
    let spans := fieldAt b 12 2
    let pref := fieldAt b 14 1
    let mask := fieldAt b 16 8
    if n < 1 ∨ 64 < n ∨ 64 < ht ∨ 8 < hl ∨ spans < 1 ∨ 15 < pref ∨
        (mask ≠ 0 ∧ ((maskRegions mask).length ≠ n ∨ !((maskRegions mask).all (fun r => decide (r < s.nRegions))))) then
      fail fn seq .badArg s
    else if s.sec.debugUnlocked then fail fn seq .locked s
    else if !(drbgOk s) then fail fn seq .busy s
    else match openGrant s fn n ht hl spans pref mask with
    | none => fail fn seq .noSpace s
    | some (id, rs, sp, sv) =>
      let key := s.random
      let s1 := s.drewRandom
      let token := s1.random.truncate 128
      let s2 := s1.drewRandom
      let x : Lease := { st := .opened, owner := fn, regions := regionsMask rs, spans := sp, saveStack := saveTable sv,
                         tallies := ht, latches := hl, token := token, key := key,
                         demandSigned := s.sec.policy.getLsbD 1, diePref := pref }
      reply fn seq (leBytes id 2 ++ leBytes spans 2 ++ leBytes 0 4 ++ leBytes (regionsMask rs).toNat 8 ++
        leBytes token.toNat 16) (showLease fn id ((grantHbm id 0 spans s2).setLease id x))) s)

/-! ### Resizing (16 Table 16.8) -/

/-- An inbound window of some function maps lease bytes from `lo` on. -/
def windowAbove (s : State) (l lo : Nat) : Bool :=
  s.host.fns.any (fun e => e.2.windows.any (fun w => match w.2 with
    | some v => v.lease == l && decide (lo < v.hbmOff + v.length)
    | none => false))

/-- A region leaves a lease: zeroised without a save where the lease is resident, and its saved state goes (07 R185,
11 R291). -/
def releaseRegion (l : Nat) (s : State) (r : Nat) : State :=
  let s1 := if (s.regionOf r).resident = some l then
      (zeroiseRegion s r).updRegion r (fun y => { y with resident := none }) else s
  s1.updLease l (fun x => { x with saves := x.saves.set none r none, saveStack := x.saveStack.set 0 r 0 })

/-- Lease `l` with what a resize to `spans` spans and the regions `new` takes away. -/
def shrunk (l spans new : Nat) (s : State) : State :=
  let x := s.leaseOf l
  let lost := (maskRegions x.regions.toNat).filter (fun r => !(natBit new r))
  let s1 := lost.foldl (releaseRegion l) s
  let s2 := if spans < x.spans.length then
      ((loseWrites l (spanBytes * spans) s1).hbmZero l (spanBytes * spans) (spanBytes * (x.spans.length - spans))).updLease l
        (fun y => { y with spans := y.spans.take spans }) else s1
  s2.updLease l (fun y => { y with regions := y.regions &&& BitVec.ofNat 64 new })

/-- LEASE_RESIZE (16 Table 16.8). -/
def execLeaseResize (fn : Nat) (seq : Word) (s : State) : Host.Outcome State Fault Refusal :=
  done (onCmd fn seq 0x11 none (fun b s =>
    let l := msgLease b
    let x := s.leaseOf l
    let spans := fieldAt b 8 2
    let mask := fieldAt b 16 8
    let new := if mask = 0 then x.regions.toNat else mask
    let lost := (maskRegions x.regions.toNat).filter (fun r => !(natBit new r))
    let gained := (maskRegions new).filter (fun r => !(x.regions.getLsbD r))
    if spans < 1 ∨ !((maskRegions new).all (fun r => decide (r < s.nRegions))) then fail fn seq .badArg s
    else if s.bound.any (fun e => e.2.lease == l) ∨ windowAbove s l (spanBytes * spans) ∨
        lost.any (fun r => (s.regionOf r).emulation.isSome) then fail fn seq .busy s
    else
      -- what is released first is free for what is granted
      let s3 := shrunk l spans new s
      match placeSpans s3 x.diePref (spans - x.spans.length) (stackFree s3) with
      | none => fail fn seq .noSpace s
      | some p =>
        match placeSaves gained p.2 with
        | none => fail fn seq .noSpace s
        | some q =>
          if !(gained.all (grantable s)) then fail fn seq .noSpace s
          else
            let s4 := (grantHbm l x.spans.length (spans - x.spans.length) s3).updLease l (fun y => { y with
              spans := y.spans ++ p.1, regions := BitVec.ofNat 64 new,
              saveStack := q.1.foldl (fun t e => t.set 0 e.1 (e.2 + 1)) y.saveStack })
            reply fn seq (leBytes 0 2 ++ leBytes spans 2 ++ leBytes 0 4 ++ leBytes new 8) s4) s)

/-! ### Closing (16 Table 16.8, 17 R559) -/

/-- Stop program `h` by hand: ABORTED, unless it stops already. -/
def stopByHand (h : Nat) (p : Prog) (s : State) : State :=
  if p.stopping then s else stopProg s h 0 p.lastIssued .aborted

/-- Stop every program of a lease as SEQ_STOP with abort 0 does. -/
def stopAll (l : Nat) (s : State) : State :=
  (s.bound.filter (fun e => e.2.lease == l)).foldl (fun s e => settleProg (stopByHand e.1 e.2 s) e.1) s

/-- LEASE_CLOSE (16 Table 16.8): the programs stop, and once its sections have ended the lease is CLOSING until
LEASE_FREED. -/
def execLeaseClose (fn : Nat) (seq : Word) (s : State) : Host.Outcome State Fault Refusal :=
  done (onCmd fn seq 0x12 none (fun b s =>
    let l := msgLease b
    closeGoesOn l (stopAll l (waitFor fn seq (.closing l) s))) s)

/-- LEASE_FREED (17 R559): once its sections have ended, the lease is zeroised and freed, and LEASE_CLOSE replies. -/
def execLeaseFreed (lease : Nat) (s : State) : Host.Outcome State Fault Refusal :=
  done (if (s.leaseOf lease).st = .closing ∧ leaseStill s lease = true then
    let s1 := freeLease s lease (if (s.leaseOf lease).told then [(s.leaseOf lease).owner] else [])
    (s1.host.flights.filter (fun x => x.wait == .closing lease)).foldl (fun s x => finishCmd s x.fn x.msg.seq .ok 0 []) s1
  else s)

/-! ### Reclaim (17 R420, R421) -/

/-- LEASE_STATE's code of a state (18 Table 18.7). -/
def leaseStCode : LeaseSt → Nat
  | .free => 0 | .opened => 1 | .draining => 2 | .dormant => 3 | .closing => 4

/-- The owner that the record of a rejected reclaim names: open for an id that is not in use (18 Table 18.7). -/
def formerOf (s : State) (x : Lease) : Nat :=
  if x.st = .free then Config.freeNat s.free
  else if x.st = .draining ∨ x.st = .dormant then x.formerOwner else x.owner

/-- The owner that the record of a rejected reclaim reaches (18 Table 18.7): an OPEN lease's, or one that was told of the close. -/
def rejectReach (x : Lease) : List Nat := if x.st = .opened ∨ (x.st = .closing ∧ x.told = true) then [x.owner] else []

/-- A LEASE_RECLAIM of the lease that firmware took earlier, with the conditions of R420 met, has not replied yet. -/
def reclaimBefore (s : State) (fn : Nat) (seq : Word) (l : Nat) : Bool :=
  (s.host.flights.takeWhile (fun x => !(x.fn == fn && x.msg.seq == seq))).any (fun x =>
    x.reclaim && msgLease (entryBytes x.msg.bytes) == l)

/-- The message met the conditions of R420 when it was taken, and no other reclaim has taken the lease since. -/
def mayReclaim (s : State) (fn : Nat) (seq : Word) (x : Lease) (token : BitVec 128) : Bool :=
  x.st == .dormant && token == x.token && (flightOf s fn seq).any (fun y => y.reclaim)

/-- LEASE_RECLAIM (17 R420, R421, 19 R457); one taken later acts after it. -/
def execLeaseReclaim (fn : Nat) (seq : Word) (s : State) : Host.Outcome State Fault Refusal :=
  done (onCmd fn seq 0x13 none (fun b s =>
    let l := msgLease b
    let x := s.leaseOf l
    if reclaimBefore s fn seq l then s
    else if !(drbgOk s) then fail fn seq .busy s
    else if mayReclaim s fn seq x (BitVec.ofNat 128 (fieldAt b 8 16)) then
      if s.limitOf fn ≤ (s.openOf fn).length then fail fn seq .noSpace s
      else
        let t := s.random.truncate 128
        let s1 := (s.drewRandom).setLease l { x with st := .opened, owner := fn, token := t }
        let s2 := s1.leaseStateEvent l 1 2 x.formerOwner fn [fn]
        reply fn seq (leBytes 0 16 ++ leBytes t.toNat 16) (showLease fn l s2)
    else
      fail fn seq .tokenRejected ((if x.st = .free then s.drew else s).leaseStateEvent l (leaseStCode x.st) 3 (formerOf s x) fn
        (rejectReach x))) s)

/-! ### Policy (16 Table 16.9, R399) -/

/-- Change the lease of a message and reply OK. -/
def policySet (fn : Nat) (seq : Word) (b : List Byte) (g : Lease → Lease) (s : State) : State :=
  reply fn seq [] (s.updLease (msgLease b) g)

/-- Sub-operation 0x00. -/
def execLeasePolicyLimits (fn : Nat) (seq : Word) (s : State) : Host.Outcome State Fault Refusal :=
  done (onCmd fn seq 0x14 (some 0x00) (fun b s =>
    let lend := fieldAt b 12 4
    let lim := fieldAt b 16 4
    if lend ≠ 0 ∧ (lend < 5 ∨ 10000 < lend) then fail fn seq .badArg s
    else policySet fn seq b (fun x => { x with lendUs := if lend = 0 then x.lendUs else lend, limitUs := lim }) s) s)

/-- Sub-operation 0x01 (16 R399). -/
def execLeasePolicyDemandSigned (fn : Nat) (seq : Word) (s : State) : Host.Outcome State Fault Refusal :=
  done (onCmd fn seq 0x14 (some 0x01) (fun b s =>
    let v := fieldAt b 12 1
    if (s.leaseOf (msgLease b)).demandSigned ∧ v = 0 then fail fn seq .locked s
    else if 1 < v then fail fn seq .badArg s
    else policySet fn seq b (fun x => { x with demandSigned := v == 1 }) s) s)

/-- Sub-operation 0x02. -/
def execLeasePolicyKeyInstall (fn : Nat) (seq : Word) (at_ : Nat) (f : Finding) (s : State) : Host.Outcome State Fault Refusal :=
  done (onCmd fn seq 0x14 (some 0x02) (fun b s0 =>
    let l := msgLease b
    let k := fieldAt b 12 1
    let off := fieldAt b 16 8
    let s := if (s0.leaseOf l).demandSigned then s0 else fwRead l off 96 at_ f s0
    if (s.leaseOf l).demandSigned then fail fn seq .locked s
    else if 7 < k ∨ !(s.inLease l off 96) then fail fn seq .badArg s
    else policySet fn seq b (fun x => { x with
      keys := x.keys.set none k (some (BitVec.ofNat 768 (beNat (s.hbmRead l off 96)))) }) s) s)

/-- Sub-operation 0x03. -/
def execLeasePolicyKeyClear (fn : Nat) (seq : Word) (s : State) : Host.Outcome State Fault Refusal :=
  done (onCmd fn seq 0x14 (some 0x03) (fun b s =>
    let k := fieldAt b 12 1
    if (s.leaseOf (msgLease b)).demandSigned then fail fn seq .locked s
    else if 7 < k then fail fn seq .badArg s
    else policySet fn seq b (fun x => { x with keys := x.keys.set none k none }) s) s)

/-- Sub-operation 0x04 (09 R225). -/
def execLeasePolicyDoorbellBind (fn : Nat) (seq : Word) (s : State) : Host.Outcome State Fault Refusal :=
  done (onCmd fn seq 0x14 (some 0x04) (fun b s =>
    let l := msgLease b
    let bit := fieldAt b 12 1
    let on := fieldAt b 13 1
    let n := fieldAt b 14 1
    if 31 < bit ∨ 1 < on ∨ (on = 1 ∧ (s.leaseOf l).tallies ≤ n) then fail fn seq .badArg s
    else reply fn seq [] (s.updFn fn (fun y => { y with
      dbBind := y.dbBind.set none bit (if on = 1 then some (l, n) else none) }))) s)

/-- Sub-operation 0x05 (17 R405). -/
def execLeasePolicyDiePreference (fn : Nat) (seq : Word) (s : State) : Host.Outcome State Fault Refusal :=
  done (onCmd fn seq 0x14 (some 0x05) (fun b s =>
    if 15 < fieldAt b 12 1 then fail fn seq .badArg s
    else policySet fn seq b (fun x => { x with diePref := fieldAt b 12 1 }) s) s)

/-- Sub-operation 0x10 (19 SEC_POLICY.forbid_debug_perm). -/
def execLeasePolicyDebugPermission (fn : Nat) (seq : Word) (s : State) : Host.Outcome State Fault Refusal :=
  done (onCmd fn seq 0x14 (some 0x10) (fun b s =>
    let v := fieldAt b 12 1
    if !(s.isSteward fn) then fail fn seq .stewardRequired s
    else if s.sec.policy.getLsbD 3 ∧ v = 1 then fail fn seq .locked s
    else if 1 < v then fail fn seq .badArg s
    else policySet fn seq b (fun x => { x with debugPerm := v == 1 }) s) s)

/-- A lease past its maximum dormancy is closed, without an owner to tell (17 R418); not while a LEASE_RECLAIM that met the
conditions when it was taken has not acted (R420). -/
def expire (l : Nat) (s : State) : State :=
  let x := s.leaseOf l
  if x.st = .dormant ∧ dormancyOver s x = true ∧
      s.host.flights.all (fun y => !(y.reclaim && msgLease (entryBytes y.msg.bytes) == l)) = true then startClosing s l 4 []
  else s

/-- Sub-operation 0x11 (17 R418): a lease already past the new maximum is closed at once. -/
def execLeasePolicyMaxDormancy (fn : Nat) (seq : Word) (s : State) : Host.Outcome State Fault Refusal :=
  done (onCmd fn seq 0x14 (some 0x11) (fun b s =>
    if !(s.isSteward fn) then fail fn seq .stewardRequired s
    else expire (msgLease b) (policySet fn seq b (fun x => { x with maxDormS := fieldAt b 12 4 }) s)) s)

/-- ZERO_FILL (16 Table 16.10). -/
def execZeroFill (fn : Nat) (seq : Word) (s : State) : Host.Outcome State Fault Refusal :=
  done (onCmd fn seq 0x24 none (fun b s =>
    let l := msgLease b
    let off := fieldAt b 16 8
    let len := fieldAt b 24 8
    if off % 4096 ≠ 0 ∨ len % 4096 ≠ 0 ∨ !(s.inLease l off len) then fail fn seq .badArg s
    else if s.secs.any (fun e => e.2.lease == l && (e.2.phase == .running || e.2.phase == .ending || e.2.phase == .prologue))
    then fail fn seq .busy s
    else reply fn seq [] (s.hbmZero l off len)) s)

/-! ### Losing the owner (17 R415, R416, R418) -/

/-- Step 2 of R416: each region on which the lease is resident is saved, zeroised and made vacant; the save finds `f` at byte
`at_` of the tiles. -/
def vacateAll (l at_ : Nat) (f : Finding) (s : State) : State :=
  (upTo s.nRegions).foldl (fun s r =>
    if (s.regionOf r).resident = some l then
      (zeroiseRegion (saveRegion (saveFinding r at_ f s) l r) r).updRegion r (fun y => { y with resident := none })
    else s) s

/-- LEASE_DRAINED (17 R416, Table 17.6): programs released, regions saved, then channels unbound, latches abandoned and the window
lists dropped. -/
def execLeaseDrained (lease at_ : Nat) (f : Finding) (s : State) : Host.Outcome State Fault Refusal :=
  done (if (s.leaseOf lease).st = .draining ∧ s.secs.all (fun e => e.2.lease != lease) then
    let s1 := (s.bound.filter (fun e => e.2.lease == lease)).foldl (fun s e => releaseProg s e.1) s
    let s2 := unbindChans (vacateAll lease at_ f s1) lease
    let s3 := abandonHLatches (unmapLease s2 lease) lease
    let x := s3.leaseOf lease
    let s4 := s3.setLease lease { x with st := .dormant, dormAt := s.sclk, entries := [], peerWins := [], peerLast := [] }
    s4.leaseStateEvent lease 3 1 x.formerOwner 0xFFFF []
  else s)

/-- DRAINING_LIMIT (17 R415): 1 s after the trigger the regions of sections that still run are aborted. -/
def execDrainingLimit (lease : Nat) (s : State) : Host.Outcome State Fault Refusal :=
  done (if (s.leaseOf lease).st = .draining ∧ second ≤ s.sclk - (s.leaseOf lease).drainAt then
    let rs := (s.secs.filter (fun e => e.2.lease == lease && (e.2.phase == .running || e.2.phase == .ending))).flatMap
      (fun e => e.2.placed.map Prod.snd)
    (dedup rs).foldl abortRegion s
  else s)

/-- DORMANCY_EXPIRY (17 R418). -/
def execDormancyExpiry (lease : Nat) (s : State) : Host.Outcome State Fault Refusal :=
  done (expire lease s)

/-! ### Regions between leases (17 R406 to R410) -/

/-- SCLK ticks of 2 ms. -/
def residency : Nat := 50000

/-- The regions that the waiting RUN of program `h` is placed on, and its lease. -/
def waitingRun (s : State) (h : Nat) : Option (Nat × List Nat) :=
  match s.progOf h with
  | none => none
  | some p => (s.secOf p.runSec).map (fun x => (p.lease, x.placed.map Prod.snd))

/-- RUN `h` needs region `r`: its placement includes it and its lease is not resident on it. -/
def needsRegion (s : State) (h r : Nat) : Bool :=
  match waitingRun s h with
  | none => false
  | some (l, rs) => rs.contains r && (s.regionOf r).resident != some l

/-- A RUN that needs a region held for another lease's solver emulation is passed over (17 R407). -/
def passedOver (s : State) (h : Nat) : Bool :=
  match waitingRun s h with
  | none => true
  | some (l, rs) => rs.any (fun r => (s.regionOf r).emulation.isSome && (s.regionOf r).resident != some l)

/-- The resident lease has stayed 2 ms. -/
def stayed (s : State) (r : Nat) : Bool := decide (residency ≤ s.sclk - (s.regionOf r).since)

/-- The RUN at the head of the queue, of those that are not passed over. -/
def headRun (s : State) : Option Nat := s.seq.runQueue.find? (fun h => !(passedOver s h))

/-- The head RUN reserves region `r`: its placement includes it, and the resident lease, be it the RUN's own, has stayed
2 ms (17 R408). -/
def headReserves (s : State) (h r : Nat) : Bool :=
  (match waitingRun s h with
   | none => false
   | some (_, rs) => rs.contains r) && (s.regionOf r).resident.isSome && stayed s r

/-- REGION_RESERVE (17 R408): the head RUN reserves the region. -/
def execRegionReserve (region : Nat) (s : State) : Host.Outcome State Fault Refusal :=
  done (match headRun s with
  | none => s
  | some h =>
    if headReserves s h region && (s.regionOf region).reserved.isNone then
      s.updRegion region (fun y => { y with reserved := some h })
    else s)

/-- The RUN that has reserved region `r`, or that reserves it now as the head of the queue. -/
def reservedBy (s : State) (r : Nat) : Option Nat :=
  match (s.regionOf r).reserved with
  | some k => some k
  | none => match headRun s with
    | none => none
    | some h => if headReserves s h r then some h else none

/-- The earliest RUN of the queue that needs region `r`. -/
def takerOf (s : State) (r : Nat) : Option Nat :=
  s.seq.runQueue.find? (fun h => !(passedOver s h) && needsRegion s h r)

/-- Nothing that a handover must wait for is on the region: a prologue or run-ahead on a region reserved for another RUN
is cancelled instead (17 R406, R408). -/
def handoverFree (s : State) (r : Nat) : Bool :=
  let users := s.regionUsers r
  (s.regionOf r).emulation.isNone && !(s.regionOf r).steering &&
    (if (reservedBy s r).isSome then
      users.all (fun e => e.2.phase != .running && e.2.phase != .ending)
    else users.isEmpty)

/-- A lease has no bound program. -/
def noProgram (s : State) (l : Nat) : Bool := s.bound.all (fun e => e.2.lease != l)

/-- Hand region `r` to lease `l` (17 R409, R410). -/
def handOver (r l : Nat) (s : State) : State :=
  let s1 := match (s.regionOf r).resident with
    | none => s
    | some o => if (s.leaseOf o).st = .closing then s else saveRegion s o r
  let s2 := restoreRegion (zeroiseRegion s1 r) l r
  s2.updRegion r (fun y => { y with resident := some l, since := s.sclk })

/-- Once its lease is resident everywhere, a RUN leaves the queue; its regions stay reserved for it until its section starts
or is cancelled, as the head is always served (17 R407, R408). -/
def leaveQueue (h : Nat) (s : State) : State :=
  match waitingRun s h with
  | none => s
  | some (l, rs) =>
    if rs.all (fun r => (s.regionOf r).resident == some l) then
      let s1 := rs.foldl (fun s r => s.updRegion r (fun y =>
        { y with reserved := match y.reserved with
            | some k => some k
            | none => some h })) s
      { s1 with seq := { s1.seq with runQueue := s1.seq.runQueue.filter (fun k => k != h) } }
    else s

/-- RUNs whose lease has just lost region `r` begin to wait for it (17 R407). -/
def joinQueue (r : Nat) (s : State) : State :=
  let hs := (s.bound.filter (fun e => e.2.wait == .run && !(s.seq.runQueue.contains e.1) && needsRegion s e.1 r)).map Prod.fst
  { s with seq := { s.seq with runQueue := s.seq.runQueue ++ hs } }

/-- The other RUNs of the queue whose lease has become resident on every region of their placements leave it (17 R407). -/
def leaveOthers (s : State) : State :=
  { s with seq := { s.seq with runQueue := s.seq.runQueue.filter (fun h =>
      match waitingRun s h with
      | some (l, rs) => !(rs.all (fun r => (s.regionOf r).resident == some l))
      | none => true) } }

/-- REGION_HANDOVER (17 R407, R409); the save finds `f` at byte `at_` of the region's tiles. -/
def execRegionHandover (region at_ : Nat) (f : Finding) (s : State) : Host.Outcome State Fault Refusal :=
  done (match takerOf s region with
  | none => s
  | some h =>
    let x := s.regionOf region
    let out := match x.resident with
      | none => true
      | some o => stayed s region || noProgram s o
    let mine := match reservedBy s region with
      | none => true
      | some k => k == h || (s.seq.runQueue.contains k && !((s.seq.runQueue.takeWhile (fun q => q != h)).contains k))
    if handoverFree s region && out && mine && !s.quenched then
      let s1 := (s.regionUsers region).foldl (fun s e => requeueSection s e.1) s
      match waitingRun s1 h with
      | none => s1
      | some (l, _) => leaveOthers (joinQueue region (leaveQueue h (handOver region l (saveFinding region at_ f s1))))
    else s)

end Sys2Proof.Machine
end

