-- ==== Sys2Proof/Machine/Tallies.lean ====
section
/-! DEFINITION. Fabric tallies, tail counters and tally watches, signals that reach a tally, and fabric latches
(chapter 09). -/
namespace Sys2Proof.Machine

/-! ### Watches (09 R217, 11 Table 11.4 frame 2) -/

/-- Word `k` of watch `w` of memory tile `t`. -/
def watchW (s : State) (t w k : Nat) : Nat := s.frameW t 2 (4 * w + k)
def watchTally (s : State) (t w : Nat) : Nat := watchW s t w 0 % 64
def watchFirst (s : State) (t w : Nat) : Nat := natBits (watchW s t w 0) 16 16
def watchStep (s : State) (t w : Nat) : Nat := watchW s t w 1 % 65536
def watchCount (s : State) (t w : Nat) : Nat := natBits (watchW s t w 1) 16 16
def watchDst (s : State) (t w : Nat) : Nat := watchW s t w 2 % 8192
def watchInlet (s : State) (t w : Nat) : Nat := natBits (watchW s t w 2) 16 2

/-- The target of firing `k`. -/
def watchTarget (s : State) (t w k : Nat) : Half := BitVec.ofNat 16 (watchFirst s t w + k * watchStep s t w)

/-- The entry that a firing sends (09 Table 9.2), in its packet. -/
def watchPacket (s : State) (t w k : Nat) : Packet where
  vn := vnStream
  kind := 0
  dst := watchDst s t w
  src := epOf t
  port := watchInlet s t w
  lease := regLease s (tileRegion t)
  sec := (s.mtileOf t).sec
  pl := .entries [{ data := entryOf (leBytes (watchTarget s t w k).toNat 2 ++ leBytes k 2 ++ leBytes w 1) }]

/-- Fire watch `w` once for each of its next targets that is satisfied, in ascending order; `n` bounds the firings. -/
def fireWatch (t w : Nat) : Nat → State → State
  | 0, s => s
  | n + 1, s =>
    let m := s.mtileOf t
    let k := m.watch.get 0 w
    if k < watchCount s t w ∧ waitHolds (m.tally.get 0 (watchTally s t w)) (watchTarget s t w k) = true then
      fireWatch t w n ((s.setMTile t { m with watch := m.watch.set 0 w (k + 1) }).sendAll [watchPacket s t w k])
    else s

/-- Fire the watches on tally `j` of a memory tile whose section runs. -/
def fireWatches (t j : Nat) (s : State) : State :=
  if secRuns s (s.mtileOf t).sec then
    (upTo 16).foldl (fun s w => if watchTally s t w = j then fireWatch t w (watchCount s t w) s else s) s
  else s

/-! ### Values (09 R213, R214, R221) -/

/-- Give fabric tally `j` of memory tile `t` a value, and evaluate every wait and watch on it. -/
def setTally (t j : Nat) (v : Half) (s : State) : State :=
  (fireWatches t j (s.setMTile t { s.mtileOf t with tally := (s.mtileOf t).tally.set 0 j v })).markReady

/-- Add an amount modulo 65,536 (09 R213). -/
def addTally (t j amount : Nat) (s : State) : State :=
  setTally t j ((s.mtileOf t).tally.get 0 j + BitVec.ofNat 16 amount) s

/-- The tail target of a tally (11 Table 11.4 frame 1). -/
def tailTarget (s : State) (t j : Nat) : Nat := natBits (s.frameW t 1 (j / 2)) (16 * (j % 2)) 16

/-- Count tails: the tally rises by the whole targets reached, and the remainder stays (09 R221). -/
def addTails (t j n : Nat) (s : State) : State :=
  let m := s.mtileOf t
  let c := m.tail.get 0 j + n
  let g := tailTarget s t j
  if g = 0 then s.setMTile t { m with tail := m.tail.set 0 j c }
  else
    let s1 := s.setMTile t { m with tail := m.tail.set 0 j (c % g) }
    if c / g = 0 then s1 else addTally t j (c / g) s1

/-! ### Signals (09 R212, R213, R220) -/

/-- A signal reaches the tally that its packet names: a fabric tally of the lease that holds the tile's region, or a host
tally of the stamped lease (09 R212). -/
def applySignal (idx amount : Nat) (p : Packet) (s : State) : State :=
  if epIsMem p.dst then
    if idx < 64 ∧ regLease s (tileRegion (epTile p.dst)) = p.lease then addTally (epTile p.dst) idx amount s
    else packetFault s p
  else if epIsHub p.dst && decide (epY p.dst ≤ 1) then
    if idx < (s.leaseOf p.lease).tallies then s.addHTally p.lease idx amount else packetFault s p
  else packetFault s p

/-- The source that a memory tile's stream port is set for, whether it is a reduction port, and its contributors (11 Table
11.4 frame 8). -/
def portSrc (s : State) (t n : Nat) : Nat := s.frameW t 8 (4 * n) % 8192
def portRed (s : State) (t n : Nat) : Bool := natBit (s.frameW t 8 (4 * n)) 16
def portContrib (s : State) (t n : Nat) : Nat := s.frameW t 8 (4 * n + 1) % 65536

/-- The stream port takes packets from the source: its own, or at a reduction port any (06 R138). -/
def portTakes (s : State) (p : Packet) : Bool :=
  p.src == portSrc s (epTile p.dst) p.port || (portRed s (epTile p.dst) p.port && (p.kind == 1 || p.kind == 2))

/-- Every earlier write of the stream to host or peer memory has been sent (09 R220). -/
def writesSent (s : State) (p : Packet) : Bool :=
  !(s.hbm.reqs.any (fun q => q.isWindow && q.write && !q.served && q.sec == p.sec && q.src == p.src && decide (q.id < p.ref)))

/-- An in-band signal takes effect at its sink (09 R220). -/
def stallyTake (p : Packet) (s : State) : State :=
  match p.pl with
  | .signal idx amount =>
    if epIsMem p.dst && p.port != 16 && (decide (4 < p.port) || !portTakes s p) then packetFault s p
    else progressed (applySignal idx amount p s) p.sec
  | _ => packetFault s p

/-- STALLY_ARRIVAL (09 R220). -/
def execStallyArrival (pkt : Nat) (s : State) : Host.Outcome State Fault Refusal :=
  done (arrive pkt (fun p => p.vn == vnStream && p.kind == 2 && (!(epIsHub p.dst) || writesSent s p)) stallyTake s)

/-- A control signal takes effect (09 R213): port 16 of a memory tile, or hub unit 0. -/
def tallySigTake (p : Packet) (s : State) : State :=
  match p.pl with
  | .signal idx amount =>
    if epIsMem p.dst && p.port != 16 then packetFault s p else progressed (applySignal idx amount p s) p.sec
  | _ => packetFault s p

/-- TALLY_SIG_ARRIVAL (09 R213). -/
def execTallySigArrival (pkt : Nat) (s : State) : Host.Outcome State Fault Refusal :=
  done (arrive pkt (fun p => p.vn == vnCtl && p.kind == 1) tallySigTake s)

/-! ### Latches (09 R226, R227) -/

/-- The latch operation names a latch in use of a memory tile of the lease (09 R212, R226). -/
def latchNamed (s : State) (p : Packet) (j : Nat) : Bool :=
  epIsMem p.dst && p.port == 17 && decide (j < 16) && regLease s (tileRegion (epTile p.dst)) == p.lease &&
    latchLen s (epTile p.dst) j != 0

/-- An acquire waits for its turn, or is granted; a second one of the same requester is discarded. -/
def latchAcqTake (p : Packet) (s : State) : State :=
  match p.pl with
  | .latch j _ _ =>
    let t := epTile p.dst
    let m := s.mtileOf t
    let x := m.latch.get {} j
    if !latchNamed s p j || x.asked.contains (p.src, p.ref) || (x.held && x.holder == 64 * p.src + p.ref) then packetFault s p
    else progressed
      (grantLatch t j (s.setMTile t { m with latch := m.latch.set {} j { x with asked := x.asked ++ [(p.src, p.ref)] } })) p.sec
  | _ => packetFault s p

/-- LATCH_ACQ (09 R226). -/
def execLatchAcq (pkt : Nat) (s : State) : Host.Outcome State Fault Refusal :=
  done (arrive pkt (fun p => p.vn == vnCtl && p.kind == 4) latchAcqTake s)

/-- The holder's release advances the position and grants the next; any other release is discarded (09 R226, R227). -/
def latchRelTake (p : Packet) (s : State) : State :=
  match p.pl with
  | .latch j _ _ =>
    let t := epTile p.dst
    let m := s.mtileOf t
    let x := m.latch.get {} j
    if !latchNamed s p j || !(x.held && x.holder == 64 * p.src + p.ref) then packetFault s p
    else
      let y := { x with held := false, abandoned := false, pos := (x.pos + 1) % latchLen s t j }
      progressed (grantLatch t j (s.setMTile t { m with latch := m.latch.set {} j y })) p.sec
  | _ => packetFault s p

/-- LATCH_REL (09 R226). -/
def execLatchRel (pkt : Nat) (s : State) : Host.Outcome State Fault Refusal :=
  done (arrive pkt (fun p => p.vn == vnCtl && p.kind == 6) latchRelTake s)

end Sys2Proof.Machine
end

