-- ==== Sys2Proof/Machine/MemTile.lean ====
section
/-! DEFINITION. The memory tile: address walks, the billet scoreboard, the operations of Table 7.3 on packets that reach a
stream port or the operation unit, and the signals and latches of streams (chapter 07, 09 R219 to R227, 10 R252). -/
namespace Sys2Proof.Machine

/-! ### Walks (07 R161, R163) -/

/-- Accesses of a walk. -/
def walkLen (d : Nat) : Nat := (upTo 5).foldl (fun a k => a * (sdCount d k + 1)) 1
/-- Address of access `n`, dimension 0 varying fastest. -/
def walkAddr (d n : Nat) : Int :=
  ((upTo 5).foldl (fun (x : Nat × Int) k =>
    (x.1 / (sdCount d k + 1), x.2 + (x.1 % (sdCount d k + 1) : Nat) * sdStride d k)) (n, (sd d 4 0 21 : Int))).2
/-- Tile byte address of the first index. -/
def sdIdx (d : Nat) : Nat := sd d 8 22 21
/-- The walk is indexed: GATHER or SCATTER. -/
def sdIndexed (d : Nat) : Bool := sdOp d == 2 || sdOp d == 3
/-- Accesses that make an entry of 64 bytes. -/
def sdPer (d : Nat) : Nat := 64 / sdUnit d
/-- Entries up to and with access `n`, when the access ends one. -/
def entryEnds (d n : Nat) : Option Nat :=
  if (n + 1) % sdPer d = 0 ∨ n + 1 = walkLen d then some ((n + sdPer d) / sdPer d) else none
/-- The static walk leaves its billet after access `n`, or ends. -/
def runEnds (d n : Nat) : Bool :=
  n + 1 == walkLen d || (!sdIndexed d && walkAddr d (n + 1) / 4096 != walkAddr d n / 4096)
/-- Access `n` begins a run in its billet. -/
def runStarts (d n : Nat) : Bool := n == 0 || (!sdIndexed d && walkAddr d (n - 1) / 4096 != walkAddr d n / 4096)

/-- The address, where the access lies within the stream's declared billets. -/
def inBillets (d : Nat) (a : Int) : Option Nat :=
  if (4096 * sdBil d : Int) ≤ a ∧ a + sdUnit d ≤ (4096 * (sdBil d + sdBils d) : Int) then some a.toNat else none

/-! ### The scoreboard (07 R167 to R177) -/

/-- What a section has at a billet index of a memory tile. -/
inductive BilletHas where
  | here (b : Billet)
  /-- Another section declares the billet still. -/
  | busy
  | undeclared

/-- A billet at the start of its section (07 Table 7.6). -/
def freshBillet (sec : Nat) (d : BilDecl) : Billet where
  kind := d.kind
  count := d.count
  writer := d.writer
  st := if d.kind = 0 then .closed else .empty
  sec := sec
  zero := d.zero
/-- The billet-table entry of a section for a billet. -/
def billetDecl (s : State) (sec t i : Nat) : Option BilDecl :=
  match s.secOf sec with
  | none => none
  | some y => y.bils.find? (fun b => b.tile == t && b.index == i)
/-- Billet `i` of tile `t` for section `sec`; a prologue's appear as they are first used (10 R240). -/
def billetAt (s : State) (sec t i : Nat) : BilletHas :=
  match (s.mtileOf t).billets.get none i with
  | some b => if b.sec = sec then .here b else .busy
  | none => match billetDecl s sec t i with
    | some d => .here (freshBillet sec d)
    | none => .undeclared
/-- Set billet `i` of tile `t`. -/
def setBillet (t i : Nat) (b : Billet) (s : State) : State :=
  s.setMTile t { s.mtileOf t with billets := (s.mtileOf t).billets.set none i (some b) }

/-- A read is served: CLOSED, and for RING at the epoch that equals the stream's pass count (07 R169). -/
def readable (b : Billet) (passes : Nat) : Bool :=
  b.st == .closed && (b.kind != 2 || b.epoch == passes % 256)

/-- What the scoreboard says to a write: accept it, let it wait, or a case of 07 R171. -/
inductive Gate where
  | accept
  | wait
  | conflict (case_ : Nat)
deriving DecidableEq, Repr

/-- Kinds of write: data, an atomic operation, a close alone. -/
inductive WriteKind where
  | data
  | atomic
  | close
deriving DecidableEq, Repr

/-- The gate of a billet for a write from a source: the fetch engine is 0xFFFF (07 Tables 7.6, 7.7, R171, R175). -/
def writeGate (b : Billet) (src : Nat) (k : WriteKind) : Gate :=
  if b.st = .shadow then .wait
  else if b.kind = 0 then .conflict (if k = .close then 1 else 2)
  else if b.kind = 3 then
    match k with
    | .data => .conflict 3
    | .close => .conflict 1
    | .atomic => if b.st = .closed then .conflict 4 else .accept
  else if src ≠ b.writer then .conflict 1
  else if b.st = .closed then (if b.kind = 2 then .wait else if k = .close then .accept else .conflict 2)
  else .accept

/-- A billet that takes its first write is OPEN. -/
def openBillet (b : Billet) : Billet := if b.st = .empty then { b with st := .opened } else b
/-- `n` closes: ACCUM counts them; any other billet is CLOSED, or SHADOW before its section runs (07 R170, R175, R177). -/
def closeBillet (running : Bool) (n : Nat) (b : Billet) : Billet :=
  if b.kind = 3 then { b with got := b.got + n, st := if b.count ≤ b.got + n then .closed else b.st }
  else { b with st := if b.st = .closed then .closed else if running then .closed else .shadow }
/-- One release of a RING billet: at the declared count the next epoch begins and the billet is EMPTY (07 R172). -/
def releaseBillet (b : Billet) : Billet :=
  if b.kind ≠ 2 then b
  else if b.count ≤ b.got + 1 then { b with got := 0, epoch := (b.epoch + 1) % 256, st := .empty }
  else { b with got := b.got + 1 }

/-- WRITER_CONFLICT: the record names the case, the source and the billet, and the section ends (07 R171). -/
def writerConflict (sec t i case_ src : Nat) (s : State) : State :=
  match s.secOf sec with
  | none => s
  | some y =>
    verdictOn (s.eventLease { type := 0x0C, status := 0x0F, unit := src, tag := y.tag % 65536, addr := billetName t (4096 * i),
                              body := leBytes case_ 1 } y.lease) sec .writerConflict

/-! ### Where an access goes -/

/-- Where access `n` of a stream goes: it waits for its index, meets an undeclared index billet, or has an address. -/
inductive AccessAt where
  | wait
  | undeclared (i : Nat)
  | at_ (a : Option Nat)

/-- The address of access `n`; an indexed one adds the index, in units, to the walk's address (07 R163). -/
def accessAt (s : State) (x : Stream) (n : Nat) : AccessAt :=
  let d := x.desc.toNat
  if sdIndexed d then
    let ia := sdIdx d + 4 * n
    match billetAt s x.sec x.tile (ia / 4096) with
    | .undeclared => .undeclared (ia / 4096)
    | .busy => .wait
    | .here b =>
      if readable b (x.passes.get 0 (ia / 4096)) then
        .at_ (inBillets d (walkAddr d n + (leNat (s.sramRead x.tile ia 4) * sdUnit d : Nat)))
      else .wait
  else .at_ (inBillets d (walkAddr d n))

/-- Change stream `i`. -/
def State.updStream (s : State) (i : Nat) (f : Stream → Stream) : State :=
  match s.streamOf i with
  | some x => s.setStream i (some (f x))
  | none => s

/-- The lease of a section. -/
def secLease (s : State) (i : Nat) : Nat :=
  match s.secOf i with
  | some y => y.lease
  | none => 0xFFFF

/-- A TILE_FAULT of a stream, held while its section runs ahead of a branch (10 R245, R247). -/
def streamFault (x : Stream) (vals : List Nat) (s : State) : State :=
  let l := secLease s x.sec
  match s.secOf x.sec with
  | some y =>
    if y.phase = .ahead then
      s.setSec x.sec (some { y with heldEvs := y.heldEvs ++ [tileFaultEv s x.sec l (epOf x.tile) vals] })
    else s.tileFault x.sec l (epOf x.tile) vals
  | none => s.tileFault x.sec l (epOf x.tile) vals

/-- The first access of a stream outside its billets is reported (07 R163). -/
def reportIndex (sid n : Nat) (s : State) : State :=
  match s.streamOf sid with
  | none => s
  | some x =>
    if x.faulted then s
    else streamFault x [x.index, n] (s.setStream sid (some { x with faulted := true }))

/-! ### Signals and latches of streams (09 R219 to R227) -/

/-- The stream's own memory tile takes a signal of its attachment; CONTROL sends it to sig_dst (09 R220, R221). -/
def ownSignal (x : Stream) (s : State) : State :=
  let g := descSig x.desc
  let l := secLease s x.sec
  if g.mode = 3 then
    s.sendAll [{ vn := vnCtl, kind := 1, dst := g.dst, src := epOf x.tile, port := if epIsMem g.dst then 16 else 0,
                 lease := l, sec := x.sec, pl := .signal g.tally g.amount }]
  else if 64 ≤ g.tally then s.tileFault x.sec l (epOf x.tile) [g.tally]
  else if g.mode = 1 then addTally x.tile g.tally g.amount s
  else addTails x.tile g.tally 1 s

/-- A signal due at the stream's own tile, kept until the section runs (10 R245). -/
def signalOwn (sid : Nat) (s : State) : State :=
  match s.streamOf sid with
  | none => s
  | some x => if secRuns s x.sec then ownSignal x s else s.setStream sid (some { x with owed := x.owed + 1 })

/-- The stream's use of a latch (12 Table 12.6, word 10). -/
def descLatch (d : SDesc) : Bool := descW d 10 32 1 == 1
/-- A latch packet of a stream: its requester port is its engine's number. -/
def latchPacket (s : State) (x : Stream) (kind : Nat) : Packet where
  vn := vnCtl
  kind := kind
  dst := descW x.desc 10 48 13
  src := epOf x.tile
  port := 17
  lease := secLease s x.sec
  sec := x.sec
  ref := descEngine x.desc
  pl := .latch (descW x.desc 10 33 4) 0 false
/-- The last access is done: the latch is released. -/
def dropLatch (sid : Nat) (s : State) : State :=
  match s.streamOf sid with
  | none => s
  | some x =>
    if x.latchHeld then (s.setStream sid (some { x with latchHeld := false })).sendAll [latchPacket s x 6] else s

/-! ### What follows an access that wrote (07 R170, R175, 09 R219) -/

/-- Close a billet that a walk leaves: PLAIN or RING, and OPEN. -/
def closeLeft (sec t i : Nat) (s : State) : State :=
  match billetAt s sec t i with
  | .here b => if (b.kind = 1 ∨ b.kind = 2) ∧ b.st = .opened then setBillet t i (closeBillet (secRuns s sec) 1 b) s else s
  | _ => s

/-- At the end of a writing walk: one close for each ACCUM billet that it wrote, and of an indexed walk every other billet
that it wrote. -/
def closeEnd (sid : Nat) (s : State) : State :=
  match s.streamOf sid with
  | none => s
  | some x =>
    let run := secRuns s x.sec
    x.passes.foldl (fun s e =>
      match billetAt s x.sec x.tile e.1 with
      | .here b =>
        if b.kind = 3 then setBillet x.tile e.1 (closeBillet run 1 b) s
        else if sdIndexed x.desc.toNat then closeLeft x.sec x.tile e.1 s else s
      | _ => s) s

/-- Access `n` of stream `sid` has been written. -/
def wroteAccess (sid n : Nat) (s : State) : State :=
  match s.streamOf sid with
  | none => s
  | some x =>
    let d := x.desc.toNat
    let last := n + 1 == walkLen d
    let s1 := s.setStream sid (some { x with landed := x.landed + 1 })
    let s2 := if runEnds d n && !sdIndexed d then closeLeft x.sec x.tile (walkAddr d n / 4096).toNat s1 else s1
    let s3 := if last then closeEnd sid s2 else s2
    let s4 := match entryEnds d n with
      | some k => if sigDueEnd (descSig x.desc) k last then signalOwn sid s3 else s3
      | none => s3
    progressed (if last then dropLatch sid s4 else s4) x.sec

/-! ### Atomic operations (07 R165, R179) -/

/-- INT32 or FP32 maximum or minimum; a NaN gives the canonical NaN, and +0 is above −0. -/
def maxMin (isMax fp : Bool) (a b : Nat) : Nat :=
  if fp then (encodeStrict fltFP32 .rne (minMax isMax (decodeFlt fltFP32 a) (decodeFlt fltFP32 b))).1
  else if isMax then (if toSigned 32 a < toSigned 32 b then b else a)
  else (if toSigned 32 b < toSigned 32 a then b else a)
/-- An element operation: IADD, MAX, MIN. -/
def atomOp (op : Nat) (fp : Bool) (a b : Nat) : Nat :=
  if op = 5 then (a + b) % 2 ^ 32 else maxMin (op == 6) fp a b

/-- Poisoned lines of a range. -/
def poisonedLines (s : State) (t a n : Nat) : List Nat :=
  (upTo ((a + n - 1) / 64 - a / 64 + 1)).filter (fun k => s.sramPoisoned t (a / 64 * 64 + 64 * k) 64)
/-- Write, but leave poisoned lines poisoned. -/
def writeKeeping (t a : Nat) (bs : List Byte) (poison : Bool) (s : State) : State :=
  (poisonedLines s t a bs.length).foldl (fun s1 k => s1.sramMark t (a / 64 * 64 + 64 * k) 64 true) (s.sramWrite t a bs poison)

/-- The elements of a range, each combined with its operand; `fp` says which elements are compared as FP32. -/
def atomicAt (t a op : Nat) (fp : Nat → Bool) (bs : List Byte) (poison : Bool) (s : State) : State :=
  let n := bs.length / 4
  writeKeeping t a ((upTo n).flatMap (fun k =>
    leBytes (atomOp op (fp (a + 4 * k)) (leNat (s.sramRead t (a + 4 * k) 4)) (fieldAt bs (4 * k) 4)) 4)) poison s
/-- SADD into the sterling word at `a`; a poisoned line sets the word's poison flag. -/
def saddAt (t a : Nat) (v : Sterling) (s : State) : State :=
  let w := Sterling.ofNat (leNat (s.sramRead t a 80))
  let w1 := { w with poison := w.poison || s.sramPoisoned t a 80 }
  writeKeeping t a (leBytes (w1.add v).toNat 80) false s

/-! ### Entries that reach a stream port (07 R164 to R175) -/

/-- The kind of write of an operation. -/
def opKind (op : Nat) : WriteKind := if op = 8 then .close else if 4 ≤ op then .atomic else .data
/-- MAX and MIN compare FP32 when the descriptor's out_fmt says FP32. -/
def sdFp (d : Nat) : Bool := sdFmt d == 8

/-- The write stream that runs on a stream port. -/
def portStream (s : State) (t n : Nat) : Option (Nat × Stream) :=
  s.strms.find? (fun e => e.2.tile == t && e.2.sec == (s.mtileOf t).sec && descEngine e.2.desc == n && e.2.phase == .running &&
    descWrite e.2.desc && descExt e.2.desc == 0 && (!descLatch e.2.desc || e.2.latchHeld) && secRuns s e.2.sec)

/-- Apply one access of an accepted entry: write, combine or close. -/
def portWrite (sid : Nat) (x : Stream) (a : Nat) (b : Billet) (e : QEntry) (s : State) : State :=
  let d := x.desc.toNat
  let u := sdUnit d
  let t := x.tile
  let bs := slice (entryBytes e.data) (x.sub * u) u
  let fl : List (BitVec 5) := if e.fl = 0 then [] else (upTo u).map (fun i => flAt e.fl (x.sub * u + i))
  let s1 := match opKind (sdOp d) with
    | .data => (s.sramWrite t a bs e.poison).sramFlWrite t a u fl
    | .atomic => (atomicAt t a (sdOp d) (fun _ => sdFp d) bs e.poison s).sramFlWrite t a u (flOr u (s.sramFl t a u) fl)
    | .close => s
  let b1 := if opKind (sdOp d) = .close then closeBillet true 1 b else openBillet b
  (setBillet t (a / 4096) b1 s1).updStream sid (fun y => { y with passes := y.passes.set 0 (a / 4096) 1 })

/-- Go past access `n` of a write stream, which ends with its last. -/
def passAccess (sid : Nat) (x : Stream) (s : State) : State :=
  let last := x.pos + 1 == walkLen x.desc.toNat
  let s1 := wroteAccess sid x.pos s
  let s2 := s1.updStream sid (fun y => { y with pos := x.pos + 1, sub := x.sub + 1, phase := if last then .done else y.phase })
  if last then s2.markReady else s2

/-- Perform up to `n` accesses of the entry at a write stream's port; true when one must wait. -/
def portAccesses (sid src : Nat) (e : QEntry) : Nat → State → State × Bool
  | 0, s => (s, false)
  | n + 1, s =>
    match s.streamOf sid with
    | none => (s, false)
    | some x =>
      if x.phase ≠ .running then (s, false)
      else match accessAt s x x.pos with
        | .wait => (s, true)
        | .undeclared i => (writerConflict x.sec x.tile i 5 src s, false)
        | .at_ none => portAccesses sid src e n (passAccess sid x (reportIndex sid x.pos s))
        | .at_ (some a) =>
          match billetAt s x.sec x.tile (a / 4096) with
          | .busy => (s, true)
          | .undeclared => (writerConflict x.sec x.tile (a / 4096) 5 src s, false)
          | .here b =>
            match writeGate b src (opKind (sdOp x.desc.toNat)) with
            | .wait => (s, true)
            | .conflict c => (writerConflict x.sec x.tile (a / 4096) c src s, false)
            | .accept => portAccesses sid src e n (passAccess sid x (portWrite sid x a b e s))

/-- What follows the data of a packet: its close, and its tail (07 R170, 09 R221).  The close of the packet that ends its
stream's walk is the one that the walk's end has counted for an ACCUM billet (R175). -/
def packetEnd (p : Packet) (ended : Bool) (lastAt : Option (Nat × Nat)) (s : State) : State :=
  let t := epTile p.dst
  let s1 := match lastAt with
    | some (sec, i) =>
      if p.close then
        match billetAt s sec t i with
        | .here b => if ended && b.kind == 3 then s else setBillet t i (closeBillet true 1 b) s
        | _ => s
      else s
    | none => s
  if p.sig then addTails t p.sigTally 1 s1 else s1

/-- The addresses that the accesses of the entry which holds access `n` write. -/
def entryAddrs (s : State) (x : Stream) (n : Nat) : List Nat :=
  let d := x.desc.toNat
  let first := n / sdPer d * sdPer d
  (upTo (min (sdPer d) (walkLen d - first))).filterMap (fun k => match accessAt s x (first + k) with
    | .at_ (some a) => some a
    | _ => none)
/-- An entry whose accesses together write all 64 bytes of a poisoned line clears its mark (07 R180). -/
def clearWritten (x : Stream) (e : QEntry) (s : State) : State :=
  let d := x.desc.toNat
  let as_ := entryAddrs s x x.pos
  if e.poison || opKind (sdOp d) != .data then s
  else (dedup (as_.map (fun a => a / 64))).foldl (fun s k =>
    if (upTo 64).all (fun i => as_.any (fun a => decide (a ≤ 64 * k + i) && decide (64 * k + i < a + sdUnit d))) then
      s.sramClearWhole x.tile (64 * k) 64
    else s) s

/-- The port takes the entry at the head of a DATA packet, as far as it can. -/
def portTake (p : Packet) (s : State) : State × Option Packet :=
  let t := epTile p.dst
  match portStream s t p.port, p.pl with
  | some (sid, x), .entries (e :: es) =>
    if p.kind ≠ 0 ∨ sdOp x.desc.toNat = 4 then (packetFault s p, none)
    else
      let r := portAccesses sid p.src e (sdPer x.desc.toNat - x.sub) s
      let live := (r.1.streamOf sid).isSome
      if r.2 then (r.1, some p)
      else if !live then (r.1, none)
      else
        let s1 := ackOwners ((clearWritten x e r.1).updStream sid (fun y => { y with sub := 0 })) [e.own]
        let last := min (x.pos + (sdPer x.desc.toNat - x.sub)) (walkLen x.desc.toNat) - 1
        let lastAt := match accessAt s x last with
          | .at_ (some a) => some (x.sec, a / 4096)
          | _ => none
        let ended := last + 1 == walkLen x.desc.toNat
        if es.isEmpty then (packetEnd p ended lastAt s1, none) else (s1, some { p with pl := .entries es })
  | some _, _ => (packetFault s p, none)
  | none, _ => (s, some p)

/-! ### REDUCE packets at a stream port (08 R206, 07 R165) -/

/-- The gates of the billets of a sterling word. -/
def wordGate (s : State) (sec t a src : Nat) : Gate × Nat :=
  (upTo ((a + 79) / 4096 - a / 4096 + 1)).foldl (fun g k =>
    let i := a / 4096 + k
    match g.1 with
    | .accept => match billetAt s sec t i with
      | .busy => (.wait, i)
      | .undeclared => (.conflict 5, i)
      | .here b => (writeGate b src .atomic, i)
    | _ => g) (.accept, a / 4096)

/-- The element numbers, word addresses and values of a packet that lie on the walk. -/
def reduceWords (x : Stream) (r : Reduce) : List (Nat × Sterling) :=
  (r.vals.zipIdx).filterMap (fun e =>
    let n := 32 * r.redId + 2 * r.pair + e.2
    if n < walkLen x.desc.toNat then
      match inBillets x.desc.toNat (walkAddr x.desc.toNat n) with
      | some a => if a % 16 = 0 then some (a, e.1) else none
      | none => none
    else none)

/-- Open the billets of a word. -/
def openWord (sec t a : Nat) (s : State) : State :=
  (upTo ((a + 79) / 4096 - a / 4096 + 1)).foldl (fun s k =>
    match billetAt s sec t (a / 4096 + k) with
    | .here b => setBillet t (a / 4096 + k) (openBillet b) s
    | _ => s) s

/-- Count a packet for its pair; the stream goes on by the pair's elements when it is complete, and ends with the last. -/
def countPair (sid t port : Nat) (r : Reduce) (s : State) : State :=
  match s.streamOf sid with
  | none => s
  | some x =>
    let m := s.mtileOf t
    let key := (port * 4096 + r.redId) * 16 + r.pair
    let need := if portRed s t port then portContrib s t port else 1
    let got := m.redGot.get 0 key
    let len := walkLen x.desc.toNat
    let base := 32 * r.redId + 2 * r.pair
    let s1 := s.setMTile t { m with redGot := m.redGot.set 0 key (got + r.contrib) }
    if base < len ∧ got < need ∧ need ≤ got + r.contrib then
      let landed := x.landed + min 2 (len - base)
      let last := landed == len
      let s2 := s1.setStream sid (some { x with landed := landed, sent := x.sent + 1, phase := if last then .done else x.phase })
      let s3 := if sigDueEnd (descSig x.desc) (x.sent + 1) last then signalOwn sid s2 else s2
      if last then
        let s4 := dropLatch sid s3
        let m4 := s4.mtileOf t
        (s4.setMTile t { m4 with redGot := m4.redGot.filter (fun e => e.1 / 65536 != port) }).markReady
      else s3
    else s1

/-- The port applies a REDUCE packet by SADD once every word that it touches takes it. -/
def reduceTake (p : Packet) (s : State) : State × Option Packet :=
  let t := epTile p.dst
  match portStream s t p.port, p.pl with
  | some (sid, x), .reduce r =>
    if sdOp x.desc.toNat ≠ 4 ∨ p.kind ≠ 1 then (packetFault s p, none)
    else
      let ws := reduceWords x r
      let gates := ws.map (fun w => wordGate s x.sec t w.1 p.src)
      match gates.find? (fun g => g.1 != .accept) with
      | some (.conflict c, i) => (writerConflict x.sec t i c p.src s, none)
      | some _ => (s, some p)
      | none =>
        let s0 := if ws.length = r.vals.length then s else packetFault s p
        let s1 := ws.foldl (fun s w => saddAt t w.1 w.2 (openWord x.sec t w.1 s)) s0
        let bils := dedup (ws.flatMap (fun w => (upTo ((w.1 + 79) / 4096 - w.1 / 4096 + 1)).map (fun k => w.1 / 4096 + k)))
        let s2 := bils.foldl (fun s i => match billetAt s x.sec t i with
          | .here b => setBillet t i (closeBillet true r.closes b) s
          | _ => s) s1
        let s3 := if p.sig then addTails t p.sigTally r.tails s2 else s2
        (progressed (countPair sid t p.port r s3) x.sec, none)
  | some _, _ => (packetFault s p, none)
  | none, _ => (s, some p)

/-- What the next access of an indexed stream finds in the line of its index (18 R425, R426). -/
def indexFinding (sid : Nat) (fi : Finding) (s : State) : State :=
  match fi, s.streamOf sid with
  | .clean, _ => s
  | _, none => s
  | fi, some x =>
    let ia := sdIdx x.desc.toNat + 4 * x.pos
    if !(sdIndexed x.desc.toNat) || x.phase != .running then s
    else match billetAt s x.sec x.tile (ia / 4096) with
      | .here b => if readable b (x.passes.get 0 (ia / 4096)) then sramFinding x.tile ia 1 (secTag s x.sec) fi s else s
      | _ => s

/-! ### The operation unit (07 R164, R165, R170) -/

/-- Bytes of the tile that a request touches. -/
def mtSpan (op : Nat) (data : List Byte) : Nat := if op = 4 then 80 else if op = 8 then 1 else data.length

/-- The request is well formed: an operation that writes, aligned, inside the tile. -/
def mtOk (op addr : Nat) (data : List Byte) : Bool :=
  let n := mtSpan op data
  decide (addr + n ≤ 2097152) &&
    (op == 1 || op == 8 || (op == 4 && addr % 16 == 0) ||
      (decide (5 ≤ op) && decide (op ≤ 7) && addr % 4 == 0 && n % 4 == 0 && n != 0 && decide (n ≤ 64)))

/-- The operation unit performs a request once every billet that it touches takes it.  One that a section's ending leaves in
flight is still written, without its close or its tail (13 R332); where its billet does not take it, it is discarded (log 150). -/
def unitTake (p : Packet) (s : State) : State × Option Packet :=
  let t := epTile p.dst
  let sec := (s.mtileOf t).sec
  match p.pl with
  | .mt addr data poison fl =>
    if !mtOk p.op addr data then (packetFault s p, none)
    else
      let n := mtSpan p.op data
      let k := opKind p.op
      let bils := (upTo ((addr + max n 1 - 1) / 4096 - addr / 4096 + 1)).map (fun i => addr / 4096 + i)
      let gate (i : Nat) : Gate := match billetAt s sec t i with
        | .busy => .wait
        | .undeclared => .conflict 5
        | .here b => writeGate b p.src k
      match bils.find? (fun i => gate i != .accept) with
      | some i => match gate i with
        | .conflict c => (writerConflict sec t i c p.src s, none)
        | _ => if secRuns s sec then (s, some p) else (s, none)
      | none =>
        let s1 := if k = .close then s else bils.foldl (fun s i => match billetAt s sec t i with
          | .here b => setBillet t i (openBillet b) s
          | _ => s) s
        let s2 := match p.op with
          | 1 => (s1.sramWrite t addr data poison).sramFlWrite t addr n fl
          | 4 => saddAt t addr (let v := (Compact.ofBytes data).decode; { v with poison := v.poison || poison }) s1
          | 8 => s1
          | op => (atomicAt t addr op (fun a => Config.mtFp (2097152 * t + a)) data poison s1).sramFlWrite t addr n (flOr n (s1.sramFl t addr n) fl)
        let s3 := if secRuns s sec = true ∧ (k = .close ∨ p.close = true) then bils.foldl (fun s i => match billetAt s sec t i with
          | .here b => setBillet t i (closeBillet true 1 b) s
          | _ => s) s2 else s2
        (progressed (if p.sig && secRuns s sec then addTails t p.sigTally 1 s3 else s3) sec, none)
  | _ => (packetFault s p, none)

/-! ### The rows -/

/-- A packet of the stream network for a stream port, or a request for the operation unit. -/
def forPort (p : Packet) : Bool := p.vn == vnStream && epIsMem p.dst && decide (p.port ≤ 4) && (p.kind == 0 || p.kind == 1)
/-- The packet goes to a memory tile of an emulation region, which takes problems (14 R359). -/
def toEmulation (s : State) (p : Packet) : Bool := epIsMem p.dst && ((s.regionOf (tileRegion (epTile p.dst))).emulation).isSome
def forUnit (p : Packet) : Bool := p.vn == vnReq && p.kind == 2 && epIsMem p.dst && p.port == 5

/-- A DATA packet without entries: it carries only a signal. -/
def emptyData (p : Packet) : Bool := p.kind == 0 && p.pl == .entries []

/-- A packet that no operation takes: a signal or partial sum from a source that the port is not set for, a port that takes no
such packet, a request that reads, or a reserved op (06 R138, 07 R164).  Data from another source than the billet's writer ends
the section at the billet (R171). -/
def mtRefused (s : State) (p : Packet) : Bool :=
  !(toEmulation s p) &&
  ((forPort p && ((!portTakes s p && (p.kind != 0 || emptyData p)) || decide (8 < p.op))) ||
  (p.vn == vnStream && epIsMem p.dst && decide (4 < p.port) && (p.kind == 0 || p.kind == 1)) ||
  (p.vn == vnReq && p.kind == 2 && (!(epIsMem p.dst) || p.port != 5 || p.op == 0 || p.op == 2 || p.op == 3 || decide (8 < p.op))))

/-- The operation that a packet asks of a memory tile: its own at the operation unit, else that of the stream that runs on
the port; a READ stream that takes entries writes them. -/
def mtOp (s : State) (p : Packet) : Option Nat :=
  if toEmulation s p then none
  else if forUnit p then some p.op
  else if !forPort p then none
  else if emptyData p then some 1
  else (portStream s (epTile p.dst) p.port).map (fun e => let op := sdOp e.2.desc.toNat; if op = 0 ∨ op = 2 then 1 else op)

/-- Billets that accesses `n` to `n + k - 1` of a stream may write. -/
def walkBillets (d n k : Nat) : List Nat :=
  if sdIndexed d then (upTo (sdBils d)).map (fun i => sdBil d + i)
  else dedup ((upTo (min k (walkLen d - n))).map (fun i => (walkAddr d (n + i) / 4096).toNat))
/-- The billets of its memory tile that a packet will write: by the write stream of its port, the one that runs or the next. -/
def packetBillets (s : State) (p : Packet) : List Nat :=
  let t := epTile p.dst
  match p.pl with
  | .mt addr data _ _ => (upTo ((addr + max (mtSpan p.op data) 1 - 1) / 4096 - addr / 4096 + 1)).map (fun i => addr / 4096 + i)
  | .entries es =>
    match s.strms.find? (fun e => e.2.tile == t && e.2.sec == p.sec && descEngine e.2.desc == p.port && e.2.phase != .done &&
        descWrite e.2.desc && descExt e.2.desc == 0) with
    | some e => walkBillets e.2.desc.toNat e.2.pos (sdPer e.2.desc.toNat * es.length - e.2.sub)
    | none => []
  | .reduce r =>
    match portStream s t p.port with
    | some e => (reduceWords e.2 r).flatMap (fun w => [w.1 / 4096, (w.1 + 79) / 4096])
    | none => []
  | _ => []
/-- An earlier write of the same source, by another port, to a billet that packet `i` writes is not applied yet (07 R160). -/
def writeBehind (s : State) (i : Nat) (p : Packet) : Bool :=
  (forPort p || forUnit p) && (s.fab.net.take i).any (fun q =>
    (forPort q || forUnit q) && epTile q.dst == epTile p.dst && q.port != p.port &&
      q.sources.any (fun a => p.sources.contains a) &&
      (packetBillets s q).any (fun b => (packetBillets s p).contains b))

/-- A packet reaches a memory tile for operation `op`. -/
def mtArrive (op pkt : Nat) (s : State) : State :=
  arriveKeep pkt (fun p => (mtOp s p == some op && !(writeBehind s pkt p)) || (op == 1 && mtRefused s p)) (fun p s =>
    if mtRefused s p then (packetFault s p, none)
    else if forUnit p then unitTake p s
    else if emptyData p then (progressed (packetEnd p false none s) p.sec, none)
    else if op = 4 then reduceTake p s
    else portTake p s) s

/-- What operation `op` finds in the line of byte `at_` of the tile, which it reads before it writes it (18 R425, R426). -/
def atomicFinding (op pkt at_ : Nat) (f : Finding) (s : State) : State :=
  match f, s.fab.net[pkt]? with
  | .clean, _ => s
  | _, none => s
  | f, some p =>
    if mtOp s p == some op && !(writeBehind s pkt p) && (packetBillets s p).contains (at_ / 4096) then
      sramFinding (epTile p.dst) at_ 1 (secTag s p.sec) f s
    else s

/-- MT_WRITE (07 R170). -/
def execMtWrite (pkt : Nat) (s : State) : Host.Outcome State Fault Refusal := done (mtArrive 1 pkt s)
/-- MT_SCATTER (07 R163, 02 R51): the entries of one stream are taken in order, so the last element wins. -/
def execMtScatter (sid pkt : Nat) (fi : Finding) (s : State) : Host.Outcome State Fault Refusal :=
  done (match s.fab.net[pkt]? with
  | none => s
  | some p => if (portStream s (epTile p.dst) p.port).map Prod.fst = some sid then mtArrive 3 pkt (indexFinding sid fi s) else s)
/-- MT_SADD (07 R165). -/
def execMtSadd (pkt at_ : Nat) (f : Finding) (s : State) : Host.Outcome State Fault Refusal :=
  done (mtArrive 4 pkt (atomicFinding 4 pkt at_ f s))
/-- MT_IADD (07 R165). -/
def execMtIadd (pkt at_ : Nat) (f : Finding) (s : State) : Host.Outcome State Fault Refusal :=
  done (mtArrive 5 pkt (atomicFinding 5 pkt at_ f s))
/-- MT_MAX (07 R165). -/
def execMtMax (pkt at_ : Nat) (f : Finding) (s : State) : Host.Outcome State Fault Refusal :=
  done (mtArrive 6 pkt (atomicFinding 6 pkt at_ f s))
/-- MT_MIN (07 R165). -/
def execMtMin (pkt at_ : Nat) (f : Finding) (s : State) : Host.Outcome State Fault Refusal :=
  done (mtArrive 7 pkt (atomicFinding 7 pkt at_ f s))
/-- MT_CLOSE (07 R170). -/
def execMtClose (pkt : Nat) (s : State) : Host.Outcome State Fault Refusal := done (mtArrive 8 pkt s)

end Sys2Proof.Machine
end

