-- ==== Sys2Proof/Machine/ModuleCtl.lean ====
section
/-! DEFINITION. The module controller: sensor inputs, outputs, SMBus, PLDM and JTAG (chapter 22, 19 R467). -/
namespace Sys2Proof.Machine

/-- Change the module controller's state. -/
def State.setMod (s : State) (m : Module) : State := { s with mod := m }
/-- A fault is reported: a PLDM event is pending (22 R538). -/
def reportFault (s : State) : State := s.setMod { s.mod with alert := true }

/-! ### Supplies (22 R527 to R530) -/

/-- J1_VALID (22 R527). -/
def execJ1Valid (s : State) : Host.Outcome State Fault Refusal :=
  done (if s.mod.standby then s.setMod { s.mod with j1 := 1 } else s)

/-- J1_REVERSED (22 R530): blocked and reported; main power may not be enabled while it persists. -/
def execJ1Reversed (s : State) : Host.Outcome State Fault Refusal :=
  done (if s.mod.standby then reportFault (s.setMod { s.mod with j1 := 2 }) else s)

/-- SUPPLY_FAULT (22 R528): Quench trigger 2 while main power is enabled. -/
def execSupplyFault (s : State) : Host.Outcome State Fault Refusal :=
  done (if s.mod.mainOn then raiseTrigger 2 s else s)

/-! ### Leak, flow and coolant (22 R531 to R533) -/

/-- Put a number into a rising list. -/
def insertNat (x : Nat) : List Nat → List Nat
  | [] => [x]
  | y :: r => if x ≤ y then x :: y :: r else y :: insertNat x r
/-- The median of some readings. -/
def medianOf (l : List Nat) : Nat :=
  let m := l.foldl (fun a x => insertNat x a) []
  m.getD (m.length / 2) 0

/-- Class of a LEAK_IN voltage in mV: 0 dry, 1 wet, 2 short, 3 open (22 Table 22.6). -/
def leakClassOf (mv : Nat) : Nat := if mv < 300 then 2 else if mv < 1200 then 1 else if mv ≤ 2100 then 0 else 3

/-- LEAK_SAMPLE (22 R531): the median of the last five readings; every class but dry is trigger 3. -/
def execLeakSample (mv : Nat) (s : State) : Host.Outcome State Fault Refusal :=
  done (if !s.mod.standby then s
  else
    let l := (mv :: s.mod.leak).take 5
    let c := leakClassOf (medianOf l)
    let s1 := s.setMod { s.mod with leak := l, leakClass := c }
    if c = 0 then clearTrigger 3 s1 else raiseTrigger 3 (if 2 ≤ c then reportFault s1 else s1))

/-- FLOW_SAMPLE (22 R532): the average of 100 ms against the minimum and the sensor window; below the minimum for 2 s it is
trigger 4 (20 Table 20.5). -/
def execFlowSample (mv : Nat) (s : State) : Host.Outcome State Fault Refusal :=
  done (if !s.mod.standby then s
  else
    let fault := decide (mv < 250) || decide (4750 < mv)
    let low := decide (mv < 1700) || fault
    let since := if low then some (s.mod.lowSince.getD s.sclk) else none
    let m := { s.mod with flowMv := mv, flowFault := fault, lowSince := since }
    let s1 := { s with mod := m, power := { s.power with lowFlow := low } }
    let s2 := if fault then reportFault s1 else s1
    match since with
    | none => clearTrigger 4 s2
    | some t => if 2 * second ≤ s.sclk - t then raiseTrigger 4 s2 else s2)

/-- A thermistor reading, in 0.1 °C, lies outside its range (22 R533). -/
def thermFault (t : Int) : Bool := decide (t < -200) || decide (1100 < t)

/-- THERMISTOR_SAMPLE (22 R533): a fault is reported and causes nothing else; an outlet above 65 °C warns once for each
excursion. -/
def execThermistorSample (inlet outlet : Int) (s : State) : Host.Outcome State Fault Refusal :=
  done (if !s.mod.standby then s
  else
    let fi := thermFault inlet
    let fo := thermFault outlet
    let warn := !fo && decide (650 < outlet) && !s.mod.warned
    let m := { s.mod with inlet := inlet, outlet := outlet, inletFault := fi, outletFault := fo,
                          warned := if fo then s.mod.warned else if outlet < 600 then false else s.mod.warned || warn }
    let s1 := s.setMod m
    let s2 := if fi || fo then reportFault s1 else s1
    if warn then
      s2.eventStewardLog { type := 0x0D, body := leBytes (ofSigned 16 outlet) 2 ++ leBytes (ofSigned 16 inlet) 2 }
    else s2)

/-! ### Outputs and buses (22 R534, R535, R538) -/

/-- Record or clear an output fault. -/
def setOutFault (pin : Nat) (bad : Bool) (s : State) : State :=
  let s1 := s.setMod { s.mod with outFaults := s.mod.outFaults.set false pin bad }
  if bad then reportFault s1 else s1

/-- OUTPUT_FAULT (22 R534, Table 22.3): pin `pin` reads back `level` for 10 ms.  A released open-drain output read low is no
fault, but CFG_ERR# is one, and QUENCH# read low while released is trigger 5; SSP_MISO is in high impedance outside
RECOVERY (R543).  Of UART_TX, TDO and SSP_MISO the level comes only when it differs from the drive. -/
def execOutputFault (pin : Nat) (level : Bool) (s : State) : Host.Outcome State Fault Refusal :=
  done (if !s.mod.standby then s
  else if pin = 18 then
    if s.mod.quenchDrive then setOutFault 18 level s
    else if level then setOutFault 18 false s else raiseTrigger 5 s
  else if pin = 17 then setOutFault 17 (level == s.mod.cfgErr) s
  else if pin = 11 then setOutFault 11 (level && s.mod.alert) s
  else if pin = 23 then setOutFault 23 (!level) s
  else if pin = 29 then (if s.boot.state = 6 then setOutFault 29 true s else s)
  else if pin = 31 ∨ pin = 36 then setOutFault pin true s
  else s)

/-- I2C_BUS_STUCK (22 R535): after nine clocks and a STOP the bus has recovered, or a bus fault is reported. -/
def execI2cBusStuck (recovered : Bool) (s : State) : Host.Outcome State Fault Refusal :=
  done (if !s.mod.standby then s
  else
    let s1 := s.setMod { s.mod with busFault := !recovered }
    if recovered then s1 else reportFault s1)

/-- SMBUS_BUS_HELD (22 R538): the bus is released and the interface is reset. -/
def execSmbusBusHeld (s : State) : Host.Outcome State Fault Refusal :=
  done (if s.mod.standby then s.setMod { s.mod with smbResets := s.mod.smbResets + 1 } else s)

/-- MCTP_PACKET (22 R538): taken at the module's address when its PEC is right, and discarded otherwise. -/
def execMctpPacket (pecOk : Bool) (addr : Nat) (s : State) : Host.Outcome State Fault Refusal :=
  done (if !s.mod.standby || addr != 0x60 + s.mod.modId then s
  else if pecOk then s.setMod { s.mod with mctpAccepted := s.mod.mctpAccepted + 1 }
  else s.setMod { s.mod with mctpDropped := s.mod.mctpDropped + 1 })

/-! ### PLDM (22 R539 to R541) -/

/-- A PLDM response. -/
def pldm (code : Nat) (data : List Int) (s : State) : State := s.emit (.pldm code data)

/-- Operational states of a sensor (DSP0248, log 13): enabled 0, failed 4. -/
def opState (failed : Bool) : Int := if failed then 4 else 0

/-- The highest junction temperature of all dies, in 0.1 °C, as telemetry last read it (1/16 °C). -/
def hottest (s : State) : Int :=
  ((upTo s.nDies).map (fun d => (s.clkOf d).temp)).foldl (fun a t => if a < t then t else a) (s.clkOf 0).temp * 10 / 16

/-- Sensor 13: leak short, leak open, flow sensor, inlet and outlet thermistor, internal bus, then output faults by pin. -/
def faultBits (s : State) : Nat :=
  b2n (s.mod.leakClass == 2) + b2n (s.mod.leakClass == 3) * 2 + b2n s.mod.flowFault * 4 + b2n s.mod.inletFault * 8 +
    b2n s.mod.outletFault * 16 + b2n s.mod.busFault * 32 +
    (s.mod.outFaults.foldl (fun a e => if e.2 then a + 2 ^ (6 + e.1) else a) 0)

/-- What a sensor of Table 22.7 reads: whether its input has failed, and its values.  The thermistor converters lie on the
internal bus (22 R535), so a stuck bus fails sensors 5 and 6 too.  The model holds no supply voltage or
current: sensors 1, 2 and 4 read a free value. -/
def sensorValue (s : State) (id : Nat) : Option (Bool × List Int) :=
  if id = 1 ∨ id = 2 ∨ id = 4 then some (s.mod.busFault, [Int.ofNat (Config.freeNat s.free)])
  else if id = 3 then some (false, [Int.ofNat s.power.modulePower])
  else if id = 5 then some (s.mod.inletFault || s.mod.busFault, [s.mod.inlet])
  else if id = 6 then some (s.mod.outletFault || s.mod.busFault, [s.mod.outlet])
  else if id = 7 then some (s.mod.flowFault, [((Int.ofNat s.mod.flowMv) - 500) / 10])
  else if id = 8 then some (false, [hottest s])
  else if id = 9 then some (false, [Int.ofNat s.devState.toNat])
  else if id = 10 then some (false, [Int.ofNat s.power.cause, Int.ofNat s.power.triggers.toNat])
  else if id = 11 then some (false, [Int.ofNat s.boot.recStatus, Int.ofNat s.boot.recCause])
  else if id = 12 then some (false, [Int.ofNat s.mod.j1])
  else if id = 13 then some (false, [Int.ofNat (faultBits s)])
  else if id = 14 then
    some (false, [Int.ofNat ((upTo 4).foldl (fun a n => a + b2n (s.portOf n).perstHigh * 2 ^ n) 0)])
  else none

/-- PLDM_GET_SENSOR_READING (22 R539); reading the faults acknowledges the pending event. -/
def execPldmGetSensorReading (id : Nat) (s : State) : Host.Outcome State Fault Refusal :=
  done (if !s.mod.standby then s
  else match sensorValue s id with
  | none => pldm 0x80 [] s
  | some v =>
    let s1 := if id = 13 then s.setMod { s.mod with alert := false } else s
    (pldm 0 (opState v.1 :: v.2) s1).drew)

/-- MODULE_RESET_REQUEST (22 R540): effecter 100, refused with ERROR_NOT_READY in Quench. -/
def execModuleResetRequest (s : State) : Host.Outcome State Fault Refusal :=
  done (if !s.mod.standby then s
  else if s.boot.state = 5 then pldm 0x04 [] s
  else pldm 0 [] { s with boot := { s.boot with resetPending := 3 } })

/-- QUENCH_TEST (22 R540): effecter 101 drives QUENCH# low for 10 ms; the module ignores its own drive and reports a pin
that did not go low. -/
def execQuenchTest (wentLow : Bool) (s : State) : Host.Outcome State Fault Refusal :=
  done (if !s.mod.standby then s
  else pldm 0 [] (setOutFault 18 (!wentLow) (s.setMod { s.mod with quenchTest := some s.sclk })))

/-- PLDM_FIRMWARE_UPDATE (22 R541, 21 R517, R519): one updater at a time writes the slot that the device did not boot.  The
completion codes of a refused image are not stated: free values (log 13). -/
def execPldmFirmwareUpdate (step : UpdateStep) (s : State) : Host.Outcome State Fault Refusal :=
  done (if !s.mod.standby || s.boot.state == 0 then s
  else match step with
  | .request img =>
    if s.boot.updating.isSome then pldm (Config.freeNat s.free) [] s.drew
    else if img.length > 16777216 ∨ imgCheck s fwMagic img ≠ .ok then pldm (Config.freeNat s.free) [] s.drew
    else pldm 0 [] (beginUpdate img s)
  | .program ok =>
    match s.boot.updating with
    | none => pldm (Config.freeNat s.free) [] s.drew
    | some img => if ok then pldm 0 [] (endUpdate img ok s)
                  else pldm (Config.freeNat s.free) [] (endUpdate img ok s).drew)

/-- ACTIVATE_FIRMWARE (22 R541): as FW_ACTIVATE without now; activation waits for a reset. -/
def execActivateFirmware (s : State) : Host.Outcome State Fault Refusal :=
  done (if !s.mod.standby || s.boot.state == 0 then s
  else if (s.boot.slots.get {} (inactiveSlot s)).state = 2 then pldm 0 [] (selectSlot (inactiveSlot s) s)
  else pldm (Config.freeNat s.free) [] s.drew)

/-! ### JTAG (19 R467, 22 R545) -/

/-- JTAG_INSTRUCTION (19 R467): 0 IDCODE, 1 BYPASS, 2 SAMPLE/PRELOAD, 3 EXTEST, 4 CLAMP, 5 HIGHZ; any other code selects
the bypass register until a debug unlock opens the vendor's instructions, to which the spec gives no effect. -/
def execJtagInstruction (code : Nat) (s : State) : Host.Outcome State Fault Refusal :=
  if code < 6 then done (s.setMod { s.mod with jtagIr := code, tapReset := false })
  else if s.sec.debugUnlocked then .fault (.vendorInstruction code)
  else done (s.setMod { s.mod with jtagIr := 1, tapReset := false })

/-- TRST_ASSERT (22 R545): the TAP is held in Test-Logic-Reset, where IEEE 1149.1 puts IDCODE in force. -/
def execTrstAssert (s : State) : Host.Outcome State Fault Refusal :=
  done (s.setMod { s.mod with jtagIr := 0, tapReset := true })

end Sys2Proof.Machine
end

