-- ==== Sys2Proof/Machine/Streams.lean ====
section
/-! DEFINITION. Streams: their start, the accesses of their walks, the requests to HBM and to windows, the service of
requests by the controllers and ports, and what comes back (chapter 10, 07 R161 to R174, 09 R219 to R227, 15 R374 to
R379). -/
namespace Sys2Proof.Machine

/-! ### Descriptor fields (12 Table 12.6) -/

def descBase (d : SDesc) : Nat := descW d 1 0 40
def descLen (d : SDesc) : Nat := descW d 2 0 40
def descRate (d : SDesc) : Nat := descW d 2 40 11
def descWindow (d : SDesc) : Nat := descW d 0 48 8
def descDst (d : SDesc) : Nat := descW d 3 32 13
def descPort (d : SDesc) : Nat := descW d 3 48 6
def descComb (d : SDesc) : Bool := descW d 0 47 1 == 1
/-- Writes HBM or a window from billets. -/
def isDrain (d : SDesc) : Bool := descWrite d && descExt d != 0
/-- Writes billets from a stream port. -/
def isPort (d : SDesc) : Bool := descWrite d && descExt d == 0

/-! ### Start (10 R235, R240 to R244) -/

/-- The engine of a stream is clocked: the die's clock runs, and a fetch engine's region is not gated (20 R491); the memory tiles
of a FAULTED region originate no packet (11 Table 11.7). -/
def memRuns (s : State) (x : Stream) : Bool :=
  !((s.regionOf (tileRegion x.tile)).gated && descEngine x.desc == 4) && !(s.clkOf (tileDie x.tile)).stopped &&
    !s.absent x.tile && (s.regionOf (tileRegion x.tile)).st != .faulted

/-- The start condition holds, or has held since the engine came to the stream. -/
def mayStart (s : State) (x : Stream) : Bool := s.streamTurn x && (x.ready || s.startHolds x)

/-- A write stream of another section of the lease, still running, declares bytes that the stream reads (10 R241). -/
def rangeHazard (s : State) (x : Stream) : Bool :=
  let l := secLease s x.sec
  s.secs.any (fun e => e.1 != x.sec && e.2.lease == l && (e.2.phase == .running || e.2.phase == .ending) &&
    (upTo (igStrs (secImage s e.2))).any (fun i =>
      let d := igStr (secImage s e.2) i
      sdWrite d && sdExt d == descExt x.desc && (sdExt d == 1 || sdWindow d == descWindow x.desc) && sdLen d != 0 &&
        rangesMeet (sdBase d, sdLen d) (descBase x.desc, descLen x.desc)))

/-- The stream runs ahead and reads a window that is not run-ahead-safe (10 R244). -/
def unsafeAhead (s : State) (x : Stream) : Bool :=
  match s.secOf x.sec with
  | none => false
  | some y => y.phase == .ahead && descExt x.desc == 2 &&
      !(match (s.leaseOf y.lease).entries.get none (descWindow x.desc) with
        | some w => w.runAheadSafe
        | none => false)

/-- A stream starts: it asks for its latch, if it uses one. -/
def startStream (sid : Nat) (x : Stream) (s : State) : State :=
  let s1 := s.setStream sid (some { x with phase := .running, ready := true, idle := 0, latchAsked := descLatch x.desc })
  if descLatch x.desc then s1.sendAll [latchPacket s x 4] else s1

/-- STREAM_START (10 R235): a stream of a running section. -/
def execStreamStart (sid : Nat) (s : State) : Host.Outcome State Fault Refusal :=
  done (match s.streamOf sid with
  | some x => if secRuns s x.sec && mayStart s x then startStream sid x s else s
  | none => s)

/-- PROLOGUE_STREAM_START (10 R240): a prefetch stream of a section that has not started, on a memory tile of a region held
by the lease. -/
def execPrologueStreamStart (sid : Nat) (s : State) : Host.Outcome State Fault Refusal :=
  done (match s.streamOf sid with
  | some x =>
    if !(secRuns s x.sec) && mayStart s x && (s.regionOf (tileRegion x.tile)).resident == some (secLease s x.sec) &&
        (reservedBy s (tileRegion x.tile)).all (fun h => some h == (s.secOf x.sec).map (fun y => y.prog)) &&
        !descLatch x.desc && !rangeHazard s x && !unsafeAhead s x then startStream sid x s else s
  | none => s)

/-! ### Requests -/

/-- The bus address of a place in a window of the lease. -/
def busAddrOf (s : State) (l w a : Nat) : Nat :=
  match (s.leaseOf l).entries.get none w with
  | some e => e.busAddr + a
  | none => a

/-- A request with the next number, and with the bus address that its window gives it now. -/
def numbered (s : State) (q : Req) : Req :=
  { q with id := s.hbm.nextReq, bus := if q.isWindow then busAddrOf s q.lease q.window q.addr else 0 }
/-- Add a request. -/
def State.addReq (s : State) (q : Req) : State :=
  { s with hbm := { s.hbm with reqs := s.hbm.reqs ++ [numbered s q], nextReq := s.hbm.nextReq + 1 } }
/-- Change request `i`. -/
def State.updReq (s : State) (i : Nat) (f : Req → Req) : State :=
  { s with hbm := { s.hbm with reqs := s.hbm.reqs.map (fun q => if q.id = i then f q else q) } }
/-- Request `i`. -/
def State.reqOf (s : State) (i : Nat) : Option Req := s.hbm.reqs.find? (fun q => q.id == i)
/-- Requests of a stream, oldest first. -/
def State.reqsOf (s : State) (sid : Nat) : List Req := s.hbm.reqs.filter (fun q => q.sid == sid)

/-- The requests that a range of up to 64 bytes takes: a controller holds 256 bytes together, and a request to a window
crosses no 4 KiB boundary (10 R254, 15 R374). -/
def reqPieces (s : State) (x : Stream) (a n : Nat) : List (Nat × Nat) :=
  if descExt x.desc = 1 then pieces 256 0 a n 3
  else pieces 4096 (match (s.leaseOf (secLease s x.sec)).entries.get none (descWindow x.desc) with
    | some w => w.busAddr
    | none => 0) a n 3

/-- The slack of `lines` lines at a drain rate, in 8 ns (10 R255). -/
def slackOf (s : State) (t lines rate : Nat) : Nat :=
  if rate = 0 then 0xFFF else min 0xFFE (lines * 1024 / rate * 5 / (s.clkOf (tileDie t)).fclk)
/-- The runway of a fetch (10 Buffering): the lines of its billets that are not EMPTY. -/
def runway (s : State) (x : Stream) : Nat :=
  64 * ((upTo (sdBils x.desc.toNat)).filter (fun i =>
    match (s.mtileOf x.tile).billets.get none (sdBil x.desc.toNat + i) with
    | some b => b.st != .empty
    | none => false)).length

/-- What every request of a stream holds. -/
def reqBase (s : State) (sid : Nat) (x : Stream) : Req :=
  { id := 0, lease := secLease s x.sec, sec := x.sec,
    prog := (match s.secOf x.sec with | some y => y.prog | none => 0), sid := sid, write := false,
    isWindow := descExt x.desc == 2, window := descWindow x.desc, addr := 0, len := 0, src := epOf x.tile,
    arrival := 40 * s.sclk }

/-- Window `w` of the lease is a peer's. -/
def isPeer (s : State) (l w : Nat) : Bool := ((s.leaseOf l).entries.get none w).any (fun e => e.peer)
/-- The function through whose port the lease's requests go, when it can send one to that address (15 R374, R375, 17 R415, 19
R465). -/
def leaseCanSend (s : State) (l addr : Nat) (peer : Bool) : Option Nat :=
  match s.ownerOf l with
  | some f => if s.canSendTo f addr peer then some f else none
  | none => none
/-- The port has a tag for one more read: at most 768 are outstanding (15 Table 15.1). -/
def tagFree (s : State) (port : Nat) : Bool :=
  decide ((s.hbm.reqs.filter (fun q => q.port == some port && !q.back)).length < 768)

/-- Send the read request of a window, where it can be sent and its port has a tag. -/
def sendRead (q : Req) (s : State) : State :=
  if !q.isWindow || q.write || q.served then s
  else match leaseCanSend s q.lease q.bus (isPeer s q.lease q.window) with
    | some f =>
      if tagFree s (fnPort f) then
        (s.emit (.memRead f q.bus q.len (s.attr f q.bus (isPeer s q.lease q.window) false false))).updReq q.id (fun y =>
          { y with served := true, port := some (fnPort f) })
      else s
    | none => s

/-- A request of the stream to bytes outside its declared range is discarded and reported (10 R236). -/
def rangeFault (x : Stream) (off : Nat) (s : State) : State :=
  streamFault x [x.index, off] s

/-! ### Billets of a fetch (10 R240, 07 R177) -/

/-- The billet of a fetch: one that another section, running or in its own prologue, declares is busy. -/
def fetchBillet (s : State) (x : Stream) (i : Nat) : BilletHas :=
  if !(secRuns s x.sec) && s.secs.any (fun e => e.1 != x.sec && e.2.lease == secLease s x.sec &&
      (e.2.phase == .running || e.2.phase == .ending || e.2.phase == .prologue) &&
      e.2.bils.any (fun b => b.tile == x.tile && b.index == i)) then .busy
  else billetAt s x.sec x.tile i

/-- Go past access `x.pos` of a stream that issues, which is done issuing after its last. -/
def nextAccess (sid : Nat) (x : Stream) (s : State) : State :=
  let last := x.pos + 1 == walkLen x.desc.toNat
  let s1 := s.updStream sid (fun y => { y with pos := x.pos + 1, blocked := false, phase := if last then .done else y.phase })
  if last then s1.markReady else s1

/-- The stream waits at its access. -/
def blockStream (sid : Nat) (s : State) : State := s.updStream sid (fun y => { y with blocked := true })

/-- Issue the requests of access `n` of a fetch, to land at `land`. -/
def issueFetch (sid : Nat) (x : Stream) (land : Option Nat) (s : State) : State :=
  let n := x.pos
  let u := sdUnit x.desc.toNat
  let ps := reqPieces s x (descBase x.desc + n * u) u
  let slack := slackOf s x.tile (runway s x) (descRate x.desc)
  let s1 := ps.foldl (fun s p =>
    let q := numbered s { reqBase s sid x with
      addr := p.1, len := p.2, pos := n, slack := slack, land := land.map (fun a => a + (p.1 - (descBase x.desc + n * u))) }
    sendRead q (s.addReq q)) s
  nextAccess sid x (s1.updStream sid (fun y => { y with outstanding := y.outstanding + ps.length }))

/-- An access of a fetch that writes nothing. -/
def skipFetch (sid : Nat) (x : Stream) (s : State) : State := nextAccess sid x (wroteAccess sid x.pos s)

/-- Does access `x.pos` of a fetch, to billet `i`, wait for the scoreboard or break it? -/
def fetchGate (s : State) (sid : Nat) (x : Stream) (i : Nat) (b : Billet) : Gate :=
  let d := x.desc.toNat
  if runStarts d x.pos || sdIndexed d then
    if !(sdIndexed d) && (s.reqsOf sid).any (fun q => q.land.any (fun a => a / 4096 == i)) then .wait
    else writeGate b 0xFFFF .data
  else .accept

/-- The next access of a fetch. -/
def fetchAccess (sid : Nat) (x : Stream) (s : State) : State :=
  let u := sdUnit x.desc.toNat
  let src := epOf x.tile
  if descLen x.desc < x.pos * u + u then
    if x.outstanding = 0 then skipFetch sid x (rangeFault x (x.pos * u) s) else s
  else match accessAt s x x.pos with
    | .wait => blockStream sid s
    | .undeclared i => if secRuns s x.sec then writerConflict x.sec x.tile i 5 src s else s
    | .at_ none => issueFetch sid x none (reportIndex sid x.pos s)
    | .at_ (some a) =>
      match fetchBillet s x (a / 4096) with
      | .busy => s
      | .undeclared => if secRuns s x.sec then writerConflict x.sec x.tile (a / 4096) 5 src s else s
      | .here b =>
        match fetchGate s sid x (a / 4096) b with
        | .accept => issueFetch sid x (some a) s
        | .wait => s
        | .conflict c => if secRuns s x.sec then writerConflict x.sec x.tile (a / 4096) c src s else s

/-! ### What completes (07 R160, R171, 10 R250, R252) -/

/-- The packet of an entry that a stream pushes. -/
def pushPacket (s : State) (x : Stream) (bs : List Byte) (poison : Bool) (fl : List (BitVec 5)) : Packet where
  vn := vnStream
  kind := 0
  dst := descDst x.desc
  src := epOf x.tile
  port := descPort x.desc
  lease := secLease s x.sec
  comb := descComb x.desc
  sec := x.sec
  pl := .entries [{ data := entryOf bs, poison := poison, fl := flFrom 64 fl }]

/-- A signal that follows writes to HBM or to a window: to the sink of the descriptor, or the hub's DMA unit (09 R220). -/
def sinkSignals (s : State) (x : Stream) (ref : Nat) : List Packet :=
  let g := descSig x.desc
  let p := pushPacket s x [] false []
  let p1 := if descExt x.desc = 2 then { p with dst := hubEp s (tileDie x.tile) 1, port := 0, comb := false, ref := ref, pl := .entries [] }
    else { p with comb := false, pl := .entries [] }
  if g.mode = 2 then [{ p1 with sig := true, sigTally := g.tally % 64 }] else sigPacket g p1

/-- Entry `k` of a drain is written, and is the last or not. -/
def drainDone (sid k : Nat) (last : Bool) (s : State) : State :=
  match s.streamOf sid with
  | none => s
  | some x =>
    let s1 := s.setStream sid (some { x with landed := x.landed + 1 })
    let s2 := if descExt x.desc = 1 && sigDueEnd (descSig x.desc) k last then s1.sendAll (sinkSignals s x 0) else s1
    progressed (if last then dropLatch sid s2 else s2) x.sec

/-- What the scoreboard says to data that land: a billet that closed since the request was issued refuses them (07 R171). -/
def landGate (s : State) (sec t a : Nat) : Gate :=
  match billetAt s sec t (a / 4096) with
  | .here b => writeGate b 0xFFFF .data
  | .busy => .wait
  | .undeclared => .conflict 5

/-- The data of a read land in their billet (07 R177, 10 R250: poisoned when the read failed); data that the billet refuses are
discarded, and end a running section. -/
def landData (q : Req) (a : Nat) (s : State) : State :=
  match s.streamOf q.sid with
  | none => s
  | some x =>
    match landGate s x.sec x.tile a with
    | .conflict c => if secRuns s x.sec then writerConflict x.sec x.tile (a / 4096) c (epOf x.tile) s else s
    | _ =>
      let s1 := (s.sramWrite x.tile a q.data q.poison).sramFlWrite x.tile a q.data.length q.fl
      let s2 := match billetAt s1 x.sec x.tile (a / 4096) with
        | .here b => setBillet x.tile (a / 4096) (openBillet b) s1
        | _ => s1
      s2.updStream q.sid (fun y => { y with passes := y.passes.set 0 (a / 4096) 1 })

/-- The lines that access `n` of a fetch wrote in pieces, all 64 bytes of each, lose their marks (07 R180). -/
def clearFetched (sid n : Nat) (poison : Bool) (s : State) : State :=
  match s.streamOf sid with
  | some x => if poison then s else match accessAt s x n with
    | .at_ (some a) => if sdUnit x.desc.toNat = 64 then s.sramClearWhole x.tile a 64 else s
    | _ => s
  | none => s

/-- The oldest request of a stream is complete. -/
def completeReq (q : Req) (s : State) : State :=
  let s1 := { s with hbm := { s.hbm with reqs := s.hbm.reqs.filter (fun r => r.id != q.id) } }
  let s2 := s1.updStream q.sid (fun y => { y with outstanding := y.outstanding - 1 })
  let s3 := match q.land with
    | some a => if q.write then s2 else landData q a s2
    | none => s2
  if (s3.reqsOf q.sid).any (fun r => r.pos == q.pos) then s3
  else if q.write then
    drainDone q.sid q.pos (match s3.streamOf q.sid with
      | some x => entryEnds x.desc.toNat (walkLen x.desc.toNat - 1) == some q.pos
      | none => false) s3
  else wroteAccess q.sid q.pos (clearFetched q.sid q.pos q.poison s3)

/-- A read that is back waits to land: its billet is not free yet, or an earlier read of the tile's fetch engine for the same
billet has not landed (07 R160). -/
def landWaits (s : State) (q : Req) : Bool :=
  match q.write, q.land, s.streamOf q.sid with
  | false, some a, some x =>
    landGate s x.sec x.tile a == .wait ||
      s.hbm.reqs.any (fun r => decide (r.id < q.id) && !r.write && r.src == q.src && r.sid != q.sid &&
        r.land.any (fun b => b / 4096 == a / 4096))
  | _, _, _ => false

/-- Complete the requests of a stream that are back, in their order; `n` bounds them. -/
def settleReqs (sid : Nat) : Nat → State → State
  | 0, s => s
  | n + 1, s =>
    match s.reqsOf sid with
    | q :: _ => if q.back && !(landWaits s q) then settleReqs sid n (completeReq q s) else s
    | [] => s
/-- Complete what can be completed for the streams of a memory tile, in the order of their numbers. -/
def settleTile (t : Nat) (s : State) : State :=
  (s.strms.filter (fun e => e.2.tile == t)).foldl (fun s e => settleReqs e.1 (s.reqsOf e.1).length s) s

/-! ### Reads of billets (07 R169 to R174) -/

/-- One release of a billet by the stream, which has made one more pass over it (07 R172, R173). -/
def releaseOf (sid i : Nat) (x : Stream) (s : State) : State :=
  match billetAt s x.sec x.tile i with
  | .here b =>
    if b.kind = 2 then
      settleTile x.tile ((setBillet x.tile i (releaseBillet b) s).updStream sid (fun y =>
        { y with passes := y.passes.upd 0 i (fun n => (n + 1) % 256) }))
    else s
  | _ => s

/-- The releases that follow access `x.pos`: the billet that the walk leaves, or at the end of an indexed walk every RING
billet of the stream. -/
def releases (sid : Nat) (x : Stream) (a : Option Nat) (s : State) : State :=
  let d := x.desc.toNat
  if sdIndexed d then
    if x.pos + 1 = walkLen d then (upTo (sdBils d)).foldl (fun s i => releaseOf sid (sdBil d + i) x s) s else s
  else match a with
    | some a => if runEnds d x.pos then releaseOf sid (a / 4096) x s else s
    | none => s

/-- Issue entry `k` of a drain, of the bytes put together. -/
def issueDrain (sid : Nat) (x : Stream) (k : Nat) (last : Bool) (s : State) : State :=
  let off := 64 * (k - 1)
  if descLen x.desc < off + x.pack.length then drainDone sid k last (rangeFault x off s)
  else
    let a0 := descBase x.desc + off
    let ps := reqPieces s x a0 x.pack.length
    let rate := descRate x.desc
    let s0 := if rate = 0 then s else s.drew
    let slack := if rate = 0 then 0xFFF else Config.freeNat s.free % 0xFFF
    let s1 := ps.foldl (fun s p => s.addReq { reqBase s sid x with
      write := true, addr := p.1, len := p.2, data := slice x.pack (p.1 - a0) p.2, poison := x.packPoison,
      fl := (x.packFl.drop (p.1 - a0)).take p.2, pos := k, slack := slack }) s0
    let s2 := s1.updStream sid (fun y => { y with outstanding := y.outstanding + ps.length, sent := y.sent + 1 })
    if descExt x.desc = 2 && sigDueEnd (descSig x.desc) k last then s2.sendAll (sinkSignals s2 x s2.hbm.nextReq) else s2

/-- The entry that access `x.pos` ends goes on its way: pushed with its signals, or written to HBM or a window; a stream that
pushes into a compute tile sends a DRAIN after its last (11 R282). -/
def entryOut (sid : Nat) (x : Stream) (s : State) : State :=
  let last := x.pos + 1 == walkLen x.desc.toNat
  match entryEnds x.desc.toNat x.pos with
  | none => s
  | some k =>
    let s1 :=
      if isDrain x.desc then issueDrain sid x k last s
      else
        let s' := s.updStream sid (fun y => { y with sent := y.sent + 1 })
        let p := pushPacket s x x.pack x.packPoison x.packFl
        s'.sendAll (attachSig (descSig x.desc) (sigDueEnd (descSig x.desc) k last) p ++
          (if last && epIsCompute p.dst then [{ p with kind := 3, comb := false, pl := .drain (regTag s (tileRegion x.tile)) }] else []))
    let s2 := if last && !(isDrain x.desc) then dropLatch sid s1 else s1
    s2.updStream sid (fun y => { y with pack := [], packPoison := false, packFl := [] })

/-- The bytes of access `x.pos` have been read. -/
def tookBytes (sid : Nat) (x : Stream) (a : Option Nat) (bs : List Byte) (poison : Bool) (fl : List (BitVec 5))
    (s : State) : State :=
  let y := { x with pack := x.pack ++ bs, packPoison := x.packPoison || poison,
                    packFl := flCat x.pack.length x.packFl bs.length fl }
  progressed (nextAccess sid y (entryOut sid y (releases sid y a (s.updStream sid (fun z =>
    { z with pack := y.pack, packPoison := y.packPoison, packFl := y.packFl }))))) x.sec

/-- The entry that the access ends lies outside the declared range, and must wait for those before it. -/
def drainWaits (x : Stream) : Bool :=
  isDrain x.desc && (match entryEnds x.desc.toNat x.pos with
    | some k => decide (descLen x.desc < 64 * (k - 1) + x.pack.length + sdUnit x.desc.toNat) && x.outstanding != 0
    | none => false)

/-- The next access of a stream that reads billets. -/
def readAccess (sid : Nat) (x : Stream) (s : State) : State :=
  let u := sdUnit x.desc.toNat
  let src := epOf x.tile
  if drainWaits x then s
  else match accessAt s x x.pos with
  | .wait => blockStream sid s
  | .undeclared i => writerConflict x.sec x.tile i 5 src s
  | .at_ none =>
    let s1 := reportIndex sid x.pos s
    tookBytes sid { x with faulted := true } none (List.replicate u 0) false [] s1
  | .at_ (some a) =>
    match billetAt s x.sec x.tile (a / 4096) with
    | .busy => blockStream sid s
    | .undeclared => writerConflict x.sec x.tile (a / 4096) 5 src s
    | .here b =>
      if readable b (x.passes.get 0 (a / 4096)) then
        tookBytes sid x (some a) (s.sramRead x.tile a u) (s.sramPoisoned x.tile a u) (s.sramFl x.tile a u) s
      else blockStream sid s

/-! ### Accesses -/

/-- The grant of its latch reaches the stream's engine (09 R226). -/
def takeGrant (sid : Nat) (x : Stream) (s : State) : State :=
  match s.fab.net.findIdx? (fun p => p.vn == vnCtl && p.kind == 5 && p.dst == epOf x.tile && p.port == descEngine x.desc) with
  | some i => arrive i (fun _ => true) (fun p s => progressed (s.updStream sid (fun y => { y with latchHeld := true })) p.sec) s
  | none => s

/-- The stream pushes to the fabric, and its last packet has not left yet: the engine has one entry ready at a time, and its
producer waits (08 R192, 13 R327; DESIGN CHOICE, log 149). -/
def pushWaits (s : State) (x : Stream) : Bool :=
  !(isDrain x.desc) && !(isFetch x.desc) && s.fab.tx.any (fun p => p.vn == vnStream && p.src == epOf x.tile &&
    p.dst == descDst x.desc && p.port == descPort x.desc)

/-- The stream issues: it runs, its section lets it, and its last packet has left. -/
def streamRuns (s : State) (x : Stream) : Bool :=
  x.phase == .running && s.streamMay x && memRuns s x && decide (x.pos < walkLen x.desc.toNat) && !(pushWaits s x)

/-- The next access of a stream: requests of a fetch, or a read of billets. -/
def accessOf (sid : Nat) (x : Stream) (s : State) : State :=
  if isFetch x.desc then (if rangeHazard s x && !(secRuns s x.sec) || unsafeAhead s x then s else fetchAccess sid x s)
  else if isPort x.desc then s
  else if secRuns s x.sec then readAccess sid x s
  else s

/-- What the next access finds in the line that it reads (18 R425, R426): nothing where it reads none. -/
def readFinding (x : Stream) (f : Finding) (s : State) : State :=
  if isFetch x.desc || isPort x.desc || !(secRuns s x.sec) || drainWaits x then s
  else match accessAt s x x.pos with
    | .at_ (some a) =>
      match billetAt s x.sec x.tile (a / 4096) with
      | .here b => if readable b (x.passes.get 0 (a / 4096)) then sramFinding x.tile a 1 (secTag s x.sec) f s else s
      | _ => s
    | _ => s

/-- STREAM_ACCESS (07 R161): a stream that waits for its latch takes the grant; one that waits for a billet goes on by
BILLET_READ_SERVED. -/
def streamAccess (sid : Nat) (f fi : Finding) (s : State) : State :=
  match s.streamOf sid with
  | none => s
  | some x =>
    if !(streamRuns s x) then s
    else if descLatch x.desc && !x.latchHeld then takeGrant sid x s
    else if x.blocked then s
    else accessOf sid x (readFinding x f (indexFinding sid fi s))

/-- The read that waits is served (07 R169). -/
def readServed (sid : Nat) (f fi : Finding) (s : State) : State :=
  match s.streamOf sid with
  | none => s
  | some x =>
    if streamRuns s x && x.blocked && !(descLatch x.desc && !x.latchHeld) then
      accessOf sid x (readFinding x f (indexFinding sid fi s))
    else s

/-- An access of a stream whose descriptor has operation `op` and pushes to the fabric (07 Table 7.3). -/
def mtReadOp (op sid : Nat) (f fi : Finding) (s : State) : State :=
  match s.streamOf sid with
  | none => s
  | some x =>
    if descOp x.desc = op ∧ isDrain x.desc = false ∧ isFetch x.desc = false ∧ isPort x.desc = false then
      (if x.blocked then readServed sid f fi s else streamAccess sid f fi s)
    else s

/-- STREAM_ACCESS (07 R161). -/
def execStreamAccess (sid : Nat) (f fi : Finding) (s : State) : Host.Outcome State Fault Refusal := done (streamAccess sid f fi s)
/-- BILLET_READ_SERVED (07 R169). -/
def execBilletReadServed (sid : Nat) (f fi : Finding) (s : State) : Host.Outcome State Fault Refusal := done (readServed sid f fi s)
/-- MT_READ (07 R164). -/
def execMtRead (sid : Nat) (f fi : Finding) (s : State) : Host.Outcome State Fault Refusal := done (mtReadOp 0 sid f fi s)
/-- MT_GATHER (07 R163). -/
def execMtGather (sid : Nat) (f fi : Finding) (s : State) : Host.Outcome State Fault Refusal := done (mtReadOp 2 sid f fi s)

/-! ### What comes back -/

/-- Request `i` is back; what waited behind it completes with it. -/
def reqBack (q : Req) (s : State) : State :=
  let s1 := settleReqs q.sid (s.reqsOf q.sid).length (s.updReq q.id (fun r => { r with back := true }))
  if q.write then s1 else settleTile (epTile q.src) s1

/-- HBM_READ_DATA_ARRIVAL (10 R249). -/
def execHbmReadDataArrival (req : Nat) (s : State) : Host.Outcome State Fault Refusal :=
  done (match s.reqOf req with
  | some q => if q.served && !q.write && !q.isWindow then reqBack q s else s
  | none => s)

/-- WR_ACK_ARRIVAL (10 R252). -/
def execWrAckArrival (pkt : Nat) (s : State) : Host.Outcome State Fault Refusal :=
  done (arrive pkt (fun p => p.vn == vnReply && p.kind == 1) (fun p s =>
    match s.reqOf p.ref with
    | some q => reqBack q s
    | none => packetFault s p) s)

/-- A PEER_UNREACHABLE record, held while the section runs ahead (10 R247, R250, R251). -/
def peerUnreachable (sec l window n : Nat) (s : State) : State :=
  let e : Ev := { type := 0x05, status := 0x18, tag := secTag s sec, body := [BitVec.ofNat 8 window, 0, 0, 0] ++ leBytes n 4 }
  match s.secOf sec with
  | some y => if y.phase = .ahead then s.setSec sec (some { y with heldEvs := y.heldEvs ++ [{ e with lease := l }] })
    else s.eventLease e l
  | none => s.eventLease e l

/-- The `n` bytes of a completion: a short one is filled up with zeros. -/
def fitBytes (bs : List Byte) (n : Nat) : List Byte := (bs ++ List.replicate (n - bs.length) 0).take n

/-- Bytes that the spec leaves open, by what they stand for. -/
def openBytes (what : List Nat) (n : Nat) : List Byte := (upTo n).map (fun i => (Config.openWord what i).setWidth 8)

/-- The oldest read that waits for a tag is sent. -/
def sendWaiting (s : State) : State :=
  match s.hbm.reqs.find? (fun q => q.isWindow && !q.write && !q.served && !q.back) with
  | some q => sendRead q s
  | none => s

/-- A read of a window completes, or fails: then its bytes are open and poisoned (10 R250).  One that waits for a tag goes on
waiting. -/
def windowReadDone (q : Req) (res : ReadResult) (s : State) : State :=
  match q.served, res with
  | true, .data bs => sendWaiting (reqBack q (s.updReq q.id (fun r => { r with data := fitBytes bs q.len })))
  | false, _ =>
    if (leaseCanSend s q.lease q.bus (isPeer s q.lease q.window)).isSome then sendRead q s
    else
      let s1 := s.updReq q.id (fun r => { r with poison := true, data := openBytes [0xFA, q.window, q.addr] q.len })
      reqBack q (peerUnreachable q.sec q.lease q.window q.addr s1)
  | true, .failed =>
    let s1 := s.updReq q.id (fun r => { r with poison := true, data := openBytes [0xFA, q.window, q.addr] q.len })
    sendWaiting (reqBack q (peerUnreachable q.sec q.lease q.window q.addr s1))

/-- WINDOW_READ_COMPLETE (10 R250). -/
def execWindowReadComplete (req : Nat) (res : ReadResult) (s : State) : Host.Outcome State Fault Refusal :=
  done (match s.reqOf req with
  | some q => if q.isWindow && !q.write && !q.back then
      windowReadDone q res s else s
  | none => s)

/-! ### Service by a controller (10 R254 to R257) -/

/-- Endpoint of the controller's port: the memory tile that it is attached to (08 R188). -/
def pcEp (pc : Nat) : Nat := epOf (tileNo (pc / 64) (9 * (pc % 64 / 16) + 8) (2 * (pc % 16)))
/-- The deadline of a request, in ns. -/
def deadlineOf (q : Req) : Nat := q.arrival + (if q.slack = 0xFFF then 32760 else 8 * q.slack)
/-- Served before: the earlier deadline, then the lower source, then the earlier arrival. -/
def sooner (a b : Req) : Bool :=
  decide (deadlineOf a < deadlineOf b) || (deadlineOf a == deadlineOf b && (decide (a.src < b.src) || (a.src == b.src &&
    (decide (a.arrival < b.arrival) || (a.arrival == b.arrival && decide (a.id ≤ b.id))))))
/-- Put a request at its place in an order. -/
def insReq (q : Req) : List Req → List Req
  | [] => [q]
  | r :: l => if sooner q r then q :: r :: l else r :: insReq q l
/-- Requests in the order of their deadlines. -/
def byDeadline (l : List Req) : List Req := l.foldr insReq []

/-- The class of a request at a controller: 0 local read, 1 local write, 2 remote. -/
def classOf (pc : Nat) (q : Req) : Nat := if epDie q.src ≠ pc / 64 then 2 else if q.write then 1 else 0
/-- A share of a FIXED split. -/
def arbShare (g : DWord) (c : Nat) : Nat := natBits g.toNat (5 * c) 5
/-- The oldest request of a class. -/
def oldestOf (pc c : Nat) (l : List Req) : Option Req :=
  (byDeadline ((l.filter (fun q => classOf pc q == c)).map (fun q => { q with slack := 0, src := 0 }))).head?

/-- The request that a controller in DEADLINE mode serves: `k` later than the first only when no deadline is within 1 µs. -/
def pickDeadline (s : State) (k : Nat) (l : List Req) : Option Req :=
  let o := byDeadline l
  match o with
  | [] => none
  | q :: _ => if 40 * s.sclk + 1000 < deadlineOf q then (match o[k]? with | some r => some r | none => some q) else some q

/-- The class whose slot comes: the `k`-th if the frame has a slot of it left, else the first with one. -/
def slotClass (g : DWord) (used : List Nat) (k : Nat) : Nat :=
  let left (c : Nat) : Bool := decide (used.getD c 0 < arbShare g c)
  if left k then k else if left 0 then 0 else if left 1 then 1 else 2

/-- The request that a controller in FIXED mode serves in a slot of class `c`. -/
def pickFixed (pc c : Nat) (l : List Req) : Option Req :=
  match oldestOf pc c l with
  | some q => some q
  | none => match oldestOf pc 0 l with
    | some q => some q
    | none => match oldestOf pc 1 l with
      | some q => some q
      | none => oldestOf pc 2 l

/-- Count a slot of class `c`; a frame has 16. -/
def countSlot (used : List Nat) (c : Nat) : List Nat :=
  let u := (upTo 3).map (fun i => used.getD i 0 + (if i = c then 1 else 0))
  if 16 ≤ u.foldl (· + ·) 0 then [] else u

/-- Serve a request: a read takes its data and poison, a write is written and acknowledged. -/
def serveReq (pc : Nat) (q : Req) (s : State) : State :=
  if q.write then
    let s1 := (s.hbmWrite q.lease q.addr q.data).hbmFlWrite q.sec q.lease q.addr q.len q.fl
    let s2 := if q.poison then s1.hbmMark q.lease q.addr q.len true else s1
    match s2.streamOf q.sid with
    | none => { s2 with hbm := { s2.hbm with reqs := s2.hbm.reqs.filter (fun r => r.id != q.id) } }
    | some _ => (s2.updReq q.id (fun r => { r with served := true })).sendAll
        [{ vn := vnReply, kind := 1, dst := q.src, src := pcEp pc, port := 63, lease := q.lease, op := 63, sec := q.sec, ref := q.id }]
  else s.updReq q.id (fun r => { r with
    served := true, data := s.hbmRead q.lease q.addr q.len, poison := s.hbmAnyPoison q.lease q.addr q.len,
    fl := s.hbmFl q.sec q.lease q.addr q.len })

/-- A request is served; a read finds `f` in its unit, and one of a run-ahead says so in the record (18 R425, R426, 10 R247). -/
def serveFinding (pc : Nat) (f : Finding) (q : Req) (s : State) : State :=
  let ahead := (s.secOf q.sec).any (fun x => x.phase == .ahead)
  serveReq pc q (if q.write then s else hbmFinding q.lease q.addr (if ahead then 2 else 1) (secTag s q.sec) f s)

/-- A controller serves the request that its mode chooses. -/
def hbmServe (pc pick : Nat) (f : Finding) (s : State) : State :=
  let l := s.hbm.reqs.filter (fun q => !q.isWindow && !q.served && pcOf s q.lease q.addr == pc)
  let g := (s.groupOf (.hbmArb (pc / 4))).live
  if s.power.selfRefresh then s
  else if g.getLsbD 31 && !arbBadShares g then
    let used := s.hbm.slots.get [] pc
    let c := slotClass g used pick
    match pickFixed pc c l with
    | none => s
    | some q => match s.reqOf q.id with
      | none => s
      | some r => serveFinding pc f r { s with hbm := { s.hbm with slots := s.hbm.slots.set [] pc (countSlot used c) } }
  else match pickDeadline s pick l with
    | some q => serveFinding pc f q s
    | none => s

/-- HBM_REQUEST_SERVED (10 R256, R257). -/
def execHbmRequestServed (pc pick : Nat) (f : Finding) (s : State) : Host.Outcome State Fault Refusal :=
  done (hbmServe pc pick f s)

/-! ### Writes to windows (10 R251, 15 R379) -/

/-- A write of a section that has ended reaches a peer window: what the next FENCE of its lease, and of its program, reads (15
R381). -/
def endedPeer (q : Req) (s : State) : State :=
  let s1 := s.updLease q.lease (fun l => { l with peerWins := dedup (l.peerWins ++ [q.window]) })
  match s1.progOf q.prog with
  | some p => if p.lease = q.lease then s1.setProg q.prog (some { p with peerWins := dedup (p.peerWins ++ [q.window]) }) else s1
  | none => s1

/-- Note the last byte sent to a peer window, and that the section wrote it (15 R381). -/
def notePeer (q : Req) (s : State) : State :=
  match (s.leaseOf q.lease).entries.get none q.window with
  | none => s
  | some w =>
    if !w.peer then s
    else
      let s1 := s.updLease q.lease (fun l => { l with peerLast := l.peerLast.ins q.window (q.bus + q.len - 1, q.addr + q.len - 1) })
      match s1.secOf q.sec with
      | some y => s1.setSec q.sec (some { y with peerWins := dedup (y.peerWins ++ [q.window]) })
      | none => endedPeer q s1

/-- The write leaves the port, or its data is discarded and reported. -/
def sendWrite (q : Req) (s : State) : State :=
  let peer := isPeer s q.lease q.window
  match leaseCanSend s q.lease q.bus peer with
  | some f => (notePeer q s).emit (.memWrite f q.bus q.data (s.attr f q.bus peer (s.fnOf f).ero q.poison))
  | none => peerUnreachable q.sec q.lease q.window q.len s

/-- WINDOW_WRITE_SEND (10 R251): the writes of a stream go out in order, and the hub acknowledges them. -/
def windowWriteSend (req : Nat) (s : State) : State :=
  match s.reqOf req with
  | none => s
  | some q =>
    if !(q.isWindow && q.write && !q.served) || (s.reqsOf q.sid).any (fun r => !r.served && decide (r.id < q.id)) then s
    else
      let s1 := sendWrite q s
      match s1.streamOf q.sid with
      | none => { s1 with hbm := { s1.hbm with reqs := s1.hbm.reqs.filter (fun r => r.id != q.id) } }
      | some x => (s1.updReq q.id (fun r => { r with served := true })).sendAll
          [{ vn := vnReply, kind := 1, dst := q.src, src := hubEp s (tileDie x.tile) 1, port := descEngine x.desc, lease := q.lease,
             sec := q.sec, ref := q.id }]

/-- WINDOW_WRITE_SEND (10 R251). -/
def execWindowWriteSend (req : Nat) (s : State) : Host.Outcome State Fault Refusal := done (windowWriteSend req s)

end Sys2Proof.Machine
end

