-- ==== Sys2Proof/Machine/Network.lean ====
section
/-! DEFINITION. The network: injection, combining, seams and flit errors; barriers, drain markers and flag records (chapter
08, 10 R252, R253, 11 R274 to R276, R283). -/
namespace Sys2Proof.Machine

/-! ### Injection (08 R187, R196, R197, R200, R205) -/

/-- The packet is of a reserved kind, goes to a reserved or unfitted unit, asks for a tail elsewhere than at a memory tile, or
carries data to a hub unit, which takes none (08 R187, R190, R200).  One to an absent tile goes as far as its router (R196). -/
def injectRefused (s : State) (p : Packet) : Bool :=
  reservedKind p || !endpointFitted s p.dst || (p.sig && !epIsMem p.dst) ||
  (p.vn == vnStream && decide (p.kind ≤ 1) && epIsHub p.dst)

/-- The packet as it is stamped: with the lease of the region that injects it; comb is cleared outside FAST. -/
def stamped (s : State) (p : Packet) : Packet :=
  if epIsTile p.src && p.vn != vnReply then
    let r := tileRegion (epTile p.src)
    { p with lease := regLease s r, comb := p.comb && (regCtx s r).mode == mFast }
  else p

/-- A memory tile of a FAULTED region originates no packet (11 Table 11.7). -/
def sourceFaulted (s : State) (p : Packet) : Bool :=
  epIsMem p.src && p.vn != vnReply && (s.regionOf (tileRegion (epTile p.src))).st == .faulted

/-- Inject a packet, or discard and report it. -/
def inject (s : State) (p : Packet) : State :=
  let q := stamped s p
  if sourceFaulted s p then s else if injectRefused s q then packetFault s q else s.onNet [q]

/-- Every packet of a list, injected in order, finds a credit where it needs one (08 R192). -/
def roomFor (s : State) : List Packet → Bool
  | [] => true
  | p :: r =>
    (sourceFaulted s p || injectRefused s (stamped s p) || hasCredit s (stamped s p)) && roomFor (inject s p) r

/-- A packet for an entry of a latch outlet: byte 0 the latch, byte 1 the operation (09 R226). -/
def latchFromOutlet (t o : Nat) (e : QEntry) (s : State) : State :=
  let x := s.tileOf t
  let bs := entryBytes e.data
  let j := fieldAt bs 0 1
  let op := fieldAt bs 1 1
  let n := latchInlet s t
  let p : Packet := { outPacket s t o with vn := vnCtl, kind := if op = 1 then 4 else 6, port := 17, ref := n, pl := .latch (j % 16) 0 false }
  let pop (y : Tile) : Tile := { y with outlets := y.outlets.upd [] o (List.drop 1) }
  if op = 1 then
    if x.latchWait.contains j || decide (queueDepth ≤ (x.inlets.get [] n).length + x.latchWait.length) || !(roomFor s [p]) then s
    else inject (s.setTile t { pop x with latchWait := x.latchWait ++ [j] }) p
  else if op = 2 then if roomFor s [p] then inject (s.setTile t (pop x)) p else s
  else packetFault (s.setTile t (pop x)) p

/-- The head of outlet `o` of tile `t` leaves, with the signals of its position (09 R219), when the network has a credit for
each flit of them (08 R192). -/
def injectOutlet (t o : Nat) (s : State) : State :=
  let x := s.tileOf t
  if !(secRuns s x.sec) || x.portOff then s
  else
    let n := x.sent.get 0 o + 1
    let send (p : Packet) (s1 : State) : State :=
      let ps := withSignals (outSig s t o) n p
      if roomFor s1 ps then ps.foldl inject s1 else s
    match x.outlets.get [] o, x.outRed.get [] o with
    | e :: r, _ =>
      if latchEn s t && latchOutlet s t == o then latchFromOutlet t o e s
      else send { outPacket s t o with pl := .entries [e] }
        (s.setTile t { x with outlets := x.outlets.set [] o r, sent := x.sent.set 0 o n })
    | [], v :: r =>
      let tail := if (outSig s t o).mode = 2 ∧ sigDue (outSig s t o) n = true then 1 else 0
      send { outPacket s t o with kind := 1, op := 4, comb := outComb s t o, close := v.closes != 0, pl := .reduce { v with tails := tail } }
        (s.setTile t { x with outRed := x.outRed.set [] o r, sent := x.sent.set 0 o n })
    | [], [] => s

/-- The packet that leaves next of those that units have ready: the oldest with a credit and no earlier one of its source, network,
destination and port before it (08 R192, R198). -/
def nextTx (s : State) : Option (Packet × Nat) :=
  (s.fab.tx.zipIdx).find? (fun e => roomFor s [e.1] &&
    !((s.fab.tx.take e.2).any (fun q => q.src == e.1.src && q.vn == e.1.vn && q.dst == e.1.dst && q.port == e.1.port)))

/-- PACKET_INJECT (08 R197). -/
def packetInject (src : TxSource) (s : State) : State :=
  match src with
  | .outlet t o => injectOutlet t o s
  | .unit => match nextTx s with
    | none => s
    | some (p, i) => inject { s with fab := { s.fab with tx := s.fab.tx.eraseIdx i } } p

/-- PACKET_INJECT (08 R197). -/
def execPacketInject (src : TxSource) (s : State) : Host.Outcome State Fault Refusal := done (packetInject src s)

/-! ### Combining (08 R202, R203, R207) -/

/-- The later of the packets `i` and `j` may move to the place of the earlier: no packet between them that it must not
overtake (08 R198, R204). -/
def mayMerge (net : List Packet) (i j : Nat) : Bool :=
  i != j && (match net[max i j]? with
    | none => false
    | some l => !(((net.take (max i j)).drop (min i j + 1)).any (fun q => mustFollow q l)))

/-- Put a merged packet in the place of the earlier of packets `i` and `j`, and take the later off the network. -/
def mergeNet (i j : Nat) (p : Packet) (s : State) : State :=
  { s with fab := { s.fab with net := (s.fab.net.set (min i j) p).eraseIdx (max i j) } }

/-- The merged packet goes on for both packets' sources: what follows either of them does not overtake it (08 R204). -/
def joinedOf (p q : Packet) : List Nat := p.joined ++ q.sources

/-- Run a merge on two different packets in flight. -/
def combine (i j : Nat) (f : Packet → Packet → Option Packet) (s : State) : State :=
  match s.fab.net[i]?, s.fab.net[j]? with
  | some p, some q => if !(mayMerge s.fab.net i j) then s else match f p q with
    | some r => mergeNet i j r s
    | none => s
  | _, _ => s

/-- A count of a REDUCE preamble saturates. -/
def sat16 (n : Nat) : Nat := min n 65535
/-- Two matching REDUCE packets: the first waited, and gives the header (08 R202, R203). -/
def mergeReduce (p q : Packet) : Option Packet :=
  match p.pl, q.pl with
  | .reduce a, .reduce b =>
    if p.vn = vnStream ∧ q.vn = vnStream ∧ p.comb = true ∧ q.comb = true ∧ p.lease = q.lease ∧ p.dst = q.dst ∧ p.port = q.port ∧
        p.op = q.op ∧ p.sigTally = q.sigTally ∧ a.redId = b.redId ∧ a.pair = b.pair ∧ a.vals.length = b.vals.length then
      some { p with close := p.close || q.close, sig := p.sig || q.sig, joined := joinedOf p q,
                    pl := .reduce { a with vals := (a.vals.zip b.vals).map (fun v => v.1.add v.2),
                                           contrib := sat16 (a.contrib + b.contrib), closes := sat16 (a.closes + b.closes),
                                           tails := sat16 (a.tails + b.tails) } }
    else none
  | _, _ => none
/-- Two BARRIER packets of one barrier. -/
def mergeBarrier (p q : Packet) : Option Packet :=
  match p.pl, q.pl with
  | .barrier a n, .barrier b m =>
    if p.vn = vnCtl ∧ q.vn = vnCtl ∧ p.lease = q.lease ∧ p.dst = q.dst ∧ a = b then
      some { p with joined := joinedOf p q, pl := .barrier a (n + m) } else none
  | _, _ => none
/-- Two FLAG packets of one flag record. -/
def mergeFlag (p q : Packet) : Option Packet :=
  match p.pl, q.pl with
  | .flag a x, .flag b y =>
    if p.vn = vnCtl ∧ q.vn = vnCtl ∧ p.lease = q.lease ∧ p.dst = q.dst ∧ a = b then
      some { p with joined := joinedOf p q, pl := .flag a (x.merge y) } else none
  | _, _ => none

/-- REDUCE_COMBINE (08 R203). -/
def execReduceCombine (i j : Nat) (s : State) : Host.Outcome State Fault Refusal := done (combine i j mergeReduce s)
/-- BARRIER_COMBINE (08 R207). -/
def execBarrierCombine (i j : Nat) (s : State) : Host.Outcome State Fault Refusal := done (combine i j mergeBarrier s)
/-- FLAG_COMBINE (08 R207). -/
def execFlagCombine (i j : Nat) (s : State) : Host.Outcome State Fault Refusal := done (combine i j mergeFlag s)

/-! ### Barriers and drain markers (08 R207, 11 R283) -/

/-- BARRIER_ARRIVAL (08 R207): the home counts the arrivals of the section. -/
def execBarrierArrival (pkt : Nat) (s : State) : Host.Outcome State Fault Refusal :=
  done (arrive pkt (fun p => p.vn == vnCtl && p.kind == 2) (fun p s =>
    match p.pl, s.secOf p.sec with
    | .barrier _ n, some y => s.setSec p.sec (some { y with barrier := y.barrier + n, progress := 0 })
    | _, _ => s) s)

/-- DRAIN_ARRIVAL (11 R283): counted at an inlet that takes packets of its source. -/
def execDrainArrival (pkt : Nat) (s : State) : Host.Outcome State Fault Refusal :=
  done (arrive pkt (fun p => p.vn == vnStream && p.kind == 3) (fun p s =>
    let t := epTile p.dst
    let k := inKind s t p.port
    if epIsCompute p.dst ∧ p.port < 4 ∧ ((k = 1 ∧ p.src = inSrc s t p.port) ∨ k = 2) then
      progressed (s.updTile t (fun x => { x with drains := x.drains.upd 0 p.port (· + 1) })) p.sec
    else packetFault s p) s)

/-! ### Seams (11 R274 to R276) -/

/-- The router of the seam cell of side `side` of region `r` on the way from tile `a` to tile `b`. -/
def seamRouter (s : State) (r side : Nat) (a b : Option Nat) : Nat :=
  let rows := match a, b with
    | some x, some y => rowsFirst s x y
    | _, _ => false
  let any := (a.orElse (fun _ => b)).getD 0
  let x := if side = sideE then 9 * (r % 4) + 8 else if side = sideW then 9 * (r % 4)
    else if rows then tileX any else tileX ((b.orElse (fun _ => a)).getD 0)
  let y := if side = sideN then 8 * (r % 16 / 4) + 7 else if side = sideS then 8 * (r % 16 / 4)
    else if rows then tileY ((b.orElse (fun _ => a)).getD 0) else tileY any
  epOf (tileNo (regionDie r) x y)

/-- A seam cell refuses a packet: it is discarded, its section ends, and its lease is told, with the steward when the region is
another lease's (11 R276). -/
def seamViolation (i r side : Nat) (p : Packet) (s : State) : State :=
  let unit := seamRouter s r side (some (routerAt s p.src p.dst)) (some (routerAt s p.dst p.src))
  let e : Ev := { type := 0x03, status := 0x0C, tag := secTag s p.sec, unit := unit, body := leBytes (headerOf p) 8 }
  let s1 := s.offNet i
  let s2 := if (s.regionOf r).resident = some p.lease ∨ (s.regionOf r).resident = none then s1.eventLease e p.lease
    else s1.eventLeaseSteward e p.lease
  verdictOn s2 p.sec .seamViolation

/-- SEAM_PACKET (11 R274): the cell of a side of a region judges a packet; one in transit or accepted goes on. -/
def execSeamPacket (pkt region side : Nat) (s : State) : Host.Outcome State Fault Refusal :=
  done (match s.fab.net[pkt]? with
  | none => s
  | some p => if seamRefuses s p = some (region, side) then seamViolation pkt region side p s else s)

/-! ### Flit errors (08 R209, R210) -/

/-- The packet with the data of flit `k` lost: its entry is poisoned; where it has no entries, what it says is open. -/
def lostFlit (s : State) (k : Nat) (p : Packet) : Packet :=
  { p with pl := match p.pl with
    | .entries es => .entries (es.set k { es.getD k { data := 0 } with poison := true })
    | .reduce r => .reduce { r with vals := r.vals.map (fun v => { v with poison := true }) }
    | .mt a d _ fl => .mt a d true fl
    | .mem a n d q => .mem a n d (q.map (fun _ => true))
    | .signal i _ => .signal i (Config.freeNat s.free % 65536)
    | .barrier i _ => .barrier i (Config.freeNat s.free % 65536)
    | .flag i r => .flag i { r with count := Config.freeNat s.free % 2 ^ 32, poison := true }
    | .frame i _ => .frame i (BitVec.ofNat 2048 (Config.freeNat s.free))
    | pl => pl }

/-- FLIT_ERROR (08 R209, R210): a single-bit error is corrected and counted in the telemetry of the router's die. -/
def flitError (i : Nat) (e : FlitErr) (s : State) : State :=
  match s.fab.net[i]?, e with
  | none, _ => s
  | some _, .single router =>
    let d := tileDie (epTile router)
    { s with power := { s.power with flitErrs := s.power.flitErrs.upd 0 d (· + 1) } }
  | some _, .bridge => s
  | some p, .data k => (s.drew.offNet i).putNet i (lostFlit s k p)
  | some p, .tag router =>
    verdictOn ((s.offNet i).eventLease { type := 0x06, status := 0x12, unit := router, tag := secTag s p.sec, body := [0] } p.lease) p.sec .aborted

/-- FLIT_ERROR (08 R209). -/
def execFlitError (pkt : Nat) (e : FlitErr) (s : State) : Host.Outcome State Fault Refusal := done (flitError pkt e s)

/-! ### Flag records (04 Table 4.9, 10 R252, R253) -/

/-- Home, id, elements and place of the record of an output. -/
def descFlagHome (d : SDesc) : Nat := descW d 13 0 13
def descFlagId (d : SDesc) : Nat := descW d 13 16 14
def descFlagElems (d : SDesc) : Nat := descW d 13 32 32
def descFlagLoc (d : SDesc) : Nat := descW d 14 0 48

/-- The stream of a section with an index of the descriptor table. -/
def secStream (s : State) (sec index : Nat) : Option Stream :=
  (s.strms.find? (fun e => e.2.sec == sec && e.2.index == index)).map Prod.snd

/-- The record's place lies in the lease's memory or in its window; for ext_kind 0 in a billet of the home. -/
def flagPlaceOk (s : State) (x : Stream) : Bool :=
  let l := secLease s x.sec
  match descExt x.desc with
  | 1 => s.inLease l (descFlagLoc x.desc) 16
  | 2 => match (s.leaseOf l).entries.get none (descWindow x.desc) with
    | some w => decide (descFlagLoc x.desc + 16 ≤ w.length)
    | none => false
  | _ => decide (descFlagLoc x.desc + 16 ≤ 2097152)
/-- A billet of the home that the record of ext_kind 0 would touch and that the billet table does not declare. -/
def flagUndeclared (s : State) (x : Stream) : Option Nat :=
  let a := descFlagLoc x.desc
  if descExt x.desc = 1 ∨ descExt x.desc = 2 then none
  else [a / 4096, (a + 15) / 4096].find? (fun i => match billetAt s x.sec (epTile (descFlagHome x.desc)) i with
    | .here _ => false
    | _ => true)

/-- The home writes the record of stream `x`, and counts it as done.  A record whose place is in no memory of the lease is
discarded and reported, as a stream's request to such a byte is (10 R236; DEDUCED, log 136); one for a billet that the table
does not declare ends the section (07 R171). -/
def writeFlag (x : Stream) (r : FlagRec) (s : State) : State :=
  let l := secLease s x.sec
  let a := descFlagLoc x.desc
  let home := descFlagHome x.desc
  let s1 := if !(flagPlaceOk s x) then s.tileFault x.sec l home [x.index, a]
    else match flagUndeclared s x with
    | some i => writerConflict x.sec (epTile home) i 5 home s
    | none => match descExt x.desc with
    | 1 => s.hbmWrite l a r.bytes
    | 2 =>
      let q := numbered s { reqBase s 0 x with write := true, addr := a, len := 16 }
      let peer := isPeer s l q.window
      (match leaseCanSend s l q.bus peer with
       | some f => (notePeer q s).emit (.memWrite f q.bus r.bytes (s.attr f q.bus peer false false))
       | none => peerUnreachable x.sec l (descWindow x.desc) 16 s)
    | _ => s.sramWrite (epTile home) a r.bytes false
  match s1.secOf x.sec with
  | some y => s1.setSec x.sec (some { y with flagDone := y.flagDone.set false x.index true, progress := 0 })
  | none => s1

/-- A record reaches the home of stream `x`: merged, and written when the count is the declared one (10 R252, R253). -/
def mergeAtHome (p : Packet) (x : Stream) (r : FlagRec) (s : State) : State :=
  match s.secOf x.sec with
  | none => packetFault s p
  | some y =>
    let m := (y.flagGot.get {} x.index).merge r
    let n := descFlagElems x.desc
    let s1 := s.setSec x.sec (some { y with flagGot := y.flagGot.set {} x.index m, progress := 0 })
    let s2 := if n < m.count ∧ r.count ≠ 0 then
      s1.tileFault x.sec y.lease p.dst [descFlagId x.desc, m.count - n] else s1
    if n ≤ m.count ∧ y.flagDone.get false x.index = false then writeFlag x m s2 else s2

/-- The packet of a tile's record under an output setting. -/
def flagPacket (s : State) (t : Nat) (x : Stream) (r : FlagRec) : Packet where
  vn := vnCtl
  kind := 3
  dst := descFlagHome x.desc
  src := epOf t
  port := 5
  lease := regLease s (tileRegion t)
  sec := x.sec
  pl := .flag (descFlagId x.desc) r

/-- A tile sends its record once it has ended and every write under the setting is acknowledged (10 R252). -/
def flagSend (t k : Nat) (s : State) : State :=
  let x := s.tileOf t
  match s.secOf x.sec with
  | none => s
  | some y =>
    let o := y.osets.get 0 (8 * t + k)
    if y.phase = .running ∧ o ≠ 0 ∧ k < 8 ∧ x.phase = .ended ∧ x.unacked.get 0 k = 0 ∧ x.flagSent.get false k = false then
      match secStream s x.sec (o - 1) with
      | some d =>
        let p := flagPacket s t d (x.flags.get {} k)
        if roomFor s [p] then inject (s.setTile t { x with flagSent := x.flagSent.set false k true }) p else s
      | none => s
    else s

/-- FLAG_SEND (10 R252). -/
def execFlagSend (tile oset : Nat) (s : State) : Host.Outcome State Fault Refusal := done (flagSend tile oset s)

/-- The output of the home's section that a FLAG packet is for. -/
def flagStream (s : State) (p : Packet) (id : Nat) : Option Stream :=
  let sec := (s.mtileOf (epTile p.dst)).sec
  match s.secOf sec with
  | none => none
  | some y => (s.strms.find? (fun e => e.2.sec == sec && y.flagWant.contains e.2.index && descFlagHome e.2.desc == p.dst &&
      descFlagId e.2.desc == id)).map Prod.snd

/-- FLAG_ARRIVAL (10 R252): at port 5 of the home. -/
def execFlagArrival (pkt : Nat) (s : State) : Host.Outcome State Fault Refusal :=
  done (arrive pkt (fun p => p.vn == vnCtl && p.kind == 3) (fun p s =>
    if !(secRuns s p.sec) then s
    else match p.pl with
    | .flag id r =>
      (match flagStream s p id with
       | some x => if epIsMem p.dst && p.port == 5 then mergeAtHome p x r s else packetFault s p
       | none => packetFault s p)
    | _ => packetFault s p) s)

end Sys2Proof.Machine
end

