-- ==== Sys2Proof/Machine/Tungsten.lean ====
section
/-! DEFINITION. Tungsten arithmetic and the operations of a schedule on a channel's quarter (14 R337, R338, R342). -/
namespace Sys2Proof.Machine

/-! ### Elements (14 R337, R338) -/

/-- The value of an element; a poisoned one is poison. -/
def elemVal (x : Elem) : Val := if x.2 then .poison else decodeFlt fltFP64 x.1.toNat
/-- A value rounded to binary64: every NaN is the canonical one, and so is the value of poison. -/
def valElem (v : Val) : Elem :=
  match v with
  | .poison => (BitVec.ofNat 64 fltFP64.nanCode, true)
  | w => (BitVec.ofNat 64 (encodeStrict fltFP64 .rne w).1, false)
/-- +0. -/
def elemZero : Elem := (0, false)
/-- An element as it is sent: the value of a poisoned one is the canonical NaN (14 R338). -/
def sentElem (x : Elem) : Elem := if x.2 then valElem .poison else x
/-- An operand of the operation is poisoned, or its result. -/
def unlessPoison (vs : List Val) (v : Val) : Val := if vs.contains .poison then .poison else v

/-- fma(a, b, c), rounded once. -/
def e64Fma (a b c : Elem) : Elem :=
  valElem (unlessPoison [elemVal a, elemVal b, elemVal c] (addVal false (mulVal (elemVal a) (elemVal b)) (elemVal c)))
/-- The sign changed, as an operand. -/
def e64Neg (a : Elem) : Elem := (a.1 ^^^ (1#64 <<< 63), a.2)
/-- A quotient. -/
def divVal (a b : Val) : Val :=
  match funSpecial 0 a b with
  | some r => r.1
  | none => funExact 0 a b
/-- A square root. -/
def sqrtVal (a : Val) : Val :=
  match funSpecial 2 a a with
  | some r => r.1
  | none => funExact 2 a a
/-- add, sub, mul, div, min and max, by the sub of VOP. -/
def binVal (sub : Nat) (a b : Val) : Val :=
  match sub with
  | 0 => addVal false a b
  | 1 => addVal false a (negVal b)
  | 2 => mulVal a b
  | 3 => divVal a b
  | 4 => minMax false a b
  | _ => minMax true a b
/-- A two-operand operation on elements. -/
def e64Bin (sub : Nat) (a b : Elem) : Elem :=
  valElem (unlessPoison [elemVal a, elemVal b] (binVal sub (elemVal a) (elemVal b)))
/-- A square root of an element. -/
def e64Sqrt (a : Elem) : Elem := valElem (unlessPoison [elemVal a] (sqrtVal (elemVal a)))
/-- abs. -/
def e64Abs (a : Elem) : Elem := valElem (absVal (elemVal a))
/-- An element copied; a NaN becomes the canonical one (14 R337). -/
def e64Copy (a : Elem) : Elem := valElem (elemVal a)
/-- PIVOT (14 Table 14.4): a where abs(a) is at least the threshold, else the threshold with the sign of a. -/
def e64Pivot (a t : Elem) : Elem :=
  let x := elemVal a
  let y := elemVal t
  valElem (unlessPoison [x, y]
    (if cmpVal (absVal x) y = some 0 ∨ cmpVal (absVal x) y = some 1 then x
     else if valZero x then y
     else if a.1.msb then negVal (absVal y) else absVal y))

/-! ### The quarter -/

/-- A word of the quarter; what an index outside it reads is open. -/
def chanRd (x : Chan) (a : Nat) : Elem :=
  if a < quarterWords then (x.mem.get 0 a, x.memPoison.get false a) else (Config.openDWord [] a, false)
/-- Write a word of the quarter; an index outside it writes nothing (14 R335). -/
def chanWr (a : Nat) (e : Elem) (x : Chan) : Chan :=
  if a < quarterWords then { x with mem := x.mem.set 0 a e.1, memPoison := x.memPoison.set false a e.2 } else x
/-- `n` words from `a`. -/
def chanRdList (x : Chan) (a n : Nat) : List Elem := (upTo n).map (fun i => chanRd x (a + i))
/-- Write words from `a`. -/
def chanWrList (a : Nat) : List Elem → Chan → Chan
  | [], x => x
  | e :: r, x => chanWrList (a + 1) r (chanWr a e x)
/-- Do `f` for 0 to n − 1 in ascending order. -/
def eachOf (n : Nat) (f : Nat → Chan → Chan) (x : Chan) : Chan := (upTo n).foldl (fun x i => f i x) x

/-- idx[i] of the list at word `c`, and whether its word is poisoned. -/
def idxAt (x : Chan) (c i : Nat) : Nat × Bool :=
  let w := chanRd x (c + i / 2)
  (natBits w.1.toNat (32 * (i % 2)) 32, w.2)
/-- The element at an index; a poisoned index poisons it. -/
def atIdx (x : Chan) (base c i : Nat) : Elem :=
  let k := idxAt x c i
  let e := chanRd x (base + k.1)
  (e.1, e.2 || k.2)

/-! ### Operations (14 R342, Table 14.4) -/

/-- A chain of fused multiply-adds over i below n from a start; `neg` for σ = −1. -/
def chain (neg : Bool) (n : Nat) (a b : Nat → Elem) (start : Elem) : Elem :=
  (upTo n).foldl (fun s i => e64Fma (if neg then e64Neg (a i) else a i) (b i) s) start

/-- DOT and SDOT. -/
def opDot (x : Chan) (sub d n : Nat) (a b : Nat → Elem) : Elem :=
  chain (sub == 2) n a b (if sub = 0 then elemZero else chanRd x d)

/-- POTRF: column `j` of the matrix at `d`. -/
def potrfColumn (n d b j : Nat) (x : Chan) : Chan :=
  let at_ (x : Chan) (i k : Nat) : Elem := chanRd x (d + i * n + k)
  let dd := chain true j (at_ x j) (at_ x j) (at_ x j j)
  let x1 := chanWr (d + j * n + j) (e64Sqrt (e64Pivot dd (chanRd x b))) x
  eachOf (n - (j + 1)) (fun m x =>
    let i := j + 1 + m
    chanWr (d + i * n + j) (e64Bin 3 (chain true j (at_ x i) (at_ x j) (at_ x i j)) (at_ x j j)) x) x1

/-- TRSV: row `i` of the solution. -/
def trsvRow (n d a b i : Nat) (trans : Bool) (x : Chan) : Chan :=
  let l (i k : Nat) : Elem := chanRd x (b + i * n + k)
  let s := if trans then
      chain true (n - (i + 1)) (fun m => l (i + 1 + m) i) (fun m => chanRd x (d + i + 1 + m)) (chanRd x (a + i))
    else chain true i (l i) (fun k => chanRd x (d + k)) (chanRd x (a + i))
  chanWr (d + i) (e64Bin 3 s (l i i)) x

/-- The result of SOP. -/
def opScalar (x : Chan) (sub a b c : Nat) : Elem :=
  let u := chanRd x a
  let v := chanRd x b
  match sub with
  | 4 => e64Fma u v (chanRd x c)
  | 5 => e64Sqrt u
  | 6 => e64Abs u
  | 7 => e64Bin 5 u v
  | 8 => e64Bin 4 u v
  | k => e64Bin k u v

/-- One operation, in iteration `k`. -/
def runOp (k o : Nat) (x : Chan) : Chan :=
  let n := opCount o
  let d := opDst o
  let a := opA o
  let b := opB o
  let c := opC o
  let sub := opSub o
  match opCode o with
  | 0x01 => chanWr d (opDot x sub d n (fun i => chanRd x (a + i)) (fun i => chanRd x (b + i))) x
  | 0x02 => chanWr d (opDot x sub d n (fun i => chanRd x (a + i)) (fun i => atIdx x b c i)) x
  | 0x03 => eachOf n (fun i x =>
      let m := chanRd x b
      chanWr (d + i) (e64Fma (if sub = 1 then e64Neg m else m) (chanRd x (a + i)) (chanRd x (d + i))) x) x
  | 0x04 => eachOf n (fun i x =>
      chanWr (d + i) (e64Bin (sub % 8) (chanRd x (a + i)) (chanRd x (if sub < 8 then b + i else b))) x) x
  | 0x05 => chanWr d (opScalar x sub a b c) x
  | 0x06 => chanWr d (e64Pivot (chanRd x a) (chanRd x b)) x
  | 0x07 => eachOf n (fun i x =>
      match sub with
      | 0 => chanWr (d + i) (e64Copy (chanRd x (a + i))) x
      | 1 =>
        let j := idxAt x c i
        let e := e64Copy (chanRd x (a + i))
        chanWr (d + j.1) (if j.2 then valElem .poison else e) x
      | _ => chanWr (d + i) (e64Copy (atIdx x a c i)) x) x
  | 0x08 => eachOf n (fun i x =>
      chanWr (d + i) (e64Bin 4 (e64Bin 5 (chanRd x (a + i)) (chanRd x (b + i))) (chanRd x (c + i))) x) x
  | 0x09 => chanWr d (e64Sqrt (chain false n (fun i => chanRd x (a + i)) (fun i => chanRd x (a + i)) elemZero)) x
  | 0x0A => chanWr d ((upTo n).foldl (fun s i => e64Bin 5 s (e64Abs (chanRd x (a + i)))) elemZero) x
  | 0x0B => eachOf (n * n) (fun e x =>
      chanWr (d + e) (chain false n (fun i => chanRd x (a + e / n * n + i)) (fun i => chanRd x (b + i * n + e % n)) elemZero) x) x
  | 0x0C => eachOf n (potrfColumn n d b) x
  | 0x0D => eachOf n (fun i x => trsvRow n d a b (if sub = 1 then n - 1 - i else i) (sub == 1) x) x
  | 0x0E => chanWr d (e64Copy (chanRd x (a + (min k n - 1)))) x
  | _ => x

/-- Run `n` operations of the schedule from operation `j`, in schedule order. -/
def runOps (k j n : Nat) (x : Chan) : Chan := (upTo n).foldl (fun y i => runOp k (scOp x.sched (j + i)) y) x

/-- Prologue, body and epilogue (14 R340). -/
def runPrologue (x : Chan) : Chan := runOps 1 0 (scPro x.sched) x
def runBody (k : Nat) (x : Chan) : Chan := runOps k (scPro x.sched) (scBody x.sched) x
def runEpilogue (x : Chan) : Chan := runOps (scIters x.sched) (scPro x.sched + scBody x.sched) (scEpi x.sched) x

/-! ### Loading (14 R346) -/

/-- A channel with the schedule of directory entry `i` of an image: the operations, and the data words from address 0. -/
def loadSchedule (img : List Byte) (i slot : Nat) (x : Chan) : Chan :=
  let b := dirSched img i
  let n := scData b
  { x with
    sched := b, schedSlot := some slot, schedModes := dirModes img i
    mem := Table.setList 0 x.mem 0 ((upTo n).map (fun k => BitVec.ofNat 64 (scWord b k)))
    memPoison := Table.setList false x.memPoison 0 (List.replicate n false) }

end Sys2Proof.Machine
end

