-- ==== Sys2Proof/Machine/SectionRun.lean ====
section
/-! DEFINITION. A section from its RUN's load to its end: the descriptor set, the start of the load, the start and the end of
the section (07 R168, R177, R178, 09 R211, R222, R226, 10 R240 to R242, 11 R280, R281, 12 R308 to R311, 13 R332). -/
namespace Sys2Proof.Machine

/-! ### The descriptor set (10 R242, 12 R297 to R301) -/

/-- Make the streams of section `i`, their endpoints relocated. -/
def makeStreams (i : Nat) (s : State) : State :=
  match s.secOf i with
  | none => s
  | some x =>
    let b := secImage s x
    (upTo (igStrs b)).foldl (fun s k =>
      let d := relocDesc s x.placed (igStr b k)
      let y : Stream := { sec := i, index := k, tile := epTile (descW d 0 0 13), desc := d }
      { s with fab := { s.fab with streams := s.fab.streams.set none s.fab.nextStream (some y)
                                   nextStream := s.fab.nextStream + 1 } }) s

/-- The outputs whose flag records the section declares: named by an output setting, or by a descriptor. -/
def declaredFlags (b : List Byte) (os : Table Nat) : List Nat :=
  (upTo (igStrs b)).filter (fun k => sdHasOutput (igStr b k) || os.any (fun e => e.2 == k + 1))

/-- Firmware writes the next descriptor set of section `i`, with its billet table and output settings. -/
def prepareSection (i : Nat) (s : State) : State :=
  match s.secOf i with
  | none => s
  | some x =>
    let b := secImage s x
    let os := relocOsets x.placed (igScan b)
    makeStreams i (s.setSec i (some { x with
      mode := igMode b, rounding := igRound b, bils := (upTo (igBils b)).map (relocBil s x.placed b),
      osets := os, flagWant := declaredFlags b os }))

/-! ### The load (11 R280, R281, 12 R310) -/

/-- Regions of a section. -/
def secRegions (x : Section) : List Nat := x.placed.map Prod.snd
/-- Two sections share a region. -/
def sharesRegion (x y : Section) : Bool := (secRegions x).any (fun r => (secRegions y).contains r)
/-- Sections that execute, a section on each emulation region among them (14 R360), and sections in prologue. -/
def executing (s : State) : Nat :=
  (s.secs.filter (fun e => e.2.phase == .running || e.2.phase == .ending)).length +
    (s.own.regions.filter (fun e => e.2.emulation.isSome)).length
def prologues (s : State) : Nat := (s.secs.filter (fun e => e.2.phase == .prologue)).length

/-- R310 holds the RUN: another context's section runs or is in prologue on a region, or a limit of 64 is reached. -/
def runHeld (s : State) (i : Nat) (x : Section) : Bool :=
  s.secs.any (fun e => e.1 != i && e.2.prog != x.prog &&
    (e.2.phase == .running || e.2.phase == .ending || e.2.phase == .prologue) && sharesRegion e.2 x) ||
  decide (64 ≤ executing s) || (x.phase == .queued && decide (64 ≤ prologues s))

/-- A spill or fill that a command began is under way on a region of the lease (07 R183). -/
def movingOn (s : State) (r : Nat) : Bool :=
  s.host.flights.any (fun f => f.wait == .move && f.move.any (fun m => m.region == r))

/-- A region of the RUN's placement may be loaded: the lease is resident, nobody else has reserved it, and unless it rolls
no section of the lease runs on it. -/
def regionLoads (s : State) (i : Nat) (x : Section) (r : Nat) : Bool :=
  let y := s.regionOf r
  y.resident == some x.lease && (reservedBy s r).all (fun h => h == x.prog) && !y.steering && y.emulation.isNone &&
    !(movingOn s r) && (rollsOn s x r || !(s.busyOther i r))

/-- A section names channel `c` (14 R346). -/
def namesChan (s : State) (x : Section) (c : Nat) : Bool := natBit (igMask (secImage s x)) c
/-- The channels that section `i` names may take its schedules: no running or prologue section of another context names one,
none of its own program with another ingot, and no problem is in progress under another schedule (14 R346). -/
def chansFree (s : State) (i : Nat) (x : Section) : Bool :=
  (maskChans (igMask (secImage s x))).all (fun c =>
    ((s.chanOf c).phase == .idle || (s.chanOf c).schedSlot == some x.slot) &&
    s.secs.all (fun e => e.1 == i || !(e.2.phase == .running || e.2.phase == .ending || e.2.phase == .prologue) ||
      e.2.lease != x.lease || !(namesChan s e.2 c) || (e.2.prog == x.prog && e.2.slot == x.slot)))
/-- Load a channel with its schedule of the ingot, unless it holds it from the same slot (14 R346). -/
def loadChan (x : Section) (s : State) (c : Nat) : State :=
  let y := s.chanIn c
  let img := igImage (secImage s x)
  if y.schedSlot = some x.slot then s
  else match imgEntryOf img c with
  | some k => s.putChan c (loadSchedule img k x.slot y)
  | none => s

/-- The load of section `i` may begin; a RUN that needs a fresh seed waits for the DRBG (19 R457). -/
def mayLoad (s : State) (i : Nat) (x : Section) : Bool :=
  !x.loading && (x.phase == .queued || x.phase == .prologue) && !(s.seq.runQueue.contains x.prog) && !s.quenched &&
    !(runHeld s i x) && (secRegions x).all (regionLoads s i x) && (igSeed (secImage s x) != 0 || drbgOk s) &&
    chansFree s i x

/-- The run-ahead of another context on the regions gives way to the descriptor set of section `x` (10 R242). -/
def displaceAhead (x : Section) (s : State) : State :=
  (s.secs.filter (fun e => e.2.phase == .ahead && e.2.prog != x.prog && sharesRegion e.2 x)).foldl
    (fun s e => cancelSection s e.1) s

/-- The load of section `i` begins: a seed of 0 is drawn anew (02 R42), the descriptor set is written unless the run-ahead
wrote it, the channels take their schedules, and each die's frame stream is pushed. -/
def beginLoad (i : Nat) (x : Section) (s : State) : State :=
  let s0 := displaceAhead x s
  let fresh := igSeed (secImage s x) == 0
  let s1 := if fresh then s0.drewRandom else s0
  let s2 := s1.setSec i (some { x with
    phase := .prologue, loading := true, timingDep := x.timingDep || fresh,
    seed := if fresh then s0.random.truncate 64 else BitVec.ofNat 64 (igSeed (secImage s x)) })
  let s3 := (maskChans (igMask (secImage s x))).foldl (loadChan x) (if x.phase = .queued then prepareSection i s2 else s2)
  ((upTo 4).foldl (fun s e => pushGroups i e none s) s3).markReady

/-- The section of the RUN that program `h` has issued; a program saved out of its context goes on with it only once it is
restored (12 R322). -/
def runOf (s : State) (h : Nat) : Option (Nat × Section) :=
  match s.progOf h with
  | none => none
  | some p => if p.wait = .run ∧ p.ctx.isSome = true then (s.secOf p.runSec).map (fun x => (p.runSec, x)) else none

/-- RUN_LOAD_BEGIN (12 R310).  What a RUN's checks ask for may go while it waits: they are made again before its load, and
one that fails ends the RUN without loading a frame (12 R309, 14 R346; DEDUCED, log 145). -/
def execRunLoadBegin (h : Nat) (s : State) : Host.Outcome State Fault Refusal :=
  done (match runOf s h with
  | some (i, x) =>
    if x.loading || s.quenched then s
    else
      let st := (runChecks s x.lease (secImage s x) x.origin).1
      if st ≠ .ok then settleProg (stopProg s h x.tag x.instr st) h
      else if mayLoad s i x then beginLoad i x s else s
  | none => s)

/-! ### The start (11 R280, 07 R168, 10 R242) -/

/-- Every region of the placement is SEALED by the section's load, and no other section is on it. -/
def mayStartSection (s : State) (i : Nat) (x : Section) : Bool :=
  x.phase == .prologue && x.loading && !s.quenched && decide (executing s < 64) &&
  (match runOf s x.prog with
   | some (k, _) => k == i
   | none => false) &&
  x.placed.all (fun e =>
    let r := s.regionOf e.2
    r.st == .sealed && x.opened.contains e.2 && !(s.busyOther i e.2) && (reservedBy s e.2).all (fun h => h == x.prog) && !r.steering)

/-- A compute tile at the section's start (06 R130). -/
def startCTile (i : Nat) (s : State) (t : Nat) : State :=
  s.setTile t (if s.absent t then {} else startRegs s t { phase := .issuing, sec := i })

/-- Zero `n` bytes of a tile's SRAM, with their marks. -/
def State.sramZero (s : State) (t a n : Nat) : State :=
  (s.setSram (s.fab.sram.keep (fun k => !(decide (sramKey t a ≤ k) && decide (k < sramKey t a + n))))).setSramPoison
    (s.fab.sramPoison.keep (fun k => !(decide (lineKey t a ≤ k) && decide (k < lineKey t a + n / 64))))

/-- A declared billet at the start: one that the prologue has filled is CLOSED, one that it is filling stays as it is, and any
other takes the state of its kind (07 Table 7.6, R177, 10 R242). -/
def startBillet (i : Nat) (m : MTile) (d : BilDecl) : Billet :=
  match m.billets.get none d.index with
  | some b => if b.sec ≠ i then freshBillet i d else if b.st = .shadow then { b with st := .closed, epoch := 0 } else b
  | none => freshBillet i d
/-- The prologue has put bytes into the billet: ZERO_AT_START is not applied (10 R242). -/
def prefetched (i : Nat) (m : MTile) (d : BilDecl) : Bool :=
  (m.billets.get none d.index).any (fun b => b.sec == i && b.st != .empty)

/-- The tallies with the load values of frame 0 (09 R211, 11 Table 11.4). -/
def loadTallies (s : State) (t : Nat) (old : Table Half) : Table Half :=
  (upTo 64).foldl (fun a j =>
    if natBit (s.frameW t 0 (j / 32)) (j % 32) then
      a.set 0 j (BitVec.ofNat 16 (natBits (s.frameW t 0 (2 + j / 2)) (16 * (j % 2)) 16))
    else a) old

/-- A memory tile at the section's start: billets zeroed that ask for it, scoreboard, tallies, latch positions. -/
def startMTile (i : Nat) (bils : List BilDecl) (s : State) (t : Nat) : State :=
  let m := s.mtileOf t
  let ds := bils.filter (fun d => d.tile == t)
  let s1 := (ds.filter (fun d => d.zero && !(prefetched i m d))).foldl (fun s d => s.sramZero t (4096 * d.index) 4096) s
  s1.setMTile t {
    sec := i
    billets := ds.foldl (fun b d => b.set none d.index (some (startBillet i m d))) []
    tally := loadTallies s t m.tally
    latch := m.latch.mapVals {} (fun _ y => { y with pos := 0, asked := [] }) }

/-- The watches of a memory tile fire for what its tallies satisfy already (09 R217). -/
def startWatches (s : State) (t : Nat) : State :=
  (upTo 16).foldl (fun s w => fireWatch t w (watchCount s t w) s) s

/-- Give the signals that a stream owes from its prologue (10 R245). -/
def payOwed (s : State) (e : Nat × Stream) : State :=
  (upTo e.2.owed).foldl (fun s _ => ownSignal e.2 s) (s.updStream e.1 (fun y => { y with owed := 0 }))

/-- Flag records that declare no element are complete at once (10 R252). -/
def emptyFlags (i : Nat) (s : State) (k : Nat) : State :=
  match secStream s i k with
  | some x => if descFlagElems x.desc = 0 then writeFlag x {} s else s
  | none => s

/-- The arrivals that complete the section's barrier (11 CREG_BARRIER_COUNT). -/
def barrierCount (s : State) (x : Section) : Nat :=
  ((secRegions x).map (fun r => creg s r 0x12 % 65536)).foldl max 0

/-- The program goes on past its RUN (12 R311), with the flags of the section (02 R43). -/
def pastRun (i : Nat) (x : Section) (p : Prog) : Prog :=
  let n := loopEnd p.pc (p.pc + 1) p.loops
  { p with pc := n.1, loops := n.2, wait := .none, rollFrom := some i, aheadSec := none, flags := p.flags ||| sectionFlags x }

/-- The units of the section's regions take their starting states. -/
def startUnits (i : Nat) (x : Section) (s : State) : State :=
  let ms := (secRegions x).flatMap regionMTiles
  let cs := (secRegions x).flatMap regionCTiles
  let ts := ms ++ cs
  let s1 := { s with
    fab := { s.fab with sramFlags := s.fab.sramFlags.keep (fun k => !(ts.contains (k / 2 ^ 21)))
                        icpFrames := s.fab.icpFrames.keep (fun k => !(ts.contains (k / 1024))) }
    hbm := { s.hbm with flags := s.hbm.flags.keep (fun k => (s.secOf (k / 2 ^ 51)).isSome) } }
  ms.foldl (startMTile i x.bils) (cs.foldl (startCTile i) s1)

/-- Section `i` starts; no column counts as drained any more (11 R284). -/
def startSection (i : Nat) (x : Section) (s : State) : State :=
  let l := s.leaseOf x.lease
  let s1 := (secRegions x).foldl (fun s r => s.updRegion r (fun y =>
    { y with idle := false, gated := false, drainedCols := 0, reserved := if y.reserved = some x.prog then none else y.reserved })) (startUnits i x s)
  let s2 := s1.setSec i (some { x with
    phase := .running, loading := false, started := s.sclk, limitUs := l.limitUs, lendUs := l.lendUs, progress := 0,
    behind := none, barrierWant := barrierCount s x })
  let s3 := match s2.progOf x.prog with
    | some p => s2.setProg x.prog (some (pastRun i x p))
    | none => s2
  let s4 := ((secRegions x).flatMap regionMTiles).foldl startWatches s3
  let s5 := (s4.strms.filter (fun e => e.2.sec == i && e.2.owed != 0)).foldl payOwed s4
  (x.flagWant.foldl (emptyFlags i) s5).markReady

/-- SECTION_START (11 R280). -/
def execSectionStart (sec : Nat) (s : State) : Host.Outcome State Fault Refusal :=
  done (match s.secOf sec with
  | some x => if mayStartSection s sec x then startSection sec x s else s
  | none => s)

/-! ### The end (07 R178, 10 R253, 13 R329, R332) -/

/-- The compute tiles that a section uses. -/
def secTiles (s : State) (x : Section) : List Nat :=
  ((secRegions x).flatMap regionCTiles).filter (fun t => !(s.absent t))

/-- A packet of the section must still arrive: a control packet, or a signal that nothing before it holds up. -/
def packetLeft (s : State) (i : Nat) : Bool :=
  (s.fab.net.zipIdx).any (fun e => e.1.sec == i &&
    (e.1.vn == vnCtl || (e.1.vn == vnStream && e.1.kind == 2 && !(mustWait s.fab.net e.2 e.1))))

/-- Every compute tile has completed ENDSEC, every stream is done, every flag record and the barrier are complete, and every
write and signal of the section has arrived, and no problem of it is at a channel. -/
def sectionDone (s : State) (i : Nat) (x : Section) : Bool :=
  (secTiles s x).all (fun t => (s.tileOf t).phase == .ended || (s.tileOf t).sec != i) &&
  s.strms.all (fun e => e.2.sec != i || (e.2.phase == .done && e.2.outstanding == 0)) &&
  x.flagWant.all (fun k => x.flagDone.get false k) && decide (x.barrierWant ≤ x.barrier) &&
  s.hbm.reqs.all (fun q => q.sec != i) && s.fab.tx.all (fun p => p.sec != i) && !(packetLeft s i) &&
  s.seq.chans.all (fun e => e.2.phase == .idle || e.2.sec != i)

/-- Report the data packets of a section that no unit has taken (06 R153). -/
def reportLeft (i : Nat) (s : State) : State :=
  (s.fab.net.filter (fun p => p.sec == i && p.vn == vnStream && decide (p.kind ≤ 1))).foldl packetFault s

/-- Section `i` ends: in its own course, or with the verdict of a check once the writes it issued are complete. -/
def finishSection (i : Nat) (s : State) : State :=
  match s.secOf i with
  | none => s
  | some x =>
    if x.phase = .ending then
      if s.hbm.reqs.all (fun q => q.sec != i) && s.fab.net.all (fun p => p.sec != i || p.vn != vnReq) then
        endSection s i (x.verdict.getD .aborted) else s
    else if x.phase = .running ∧ sectionDone s i x = true then
      endSection (reportLeft i s) i (if x.poisoned then .poisoned else .ok)
    else s

/-- SECTION_END (07 R178). -/
def execSectionEnd (sec : Nat) (s : State) : Host.Outcome State Fault Refusal := done (finishSection sec s)

end Sys2Proof.Machine
end

