-- ==== Sys2Proof/Machine/Progress.lean ====
section
/-! DEFINITION. The progress monitor, the section time limit, and idle regions: what a tile or engine waits for, the counters
that a tick moves, and what follows when one reaches its limit (09 R231, R232, 13 R329 to R334, 20 R490 to R492). -/
namespace Sys2Proof.Machine

/-! ### What tiles and engines wait for (09 R231, 13 R330) -/

/-- The inlet is fed by a tally watch, or takes the grants of latches. -/
def waitInlet (s : State) (t n : Nat) : Bool := inKind s t n == 3 || (latchEn s t && latchInlet s t == n)
/-- The bundle that a tile is at. -/
def curBundle (s : State) (t : Nat) : Nat := bundleAt s t (s.tileOf t).pc
/-- The empty inlets that it names. -/
def emptyInlets (s : State) (t : Nat) : List Nat :=
  (namedInlets (curBundle s t)).filter (fun n => !(inletHas (s.tileOf t) n))
/-- The outlets that it names and that lack room. -/
def fullOutlets (s : State) (t : Nat) : List Nat :=
  let b := curBundle s t
  (upTo 4).filter (fun n => roomNeeded b n != 0 && decide (queueDepth < outletUsed (s.tileOf t) n + roomNeeded b n))

/-- The tile's issue is blocked solely on inlets fed by tally watches or on a latch inlet. -/
def tileWaits (s : State) (t : Nat) : Bool :=
  let x := s.tileOf t
  let b := curBundle s t
  x.phase == .issuing && secRuns s x.sec && !(s.absent t) && !(emptyInlets s t).isEmpty &&
    (emptyInlets s t).all (waitInlet s t) && (fullOutlets s t).isEmpty && !rowBlocks x b && !icpWaits s x t b
/-- The stream waits on its start condition. -/
def streamWaits (s : State) (x : Stream) : Bool := s.streamTurn x && !x.ready && !(s.startHolds x)

/-- The inlet is fed by a watch that has firings left. -/
def watchLeft (s : State) (t n : Nat) : Bool :=
  let m := epTile (inSrc s t n)
  inKind s t n == 3 && (upTo 16).any (fun w =>
    watchDst s m w == epOf t && watchInlet s m w == n && decide ((s.mtileOf m).watch.get 0 w < watchCount s m w))
/-- A tile blocked on such an inlet. -/
def watchBlocked (s : State) (t : Nat) : Bool := (s.tileOf t).phase == .issuing && (emptyInlets s t).any (watchLeft s t)

/-- The endpoint is an engine's, or a memory tile of an emulation region (14 R359). -/
def isChannelEp (s : State) (a : Nat) : Bool :=
  epIsEngine a || (epIsMem a && ((s.regionOf (tileRegion (epTile a))).emulation).isSome)
/-- A problem of the section is at a channel, its result is on its way, or its entries wait behind another problem (14
R354). -/
def atChannel (s : State) (i : Nat) : Bool :=
  s.seq.chans.any (fun e => e.2.phase != .idle && e.2.sec == i) ||
  (s.fab.net ++ s.fab.tx).any (fun p => p.sec == i && (isChannelEp s p.src || isChannelEp s p.dst))

/-- A unit of tile `t` can go on: a bundle, its end, a row, or the head of an outlet. -/
def tileMoves (s : State) (t : Nat) : Bool :=
  canIssue s t (curBundle s t) || (endsec t s).tileOf t != s.tileOf t || (rowStep t s).tileOf t != s.tileOf t ||
    (upTo 4).any (fun o => (injectOutlet t o s).tileOf t != s.tileOf t)
/-- Stream `sid` can start or make its next access. -/
def streamMoves (s : State) (sid : Nat) (x : Stream) : Bool :=
  (secRuns s x.sec && mayStart s x) || (streamAccess sid .clean .clean s).streamOf sid != s.streamOf sid ||
    (readServed sid .clean .clean s).streamOf sid != s.streamOf sid
/-- The units that take a packet that has come to its port. -/
def takers : List (Nat → State → Host.Outcome State Fault Refusal) :=
  [execInletEntryArrival, execMtWrite, fun i => execMtSadd i 0 .clean, fun i => execMtIadd i 0 .clean, fun i => execMtMax i 0 .clean,
   fun i => execMtMin i 0 .clean, execMtClose, fun i => done ∘ mtArrive 3 i,
   execStallyArrival, execTallySigArrival, execLatchAcq, execLatchRel, execBarrierArrival, execFlagArrival, execDrainArrival,
   execFramePacketArrival]
/-- Packet `i` in flight is taken, in part or whole, or judged by a seam cell. -/
def packetMoves (s : State) (i : Nat) (p : Packet) : Bool :=
  (seamRefuses s p).isSome || takers.any (fun f => match f i s with
    | .next t => t.fab.net != s.fab.net || t.fab.streams != s.fab.streams
    | _ => false)
/-- Something of section `i` can go on: a tile, a stream, a packet, or a record that a tile has to send. -/
def sectionMoves (s : State) (i : Nat) (x : Section) : Bool :=
  (secTiles s x).any (tileMoves s) || s.strms.any (fun e => e.2.sec == i && streamMoves s e.1 e.2) ||
  (s.fab.net.zipIdx).any (fun e => e.1.sec == i && packetMoves s e.2 e.1) ||
  (s.fab.tx.any (fun p => p.sec == i) && (nextTx s).isSome) ||
  x.osets.any (fun e => (flagSend (e.1 / 8) (e.1 % 8) s).fab.net.length != s.fab.net.length)

/-- The cycle does not count towards the limit (13 R330, 14 R354). -/
def notCounted (s : State) (i : Nat) (x : Section) : Bool :=
  s.hbm.reqs.any (fun q => q.sec == i) || s.strms.any (fun e => e.2.sec == i && streamWaits s e.2) ||
  (secTiles s x).any (watchBlocked s) || (secRegions x).any (fun r => (s.regionOf r).gated) || atChannel s i

/-- The progress counter of a section after one tick: 40 ns hold one cycle of the origin die for each 25 MHz of its FCLK (13
R329).  What can go on makes its progress event within those cycles, in the commands that the tick stands between, so that only a
section that nothing of can go on counts them (13 R331; DEDUCED, log 150). -/
def tickSection (s : State) (i : Nat) (x : Section) : Section :=
  let c := s.clkOf (x.origin / 16)
  if x.phase = .running ∧ c.stopped = false ∧ notCounted s i x = false ∧ sectionMoves s i x = false then { x with progress := x.progress + c.fclk } else x
/-- The idle times of tiles and streams after one tick. -/
def tickTile (s : State) (t : Nat) (x : Tile) : Tile := { x with idle := if tileWaits s t then x.idle + 1 else 0 }
def tickStream (s : State) (x : Stream) : Stream := { x with idle := if streamWaits s x then x.idle + 1 else 0 }

/-! ### DEADLOCK and TIMEOUT (13 R329, R332 to R334) -/

/-- Work is pending. -/
def workPending (s : State) (i : Nat) (x : Section) : Bool :=
  (secTiles s x).any (fun t => (s.tileOf t).sec == i && (s.tileOf t).phase != .ended) ||
  s.strms.any (fun e => e.2.sec == i && e.2.phase != .done) ||
  !(x.flagWant.all (fun k => x.flagDone.get false k)) || decide (x.barrier < x.barrierWant)

/-- The tiles of a section in order of d, then x, then y. -/
def tilesInOrder (s : State) (x : Section) : List Nat := (upTo 4608).filter (fun t => (secTiles s x).contains t)
/-- The first of them that has not completed ENDSEC, and their number. -/
def tilesPending (s : State) (i : Nat) (x : Section) : List Nat :=
  (tilesInOrder s x).filter (fun t => (s.tileOf t).sec == i && (s.tileOf t).phase != .ended)
/-- What tile `t` waits for: its first empty inlet, or else the code of its first full outlet. -/
def waitPlace (s : State) (t : Nat) : Nat :=
  match (upTo 4).find? (fun n => (emptyInlets s t).contains n), fullOutlets s t with
  | some n, _ => n
  | none, o :: _ => Config.outletCode o
  | none, [] => Config.outletCode 4

/-- The snapshot (13 R332); what it gives of a tile when none is left is open. -/
def sectionSnapshot (s : State) (i : Nat) (x : Section) (st : Status) : Ev :=
  let ts := tilesPending s i x
  let strs := (s.strms.filter (fun e => e.2.sec == i && e.2.phase != .done)).length
  let first : Nat × Nat × Nat := match ts with
    | t :: _ => (epOf t, (s.tileOf t).pc, waitPlace s t)
    | [] => (0xFFFF, Config.freeNat s.free, Config.freeNat (s.free + 1))
  { type := 0x04, status := statusCode st, unit := first.1, tag := x.tag % 65536, addr := x.origin,
    body := leBytes first.1 4 ++ leBytes first.2.1 4 ++ leBytes first.2.2 4 ++ leBytes ts.length 4 ++ leBytes strs 4 }

/-- A monitor ends section `i` (13 R332): the snapshot goes to the lease and its work stops. -/
def monitorEnds (i : Nat) (x : Section) (st : Status) (s : State) : State :=
  verdictOn ({ s with free := s.free + 2 }.eventLease (sectionSnapshot s i x st) x.lease) i st

/-- The counter's limit (13 R329). -/
def progressMax : Nat := 2 ^ 20

/-- The section's wall time exceeds its limit; 25 ticks make 1 µs, and a limit of 0 disables the check (13 R334). -/
def timedOut (s : State) (x : Section) : Bool := x.limitUs != 0 && decide (x.limitUs * 25 < s.sclk - x.started)

/-- PROGRESS_LIMIT (13 R329); a TIMEOUT of the same cycle goes first (13 R333). -/
def execProgressLimit (sec : Nat) (s : State) : Host.Outcome State Fault Refusal :=
  done (match s.secOf sec with
  | some x =>
    if x.phase = .running ∧ progressMax ≤ x.progress ∧ workPending s sec x = true then
      monitorEnds sec x (if timedOut s x then .timeout else .deadlock) s else s
  | none => s)

/-- SECTION_TIMEOUT (13 R334). -/
def execSectionTimeout (sec : Nat) (s : State) : Host.Outcome State Fault Refusal :=
  done (match s.secOf sec with
  | some x =>
    if x.phase = .running ∧ timedOut s x = true then monitorEnds sec x .timeout s else s
  | none => s)

/-! ### Idle regions (09 R231, R232, 20 R490 to R492) -/

/-- The section that runs on a region. -/
def sectionOn (s : State) (r : Nat) : Option (Nat × Section) :=
  s.secs.find? (fun e => e.2.phase == .running && (secRegions e.2).contains r)
/-- Ticks of the section's lend threshold. -/
def lendTicks (x : Section) : Nat := x.lendUs * 25
/-- The fetch engine of memory tile `t` reports idle, or has no stream of section `i` left. -/
def fetchIdle (s : State) (i n t : Nat) : Bool :=
  let mine := s.strms.filter (fun e => e.2.sec == i && e.2.tile == t && descEngine e.2.desc == 4 && e.2.phase != .done)
  mine.isEmpty || mine.any (fun e => streamWaits s e.2 && decide (n ≤ e.2.idle))
/-- Every compute tile and fetch engine of region `r` reports idle or has completed ENDSEC; `n` is the threshold in ticks. -/
def regionWaits (s : State) (i n r : Nat) : Bool :=
  (regionCTiles r).all (fun t => s.absent t || (s.tileOf t).phase == .ended || (tileWaits s t && decide (n ≤ (s.tileOf t).idle))) &&
  (regionMTiles r).all (fun t => s.absent t || fetchIdle s i n t)

/-- The regions of a region's die. -/
def groupDie (r : Nat) : List Nat := (upTo 16).map (16 * regionDie r + ·)
/-- Region `k` may have the credit of region `r` (20 R491): another duty-limited region of the die, of the same lease where lending
between leases is forbidden. -/
def mayBorrow (s : State) (r k : Nat) : Bool :=
  k != r && regionDie k == regionDie r && decide ((s.regionOf k).duty < 16) && !(s.regionOf k).gated &&
  (!(lendForbidden s) || (s.regionOf k).resident == (s.regionOf r).resident)
/-- The credit of region `r` is spent on the duty limits of other regions of its die (20 R491), by amounts that the spec leaves to
Temper: free values (log 156). -/
def spendCredit (r : Nat) (s : State) : State :=
  (groupDie r).foldl (fun s k =>
    if mayBorrow s r k then
      s.drew.updRegion k (fun y => { y with duty := y.duty + Config.freeNat s.free % (17 - y.duty), lender := some r })
    else s) s

/-- REGION_IDLE_REPORT (09 R231, 20 R491): the region reports idle, is clock-gated, and its credit goes to its die's pool. -/
def execRegionIdleReport (region : Nat) (s : State) : Host.Outcome State Fault Refusal :=
  done (match sectionOn s region with
  | some (i, x) =>
    if regionWaits s i (lendTicks x) region then
      spendCredit region (s.updRegion region (fun y => { y with idle := true, gated := true, lent := true, lender := none }))
    else s
  | none => s)

/-- REGION_UNGATE (20 R492): the region wakes at the duty that the die's credits allow, m of 16. -/
def execRegionUngate (region : Nat) (s : State) : Host.Outcome State Fault Refusal :=
  done (match sectionOn s region with
  | some (i, _) =>
    if (s.regionOf region).gated && !(regionWaits s i 0 region) then
      s.drew.updRegion region (fun y => { y with idle := false, gated := false, duty := Config.freeNat s.free % 16 + 1 })
    else s
  | none => s)

/-- The regions that region `r` lent to give its credit back, their duty lowered as needed: by a free value (20 R492, log 156). -/
def takeBack (r : Nat) (s : State) : State :=
  (groupDie r).foldl (fun s k =>
    if (s.regionOf k).lender = some r then
      s.drew.updRegion k (fun y => { y with duty := y.duty - Config.freeNat s.free % y.duty, lender := none })
    else s) s

/-- BUDGET_RECALL (09 R232, 20 R492): a woken region has its full credit again. -/
def execBudgetRecall (region : Nat) (s : State) : Host.Outcome State Fault Refusal :=
  done (if (s.regionOf region).lent && !((s.regionOf region).gated) then
    takeBack region (s.updRegion region (fun y => { y with duty := 16, lent := false, lender := none }))
  else s)

end Sys2Proof.Machine
end

