-- ==== Sys2Proof/Machine/Security.lean ====
section
/-! DEFINITION. Random numbers, SPDM and IDE, and the debug unlock (chapter 19). -/
namespace Sys2Proof.Machine

/-! ### Random numbers (19 R456, R457) -/

/-- DRBG_RESEED (19 R456): after 2^16 generate requests or 1 s. -/
def execDrbgReseed (s : State) : Host.Outcome State Fault Refusal :=
  done (if drbgOk s && (decide (65536 ≤ s.sec.drbgReqs) || decide (second ≤ s.sclk - s.sec.drbgAt)) then
    { s with sec := { s.sec with drbgReqs := 0, drbgAt := s.sclk } } else s)

/-- ENTROPY_HEALTH_FAIL (19 R457): the DRBG stops generating. -/
def execEntropyHealthFail (s : State) : Host.Outcome State Fault Refusal :=
  done (if s.mod.standby then { s with sec := { s.sec with entropyFail := true } } else s)

/-- ENTROPY_RESTART (19 R457): the bit clears once the start-up tests pass again. -/
def execEntropyRestart (pass : Bool) (s : State) : Host.Outcome State Fault Refusal :=
  done (if s.sec.entropyFail && pass then
    { s with sec := { s.sec with entropyFail := false, seeded := true, drbgReqs := 0, drbgAt := s.sclk } } else s)

/-! ### IDE (19 R464) -/

/-- Set IDE stream `k` of a port. -/
def setIde (s : State) (port k : Nat) (x : Ide) : State :=
  s.setPort port { s.portOf port with ide := (s.portOf port).ide.set {} k x }

/-- IDE_INTEGRITY_FAIL (19 R464): the stream becomes Insecure and the steward is told. -/
def execIdeIntegrityFail (port stream : Nat) (s : State) : Host.Outcome State Fault Refusal :=
  let x := (s.portOf port).ide.get {} stream
  done (if x.secure then
    (setIde s port stream { x with secure := false, insecure := true }).eventSteward
      { type := 0x06, body := leBytes 1 1 ++ leBytes port 1 }
  else s)

/-- A PF's DOE mailbox answers: its link is up and it is ready (21 R504). -/
def doeOpen (s : State) (port : Nat) : Bool := (s.portOf port).linkUp && (s.fnOf (257 * port)).ready

/-- IDE_KM (19 R464): inside an SPDM session a stream is keyed. -/
def execIdeKm (port stream base limit : Nat) (s : State) : Host.Outcome State Fault Refusal :=
  done (if !(doeOpen s port) then s
  else if (s.portOf port).spdm = .session && decide (stream < 5) && drbgOk s then
    (((setIde s port stream { secure := true, base := base, limit := limit }).drewRandom).drainPort port).emit (.doe port 0x100 true [])
  else s.emit (.doe port 0x100 false []))

/-! ### SPDM (19 R462, R463, R471) -/

/-- SPDM error codes (DSP0274, log 14): InvalidRequest, UnexpectedRequest, Unspecified. -/
def spdmInvalid : Nat := 0x01
def spdmUnexpected : Nat := 0x04
def spdmUnspecified : Nat := 0x05

/-- An SPDM error response: kind 0x7F with its code. -/
def spdmError (port code : Nat) (s : State) : State := s.emit (.doe port 0x7F false (leBytes code 1))
/-- An SPDM response of a request's kind. -/
def spdmOk (port kind : Nat) (data : List Byte) (s : State) : State := s.emit (.doe port kind true data)
/-- The connection reaches a state. -/
def setSpdm (port : Nat) (x : SpdmState) (s : State) : State := s.setPort port { s.portOf port with spdm := x }

/-- Algorithms are negotiated. -/
def negotiated (s : State) (port : Nat) : Bool :=
  match (s.portOf port).spdm with
  | .negotiated => true
  | .handshake => true
  | .session => true
  | _ => false

/-- An SPDM request on a port whose DOE answers, in a state that allows it. -/
def spdmReq (port : Nat) (allowed : Bool) (act : State → State) (s : State) : State :=
  if !(doeOpen s port) then s else if allowed then act s else spdmError port spdmUnexpected s

/-- GET_VERSION: SPDM 1.2; the connection begins again. -/
def execGetVersion (port : Nat) (s : State) : Host.Outcome State Fault Refusal :=
  done (spdmReq port true (fun s => setSpdm port .version (spdmOk port 0x04 (leBytes 0x12 1) s)) s)

/-- GET_CAPABILITIES. -/
def execGetCapabilities (port : Nat) (s : State) : Host.Outcome State Fault Refusal :=
  done (spdmReq port ((s.portOf port).spdm == .version)
    (fun s => setSpdm port .capabilities (spdmOk port 0x61 [] s)) s)

/-- NEGOTIATE_ALGORITHMS: only ECDSA P-384, SHA-384 and AES-256-GCM; `offered` says that the request has all three. -/
def execNegotiateAlgorithms (port : Nat) (offered : Bool) (s : State) : Host.Outcome State Fault Refusal :=
  done (spdmReq port ((s.portOf port).spdm == .capabilities) (fun s =>
    if offered then setSpdm port .negotiated (spdmOk port 0x63 [] s) else spdmError port spdmInvalid s) s)

/-- No key is derived while debug is open (19 R471); a request that needs a nonce fails while the DRBG is stopped (R457). -/
def spdmSigned (port : Nat) (act : State → State) (s : State) : State :=
  if s.sec.debugUnlocked then spdmError port spdmUnspecified s
  else if !(drbgOk s) then (spdmError port (Config.freeNat s.free % 256) s).drew
  else act s.drewRandom

/-- Certificates and signatures, by kind and the state's counter: their private keys are no part of the model. -/
def signedBy (s : State) (kind : Nat) : List Byte := beBytes (Config.signedBytes kind s.free).toNat 96

/-- GET_DIGESTS (19 R463): the chains of slots 0 and 1. -/
def execGetDigests (port : Nat) (s : State) : Host.Outcome State Fault Refusal :=
  done (spdmReq port (negotiated s port) (fun s =>
    (spdmOk port 0x01 (leBytes 0x03 1 ++ beBytes (sha384 (signedBy s 0)).toNat 48 ++
      beBytes (sha384 (signedBy s 1)).toNat 48) s).drew) s)

/-- GET_CERTIFICATE (19 R463): slot 0 the identity chain, slot 1 the alias key's. -/
def execGetCertificate (port slot : Nat) (s : State) : Host.Outcome State Fault Refusal :=
  done (spdmReq port (negotiated s port) (fun s =>
    if slot < 2 then (spdmOk port 0x02 (signedBy s slot) s).drew else spdmError port spdmInvalid s) s)

/-- CHALLENGE (19 R463, R471): signed with the alias key. -/
def execChallenge (port slot : Nat) (s : State) : Host.Outcome State Fault Refusal :=
  done (spdmReq port (negotiated s port) (fun s =>
    if slot < 2 then spdmSigned port (fun s => spdmOk port 0x03 (signedBy s 2) s) s else spdmError port spdmInvalid s) s)

/-- Digest, version and svn of an image, or zeros for none (19 Table 19.3). -/
def imgMeasure (img : List Byte) : List Byte :=
  if img.isEmpty then leBytes 0 54
  else beBytes (sha384 img).toNat 48 ++ leBytes (imgVersion img) 4 ++ leBytes (imgSvn img) 2

/-- The measurements of Table 19.3.  Where the base hub configuration stands in an image is firmware's: its digest is a
free value.  The order of the fields in indices 5 and 6 is log 14's. -/
def measurement (s : State) (index : Nat) : Option (List Byte) :=
  match index with
  | 1 => some (beBytes Config.bootRomDigest.toNat 48)
  | 2 => some (imgMeasure s.boot.running)
  | 3 => some (imgMeasure (s.boot.slots.get {} (inactiveSlot s)).image)
  | 4 => some (beBytes ((Config.random s.free).truncate 384).toNat 48)
  | 5 => some (leBytes s.sec.floor 4 ++ leBytes (fusedFloor s) 4 ++ leBytes s.sec.policy.toNat 4 ++
      leBytes (b2n s.sec.lock) 4 ++ leBytes (b2n s.sec.debugUnlocked) 4)
  | 6 => some ((upTo 4).flatMap (fun n => (upTo 5).flatMap (fun k =>
      leBytes (b2n (((s.portOf n).ide.get {} k).secure)) 1)))
  | _ => none

/-- GET_MEASUREMENTS (19 R463, R471). -/
def execGetMeasurements (port index : Nat) (s : State) : Host.Outcome State Fault Refusal :=
  done (spdmReq port (negotiated s port) (fun s =>
    match measurement s index with
    | none => spdmError port spdmInvalid s
    | some m => spdmSigned port (fun s' => spdmOk port 0x60 (m ++ signedBy s' 3) s') s) s)

/-- KEY_EXCHANGE (19 R462). -/
def execKeyExchange (port : Nat) (s : State) : Host.Outcome State Fault Refusal :=
  done (spdmReq port (negotiated s port) (fun s =>
    if !(drbgOk s) then (spdmError port (Config.freeNat s.free % 256) s).drew
    else setSpdm port .handshake ((spdmOk port 0x64 (signedBy s 4) s).drewRandom)) s)

/-- FINISH (19 R462): the session stands when the requester's message verifies. -/
def execFinish (port : Nat) (verified : Bool) (s : State) : Host.Outcome State Fault Refusal :=
  done (spdmReq port ((s.portOf port).spdm == .handshake) (fun s =>
    if verified then setSpdm port .session (spdmOk port 0x65 [] s)
    else setSpdm port .negotiated (spdmError port spdmInvalid s)) s)

/-- END_SESSION (19 R462). -/
def execEndSession (port : Nat) (s : State) : Host.Outcome State Fault Refusal :=
  done (spdmReq port ((s.portOf port).spdm == .session)
    (fun s => setSpdm port .negotiated (spdmOk port 0x6C [] s)) s)

/-! ### Debug unlock (19 R468 to R470) -/

/-- The 48 challenge bytes (19 Table 19.4); the serial number is bytes 0 to 7 of page 0 (log 15). -/
def challengeBytes (s : State) : List Byte :=
  leBytes s.random.toNat 32 ++ slice ((pageRead 0 (s.ras.pages.get {} 0)).getD blankContent) 0 8 ++
    leBytes s.ras.bootCount.toNat 4 ++ leBytes (imgVersion s.boot.running) 4

/-- DEBUG_UNLOCK step 0 (19 R468): a new challenge voids any earlier one. -/
def execDebugUnlockRequest (fn : Nat) (seq : Word) (s : State) : Host.Outcome State Fault Refusal :=
  done (onCmd fn seq 0x7F (some 0) (fun _ s =>
    if !(drbgOk s) then fail fn seq .busy s
    else
      let c := challengeBytes s
      let s1 := s.drewRandom
      reply fn seq c { s1 with sec := { s1.sec with challenge := some (c, s.sclk) } }) s)

/-- The answer verifies: under the image's debug key, whose hash is fused (19 R468). -/
def answerOk (s : State) (c answer : List Byte) : Bool :=
  let key := beBytes s.sec.dbgKey.toNat 96
  sha384 key == s.sec.dbgKeyHash &&
    ecdsaOk (beNat (slice key 0 48)) (beNat (slice key 48 48)) (sha384 c) (beNat (slice answer 0 48))
      (beNat (slice answer 48 48))

/-- End every section with ABORTED and every bound program (19 R470 step 1). -/
def endEverything (s : State) : State :=
  let s1 := (s.secs.filter (fun e => e.2.phase == .running || e.2.phase == .ending)).foldl
    (fun s e => endSection s e.1 (endStatus s e.2 .aborted)) s
  let s2 := s1.bound.foldl (fun s e =>
    settleProg (stopProg s e.1 (e.2.runs + 1) e.2.lastIssued .aborted) e.1) s1
  let s3 := s2.secs.foldl (fun s e => cancelSection s e.1) s2
  (upTo s3.nRegions).foldl (fun s r =>
    s.updRegion r (fun x => { x with st := .idle, idlePending := false, failPending := false })) s3

/-- Close a lease by a debug unlock (19 R470 step 2); the owner of one that closes already hears of its end if it heard of the close. -/
def closeForDebug (s : State) (l : Nat) : State :=
  let reach := if (s.leaseOf l).st = .closing ∧ (s.leaseOf l).told = true then [(s.leaseOf l).owner] else reachOf s l
  let s1 := if (s.leaseOf l).st = .closing then s else startClosing s l 5 reach
  let s2 := freeLease s1 l reach
  (s2.host.flights.filter (fun x => x.wait == .closing l)).foldl (fun s x => finishCmd s x.fn x.msg.seq .ok 0 []) s2

/-- The steps of R470. -/
def openDebug (s : State) : State :=
  let s1 := s.leaseIds.foldl closeForDebug (endEverything s)
  let ports := s1.host.ports.mapVals {} (fun _ p => { p with
    spdm := .start, ide := p.ide.mapVals {} (fun _ x => if x.secure then { x with secure := false, insecure := true } else x) })
  let s2 := (upTo s1.nRegions).foldl zeroiseRegion { s1 with host := { s1.host with ports := ports } }
  let s3 := { s2 with fab := {}, hbm := { s2.hbm with mem := [], poison := [], reqs := [] },
                      ras := { s2.ras with freePoison := [] },
                      seq := { s2.seq with chans := [] } }
  let s4 := { s3 with sec := { s3.sec with hubKey := s3.random, drbgReqs := 0, drbgAt := s.sclk, debugUnlocked := true,
                                           challenge := none } }
  s4.drew

/-- The lease whose HBM holds the answer: the steward's lowest OPEN lease (log 16). -/
def answerLease (s : State) (fn : Nat) : Option Nat := (s.openOf fn).head?

/-- DEBUG_UNLOCK step 1 (19 R469, R470). -/
def execDebugUnlockAnswer (fn : Nat) (seq : Word) (at_ : Nat) (f : Finding) (s : State) : Host.Outcome State Fault Refusal :=
  done (onCmd fn seq 0x7F (some 1) (fun b s0 =>
    let off := fieldAt b 16 8
    let s := match answerLease s0 fn with
      | some l => if s0.sec.policy.getLsbD 2 ∨ 8 ≤ s0.sec.rejected then s0 else fwRead l off 96 at_ f s0
      | none => s0
    let rejected := fun (s : State) => fail fn seq .tokenRejected
      { s with sec := { s.sec with challenge := none, rejected := s.sec.rejected + 1 } }
    if s.sec.policy.getLsbD 2 ∨ 8 ≤ s.sec.rejected then fail fn seq .locked s
    else match s.sec.challenge, answerLease s fn with
    | some (c, t0), some l =>
      if s.inLease l off 96 && decide (s.sclk - t0 ≤ 60 * second) && answerOk s c (s.hbmRead l off 96) then
        reply fn seq [] (openDebug s)
      else rejected s
    | _, _ => rejected s) s)

end Sys2Proof.Machine
end

