-- ==== Sys2Proof/Machine/Sequencer.lean ====
section
/-! DEFINITION. Section programs: binding and checking, the sequencer's instructions, run-ahead, FENCE, spill and fill, and the
commands that start, stop and observe programs, tallies and windows (chapter 12, 07 R181 to R183, 09 R213 to R216, R233, 10
R243 to R247, 15 R376, R380, R381, 16 Tables 16.10, 16.12, 16.13, 16.15). -/
namespace Sys2Proof.Machine

/-! ### Instruction fields (12 Table 12.10) -/

def iAmount (w : Nat) : Nat := natBits w 36 16
def iTally (w : Nat) : Nat := natBits w 52 6
def iRoll (w : Nat) : Bool := natBit w 51
def iOrigin (w : Nat) : Nat := natBits w 44 7
def iPredict (w : Nat) : Nat := natBits w 34 2
def iDest (w : Nat) : Nat := natBits w 22 12
def iRegion (w : Nat) : Nat := natBits w 51 7
def iScope (w : Nat) : Nat := natBits w 48 3
def iHbm (w : Nat) : Nat := natBits w 20 28 * 4096
/-- Opcode of an instruction word. -/
def iOpN (w : Nat) : Nat := natBits w 58 6

/-- Bits that an instruction's fields take, by opcode; 0 for a reserved opcode. -/
def iMask (op : Nat) : Nat :=
  let f (lo len : Nat) : Nat := (2 ^ len - 1) * 2 ^ lo
  f 58 6 + (match op with
    | 1 => f 52 6 + f 51 1 + f 44 7
    | 2 => f 52 6 + f 36 16
    | 3 => f 52 6 + f 36 16
    | 4 => f 52 6 + f 36 16 + f 34 2 + f 22 12
    | 5 => f 36 16 + f 22 12
    | 7 => f 0 32
    | 8 => f 51 7 + f 48 3 + f 20 28
    | 9 => f 51 7 + f 48 3 + f 20 28
    | _ => 0)
/-- The opcode is reserved, a reserved bit is set, or a field holds a reserved value. -/
def iReserved (w : Nat) : Bool :=
  let op := iOpN w
  op == 0 || decide (0x0A < op) || (w &&& iMask op) != w || (op == 4 && iPredict w == 3) ||
    ((op == 8 || op == 9) && decide (2 < iScope w))

/-- HALT, as which issue past the last instruction acts (12 R312). -/
def haltWord : Nat := 0x0A * 2 ^ 58
/-- The instruction at an index. -/
def instrAt (code : List DWord) (pc : Nat) : Nat := ((code.map BitVec.toNat)[pc]?).getD haltWord

/-! ### SEQ_START (12 R312, R322) -/

/-- An instruction of a program of `n` words that SEQ_START refuses by itself. -/
def instrBad (s : State) (l n i w : Nat) : Bool :=
  iReserved w || (iOpN w == 4 && decide (n ≤ iDest w)) || (iOpN w == 5 && (decide (n ≤ iDest w) || decide (iDest w ≤ i))) ||
  ((iOpN w == 2 || iOpN w == 3 || iOpN w == 4) && decide ((s.leaseOf l).tallies ≤ iTally w)) ||
  (iOpN w == 1 && !((s.leaseOf l).slots.get none (iTally w)).any (fun k => !k.image.isEmpty))
/-- The loops of a program break the nesting rules of R152. -/
def loopsBad (ws : List Nat) : Bool :=
  let at_ (op : Nat) : List (Nat × Nat × Nat) :=
    (ws.zipIdx).filterMap (fun e => if iOpN e.1 = op then some (e.2, iDest e.1, e.2) else none)
  let ls := at_ 5
  ls.any (fun l => ls.any (fun m => decide (m.1 < l.1) && decide (l.1 ≤ m.2.1) && decide (m.2.1 < l.2.1)) ||
    decide (4 ≤ (loopsAt ls l.1).length)) ||
  (at_ 4).any (fun r => loopsAt ls r.1 != loopsAt ls r.2.1)
/-- The program is refused. -/
def programBad (s : State) (l : Nat) (ws : List Nat) : Bool :=
  (ws.zipIdx).any (fun e => instrBad s l ws.length e.2 e.1) || loopsBad ws

/-- The words of a program in lease memory. -/
def programWords (s : State) (l off n : Nat) : List DWord :=
  (upTo n).map (fun i => BitVec.ofNat 64 (leNat (s.hbmRead l (off + 8 * i) 8)))
/-- The lowest handle not in use. -/
def freeHandle (s : State) : Nat := ((upTo 1025).find? (fun h => (s.progOf h).isNone)).getD 0
/-- The lowest free hardware context. -/
def freeContext (s : State) : Option Nat := (upTo 128).find? (fun c => (s.seq.contexts.get none c).isNone)
/-- Give program `h` the hardware context `c`. -/
def takeContext (s : State) (h : Nat) (c : Option Nat) : State :=
  match c with
  | some k => { s with seq := { s.seq with contexts := s.seq.contexts.set none k (some h) } }
  | none => s

/-- SEQ_START (12 R312, R322). -/
def execSeqStart (fn : Nat) (seq : Word) (at_ : Nat) (f : Finding) (s : State) : Host.Outcome State Fault Refusal :=
  done (onCmd fn seq 0x40 none (fun b s0 =>
    let l := msgLease b
    let off := fieldAt b 16 8
    let n := fieldAt b 24 2
    let s := if n ≤ 4096 then fwRead l off (8 * n) at_ f s0 else s0
    if n < 1 ∨ 4096 < n ∨ !(s.inLease l off (8 * n)) ∨ s.hbmAnyPoison l off (8 * n) = true then fail fn seq .badArg s
    else
      let code := programWords s l off n
      if programBad s l (code.map BitVec.toNat) then fail fn seq .badArg s
      else if 8 ≤ (s.bound.filter (fun e => e.2.lease == l)).length ∨ 1024 ≤ s.bound.length then fail fn seq .noSpace s
      else
        let h := freeHandle s
        let c := freeContext s
        let p : Prog := { lease := l, fn := fn, tag := fieldAt b 2 2, seq := seq, code := code, ctx := c }
        finishCmd (takeContext (s.setProg h (some p)) h c) fn seq .accepted 0 (leBytes h 2)) s)

/-! ### Issue (12 R311, R313, R321) -/

/-- The program may issue: none of a lease that has lost its owner does (17 R415). -/
def mayIssue (s : State) (p : Prog) : Bool :=
  (s.leaseOf p.lease).st != .draining && (s.leaseOf p.lease).st != .dormant && p.wait == .none && !p.suspended && !p.stopping && p.ctx.isSome && !s.quenched
/-- The program and its next instruction, when it may issue one with this opcode. -/
def issueOf (s : State) (h op : Nat) : Option (Prog × Nat) :=
  match s.progOf h with
  | none => none
  | some p =>
    let w := instrAt p.code p.pc
    if mayIssue s p ∧ iOpN w = op then some ({ p with lastIssued := p.pc }, w) else none

/-- The program past instruction `cp`, to `nxt` unless a loop body ends. -/
def advanced (p : Prog) (cp nxt : Nat) : Prog :=
  let n := loopEnd cp nxt p.loops
  { p with pc := n.1, loops := n.2, wait := .none }
/-- The program past the instruction it is at. -/
def next (p : Prog) : Prog := advanced p p.pc (p.pc + 1)
/-- Issue an instruction of opcode `op`. -/
def onIssue (h op : Nat) (act : Prog → Nat → State → State) (s : State) : State :=
  match issueOf s h op with
  | some (p, w) => act p w s
  | none => s
/-- An instruction stops the program (12 R321). -/
def stopAt (h : Nat) (p : Prog) (st : Status) (s : State) : State :=
  settleProg (stopProg (s.setProg h (some p)) h (p.runs + 1) p.pc st) h

/-! ### RUN (12 R308 to R311) -/

/-- The section of RUN `w` at index `idx`, or the status that refuses it. -/
def newSection (s : State) (h : Nat) (p : Prog) (idx w : Nat) : Status × Section :=
  let slot := (s.leaseOf p.lease).slots.get none (iTally w)
  let img := (slot.map (fun k => k.image)).getD []
  let r := runChecks s p.lease img (iOrigin w)
  (r.1, { prog := h, lease := p.lease, slot := iTally w, instr := idx, roll := iRoll w, origin := iOrigin w, placed := r.2,
          since := s.sclk,
          remapped := r.2.any (fun e => (slot.map (fun k => k.steered)).getD [] |>.contains e.2) })

/-- The section with what its RUN's issue decides: its tag, and the section that it rolls behind (11 R281). -/
def issuedSection (s : State) (p : Prog) (x : Section) : Section :=
  { x with tag := p.runs + 1, behind := if x.roll then p.rollFrom.bind (fun k => (s.secOf k).map (fun _ => k)) else none }

/-- A RUN that passes its checks makes its section, or takes over the run-ahead's, and waits. -/
def placeRun (h : Nat) (p : Prog) (x : Section) (s : State) : State :=
  let old := p.aheadSec.bind (fun k => (s.secOf k).map (fun y => (k, y)))
  let i := match old with
    | some (k, _) => k
    | none => s.seq.nextSec
  let y := match old with
    | some (_, y) => y
    | none => x
  let s1 := { s with seq := { s.seq with nextSec := if old.isSome then s.seq.nextSec else s.seq.nextSec + 1 } }
  let s2 := s1.setSec i (some (issuedSection s p y))
  let s3 := s2.setProg h (some { p with wait := .run, runSec := i, runs := p.runs + 1 })
  if (secRegions y).all (fun r => (s.regionOf r).resident == some p.lease) then s3
  else { s3 with seq := { s3.seq with runQueue := s3.seq.runQueue ++ [h] } }

/-- RUN (12 R309). -/
def execRun (h : Nat) (s : State) : Host.Outcome State Fault Refusal :=
  done (onIssue h 1 (fun p w s =>
    let r := newSection s h p p.pc w
    if r.1 = .ok then placeRun h p r.2 s
    else settleProg (stopProg (s.setProg h (some { p with runs := p.runs + 1 })) h (p.runs + 1) p.pc r.1) h) s)

/-! ### WAIT, SIG, LOOP, NOTIFY, HALT (09 R213 to R215, 12 R314, R316, R318) -/

/-- WAIT (09 R215): satisfied at once, or pending. -/
def execWait (h : Nat) (s : State) : Host.Outcome State Fault Refusal :=
  done (onIssue h 2 (fun p w s =>
    let q := { p with rollFrom := none }
    let v := ((s.leaseOf p.lease).htally.get {} (iTally w)).value
    if waitHolds v (BitVec.ofNat 16 (iAmount w)) then s.setProg h (some (next q))
    else s.setProg h (some { q with wait := .wait (iTally w) (iAmount w) })) s)

/-- WAIT_SATISFIED (09 R214). -/
def execWaitSatisfied (h : Nat) (s : State) : Host.Outcome State Fault Refusal :=
  done (match s.progOf h with
  | some p => if p.wait = .satisfied then s.setProg h (some (next p)) else s
  | none => s)

/-- SIG (09 R213): adds its amount at issue. -/
def execSig (h : Nat) (s : State) : Host.Outcome State Fault Refusal :=
  done (onIssue h 3 (fun p w s => (s.setProg h (some (next p))).addHTally p.lease (iTally w) (iAmount w)) s)

/-- LOOP (12 R314). -/
def execLoop (h : Nat) (s : State) : Host.Outcome State Fault Refusal :=
  done (onIssue h 5 (fun p w s =>
    s.setProg h (some (if iAmount w = 0 then advanced p (iDest w) (iDest w + 1)
      else { p with pc := p.pc + 1, loops := { first := p.pc + 1, last := iDest w, left := iAmount w } :: p.loops }))) s)

/-- The NOTIFY record (12 R316, 16 Table 16.4). -/
def notifyEntry (h : Nat) (p : Prog) (value : Nat) : Entry :=
  replyEntry 1 (if p.poisoned then .poisoned else .ok) p.flags.toNat 0x40 p.tag p.lease p.seq.toNat
    (leBytes value 4 ++ leBytes p.pc 2 ++ leBytes h 2)

/-- NOTIFY (12 R316). -/
def execNotify (h : Nat) (s : State) : Host.Outcome State Fault Refusal :=
  done (onIssue h 7 (fun p w s =>
    let s1 := s.setProg h (some (next p))
    if p.silent then s1 else s1.produce p.fn (notifyEntry h p (natBits w 0 32))) s)

/-- HALT (12 R318): the program is released once its sections have ended. -/
def execHalt (h : Nat) (s : State) : Host.Outcome State Fault Refusal :=
  done (onIssue h 0x0A (fun p _ s => settleProg (s.setProg h (some { p with wait := .halt })) h) s)

/-! ### BR and run-ahead (12 R319, R320, 10 R243 to R247) -/

/-- BR (12 R320): it waits for every earlier section of its context. -/
def execBr (h : Nat) (s : State) : Host.Outcome State Fault Refusal :=
  done (onIssue h 4 (fun p _ s => s.setProg h (some { p with wait := .br })) s)

/-- The run-ahead commits: it becomes the RUN's prologue, and the records it held are sent (10 R246, R247). -/
def commitAhead (i : Nat) (s : State) : State :=
  match s.secOf i with
  | none => s
  | some x =>
    if x.phase = .ahead then
      x.heldEvs.foldl (fun s e => s.eventLease e x.lease) (s.setSec i (some { x with phase := .prologue, heldEvs := [] }))
    else s

/-- BR_EVALUATE (12 R320, 09 R216). -/
def execBrEvaluate (h : Nat) (s : State) : Host.Outcome State Fault Refusal :=
  done (match s.progOf h with
  | none => s
  | some p =>
    if p.wait = .br ∧ p.suspended = false ∧ (s.runningOf h).isEmpty = true then
      let w := instrAt p.code p.pc
      let taken := waitHolds ((s.leaseOf p.lease).htally.get {} (iTally w)).value (BitVec.ofNat 16 (iAmount w))
      let right := iPredict w == (if taken then 1 else 2)
      let s1 := match p.aheadSec with
        | none => s
        | some i => if right then commitAhead i s else cancelSection s i
      match s1.progOf h with
      | none => s1
      | some q => s1.setProg h (some (if taken then { q with pc := iDest w, wait := .none } else next q))
    else s)

/-- The index of the first RUN on a path, with no unsatisfied WAIT, SPILL, FILL, HALT or BR before it; `n` bounds the walk,
which goes through the body of a LOOP once. -/
def firstRun (s : State) (p : Prog) (pc : Nat) (ls : List Loop) : Nat → Option Nat
  | 0 => none
  | n + 1 =>
    let w := instrAt p.code pc
    let on := loopEnd pc (pc + 1) ls
    match iOpN w with
    | 1 => some pc
    | 2 =>
      if waitHolds ((s.leaseOf p.lease).htally.get {} (iTally w)).value (BitVec.ofNat 16 (iAmount w)) then
        firstRun s p on.1 on.2 n
      else none
    | 5 =>
      if iAmount w = 0 then let r := loopEnd (iDest w) (iDest w + 1) ls; firstRun s p r.1 r.2 n
      else firstRun s p (pc + 1) ({ first := pc + 1, last := iDest w, left := 1 } :: ls) n
    | 3 => firstRun s p on.1 on.2 n
    | 6 => firstRun s p on.1 on.2 n
    | 7 => firstRun s p on.1 on.2 n
    | _ => none

/-- The RUN past an unresolved BR that its prediction names. -/
def predictedRun (s : State) (p : Prog) : Option Nat :=
  let w := instrAt p.code p.pc
  let on := loopEnd p.pc (p.pc + 1) p.loops
  match iPredict w with
  | 1 => firstRun s p (iDest w) p.loops (2 * p.code.length + 8)
  | 2 => firstRun s p on.1 on.2 (2 * p.code.length + 8)
  | _ => none

/-- The engines of the regions hold no other next descriptor set, and nothing is reserved or steered there (10 R242, 17 R408). -/
def aheadFree (s : State) (x : Section) : Bool :=
  s.secs.all (fun e => !((e.2.phase == .ahead || e.2.phase == .prologue) && sharesRegion e.2 x)) &&
  (secRegions x).all (fun r =>
    (reservedBy s r).all (fun k => k == x.prog) && !(s.regionOf r).steering && (s.regionOf r).emulation.isNone)

/-- RUN_AHEAD_START (10 R243). -/
def execRunAheadStart (h : Nat) (s : State) : Host.Outcome State Fault Refusal :=
  done (match s.progOf h with
  | none => s
  | some p =>
    if p.wait = .br ∧ p.suspended = false ∧ p.stopping = false ∧ p.aheadSec = none ∧ s.quenched = false then
      match predictedRun s p with
      | none => s
      | some idx =>
        let r := newSection s h p idx (instrAt p.code idx)
        if r.1 = .ok ∧ aheadFree s r.2 = true then
          let i := s.seq.nextSec
          let s1 := { s with seq := { s.seq with nextSec := i + 1 } }
          let s2 := s1.setSec i (some { r.2 with phase := .ahead })
          (prepareSection i (s2.setProg h (some { p with aheadSec := some i }))).markReady
        else s
    else s)

/-! ### FENCE (12 R315, 15 R380, R381) -/

/-- Window writes of program `h` that no port has sent. -/
def unsentOf (s : State) (h : Nat) : List Req := s.hbm.reqs.filter (fun q => q.isWindow && q.write && !q.served && q.prog == h)
/-- Window writes of ended sections of lease `l` that no port has sent. -/
def unsentEnded (s : State) (l : Nat) : List Req :=
  s.hbm.reqs.filter (fun q => q.isWindow && q.write && !q.served && q.lease == l && (s.secOf q.sec).isNone)

/-- FENCE (12 R315). -/
def execFence (h : Nat) (s : State) : Host.Outcome State Fault Refusal :=
  done (onIssue h 6 (fun p _ s => s.setProg h (some { p with wait := .fence, peerReads := [] })) s)

/-- The FENCE command (16 Table 16.12). -/
def execFenceCommand (fn : Nat) (seq : Word) (s : State) : Host.Outcome State Fault Refusal :=
  done (onCmd fn seq 0x44 none (fun b s =>
    let l := msgLease b
    let ws := (unsentEnded s l).map (fun q => q.id)
    let rs := dedup ((s.leaseOf l).peerWins ++ ((unsentEnded s l).filter (fun q => isPeer s l q.window)).map (fun q => q.window))
    if ws.isEmpty && rs.isEmpty then reply fn seq [] s else waitFor fn seq (.fence ws rs) s) s)

/-- The writes that a FENCE covers have been sent, and with `reads` no window of it is left to read. -/
def writesGone (s : State) (ids : List Nat) : Bool :=
  s.hbm.reqs.all (fun q => !(ids.contains q.id) || q.served)
/-- A program's FENCE has its sections ended and their writes sent. -/
def fenceWritten (s : State) (h : Nat) (p : Prog) : Bool :=
  p.wait == .fence && (s.runningOf h).isEmpty && (unsentOf s h).isEmpty

/-- FENCE_COMPLETE (12 R315, 16 Table 16.12). -/
def execFenceComplete (w : MoveWaiter) (s : State) : Host.Outcome State Fault Refusal :=
  done (match w with
  | .program h =>
    match s.progOf h with
    | none => s
    | some p => if fenceWritten s h p ∧ p.peerWins.all (fun k => p.peerReads.contains k) = true then
        s.setProg h (some (next p)) else s
  | .command fn seq =>
    match flightOf s fn seq with
    | none => s
    | some x =>
      match x.wait with
      | .fence ids [] => if writesGone s ids then reply fn seq [] s else s
      | _ => s)

/-- The zero-length read of a peer window: it is sent where it can be, and a failure is reported (15 R381). -/
def peerRead (l window : Nat) (ok : Bool) (s : State) : State :=
  let last := (s.leaseOf l).peerLast.get (0, 0) window
  let fault : Ev := { type := 0x05, status := 0x18, body := [BitVec.ofNat 8 window, 0, 0, 0] ++ leBytes (last.2 / 4 * 4) 4 }
  match leaseCanSend s l last.1 true with
  | some f =>
    let s1 := s.emit (.zeroRead f (last.1 / 4 * 4) (s.attr f last.1 true false false))
    if ok then s1 else s1.eventLease fault l
  | none => s.eventLease fault l

/-- FENCE_PEER_READ (15 R381): after the writes. -/
def execFencePeerRead (w : MoveWaiter) (window : Nat) (ok : Bool) (s : State) : Host.Outcome State Fault Refusal :=
  done (match w with
  | .program h =>
    match s.progOf h with
    | none => s
    | some p =>
      if fenceWritten s h p ∧ p.peerWins.contains window = true ∧ p.peerReads.contains window = false then
        (peerRead p.lease window ok s).setProg h (some { p with peerReads := p.peerReads ++ [window] })
      else s
  | .command fn seq =>
    match flightOf s fn seq with
    | none => s
    | some x =>
      match x.wait with
      | .fence ids rs =>
        if writesGone s ids ∧ rs.contains window = true then
          waitFor fn seq (.fence ids (rs.filter (fun k => k != window))) (peerRead (msgLease (entryBytes x.msg.bytes)) window ok s)
        else s
      | _ => s)

/-! ### Spill and fill (07 R181 to R183, 12 R317) -/

/-- Billets that a scope selects. -/
def scopeBillets (scope : Nat) : Nat := if scope = 0 then 7168 else if scope = 1 then 4096 else 3072
/-- The tiles of a scope in their order, with the bytes of their billets. -/
def scopeTiles (r scope : Nat) : List (Nat × Nat) :=
  (if scope = 1 then [] else (regionCTiles r).map (fun t => (t, 196608))) ++
  (if scope = 2 then [] else (regionMTiles r).map (fun t => (t, 2097152)))
/-- Each tile with its bytes and its offset in the image. -/
def withOffsets (off : Nat) : List (Nat × Nat) → List (Nat × Nat × Nat)
  | [] => []
  | (t, n) :: r => (t, n, off) :: withOffsets (off + n) r

/-- Copy keys [sk, sk + n) of a table to [dk, dk + n) of another. -/
def copyKeys {α : Type} [DecidableEq α] (d : α) (src : Table α) (sk : Nat) (dst : Table α) (dk n : Nat) : Table α :=
  mergeTable d (dst.keep (fun k => !(decide (dk ≤ k) && decide (k < dk + n))))
    ((src.filter (fun e => decide (sk ≤ e.1) && decide (e.1 < sk + n))).map (fun e => (dk + (e.1 - sk), e.2)))

/-- The bytes and marks of a region as its lease has them: in the tiles, or in the save area (17 R409). -/
structure Banks where
  sram : Table Byte
  poison : Table Bool
deriving DecidableEq, Repr
/-- The lease is resident on the region. -/
def residentOn (s : State) (l r : Nat) : Bool := (s.regionOf r).resident == some l
def banksOf (s : State) (l r : Nat) : Banks :=
  if residentOn s l r then ⟨s.fab.sram, s.fab.sramPoison⟩
  else match (s.leaseOf l).saves.get none r with
    | some v => ⟨v.sram, v.poison⟩
    | none => ⟨[], []⟩
def setBanks (s : State) (l r : Nat) (b : Banks) : State :=
  if residentOn s l r then (s.setSram b.sram).setSramPoison b.poison
  else s.updLease l (fun x =>
    let v : Saved := { (x.saves.get none r).getD {} with sram := b.sram, poison := b.poison }
    { x with saves := x.saves.set none r (some v) })

/-- Spill the billets of one tile; those of an absent tile give open bytes, by their place (log 155). -/
def spillTile (l r : Nat) (s : State) (e : Nat × Nat × Nat) : State :=
  let (t, n, o) := e
  if s.absent t then
    s.hbmWrite l o ((upTo n).map (fun i => Config.absentByte (regionPlace t) i))
  else
    let b := banksOf s l r
    (s.setHbmMem (copyKeys 0 b.sram (sramKey t 0) s.hbm.mem (hbmKey l o) n)).setHbmPoison
      (copyKeys false b.poison (lineKey t 0) s.hbm.poison (unitKey l o) (n / 64))
/-- Fill the billets of one tile; an absent tile takes none. -/
def fillTile (l r : Nat) (s : State) (e : Nat × Nat × Nat) : State :=
  let (t, n, o) := e
  if s.absent t then s
  else
    let b := banksOf s l r
    setBanks s l r ⟨copyKeys 0 s.hbm.mem (hbmKey l o) b.sram (sramKey t 0) n,
                    copyKeys false s.hbm.poison (unitKey l o) b.poison (lineKey t 0) (n / 64)⟩
/-- Carry out a spill or a fill. -/
def doMove (m : Move) (s : State) : State :=
  (withOffsets m.hbmOff (scopeTiles m.region m.scope)).foldl
    (if m.fill then fillTile m.lease m.region else spillTile m.lease m.region) s

/-- The region is the lease's, the scope is none of the reserved, and the range is aligned and in the lease's memory. -/
def moveOk (s : State) (m : Move) : Bool :=
  holdsRegion s m.lease m.region && decide (m.scope ≤ 2) && m.hbmOff % 4096 == 0 &&
    s.inLease m.lease m.hbmOff (4096 * scopeBillets m.scope)
/-- Sections of the lease that run, or are in prologue too. -/
def leaseRuns (s : State) (l : Nat) (prologue : Bool) : Bool :=
  s.secs.any (fun e => e.2.lease == l && (e.2.phase == .running || e.2.phase == .ending || (prologue && e.2.phase == .prologue)))

/-- A SPILL or FILL is issued. -/
def issueMove (h : Nat) (fill : Bool) (p : Prog) (w : Nat) (s : State) : State :=
  let m : Move := { fill := fill, lease := p.lease, region := iRegion w, scope := iScope w, hbmOff := iHbm w }
  if moveOk s m then s.setProg h (some { p with wait := .move, move := some m, rollFrom := none })
  else stopAt h p .badArg s
/-- SPILL (12 R317). -/
def execSpill (h : Nat) (s : State) : Host.Outcome State Fault Refusal := done (onIssue h 8 (issueMove h false) s)
/-- FILL (12 R317). -/
def execFill (h : Nat) (s : State) : Host.Outcome State Fault Refusal := done (onIssue h 9 (issueMove h true) s)

/-- BILLET_SPILL and BILLET_FILL (16 Table 16.10, 07 R183). -/
def moveCmd (fill : Bool) (fn : Nat) (seq : Word) (b : List Byte) (s : State) : State :=
  let m : Move := { fill := fill, lease := msgLease b, region := fieldAt b 8 1, scope := fieldAt b 9 1, hbmOff := fieldAt b 16 8 }
  if !(moveOk s m) then fail fn seq .badArg s
  else if leaseRuns s m.lease true then fail fn seq .busy s
  else updFlight s fn seq (fun y => { y with wait := .move, move := some m })
/-- BILLET_SPILL (07 R181). -/
def execBilletSpill (fn : Nat) (seq : Word) (s : State) : Host.Outcome State Fault Refusal :=
  done (onCmd fn seq 0x22 none (moveCmd false fn seq) s)
/-- BILLET_FILL (07 R181). -/
def execBilletFill (fn : Nat) (seq : Word) (s : State) : Host.Outcome State Fault Refusal :=
  done (onCmd fn seq 0x23 none (moveCmd true fn seq) s)

/-- Another context of the lease runs a section on the region. -/
def otherRuns (s : State) (h r : Nat) : Bool :=
  s.secs.any (fun e => e.2.prog != h && (e.2.phase == .running || e.2.phase == .ending) && (secRegions e.2).contains r)

/-- What a spill or fill finds in the line or unit at byte `at_` of its image (18 R425, R426). -/
def moveFinding (m : Move) (at_ tag : Nat) (f : Finding) (s : State) : State :=
  match (withOffsets 0 (scopeTiles m.region m.scope)).find? (fun e => decide (e.2.2 ≤ at_) && decide (at_ < e.2.2 + e.2.1)) with
  | none => s
  | some (t, _, o) =>
    if m.fill then hbmFinding m.lease (m.hbmOff + at_) 1 tag f s
    else if residentOn s m.lease m.region && !(s.absent t) then sramFinding t (at_ - o) 3 tag f s
    else s

/-- SPILL_FILL_COMPLETE (07 R182): the billets have moved. -/
def execSpillFillComplete (w : MoveWaiter) (at_ : Nat) (f : Finding) (s : State) : Host.Outcome State Fault Refusal :=
  done (match w with
  | .program h =>
    match s.progOf h with
    | none => s
    | some p =>
      match p.move with
      | some m =>
        if p.wait = .move ∧ (s.runningOf h).isEmpty = true ∧
            (residentOn s m.lease m.region && otherRuns s h m.region) = false then
          (doMove m (moveFinding m at_ 0 f s)).setProg h (some { next p with move := none })
        else s
      | none => s
  | .command fn seq =>
    match flightOf s fn seq with
    | none => s
    | some x =>
      match x.wait, x.move with
      | .move, some m =>
        if leaseRuns s m.lease false then s else reply fn seq (leBytes (scopeBillets m.scope) 4) (doMove m (moveFinding m at_ 0 f s))
      | _, _ => s)

/-! ### SEQ_STOP, SEQ_SUSPEND, SEQ_RESUME (16 Table 16.12) -/

/-- The program of a command's handle, when it is the lease's. -/
def cmdProg (s : State) (b : List Byte) : Option (Nat × Prog) :=
  let h := fieldAt b 8 2
  match s.progOf h with
  | some p => if p.lease = msgLease b then some (h, p) else none
  | none => none

/-- The regions on which sections of program `h` run. -/
def runningRegions (s : State) (h : Nat) : List Nat := dedup ((s.runningOf h).flatMap (fun e => secRegions e.2))

/-- SEQ_STOP (16 Table 16.12). -/
def execSeqStop (fn : Nat) (seq : Word) (s : State) : Host.Outcome State Fault Refusal :=
  done (onCmd fn seq 0x41 none (fun b s =>
    if 1 < fieldAt b 10 1 then fail fn seq .badArg s
    else match cmdProg s b with
    | none => fail fn seq .badArg s
    | some (h, p) =>
      let rs := if fieldAt b 10 1 = 1 then runningRegions s h else []
      let s1 := finishCmd (stopByHand h p s) fn seq .ok p.flags.toNat []
      settleProg (rs.foldl abortRegion s1) h) s)

/-- SEQ_SUSPEND (16 Table 16.12): a RUN that waits is issued again at the resume. -/
def execSeqSuspend (fn : Nat) (seq : Word) (s : State) : Host.Outcome State Fault Refusal :=
  done (onCmd fn seq 0x42 none (fun b s =>
    match cmdProg s b with
    | none => fail fn seq .badArg s
    | some (h, p) =>
      let q := { p with suspended := true }
      let s1 := cancelPending (s.setProg h (some (if p.wait = .run then { q with wait := .none, runs := p.runs - 1 } else q))) h
      if (s1.runningOf h).isEmpty then reply fn seq [] s1 else waitFor fn seq (.suspend h) s1) s)

/-- SEQ_RESUME (16 Table 16.12). -/
def execSeqResume (fn : Nat) (seq : Word) (s : State) : Host.Outcome State Fault Refusal :=
  done (onCmd fn seq 0x43 none (fun b s =>
    match cmdProg s b with
    | none => fail fn seq .badArg s
    | some (h, p) => reply fn seq [] (s.setProg h (some { p with suspended := false }))) s)

/-! ### CONTEXT_SWAP (12 R322) -/

/-- The program waits at a WAIT, a FENCE, a HALT or a RUN that R310 holds, with no prologue and no run-ahead. -/
def mayLeave (s : State) (h : Nat) (p : Prog) : Bool :=
  s.secs.all (fun e => e.2.prog != h || !(e.2.phase == .prologue || e.2.phase == .ahead)) &&
  (match p.wait with
   | .wait _ _ => true
   | .fence => true
   | .halt => true
   | .run => (s.secOf p.runSec).any (fun x => x.phase == .queued && !(s.seq.runQueue.contains h) && runHeld s p.runSec x)
   | _ => false)

/-- CONTEXT_SWAP (12 R322). -/
def execContextSwap (h : Nat) (restore : Bool) (s : State) : Host.Outcome State Fault Refusal :=
  done (match s.progOf h with
  | none => s
  | some p =>
    match p.ctx, restore with
    | some c, false =>
      if 128 < s.bound.length ∧ mayLeave s h p = true then
        let s1 := s.setProg h (some { p with ctx := none })
        { s1 with seq := { s1.seq with contexts := s1.seq.contexts.set none c none } }
      else s
    | none, true =>
      match freeContext s with
      | some c => takeContext (s.setProg h (some { p with ctx := some c })) h (some c)
      | none => s
    | _, _ => s)

/-! ### TALLY_READ and TALLY_SET (09 R233, 16 Table 16.13) -/

/-- What a tally command names: kind, index, and for a fabric tally its region and memory tile. -/
structure TallyArg where
  fabric : Bool
  index : Nat
  region : Nat
  tile : Nat
deriving DecidableEq, Repr
/-- The tally that a command names, when its arguments are in range. -/
def tallyArg (s : State) (b : List Byte) : Option TallyArg :=
  let l := msgLease b
  let k := fieldAt b 8 1
  let n := fieldAt b 9 1
  let r := fieldAt b 10 1
  let y := fieldAt b 11 1
  if k = 0 then
    if n < (s.leaseOf l).tallies ∧ r = 0 ∧ y = 0 then some ⟨false, n, 0, 0⟩ else none
  else if k = 1 ∧ n < 64 ∧ y < 8 ∧ holdsRegion s l r = true then some ⟨true, n, r, regionTile r 8 y⟩
  else none
/-- Value and tail counter; those of a region that the lease is not resident on lie in its save area. -/
def tallyValue (s : State) (l : Nat) (a : TallyArg) : Nat × Nat :=
  if !a.fabric then (((s.leaseOf l).htally.get {} a.index).value.toNat, 0)
  else if residentOn s l a.region then
    (((s.mtileOf a.tile).tally.get 0 a.index).toNat, (s.mtileOf a.tile).tail.get 0 a.index)
  else match (s.leaseOf l).saves.get none a.region with
    | some v => ((v.tally.get 0 (a.tile * 64 + a.index)).toNat, 0)
    | none => (0, 0)
/-- Write a tally by hand. -/
def putTally (l : Nat) (a : TallyArg) (v : Half) (s : State) : State :=
  if !a.fabric then s.setHTally l a.index v
  else if residentOn s l a.region then
    let m := s.mtileOf a.tile
    setTally a.tile a.index v (s.setMTile a.tile { m with tail := m.tail.set 0 a.index 0 })
  else s.updLease l (fun x =>
    let y := (x.saves.get none a.region).getD {}
    { x with saves := x.saves.set none a.region (some { y with tally := y.tally.set 0 (a.tile * 64 + a.index) v }) })
/-- Every bound context of the lease carries HAND_SET_TALLY (02 R44). -/
def markHandSet (l : Nat) (s : State) : State :=
  (s.bound.filter (fun e => e.2.lease == l)).foldl
    (fun s e => s.setProg e.1 (some { e.2 with flags := e.2.flags ||| 2 })) s

/-- TALLY_READ (09 R233). -/
def execTallyRead (fn : Nat) (seq : Word) (s : State) : Host.Outcome State Fault Refusal :=
  done (onCmd fn seq 0x50 none (fun b s =>
    match tallyArg s b with
    | none => fail fn seq .badArg s
    | some a => let v := tallyValue s (msgLease b) a; reply fn seq (leBytes v.1 2 ++ leBytes v.2 2) s) s)

/-- The lease has debug permission, or the function is the steward. -/
def mayDebug (s : State) (fn l : Nat) : Bool := (s.leaseOf l).debugPerm || s.isSteward fn

/-- TALLY_SET (09 R233). -/
def execTallySet (fn : Nat) (seq : Word) (s : State) : Host.Outcome State Fault Refusal :=
  done (onCmd fn seq 0x51 none (fun b s =>
    let l := msgLease b
    if !(mayDebug s fn l) then fail fn seq .stewardRequired s
    else match tallyArg s b with
    | none => fail fn seq .badArg s
    | some a => reply fn seq [] (putTally l a (BitVec.ofNat 16 (fieldAt b 12 2)) (markHandSet l s))) s)

/-! ### DEBUG_SNAPSHOT (16 R400) -/

/-- The compute tiles of a region that have not completed ENDSEC, in ascending column and row. -/
def tilesLeft (s : State) (r : Nat) : List Nat :=
  (regionCTiles r).filter (fun t => (s.tileOf t).phase == .issuing || (s.tileOf t).phase == .ending)
/-- The first inlet that a tile's bundle names and that is empty. -/
def emptyInlet (s : State) (t : Nat) : Option Nat :=
  (upTo 4).find? (fun n => (namedInlets (bundleAt s t (s.tileOf t).pc)).contains n && !(inletHas (s.tileOf t) n))
/-- A region record; what a region shows of which the lease is not resident, and the tile where none is left, is open. -/
def regionRecord (s : State) (l r k : Nat) : List Byte :=
  let free (n : Nat) : Nat := Config.freeNat (s.free + n)
  let own := residentOn s l r
  let ts := if own then tilesLeft s r else []
  let head := leBytes r 1 ++ leBytes (if own then regionStCode (s.regionOf r).st else free (2 * k)) 1 ++
    leBytes (if own then regTag s r else free (2 * k) / 256) 2 ++ leBytes ts.length 2
  match ts with
  | t :: _ => head ++ leBytes (epOf t) 4 ++ leBytes (s.tileOf t).pc 1 ++ leBytes ((emptyInlet s t).getD 0xFF) 1 ++ leBytes 0 52
  | [] => head ++ leBytes (free (2 * k + 1)) 4 ++ leBytes (free (2 * k + 1) / 2 ^ 32) 1 ++ leBytes 0xFF 1 ++ leBytes 0 52
/-- A program record. -/
def programRecord (h : Nat) (p : Prog) : List Byte :=
  leBytes h 2 ++ leBytes p.pc 2 ++ leBytes (if p.suspended then 1 else if p.wait = .none then 0 else 2) 1 ++
    leBytes p.flags.toNat 1 ++ leBytes 0 58
/-- The snapshot of a lease. -/
def snapshotOf (s : State) (l : Nat) : List Byte :=
  let rs := maskRegions (s.leaseOf l).regions.toNat
  let ps := s.bound.filter (fun e => e.2.lease == l)
  leBytes rs.length 2 ++ leBytes ps.length 2 ++ leBytes 0 60 ++
    (rs.zipIdx).flatMap (fun e => regionRecord s l e.1 e.2) ++ ps.flatMap (fun e => programRecord e.1 e.2)

/-- DEBUG_SNAPSHOT (16 R400). -/
def execDebugSnapshot (fn : Nat) (seq : Word) (s : State) : Host.Outcome State Fault Refusal :=
  done (onCmd fn seq 0x7E none (fun b s =>
    let l := msgLease b
    let d := snapshotOf s l
    if !(mayDebug s fn l) then fail fn seq .stewardRequired s
    else if fieldAt b 24 4 < d.length then fail fn seq .noSpace s
    else if !(s.canSend fn) then fail fn seq .peerUnreachable s
    else reply fn seq (leBytes d.length 4) ({ s with free := s.free + 128 }.writeHost fn (fieldAt b 16 8) d)) s)

/-! ### WINDOW_UNMAP of an entry (15 R376) -/

/-- A running or prologue section of the lease, or a run-ahead, names the entry. -/
def entryInUse (s : State) (l i : Nat) : Bool :=
  s.secs.any (fun e => e.2.lease == l && e.2.phase != .queued &&
    (upTo (igStrs (secImage s e.2))).any (fun k => let d := igStr (secImage s e.2) k; sdExt d == 2 && sdWindow d == i))

/-- WINDOW_UNMAP kind 1 (15 R376). -/
def execWindowUnmapEntry (fn : Nat) (seq : Word) (s : State) : Host.Outcome State Fault Refusal :=
  done (onCmd fn seq 0x21 (some 1) (fun b s =>
    let l := msgLease b
    let i := fieldAt b 9 1
    if ((s.leaseOf l).entries.get none i).isNone then fail fn seq .badArg s
    else if entryInUse s l i then fail fn seq .busy s
    else reply fn seq [] (s.updLease l (fun x => { x with entries := x.entries.set none i none }))) s)

end Sys2Proof.Machine
end

