-- ==== Sys2Proof/Machine/Solver.lean ====
section
/-! DEFINITION. Solver channels: binding, problems and their results, deadlines, and units that cease to be usable (chapter 14, 03
R59 to R62, R73). -/
namespace Sys2Proof.Machine

/-! ### Binding (14 R344, R345, R359, R360, 03 R62, R73) -/

/-- An engine serves channel `c`: engines are fitted and the channel's is usable (03 R59, R62). -/
def engineServes (s : State) (c : Nat) : Bool := s.hasEngines && s.usable (12 + c / 4)

/-- The region is free for an emulation of lease `l`: granted, idle, and reserved for no RUN. -/
def emuRegionOk (s : State) (l r : Nat) : Bool :=
  holdsRegion s l r && s.regionFree r && (reservedBy s r).isNone && !(movingOn s r)
/-- The region that an emulation takes: one on which the lease is resident or nobody is, before one to be handed over. -/
def emuRegion (s : State) (l : Nat) : Option Nat :=
  let rs := (upTo s.nRegions).filter (emuRegionOk s l)
  (rs.find? (fun r => (s.regionOf r).resident == some l || (s.regionOf r).resident == none)).orElse (fun _ => rs.head?)
/-- A free ingot slot of the lease. -/
def emuSlotOf (s : State) (l : Nat) : Option Nat := (upTo 64).find? (fun k => ((s.leaseOf l).slots.get none k).isNone)

/-- The settings of a bind (14 Table 14.5); the next problem is the first after it (14 R348).  A problem in progress keeps
the settings and the previous solution that it began with (14 R344). -/
def bindSettings (l mode deadline : Nat) (x : Chan) : Chan :=
  { x with lease := some l, mode := mode, deadline := deadline, lastProg := none }

/-- Region `r` holds the emulation of channel `c` of lease `l`: it takes the lease's streams from every side (14 R359).  A handover's save finds `f` at byte
`at_` of the tiles (18 R425, R426). -/
def emulateOn (l c r at_ : Nat) (f : Finding) (s : State) : State :=
  let s1 := if (s.regionOf r).resident = some l then s else leaveOthers (joinQueue r (handOver r l (saveFinding r at_ f s)))
  (zeroiseRegion s1 r).updRegion r (fun y => { y with
    st := .sealed, emulation := some c
    live := [(0, BitVec.ofNat 32 (2 ^ 31 + l % 1024)), (0x10, 0xFF#32)] })

/-- Bind channel `c` to lease `l` by emulation, when the lease has a region and a slot for it. -/
def bindEmulated (l c mode deadline at_ : Nat) (f : Finding) (s : State) : Option State :=
  match emuRegion s l, emuSlotOf s l with
  | some r, some k =>
    let s1 := (emulateOn l c r at_ f s).updLease l (fun y => { y with slots := y.slots.set none k (some { image := [] }) })
    some (s1.setChan c (bindSettings l mode deadline { emulated := true, region := r, emuSlot := k }))
  | _, _ => none

/-- The results of SOLVER_BIND (16 Table 16.12). -/
def bindReply (x : Chan) : List Byte := leBytes (b2n x.emulated) 1 ++ leBytes (if x.emulated then x.region else 0xFF) 1

/-- A running or prologue section of the lease names the channel. -/
def chanNamed (s : State) (l c : Nat) : Bool :=
  s.secs.any (fun e => e.2.lease == l && (e.2.phase == .running || e.2.phase == .ending || e.2.phase == .prologue) &&
    namesChan s e.2 c)

/-- SOLVER_UNBIND (14 R345). -/
def execSolverUnbind (fn : Nat) (seq : Word) (s : State) : Host.Outcome State Fault Refusal :=
  done (onCmd fn seq 0x59 none (fun b s =>
    let l := msgLease b
    let c := fieldAt b 8 1
    if s.nChans ≤ c ∨ (s.chanOf c).lease ≠ some l then fail fn seq .badArg s
    else if chanNamed s l c then fail fn seq .busy s
    else reply fn seq [] (unbindChan s c)) s)

/-! ### Results (14 R351 to R353, Table 14.7) -/

/-- The clock that a channel runs on: its engine's die's, or that of its emulation region's die. -/
def chanRuns (s : State) (c : Nat) : Bool :=
  let x := s.chanOf c
  x.lease.isSome && !(s.clkOf (if x.emulated then regionDie x.region else c / 8)).stopped

/-- What a channel returns. -/
structure Answer where
  st : Status := .ok
  td : Bool := false
  shifted : Bool := false
  residNone : Bool := false
  index : Nat := 0
  done_ : Nat := 0
  resid : Elem := (0, false)
  elems : List Elem := []
deriving DecidableEq, Repr

/-- The result record (14 Table 14.7). -/
def resultRecord (seq : Word) (a : Answer) : Entry :=
  entryOf (leBytes seq.toNat 4 ++ leBytes (statusCode a.st) 1 ++
    leBytes (b2n a.td + 2 * b2n a.shifted + 4 * b2n a.residNone) 1 ++ leBytes 0 2 ++ leBytes a.index 4 ++ leBytes a.done_ 4 ++
    leBytes (if a.residNone then 0 else a.resid.1.toNat) 8)
/-- Entry `i` of the returned iterate, +0 past its end; it is poisoned when an element of it is. -/
def resultEntry (es : List Elem) (i : Nat) : QEntry where
  data := entryOf ((upTo 8).flatMap (fun k => leBytes (es.getD (8 * i + k) elemZero).1.toNat 8))
  poison := ((es.drop (8 * i)).take 8).any Prod.snd
/-- A result packet to the descriptor's source. -/
def resultPacket (x : Chan) (e : QEntry) : Packet where
  vn := vnStream
  kind := 0
  dst := x.src
  src := x.dst
  port := x.srcPort
  lease := x.lease.getD 0
  sec := x.sec
  pl := .entries [e]

/-- A status that stands in the record: POISONED where a returned element or the residual is poisoned (14 R352). -/
def answerStatus (a : Answer) : Status :=
  if a.st ≠ .ok then a.st else if a.elems.any Prod.snd || (!a.residNone && a.resid.2) then .poisoned else .ok

/-- The sequencer context of the section is marked (14 R353, 02 R43). -/
def markTiming (i : Nat) (s : State) : State :=
  match s.secOf i with
  | none => s
  | some y =>
    let s1 := s.setSec i (some { y with timingDep := true })
    match s1.progOf y.prog with
    | some p => s1.setProg y.prog (some { p with flags := p.flags ||| 1 })
    | none => s1

/-- Send the answer of channel `c`: its record and ceil(out_len / 8) entries; the channel is then free for the next problem,
whose previous solution this iterate is (14 R348, R351). -/
def answer (c : Nat) (a : Answer) (s : State) : State :=
  let x := s.chanOf c
  let a1 := { a with st := answerStatus a }
  let n := (scOutLen x.sched + 7) / 8
  let s1 := s.setChan c { x with phase := .idle, prev := a.elems }
  let s2 := s1.sendAll ((resultPacket x { data := resultRecord x.seq a1 }) ::
    (upTo n).map (fun i => resultPacket x (resultEntry a.elems i)))
  if a.td then markTiming x.sec s2 else s2

/-- BAD_ARG and UNIT_ABSENT return +0 elements with poison marks (14 R352). -/
def failedAnswer (x : Chan) (st : Status) : Answer :=
  { st := st, td := x.timingDep, residNone := true, elems := List.replicate (scOutLen x.sched) (0, true) }

/-- The problem that a lost engine's channel still takes input for ends before the channel is bound by emulation (14 R352). -/
def problemLost (c : Nat) (s : State) : State :=
  let x := s.chanOf c
  if x.phase = .idle ∨ x.emulated = true ∨ x.lease = none then s else answer c (failedAnswer x .unitAbsent) s

/-- SOLVER_BIND (14 R344); the save of a region that it takes finds `f` at byte `at_` of the tiles. -/
def execSolverBind (fn : Nat) (seq : Word) (at_ : Nat) (f : Finding) (s : State) : Host.Outcome State Fault Refusal :=
  done (onCmd fn seq 0x58 none (fun b s =>
    let l := msgLease b
    let c := fieldAt b 8 1
    let mode := fieldAt b 9 1
    let dl := fieldAt b 12 4
    let x := s.chanOf c
    if s.nChans ≤ c ∨ 2 < mode ∨ (mode ≠ 0 ∧ dl = 0) then fail fn seq .badArg s
    else if s.usable 27 = false then fail fn seq .unitAbsent s
    else if x.lease.any (fun k => k != l) then fail fn seq .busy s
    else if x.lease = some l ∧ (x.emulated = true ∨ engineServes s c = true) then
      reply fn seq (bindReply x) (s.setChan c (bindSettings l mode dl x))
    else if engineServes s c then
      reply fn seq (bindReply {}) (s.setChan c (bindSettings l mode dl {}))
    else match bindEmulated l c mode dl at_ f (problemLost c s) with
      | some s1 => reply fn seq (bindReply (s1.chanOf c)) s1
      | none => fail fn seq .noSpace s) s)

/-! ### Problems (14 R347 to R350) -/

/-- The channel that a stream packet's endpoint and port name: the engine's, at one of its four attachments, or the one that
the region emulates. -/
def chanAt (s : State) (p : Packet) : Option Nat :=
  if epIsEngine p.dst then
    let c := 8 * epDie p.dst + 4 * (epX p.dst - 56) + p.port
    if p.port < 4 ∧ (s.chanOf c).emulated = false then some c else none
  else match (s.regionOf (tileRegion (epTile p.dst))).emulation with
    | some c => if p.port = c % 4 ∧ tileY (epTile p.dst) % 8 < 4 then some c else none
    | none => none
/-- A data packet for a channel. -/
def forChannel (s : State) (p : Packet) : Bool := p.vn == vnStream && decide (p.kind ≤ 1) && isChannelEp s p.dst

/-- A packet that no channel takes: no channel of its lease, no single entry, or another source than the one that its section
first sent a problem from (14 R349, R350). -/
def chanRefuses (s : State) (p : Packet) : Bool :=
  match chanAt s p, s.secOf p.sec with
  | some c, some y =>
    let e := y.chanSrc.get 0 c
    (s.chanOf c).lease != some p.lease || p.kind != 0 || (e != 0 && e != p.src + 1) ||
      (match p.pl with
       | .entries [_] => false
       | _ => true)
  | _, _ => true
/-- A refused packet is discarded and reported; of a section's other sources only the first entry is (14 R349). -/
def chanRefuse (p : Packet) (s : State) : State :=
  match chanAt s p, s.secOf p.sec with
  | some c, some y =>
    if (s.chanOf c).lease = some p.lease ∧ y.chanSrc.get 0 c ≠ 0 ∧ y.chanSrc.get 0 c ≠ p.src + 1 then
      if y.chanFault.contains c then s
      else packetFault (s.setSec p.sec (some { y with chanFault := y.chanFault ++ [c] })) p
    else packetFault s p
  | _, _ => packetFault s p

/-- The result of the channel's last problem has not all been sent (14 R350). -/
def resultWaits (s : State) (c : Nat) : Bool :=
  s.fab.tx.any (fun p => p.vn == vnStream && isChannelEp s p.src && (s.chanOf c).dst == p.src &&
    p.dst == (s.chanOf c).src && p.port == (s.chanOf c).srcPort)

/-- Bytes of a descriptor, and its poison: a poisoned one has fields that say nothing, and is taken as BAD_ARG. -/
def descriptorBad (b : List Byte) (poison : Bool) (inLen : Nat) : Bool :=
  poison || fieldAt b 8 4 != inLen || decide (1 < fieldAt b 4 1) || decide (3 < fieldAt b 5 1) || fieldAt b 6 2 != 0 ||
    fieldAt b 12 52 != 0

/-- A descriptor is accepted (14 R347, R349, Table 14.6). -/
def takeDescriptor (c : Nat) (p : Packet) (e : QEntry) (s : State) : State :=
  let x := s.chanOf c
  let b := entryBytes e.data
  match s.secOf p.sec with
  | none => s
  | some y =>
    (s.setChan c { x with
      phase := .input, seq := BitVec.ofNat 32 (fieldAt b 0 4), src := p.src, srcPort := fieldAt b 5 1 % 64, dst := p.dst,
      sec := p.sec, prog := y.prog, bad := descriptorBad b e.poison (scInLen x.sched), warm := natBit (fieldAt b 4 1) 0, got := 0,
      k := 0, timingDep := false, bestK := 0 }).setSec p.sec (some { y with chanSrc := y.chanSrc.set 0 c (p.src + 1), progress := 0 })

/-- PROBLEM_DESCRIPTOR (14 R347): a descriptor reaches a free channel; what no channel takes is discarded. -/
def execProblemDescriptor (pkt : Nat) (s : State) : Host.Outcome State Fault Refusal :=
  done (arriveKeep pkt (forChannel s) (fun p s =>
    if chanRefuses s p then (chanRefuse p s, none)
    else match chanAt s p, p.pl with
    | some c, .entries [e] =>
      if (s.chanOf c).phase = .idle ∧ chanRuns s c = true ∧ resultWaits s c = false then (takeDescriptor c p e s, none) else (s, some p)
    | _, _ => (s, some p)) s)

/-- The previous solution's element `i`; past its end nothing says what it is (14 R348). -/
def prevAt (x : Chan) (i : Nat) : Elem :=
  if x.prev.isEmpty then elemZero else x.prev.getD i (Config.openDWord (x.prev.map (fun e => e.1.toNat)) i, false)
/-- The previous solution of a problem: +0 for the first after SOLVER_BIND or after another program's (14 R348). -/
def prevOf (x : Chan) : List Elem :=
  if x.lastProg = some x.prog then (upTo (scOutLen x.sched)).map (fun i => sentElem (prevAt x i)) else List.replicate (scOutLen x.sched) elemZero

/-- The mode needs a field that the schedule lacks, or its marking does not permit it (14 R358). -/
def modeLacks (x : Chan) : Bool :=
  match x.mode with
  | 1 => scHorizon x.sched == 1 || x.schedModes == 1 || x.schedModes == 2
  | 2 => scBest x.sched == noBest || x.schedModes == 1 || x.schedModes == 3
  | _ => false

/-- A problem starts: iterate 0 is set and the timer runs (14 R348, R355, R358). -/
def startProblem (c : Nat) (s : State) : State :=
  let x := s.chanIn c
  let old := prevOf x
  let x0 := if x.warm then old else List.replicate (scOutLen x.sched) elemZero
  let y := chanWrList (scX x.sched) x0 { x with
    phase := .prologue, startTick := s.sclk, curMode := if modeLacks x then 0 else x.mode, curDeadline := x.deadline,
    timingDep := modeLacks x, iter := x0, resid := elemZero, prev := old, lastProg := some x.prog, k := 0 }
  let s1 := s.putChan c y
  if x.bad then answer c (failedAnswer y .badArg) s1
  else if !x.emulated && !(engineServes s c) then answer c (failedAnswer y .unitAbsent) s1
  else s1

/-- The values of an input entry are written (14 R347): the padding of the last is ignored. -/
def takeInput (c : Nat) (p : Packet) (e : QEntry) (s : State) : State :=
  let x := s.chanIn c
  let n := scInLen x.sched
  let m := min 8 (n - x.got)
  let vs := (upTo m).map (fun i => (BitVec.ofNat 64 (fieldAt (entryBytes e.data) (8 * i) 8), e.poison))
  let s1 := progressed (s.putChan c { chanWrList (scInAddr x.sched + x.got) vs x with got := x.got + m }) p.sec
  if n ≤ x.got + m then startProblem c s1 else s1

/-- PROBLEM_INPUT_ARRIVED (14 R347, R348): an input entry of the problem is written; with the last value the problem starts. -/
def execProblemInputArrived (ch pkt : Nat) (s : State) : Host.Outcome State Fault Refusal :=
  done (arriveKeep pkt (fun p => forChannel s p && chanAt s p == some ch && !(chanRefuses s p)) (fun p s =>
    let x := s.chanOf ch
    match p.pl with
    | .entries [e] =>
      if x.phase = .input ∧ x.sec = p.sec ∧ chanRuns s ch = true then (takeInput ch p e s, none) else (s, some p)
    | _ => (s, some p)) s)

/-! ### The run of a problem (14 R340, R355 to R357) -/

/-- The deadline has expired: more ticks than it have passed since the input arrived. -/
def expired (s : State) (x : Chan) : Bool := x.curMode != 0 && decide (x.curDeadline < s.sclk - x.startTick)
/-- The channel goes on with its problem. -/
def chanGoes (s : State) (c : Nat) (ph : ChanPhase) : Bool :=
  (s.chanOf c).phase == ph && chanRuns s c && !(expired s (s.chanOf c))

/-- What the engine's reads find in the line of word `w` of channel `c`'s quarter (14 R338, 18 R425, R426): an uncorrectable
error poisons its words.  The words of an emulated channel lie in its region's memory tiles (14 R361). -/
def quarterFinding (c w : Nat) (f : Finding) (s : State) : State :=
  let x := s.chanOf c
  if decide (524288 ≤ w) then s
  else if x.emulated then
    match (emuTiles s x)[w / emuWords]? with
    | some t => sramFinding t (8 * (w % emuWords)) 1 (secTag s x.sec) f s
    | none => s
  else if !(engineServes s c) then s
  else match f with
  | .clean => s
  | .correctable _ => countCorrectable (c / 8) 0 (1152 * 2 ^ 15 + (c % 8 * 524288 + w) / 8) s
  | .uncorrectable mask =>
    poisonFound (x.lease.getD 0xFFFF) 0xFFFF (w / 8 * 64) 2 1 mask (secTag s x.sec) x.lease.isSome
      (s.setChan c { x with memPoison := Table.setList false x.memPoison (w / 8 * 8) (List.replicate 8 true) })

/-- PROLOGUE_COMPLETE (14 R340). -/
def execPrologueComplete (ch word : Nat) (f : Finding) (s : State) : Host.Outcome State Fault Refusal :=
  done (if chanGoes s ch .prologue then
    let s1 := quarterFinding ch word f s
    s1.putChan ch { runPrologue (s1.chanIn ch) with phase := .body }
  else s)

/-- A residual is smaller: NaN is larger than any number, and equal to itself (14 R357). -/
def residBelow (a b : Elem) : Bool :=
  let x := elemVal a
  let y := elemVal b
  if valNan x then false else if valNan y then true else cmpVal x y == some (-1)

/-- The kept iterate of BEST after iteration `k` (14 R357). -/
def keepBest (k : Nat) (x : Chan) : Chan :=
  if x.curMode = 2 ∧ (x.bestK = 0 ∨ residBelow x.resid x.bestResid = true) then
    { chanWrList (scBest x.sched) x.iter x with bestK := k, best := x.iter, bestResid := x.resid }
  else x
/-- A body completes: iterate k stands at x_addr, with its residual (14 R340). -/
def bodyDone (x : Chan) : Chan :=
  let k := x.k + 1
  let y := runBody k x
  keepBest k { y with
    k := k, iter := (chanRdList y (scX x.sched) (scOutLen x.sched)).map sentElem, resid := sentElem (chanRd y (scResid x.sched))
    phase := if k = scIters x.sched then .epilogue else .body }

/-- ITERATION_COMPLETE (14 R340). -/
def execIterationComplete (ch word : Nat) (f : Finding) (s : State) : Host.Outcome State Fault Refusal :=
  done (if chanGoes s ch .body then
    let s1 := quarterFinding ch word f s
    s1.putChan ch (bodyDone (s1.chanIn ch))
  else s)

/-- The kept iterate (14 R357). -/
def bestAnswer (x : Chan) (td : Bool) : Answer :=
  { td := td, index := x.bestK, done_ := x.k, resid := x.bestResid, elems := x.best }
/-- Iterate k (14 R355, R356). -/
def lastAnswer (x : Chan) (td : Bool) : Answer := { td := td, index := x.k, done_ := x.k, resid := x.resid, elems := x.iter }

/-- PROBLEM_COMPLETE (14 R355 to R357): the epilogue has run and the result goes out. -/
def execProblemComplete (ch word : Nat) (f : Finding) (s : State) : Host.Outcome State Fault Refusal :=
  done (if chanGoes s ch .epilogue then
    let s1 := quarterFinding ch word f s
    let x := runEpilogue (s1.chanIn ch)
    answer ch (if x.curMode = 2 then bestAnswer x x.timingDep else lastAnswer x x.timingDep) (s1.putChan ch x)
  else s)

/-- The previous solution, shifted by one stage (14 R356). -/
def shifted (x : Chan) : List Elem :=
  let n := scStage x.sched
  (upTo (scOutLen x.sched)).map (fun i => x.prev.getD (if i / n + 1 < scHorizon x.sched then i + n else i) elemZero)
/-- What a channel returns when its deadline has expired (14 R356, R357). -/
def expiredAnswer (x : Chan) : Answer :=
  if x.curMode = 1 then
    if x.k = 0 then
      { td := true, shifted := true, residNone := true, index := 0xFFFFFFFF, elems := shifted x }
    else lastAnswer x true
  else if x.bestK = 0 then { td := true, residNone := true, elems := x.iter }
  else bestAnswer x true

/-- SOLVER_DEADLINE (14 R356, R357). -/
def execSolverDeadline (ch : Nat) (s : State) : Host.Outcome State Fault Refusal :=
  done (
    let x := s.chanOf ch
    if (x.phase = .prologue ∨ x.phase = .body ∨ x.phase = .epilogue) ∧ expired s x = true ∧ chanRuns s ch = true then
      answer ch (expiredAnswer x) s
    else s)

/-! ### Units out of service (03 R61, R62) -/

/-- The problem that a channel of a failed engine has in progress ends (03 R62, 14 R352); one whose input has not all arrived ends
with its last value. -/
def engineGone (s : State) (c : Nat) : State :=
  let x := s.chanOf c
  if x.emulated = true ∨ x.lease = none ∨ x.phase = .idle ∨ x.phase = .input then s else answer c (failedAnswer x .unitAbsent) s

/-- UNIT_OUT_OF_SERVICE (03 R61): the bit of CAP_USABLE that the unit has. -/
def execUnitOutOfService (unit : Nat) (s : State) : Host.Outcome State Fault Refusal :=
  done (
    let s1 := outOfService unit s
    if 12 ≤ unit ∧ unit < 20 ∧ s.usable unit = true then
      (upTo 4).foldl (fun s k => engineGone s (4 * (unit - 12) + k)) s1
    else s1)

end Sys2Proof.Machine
end

