-- ==== Sys2Proof/Machine/Dispatch.lean ====
section
/-! DEFINITION. One arm for each constructor of Instr: a direct call of its meaning, or a refusal by name. -/
namespace Sys2Proof.Machine

/-- What a command does to everything but the queue. -/
def exec (i : Instr) (s : State) : Host.Outcome State Fault Refusal :=
  match i with
  | .registerWrite bar4 fn off size val late => Sys2Proof.Machine.execRegisterWrite bar4 fn off size val late s
  | .commit fn g val => Sys2Proof.Machine.execCommit fn g val s
  | .commitTransfer g => Sys2Proof.Machine.execCommitTransfer g s
  | .ordFlushRead fn ro => Sys2Proof.Machine.execOrdFlushRead fn ro s
  | .flushComplete fn => Sys2Proof.Machine.execFlushComplete fn s
  | .mbxPost fn val => Sys2Proof.Machine.execMbxPost fn val s
  | .mbxPostShort fn size val => Sys2Proof.Machine.execMbxPostShort fn size val s
  | .mbxRingConsWrite fn val => Sys2Proof.Machine.execMbxRingConsWrite fn val s
  | .evtRingConsWrite fn val => Sys2Proof.Machine.execEvtRingConsWrite fn val s
  | .dbRing fn val => Sys2Proof.Machine.execDbRing fn val s
  | .doorbellService fn bit => Sys2Proof.Machine.execDoorbellService fn bit s
  | .htallySignal fn n val => Sys2Proof.Machine.execHtallySignal fn n val s
  | .htallyArm fn n val => Sys2Proof.Machine.execHtallyArm fn n val s
  | .hlatchReq fn j val => Sys2Proof.Machine.execHlatchReq fn j val s
  | .hlatchRel fn j val => Sys2Proof.Machine.execHlatchRel fn j val s
  | .stwLockAcquire fn val => Sys2Proof.Machine.execStwLockAcquire fn val s
  | .stwLockRelease fn val => Sys2Proof.Machine.execStwLockRelease fn val s
  | .htallyLeaseWrite fn val => Sys2Proof.Machine.execHtallyLeaseWrite fn val s
  | .hostWindowWrite fn off data ep => Sys2Proof.Machine.execHostWindowWrite fn off data ep s
  | .windowWriteLands id => Sys2Proof.Machine.execWindowWriteLands id s
  | .hostWindowRead fn off en ro at_ f => Sys2Proof.Machine.execHostWindowRead fn off en ro at_ f s
  | .msixVectorUnmask fn v => Sys2Proof.Machine.execMsixVectorUnmask fn v s
  | .configRequest fn op => Sys2Proof.Machine.execConfigRequest fn op s
  | .bar2Resize fn sizeLog2 => Sys2Proof.Machine.execBar2Resize fn sizeLog2 s
  | .vfEnableClear port => Sys2Proof.Machine.execVfEnableClear port s
  | .functionLevelReset fn => Sys2Proof.Machine.execFunctionLevelReset fn s
  | .hotReset port => Sys2Proof.Machine.execHotReset port s
  | .linkDown port => Sys2Proof.Machine.execLinkDown port s
  | .linkUp port => Sys2Proof.Machine.execLinkUp port s
  | .perstAssert port => Sys2Proof.Machine.execPerstAssert port s
  | .perstDeassert port => Sys2Proof.Machine.execPerstDeassert port s
  | .d3hotEntry fn => Sys2Proof.Machine.execD3hotEntry fn s
  | .d3coldEntry port => Sys2Proof.Machine.execD3coldEntry port s
  | .busMasterEnableClear fn => Sys2Proof.Machine.execBusMasterEnableClear fn s
  | .functionReady fn => Sys2Proof.Machine.execFunctionReady fn s
  | .messageTake fn => Sys2Proof.Machine.execMessageTake fn s
  | .messageBegin fn seq => Sys2Proof.Machine.execMessageBegin fn seq s
  | .queryCaps fn seq => Sys2Proof.Machine.execQueryCaps fn seq s
  | .queryTilemap fn seq => Sys2Proof.Machine.execQueryTilemap fn seq s
  | .queryHealth fn seq => Sys2Proof.Machine.execQueryHealth fn seq s
  | .leaseOpen fn seq => Sys2Proof.Machine.execLeaseOpen fn seq s
  | .leaseResize fn seq => Sys2Proof.Machine.execLeaseResize fn seq s
  | .leaseClose fn seq => Sys2Proof.Machine.execLeaseClose fn seq s
  | .leaseReclaim fn seq => Sys2Proof.Machine.execLeaseReclaim fn seq s
  | .leasePolicyLimits fn seq => Sys2Proof.Machine.execLeasePolicyLimits fn seq s
  | .leasePolicyDemandSigned fn seq => Sys2Proof.Machine.execLeasePolicyDemandSigned fn seq s
  | .leasePolicyKeyInstall fn seq at_ f => Sys2Proof.Machine.execLeasePolicyKeyInstall fn seq at_ f s
  | .leasePolicyKeyClear fn seq => Sys2Proof.Machine.execLeasePolicyKeyClear fn seq s
  | .leasePolicyDoorbellBind fn seq => Sys2Proof.Machine.execLeasePolicyDoorbellBind fn seq s
  | .leasePolicyDiePreference fn seq => Sys2Proof.Machine.execLeasePolicyDiePreference fn seq s
  | .leasePolicyDebugPermission fn seq => Sys2Proof.Machine.execLeasePolicyDebugPermission fn seq s
  | .leasePolicyMaxDormancy fn seq => Sys2Proof.Machine.execLeasePolicyMaxDormancy fn seq s
  | .windowMapInbound fn seq => Sys2Proof.Machine.execWindowMapInbound fn seq s
  | .windowMapEntry fn seq => Sys2Proof.Machine.execWindowMapEntry fn seq s
  | .windowUnmapInbound fn seq => Sys2Proof.Machine.execWindowUnmapInbound fn seq s
  | .windowUnmapEntry fn seq => Sys2Proof.Machine.execWindowUnmapEntry fn seq s
  | .billetSpill fn seq => Sys2Proof.Machine.execBilletSpill fn seq s
  | .billetFill fn seq => Sys2Proof.Machine.execBilletFill fn seq s
  | .zeroFill fn seq => Sys2Proof.Machine.execZeroFill fn seq s
  | .ingotStage fn seq at_ f => Sys2Proof.Machine.execIngotStage fn seq at_ f s
  | .ingotVerify fn seq at_ f => Sys2Proof.Machine.execIngotVerify fn seq at_ f s
  | .ingotEvict fn seq => Sys2Proof.Machine.execIngotEvict fn seq s
  | .seqStart fn seq at_ f => Sys2Proof.Machine.execSeqStart fn seq at_ f s
  | .seqStop fn seq => Sys2Proof.Machine.execSeqStop fn seq s
  | .seqSuspend fn seq => Sys2Proof.Machine.execSeqSuspend fn seq s
  | .seqResume fn seq => Sys2Proof.Machine.execSeqResume fn seq s
  | .fenceCommand fn seq => Sys2Proof.Machine.execFenceCommand fn seq s
  | .tallyRead fn seq => Sys2Proof.Machine.execTallyRead fn seq s
  | .tallySet fn seq => Sys2Proof.Machine.execTallySet fn seq s
  | .solverBind fn seq at_ f => Sys2Proof.Machine.execSolverBind fn seq at_ f s
  | .solverUnbind fn seq => Sys2Proof.Machine.execSolverUnbind fn seq s
  | .powerPolicyFrequency fn seq => Sys2Proof.Machine.execPowerPolicyFrequency fn seq s
  | .powerPolicyModuleCap fn seq => Sys2Proof.Machine.execPowerPolicyModuleCap fn seq s
  | .powerPolicyLending fn seq => Sys2Proof.Machine.execPowerPolicyLending fn seq s
  | .powerPolicyScrubCap fn seq => Sys2Proof.Machine.execPowerPolicyScrubCap fn seq s
  | .stewardInfo fn seq => Sys2Proof.Machine.execStewardInfo fn seq s
  | .vfPartition fn seq => Sys2Proof.Machine.execVfPartition fn seq s
  | .fwStage fn seq readBackOk at_ f => Sys2Proof.Machine.execFwStage fn seq readBackOk at_ f s
  | .fwActivate fn seq => Sys2Proof.Machine.execFwActivate fn seq s
  | .quenchEnter fn seq => Sys2Proof.Machine.execQuenchEnter fn seq s
  | .quenchExit fn seq => Sys2Proof.Machine.execQuenchExit fn seq s
  | .logRead fn seq => Sys2Proof.Machine.execLogRead fn seq s
  | .remapStatus fn seq => Sys2Proof.Machine.execRemapStatus fn seq s
  | .debugSnapshot fn seq => Sys2Proof.Machine.execDebugSnapshot fn seq s
  | .debugUnlockRequest fn seq => Sys2Proof.Machine.execDebugUnlockRequest fn seq s
  | .debugUnlockAnswer fn seq at_ f => Sys2Proof.Machine.execDebugUnlockAnswer fn seq at_ f s
  | .run h => Sys2Proof.Machine.execRun h s
  | .runLoadBegin h => Sys2Proof.Machine.execRunLoadBegin h s
  | .wait h => Sys2Proof.Machine.execWait h s
  | .waitSatisfied h => Sys2Proof.Machine.execWaitSatisfied h s
  | .sig h => Sys2Proof.Machine.execSig h s
  | .br h => Sys2Proof.Machine.execBr h s
  | .brEvaluate h => Sys2Proof.Machine.execBrEvaluate h s
  | .loop h => Sys2Proof.Machine.execLoop h s
  | .fence h => Sys2Proof.Machine.execFence h s
  | .fenceComplete w => Sys2Proof.Machine.execFenceComplete w s
  | .fencePeerRead w window ok => Sys2Proof.Machine.execFencePeerRead w window ok s
  | .notify h => Sys2Proof.Machine.execNotify h s
  | .spill h => Sys2Proof.Machine.execSpill h s
  | .fill h => Sys2Proof.Machine.execFill h s
  | .spillFillComplete w at_ f => Sys2Proof.Machine.execSpillFillComplete w at_ f s
  | .halt h => Sys2Proof.Machine.execHalt h s
  | .contextSwap h restore => Sys2Proof.Machine.execContextSwap h restore s
  | .sectionStart sec => Sys2Proof.Machine.execSectionStart sec s
  | .sectionEnd sec => Sys2Proof.Machine.execSectionEnd sec s
  | .bundleIssue tile at_ f hit => Sys2Proof.Machine.execBundleIssue tile at_ f hit s
  | .endsecComplete tile => Sys2Proof.Machine.execEndsecComplete tile s
  | .tensorRowComplete tile => Sys2Proof.Machine.execTensorRowComplete tile s
  | .inletEntryArrival pkt => Sys2Proof.Machine.execInletEntryArrival pkt s
  | .streamStart sid => Sys2Proof.Machine.execStreamStart sid s
  | .prologueStreamStart sid => Sys2Proof.Machine.execPrologueStreamStart sid s
  | .runAheadStart h => Sys2Proof.Machine.execRunAheadStart h s
  | .streamAccess sid f fi => Sys2Proof.Machine.execStreamAccess sid f fi s
  | .billetReadServed sid f fi => Sys2Proof.Machine.execBilletReadServed sid f fi s
  | .mtRead sid f fi => Sys2Proof.Machine.execMtRead sid f fi s
  | .mtWrite pkt => Sys2Proof.Machine.execMtWrite pkt s
  | .mtGather sid f fi => Sys2Proof.Machine.execMtGather sid f fi s
  | .mtScatter sid pkt fi => Sys2Proof.Machine.execMtScatter sid pkt fi s
  | .mtSadd pkt at_ f => Sys2Proof.Machine.execMtSadd pkt at_ f s
  | .mtIadd pkt at_ f => Sys2Proof.Machine.execMtIadd pkt at_ f s
  | .mtMax pkt at_ f => Sys2Proof.Machine.execMtMax pkt at_ f s
  | .mtMin pkt at_ f => Sys2Proof.Machine.execMtMin pkt at_ f s
  | .mtClose pkt => Sys2Proof.Machine.execMtClose pkt s
  | .stallyArrival pkt => Sys2Proof.Machine.execStallyArrival pkt s
  | .tallySigArrival pkt => Sys2Proof.Machine.execTallySigArrival pkt s
  | .latchAcq pkt => Sys2Proof.Machine.execLatchAcq pkt s
  | .latchRel pkt => Sys2Proof.Machine.execLatchRel pkt s
  | .reduceCombine i1 j => Sys2Proof.Machine.execReduceCombine i1 j s
  | .barrierCombine i1 j => Sys2Proof.Machine.execBarrierCombine i1 j s
  | .flagCombine i1 j => Sys2Proof.Machine.execFlagCombine i1 j s
  | .barrierArrival pkt => Sys2Proof.Machine.execBarrierArrival pkt s
  | .flagSend tile oset => Sys2Proof.Machine.execFlagSend tile oset s
  | .flagArrival pkt => Sys2Proof.Machine.execFlagArrival pkt s
  | .wrAckArrival pkt => Sys2Proof.Machine.execWrAckArrival pkt s
  | .drainArrival pkt => Sys2Proof.Machine.execDrainArrival pkt s
  | .seamPacket pkt region side => Sys2Proof.Machine.execSeamPacket pkt region side s
  | .packetInject src => Sys2Proof.Machine.execPacketInject src s
  | .flitError pkt e => Sys2Proof.Machine.execFlitError pkt e s
  | .hbmRequestServed pc pick f => Sys2Proof.Machine.execHbmRequestServed pc pick f s
  | .windowReadComplete req res => Sys2Proof.Machine.execWindowReadComplete req res s
  | .windowWriteSend req => Sys2Proof.Machine.execWindowWriteSend req s
  | .nop engine => Sys2Proof.Machine.execNop engine s
  | .sync engine cmd => Sys2Proof.Machine.execSync engine cmd s
  | .frameAddr engine cmd => Sys2Proof.Machine.execFrameAddr engine cmd s
  | .frameData engine cmd payload => Sys2Proof.Machine.execFrameData engine cmd payload s
  | .writeCreg engine cmd val => Sys2Proof.Machine.execWriteCreg engine cmd val s
  | .crcCheck engine cmd val eccOk => Sys2Proof.Machine.execCrcCheck engine cmd val eccOk s
  | .regionOpen engine lease cmd => Sys2Proof.Machine.execRegionOpen engine lease cmd s
  | .regionSeal engine cmd => Sys2Proof.Machine.execRegionSeal engine cmd s
  | .desync engine cmd => Sys2Proof.Machine.execDesync engine cmd s
  | .columnDrain region col => Sys2Proof.Machine.execColumnDrain region col s
  | .framePacketArrival pkt => Sys2Proof.Machine.execFramePacketArrival pkt s
  | .progressLimit sec => Sys2Proof.Machine.execProgressLimit sec s
  | .sectionTimeout sec => Sys2Proof.Machine.execSectionTimeout sec s
  | .regionIdleReport region => Sys2Proof.Machine.execRegionIdleReport region s
  | .regionUngate region => Sys2Proof.Machine.execRegionUngate region s
  | .budgetRecall region => Sys2Proof.Machine.execBudgetRecall region s
  | .regionHandover region at_ f => Sys2Proof.Machine.execRegionHandover region at_ f s
  | .regionReserve region => Sys2Proof.Machine.execRegionReserve region s
  | .leaseDrained lease at_ f => Sys2Proof.Machine.execLeaseDrained lease at_ f s
  | .drainingLimit lease => Sys2Proof.Machine.execDrainingLimit lease s
  | .dormancyExpiry lease => Sys2Proof.Machine.execDormancyExpiry lease s
  | .problemDescriptor pkt => Sys2Proof.Machine.execProblemDescriptor pkt s
  | .problemInputArrived ch pkt => Sys2Proof.Machine.execProblemInputArrived ch pkt s
  | .iterationComplete ch word f => Sys2Proof.Machine.execIterationComplete ch word f s
  | .prologueComplete ch word f => Sys2Proof.Machine.execPrologueComplete ch word f s
  | .problemComplete ch word f => Sys2Proof.Machine.execProblemComplete ch word f s
  | .solverDeadline ch => Sys2Proof.Machine.execSolverDeadline ch s
  | .unitOutOfService unit => Sys2Proof.Machine.execUnitOutOfService unit s
  | .scrubLineRead die dom line f => Sys2Proof.Machine.execScrubLineRead die dom line f s
  | .scrubWriteBack die dom => Sys2Proof.Machine.execScrubWriteBack die dom s
  | .scrubRestored die dom => Sys2Proof.Machine.execScrubRestored die dom s
  | .canaryCheck die reportedBit crc frames => Sys2Proof.Machine.execCanaryCheck die reportedBit crc frames s
  | .tmrVote upset => Sys2Proof.Machine.execTmrVote upset s
  | .runtimeSelfTest region failed router => Sys2Proof.Machine.execRuntimeSelfTest region failed router s
  | .spareCalibration die at_ f => Sys2Proof.Machine.execSpareCalibration die at_ f s
  | .durablePageWrite page content interrupted => Sys2Proof.Machine.execDurablePageWrite page content interrupted s
  | .patinaPageFlush page => Sys2Proof.Machine.execPatinaPageFlush page s
  | .drbgReseed => Sys2Proof.Machine.execDrbgReseed s
  | .entropyHealthFail => Sys2Proof.Machine.execEntropyHealthFail s
  | .entropyRestart pass => Sys2Proof.Machine.execEntropyRestart pass s
  | .ideIntegrityFail port stream => Sys2Proof.Machine.execIdeIntegrityFail port stream s
  | .ideKm port stream base limit => Sys2Proof.Machine.execIdeKm port stream base limit s
  | .getVersion port => Sys2Proof.Machine.execGetVersion port s
  | .getCapabilities port => Sys2Proof.Machine.execGetCapabilities port s
  | .negotiateAlgorithms port offered => Sys2Proof.Machine.execNegotiateAlgorithms port offered s
  | .getDigests port => Sys2Proof.Machine.execGetDigests port s
  | .getCertificate port slot => Sys2Proof.Machine.execGetCertificate port slot s
  | .challenge port slot => Sys2Proof.Machine.execChallenge port slot s
  | .getMeasurements port index => Sys2Proof.Machine.execGetMeasurements port index s
  | .keyExchange port => Sys2Proof.Machine.execKeyExchange port s
  | .finish port verified => Sys2Proof.Machine.execFinish port verified s
  | .endSession port => Sys2Proof.Machine.execEndSession port s
  | .temperDecisionTick sn => Sys2Proof.Machine.execTemperDecisionTick sn s
  | .clockSlewStep die tclk => Sys2Proof.Machine.execClockSlewStep die tclk s
  | .droop die => Sys2Proof.Machine.execDroop die s
  | .quenchTrigger code => Sys2Proof.Machine.execQuenchTrigger code s
  | .quenchTriggerClear code => Sys2Proof.Machine.execQuenchTriggerClear code s
  | .standbyPresent modId => Sys2Proof.Machine.execStandbyPresent modId s
  | .standbyLoss => Sys2Proof.Machine.execStandbyLoss s
  | .j1Valid => Sys2Proof.Machine.execJ1Valid s
  | .mainPowerEnable => Sys2Proof.Machine.execMainPowerEnable s
  | .mainPowerGood r => Sys2Proof.Machine.execMainPowerGood r s
  | .startupRetry => Sys2Proof.Machine.execStartupRetry s
  | .startupWatchdog => Sys2Proof.Machine.execStartupWatchdog s
  | .moduleReset code => Sys2Proof.Machine.execModuleReset code s
  | .supplyFault => Sys2Proof.Machine.execSupplyFault s
  | .mainPowerLoss => Sys2Proof.Machine.execMainPowerLoss s
  | .j1Reversed => Sys2Proof.Machine.execJ1Reversed s
  | .leakSample mv => Sys2Proof.Machine.execLeakSample mv s
  | .flowSample mv => Sys2Proof.Machine.execFlowSample mv s
  | .thermistorSample inlet outlet => Sys2Proof.Machine.execThermistorSample inlet outlet s
  | .outputFault pin level => Sys2Proof.Machine.execOutputFault pin level s
  | .i2cBusStuck recovered => Sys2Proof.Machine.execI2cBusStuck recovered s
  | .smbusBusHeld => Sys2Proof.Machine.execSmbusBusHeld s
  | .mctpPacket pecOk addr => Sys2Proof.Machine.execMctpPacket pecOk addr s
  | .pldmGetSensorReading id => Sys2Proof.Machine.execPldmGetSensorReading id s
  | .moduleResetRequest => Sys2Proof.Machine.execModuleResetRequest s
  | .quenchTest wentLow => Sys2Proof.Machine.execQuenchTest wentLow s
  | .pldmFirmwareUpdate step => Sys2Proof.Machine.execPldmFirmwareUpdate step s
  | .activateFirmware => Sys2Proof.Machine.execActivateFirmware s
  | .sspWord w => Sys2Proof.Machine.execSspWord w s
  | .sspPartialWord => Sys2Proof.Machine.execSspPartialWord s
  | .recoveryPackageCheck => Sys2Proof.Machine.execRecoveryPackageCheck s
  | .hbmReadDataArrival req => Sys2Proof.Machine.execHbmReadDataArrival req s
  | .telemetryUpdate sn => Sys2Proof.Machine.execTelemetryUpdate sn s
  | .ceSummary => Sys2Proof.Machine.execCeSummary s
  | .leaseFreed lease => Sys2Proof.Machine.execLeaseFreed lease s
  | .droopRecovery die => Sys2Proof.Machine.execDroopRecovery die s
  | .jtagInstruction code => Sys2Proof.Machine.execJtagInstruction code s
  | .trstAssert => Sys2Proof.Machine.execTrstAssert s

end Sys2Proof.Machine
end

