-- ==== Sys2Proof/Machine/Tick.lean ====
section
/-! DEFINITION. What an SCLK tick does: the count of record time, the progress counters of running sections, and the idle
times of tiles and streams. -/
namespace Sys2Proof.Machine

/-- Record time and the counts over it after one SCLK tick (20 Table 20.1: 40 ns). -/
def tickCounts (s : State) : State :=
  { s with
    sclk := s.sclk + 1
    seq := { s.seq with sections := s.seq.sections.map (fun e => (e.1, e.2.map (tickSection s e.1))) }
    fab := { s.fab with
      tiles := s.fab.tiles.mapVals {} (tickTile s)
      streams := s.fab.streams.map (fun e => (e.1, e.2.map (tickStream s))) } }

/-- One SCLK tick: register writes that the device has accepted are in force by then (00 R10, log 20). -/
def tick (s : State) : State := tickCounts (settleAll s)

end Sys2Proof.Machine
end

