-- ==== Sys2Proof/Machine/Xts.lean ====
section
/-! DEFINITION. The encryption of HBM (19 R459, R460): AES-256 and XTS as IEEE 1619 defines them, and what the stacks hold of a
lease's memory.  State keeps the bytes that readers see, since every reader decrypts (R460); this file says what is stored. -/
namespace Sys2Proof.Machine

/-! ### AES-256 -/

/-- The substitution of AES, 32 entries a row, the first lowest. -/
def aesSub : List Nat :=
  [0xc072a49cafa2d4adf04759fa7dc982ca76abd7fe2b670130c56f6bf27b777c63,
   0x75b227ebe28012079a059618c323c7041531d871f1e5a534ccf73f362693fdb7,
   0xcf584c4a39becb6a5bb1fc20ed00d153842fe329b3d63b52a05a6e1b1a2c8309,
   0xd2f3ff1021dab6bcf5389d928f40a351a89f3c507f02f94585334d43fbaaefd0,
   0xdb0b5ede14b8ee4688902a22dc4f816073195d643d7ea7c41744975fec130ccd,
   0x08ae7a65eaf4566ca94ed58d6d37c8e779e4959162acd3c25c2406490a3a32e0,
   0x9e1dc186b95735610ef6034866b53e708a8bbd4b1f74dde8c6b4a61c2e2578ba,
   0x16bb54b00f2d99416842e6bf0d89a18cdf2855cee9871e9b948ed9691198f8e1]
/-- Its inverse. -/
def aesInv : List Nat :=
  [0xcbe9dec444438e3487ff2f9b8239e37cfbd7f3819ea340bf38a53630d56a0952,
   0x25d18b6d49a25b76b224d92866a12e084ec3fa420b954cee3d23c2a632947b54,
   0x849d8da75746155edab9edfd5048706c92b6655dcc5ca4d41698688664f6f872,
   0x6b8a130103bdafc1020f3fca8f1e2cd00645b3b80558e4f70ad3bc8c00abd890,
   0x6edf751ce837f9e28535ade72274ac9673e6b4f0cecff297eadc674f4111913a,
   0xf45acd78fec0db9a2079d2c64b3e56fc1bbe18aa0e62b76f89c5291d711af147,
   0xef9cc9939f7ae52d0d4ab519a97f51605fec8027591012b131c7078833a8dd1f,
   0x7d0c2155631469e126d677ba7e042b17619953833cbbebc8b0f52aae4d3be0a0]

/-- Entry `b` of a substitution. -/
def aesLook (t : List Nat) (b : Nat) : Nat := t.getD (b / 32) 0 / 256 ^ (b % 32) % 256
/-- A byte times x in the field of AES. -/
def aesTwice (b : Nat) : Nat := if b < 128 then 2 * b else (2 * b % 256) ^^^ 0x1B
/-- The exclusive or of two rows of bytes. -/
def xorRow (a b : List Nat) : List Nat := List.zipWith (· ^^^ ·) a b

/-- The next word of the key schedule from the eight before it, the oldest first: word `i` of 60. -/
def aesNextWord (i : Nat) (w : List (List Nat)) : List Nat :=
  let p := w.getD 7 []
  let sub (x : List Nat) : List Nat := x.map (aesLook aesSub)
  let t := if i % 8 = 0 then xorRow (sub (p.drop 1 ++ p.take 1)) [2 ^ (i / 8 - 1), 0, 0, 0]
    else if i % 8 = 4 then sub p else p
  xorRow (w.getD 0 []) t
/-- `n` words of the key schedule from word `i` on. -/
def aesWords : Nat → Nat → List (List Nat) → List (List Nat)
  | 0, _, _ => []
  | n + 1, i, w =>
    let x := aesNextWord i w
    x :: aesWords n (i + 1) (w.drop 1 ++ [x])
/-- Rows of `n` bytes. -/
def rowsOf (n : Nat) : Nat → List Nat → List (List Nat)
  | 0, _ => []
  | k + 1, l => l.take n :: rowsOf n k (l.drop n)
/-- The fifteen round keys of a 32-byte key. -/
def aesKeys (key : List Nat) : List (List Nat) :=
  let w := rowsOf 4 8 key
  rowsOf 16 15 (w ++ aesWords 52 8 w).flatten

/-- Row r of the state turns left by r places; the state holds its columns one after the other. -/
def shiftRows (x : List Nat) : List Nat := (upTo 16).map (fun i => x.getD ((i + 4 * (i % 4)) % 16) 0)
/-- The inverse. -/
def unshiftRows (x : List Nat) : List Nat := (upTo 16).map (fun i => x.getD ((i + 12 * (i % 4)) % 16) 0)
/-- Mix one column. -/
def mixColumn (c : List Nat) : List Nat :=
  let b (i : Nat) : Nat := c.getD (i % 4) 0
  (upTo 4).map (fun i => aesTwice (b i) ^^^ aesTwice (b (i + 1)) ^^^ b (i + 1) ^^^ b (i + 2) ^^^ b (i + 3))
/-- Mix the columns. -/
def mixColumns (x : List Nat) : List Nat := ((rowsOf 4 4 x).map mixColumn).flatten

/-- The rounds of a key from the second round key on: the last mixes no columns. -/
def aesRounds : List (List Nat) → List Nat → List Nat
  | [], x => x
  | [k], x => xorRow (shiftRows (x.map (aesLook aesSub))) k
  | k :: l :: ks, x => aesRounds (l :: ks) (xorRow (mixColumns (shiftRows (x.map (aesLook aesSub)))) k)
/-- AES-256 of a 16-byte block. -/
def aesEncrypt (keys : List (List Nat)) (x : List Nat) : List Nat := aesRounds (keys.drop 1) (xorRow x (keys.getD 0 []))

/-- The inverse rounds, with the round keys last first and the state as it stands before the key is taken off; mixing three times
undoes one mixing. -/
def aesUnrounds : List (List Nat) → List Nat → List Nat
  | [], y => y
  | [k], y => xorRow y k
  | k :: l :: ks, y => aesUnrounds (l :: ks)
      ((unshiftRows (mixColumns (mixColumns (mixColumns (xorRow y k))))).map (aesLook aesInv))
/-- The block that AES-256 enciphers to `x`. -/
def aesDecrypt (keys : List (List Nat)) (x : List Nat) : List Nat :=
  let r := keys.reverse
  aesUnrounds (r.drop 1) ((unshiftRows (xorRow x (r.getD 0 []))).map (aesLook aesInv))

/-! ### XTS -/

/-- The bytes of a number, the lowest first. -/
def natLe (v n : Nat) : List Nat := (upTo n).map (fun i => v / 256 ^ i % 256)
/-- The number of some bytes. -/
def leOf (l : List Nat) : Nat := l.foldr (fun b a => b + 256 * a) 0
/-- A tweak times the primitive element of IEEE 1619. -/
def tweakTwice (t : Nat) : Nat := if t < 2 ^ 127 then 2 * t else (2 * t % 2 ^ 128) ^^^ 0x87
/-- Each 16-byte block with its tweak, through a cipher of one block. -/
def xtsBlocks (f : List Nat → List Nat) : Nat → Nat → List Nat → List Nat
  | 0, _, _ => []
  | n + 1, t, x =>
    let tb := natLe t 16
    xorRow (f (xorRow (x.take 16) tb)) tb ++ xtsBlocks f n (tweakTwice t) (x.drop 16)
/-- The two keys of a 512-bit pair: of the data, then of the tweak (byte order: DEDUCED, log 158). -/
def xtsKeys (pair : BitVec 512) : List (List Nat) × List (List Nat) :=
  let b := natLe pair.toNat 64
  (aesKeys (b.take 32), aesKeys (b.drop 32))
/-- XTS-AES-256 of a 64-byte data unit (19 R459). -/
def xtsSeal (pair : BitVec 512) (tweak : Nat) (unit : List Nat) : List Nat :=
  let k := xtsKeys pair
  xtsBlocks (aesEncrypt k.1) 4 (leOf (aesEncrypt k.2 (natLe tweak 16))) unit
/-- The data unit of a ciphertext (19 R460). -/
def xtsOpen (pair : BitVec 512) (tweak : Nat) (unit : List Nat) : List Nat :=
  let k := xtsKeys pair
  xtsBlocks (aesDecrypt k.1) 4 (leOf (aesEncrypt k.2 (natLe tweak 16))) unit

/-! ### What HBM stores -/

/-- The tweak of the unit of byte `a` in a space: 0 a lease's addressable HBM, 1 its save areas and firmware's copies (19 R459). -/
def hbmTweak (space a : Nat) : Nat := space * 2 ^ 63 + a / 64
/-- The key of a lease's units; of HBM that no lease owns, the hub key (19 R458, R459). -/
def hbmKeyOf (s : State) (l : Option Nat) : BitVec 512 :=
  match l with
  | some l => (s.leaseOf l).key
  | none => s.sec.hubKey
/-- What a stack stores for a unit: of an owner, in a space, with the 64 bytes that its readers see. -/
def hbmStored (s : State) (owner : Option Nat) (space a : Nat) (bytes : List Byte) : List Byte :=
  (xtsSeal (hbmKeyOf s owner) (hbmTweak space a) (bytes.map BitVec.toNat)).map (BitVec.ofNat 8)
/-- What a reader of a stored unit sees (19 R460). -/
def hbmSeen (s : State) (owner : Option Nat) (space a : Nat) (bytes : List Byte) : List Byte :=
  (xtsOpen (hbmKeyOf s owner) (hbmTweak space a) (bytes.map BitVec.toNat)).map (BitVec.ofNat 8)
/-- The ciphertext of the unit that holds byte `a` of lease `l`'s memory. -/
def State.hbmCipher (s : State) (l a : Nat) : List Byte := hbmStored s (some l) 0 a (s.hbmRead l (a / 64 * 64) 64)

end Sys2Proof.Machine
end

