-- ==== Sys2Proof/Safety.lean ====
section
/-! DEFINITION. What counts as a good state, and the terms in which claims are stated: the canonical form of the
memories, a command of the mailbox under way, an instruction of a program that issues, a packet that may arrive. -/
namespace Sys2Proof.Machine

/-- The canonical form of the block's memories: lease HBM, on-chip SRAM, frames, and their poison marks. -/
def Memory.wf (s : State) : Bool :=
  Table.wf 0 s.hbm.mem && Table.wf false s.hbm.poison && Table.wf 0 s.fab.sram &&
    Table.wf false s.fab.sramPoison && Table.wf 0 s.fab.frames

/-- The message with bytes `b` that `fn` posted as number `seq` is in flight and firmware has begun it (16 R395). -/
def State.begun (s : State) (fn : Nat) (seq : Word) (b : List Byte) : Bool :=
  match flightOf s fn seq with
  | some x => x.wait == .begun && entryBytes x.msg.bytes == b
  | none => false

/-- The same, for a message of opcode `op` whose lease, if it names one, still stands: nobody has closed it since, and where it has lost
its owner the command may still act (17 Table 17.2, R415). -/
def State.asks (s : State) (fn : Nat) (seq : Word) (op : Nat) (b : List Byte) : Bool :=
  s.begun fn seq b && msgOp b == op && (staleStatus s fn op b).isNone

/-- The command of `fn` numbered `seq` waits in this way, with this move (16 R397). -/
def State.cmdWaits (s : State) (fn : Nat) (seq : Word) (w : CmdWait) (m : Option Move) : Bool :=
  match flightOf s fn seq with
  | some x => x.wait == w && x.move == m
  | none => false

/-- Program `h` is `p`, and its next instruction, which it may issue now, is the word `w` of opcode `op` (12 R311). -/
def State.issues (s : State) (h op : Nat) (p : Prog) (w : Nat) : Bool :=
  s.progOf h == some p && mayIssue s p && instrAt p.code p.pc == w && iOpN w == op

/-- Packet `i` of the network is `p`, and nothing on its way or at its destination keeps it from arriving: no earlier packet
of its order, the credits of its way, no reserved kind, no seam that refuses it, its destination's port on and its region running (08
R190, R192, R198, 11 R274, Table 11.7). -/
def State.mayArrive (s : State) (i : Nat) (p : Packet) : Bool :=
  s.fab.net[i]? == some p && !(mustWait s.fab.net i p) && (seamRefuses s p).isNone &&
    !(epIsTile p.dst && (s.absent (epTile p.dst) || (epIsCompute p.dst && (s.tileOf (epTile p.dst)).portOff) ||
      (epIsMem p.dst && (s.mtileOf (epTile p.dst)).portOff))) &&
    !(p.vn == vnStream && (dstRegion p).any (fun r => !(regionLive s r))) && atPort s i p && !(reservedKind p)

/-- The copy of page `p` that a read does not return carries no valid header with a later number: whatever its content, it
would not be the one that a read returns (18 R445). -/
def pageSound (p : Nat) (g : Page) : Prop :=
  ∀ content : List Byte,
    (pageCurrent p g = some true → copyValid p (content, g.hdrB) = true →
      seqLater (fieldAt g.hdrB 4 4) (fieldAt (copyOfA p g).2 4 4) = false) ∧
    (pageCurrent p g = some false → copyValid p (content, (copyOfA p g).2) = true →
      seqLater (fieldAt g.hdrB 4 4) (fieldAt (copyOfA p g).2 4 4) = true)

end Sys2Proof.Machine
end

