-- ==== Sys2Proof/Certificates/Slice0/Obligations.lean ====
section
/-! DEFINITION. The statements for the provers, file by file of the spec: what each family of commands does, what it leaves
alone, and what every step keeps. -/
open Sys2Proof Sys2Proof.Machine

/-! ### The block: its queue, its clock, its reset -/

/-- A step runs the command at the front of the queue on the rest of the queue, and answers its outcome. -/
def Obligations.StepRunsFrontCommand : Prop :=
  ∀ (s : State) (c : Instr), step { s with pending := c :: s.pending } = exec c s

/-- On an empty queue one tick of SCLK passes: the register writes that the device has accepted are in force (00 R10), record time rises by
one, and everything outside the fabric and the sections' progress counters stands.  That a step on an empty queue is a tick is the
model's choice (log 8). -/
def Obligations.EmptyQueueTicks : Prop :=
  (∀ s : State, s.pending = [] →
    let u := settleAll s
    ∃ t, step s = .next t ∧ t.sclk = u.sclk + 1 ∧ t.pending = u.pending ∧ t.dev = u.dev ∧
      t.boot = u.boot ∧ t.sec = u.sec ∧ t.power = u.power ∧ t.mod = u.mod ∧ t.ras = u.ras ∧ t.host = u.host ∧ t.own = u.own ∧
      t.hbm = u.hbm ∧ t.fab.net = u.fab.net ∧ t.fab.sram = u.fab.sram ∧ t.seq.progs = u.seq.progs ∧ t.out = u.out ∧
      t.free = u.free) ∧
  (∀ s : State, (∀ f, (s.fnOf f).regWrites = []) → settleAll s = s)

/-- After a cold reset the registers of the lock, the locked settings, Quench, the doorbells, the staged policy groups and the
ring state hold the values that their tables give for reset, and no lease, program or section exists. -/
def Obligations.ResetRegisters : Prop :=
  readLockState State.reset = 0xFFFF ∧ readQuench State.reset = 0 ∧ State.reset.sec.policy = 0 ∧ State.reset.sec.lock = false ∧
  (∀ d, (State.reset.clkOf d).freq.live = 0x502050 ∧ (State.reset.clkOf d).freq.staged = 0x502050) ∧
  State.reset.power.power.live = 1600 ∧ State.reset.power.scrub.live = 0x646464 ∧
  (∀ k, (State.reset.groupOf (.hbmArb k)).live = 0x1088) ∧
  (∀ f, (State.reset.fnOf f).dbRing = 0 ∧ (State.reset.fnOf f).queue = [] ∧ (State.reset.fnOf f).htLease = 0xFFFF ∧
    ringSize (State.reset.fnOf f).ring = 0 ∧ (State.reset.fnOf f).msixMask = 0xFFFF) ∧
  (∀ l, (State.reset.leaseOf l).st = .free) ∧ (∀ h, State.reset.progOf h = none) ∧ (∀ i, State.reset.secOf i = none) ∧
  State.reset.pending = [] ∧ State.reset.boot.lastRestart = 1

/-- The memories are in canonical form at reset. -/
def Obligations.ResetMemoryCanonical : Prop := Memory.wf State.reset = true

/-- Every step keeps the memories in canonical form: keys strictly rising, and no listed value equal to what an unlisted key
reads as. -/
def Obligations.StepKeepsMemoryCanonical : Prop :=
  ∀ s t : State, Memory.wf s = true → step s = .next t → Memory.wf t = true

/-! ### Memory -/

/-- What is written to lease HBM is read back, and every byte outside the written range, of any lease, reads as before;
neither write moves a byte on chip. -/
def Obligations.HbmReadAfterWrite : Prop :=
  ∀ (s : State) (l a : Nat) (bs : List Byte), a + bs.length ≤ 2 ^ 40 →
    (s.hbmWrite l a bs).hbmRead l a bs.length = bs ∧
    (∀ k j, j < 2 ^ 40 → (k ≠ l ∨ j < a ∨ a + bs.length ≤ j) → (s.hbmWrite l a bs).hbmByte k j = s.hbmByte k j) ∧
    (s.hbmWrite l a bs).fab = s.fab

/-- The bytes of a tile's SRAM and their poison: a write of whole lines without poison is read back unpoisoned, a write with
poison marks every line that it touches, and other tiles read as before (07 R180, 06 R154). -/
def Obligations.SramReadAfterWrite : Prop :=
  ∀ (s : State) (t a : Nat) (bs : List Byte) (p : Bool), a + bs.length ≤ 2 ^ 21 →
    (s.sramWrite t a bs p).sramRead t a bs.length = bs ∧
    (∀ u b n, u ≠ t → b + n ≤ 2 ^ 21 → (s.sramWrite t a bs p).sramRead u b n = s.sramRead u b n) ∧
    (bs ≠ [] → (s.sramWrite t a bs true).sramPoisoned t a bs.length = true) ∧
    (a % 64 = 0 → bs.length % 64 = 0 → (s.sramWrite t a bs false).sramPoisoned t a bs.length = false)

/-! ### Host registers -/

/-- While a function's BARs are closed (its link down, the function not ready, Memory Space Enable 0, in D3hot, or its stream
not Secure where the policy asks for it), a write to any of its registers changes nothing and is answered with Unsupported
Request, and so are a write and a read of its windows. -/
def Obligations.ClosedBarRefusesWrites : Prop :=
  ∀ (s : State) (fn : Nat), s.barOpen fn = false →
    (∀ (g : Group) (n : Nat) (v : Word) (w : DWord) (size : Nat) (b : Bool),
      ∀ c ∈ ([.commit fn g v, .mbxPost fn v, .mbxPostShort fn size w, .mbxRingConsWrite fn v, .evtRingConsWrite fn v,
          .dbRing fn v, .htallySignal fn n v, .htallyArm fn n v, .hlatchReq fn n v, .hlatchRel fn n v, .stwLockAcquire fn v,
          .stwLockRelease fn v, .htallyLeaseWrite fn v, .msixVectorUnmask fn n, .ordFlushRead fn b] : List Instr),
        exec c s = .next (s.emit (.unsupported fn))) ∧
    (∀ bar4 off size v late, exec (.registerWrite bar4 fn off size v late) s = .next (s.emit (.unsupported fn))) ∧
    (∀ off data ep, exec (.hostWindowWrite fn off data ep) s = .next (s.emit (.unsupported fn))) ∧
    (∀ off en ro at_ f, exec (.hostWindowRead fn off en ro at_ f) s = .next (s.emit (.unsupported fn)))

/-- R10: a register write is in force when it is accepted, after the earlier ones of its function, or only later; until then every read
and every other function's register stands.  REGISTER_WRITE to MBX_MSG: the word reads back as written, the other words and every
other function stand, and nothing outside the functions changes. -/
def Obligations.RegisterWriteReadsBack : Prop :=
  (∀ (s : State) (fn i : Nat) (v : DWord), s.barOpen fn = true → i < 16 →
    let u := settleRegs fn s
    ∃ t, exec (.registerWrite false fn (0x1000 + 4 * i) 4 v false) s = .next t ∧
      readReg t fn (0x1000 + 4 * i) = v.truncate 32 ∧
      (∀ j, j < 16 → j ≠ i → readReg t fn (0x1000 + 4 * j) = readReg u fn (0x1000 + 4 * j)) ∧
      (∀ g, g ≠ fn → t.fnOf g = u.fnOf g) ∧
      t = { u with host := { u.host with fns := t.host.fns } }) ∧
  (∀ (s : State) (bar4 : Bool) (fn off size : Nat) (v : DWord), s.barOpen fn = true →
    let t := s.updFn fn (fun y => { y with
      regWrites := y.regWrites ++ [{ bar4 := bar4, off := off, size := size, val := v }] })
    exec (.registerWrite bar4 fn off size v true) s = .next t ∧
    (∀ b k n, hostRead t b fn k n = hostRead s b fn k n) ∧ (∀ g, g ≠ fn → t.fnOf g = s.fnOf g)) ∧
  (∀ (s : State) (fn : Nat), (s.fnOf fn).regWrites = [] → settleRegs fn s = s)

/-- R6: an access that is not naturally aligned, or of another size, discards its write, and its read completes with 0.  R7: a 64-bit
read returns both halves of one state, and 32-bit reads of the halves return the same. -/
def Obligations.MisalignedAccessDiscarded : Prop :=
  (∀ (s : State) (bar4 : Bool) (fn off size : Nat) (v : DWord), ¬(size = 4 ∧ off % 4 = 0) → ¬(size = 8 ∧ off % 8 = 0) →
    hostRead s bar4 fn off size = 0 ∧
    (s.barOpen fn = true → exec (.registerWrite bar4 fn off size v false) s = .next (settleRegs fn s))) ∧
  (∀ (s : State) (bar4 : Bool) (fn off : Nat), off % 8 = 0 →
    (hostRead s bar4 fn off 8).truncate 32 = (hostRead s bar4 fn off 4).truncate 32 ∧
    (hostRead s bar4 fn off 8 >>> 32).truncate 32 = (hostRead s bar4 fn (off + 4) 4).truncate 32)

/-- R16, R15: while COMMIT_PENDING is 1 a write to a staged field sets stage_drop and leaves the staged copy, and a further
request has no effect; a request sets COMMIT_PENDING; the transfer moves the whole staged group to the live copy and clears
COMMIT_PENDING.  Stated for TMP_POWER, with the steward writing. -/
def Obligations.StagedCommitTransfer : Prop :=
  ∀ (s : State) (fn : Nat), s.barOpen fn = true →
    let u := settleRegs fn s
    u.isSteward fn = true → fnIsPf fn = true →
    -- a request
    exec (.commit fn .power 1) s = .next (u.setGroup .power { u.groupOf .power with pending := true }) ∧
    -- while it is pending
    (u.power.power.pending = true →
      (∀ v : DWord, exec (.registerWrite false fn 0x8130 4 v false) s =
        .next { u with power := { u.power with power := { u.power.power with drop := true } } }) ∧
      exec (.commit fn .power 1) s = .next u ∧
      -- the transfer, where no command waits for it
      (u.host.flights = [] → exec (.commitTransfer .power) u =
        .next { u with power := { u.power with power :=
          { u.power.power with live := u.power.power.staged, pending := false } } }))

/-- R390: at the transfer of a ring's group MBX_RING_PROD and MBX_RING_CONS become 0 and the new settings are live.  R394, R551: the
host's consumer counts are stored, and with no entry held nothing else changes. -/
def Obligations.RingCounters : Prop :=
  (∀ (s : State) (f : Nat), (s.fnOf f).ring.grp.pending = true → (s.fnOf f).held = [] → s.host.flights = [] →
     ∃ t, exec (.commitTransfer (.ring f)) s = .next t ∧ (t.fnOf f).ring.prod = 0 ∧ (t.fnOf f).ring.cons = 0 ∧
       (t.fnOf f).ring.grp.live = (s.fnOf f).ring.grp.staged ∧ (t.fnOf f).ring.grp.pending = false ∧
       (∀ g, g ≠ f → t.fnOf g = s.fnOf g) ∧ t = { s with host := { s.host with fns := t.host.fns } }) ∧
  (∀ (s : State) (fn : Nat) (v : Word), s.barOpen fn = true →
     let u := settleRegs fn s
     exec (.mbxRingConsWrite fn v) s =
       .next ((u.updFn fn (fun y => { y with ring := { y.ring with cons := v } })).drainHeld fn 64) ∧
     ((u.fnOf fn).held = [] → exec (.mbxRingConsWrite fn v) s =
       .next (u.updFn fn (fun y => { y with ring := { y.ring with cons := v } }))) ∧
     exec (.evtRingConsWrite fn v) s = .next (u.updFn fn (fun y => { y with evt := { y.evt with cons := v } })))

/-- R385, R386: MBX_POST posts the 64 bytes of MBX_MSG, a 64-bit MBX_POST_SHORT its eight bytes and zeros; a post that finds
fewer than 32 messages appends its message under the next sequence number, and one that finds 32 is rejected with a Completer
Abort, which AER logs and signals as its mask and severity say, and its would-be number in last_reject_seq. -/
def Obligations.PostAppendsOrRejects : Prop :=
  ∀ (s : State) (fn off : Nat) (bytes : Entry) (c : Instr), s.barOpen fn = true →
    let u := settleRegs fn s
    let x := u.fnOf fn
    ((c = .mbxPost fn 1 ∧ off = 0x1040 ∧ bytes = x.msg) ∨
      (∃ v : DWord, c = .mbxPostShort fn 8 v ∧ off = 0x1048 ∧ bytes = v.zeroExtend 512)) →
    (x.queue.length < 32 → exec c s = .next (u.setFn fn { x with
        queue := x.queue ++ [{ seq := x.nextSeq, bytes := bytes }],
        nextSeq := x.nextSeq + 1,
        queueWm := sampleWm x.queueWm (decide (24 ≤ x.queue.length + 1)) })) ∧
    (32 ≤ x.queue.length →
      let y : Fn := { x with rejectedCount := satInc x.rejectedCount 65535, rejectValid := true, lastRejectSeq := x.nextSeq }
      let z : Fn := { y with aerStatus := y.aerStatus ||| (1#32 <<< 15) }
      (y.aerMask.getLsbD 15 = true → exec c s = .next (u.setFn fn z)) ∧
      (y.aerMask.getLsbD 15 = false → y.aerLog = none → exec c s = .next
        ((u.setFn fn { z with aerLog := some { bar := 0, off := off, bit := 15 } }).emit
          (.errMessage fn (y.aerSeverity.getLsbD 15)))) ∧
      ∃ l, y.aerMask.getLsbD 15 = false → exec c s = .next
        ((u.setFn fn { z with aerLog := some l }).emit (.errMessage fn (y.aerSeverity.getLsbD 15))))

/-- R391, R392: a reply entry goes to 64 × (prod mod 2^size_log2) of the ring, bytes 1 to 63 first and byte 0 second with the
phase floor(prod / 2^size_log2) even, then MBX_RING_PROD rises by one; R393: a full ring holds up to 64 entries and then
counts each dropped one. -/
def Obligations.ReplyRingWrites : Prop :=
  ∀ (s : State) (f : Nat) (e : Entry),
    let r := (s.fnOf f).ring
    let a := s.attr f 0 false false false
    ((s.fnOf f).held = [] → s.replyRoom f = true →
      s.produce f e = s.writeReply f e ∧
      ∃ o, (s.writeReply f e).out = s.out ++
        [.memWrite f (ringBase r + 64 * (r.prod.toNat % ringSize r) + 1)
            ((entryBytes (if r.prod.toNat / ringSize r % 2 = 0 then e ||| 1#512 else e &&& ~~~ 1#512)).drop 1) a,
         .memWrite f (ringBase r + 64 * (r.prod.toNat % ringSize r))
            ((entryBytes (if r.prod.toNat / ringSize r % 2 = 0 then e ||| 1#512 else e &&& ~~~ 1#512)).take 1) a] ++ o ∧
        (o = [] ∨ o = [.msix f 0])) ∧
    (s.replyRoom f = false → (s.fnOf f).held.length < 64 →
      s.produce f e = s.updFn f (fun y => { y with held := y.held ++ [e] })) ∧
    (s.replyRoom f = false → 64 ≤ (s.fnOf f).held.length →
      s.produce f e = s.updFn f (fun y => { y with replyDropped := y.replyDropped + 1 }))

/-- R225: a ring sets its bits, and service of a rung bit clears it and adds 1 to the tally that it is bound to.  R228: a request to a
free host latch makes its tag the holder, and to a held one, or with tag 0, is discarded; a release whose tag matches frees the
latch, and any other sets rel_mismatch.  R212: an index beyond the lease's page is discarded and reported in a TILE_FAULT record. -/
def Obligations.DoorbellsAndHostLatches : Prop :=
  (∀ (s : State) (fn : Nat),
     (∀ v : Word, s.barOpen fn = true → exec (.dbRing fn v) s =
       .next ((settleRegs fn s).updFn fn (fun y => { y with dbRing := y.dbRing ||| v }))) ∧
     (∀ bit, (s.fnOf fn).dbRing.getLsbD bit = true →
       ((s.fnOf fn).dbBind.get none bit = none → exec (.doorbellService fn bit) s =
         .next (s.updFn fn (fun y => { y with dbRing := y.dbRing &&& ~~~ (1#32 <<< bit) }))) ∧
       (∀ l n, (s.fnOf fn).dbBind.get none bit = some (l, n) → exec (.doorbellService fn bit) s =
         .next ((s.updFn fn (fun y => { y with dbRing := y.dbRing &&& ~~~ (1#32 <<< bit) })).addHTally l n 1)))) ∧
  (∀ (s : State) (fn j l : Nat) (v : Word), s.barOpen fn = true →
     let u := settleRegs fn s
     let h := (u.leaseOf l).hlatch.get {} j
     let tag : Half := BitVec.ofNat 16 (v.toNat % 65536)
     let put (x : HLatch) : State := u.updLease l (fun y => { y with hlatch := y.hlatch.set {} j x })
     (u.pageLease fn = none → exec (.hlatchReq fn j v) s = .next u ∧ exec (.hlatchRel fn j v) s = .next u) ∧
     (u.pageLease fn = some l →
       (j < (u.leaseOf l).latches →
         (h.holder = 0 → tag ≠ 0 → exec (.hlatchReq fn j v) s = .next (put { h with holder := tag })) ∧
         (h.holder ≠ 0 ∨ tag = 0 → exec (.hlatchReq fn j v) s = .next u) ∧
         (h.holder ≠ 0 → tag = h.holder → exec (.hlatchRel fn j v) s = .next (put { h with holder := 0, abandoned := false })) ∧
         (h.holder = 0 ∨ tag ≠ h.holder → exec (.hlatchRel fn j v) s = .next (put { h with relMismatch := true }))) ∧
       ((u.leaseOf l).latches ≤ j → ∀ c ∈ ([.hlatchReq fn j v, .hlatchRel fn j v] : List Instr),
         exec c s = .next (u.eventLease { type := 0x01, body := leBytes j 4 } l))))

/-- R213: HTALLY_SIGNAL adds its amount to the tally of the lease that the page shows, modulo 65,536; R214, R218: a wait on target t is
satisfied when (value − t) mod 65,536 < 32,768, and the wait on it that the new value satisfies goes on, and an armed tally that it satisfies is disarmed.  No other lease changes.  R212: a signal to
an index beyond the page is discarded and reported. -/
def Obligations.HostTallySignalAdds : Prop :=
  (∀ value t : Half, waitHolds value t = true ↔ (value.toNat + 65536 - t.toNat) % 65536 < 32768) ∧
  (∀ (s : State) (fn n l : Nat) (v : Word), s.barOpen fn = true →
    let u := settleRegs fn s
    let old := (u.leaseOf l).htally.get {} n
    u.pageLease fn = some l →
    ((u.leaseOf l).tallies ≤ n → exec (.htallySignal fn n v) s = .next (u.eventLease { type := 0x01, body := leBytes n 4 } l)) ∧
    (n < (u.leaseOf l).tallies →
      exec (.htallySignal fn n v) s = .next (u.addHTally l n (v.toNat % 65536)) ∧
      ∃ t, exec (.htallySignal fn n v) s = .next t ∧
        ((t.leaseOf l).htally.get {} n).value = old.value + v.truncate 16 ∧
        (∀ m, m ≠ n → (t.leaseOf l).htally.get {} m = (u.leaseOf l).htally.get {} m) ∧
        (∀ k, k ≠ l → t.leaseOf k = u.leaseOf k) ∧
        (old.armed = true → waitHolds (old.value + v.truncate 16) old.target = true →
          ((t.leaseOf l).htally.get {} n).armed = false) ∧
        (∀ h p, u.progOf h = some p → p.lease = l → (∃ g, p.wait = .wait n g ∧
            waitHolds (old.value + v.truncate 16) (BitVec.ofNat 16 g) = true) →
          ∃ q, t.progOf h = some q ∧ q.wait = .satisfied)))

/-- R223: HTALLY_ARM applies its fields together and replaces the arming, whether or not the tally was armed; a vector of 0 or 1
keeps the previous vector and the other fields are applied; a tally whose target holds already has fired and is disarmed at
once (R218); Table 9.4: an entry beyond the lease's count discards the write. -/
def Obligations.HostTallyArm : Prop :=
  ∀ (s : State) (fn n l : Nat) (v : Word), s.barOpen fn = true →
    let u := settleRegs fn s
    let old := (u.leaseOf l).htally.get {} n
    let target : Half := BitVec.ofNat 16 (v.toNat % 65536)
    let new : HTally := { old with
      armed := v.getLsbD 31, target := target, vector := if v.toNat / 65536 % 16 < 2 then old.vector else v.toNat / 65536 % 16 }
    let put (x : HTally) : State := u.updLease l (fun y => { y with htally := y.htally.set {} n x })
    (u.pageLease fn = none → exec (.htallyArm fn n v) s = .next u) ∧
    (u.pageLease fn = some l →
      ((u.leaseOf l).tallies ≤ n → exec (.htallyArm fn n v) s = .next u) ∧
      (n < (u.leaseOf l).tallies →
        (v.getLsbD 31 = false ∨ waitHolds old.value target = false → exec (.htallyArm fn n v) s = .next (put new)) ∧
        (v.getLsbD 31 = true → waitHolds old.value target = true →
          ∃ t, exec (.htallyArm fn n v) s = .next t ∧ (t.leaseOf l).htally.get {} n = { new with armed := false } ∧
            (∀ m, m ≠ n → (t.leaseOf l).htally.get {} m = (u.leaseOf l).htally.get {} m) ∧
            (∀ k, k ≠ l → t.leaseOf k = u.leaseOf k))))

/-- R412: an acquire write from a PF makes it the holder when the lock is free and is discarded while it is held; a release from the
holder frees the lock, from any other it is discarded; a write with both bits set is discarded.  R550: HTALLY_LEASE takes 0xFFFF
and a lease that the function owns as OPEN; any other value leaves it as it was. -/
def Obligations.StewardLockAndTallyPage : Prop :=
  (∀ (s : State) (fn : Nat), s.barOpen fn = true →
     let u := settleRegs fn s
     (fnIsPf fn = true → u.host.steward = 0xFFFF →
       exec (.stwLockAcquire fn 1) s = .next { u with host := { u.host with steward := fn } }) ∧
     (u.host.steward ≠ 0xFFFF → exec (.stwLockAcquire fn 1) s = .next u) ∧
     (u.isSteward fn = true → exec (.stwLockRelease fn 2) s =
       .next { u with host := { u.host with steward := 0xFFFF, lockAband := false } }) ∧
     (u.isSteward fn = false → exec (.stwLockRelease fn 2) s = .next u) ∧
     exec (.stwLockAcquire fn 3) s = .next u ∧ exec (.stwLockRelease fn 3) s = .next u) ∧
  (∀ (s : State) (fn : Nat) (v : Word), s.barOpen fn = true →
     let u := settleRegs fn s
     let l := v.toNat % 65536
     ((l = 0xFFFF ∨ ((u.leaseOf l).st = .opened ∧ (u.leaseOf l).owner = fn)) →
       exec (.htallyLeaseWrite fn v) s = .next (u.updFn fn (fun y => { y with htLease := l }))) ∧
     (¬(l = 0xFFFF ∨ ((u.leaseOf l).st = .opened ∧ (u.leaseOf l).owner = fn)) → exec (.htallyLeaseWrite fn v) s = .next u))

/-! ### Windows and ordering -/

/-- R367, R368, R371: a BAR2 write whose bytes lie in one writable window is accepted for lease HBM byte hbm_off + i of BAR2 byte
bar_off + i; when it lands, after the earlier writes of its function to the same bytes, its bytes are in lease HBM, its window's
landing counter has risen by their number, and it is no longer under way.  R384: a poisoned one is logged by AER, and marks each unit
that it touches.  R369: one that no writable window maps is discarded and recorded. -/
def Obligations.WindowWriteLands : Prop :=
  (∀ (s : State) (fn off : Nat) (data : List (Option Byte)) (ep : Bool), s.barOpen fn = true → data ≠ [] →
    off + data.length ≤ 2 ^ (s.fnOf fn).bar2Log2 →
    let after (u : State) : State := if ep then u.aerError fn 12 2 off else u
    (∀ i w, w.writable = true → (∀ k, k < data.length → windowAt s fn (off + k) = some (i, w)) →
      let x : WinWrite := { id := s.host.nextWrite, fn := fn, window := i, lease := w.lease,
                            addr := w.hbmOff + (off - w.barOff), barOff := off, data := data, ep := ep }
      exec (.hostWindowWrite fn off data ep) s = .next (after
        { s with host := { s.host with nextWrite := s.host.nextWrite + 1, writes := s.host.writes ++ [x] } })) ∧
    ((∀ k, k < data.length → windowAt s fn (off + k) = none) → data.any Option.isSome = true →
      exec (.hostWindowWrite fn off data ep) s = .next (windowFault fn off true (after s)))) ∧
  (∀ (s : State) (x : WinWrite), s.host.writes.find? (fun w => w.id == x.id) = some x →
    let u : State := { s with host := { s.host with writes := s.host.writes.filter (fun w => w.id != x.id) } }
    (x.lost = true → exec (.windowWriteLands x.id) s = .next (windowFault x.fn x.barOff true u)) ∧
    (x.lost = false → behindOwn s x = true → exec (.windowWriteLands x.id) s = .next s) ∧
    (x.lost = false → behindOwn s x = false → ∀ v, (s.fnOf x.fn).windows.get none x.window = some v →
      ∃ t, exec (.windowWriteLands x.id) s = .next t ∧ t.hbm = (landBytes x.lease x.addr x.data x.ep s).hbm ∧
        (∀ bytes, x.ep = false → x.data = bytes.map some → t.hbm = (s.hbmWrite x.lease x.addr bytes).hbm) ∧
        (t.fnOf x.fn).windows.get none x.window =
          some { v with landing := v.landing + BitVec.ofNat 64 (x.data.filter Option.isSome).length } ∧
        (∀ y ∈ t.host.writes, y.id ≠ x.id) ∧ (∀ g, g ≠ x.fn → t.fnOf g = s.fnOf g) ∧ t.fab = s.fab ∧ t.own = s.own ∧
        t.out = s.out))

/-- R366, R367: a BAR2 read completes with the bytes that it enables, each 64-byte unit as it stands, with the unit's poison as EP; with
none of the function's own writes under way these are the bytes of lease HBM.  R369: a read that no window maps returns zeros and is
recorded in ORD_WIN_FAULT, and while valid is 1 only counted.  R425, R426: what a read finds in HBM is dealt with first. -/
def Obligations.WindowReads : Prop :=
  (∀ (s : State) (fn off : Nat) (en : List Bool) (ro : Bool), s.barOpen fn = true →
    off + en.length ≤ 2 ^ (s.fnOf fn).bar2Log2 → 0 < en.length →
    let ps := unitPieces off en.length (en.length / 64 + 2)
    (s.host.writes.filter (fun w => w.fn == fn && !w.lost) = [] →
      (∀ w : Nat → InWin, (∀ p ∈ ps, ∃ i, windowAt s fn p.1 = some (i, w p.1)) →
        ∀ at_, exec (.hostWindowRead fn off en ro at_ .clean) s = .next { s with out := s.out ++ ps.map (fun p =>
          .completion fn (enabledBytes fn p.1 (s.hbmRead (w p.1).lease ((w p.1).hbmOff + (p.1 - (w p.1).barOff)) p.2)
              (en.drop (p.1 - off)))
            (s.hbmPoisoned (w p.1).lease ((w p.1).hbmOff + (p.1 - (w p.1).barOff))) ro) })) ∧
    (off % 64 + en.length ≤ 64 → windowAt s fn off = none →
      ∀ at_, exec (.hostWindowRead fn off en ro at_ .clean) s = .next (windowFault fn off false
        (s.emit (.completion fn (enabledBytes fn off (List.replicate en.length 0) en) false ro))))) ∧
  (∀ (s : State) (fn off : Nat) (en : List Bool) (ro : Bool) (at_ : Nat) (f : Finding) (i : Nat) (w : InWin),
    s.barOpen fn = true → off + en.length ≤ 2 ^ (s.fnOf fn).bar2Log2 → windowAt s fn (off + at_) = some (i, w) →
    exec (.hostWindowRead fn off en ro at_ f) s =
      exec (.hostWindowRead fn off en ro at_ .clean) (hbmFinding w.lease (w.hbmOff + (off + at_ - w.barOff)) 4 0 f s)) ∧
  (∀ (s : State) (fn off : Nat) (write : Bool), (s.fnOf fn).winFault.valid = true →
    windowFault fn off write s = s.updFn fn (fun y =>
      { y with winFault := { y.winFault with count := satInc y.winFault.count 255 } }))

/-- R377: a read of ORD_FLUSH waits for the window writes that the port received before it, stays while one of them is under
way, and completes with 0 once all have landed and the function's register writes are in force. -/
def Obligations.FlushWaitsForWrites : Prop :=
  ∀ (s : State) (fn : Nat),
    (∀ ro, s.barOpen fn = true → exec (.ordFlushRead fn ro) s =
      .next (s.updFn fn (fun y => { y with flushes := y.flushes ++ [(openWrites s fn, ro)] }))) ∧
    (∀ ids ro r, (s.fnOf fn).flushes = (ids, ro) :: r →
      ((∃ i ∈ ids, i ∈ openWrites s fn) → exec (.flushComplete fn) s = .next s) ∧
      ((∀ i ∈ ids, i ∉ openWrites s fn) → exec (.flushComplete fn) s =
        .next (((settleRegs fn s).updFn fn (fun y => { y with flushes := r })).emit (.completion fn [0, 0, 0, 0] false ro))))

/-- R382: a message for a masked vector sets its pending bit and sends nothing; when the vector is unmasked the device sends it
and clears the bit, and with no bit pending only unmasks. -/
def Obligations.MsixPendingAndUnmask : Prop :=
  ∀ (s : State) (fn v : Nat), v < 16 →
    ((s.fnOf fn).msixMask.getLsbD v = true →
      s.msix fn v = s.updFn fn (fun y => { y with msixPba := y.msixPba ||| (1#16 <<< v) })) ∧
    (s.barOpen fn = true →
      let u := settleRegs fn s
      ((u.fnOf fn).msixPba.getLsbD v = false → exec (.msixVectorUnmask fn v) s =
        .next (u.updFn fn (fun y => { y with msixMask := y.msixMask &&& ~~~ (1#16 <<< v) }))) ∧
      ((u.fnOf fn).msixPba.getLsbD v = true → (u.fnOf fn).msixEnable = true → (u.fnOf fn).msixFMask = false →
        u.canSend fn = true →
        ∃ t, exec (.msixVectorUnmask fn v) s = .next t ∧ t.out = u.out ++ [.msix fn v] ∧
          (t.fnOf fn).msixPba.getLsbD v = false ∧ (t.fnOf fn).msixMask.getLsbD v = false ∧
          (∀ g, g ≠ fn → t.fnOf g = u.fnOf g)))

/-! ### Functions, ports and links -/

/-- R504, R370: a configuration request to a function that is not ready is answered with RRS and changes nothing; to a ready one
it takes effect, each as Table 15.1 and PCIe give it, and an AtomicOp is answered with Unsupported Request.  A released port with
PERST# high trains; a function is ready from step 12; BAR2 takes a new size while Memory Space Enable is 0, with its windows left
mapped. -/
def Obligations.ConfigurationOfFunctions : Prop :=
  ∀ (s : State) (fn : Nat),
    ((s.portOf (fnPort fn)).linkUp = true → s.fnEnabled fn = true →
      ((s.fnOf fn).ready = false → ∀ op, exec (.configRequest fn op) s = .next (s.emit (.retryStatus fn))) ∧
      ((s.fnOf fn).ready = true →
        (∀ off, exec (.configRequest fn (.read off)) s = .next (s.emit (.cfgData fn (cfgRead s fn off)))) ∧
        (∀ b, exec (.configRequest fn (.setMse b)) s = .next (s.updFn fn (fun y => { y with mse := b }))) ∧
        exec (.configRequest fn .setBme) s = .next ((s.updFn fn (fun y => { y with bme := true })).drainHeld fn 64) ∧
        exec (.configRequest fn .setD0) s = .next ((s.updFn fn (fun y => { y with d3hot := false })).drainHeld fn 64) ∧
        (∀ b, exec (.configRequest fn (.setEro b)) s = .next (s.updFn fn (fun y => { y with ero := b }))) ∧
        (∀ b, exec (.configRequest fn (.setMsixEnable b)) s = .next (s.updFn fn (fun y => { y with msixEnable := b }))) ∧
        exec (.configRequest fn (.setMsixFunctionMask true)) s = .next (s.updFn fn (fun y => { y with msixFMask := true })) ∧
        (∀ v, exec (.configRequest fn (.maskVector v)) s =
          .next (s.updFn fn (fun y => { y with msixMask := y.msixMask ||| (1#16 <<< v) }))) ∧
        (∀ k, k ≤ 2 → exec (.configRequest fn (.setMps k)) s = .next (s.updFn fn (fun y => { y with mps := k }))) ∧
        (∀ k, k ≤ 5 → exec (.configRequest fn (.setMrrs k)) s = .next (s.updFn fn (fun y => { y with mrrs := k }))) ∧
        (∀ i v, exec (.configRequest fn (.setBar i v)) s = .next (s.updFn fn (fun y => { y with bars := y.bars.set 0 i v }))) ∧
        (∀ v, exec (.configRequest fn (.setAerMask v)) s = .next (s.updFn fn (fun y => { y with aerMask := v }))) ∧
        (∀ v, exec (.configRequest fn (.setAerSeverity v)) s = .next (s.updFn fn (fun y => { y with aerSeverity := v }))) ∧
        (∀ v, exec (.configRequest fn (.clearAer v)) s =
          .next (s.updFn fn (fun y => { y with aerStatus := y.aerStatus &&& ~~~ v }))) ∧
        (∀ n, fnIsPf fn = true → n ≤ 256 → s.boot.state ≠ 6 → exec (.configRequest fn (.enableVfs n)) s =
          .next (s.setPort (fnPort fn) { s.portOf (fnPort fn) with numVfs := n, vfEnable := true })) ∧
        exec (.configRequest fn .atomicOp) s = .next (s.emit (.unsupported fn)))) ∧
    ((s.fnOf fn).ready = true →
      exec (.busMasterEnableClear fn) s = .next (s.updFn fn (fun y => { y with bme := false })) ∧
      exec (.d3hotEntry fn) s = .next (s.updFn fn (fun y => { y with d3hot := true })) ∧
      (∀ k, 26 ≤ k → k ≤ 38 → (s.fnOf fn).mse = false →
        exec (.bar2Resize fn k) s = .next (s.updFn fn (fun y => { y with bar2Log2 := k }))) ∧
      (∀ k, (s.fnOf fn).mse = true → exec (.bar2Resize fn k) s = .next s)) ∧
    ((s.portOf (fnPort fn)).linkUp = true → s.fnEnabled fn = true → s.boot.step = 12 →
      exec (.functionReady fn) s = .next (s.updFn fn (fun y => { y with ready := true }))) ∧
    (s.boot.step ≠ 12 → exec (.functionReady fn) s = .next s) ∧
    (∀ port, mayTrain s port = true → exec (.linkUp port) s =
      .next (s.setPort port { s.portOf port with linkUp := true })) ∧
    (∀ port, exec (.perstDeassert port) s =
      .next (s.setPort port { s.portOf port with perstHigh := true, d3cold := false }))

/-- R387, R373, R414: a hot reset, a link-down, PERST# or D3cold of a port takes its link down, ends its SPDM session and IDE
streams, clears VF Enable, and every lease that a function of the port owns as OPEN enters DRAINING; clearing VF Enable alone does so
for the leases of the PF's virtual functions, and the link stands. -/
def Obligations.PortResets : Prop :=
  (∀ (s : State) (port : Nat),
    exec (.hotReset port) s = .next (resetPort s port) ∧ exec (.linkDown port) s = .next (resetPort s port) ∧
    exec (.perstAssert port) s = .next ((resetPort s port).setPort port { (resetPort s port).portOf port with perstHigh := false }) ∧
    exec (.d3coldEntry port) s = .next ((resetPort s port).setPort port { (resetPort s port).portOf port with d3cold := true }) ∧
    ((s.fnOf (257 * port)).ready = true → exec (.vfEnableClear port) s = .next (clearVfs s port))) ∧
  (∀ (s : State) (port : Nat),
    let t := resetPort s port
    t.portOf port = { s.portOf port with linkUp := false, ide := [], spdm := .start, vfEnable := false, numVfs := 0 } ∧
    (∀ q, q ≠ port → t.portOf q = s.portOf q) ∧
    (∀ l, l ∈ s.openIds → fnPort (s.leaseOf l).owner = port → (t.leaseOf l).st = .draining) ∧
    t.hbm = s.hbm ∧ t.fab.sram = s.fab.sram) ∧
  (∀ (s : State) (port : Nat),
    let t := clearVfs s port
    t.portOf port = { s.portOf port with vfEnable := false, numVfs := 0 } ∧
    (∀ q, q ≠ port → t.portOf q = s.portOf q) ∧
    (∀ l, l ∈ s.openIds → fnPort (s.leaseOf l).owner = port → fnIsPf (s.leaseOf l).owner = false →
      (t.leaseOf l).st = .draining) ∧
    (∀ l, l ∈ s.openIds → fnPort (s.leaseOf l).owner ≠ port ∨ fnIsPf (s.leaseOf l).owner = true → t.leaseOf l = s.leaseOf l))

/-- R387: a function-level reset of a virtual function returns its mailbox, rings, windows and configuration to reset and
discards the replies of the commands that firmware has taken from it; R414: every lease that it owns as OPEN enters DRAINING; the
reset of a PF does the same for it after its virtual functions. -/
def Obligations.FunctionLevelReset : Prop :=
  (∀ (s : State) (fn : Nat), fnIsPf fn = false → s.isSteward fn = false →
    exec (.functionLevelReset fn) s = .next (resetFn s fn) ∧ (resetFn s fn).fnOf fn = {}) ∧
  (∀ (s : State) (fn : Nat), fnIsPf fn = true → exec (.functionLevelReset fn) s = .next (resetFn (clearVfs s (fnPort fn)) fn)) ∧
  (∀ (s : State) (fn : Nat),
    (∀ x ∈ (resetFn s fn).host.flights, x.fn = fn → x.discard = true) ∧
    (∀ l, l ∈ s.openOf fn → ((resetFn s fn).leaseOf l).st = .draining ∧ ((resetFn s fn).leaseOf l).formerOwner = fn))

/-! ### The mailbox -/

/-- R395, R396: firmware takes the oldest message of a function's queue.  The first of the checks that fails is the reply's status and
the message does nothing more; its reply, like the start of one that passes, waits while an earlier message of the function that
names the same lease is without its reply.  A message that waited then replies with that status or begins, with checks 4 and 5 made
again.  A command of a lease that another command has closed since it began replies NO_LEASE (17 Table 17.2); of one that has lost its
owner, DORMANT where it would start or go on with a program (17 R415; log 154). -/
def Obligations.MessagesTakenAndBegun : Prop :=
  (∀ (s : State) (fn : Nat) (m : Msg) (r : List Msg), (s.fnOf fn).queue = m :: r →
     let b := entryBytes m.bytes
     let u := s.updFn fn (fun y => { y with queue := r, queueWm := sampleWm y.queueWm (decide (24 ≤ r.length)) })
     (∀ st, takeChecks u fn b = some st → exec (.messageTake fn) s = .next
       (if mayBegin fn (msgLease b) u.host.flights = true then
          u.produce fn (replyEntry 0 st 0 (msgOp b) (fieldAt b 2 2) (msgLease b) m.seq.toNat [])
        else { u with host := { u.host with flights := u.host.flights ++ [{ fn := fn, msg := m, failed := some st }] } })) ∧
     (takeChecks u fn b = none → subListed (msgOp b) (fieldAt b 8 1) = true → exec (.messageTake fn) s =
       .next { u with host := { u.host with flights := u.host.flights ++
         [{ fn := fn, msg := m, wait := if mayBegin fn (msgLease b) u.host.flights then .begun else .taken,
             reclaim := reclaimMet s fn b }] } })) ∧
  (∀ (s : State) (fn : Nat) (seq : Word) (x : Flight), flightOf s fn seq = some x → x.wait = .taken →
     let b := entryBytes x.msg.bytes
     let earlier := s.host.flights.takeWhile (fun y => !(y.fn == fn && y.msg.seq == seq))
     (mayBegin fn (msgLease b) earlier = false → exec (.messageBegin fn seq) s = .next s) ∧
     (mayBegin fn (msgLease b) earlier = true →
       (∀ st, (x.failed = some st ∨ (x.failed = none ∧ leaseCheck s fn b = some st)) →
         exec (.messageBegin fn seq) s = .next (finishCmd s fn seq st 0 [])) ∧
       (x.failed = none → leaseCheck s fn b = none → quenchCheck s b = none → subListed (msgOp b) (fieldAt b 8 1) = true →
         exec (.messageBegin fn seq) s = .next (updFlight s fn seq (fun y => { y with wait := .begun }))))) ∧
  (∀ (s : State) (fn : Nat) (seq : Word) (b : List Byte) (c : Instr) (op at_ : Nat) (f : Finding) (st : Status),
     (op, c) ∈ ([(0x12, .leaseClose fn seq), (0x23, .billetFill fn seq), (0x24, .zeroFill fn seq), (0x30, .ingotStage fn seq at_ f),
       (0x40, .seqStart fn seq at_ f), (0x43, .seqResume fn seq), (0x44, .fenceCommand fn seq), (0x50, .tallyRead fn seq)] :
       List (Nat × Instr)) →
     s.begun fn seq b = true → msgOp b = op → staleStatus s fn op b = some st →
     exec c s = .next (finishCmd s fn seq st 0 []))

/-- R397, R387: the reply of a command takes it off the list of those in flight and gives the reply ring one entry with the
command's status, opcode, tag, lease and sequence number; the reply of a function that was reset meanwhile is discarded. -/
def Obligations.CommandReplies : Prop :=
  ∀ (s : State) (fn : Nat) (seq : Word) (x : Flight) (st : Status) (fl : Nat) (res : List Byte), flightOf s fn seq = some x →
    let b := entryBytes x.msg.bytes
    let u := { s with host := { s.host with flights := s.host.flights.eraseP (fun y => y.fn == fn && y.msg.seq == seq) } }
    (x.discard = true → finishCmd s fn seq st fl res = u) ∧
    (x.discard = false → finishCmd s fn seq st fl res =
      u.produce fn (replyEntry 0 st fl (fieldAt b 0 1) (fieldAt b 2 2) (fieldAt b 4 2) seq.toNat res))

/-! ### Commands of the mailbox: discovery, leases, windows -/

/-- R66, R74 and 16 Table 16.7: QUERY_CAPS returns the capability registers of one instant with the function's lease limit;
QUERY_TILEMAP writes the 1,088 bytes of the tile map to the host buffer before its reply, and refuses a buffer that is not
64-byte aligned; QUERY_HEALTH returns the device's state.  None of them changes anything else.  R374: what a command writes to host
memory goes out byte for byte in writes of at most Max Payload Size, none of which crosses a 4 KiB boundary. -/
def Obligations.DiscoveryCommands : Prop :=
  (∀ (s : State) (fn : Nat) (seq : Word) (b : List Byte),
    (s.asks fn seq 0x01 b = true → exec (.queryCaps fn seq) s = .next (reply fn seq
      (leBytes s.capFitted.toNat 4 ++ leBytes s.capUsable.toNat 4 ++ leBytes s.capCounts.toNat 4 ++ leBytes s.capChannels.toNat 4 ++
        leBytes s.idPart.toNat 4 ++ leBytes 0x100 4 ++ leBytes s.dev.capGen.toNat 4 ++ leBytes (s.limitOf fn) 2 ++
        leBytes (s.openOf fn).length 2 ++ leBytes s.devState.toNat 1) s)) ∧
    (s.asks fn seq 0x02 b = true → (tileMap s).length = 1088 ∧
      (fieldAt b 8 8 % 64 ≠ 0 → exec (.queryTilemap fn seq) s = .next (fail fn seq .badArg s)) ∧
      (fieldAt b 8 8 % 64 = 0 → s.canSend fn = true → exec (.queryTilemap fn seq) s =
        .next (reply fn seq (leBytes s.dev.capGen.toNat 4)
          (s.writeHost fn (fieldAt b 8 8) (tileMap s)))) ∧
      (fieldAt b 8 8 % 64 = 0 → s.canSend fn = false → exec (.queryTilemap fn seq) s = .next (fail fn seq .peerUnreachable s))) ∧
    (s.asks fn seq 0x03 b = true → exec (.queryHealth fn seq) s = .next (reply fn seq
      (leBytes s.devState.toNat 1 ++ leBytes (if s.boot.state = 5 then s.power.cause else 0) 1 ++
        leBytes (if s.ras.cfgDisabled then 1 else 0) 1 ++ leBytes 0 1 ++ leBytes (ofSigned 16 (topTemp s)) 2 ++
        leBytes s.power.modulePower 2 ++ leBytes (min s.ras.logNext 31232) 4 ++
        leBytes ((s.fnOf fn).evtNumber - (s.fnOf fn).evtDropped).toNat 4) s))) ∧
  (∀ (s : State) (f a : Nat) (bs : List Byte), ∃ ps : List (Nat × List Byte),
    s.writeHost f a bs = { s with out := s.out ++ ps.map (fun p => .memWrite f p.1 p.2 (s.attr f p.1 false false false)) } ∧
    ps.flatMap Prod.snd = bs ∧ (∀ k p, ps[k]? = some p → p.1 = a + ((ps.take k).flatMap Prod.snd).length) ∧
    (∀ p ∈ ps, p.2.length ≤ (s.fnOf f).payload ∧ p.1 % 4096 + p.2.length ≤ 4096))

/-- R402, R404, R405, R427, R443: a granted LEASE_OPEN gives the new lease the lowest free id, as many regions as asked for, each on a
usable die with fewer than 16 grants, as many spans, each on a die whose stacks are both usable, and a save area for each region on a
usable stack, all of it zero and without a poison mark; the lease is OPEN, owned by the posting function, with a key and a token from
the DRBG.  Without the means it replies NO_SPACE, while debug is unlocked LOCKED, and changes nothing else. -/
def Obligations.LeaseOpenGrants : Prop :=
  ∀ (s : State) (fn : Nat) (seq : Word) (b : List Byte), s.asks fn seq 0x10 b = true →
    let n := fieldAt b 8 1
    let ht := fieldAt b 9 1
    let hl := fieldAt b 10 1
    let spans := fieldAt b 12 2
    let pref := fieldAt b 14 1
    let mask := fieldAt b 16 8
    1 ≤ n → n ≤ 64 → ht ≤ 64 → hl ≤ 8 → 1 ≤ spans → pref ≤ 15 →
    (mask = 0 ∨ ((maskRegions mask).length = n ∧ ∀ r ∈ maskRegions mask, r < s.nRegions)) →
    (s.sec.debugUnlocked = true → exec (.leaseOpen fn seq) s = .next (fail fn seq .locked s)) ∧
    (s.sec.debugUnlocked = false → drbgOk s = true →
      (openGrant s fn n ht hl spans pref mask = none → exec (.leaseOpen fn seq) s = .next (fail fn seq .noSpace s)) ∧
      (∀ id rs sp sv, openGrant s fn n ht hl spans pref mask = some (id, rs, sp, sv) →
        id < s.nLeases ∧ (s.leaseOf id).st = .free ∧ (∀ k, k < id → (s.leaseOf k).st ≠ .free) ∧
        rs.length = n ∧ (∀ r ∈ rs, r < s.nRegions ∧ s.dieUsable (regionDie r) = true ∧ grantsOf s r < 16) ∧
        (mask ≠ 0 → rs = maskRegions mask) ∧
        sp.length = spans ∧
        (∀ d ∈ sp, s.dieUsable d = true ∧ s.stackUsable (2 * d) = true ∧ s.stackUsable (2 * d + 1) = true) ∧
        (∀ e ∈ sv, s.dieUsable (e.2 / 2) = true ∧ s.stackUsable e.2 = true) ∧ (s.openOf fn).length < s.limitOf fn ∧
        exec (.leaseOpen fn seq) s = .next (reply fn seq
          (leBytes id 2 ++ leBytes spans 2 ++ leBytes 0 4 ++ leBytes (regionsMask rs).toNat 8 ++
            leBytes (s.drewRandom.random.truncate 128 : BitVec 128).toNat 16)
          (showLease fn id ((grantHbm id 0 spans s.drewRandom.drewRandom).setLease id
            { st := .opened, owner := fn, regions := regionsMask rs, spans := sp, saveStack := saveTable sv, tallies := ht,
              latches := hl, token := s.drewRandom.random.truncate 128, key := s.random,
              demandSigned := s.sec.policy.getLsbD 1, diePref := pref }))))) ∧
    (∀ (l k c a : Nat), spanBytes * k ≤ a → a < spanBytes * (k + c) → spanBytes * (k + c) ≤ 2 ^ 40 →
      (grantHbm l k c s).hbmByte l a = 0 ∧ (grantHbm l k c s).hbmPoisoned l a = false)

/-- 16 Table 16.8, R420, R421: LEASE_RESIZE; LEASE_CLOSE, which puts a lease with nothing under way into CLOSING at once and
replies only when it is freed; LEASE_RECLAIM, which makes the posting function the owner and draws a new token where R420's
conditions held when it was taken, after any earlier one that met them, and otherwise replies TOKEN_REJECTED. -/
def Obligations.LeaseResizeCloseReclaim : Prop :=
  ∀ (s : State) (fn : Nat) (seq : Word) (b : List Byte),
    let l := msgLease b
    let x := s.leaseOf l
    (s.asks fn seq 0x11 b = true →
      let spans := fieldAt b 8 2
      let new := if fieldAt b 16 8 = 0 then x.regions.toNat else fieldAt b 16 8
      let gained := (maskRegions new).filter (fun r => !(x.regions.getLsbD r))
      let t := shrunk l spans new s
      1 ≤ spans → (∀ r ∈ maskRegions new, r < s.nRegions) →
      (s.bound.any (fun e => e.2.lease == l) = true → exec (.leaseResize fn seq) s = .next (fail fn seq .busy s)) ∧
      (s.bound.any (fun e => e.2.lease == l) = false → windowAbove s l (spanBytes * spans) = false →
        (∀ r, x.regions.getLsbD r = true → natBit new r = false → (s.regionOf r).emulation = none) →
        (∀ p q, placeSpans t x.diePref (spans - x.spans.length) (stackFree t) = some p → placeSaves gained p.2 = some q →
          gained.all (grantable s) = true →
          exec (.leaseResize fn seq) s = .next (reply fn seq (leBytes 0 2 ++ leBytes spans 2 ++ leBytes 0 4 ++ leBytes new 8)
            ((grantHbm l x.spans.length (spans - x.spans.length) t).updLease l (fun y => { y with
              spans := y.spans ++ p.1, regions := BitVec.ofNat 64 new,
              saveStack := q.1.foldl (fun a e => a.set 0 e.1 (e.2 + 1)) y.saveStack })))))) ∧
    (s.asks fn seq 0x12 b = true → leaseStill s l = true → x.st ≠ .closing →
      ∃ t, exec (.leaseClose fn seq) s = .next t ∧ (t.leaseOf l).st = .closing ∧ (∃ y, flightOf t fn seq = some y ∧ y.wait = .closing l) ∧
        (∀ k, k ≠ l → t.leaseOf k = s.leaseOf k) ∧ t.hbm = s.hbm ∧ t.fab = s.fab) ∧
    (s.asks fn seq 0x13 b = true →
      let mine := mayReclaim s fn seq x (BitVec.ofNat 128 (fieldAt b 8 16))
      (reclaimBefore s fn seq l = true → exec (.leaseReclaim fn seq) s = .next s) ∧
      (reclaimBefore s fn seq l = false → drbgOk s = true →
        (mine = true → (s.openOf fn).length < s.limitOf fn → exec (.leaseReclaim fn seq) s = .next (reply fn seq
          (leBytes 0 16 ++ leBytes (s.random.truncate 128 : BitVec 128).toNat 16)
          (showLease fn l ((s.drewRandom.setLease l { x with st := .opened, owner := fn, token := s.random.truncate 128 }).leaseStateEvent
            l 1 2 x.formerOwner fn [fn])))) ∧
        (mine = true → s.limitOf fn ≤ (s.openOf fn).length → exec (.leaseReclaim fn seq) s = .next (fail fn seq .noSpace s)) ∧
        (mine = false → exec (.leaseReclaim fn seq) s = .next (fail fn seq .tokenRejected
          ((if x.st = .free then s.drew else s).leaseStateEvent l (leaseStCode x.st) 3 (formerOf s x) fn (rejectReach x)))))) ∧
    (reclaimMet s fn b = true ↔ msgOp b = 0x13 ∧ l < 1024 ∧ x.st = .dormant ∧
      ¬(x.maxDormS ≠ 0 ∧ x.maxDormS * 25000000 < s.sclk - x.dormAt) ∧ fnPort fn = fnPort x.formerOwner ∧
      BitVec.ofNat 128 (fieldAt b 8 16) = x.token)

/-- R416, R418, R420, R559, 16 LEASE_CLOSE: a DRAINING lease whose sections have all ended is DORMANT, with no program bound, no
region resident and no window; a DORMANT lease past its maximum dormancy closes, unless a reclaim taken in time is still to act; a
CLOSING lease with nothing under way is freed, and every byte of its memory reads 0 from then on; one second into DRAINING its
sections are aborted. -/
def Obligations.LeaseEnds : Prop :=
  ∀ (s : State) (l : Nat),
    ((s.leaseOf l).st = .draining → (∀ e ∈ s.secs, e.2.lease ≠ l) → ∀ a f, ∃ t, exec (.leaseDrained l a f) s = .next t ∧
      (t.leaseOf l).st = .dormant ∧ (t.leaseOf l).dormAt = s.sclk ∧ (t.leaseOf l).entries = [] ∧
      (∀ e ∈ t.bound, e.2.lease ≠ l) ∧ (∀ r, r < s.nRegions → (t.regionOf r).resident ≠ some l) ∧ t.hbm.mem = s.hbm.mem) ∧
    ((s.leaseOf l).st = .dormant → (s.leaseOf l).maxDormS ≠ 0 →
      (s.leaseOf l).maxDormS * 25000000 < s.sclk - (s.leaseOf l).dormAt →
      (∀ y ∈ s.host.flights, y.reclaim = true → msgLease (entryBytes y.msg.bytes) ≠ l) →
      ∃ t, exec (.dormancyExpiry l) s = .next t ∧
        (t.leaseOf l).st = .closing ∧ (t.leaseOf l).cause = 4 ∧ (∀ k, k ≠ l → t.leaseOf k = s.leaseOf k)) ∧
    ((s.leaseOf l).st = .closing → leaseStill s l = true → ∃ t, exec (.leaseFreed l) s = .next t ∧ t.leaseOf l = {} ∧
      (∀ a, a < 2 ^ 40 → t.hbmByte l a = 0) ∧ (∀ k a, k ≠ l → a < 2 ^ 40 → t.hbmByte k a = s.hbmByte k a) ∧
      (∀ r, r < s.nRegions → (t.regionOf r).resident ≠ some l)) ∧
    ((s.leaseOf l).st = .draining → 25000000 ≤ s.sclk - (s.leaseOf l).drainAt →
      exec (.drainingLimit l) s = .next ((dedup ((s.secs.filter (fun e => e.2.lease == l &&
        (e.2.phase == .running || e.2.phase == .ending))).flatMap (fun e => e.2.placed.map Prod.snd))).foldl abortRegion s))

/-- 16 Table 16.9, R399: each sub-operation of LEASE_POLICY sets its field of the lease alone, or binds one doorbell bit of the
posting function; demand_signed is never cleared, and while it is 1 the keys stand; debug permission and the maximum dormancy are
the steward's to set, and a lease already past a new maximum closes at once (R418).  R425, R426: what firmware finds where it reads the
keys is dealt with first. -/
def Obligations.LeasePolicyCommands : Prop :=
  ∀ (s : State) (fn : Nat) (seq : Word) (b : List Byte), s.asks fn seq 0x14 b = true →
    let l := msgLease b
    let x := s.leaseOf l
    let sub := fieldAt b 8 1
    let v := fieldAt b 12 1
    let set (g : Lease → Lease) : Host.Outcome State Fault Refusal := .next (reply fn seq [] (s.updLease l g))
    (sub = 0x00 →
      (fieldAt b 12 4 = 0 ∨ (5 ≤ fieldAt b 12 4 ∧ fieldAt b 12 4 ≤ 10000) → exec (.leasePolicyLimits fn seq) s =
        set (fun y => { y with lendUs := if fieldAt b 12 4 = 0 then y.lendUs else fieldAt b 12 4, limitUs := fieldAt b 16 4 })) ∧
      (fieldAt b 12 4 ≠ 0 → fieldAt b 12 4 < 5 ∨ 10000 < fieldAt b 12 4 →
        exec (.leasePolicyLimits fn seq) s = .next (fail fn seq .badArg s))) ∧
    (sub = 0x01 →
      (v ≤ 1 → ¬(x.demandSigned = true ∧ v = 0) →
        exec (.leasePolicyDemandSigned fn seq) s = set (fun y => { y with demandSigned := v == 1 })) ∧
      (x.demandSigned = true → v = 0 → exec (.leasePolicyDemandSigned fn seq) s = .next (fail fn seq .locked s))) ∧
    (sub = 0x02 →
      (∀ a f, let s1 := fwRead l (fieldAt b 16 8) 96 a f s
        x.demandSigned = false → (s1.leaseOf l).demandSigned = false → v ≤ 7 → s1.inLease l (fieldAt b 16 8) 96 = true →
        exec (.leasePolicyKeyInstall fn seq a f) s = .next (reply fn seq [] (s1.updLease l (fun y =>
          { y with keys := y.keys.set none v (some (BitVec.ofNat 768 (beNat (s1.hbmRead l (fieldAt b 16 8) 96)))) })))) ∧
      (x.demandSigned = true → ∀ a f, exec (.leasePolicyKeyInstall fn seq a f) s = .next (fail fn seq .locked s))) ∧
    (sub = 0x03 →
      (x.demandSigned = false → v ≤ 7 →
        exec (.leasePolicyKeyClear fn seq) s = set (fun y => { y with keys := y.keys.set none v none })) ∧
      (x.demandSigned = true → exec (.leasePolicyKeyClear fn seq) s = .next (fail fn seq .locked s))) ∧
    (sub = 0x04 → v ≤ 31 →
      (fieldAt b 13 1 = 1 → fieldAt b 14 1 < x.tallies → exec (.leasePolicyDoorbellBind fn seq) s =
        .next (reply fn seq [] (s.updFn fn (fun y => { y with dbBind := y.dbBind.set none v (some (l, fieldAt b 14 1)) })))) ∧
      (fieldAt b 13 1 = 0 → exec (.leasePolicyDoorbellBind fn seq) s =
        .next (reply fn seq [] (s.updFn fn (fun y => { y with dbBind := y.dbBind.set none v none }))))) ∧
    (sub = 0x05 → v ≤ 15 → exec (.leasePolicyDiePreference fn seq) s = set (fun y => { y with diePref := v })) ∧
    (sub = 0x10 →
      (s.isSteward fn = true → v ≤ 1 → ¬(s.sec.policy.getLsbD 3 = true ∧ v = 1) →
        exec (.leasePolicyDebugPermission fn seq) s = set (fun y => { y with debugPerm := v == 1 })) ∧
      (s.isSteward fn = false → exec (.leasePolicyDebugPermission fn seq) s = .next (fail fn seq .stewardRequired s))) ∧
    (sub = 0x11 →
      (s.isSteward fn = true →
        exec (.leasePolicyMaxDormancy fn seq) s =
          .next (expire l (reply fn seq [] (s.updLease l (fun y => { y with maxDormS := fieldAt b 12 4 }))))) ∧
      (s.isSteward fn = false → exec (.leasePolicyMaxDormancy fn seq) s = .next (fail fn seq .stewardRequired s)))

/-- R368, R372, R374, R376 and ZERO_FILL: mapping gives one window or entry its attributes, unmapping takes it away with its
landing counter, and ZERO_FILL makes every byte of its range 0 and leaves every other byte. -/
def Obligations.WindowCommands : Prop :=
  ∀ (s : State) (fn : Nat) (seq : Word) (b : List Byte),
    let l := msgLease b
    let i := fieldAt b 9 1
    let bo := fieldAt b 16 8
    let len := fieldAt b 24 8
    let ho := fieldAt b 32 8
    (s.asks fn seq 0x20 b = true → fieldAt b 8 1 = 0 → i ≤ 15 → fieldAt b 10 1 ≤ 1 → bo % 2097152 = 0 → len % 2097152 = 0 →
      2097152 ≤ len → ho % 2097152 = 0 → s.inLease l ho len = true → bo + len ≤ 2 ^ (s.fnOf fn).bar2Log2 →
      (∀ k w, (k, some w) ∈ (s.fnOf fn).windows → bo + len ≤ w.barOff ∨ w.barOff + w.length ≤ bo) →
      ((s.fnOf fn).windows.get none i = none → exec (.windowMapInbound fn seq) s = .next (reply fn seq [] (s.updFn fn (fun y =>
        { y with windows := y.windows.set none i (some
          { lease := l, barOff := bo, length := len, hbmOff := ho, writable := fieldAt b 10 1 == 1 }) })))) ∧
      ((s.fnOf fn).windows.get none i ≠ none → exec (.windowMapInbound fn seq) s = .next (fail fn seq .busy s))) ∧
    (s.asks fn seq 0x20 b = true → fieldAt b 8 1 = 1 → fieldAt b 10 1 ≤ 15 → fieldAt b 10 1 % 4 ≠ 0 → bo % 4096 = 0 →
      len % 4096 = 0 → 4096 ≤ len → len ≤ 2 ^ 40 →
      ((s.leaseOf l).entries.get none i = none → exec (.windowMapEntry fn seq) s = .next (reply fn seq [] (s.updLease l (fun x =>
        { x with entries := x.entries.set none i (some
          { busAddr := bo, length := len, read := natBit (fieldAt b 10 1) 0, write := natBit (fieldAt b 10 1) 1,
            peer := natBit (fieldAt b 10 1) 2, runAheadSafe := natBit (fieldAt b 10 1) 3 }) })))) ∧
      ((s.leaseOf l).entries.get none i ≠ none → exec (.windowMapEntry fn seq) s = .next (fail fn seq .busy s))) ∧
    (s.asks fn seq 0x21 b = true → fieldAt b 8 1 = 0 → ∀ w, (s.fnOf fn).windows.get none i = some w → w.lease = l →
      exec (.windowUnmapInbound fn seq) s =
        .next (reply fn seq [] (forgetWindow fn i (s.updFn fn (fun y => { y with windows := y.windows.set none i none }))))) ∧
    (s.asks fn seq 0x21 b = true → fieldAt b 8 1 = 1 → (s.leaseOf l).entries.get none i ≠ none →
      (entryInUse s l i = false → exec (.windowUnmapEntry fn seq) s =
        .next (reply fn seq [] (s.updLease l (fun x => { x with entries := x.entries.set none i none })))) ∧
      (entryInUse s l i = true → exec (.windowUnmapEntry fn seq) s = .next (fail fn seq .busy s))) ∧
    (s.asks fn seq 0x24 b = true → bo % 4096 = 0 → len % 4096 = 0 → s.inLease l bo len = true →
      bo + len ≤ 2 ^ 40 →
      (leaseRuns s l true = false → ∃ t, exec (.zeroFill fn seq) s = .next t ∧
        (∀ a, bo ≤ a → a < bo + len → t.hbmByte l a = 0) ∧
        (∀ k a, a < 2 ^ 40 → (k ≠ l ∨ a < bo ∨ bo + len ≤ a) → t.hbmByte k a = s.hbmByte k a)) ∧
      (leaseRuns s l true = true → exec (.zeroFill fn seq) s = .next (fail fn seq .busy s)))

/-! ### Commands of the mailbox: ingots, programs, tallies, channels -/

/-- R305 to R307, R425, R426: what firmware finds where it reads an ingot is dealt with first; INGOT_STAGE copies the bytes of an ingot that passes the staging checks into its empty slot, replies the failed
check's status otherwise, and BUSY where the slot is not empty; INGOT_VERIFY makes the same checks and stages nothing; INGOT_EVICT
empties a slot that no bound program names, and is refused with BUSY otherwise. -/
def Obligations.IngotCommands : Prop :=
  ∀ (s : State) (fn : Nat) (seq : Word) (b : List Byte),
    let l := msgLease b
    let k := fieldAt b 8 1
    (s.asks fn seq 0x30 b = true → k ≤ 63 → ∀ a f,
      let s1 := ingotRead l (fieldAt b 16 8) a f s
      let r := stagingChecks s1 l (fieldAt b 16 8)
      ((s.leaseOf l).slots.get none k = none →
        (∀ hd, r = (.ok, some hd) → exec (.ingotStage fn seq a f) s =
          .next (reply fn seq (leBytes (igTotal hd) 4 ++ leBytes (igCrc hd) 4) (s1.updLease l (fun x => { x with
            slots := x.slots.set none k (some { image := s1.hbmRead l (fieldAt b 16 8) (igTotal hd) }) })))) ∧
        (r.1 ≠ .ok → exec (.ingotStage fn seq a f) s = .next (finishCmd s1 fn seq r.1 0 (ingotResults r.2)))) ∧
      ((s.leaseOf l).slots.get none k ≠ none → exec (.ingotStage fn seq a f) s = .next (finishCmd s fn seq .busy 0 (leBytes 0 8)))) ∧
    (s.asks fn seq 0x31 b = true → ∀ a f,
      let s1 := ingotRead l (fieldAt b 16 8) a f s
      let r := stagingChecks s1 l (fieldAt b 16 8)
      exec (.ingotVerify fn seq a f) s = .next (finishCmd s1 fn seq r.1 0 (ingotResults r.2))) ∧
    (s.asks fn seq 0x32 b = true → k ≤ 63 →
      (slotInUse s l k = false → ∃ t, exec (.ingotEvict fn seq) s = .next (reply fn seq [] t) ∧
        t = { s.updLease l (fun x => { x with slots := x.slots.set none k none }) with seq := t.seq } ∧
        t.seq = { s.seq with chans := t.seq.chans }) ∧
      (slotInUse s l k = true → exec (.ingotEvict fn seq) s = .next (fail fn seq .busy s)))

/-- R312, R322, 16 Table 16.12: SEQ_START copies a legal program, gives it the lowest free handle and a free hardware context and
replies ACCEPTED; a refused program replies BAD_ARG, and one beyond a limit NO_SPACE; SEQ_STOP replies OK at once and stops the
program, SEQ_SUSPEND cancels what has not started and holds further issue, SEQ_RESUME lets it go on; FENCE replies at once with
nothing to wait for, and waits otherwise; a program that may leave gives up its context, and takes a free one again. -/
def Obligations.ProgramCommands : Prop :=
  (∀ (s : State) (fn : Nat) (seq : Word) (b : List Byte),
    let l := msgLease b
    let off := fieldAt b 16 8
    let n := fieldAt b 24 2
    (s.asks fn seq 0x40 b = true → 1 ≤ n → n ≤ 4096 → ∀ a f,
      let s1 := fwRead l off (8 * n) a f s
      let code := programWords s1 l off n
      (s1.inLease l off (8 * n) = false ∨ s1.hbmAnyPoison l off (8 * n) = true →
        exec (.seqStart fn seq a f) s = .next (fail fn seq .badArg s1)) ∧
      (s1.inLease l off (8 * n) = true → s1.hbmAnyPoison l off (8 * n) = false →
        (programBad s1 l (code.map BitVec.toNat) = true → exec (.seqStart fn seq a f) s = .next (fail fn seq .badArg s1)) ∧
        (programBad s1 l (code.map BitVec.toNat) = false →
          (8 ≤ (s1.bound.filter (fun e => e.2.lease == l)).length ∨ 1024 ≤ s1.bound.length →
            exec (.seqStart fn seq a f) s = .next (fail fn seq .noSpace s1)) ∧
          ((s1.bound.filter (fun e => e.2.lease == l)).length < 8 → s1.bound.length < 1024 →
            exec (.seqStart fn seq a f) s = .next (finishCmd (takeContext (s1.setProg (freeHandle s1) (some
              { lease := l, fn := fn, tag := fieldAt b 2 2, seq := seq, code := code, ctx := freeContext s1 })) (freeHandle s1)
                (freeContext s1)) fn seq .accepted 0 (leBytes (freeHandle s1) 2)))))) ∧
    (∀ h p, cmdProg s b = some (h, p) →
      (s.asks fn seq 0x41 b = true → fieldAt b 10 1 = 0 → exec (.seqStop fn seq) s =
        .next (settleProg (finishCmd (stopByHand h p s) fn seq .ok p.flags.toNat []) h)) ∧
      (s.asks fn seq 0x41 b = true → fieldAt b 10 1 = 1 → exec (.seqStop fn seq) s =
        .next (settleProg ((runningRegions s h).foldl abortRegion (finishCmd (stopByHand h p s) fn seq .ok p.flags.toNat [])) h)) ∧
      (s.asks fn seq 0x42 b = true →
        let t := cancelPending (s.setProg h (some (if p.wait = .run then
          { p with suspended := true, wait := .none, runs := p.runs - 1 } else { p with suspended := true }))) h
        (t.runningOf h = [] → exec (.seqSuspend fn seq) s = .next (reply fn seq [] t)) ∧
        (t.runningOf h ≠ [] → exec (.seqSuspend fn seq) s = .next (waitFor fn seq (.suspend h) t))) ∧
      (s.asks fn seq 0x43 b = true → exec (.seqResume fn seq) s =
        .next (reply fn seq [] (s.setProg h (some { p with suspended := false }))))) ∧
    (s.asks fn seq 0x44 b = true →
      let ws := (unsentEnded s l).map (fun q => q.id)
      let rs := dedup ((s.leaseOf l).peerWins ++
        ((unsentEnded s l).filter (fun q => isPeer s l q.window)).map (fun q => q.window))
      (ws = [] → rs = [] → exec (.fenceCommand fn seq) s = .next (reply fn seq [] s)) ∧
      (ws ≠ [] ∨ rs ≠ [] → exec (.fenceCommand fn seq) s = .next (waitFor fn seq (.fence ws rs) s)))) ∧
  (∀ (s : State) (h : Nat) (p : Prog), s.progOf h = some p →
    (∀ c, p.ctx = some c → 128 < s.bound.length → mayLeave s h p = true →
      let u := s.setProg h (some { p with ctx := none })
      exec (.contextSwap h false) s =
        .next { u with seq := { u.seq with contexts := u.seq.contexts.set none c none } }) ∧
    (∀ c, p.ctx = none → freeContext s = some c → exec (.contextSwap h true) s =
      .next (takeContext (s.setProg h (some { p with ctx := some c })) h (some c))))

/-- R233, R344, R345, R348, R352, R181: TALLY_READ returns value and tail counter and changes nothing; TALLY_SET, with debug permission or from
the steward, writes the tally and marks the bound contexts of the lease HAND_SET_TALLY; SOLVER_BIND binds a channel that an
engine serves, or by emulation, leaves a problem in progress as it is, and is refused on one that another lease holds; SOLVER_UNBIND returns the channel to its reset state; BILLET_SPILL
and BILLET_FILL begin a move of the scope that they name. -/
def Obligations.TallyChannelBilletCommands : Prop :=
  ∀ (s : State) (fn : Nat) (seq : Word) (b : List Byte),
    let l := msgLease b
    let c := fieldAt b 8 1
    let x := s.chanOf c
    let m (fill : Bool) : Move := { fill := fill, lease := l, region := c, scope := fieldAt b 9 1, hbmOff := fieldAt b 16 8 }
    (s.asks fn seq 0x50 b = true →
      (tallyArg s b = none → exec (.tallyRead fn seq) s = .next (fail fn seq .badArg s)) ∧
      (∀ a, tallyArg s b = some a → exec (.tallyRead fn seq) s =
        .next (reply fn seq (leBytes (tallyValue s l a).1 2 ++ leBytes (tallyValue s l a).2 2) s))) ∧
    (s.asks fn seq 0x51 b = true →
      (mayDebug s fn l = false → exec (.tallySet fn seq) s = .next (fail fn seq .stewardRequired s)) ∧
      (∀ a, mayDebug s fn l = true → tallyArg s b = some a → exec (.tallySet fn seq) s =
        .next (reply fn seq [] (putTally l a (BitVec.ofNat 16 (fieldAt b 12 2)) (markHandSet l s))))) ∧
    (s.asks fn seq 0x58 b = true → c < s.nChans → fieldAt b 9 1 ≤ 2 → (fieldAt b 9 1 = 0 ∨ fieldAt b 12 4 ≠ 0) → ∀ a f,
      (s.usable 27 = false → exec (.solverBind fn seq a f) s = .next (fail fn seq .unitAbsent s)) ∧
      (s.usable 27 = true →
        (∀ k, x.lease = some k → k ≠ l → exec (.solverBind fn seq a f) s = .next (fail fn seq .busy s)) ∧
        (x.lease = some l → x.emulated = true ∨ engineServes s c = true → exec (.solverBind fn seq a f) s =
          .next (reply fn seq (bindReply x)
            (s.setChan c { x with lease := some l, mode := fieldAt b 9 1, deadline := fieldAt b 12 4, lastProg := none }))) ∧
        (x.lease = none → engineServes s c = true → exec (.solverBind fn seq a f) s = .next (reply fn seq [0, 0xFF]
          (s.setChan c { lease := some l, mode := fieldAt b 9 1, deadline := fieldAt b 12 4 }))) ∧
        (x.lease = none ∨ x.lease = some l ∧ x.emulated = false → engineServes s c = false →
          let r := bindEmulated l c (fieldAt b 9 1) (fieldAt b 12 4) a f (problemLost c s)
          (r = none → exec (.solverBind fn seq a f) s = .next (fail fn seq .noSpace s)) ∧
          (∀ t, r = some t → exec (.solverBind fn seq a f) s = .next (reply fn seq (bindReply (t.chanOf c)) t))))) ∧
    (s.asks fn seq 0x59 b = true → c < s.nChans → x.lease = some l →
      (chanNamed s l c = true → exec (.solverUnbind fn seq) s = .next (fail fn seq .busy s)) ∧
      (chanNamed s l c = false → x.emulated = false →
        exec (.solverUnbind fn seq) s = .next (reply fn seq [] (s.setChan c {}))) ∧
      (chanNamed s l c = false → exec (.solverUnbind fn seq) s = .next (reply fn seq [] (unbindChan s c)))) ∧
    (∀ op fill cmd, (op = 0x22 ∧ fill = false ∧ cmd = Instr.billetSpill fn seq) ∨ (op = 0x23 ∧ fill = true ∧ cmd = Instr.billetFill fn seq) →
      s.asks fn seq op b = true →
      (moveOk s (m fill) = false → exec cmd s = .next (fail fn seq .badArg s)) ∧
      (moveOk s (m fill) = true → leaseRuns s l true = true → exec cmd s = .next (fail fn seq .busy s)) ∧
      (moveOk s (m fill) = true → leaseRuns s l true = false →
        exec cmd s = .next (updFlight s fn seq (fun y => { y with wait := .move, move := some (m fill) }))))

/-! ### Commands of the mailbox: power, steward, log, debug -/

/-- R493, 16 Table 16.14: a POWER_POLICY stages and commits its group and waits for the transfer, or replies BAD_ARG; the steward's
commands read the lock, set a lease limit, stage and select a firmware image, and enter and leave Quench. -/
def Obligations.PowerAndStewardCommands : Prop :=
  ∀ (s : State) (fn : Nat) (seq : Word) (b : List Byte),
    let d := fieldAt b 9 1
    let commit (g : Group) (merge : Nat → Nat) : Host.Outcome State Fault Refusal :=
      .next (waitFor fn seq (.commit g) (writeCommit g 1 (s.stage g merge)))
    (s.asks fn seq 0x60 b = true →
      (fieldAt b 8 1 = 0 → d < s.nDies → (s.groupOf (.freq d)).pending = false → freqOk (fieldAt b 10 2) 800 = true →
        freqOk (fieldAt b 12 2) 800 = true → freqOk (fieldAt b 14 2) 400 = true → exec (.powerPolicyFrequency fn seq) s =
          commit (.freq d) (fun _ => fieldAt b 14 2 / 25 * 65536 + fieldAt b 12 2 / 25 * 256 + fieldAt b 10 2 / 25)) ∧
      (fieldAt b 8 1 = 1 → 400 ≤ fieldAt b 10 2 → fieldAt b 10 2 ≤ 1600 → (s.groupOf .power).pending = false →
        exec (.powerPolicyModuleCap fn seq) s = commit .power (fun old => natPut old 0 16 (fieldAt b 10 2))) ∧
      (fieldAt b 8 1 = 1 → fieldAt b 10 2 < 400 ∨ 1600 < fieldAt b 10 2 →
        exec (.powerPolicyModuleCap fn seq) s = .next (fail fn seq .badArg s)) ∧
      (fieldAt b 8 1 = 2 → d ≤ 1 → (s.groupOf .power).pending = false →
        exec (.powerPolicyLending fn seq) s = commit .power (fun old => natPut old 16 1 d)) ∧
      (fieldAt b 8 1 = 3 → d ≤ 2 → 1 ≤ fieldAt b 10 1 → fieldAt b 10 1 ≤ 100 → (s.groupOf .scrub).pending = false →
        exec (.powerPolicyScrubCap fn seq) s = commit .scrub (fun old => natPut old (8 * d) 8 (fieldAt b 10 1)))) ∧
    (s.asks fn seq 0x70 b = true → exec (.stewardInfo fn seq) s = .next (reply fn seq
      (leBytes s.host.steward 2 ++ leBytes s.host.lockGen.toNat 1 ++ leBytes (if s.host.lockAband then 1 else 0) 1 ++
        leBytes s.openIds.length 2 ++ leBytes (s.own.leases.filter (fun e => e.2.st = .dormant)).length 2) s)) ∧
    (s.asks fn seq 0x71 b = true →
      (s.fnExists (fieldAt b 8 2) = true → fieldAt b 10 2 ≤ s.nLeases → exec (.vfPartition fn seq) s = .next (reply fn seq []
        { s with host := { s.host with limits := s.host.limits.set none (fieldAt b 8 2) (some (fieldAt b 10 2)) } })) ∧
      (s.fnExists (fieldAt b 8 2) = false ∨ s.nLeases < fieldAt b 10 2 →
        exec (.vfPartition fn seq) s = .next (fail fn seq .badArg s))) ∧
    (s.asks fn seq 0x72 b = true → fieldAt b 24 4 ≤ 16777216 →
      ∀ a f, let s1 := fwRead (msgLease b) (fieldAt b 16 8) (fieldAt b 24 4) a f s
      let img := s1.hbmRead (msgLease b) (fieldAt b 16 8) (fieldAt b 24 4)
      s1.inLease (msgLease b) (fieldAt b 16 8) (fieldAt b 24 4) = true →
      (imgCheck s1 fwMagic img = .malformed → ∀ r, exec (.fwStage fn seq r a f) s = .next (fail fn seq .badArg s1)) ∧
      (imgCheck s1 fwMagic img = .key → ∀ r, exec (.fwStage fn seq r a f) s = .next (fail fn seq .ingotSignature s1)) ∧
      (imgCheck s1 fwMagic img = .svn → ∀ r, exec (.fwStage fn seq r a f) s = .next (fail fn seq .locked s1)) ∧
      (imgCheck s1 fwMagic img = .ok → s1.boot.updating = none →
        exec (.fwStage fn seq true a f) s = .next (reply fn seq (leBytes (inactiveSlot s1) 1 ++ leBytes 0 3 ++
          leBytes (imgVersion img) 4) (endUpdate img true (beginUpdate img s1))) ∧
        exec (.fwStage fn seq false a f) s = .next (fail fn seq .ingotSignature (endUpdate img false (beginUpdate img s1))))) ∧
    (s.asks fn seq 0x73 b = true → fieldAt b 8 1 ≤ 1 → (s.boot.slots.get {} (fieldAt b 8 1)).state = 2 →
      (d = 0 → exec (.fwActivate fn seq) s = .next (reply fn seq [] (selectSlot (fieldAt b 8 1) s))) ∧
      (d = 1 → s.quenched = false → s.bound = [] → ∃ t, exec (.fwActivate fn seq) s = .next t ∧ t.boot.resetPending = 2 ∧
        t = { reply fn seq [] (selectSlot (fieldAt b 8 1) s) with boot := t.boot }) ∧
      (d = 1 → s.quenched = true ∨ s.bound ≠ [] → exec (.fwActivate fn seq) s = .next (fail fn seq .busy s))) ∧
    (s.asks fn seq 0x74 b = true → exec (.quenchEnter fn seq) s = .next (reply fn seq [] (raiseTrigger 6 s))) ∧
    (s.asks fn seq 0x75 b = true →
      (s.power.triggers ≠ 0 → exec (.quenchExit fn seq) s = .next (fail fn seq .busy s)) ∧
      (s.power.triggers = 0 → s.boot.state = 5 → exec (.quenchExit fn seq) s = .next (reply fn seq [] (leaveQuench s))) ∧
      (s.power.triggers = 0 → s.boot.state ≠ 5 → exec (.quenchExit fn seq) s = .next (reply fn seq [] s)))

/-- R449, R400, R468 to R470, 16 Table 16.14: LOG_READ writes the records asked for that the ring still holds; REMAP_STATUS reports
the repairs; DEBUG_SNAPSHOT writes the lease's snapshot to the host buffer; the debug unlock issues a challenge, rejects an answer
that does not verify and counts it, and opens debug on one that does.  What a snapshot shows of a region of which the lease is not
resident is a free value (log 1). -/
def Obligations.LogAndDebugCommands : Prop :=
  ∀ (s : State) (fn : Nat) (seq : Word) (b : List Byte),
    let l := msgLease b
    let lo := max (fieldAt b 8 4) (s.ras.logNext - 31232)
    let hi := min (fieldAt b 8 4 + fieldAt b 12 2) s.ras.logNext
    (s.asks fn seq 0x76 b = true → s.canSend fn = true →
      (lo < hi → exec (.logRead fn seq) s = .next (reply fn seq (leBytes (hi - lo) 4 ++ leBytes (min s.ras.logNext 31232) 4)
        (s.writeHost fn (fieldAt b 16 8)
          ((upTo (hi - lo)).flatMap (fun i => entryBytes (s.ras.log.get 0 ((lo + i) % 31232))))))) ∧
      (hi ≤ lo → exec (.logRead fn seq) s = .next (reply fn seq (leBytes 0 4 ++ leBytes (min s.ras.logNext 31232) 4) s))) ∧
    (s.asks fn seq 0x77 b = true → ∃ res, exec (.remapStatus fn seq) s = .next (reply fn seq res s) ∧ res.length = 20 ∧
      (∀ d, d < 4 → res[d]? = some (BitVec.ofNat 8 ((s.dev.dies.get {} d).steered.getD 0xFF)))) ∧
    (s.asks fn seq 0x7E b = true →
      (mayDebug s fn l = false → exec (.debugSnapshot fn seq) s = .next (fail fn seq .stewardRequired s)) ∧
      (mayDebug s fn l = true → fieldAt b 24 4 < (snapshotOf s l).length →
        exec (.debugSnapshot fn seq) s = .next (fail fn seq .noSpace s)) ∧
      (mayDebug s fn l = true → (snapshotOf s l).length ≤ fieldAt b 24 4 → s.canSend fn = true →
        exec (.debugSnapshot fn seq) s = .next (reply fn seq (leBytes (snapshotOf s l).length 4)
          ({ s with free := s.free + 128 }.writeHost fn (fieldAt b 16 8) (snapshotOf s l))))) ∧
    (s.asks fn seq 0x7F b = true → fieldAt b 8 1 = 0 → drbgOk s = true → ∃ t,
      exec (.debugUnlockRequest fn seq) s = .next (reply fn seq (challengeBytes s) t) ∧
      t.sec.challenge = some (challengeBytes s, s.sclk) ∧ t.host = s.host ∧ t.own = s.own) ∧
    (s.asks fn seq 0x7F b = true → fieldAt b 8 1 = 1 →
      (s.sec.policy.getLsbD 2 = true ∨ 8 ≤ s.sec.rejected →
        ∀ a, exec (.debugUnlockAnswer fn seq a .clean) s = .next (fail fn seq .locked s)) ∧
      (s.sec.policy.getLsbD 2 = false → s.sec.rejected < 8 →
        let rejected := { s with sec := { s.sec with challenge := none, rejected := s.sec.rejected + 1 } }
        (∀ c t0 k, s.sec.challenge = some (c, t0) → answerLease s fn = some k → s.inLease k (fieldAt b 16 8) 96 = true →
          let ok := s.sclk - t0 ≤ 1500000000 ∧ answerOk s c (s.hbmRead k (fieldAt b 16 8) 96) = true
          (ok → ∀ a, exec (.debugUnlockAnswer fn seq a .clean) s = .next (reply fn seq [] (openDebug s))) ∧
          (¬ok → ∀ a, exec (.debugUnlockAnswer fn seq a .clean) s = .next (fail fn seq .tokenRejected rejected))) ∧
        (s.sec.challenge = none → ∀ a, exec (.debugUnlockAnswer fn seq a .clean) s = .next (fail fn seq .tokenRejected rejected))))

/-! ### Section programs -/

/-- R213 to R216, R314, R316, R318, R320: a WAIT whose tally holds its condition, a SIG, a LOOP, a NOTIFY and a branch that has been
evaluated go on to the next instruction; a WAIT that does not hold waits, and goes on once a signal has satisfied it; a LOOP of
count 0 goes past its end; NOTIFY puts its value into the owner's reply ring; a HALT with no section left releases the program. -/
def Obligations.SequencerControl : Prop :=
  ∀ (s : State) (h w : Nat) (p : Prog),
    let q := { p with lastIssued := p.pc }
    let v := ((s.leaseOf p.lease).htally.get {} (iTally w)).value
    let holds := waitHolds v (BitVec.ofNat 16 (iAmount w))
    (s.issues h 2 p w = true →
      (holds = true → exec (.wait h) s = .next (s.setProg h (some (next { q with rollFrom := none })))) ∧
      (holds = false → exec (.wait h) s =
        .next (s.setProg h (some { q with rollFrom := none, wait := .wait (iTally w) (iAmount w) })))) ∧
    (s.progOf h = some p → p.wait = .satisfied → exec (.waitSatisfied h) s = .next (s.setProg h (some (next p)))) ∧
    (s.issues h 3 p w = true → exec (.sig h) s =
      .next ((s.setProg h (some (next q))).addHTally p.lease (iTally w) (iAmount w))) ∧
    (s.issues h 4 p w = true → exec (.br h) s = .next (s.setProg h (some { q with wait := .br }))) ∧
    (s.progOf h = some p → p.wait = .br → p.suspended = false → s.runningOf h = [] → instrAt p.code p.pc = w →
      let past (r : Prog) : Prog := if holds then { r with pc := iDest w, wait := .none } else next r
      let right := iPredict w = (if holds then 1 else 2)
      (p.aheadSec = none → exec (.brEvaluate h) s = .next (s.setProg h (some (past p)))) ∧
      (∀ i r, p.aheadSec = some i → right → (commitAhead i s).progOf h = some r →
        exec (.brEvaluate h) s = .next ((commitAhead i s).setProg h (some (past r)))) ∧
      (∀ i r, p.aheadSec = some i → ¬right → (cancelSection s i).progOf h = some r →
        exec (.brEvaluate h) s = .next ((cancelSection s i).setProg h (some (past r))))) ∧
    (s.issues h 5 p w = true →
      (iAmount w = 0 → exec (.loop h) s = .next (s.setProg h (some (advanced q (iDest w) (iDest w + 1))))) ∧
      (iAmount w ≠ 0 → exec (.loop h) s = .next (s.setProg h (some
        { q with pc := p.pc + 1, loops := { first := p.pc + 1, last := iDest w, left := iAmount w } :: p.loops })))) ∧
    (s.issues h 7 p w = true →
      (p.silent = false → exec (.notify h) s = .next ((s.setProg h (some (next q))).produce p.fn
        (replyEntry 1 (if p.poisoned then .poisoned else .ok) p.flags.toNat 0x40 p.tag p.lease p.seq.toNat
          (leBytes (natBits w 0 32) 4 ++ leBytes p.pc 2 ++ leBytes h 2)))) ∧
      (p.silent = true → exec (.notify h) s = .next (s.setProg h (some (next q))))) ∧
    (s.issues h 0x0A p w = true →
      (s.runningOf h = [] → ∃ t, exec (.halt h) s = .next t ∧ t.progOf h = none ∧ (∀ k, k ≠ h → t.progOf k = s.progOf k)) ∧
      (s.runningOf h ≠ [] → exec (.halt h) s = .next (s.setProg h (some { q with wait := .halt }))))

/-- R309 to R311, R315, R317, R243, R381, R182: a RUN whose checks pass makes its section and waits for it, and one that fails a
check stops its program with that status; run-ahead makes the section of the predicted RUN; a FENCE waits for its sections'
writes and reads every peer window that they wrote; a SPILL or FILL waits for its move, which then copies the billets. -/
def Obligations.SequencerRunsAndMoves : Prop :=
  ∀ (s : State) (h w : Nat) (p : Prog),
    let q := { p with lastIssued := p.pc }
    let m (fill : Bool) : Move := { fill := fill, lease := p.lease, region := iRegion w, scope := iScope w, hbmOff := iHbm w }
    (s.issues h 1 p w = true →
      let r := newSection s h q p.pc w
      (r.1 = .ok → exec (.run h) s = .next (placeRun h q r.2 s)) ∧
      (r.1 ≠ .ok → exec (.run h) s =
        .next (settleProg (stopProg (s.setProg h (some { q with runs := p.runs + 1 })) h (p.runs + 1) p.pc r.1) h))) ∧
    (s.progOf h = some p → p.wait = .br → p.suspended = false → p.stopping = false → p.aheadSec = none → s.quenched = false →
      ∀ idx, predictedRun s p = some idx →
        let r := newSection s h p idx (instrAt p.code idx)
        (r.1 = .ok → aheadFree s r.2 = true → exec (.runAheadStart h) s = .next (prepareSection s.seq.nextSec
          (({ s with seq := { s.seq with nextSec := s.seq.nextSec + 1 } }.setSec s.seq.nextSec (some { r.2 with phase := .ahead })).setProg
            h (some { p with aheadSec := some s.seq.nextSec }))).markReady) ∧
        (¬(r.1 = .ok ∧ aheadFree s r.2 = true) → exec (.runAheadStart h) s = .next s)) ∧
    (s.issues h 6 p w = true → exec (.fence h) s = .next (s.setProg h (some { q with wait := .fence, peerReads := [] }))) ∧
    (s.progOf h = some p → fenceWritten s h p = true →
      (p.peerWins.all (fun k => p.peerReads.contains k) = true →
        exec (.fenceComplete (.program h)) s = .next (s.setProg h (some (next p)))) ∧
      (∀ k ok, p.peerWins.contains k = true → p.peerReads.contains k = false → exec (.fencePeerRead (.program h) k ok) s =
        .next ((peerRead p.lease k ok s).setProg h (some { p with peerReads := p.peerReads ++ [k] })))) ∧
    (∀ fn seq x ids, flightOf s fn seq = some x → writesGone s ids = true →
      (x.wait = .fence ids [] → exec (.fenceComplete (.command fn seq)) s = .next (reply fn seq [] s)) ∧
      (∀ rs k ok, x.wait = .fence ids rs → rs.contains k = true → exec (.fencePeerRead (.command fn seq) k ok) s =
        .next (waitFor fn seq (.fence ids (rs.filter (fun i => i != k)))
          (peerRead (msgLease (entryBytes x.msg.bytes)) k ok s)))) ∧
    (∀ op fill c, (op = 8 ∧ fill = false ∧ c = Instr.spill h) ∨ (op = 9 ∧ fill = true ∧ c = Instr.fill h) →
      s.issues h op p w = true →
      (moveOk s (m fill) = true → exec c s =
        .next (s.setProg h (some { q with wait := .move, move := some (m fill), rollFrom := none }))) ∧
      (moveOk s (m fill) = false → exec c s = .next (stopAt h q .badArg s))) ∧
    (∀ v, s.progOf h = some p → p.move = some v → p.wait = .move → s.runningOf h = [] →
      (residentOn s v.lease v.region && otherRuns s h v.region) = false →
      ∀ a f, exec (.spillFillComplete (.program h) a f) s =
        .next ((doMove v (moveFinding v a 0 f s)).setProg h (some { next p with move := none }))) ∧
    (∀ fn seq x v, flightOf s fn seq = some x → x.wait = .move → x.move = some v → leaseRuns s v.lease false = false →
      ∀ a f, exec (.spillFillComplete (.command fn seq) a f) s =
        .next (reply fn seq (leBytes (scopeBillets v.scope) 4) (doMove v (moveFinding v a 0 f s))))

/-! ### Sections -/

/-- R280, R310, R178, R329, R332 to R334: a load begins, and a section starts, when its conditions hold, and neither happens
before; a RUN whose checks no longer pass when its load would begin stops its program with that status (DEDUCED, log 145); a section
that is done ends with OK, or POISONED where an output carries poison, and one that a check has ended takes that verdict once its
writes are complete; 2^20 counted cycles without progress end it with DEADLOCK, more than its time limit with TIMEOUT. -/
def Obligations.SectionsStartAndEnd : Prop :=
  ∀ (s : State) (i : Nat) (x : Section),
    (∀ h, runOf s h = some (i, x) →
      let st := (runChecks s x.lease (secImage s x) x.origin).1
      (mayLoad s i x = true → st = .ok → exec (.runLoadBegin h) s = .next (beginLoad i x s)) ∧
      (x.loading = false → s.quenched = false → st ≠ .ok →
        exec (.runLoadBegin h) s = .next (settleProg (stopProg s h x.tag x.instr st) h)) ∧
      (mayLoad s i x = false → st = .ok → exec (.runLoadBegin h) s = .next s)) ∧
    (s.secOf i = some x →
      (mayStartSection s i x = true → exec (.sectionStart i) s = .next (startSection i x s)) ∧
      (mayStartSection s i x = false → exec (.sectionStart i) s = .next s) ∧
      (x.phase = .running → sectionDone s i x = true →
        exec (.sectionEnd i) s = .next (endSection (reportLeft i s) i (if x.poisoned then .poisoned else .ok))) ∧
      (∀ st, x.phase = .ending → x.verdict = some st →
        ((∀ q ∈ s.hbm.reqs, q.sec ≠ i) → (∀ p ∈ s.fab.net, p.sec = i → p.vn ≠ vnReq) →
          exec (.sectionEnd i) s = .next (endSection s i st)) ∧
        ((∃ q ∈ s.hbm.reqs, q.sec = i) → exec (.sectionEnd i) s = .next s)) ∧
      (x.phase = .running →
        (1048576 ≤ x.progress → workPending s i x = true → timedOut s x = false →
          ∃ t y, exec (.progressLimit i) s = .next t ∧ t.secOf i = some y ∧ y.phase = .ending ∧ y.verdict = some .deadlock) ∧
        (timedOut s x = true →
          ∃ t y, exec (.sectionTimeout i) s = .next t ∧ t.secOf i = some y ∧ y.phase = .ending ∧ y.verdict = some .timeout) ∧
        (x.progress < 1048576 → exec (.progressLimit i) s = .next s) ∧
        (timedOut s x = false → exec (.sectionTimeout i) s = .next s)))

/-! ### Tiles -/

/-- R135, R138, R149, R153, R202, R206, R424: a bundle issues when every inlet that it names holds an entry and every outlet has room,
and waits otherwise, once what a parity check and a read of the scratchpad find is dealt with; one that holds a reserved setting stops
the model by name; ENDSEC completes when nothing of the tile is outstanding; an entry, a partial sum or a grant that may enter an
inlet is queued behind those that it holds, and any other is discarded and reported; a streaming row, or one that adds, goes on. -/
def Obligations.TileRows : Prop :=
  (∀ (s : State) (t : Nat),
    let b := bundleAt s t (s.tileOf t).pc
    let m := (regCtx s (tileRegion t)).mode
    let bad := bundleBad m (fun k => some (osetW s t k 0 % 16)) b || bundleDenied m b || bundleBadFormat m b
    (∀ a f, (canIssue s t b = true → bad = false →
        exec (.bundleIssue t a f none) s = .next (issue (bundleFinding t a f s) t b) ∧
        (∀ h, exec (.bundleIssue t a f (some h)) s = .next (issue (bundleFinding t a f (s.updTile t (parityHit h))) t b))) ∧
      (∀ hit, (canIssue s t b = true → bad = true →
          exec (.bundleIssue t a f hit) s = .fault (.reservedBundle t (s.tileOf t).pc)) ∧
        (canIssue s t b = false → exec (.bundleIssue t a f hit) s = .next s))) ∧
    ((s.tileOf t).phase = .ending → (s.tileOf t).rowOp = none → (∀ n, n < 4 → outletUsed (s.tileOf t) n = 0) →
      secRuns s (s.tileOf t).sec = true → exec (.endsecComplete t) s =
        .next ((s.setTile t { s.tileOf t with phase := .ended, drainSent := true }).sendAll
          ((upTo 4).flatMap (outTail s t) ++ barrierPacket s t))) ∧
    (∀ r, (s.tileOf t).rowOp = some r → secRuns s (s.tileOf t).sec = true →
      let n := outRoom (s.tileOf t) r.queue
      let need := inContrib s t r.queue
      let y := addRows need r.row r.redId ((s.tileOf t).redIn.get [] r.queue) r.contribs (s.tileOf t).acc
      (r.op ≠ 5 → exec (.tensorRowComplete t) s = .next (s.setTile t { s.tileOf t with
        outlets := (s.tileOf t).outlets.upd [] r.queue (· ++ r.entries.take n)
        outRed := (s.tileOf t).outRed.upd [] r.queue (· ++ r.reduces.take n)
        rowOp := if (r.entries.drop n).isEmpty && (r.reduces.drop n).isEmpty then none
                 else some { r with entries := r.entries.drop n, reduces := r.reduces.drop n } })) ∧
      (r.op = 5 → exec (.tensorRowComplete t) s = .next (s.setTile t { s.tileOf t with
        redIn := (s.tileOf t).redIn.set [] r.queue y.1
        acc := y.2.2
        rowOp := if (upTo 16).all (fun p => decide (need ≤ y.2.1.get 0 p)) then none
                 else some { r with contribs := y.2.1 } })))) ∧
  (∀ (s : State) (i : Nat) (p : Packet), s.mayArrive i p = true → epIsCompute p.dst = true →
    let t := epTile p.dst
    let u := s.offNet i
    (p.vn = vnStream → (p.kind = 0 ∨ p.kind = 1) → p.port < 4 → p.sig = false → inletRoom (s.tileOf t) p.port = true →
      inletTakes u t p.port p = true →
      (∀ es, p.pl = .entries es → exec (.inletEntryArrival i) s = .next (progressed (u.setTile t
        { u.tileOf t with inlets := (u.tileOf t).inlets.upd [] p.port (· ++ es) }) p.sec)) ∧
      (∀ v, p.pl = .reduce v → exec (.inletEntryArrival i) s = .next (progressed (u.setTile t
        { u.tileOf t with redIn := (u.tileOf t).redIn.upd [] p.port (· ++ [v]) }) p.sec))) ∧
    (p.vn = vnStream → (p.kind = 0 ∨ p.kind = 1) → 4 ≤ p.port ∨ (inletRoom (s.tileOf t) p.port = true ∧
        (inletTakes u t p.port p = false ∨ p.sig = true)) →
      exec (.inletEntryArrival i) s = .next (packetFault u p)) ∧
    (p.vn = vnCtl → p.kind = 5 → ∀ j g ab, p.pl = .latch j g ab →
      (latchEn u t = true → inKind u t (latchInlet u t) = 4 → exec (.inletEntryArrival i) s = .next (progressed (u.setTile t
        { u.tileOf t with
          inlets := (u.tileOf t).inlets.upd [] (latchInlet u t)
            (· ++ [{ data := BitVec.ofNat 512 (j % 256 + g % 256 * 256 + (if ab then 65536 else 0)) }])
          latchWait := (u.tileOf t).latchWait.filter (fun k => k != j) }) p.sec)) ∧
      (latchEn u t = false ∨ inKind u t (latchInlet u t) ≠ 4 → exec (.inletEntryArrival i) s = .next (packetFault u p))))

/-! ### Streams and memory tiles -/

/-- R235, R240, R161 to R169, R227, R425: a stream whose turn it is and whose start condition holds runs, before its section's start
too when nothing of its lease still writes what it reads; a running stream that uses a latch waits for its grant; it makes its next
access, once what the reads of its index and of its data find is dealt with, and one that waits for a billet is served once it can
be. -/
def Obligations.StreamRows : Prop :=
  ∀ (s : State) (k : Nat) (x : Stream), s.streamOf k = some x →
    (secRuns s x.sec = true → mayStart s x = true → exec (.streamStart k) s = .next (startStream k x s)) ∧
    (mayStart s x = false → exec (.streamStart k) s = .next s) ∧
    (secRuns s x.sec = false → mayStart s x = true → (s.regionOf (tileRegion x.tile)).resident = some (secLease s x.sec) →
      reservedBy s (tileRegion x.tile) = none → descLatch x.desc = false → rangeHazard s x = false → unsafeAhead s x = false →
      exec (.prologueStreamStart k) s = .next (startStream k x s)) ∧
    (rangeHazard s x = true → exec (.prologueStreamStart k) s = .next s) ∧
    (∀ f fi, let u := readFinding x f (indexFinding k fi s)
      streamRuns s x = true → (descLatch x.desc = false ∨ x.latchHeld = true) →
      (x.blocked = false → exec (.streamAccess k f fi) s = .next (accessOf k x u)) ∧
      (x.blocked = true → exec (.streamAccess k f fi) s = .next s ∧ exec (.billetReadServed k f fi) s = .next (accessOf k x u)) ∧
      (isDrain x.desc = false → isFetch x.desc = false → isPort x.desc = false →
        (descOp x.desc = 0 → exec (.mtRead k f fi) s = .next (accessOf k x u)) ∧
        (descOp x.desc = 2 → exec (.mtGather k f fi) s = .next (accessOf k x u)))) ∧
    (streamRuns s x = true → descLatch x.desc = true → x.latchHeld = false → ∀ f fi,
      exec (.streamAccess k f fi) s = .next (takeGrant k x s)) ∧
    -- an entry that is read leaves its bytes in SRAM as they are
    (∀ a b, streamRuns s x = true → descLatch x.desc = false → isFetch x.desc = false →
      isPort x.desc = false → isDrain x.desc = false → secRuns s x.sec = true → accessAt s x x.pos = .at_ (some a) →
      billetAt s x.sec x.tile (a / 4096) = .here b → readable b (x.passes.get 0 (a / 4096)) = true →
      let t := tookBytes k x (some a) (s.sramRead x.tile a (sdUnit x.desc.toNat))
        (s.sramPoisoned x.tile a (sdUnit x.desc.toNat)) (s.sramFl x.tile a (sdUnit x.desc.toNat)) s
      (x.blocked = false → exec (.streamAccess k .clean .clean) s = .next t) ∧
      (x.blocked = true → exec (.billetReadServed k .clean .clean) s = .next t) ∧
      (descOp x.desc = 0 → exec (.mtRead k .clean .clean) s = .next t) ∧
      (descOp x.desc = 2 → exec (.mtGather k .clean .clean) s = .next t) ∧ t.fab.sram = s.fab.sram)

/-- R164, R165, R170, R163, R425: a request that the billets it touches accept is performed by the operation unit at once: WRITE
stores its bytes, IADD, MAX, MIN and SADD combine each element with what stands there, CLOSE stores nothing; a packet of a stream port
is taken by the stream that runs there; a reserved operation is discarded and reported.  MAX and MIN at the operation unit compare
integers or FP32 by a free value (log 1).  What an atomic's read finds is dealt with before it acts. -/
def Obligations.MemoryTileOperations : Prop :=
  (∀ (s : State) (i : Nat) (p : Packet), s.mayArrive i p = true → toEmulation s p = false → writeBehind s i p = false →
    let t := epTile p.dst
    (∀ addr data poison fl c, forUnit p = true → p.pl = .mt addr data poison fl → mtOk p.op addr data = true →
      (p.op, c) ∈ ([(1, .mtWrite i), (4, .mtSadd i 0 .clean), (5, .mtIadd i 0 .clean), (6, .mtMax i 0 .clean),
        (7, .mtMin i 0 .clean), (8, .mtClose i)] : List (Nat × Instr)) →
      (∀ k, addr / 4096 ≤ k → k ≤ (addr + max (mtSpan p.op data) 1 - 1) / 4096 →
        ∃ b, billetAt s (s.mtileOf t).sec t k = .here b ∧ writeGate b p.src (opKind p.op) = .accept) →
      ∃ u, exec c s = .next u ∧ u.host = s.host ∧ u.hbm = s.hbm ∧ u.own = s.own ∧
        u.fab.sram = (if p.op = 1 then s.sramWrite t addr data poison
          else if p.op = 4 then saddAt t addr
            { (Compact.ofBytes data).decode with poison := (Compact.ofBytes data).decode.poison || poison } s
          else if p.op = 8 then s
          else atomicAt t addr p.op (fun a => Config.mtFp (2097152 * t + a)) data poison s).fab.sram) ∧
    (∀ sid x op c, forPort p = true → portTakes s p = true → emptyData p = false → p.op ≤ 8 →
      portStream s t p.port = some (sid, x) →
      (op, c) ∈ ([(1, .mtWrite i), (3, .mtScatter sid i .clean), (5, .mtIadd i 0 .clean), (6, .mtMax i 0 .clean),
        (7, .mtMin i 0 .clean), (8, .mtClose i)] : List (Nat × Instr)) → sdOp x.desc.toNat = op →
      (∀ u, portTake p (s.offNet i) = (u, none) → exec c s = .next u) ∧
      (∀ u r, portTake p (s.offNet i) = (u, some r) → exec c s = .next (u.putNet i r))) ∧
    (∀ sid x, forPort p = true → portTakes s p = true → emptyData p = false → p.op ≤ 8 → portStream s t p.port = some (sid, x) →
      sdOp x.desc.toNat = 4 →
      (∀ u, reduceTake p (s.offNet i) = (u, none) → exec (.mtSadd i 0 .clean) s = .next u) ∧
      (∀ u r, reduceTake p (s.offNet i) = (u, some r) → exec (.mtSadd i 0 .clean) s = .next (u.putNet i r))) ∧
    (mtRefused s p = true → exec (.mtWrite i) s = .next (packetFault (s.offNet i) p))) ∧
  (∀ (s : State) (i a : Nat) (f : Finding),
    exec (.mtSadd i a f) s = exec (.mtSadd i 0 .clean) (atomicFinding 4 i a f s) ∧
    exec (.mtIadd i a f) s = exec (.mtIadd i 0 .clean) (atomicFinding 5 i a f s) ∧
    exec (.mtMax i a f) s = exec (.mtMax i 0 .clean) (atomicFinding 6 i a f s) ∧
    exec (.mtMin i a f) s = exec (.mtMin i 0 .clean) (atomicFinding 7 i a f s)) ∧
  -- what an atomic leaves in each element of its range, and IADD's wrap
  (∀ (s : State) (t a op : Nat) (fp : Nat → Bool) (bs : List Byte) (poison : Bool) (k : Nat), a + bs.length ≤ 2 ^ 21 →
    4 * k + 4 ≤ bs.length →
    leNat ((atomicAt t a op fp bs poison s).sramRead t (a + 4 * k) 4) =
      atomOp op (fp (a + 4 * k)) (leNat (s.sramRead t (a + 4 * k) 4)) (fieldAt bs (4 * k) 4) % 2 ^ 32) ∧
  (∀ fp x y, atomOp 5 fp x y = (x + y) % 2 ^ 32)

/-! ### Signals, latches and the network -/

/-- R213, R220, R226, R227, R207, R212, R283: a signal to a fabric tally of its own lease adds its amount modulo 65,536, whichever kind
of packet brings it; a latch whose turn it is is granted to a requester that asks, and the holder's release frees it; one that names no
latch, asks twice or is not the holder is discarded and reported; barrier arrivals and drain markers are counted. -/
def Obligations.SignalsAndLatches : Prop :=
  ∀ (s : State) (i : Nat) (p : Packet), s.mayArrive i p = true →
    let t := epTile p.dst
    let u := s.offNet i
    (∀ j n, p.pl = .signal j n → epIsMem p.dst = true → j < 64 → regLease s (tileRegion t) = p.lease →
      (p.vn = vnCtl → p.kind = 1 → p.port = 16 → ∃ u, exec (.tallySigArrival i) s = .next u ∧
        (u.mtileOf t).tally.get 0 j = (s.mtileOf t).tally.get 0 j + BitVec.ofNat 16 n ∧
        (∀ k, k ≠ j → (u.mtileOf t).tally.get 0 k = (s.mtileOf t).tally.get 0 k) ∧ u.hbm = s.hbm ∧ u.fab.sram = s.fab.sram) ∧
      (p.vn = vnStream → p.kind = 2 → (p.port = 16 ∨ (p.port ≤ 4 ∧ portTakes s p = true)) → epIsHub p.dst = false →
        ∃ u, exec (.stallyArrival i) s = .next u ∧
        (u.mtileOf t).tally.get 0 j = (s.mtileOf t).tally.get 0 j + BitVec.ofNat 16 n ∧
        (∀ k, k ≠ j → (u.mtileOf t).tally.get 0 k = (s.mtileOf t).tally.get 0 k) ∧ u.hbm = s.hbm ∧ u.fab.sram = s.fab.sram)) ∧
    (∀ j a b, p.pl = .latch j a b →
      let x := (u.mtileOf t).latch.get {} j
      (p.vn = vnCtl → p.kind = 4 →
        (latchNamed u p j = true → x.asked.contains (p.src, p.ref) = false → (x.held && x.holder == 64 * p.src + p.ref) = false →
          exec (.latchAcq i) s = .next (progressed (grantLatch t j (u.setMTile t { u.mtileOf t with
            latch := (u.mtileOf t).latch.set {} j { x with asked := x.asked ++ [(p.src, p.ref)] } })) p.sec)) ∧
        (latchNamed u p j = false ∨ x.asked.contains (p.src, p.ref) = true ∨ (x.held && x.holder == 64 * p.src + p.ref) = true →
          exec (.latchAcq i) s = .next (packetFault u p))) ∧
      (p.vn = vnCtl → p.kind = 6 →
        (latchNamed u p j = true → x.held = true → x.holder = 64 * p.src + p.ref →
          exec (.latchRel i) s = .next (progressed (grantLatch t j (u.setMTile t { u.mtileOf t with
            latch := (u.mtileOf t).latch.set {} j
              { x with held := false, abandoned := false, pos := (x.pos + 1) % latchLen u t j } })) p.sec)) ∧
        (latchNamed u p j = false ∨ x.held = false ∨ x.holder ≠ 64 * p.src + p.ref →
          exec (.latchRel i) s = .next (packetFault u p)))) ∧
    (∀ k n y, p.vn = vnCtl → p.kind = 2 → p.pl = .barrier k n → s.secOf p.sec = some y →
      exec (.barrierArrival i) s = .next (u.setSec p.sec (some { y with barrier := y.barrier + n, progress := 0 }))) ∧
    (p.vn = vnStream → p.kind = 3 →
      let k := inKind u t p.port
      let takes := epIsCompute p.dst = true ∧ p.port < 4 ∧ ((k = 1 ∧ p.src = inSrc u t p.port) ∨ k = 2)
      (takes → exec (.drainArrival i) s = .next (progressed (u.setTile t
        { u.tileOf t with drains := (u.tileOf t).drains.upd 0 p.port (· + 1) }) p.sec)) ∧
      (¬takes → exec (.drainArrival i) s = .next (packetFault u p)))

/-- R192, R197, R200, R202, R203, R207, R209, R210, R252, R276, R279: a packet enters the network when its way has a credit, or is refused
and reported, two matching packets in flight become one, a seam cell takes a packet that it refuses off the network and ends its
section, a corrected flit is counted by its router's die, one that is lost poisons its entry or ends its section, a record of flags
goes from a tile to its home and is merged there, and an ICP's frame packet sets its frame. -/
def Obligations.NetworkRows : Prop :=
  (∀ (s : State) (p : Packet) (n : Nat), nextTx s = some (p, n) → sourceFaulted s p = false →
    let u := { s with fab := { s.fab with tx := s.fab.tx.eraseIdx n } }
    (injectRefused s (stamped s p) = false → exec (.packetInject .unit) s = .next (u.onNet [stamped u p])) ∧
    (injectRefused s (stamped s p) = true → exec (.packetInject .unit) s = .next (packetFault u (stamped u p)))) ∧
  (∀ s : State, nextTx s = none → exec (.packetInject .unit) s = .next s) ∧
  (∀ (s : State) (t o : Nat), secRuns s (s.tileOf t).sec = true → (s.tileOf t).portOff = false →
    (latchEn s t && latchOutlet s t == o) = false →
    let n := (s.tileOf t).sent.get 0 o + 1
    (∀ e r, (s.tileOf t).outlets.get [] o = e :: r →
      let u := s.setTile t { s.tileOf t with outlets := (s.tileOf t).outlets.set [] o r, sent := (s.tileOf t).sent.set 0 o n }
      let ps := withSignals (outSig s t o) n { outPacket s t o with pl := .entries [e] }
      (roomFor u ps = true → exec (.packetInject (.outlet t o)) s = .next (ps.foldl inject u)) ∧
      (roomFor u ps = false → exec (.packetInject (.outlet t o)) s = .next s)) ∧
    (∀ v r, (s.tileOf t).outlets.get [] o = [] → (s.tileOf t).outRed.get [] o = v :: r →
      let u := s.setTile t { s.tileOf t with outRed := (s.tileOf t).outRed.set [] o r, sent := (s.tileOf t).sent.set 0 o n }
      let tail := if (outSig s t o).mode = 2 ∧ sigDue (outSig s t o) n = true then 1 else 0
      let ps := withSignals (outSig s t o) n { outPacket s t o with
        kind := 1, op := 4, comb := outComb s t o, close := v.closes != 0, pl := .reduce { v with tails := tail } }
      (roomFor u ps = true → exec (.packetInject (.outlet t o)) s = .next (ps.foldl inject u)) ∧
      (roomFor u ps = false → exec (.packetInject (.outlet t o)) s = .next s))) ∧
  (∀ (s : State) (i j : Nat) (p q r : Packet), s.fab.net[i]? = some p → s.fab.net[j]? = some q → mayMerge s.fab.net i j = true →
    let merged : Host.Outcome State Fault Refusal :=
      .next { s with fab := { s.fab with net := (s.fab.net.set (min i j) r).eraseIdx (max i j) } }
    (mergeReduce p q = some r → exec (.reduceCombine i j) s = merged) ∧
    (mergeBarrier p q = some r → exec (.barrierCombine i j) s = merged) ∧
    (mergeFlag p q = some r → exec (.flagCombine i j) s = merged) ∧
    (mergeBarrier p q = none → exec (.barrierCombine i j) s = .next s)) ∧
  (∀ (s : State) (i : Nat) (p : Packet), s.fab.net[i]? = some p →
    (∀ r side, seamRefuses s p = some (r, side) → ∃ t, exec (.seamPacket i r side) s = .next t ∧
      (∀ y, s.secOf p.sec = some y → y.phase = .running →
        ∃ z, t.secOf p.sec = some z ∧ z.phase = .ending ∧ z.verdict = some .seamViolation)) ∧
    (∀ r side, seamRefuses s p ≠ some (r, side) → exec (.seamPacket i r side) s = .next s) ∧
    (∀ n, exec (.flitError i (.single n)) s = .next
      { s with power := { s.power with flitErrs := s.power.flitErrs.upd 0 (tileDie (epTile n)) (· + 1) } }) ∧
    exec (.flitError i .bridge) s = .next s ∧
    (∀ es k e, p.pl = .entries es → es[k]? = some e → ∃ t, exec (.flitError i (.data k)) s = .next t ∧
      t.fab.net[i]? = some { p with pl := .entries (es.set k { e with poison := true }) } ∧ t.seq = s.seq ∧ t.hbm = s.hbm) ∧
    (∀ n y, s.secOf p.sec = some y → y.phase = .running → ∃ t z, exec (.flitError i (.tag n)) s = .next t ∧
      t.secOf p.sec = some z ∧ z.phase = .ending ∧ z.verdict = some .aborted)) ∧
  (∀ (s : State) (t k : Nat) (y : Section) (d : Stream), s.secOf (s.tileOf t).sec = some y → y.phase = .running → k < 8 →
    y.osets.get 0 (8 * t + k) ≠ 0 → (s.tileOf t).phase = .ended → (s.tileOf t).unacked.get 0 k = 0 →
    (s.tileOf t).flagSent.get false k = false → secStream s (s.tileOf t).sec (y.osets.get 0 (8 * t + k) - 1) = some d →
    let q := flagPacket s t d ((s.tileOf t).flags.get {} k)
    (roomFor s [q] = true → exec (.flagSend t k) s =
      .next (inject (s.setTile t { s.tileOf t with flagSent := (s.tileOf t).flagSent.set false k true }) q)) ∧
    (roomFor s [q] = false → exec (.flagSend t k) s = .next s)) ∧
  (∀ (s : State) (i : Nat) (p : Packet), s.mayArrive i p = true → p.vn = vnCtl →
    (∀ id r x, p.kind = 3 → p.pl = .flag id r → secRuns s p.sec = true → epIsMem p.dst = true → p.port = 5 →
      flagStream (s.offNet i) p id = some x → exec (.flagArrival i) s = .next (mergeAtHome p x r (s.offNet i))) ∧
    (∀ k f, p.kind = 0 → p.pl = .frame k f →
      let here := srcRegion p = dstRegion p ∧ epIsCompute p.dst = true ∧ p.port = 32 ∧ k / 72 = tileY (epTile p.dst) % 8
      (here → exec (.framePacketArrival i) s = .next (progressed (icpFrame (epTile p.dst) (k % 72) f (s.offNet i)) p.sec)) ∧
      (¬here → exec (.framePacketArrival i) s = .next (packetFault (s.offNet i) p))) ∧
    (∀ t f v, f < 64 → icpFrame t f v s = s.setFrame t f v))

/-! ### Requests to HBM and to windows -/

/-- R249 to R252, R254, R256, R257: a controller serves the request that its mode chooses: a read takes the bytes and the poison
that stand there, a write stores its bytes and is acknowledged, and an uncorrectable error that a read finds marks the unit; data and acknowledgements return to the stream; a window's read
takes the completion's bytes, and a failed one is reported; a window's write leaves the port with its bytes. -/
def Obligations.HbmAndWindowRequests : Prop :=
  (∀ (s : State) (pc k : Nat) (q : Req),
    let l := s.hbm.reqs.filter (fun r => !r.isWindow && !r.served && pcOf s r.lease r.addr == pc)
    let g := (s.groupOf (.hbmArb (pc / 4))).live
    s.power.selfRefresh = false → (g.getLsbD 31 && !arbBadShares g) = false → pickDeadline s k l = some q →
    (q.write = false → exec (.hbmRequestServed pc k .clean) s = .next (s.updReq q.id (fun r => { r with
      served := true, data := s.hbmRead q.lease q.addr q.len, poison := s.hbmAnyPoison q.lease q.addr q.len,
      fl := s.hbmFl q.sec q.lease q.addr q.len }))) ∧
    (q.write = false → ∀ m, ∃ t, exec (.hbmRequestServed pc k (.uncorrectable m)) s = .next t ∧
      t.hbm.mem = s.hbm.mem ∧ t.hbm.poison = (s.hbmMark q.lease q.addr 1 true).hbm.poison) ∧
    (q.write = true → ∃ t, exec (.hbmRequestServed pc k .clean) s = .next t ∧
      t.hbm.mem = (s.hbmWrite q.lease q.addr q.data).hbm.mem ∧ t.host = s.host ∧ t.own = s.own ∧ t.fab.sram = s.fab.sram)) ∧
  (∀ (s : State) (pc k c : Nat) (q r : Req),
    let l := s.hbm.reqs.filter (fun r => !r.isWindow && !r.served && pcOf s r.lease r.addr == pc)
    let g := (s.groupOf (.hbmArb (pc / 4))).live
    let used := s.hbm.slots.get [] pc
    s.power.selfRefresh = false → g.getLsbD 31 = true → arbBadShares g = false → slotClass g used k = c →
    pickFixed pc c l = some q → s.reqOf q.id = some r → exec (.hbmRequestServed pc k .clean) s =
      .next (serveReq pc r { s with hbm := { s.hbm with slots := s.hbm.slots.set [] pc (countSlot used c) } })) ∧
  (∀ (s : State) (i : Nat) (q : Req), s.reqOf i = some q →
    (q.served = true → q.write = false → q.isWindow = false → exec (.hbmReadDataArrival i) s = .next (reqBack q s)) ∧
    (q.served = false → exec (.hbmReadDataArrival i) s = .next s) ∧
    (q.isWindow = true → q.write = false → q.back = false →
      let lost := peerUnreachable q.sec q.lease q.window q.addr
        (s.updReq q.id (fun r => { r with poison := true, data := openBytes [0xFA, q.window, q.addr] q.len }))
      (q.served = true →
        (∀ bs, exec (.windowReadComplete i (.data bs)) s =
          .next (sendWaiting (reqBack q (s.updReq q.id (fun r =>
            { r with data := (bs ++ List.replicate (q.len - bs.length) 0).take q.len }))))) ∧
        exec (.windowReadComplete i .failed) s = .next (sendWaiting (reqBack q lost))) ∧
      (q.served = false → ∀ r,
        (leaseCanSend s q.lease q.bus (isPeer s q.lease q.window) = none → exec (.windowReadComplete i r) s = .next (reqBack q lost)) ∧
        (∀ f, leaseCanSend s q.lease q.bus (isPeer s q.lease q.window) = some f → exec (.windowReadComplete i r) s =
          .next (sendRead q s)))) ∧
    (q.isWindow = true → q.write = true → q.served = false → (∀ r ∈ s.reqsOf q.sid, r.served = true ∨ q.id ≤ r.id) →
      ∀ x, s.streamOf q.sid = some x →
        let peer := isPeer s q.lease q.window
        (∀ f, leaseCanSend s q.lease q.bus peer = some f → ∃ t, exec (.windowWriteSend i) s = .next t ∧
          t.out = s.out ++ [.memWrite f q.bus q.data (s.attr f q.bus peer (s.fnOf f).ero q.poison)] ∧
          t.hbm.mem = s.hbm.mem ∧ t.fab.sram = s.fab.sram) ∧
        (leaseCanSend s q.lease q.bus peer = none → ∃ t, exec (.windowWriteSend i) s = .next t ∧
          t.hbm.mem = s.hbm.mem ∧ t.fab.sram = s.fab.sram))) ∧
  (∀ (s : State) (i : Nat) (p : Packet) (q : Req), s.mayArrive i p = true → p.vn = vnReply → p.kind = 1 →
    (s.offNet i).reqOf p.ref = some q → exec (.wrAckArrival i) s = .next (reqBack q (s.offNet i)))

/-! ### Configuration -/

/-- R264 to R268, R271, R277, R283 to R285, R542 to R544: with no pushed stream, a command that the engine accepts has its effect on
the engine's context and the regions, and one that breaks a rule is recorded and resets the context; a pushed stream's command is
the next of its words; a column that may drain drains; a word reaches the serial port's engine only in RECOVERY. -/
def Obligations.ConfigurationEngine : Prop :=
  (∀ (s : State) (e l : Nat) (cmd v : Word) (ws : List Word) (ecc : Bool) (c : Instr) (op : Nat) (args : List Nat) (lease : Nat),
    (op, args, lease, c) ∈ ([(1, [], 0, .sync e cmd), (2, [], 0, .frameAddr e cmd), (3, ws.map BitVec.toNat, 0, .frameData e cmd ws),
      (4, [v.toNat], 0, .writeCreg e cmd v), (5, [v.toNat], 0, .crcCheck e cmd v ecc), (6, [], l, .regionOpen e l cmd),
      (7, [], 0, .regionSeal e cmd), (8, [], 0, .desync e cmd)] : List (Nat × List Nat × Nat × Instr)) →
    cmdOp cmd.toNat = op → args.length = cmdOperands cmd.toNat → engineThere s e = true →
    let x := (s.engOf e).ctx
    let ok := ecc || op != 5
    let r := cfgExec e lease cmd.toNat args ok x s
    ((s.engOf e).pushes = [] → cfgWaits x = false →
      (r.err = none → exec c s = .next (r.s.setEng e { r.s.engOf e with ctx := r.x })) ∧
      (∀ cause region, r.err = some (cause, region) →
        let t := streamError 0 e cause region r.x r.s
        exec c s = .next (t.setEng e { t.engOf e with ctx := {} }))) ∧
    -- the pushed streams, at most eight: the one that the engine is amid a column of goes on, else the first that does not wait
    (∀ k p, (s.engOf e).pushes ≠ [] → pushTurn (s.engOf e) = some k → (s.engOf e).pushes[k]? = some p →
      p.words.take (1 + args.length) = cmd.toNat :: args →
      exec c s = .next (runPush e k p cmd.toNat args ok (s.setEng e { s.engOf e with cur := some p.sec }))) ∧
    ((s.engOf e).pushes ≠ [] → pushTurn (s.engOf e) = none → exec c s = .next s)) ∧
  (∀ (g : CfgEng) (k : Nat), pushTurn g = some k → k < 8) ∧
  (∀ (s : State) (e : Nat), engineThere s e = true → (s.engOf e).pushes = [] → cfgWaits (s.engOf e).ctx = false →
    exec (.nop e) s = .next (s.setEng e (s.engOf e))) ∧
  (∀ (s : State) (r c : Nat), r < s.nRegions → c < 9 →
    (mayDrain s r c = true → exec (.columnDrain r c) s = .next (drainColumn r c s)) ∧
    (mayDrain s r c = false → exec (.columnDrain r c) s = .next s)) ∧
  (∀ (s : State) (w : Word),
    (s.boot.state ≠ 6 → exec (.sspWord w) s = .next s ∧ exec .sspPartialWord s = .next s) ∧
    (s.boot.state = 6 → exec (.sspWord w) s = .next (sspFeed w.toNat (s.emit (.sspMiso (sspStatus s)))) ∧
      ∃ t, exec .sspPartialWord s = .next t ∧ (t.engOf 4).ctx = {} ∧ (t.engOf 4).words = []))

/-! ### Regions, solver channels -/

/-- R231, R232, R407 to R409, R491, R492: a region whose tiles and engines all wait reports idle, is gated and lends its credit, where
lending is forbidden only within its lease; it wakes when one of them has something to do, at a duty from 1 to 16 of 16, and has its
full credit back at the recall; the RUN at the head of the queue reserves a region whose lease has stayed; a region that may be handed
over becomes resident for the first RUN that needs it.  Which duty a region wakes at, and how much credit each other region takes, are
free values (log 1, log 156). -/
def Obligations.RegionRows : Prop :=
  ∀ (s : State) (r : Nat),
    (∀ i x, sectionOn s r = some (i, x) →
      (regionWaits s i (x.lendUs * 25) r = true →
        let u := s.updRegion r (fun y => { y with idle := true, gated := true, lent := true, lender := none })
        exec (.regionIdleReport r) s = .next (spendCredit r u) ∧ ((spendCredit r u).regionOf r) = u.regionOf r ∧
        (∀ k, mayBorrow u r k = false → (spendCredit r u).regionOf k = u.regionOf k)) ∧
      ((s.regionOf r).gated = true → regionWaits s i 0 r = false → ∃ t, exec (.regionUngate r) s = .next t ∧
        (t.regionOf r).gated = false ∧ (t.regionOf r).idle = false ∧ 1 ≤ (t.regionOf r).duty ∧ (t.regionOf r).duty ≤ 16 ∧
        (∀ k, k ≠ r → t.regionOf k = s.regionOf k) ∧ t.fab = s.fab)) ∧
    (∀ k, lendForbidden s = true → (s.regionOf k).resident ≠ (s.regionOf r).resident → mayBorrow s r k = false) ∧
    ((s.regionOf r).lent = true → (s.regionOf r).gated = false →
      exec (.budgetRecall r) s = .next (takeBack r (s.updRegion r (fun y => { y with duty := 16, lent := false, lender := none })))) ∧
    (∀ h, headRun s = some h → headReserves s h r = true → (s.regionOf r).reserved = none →
      exec (.regionReserve r) s = .next (s.updRegion r (fun y => { y with reserved := some h }))) ∧
    (∀ h l rs, takerOf s r = some h → waitingRun s h = some (l, rs) → handoverFree s r = true → s.regionUsers r = [] →
      (∀ o, (s.regionOf r).resident = some o → stayed s r = true ∨ noProgram s o = true) →
      (reservedBy s r = none ∨ reservedBy s r = some h) → s.quenched = false →
      ∀ a f, exec (.regionHandover r a f) s =
          .next (leaveOthers (joinQueue r (leaveQueue h (handOver r l (saveFinding r a f s))))) ∧
        ((handOver r l (saveFinding r a f s)).regionOf r).resident = some l)

/-- R347, R348, R340, R355 to R357, R61, R62: a channel takes a descriptor while it is free and its inputs after it; prologue, each
body and epilogue run in turn until the result goes out; an expired deadline ends the problem with what its mode gives; a unit that
ceases to be usable clears its bit, raises ID_CAP_GEN, and ends the problems of its channels with UNIT_ABSENT. -/
def Obligations.SolverRows : Prop :=
  (∀ (s : State) (i c : Nat) (p : Packet) (e : QEntry), s.mayArrive i p = true → forChannel s p = true →
    let u := s.offNet i
    chanRefuses u p = false → chanAt u p = some c → p.pl = .entries [e] → chanRuns u c = true →
    ((u.chanOf c).phase = .idle → resultWaits u c = false →
      exec (.problemDescriptor i) s = .next (takeDescriptor c p e u)) ∧
    (chanRefuses s p = false → chanAt s p = some c → (u.chanOf c).phase = .input → (u.chanOf c).sec = p.sec →
      exec (.problemInputArrived c i) s = .next (takeInput c p e u))) ∧
  (∀ (s : State) (i : Nat) (p : Packet), s.mayArrive i p = true → forChannel s p = true → chanRefuses (s.offNet i) p = true →
    exec (.problemDescriptor i) s = .next (chanRefuse p (s.offNet i))) ∧
  (∀ (s : State) (c : Nat), chanRuns s c = true →
    let x := s.chanOf c
    (expired s x = false → ∀ w f,
      let s1 := quarterFinding c w f s
      let z := runEpilogue (s1.chanIn c)
      (x.phase = .prologue → exec (.prologueComplete c w f) s =
        .next (s1.putChan c { runPrologue (s1.chanIn c) with phase := .body })) ∧
      (x.phase = .body → exec (.iterationComplete c w f) s = .next (s1.putChan c (bodyDone (s1.chanIn c)))) ∧
      (x.phase = .epilogue → exec (.problemComplete c w f) s = .next (answer c
          (if z.curMode = 2 then bestAnswer z z.timingDep else lastAnswer z z.timingDep) (s1.putChan c z)))) ∧
    (expired s x = true → (x.phase = .prologue ∨ x.phase = .body ∨ x.phase = .epilogue) →
      exec (.solverDeadline c) s = .next (answer c (expiredAnswer x) s) ∧ ∀ w f, exec (.iterationComplete c w f) s = .next s)) ∧
  -- a channel's memory is its own: an engine's channel touches nothing else, an emulated one only the SRAM of its region
  (∀ (s : State) (c : Nat) (y : Chan), (∀ k, k ≠ c → (s.putChan c y).chanOf k = s.chanOf k) ∧
    (y.emulated = false → s.putChan c y = s.setChan c y) ∧ (s.putChan c y).hbm = s.hbm ∧ (s.putChan c y).own = s.own) ∧
  (∀ (s : State) (u : Nat), u < 32 → s.usable u = true → ¬(12 ≤ u ∧ u < 20) →
    ∃ t, exec (.unitOutOfService u) s = .next t ∧ t.usable u = false ∧ t.dev.capGen = s.dev.capGen + 1 ∧
      (∀ k, k ≠ u → t.usable k = s.usable k) ∧ t.seq = s.seq ∧ t.fab = s.fab ∧ t.hbm = s.hbm) ∧
  (∀ (s : State) (u : Nat), 12 ≤ u → u < 20 → s.usable u = true → exec (.unitOutOfService u) s =
    .next ((upTo 4).foldl (fun s k => engineGone s (4 * (u - 12) + k)) (outOfService u s)))

/-! ### Errors and repair -/

/-- R425, R426, R429, R431 to R434, R437, R439, R445, R446, R449: what each row of the scrubbers, the self-tests and the durable store does.
A line read that finds nothing or a correctable error leaves every stored byte and mark as it was; an uncorrectable error marks
the unit of lease HBM poisoned; the canary passes, or fails and, the second time in succession, ends configuration scrubbing. -/
def Obligations.RasRows : Prop :=
  ∀ (s : State) (die : Nat),
    (∀ r, (s.regionOf r).resident = none → (s.regionOf r).testedAt = none → s.regionFree r = true →
      (2500000 ≤ s.sclk - (s.regionOf r).vacantAt →
        let u := (zeroiseRegion s r).updRegion r (fun y => { y with testedAt := some s.sclk, vacantAt := (s.regionOf r).vacantAt })
        (∀ b, exec (.runtimeSelfTest r none b) s = .next u) ∧
        (∀ t, tileRegion t = r → exec (.runtimeSelfTest r (some t) false) s = .next (tileFailed t 1 u) ∧
          exec (.runtimeSelfTest r (some t) true) s = .next (outOfService (tileDie t) (tileFailed t 1 u)))) ∧
      (s.sclk - (s.regionOf r).vacantAt < 2500000 → ∀ f b, exec (.runtimeSelfTest r f b) s = .next s)) ∧
    ((s.dev.dies.get {} die).pendingSteer = none → ∀ a f, exec (.spareCalibration die a f) s = .next s) ∧
    (∀ x, (s.dev.dies.get {} die).pendingSteer = some x → s.quenched = false →
      (∀ r ∈ groupRegions die x, s.regionUsers r = [] ∧ (s.regionOf r).emulation = none) →
      ∀ a f, ∃ t, exec (.spareCalibration die a f) s = .next t ∧ (t.dev.dies.get {} die).pendingSteer = none ∧
        (∀ k, k ≠ die → t.dev.dies.get {} k = s.dev.dies.get {} k) ∧ t.hbm = s.hbm ∧ t.seq = s.seq) ∧
    (∀ dom line, s.power.scrub.pending = false → (dom = 2 → s.ras.cfgDisabled = false) →
      (∃ t, exec (.scrubLineRead die dom line .clean) s = .next t ∧ (t.ras.scrubs.get {} (4 * die + dom)).pos = line + 1 ∧
        t = { s with ras := { s.ras with scrubs := t.ras.scrubs } }) ∧
      -- the Burnisher passes over a column that is not sealed
      (scrubReads s die dom line = false → ∀ f, exec (.scrubLineRead die dom line f) s = exec (.scrubLineRead die dom line .clean) s) ∧
      (scrubReads s die dom line = false ↔ dom = 2 ∧ (s.regionOf (tileRegion (die * 1152 + line / 1024))).sealedCols.getLsbD
        (tileX (die * 1152 + line / 1024) % 9) = false) ∧
      (scrubReads s die dom line = true → ∀ pos, ∃ t, exec (.scrubLineRead die dom line (.correctable pos)) s = .next t ∧
        t.hbm = s.hbm ∧ t.fab = s.fab ∧ t.seq = s.seq ∧ t.own = s.own ∧
        line ∈ (t.ras.scrubs.get {} (4 * die + dom)).writeBack ∧
        (t.ras.scrubs.get {} (4 * die + dom)).hourErrs = (s.ras.scrubs.get {} (4 * die + dom)).hourErrs + 1)) ∧
    (∀ line mask, s.power.scrub.pending = false → line / 2 ^ 34 < 1024 → (s.leaseOf (line / 2 ^ 34)).st ≠ .free →
      ∃ t, exec (.scrubLineRead die 1 line (.uncorrectable mask)) s = .next t ∧
        t.hbm.mem = s.hbm.mem ∧ t.hbm.poison = s.hbm.poison.set false line true ∧ t.fab = s.fab) ∧
    (∀ dom, let b := s.ras.scrubs.get {} (4 * die + dom)
      exec (.scrubWriteBack die dom) s = .next (setScrub s (4 * die + dom) { b with writeBack := b.writeBack.drop 1 }) ∧
      (b.escalated = true → 250000000 ≤ s.sclk - b.quietAt → (∀ k, k < 10 → errsIn s.sclk b k < 16) →
        ∃ t, exec (.scrubRestored die dom) s = .next t ∧ (t.ras.scrubs.get {} (4 * die + dom)).escalated = false ∧
          t.hbm = s.hbm ∧ t.fab = s.fab) ∧
      (∀ k, k < 10 → 16 ≤ errsIn s.sclk b k → exec (.scrubRestored die dom) s = .next s)) ∧
    (∀ bit crc n, s.ras.cfgDisabled = false → let b := s.ras.scrubs.get {} (4 * die + 2)
      let passes := bit = b.pass % 2304 ∧ crc = 0x9D41E60B ∧ n = sealedFrames s die
      (passes → exec (.canaryCheck die bit crc n) s =
        .next (setScrub s (4 * die + 2) { b with canaryFailed := false, pass := b.pass + 1 })) ∧
      (¬passes → ∃ t, exec (.canaryCheck die bit crc n) s = .next t ∧ t.ras.cfgDisabled = b.canaryFailed ∧
        (t.ras.scrubs.get {} (4 * die + 2)).canaryFailed = true ∧ t.hbm = s.hbm ∧ t.fab = s.fab)) ∧
    (∀ k, exec (.tmrVote k) s = .next
      (if k < 3 then { s with ras := { s.ras with tmrVotes := satInc s.ras.tmrVotes 65535 } } else s)) ∧
    (∃ t, exec .ceSummary s = .next t ∧ t.ras.logNext = s.ras.logNext + 3 * s.nDies ∧
      (∀ d k, d < s.nDies → k < 3 → (t.ras.scrubs.get {} (4 * d + k)).hourErrs = 0) ∧ t.host = s.host ∧ t.hbm = s.hbm) ∧
    (∀ page content n, page < 1984 → content.length = 1024 → pageCurrent page (s.ras.pages.get {} page) ≠ none →
      exec (.durablePageWrite page content n) s = .next { s with ras := { s.ras with
        pages := s.ras.pages.set {} page (pageWrite page content n (s.ras.pages.get {} page)) } }) ∧
    (∀ page, page ∈ s.ras.logDirty → pageCurrent page (s.ras.pages.get {} page) ≠ none →
      exec (.patinaPageFlush page) s = .next { s with ras := { s.ras with
        pages := s.ras.pages.set {} page (pageWrite page (logPage s page) 1056 (s.ras.pages.get {} page))
        logDirty := s.ras.logDirty.filter (fun k => k != page) } })

/-! ### Security -/

/-- R456, R457, R462 to R466, R471: reseeding and the health tests of the DRBG; an IDE stream is keyed inside an SPDM session, after which
held replies may go, and becomes Insecure when a check fails; a request to a peer under a Secure selective stream's range goes by that
stream, any other by the Secure link stream; an SPDM request is answered in the state that allows it and refused with an error, changing
nothing, in any other.  The error codes and the response layouts are the model's (log 14). -/
def Obligations.SecurityRows : Prop :=
  (∀ s : State,
    (drbgOk s = true → (65536 ≤ s.sec.drbgReqs ∨ 25000000 ≤ s.sclk - s.sec.drbgAt) → exec .drbgReseed s =
      .next { s with sec := { s.sec with drbgReqs := 0, drbgAt := s.sclk } }) ∧
    (s.mod.standby = true → exec .entropyHealthFail s = .next { s with sec := { s.sec with entropyFail := true } }) ∧
    (s.sec.entropyFail = true → exec (.entropyRestart true) s = .next { s with
        sec := { s.sec with entropyFail := false, seeded := true, drbgReqs := 0, drbgAt := s.sclk } }) ∧
    exec (.entropyRestart false) s = .next s) ∧
  (∀ (s : State) (p k : Nat),
    (((s.portOf p).ide.get {} k).secure = true → ∃ t, exec (.ideIntegrityFail p k) s = .next t ∧
      ((t.portOf p).ide.get {} k).secure = false ∧ ((t.portOf p).ide.get {} k).insecure = true ∧
      (k = 0 → ∀ f, fnPort f = p → t.canSend f = false) ∧ t.hbm = s.hbm ∧ t.fab = s.fab ∧ t.sec = s.sec) ∧
    (∀ a b, doeOpen s p = true → (s.portOf p).spdm = .session → k < 5 → drbgOk s = true →
      let t := (((setIde s p k { secure := true, base := a, limit := b }).drewRandom).drainPort p).emit (.doe p 0x100 true [])
      exec (.ideKm p k a b) s = .next t ∧ (t.portOf p).ide.get {} k = { secure := true, base := a, limit := b } ∧
        (∀ j, j ≠ k → (t.portOf p).ide.get {} j = (s.portOf p).ide.get {} j)) ∧
    (∀ a b, doeOpen s p = true → (s.portOf p).spdm ≠ .session →
      exec (.ideKm p k a b) s = .next (s.emit (.doe p 0x100 false [])))) ∧
  (∀ (s : State) (p addr : Nat),
    (∀ peer k, s.ideFor p addr peer = some k → (k = 0 → ((s.portOf p).ide.get {} 0).secure = true) ∧
      (k ≠ 0 → peer = true ∧ k ≤ 4 ∧ ideCovers (s.portOf p) addr k = true)) ∧
    (((s.portOf p).ide.get {} 0).secure = true → s.ideFor p addr false = some 0) ∧
    (∀ k, 1 ≤ k → k ≤ 4 → ideCovers (s.portOf p) addr k = true → ∃ j, j ≠ 0 ∧ s.ideFor p addr true = some j) ∧
    (∀ peer, s.ideFor p addr peer = none → s.sec.policy.getLsbD 0 = true → ∀ f, fnPort f = p → s.canSendTo f addr peer = false)) ∧
  (∀ (s : State) (p : Nat), doeOpen s p = true →
    let st := (s.portOf p).spdm
    let wrong := (Host.Outcome.next (spdmError p spdmUnexpected s) : Host.Outcome State Fault Refusal)
    exec (.getVersion p) s = .next (setSpdm p .version (s.emit (.doe p 0x04 true (leBytes 0x12 1)))) ∧
    exec (.getCapabilities p) s = (if st = .version then .next (setSpdm p .capabilities (s.emit (.doe p 0x61 true []))) else wrong) ∧
    exec (.negotiateAlgorithms p true) s =
      (if st = .capabilities then .next (setSpdm p .negotiated (s.emit (.doe p 0x63 true []))) else wrong) ∧
    (st = .capabilities → exec (.negotiateAlgorithms p false) s = .next (spdmError p spdmInvalid s)) ∧
    (∀ ok, st ≠ .handshake → exec (.finish p ok) s = wrong) ∧
    (st = .handshake → exec (.finish p true) s = .next (setSpdm p .session (s.emit (.doe p 0x65 true [])))) ∧
    (st = .handshake → exec (.finish p false) s = .next (setSpdm p .negotiated (spdmError p spdmInvalid s))) ∧
    exec (.endSession p) s = (if st = .session then .next (setSpdm p .negotiated (s.emit (.doe p 0x6C true []))) else wrong) ∧
    (negotiated s p = false → ∀ k, exec (.getDigests p) s = wrong ∧ exec (.getCertificate p k) s = wrong ∧
      exec (.challenge p k) s = wrong ∧ exec (.getMeasurements p k) s = wrong ∧ exec (.keyExchange p) s = wrong) ∧
    (negotiated s p = true →
      exec (.getDigests p) s = .next (s.emit (.doe p 0x01 true (leBytes 0x03 1 ++
        beBytes (sha384 (signedBy s 0)).toNat 48 ++ beBytes (sha384 (signedBy s 1)).toNat 48))).drew ∧
      (∀ k, k < 2 → exec (.getCertificate p k) s = .next (s.emit (.doe p 0x02 true (signedBy s k))).drew) ∧
      (∀ k, 2 ≤ k → exec (.getCertificate p k) s = .next (spdmError p spdmInvalid s) ∧
        exec (.challenge p k) s = .next (spdmError p spdmInvalid s)) ∧
      (s.sec.debugUnlocked = true → ∀ k, k < 2 → exec (.challenge p k) s = .next (spdmError p spdmUnspecified s)) ∧
      (s.sec.debugUnlocked = true → ∀ k m, measurement s k = some m →
        exec (.getMeasurements p k) s = .next (spdmError p spdmUnspecified s)) ∧
      (drbgOk s = true → s.sec.debugUnlocked = false →
        (∀ k, k < 2 → exec (.challenge p k) s =
          .next (s.drewRandom.emit (.doe p 0x03 true (signedBy s.drewRandom 2)))) ∧
        (∀ k m, measurement s k = some m → exec (.getMeasurements p k) s =
          .next (s.drewRandom.emit (.doe p 0x60 true (m ++ signedBy s.drewRandom 3))))) ∧
      (drbgOk s = true → exec (.keyExchange p) s =
        .next (setSpdm p .handshake ((s.emit (.doe p 0x64 true (signedBy s 4))).drewRandom))) ∧
      (drbgOk s = false → ∃ t c, exec (.keyExchange p) s = .next t ∧ t.out = s.out ++ [.doe p 0x7F false c] ∧
        t.host = s.host ∧ t.sec = s.sec)))

/-- R458 to R460: HBM holds ciphertext.  A 64-byte unit of a lease's memory is sealed by XTS-AES-256 under the lease's key, one that no
lease owns under the hub key, with a tweak of the space in bit 63 and the unit's number in the bits below it; what a reader sees of what
is stored is what was written.  Which half of a key pair is the data key is DEDUCED (log 158). -/
def Obligations.HbmIsEncrypted : Prop :=
  (∀ (s : State) (owner : Option Nat) (space a : Nat) (bytes : List Byte), bytes.length = 64 →
    (hbmStored s owner space a bytes).length = 64 ∧
    hbmSeen s owner space a (hbmStored s owner space a bytes) = bytes) ∧
  (∀ (s : State) (l a : Nat), s.hbmCipher l a =
    (xtsSeal (s.leaseOf l).key (a / 64) ((s.hbmRead l (a / 64 * 64) 64).map BitVec.toNat)).map (BitVec.ofNat 8)) ∧
  (∀ (s : State) (l space a : Nat) (bytes : List Byte),
    hbmStored s (some l) space a bytes =
      (xtsSeal (s.leaseOf l).key (space * 2 ^ 63 + a / 64) (bytes.map BitVec.toNat)).map (BitVec.ofNat 8) ∧
    hbmStored s none space a bytes =
      (xtsSeal s.sec.hubKey (space * 2 ^ 63 + a / 64) (bytes.map BitVec.toNat)).map (BitVec.ofNat 8)) ∧
  (∀ (s : State) (l a : Nat), hbmSeen s (some l) 0 a (s.hbmCipher l a) = s.hbmRead l (a / 64 * 64) 64)

/-! ### Clocks and power -/

/-- R480, R482 to R484, R494 to R496, R499: a decision never sets a target above the cap, takes the thermal step off, and with no
limit acting and the dwell past sets the highest rate that the floor and the budget permit, a budget that counts what the die's regions
lend, where lending is forbidden only to their own lease (R491); a clock moves one 25 MHz step towards
its target; a trigger from step 12 on enters Quench with its cause, and in Quench only its bit is set; telemetry takes what it
samples. -/
def Obligations.PowerRows : Prop :=
  (∀ (s : State) (sn : Sensors) (d : Nat) (sense : DieSense), sn.dies[d]? = some sense → d < s.nDies →
    (s.clkOf d).stopped = false → s.power.lowFlow = false → (s.clkOf d).freq.pending = false →
    let x := withPool (safePoint .power s) d sense
    ∃ t, exec (.temperDecisionTick sn) s = .next t ∧
      let c := s.clkOf d
      let f := (t.clkOf d).fTarget
      let cap := fclkCap c.freq.live
      let fl := floorOf c.freq.live
      f ≤ cap ∧ (t.clkOf d).tTarget ≤ tclkCap c.freq.live ∧ (t.clkOf d).droopOwed = false ∧
      (1600 ≤ x.tj → f ≤ max 32 (c.fTarget - 4)) ∧ (x.overCurrent = true → f ≤ max 32 (c.fTarget - 4)) ∧
      (c.droopOwed = true → f ≤ max 32 (c.fTarget - 2)) ∧
      (limitsOf c x false = [] → (1250 ≤ s.sclk - c.fChanged ∨ max fl (min cap x.budgetF) ≤ c.fTarget) → fl ≤ c.fTarget →
        f = max fl (min cap x.budgetF))) ∧
  (∀ (s : State) (d : Nat), let c := s.clkOf d
    (c.stopped = false →
      (exec (.clockSlewStep d false) s = .next (s.setClk d { c with fclk :=
        if c.fclk < c.fTarget then c.fclk + 1 else if c.fTarget < c.fclk then c.fclk - 1 else c.fclk })) ∧
      (exec (.clockSlewStep d true) s = .next (s.setClk d { c with tclk :=
        if c.tclk < c.tTarget then c.tclk + 1 else if c.tTarget < c.tclk then c.tclk - 1 else c.tclk })) ∧
      exec (.droop d) s = .next (s.setClk d { c with droop := true })) ∧
    (c.stopped = true → ∀ b, exec (.clockSlewStep d b) s = .next s ∧ exec (.droop d) s = .next s) ∧
    (c.droop = true → exec (.droopRecovery d) s = .next (s.setClk d { c with droop := false, droopOwed := true }))) ∧
  (∀ (s : State) (k : Nat), 1 ≤ k → k ≤ 5 →
    (s.boot.state = 5 → exec (.quenchTrigger k) s = .next
      { s with power := { s.power with triggers := s.power.triggers ||| (1#6 <<< (k - 1)) } }) ∧
    (s.boot.state = 5 → s.power.triggers.getLsbD (k - 1) = true → exec (.quenchTriggerClear k) s = .next
      { s with power := { s.power with triggers := s.power.triggers &&& ~~~ (1#6 <<< (k - 1)) } }) ∧
    (s.power.triggers.getLsbD (k - 1) = false → exec (.quenchTriggerClear k) s = .next s) ∧
    (pastStep12 s = true → ∃ t, exec (.quenchTrigger k) s = .next t ∧ t.boot.state = 5 ∧
      t.power.active = true ∧ t.power.cause = k ∧ t.power.selfRefresh = true ∧ t.power.triggers.getLsbD (k - 1) = true ∧
      t.mod.quenchDrive = decide (k ≤ 4) ∧
      (∀ d, d < s.nDies → (t.clkOf d).stopped = true ∧ (t.clkOf d).fclk = 0 ∧ (t.clkOf d).tclk = 0))) ∧
  (∀ (s : State) (v : Telemetry), ∃ t, exec (.telemetryUpdate v) s = .next t ∧
    t = { s with power := t.power } ∧ t.power.modulePower = v.modulePower ∧ t.power.energy = BitVec.ofNat 64 v.energy ∧
    (∀ d, d < s.nDies → (t.clkOf d).temp = v.temp.getD d 0 ∧ (t.clkOf d).power = v.diePower.getD d 0 ∧
      (t.clkOf d).telClock = telClockOf (s.clkOf d) ∧ (t.clkOf d).fTarget = (s.clkOf d).fTarget))

/-! ### Start-up and resets -/

/-- R453, R501 to R503, R505, R506, R508 to R510, R512, R513, R516, R526, R527, R529: standby power boots the selected slot,
or goes to RECOVERY where neither image passes; main power is enabled, and its becoming good runs steps 6 to 12; its loss closes
every lease and clears the fabric and HBM, and keeps the security settings; resets keep the durable store and record their cause;
a recovery package that passes runs, and any other is discarded. -/
def Obligations.StartupRows : Prop :=
  ∀ s : State,
    let img (k : Nat) := (s.boot.slots.get {} k).image
    (∀ m, s.mod.standby = false → pageCurrent 4 (s.ras.pages.get {} 4) ≠ none →
      (imgCheck s fwMagic (img s.boot.selected) = .ok → s.boot.attempts < 3 →
        ∃ t, exec (.standbyPresent m) s = .next t ∧ t.mod.standby = true ∧ t.boot.state = 1 ∧ t.boot.step = 4 ∧
          t.boot.running = imgBody (img s.boot.selected) ∧ t.boot.slot = s.boot.selected ∧ t.boot.fallback = false ∧
          t.sec.seeded = true ∧ t.fab = s.fab ∧ t.hbm = s.hbm) ∧
      ((∀ k, imgCheck s fwMagic (img k) ≠ .ok) →
        ∃ t, exec (.standbyPresent m) s = .next t ∧ t.boot.state = 6 ∧ t.boot.failStep = 3 ∧ t.mod.cfgErr = true)) ∧
    (∀ m, s.mod.standby = true → exec (.standbyPresent m) s = .next s) ∧
    (∃ t, exec .standbyLoss s = .next t ∧ t.mod = {} ∧ t.hbm = {} ∧ t.fab = {} ∧ t.own = {} ∧ t.seq = {} ∧ t.sclk = 0 ∧
      t.boot.slots = s.boot.slots ∧ t.sec.floor = s.sec.floor ∧ t.ras.pages = s.ras.pages ∧ t.ras.bootCount = s.ras.bootCount ∧
      t.ras.logDirty = [] ∧ t.pending = s.pending) ∧
    (s.boot.state = 1 → s.mod.mainOn = false → s.mod.j1 = 1 → s.power.triggers = 0 →
      (s.boot.restart5 = false → exec .mainPowerEnable s = .next { s with
        mod := { s.mod with mainOn := true }, boot := { s.boot with state := 2, step := 5 } }) ∧
      (s.boot.restart5 = true → exec .mainPowerEnable s = .next s ∧
        (∀ c, s.boot.clearSince = some c → 250000000 ≤ s.sclk - c → exec .startupRetry s = .next { s with
          mod := { s.mod with mainOn := true }
          boot := { s.boot with state := 2, step := 5, restart5 := false, lastRestart := 5, clearSince := none } }) ∧
        (∀ c, s.boot.clearSince = some c → s.sclk - c < 250000000 → exec .startupRetry s = .next s))) ∧
    ((s.mod.j1 ≠ 1 ∨ s.power.triggers ≠ 0) → exec .mainPowerEnable s = .next s) ∧
    (∀ r : StartupTests, s.mod.mainOn = true → s.mod.mainGood = false → s.boot.state = 2 → s.boot.recovery = false →
      r.failedUnits = [] → r.failedTiles = [] → r.exhaustedRows = [] → r.hangAt = none →
      (r.hubConfigOk = true → ∃ t, exec (.mainPowerGood r) s = .next t ∧
        t.boot.step = 12 ∧ t.boot.state = s.readyState ∧ t.boot.hubLoaded = true ∧ t.boot.attempts = 0 ∧
        t.mod.mainGood = true ∧ t.mod.cfgErr = s.mod.cfgErr ∧ t.ras.bootCount = s.ras.bootCount + 1 ∧
        t.ras.rowsRepaired = s.ras.rowsRepaired + s.ras.hbmRows.length ∧
        t.sec.floor = max s.sec.floor (imgFloorRaise s.boot.running) ∧
        (∀ n, n < s.nPorts → (t.portOf n).released = true) ∧
        (∀ d, d < s.nDies → s.dieUsable d = true → (t.clkOf d).stopped = false ∧ (t.clkOf d).fclk = 32) ∧
        t.hbm = s.hbm ∧ t.fab = s.fab ∧ t.own = s.own) ∧
      (r.hubConfigOk = false → ∃ t, exec (.mainPowerGood r) s = .next t ∧ t.boot.state = 6 ∧ t.boot.failStep = 10 ∧
        t.mod.cfgErr = true ∧ (t.engOf 0).errValid = true)) ∧
    (s.mod.mainOn = false → exec .mainPowerLoss s = .next s) ∧
    (s.mod.mainOn = true → s.boot.step = 12 → ∃ t, exec .mainPowerLoss s = .next t ∧ t.boot.state = 1 ∧ t.boot.step = 4 ∧
      t.boot.restart5 = true ∧ t.mod.mainOn = false ∧ t.mod.mainGood = false ∧ (∀ l, t.leaseOf l = {}) ∧ t.fab = {} ∧
      t.hbm.mem = [] ∧ t.hbm.arb = s.hbm.arb ∧ t.seq.progs = [] ∧ t.seq.sections = [] ∧ t.sec.policy = s.sec.policy ∧
      t.sec.lock = s.sec.lock ∧ t.sec.debugUnlocked = s.sec.debugUnlocked ∧ t.dev = s.dev ∧ t.sclk = s.sclk) ∧
    (∀ c ∈ ([.startupWatchdog, .moduleReset 2, .moduleReset 3] : List Instr),
      (c = .startupWatchdog → s.boot.state = 2 ∧ s.mod.mainGood = true ∧ 75000000 ≤ s.sclk - s.boot.goodAt) →
      (∀ k, c = .moduleReset k → s.boot.resetPending = k ∧ s.boot.state ≠ 5) →
      ∃ t, exec c s = .next t ∧ t.boot.lastRestart = (if c = .startupWatchdog then 4 else s.boot.resetPending) ∧
        t.sclk = s.sclk ∧ t.hbm = {} ∧ t.fab = {} ∧ (∀ l, t.leaseOf l = {}) ∧ t.mod.mainOn = false ∧
        t.sec.debugUnlocked = s.sec.debugUnlocked ∧ t.power.triggers = s.power.triggers ∧ t.ras.pages = s.ras.pages ∧
        t.pending = s.pending) ∧
    (s.boot.state = 5 → ∀ k, exec (.moduleReset k) s = .next s) ∧
    (s.boot.pushed = true → s.boot.state = 6 → s.boot.recovery = false →
      let c := imgCheck s recoveryMagic (pushedPackage s)
      (c = .ok → ∃ t, exec .recoveryPackageCheck s = .next t ∧ t.boot.recovery = true ∧ t.boot.recStatus = 5 ∧
        t.boot.running = imgBody (pushedPackage s) ∧ t.boot.pushed = false ∧ t.fab = s.fab ∧ t.host = s.host) ∧
      (c ≠ .ok → ∃ t, exec .recoveryPackageCheck s = .next t ∧ t.boot.recovery = false ∧ t.boot.running = s.boot.running ∧
        t.boot.hubFrames = [] ∧ t.boot.pushed = false ∧ (c = .key → t.boot.recStatus = 3) ∧ (c = .svn → t.boot.recStatus = 4)))

/-! ### The module controller -/

/-- R527, R528, R530 to R535, R538 to R541, R545, R467: the supplies, the leak, flow and thermistor inputs, the outputs and the buses,
PLDM and JTAG.  The completion codes and operational states are those of DSP0248 (log 13); a vendor instruction after a debug
unlock stops the model by name, since no rule gives it an effect. -/
def Obligations.ModuleRows : Prop :=
  (∀ s : State, s.mod.standby = true →
    exec .j1Valid s = .next (s.setMod { s.mod with j1 := 1 }) ∧
    exec .j1Reversed s = .next (s.setMod { s.mod with j1 := 2, alert := true }) ∧
    (s.mod.mainOn = true → s.boot.state = 5 → exec .supplyFault s = .next
      { s with power := { s.power with triggers := s.power.triggers ||| 2#6 } }) ∧
    (s.mod.mainOn = false → exec .supplyFault s = .next s) ∧
    (∀ mv, let l := (mv :: s.mod.leak).take 5
      let m := medianOf l
      (1200 ≤ m → m ≤ 2100 → s.power.triggers.getLsbD 2 = false →
        exec (.leakSample mv) s = .next (s.setMod { s.mod with leak := l, leakClass := 0 })) ∧
      (300 ≤ m → m < 1200 → s.boot.state = 5 → exec (.leakSample mv) s = .next
        { s.setMod { s.mod with leak := l, leakClass := 1 } with
            power := { s.power with triggers := s.power.triggers ||| 4#6 } }) ∧
      ((m < 300 ∨ 2100 < m) → ∃ t, exec (.leakSample mv) s = .next t ∧ t.mod.leakClass = (if m < 300 then 2 else 3) ∧
        t.mod.alert = true ∧ t.power.triggers.getLsbD 2 = true)) ∧
    (∀ mv, 1700 ≤ mv → mv ≤ 4750 → s.power.triggers.getLsbD 3 = false → exec (.flowSample mv) s =
      .next { s with mod := { s.mod with flowMv := mv, flowFault := false, lowSince := none }
                     power := { s.power with lowFlow := false } }) ∧
    (∀ mv, mv < 1700 → ∃ t, exec (.flowSample mv) s = .next t ∧ t.power.lowFlow = true ∧ t.mod.flowFault = decide (mv < 250) ∧
      t.mod.lowSince = some (s.mod.lowSince.getD s.sclk) ∧
      (50000000 ≤ s.sclk - s.mod.lowSince.getD s.sclk → t.power.triggers.getLsbD 3 = true)) ∧
    (∀ i o : Int, -200 ≤ i → i ≤ 1100 → -200 ≤ o → o ≤ 650 → ∃ t, exec (.thermistorSample i o) s = .next t ∧
      t.mod.inlet = i ∧ t.mod.outlet = o ∧ t.mod.inletFault = false ∧ t.mod.outletFault = false ∧
      (o < 600 → t.mod.warned = false) ∧ t = { s with mod := t.mod }) ∧
    (∀ i o : Int, 650 < o → o ≤ 1100 → s.mod.warned = false → ∃ t, exec (.thermistorSample i o) s = .next t ∧
      t.mod.warned = true ∧ t.ras.logNext = s.ras.logNext + 1 ∧ exec (.thermistorSample i o) t = .next
        { t with mod := { t.mod with alert := t.mod.alert || thermFault i } }) ∧
    (∀ b, exec (.outputFault 17 b) s = .next (setOutFault 17 (b == s.mod.cfgErr) s)) ∧
    (s.mod.quenchDrive = true → ∀ b, exec (.outputFault 18 b) s = .next (setOutFault 18 b s)) ∧
    (s.boot.state ≠ 6 → ∀ b, exec (.outputFault 29 b) s = .next s) ∧
    exec (.i2cBusStuck true) s = .next (s.setMod { s.mod with busFault := false }) ∧
    exec (.i2cBusStuck false) s = .next (s.setMod { s.mod with busFault := true, alert := true }) ∧
    exec .smbusBusHeld s = .next (s.setMod { s.mod with smbResets := s.mod.smbResets + 1 }) ∧
    exec (.mctpPacket true (0x60 + s.mod.modId)) s = .next (s.setMod { s.mod with mctpAccepted := s.mod.mctpAccepted + 1 }) ∧
    exec (.mctpPacket false (0x60 + s.mod.modId)) s = .next (s.setMod { s.mod with mctpDropped := s.mod.mctpDropped + 1 }) ∧
    (∀ ok a, a ≠ 0x60 + s.mod.modId → exec (.mctpPacket ok a) s = .next s) ∧
    (∀ id v, sensorValue s id = some v → ∃ t, exec (.pldmGetSensorReading id) s = .next t ∧
      t.out = s.out ++ [.pldm 0 (opState v.1 :: v.2)] ∧ t.mod.alert = (if id = 13 then false else s.mod.alert) ∧
      t.boot = s.boot ∧ t.power = s.power) ∧
    (∀ id, (id = 0 ∨ 14 < id) → exec (.pldmGetSensorReading id) s = .next (s.emit (.pldm 0x80 []))) ∧
    (s.boot.state ≠ 5 → exec .moduleResetRequest s =
      .next ({ s with boot := { s.boot with resetPending := 3 } }.emit (.pldm 0 []))) ∧
    (s.boot.state = 5 → exec .moduleResetRequest s = .next (s.emit (.pldm 0x04 []))) ∧
    (∀ b, exec (.quenchTest b) s = .next
      ((setOutFault 18 (!b) (s.setMod { s.mod with quenchTest := some s.sclk })).emit (.pldm 0 []))) ∧
    (s.boot.state ≠ 0 →
      (∀ img, s.boot.updating = none → img.length ≤ 16777216 → imgCheck s fwMagic img = .ok →
        exec (.pldmFirmwareUpdate (.request img)) s = .next ((beginUpdate img s).emit (.pldm 0 []))) ∧
      (∀ img x, s.boot.updating = some x → ∃ t, exec (.pldmFirmwareUpdate (.request img)) s = .next t ∧ t.boot = s.boot) ∧
      (∀ img, s.boot.updating = some img → imgCheck s fwMagic img = .ok →
        ∃ t, exec (.pldmFirmwareUpdate (.program true)) s = .next t ∧ t.boot.updating = none ∧
          t.boot.slots.get {} (inactiveSlot s) =
            { state := 2, version := imgVersion img, svn := imgSvn img, image := imgBody img }) ∧
      ((s.boot.slots.get {} (inactiveSlot s)).state = 2 → exec .activateFirmware s =
        .next ({ s with boot := { s.boot with selected := inactiveSlot s, attempts := 0 } }.emit (.pldm 0 []))) ∧
      ((s.boot.slots.get {} (inactiveSlot s)).state ≠ 2 → ∃ t, exec .activateFirmware s = .next t ∧ t.boot = s.boot))) ∧
  (∀ (s : State) (c : Nat),
    (c < 6 → exec (.jtagInstruction c) s = .next (s.setMod { s.mod with jtagIr := c, tapReset := false })) ∧
    (6 ≤ c → s.sec.debugUnlocked = false →
      exec (.jtagInstruction c) s = .next (s.setMod { s.mod with jtagIr := 1, tapReset := false })) ∧
    (6 ≤ c → s.sec.debugUnlocked = true → exec (.jtagInstruction c) s = .fault (.vendorInstruction c)) ∧
    exec .trstAssert s = .next (s.setMod { s.mod with jtagIr := 0, tapReset := true }))

/-! ### Arithmetic -/

/-- R97: in the canonical compact form the highest limb that is not a copy of the sign is present, every limb below it is present
exactly when it is not zero, and every limb above it is absent; 0, −1 and −2^64 have the bytes that the rule names; the
encoding loses nothing: its bytes give back the compact form, and that gives back the value, so that no two values share one. -/
def Obligations.SterlingCompactRoundTrip : Prop :=
  (∀ v : Sterling, v.compact.decode = v ∧ Compact.ofBytes v.compact.bytes = v.compact ∧
    (Compact.ofBytes v.compact.bytes).decode = v) ∧
  (∀ v w : Sterling, v.compact.bytes = w.compact.bytes → v = w) ∧
  (∀ (v : Sterling) (t : Nat), t < 10 → limbOf v.wide t ≠ fillLimb v.compact.fill →
    (∀ k, t < k → k < 10 → limbOf v.wide k = fillLimb v.compact.fill) →
    v.compact.limbs.getD t none = some (limbOf v.wide t) ∧
    (∀ k, k < t → v.compact.limbs.getD k none = if limbOf v.wide k = 0 then none else some (limbOf v.wide k)) ∧
    (∀ k, t < k → v.compact.limbs.getD k none = none)) ∧
  (∀ v : Sterling, (∀ k, k < 10 → limbOf v.wide k = fillLimb v.compact.fill) → ∀ k, v.compact.limbs.getD k none = none) ∧
  ({ i := 0 } : Sterling).compact.bytes = [0x00, 0x00] ∧ ({ i := -1 } : Sterling).compact.bytes = [0x00, 0x04] ∧
  ({ i := -(2 ^ 64) } : Sterling).compact.bytes = [0x01, 0x04, 0, 0, 0, 0, 0, 0, 0, 0]

/-- R92: two sterling words are added as 632-bit integers, with the OR of their flags; a product is added by the same operation;
the order of the terms of a sum does not matter. -/
def Obligations.SterlingAdditionOrderFree : Prop :=
  (∀ a b : Sterling, (a.add b).i = a.i + b.i ∧ (a.add b).nan = (a.nan || b.nan) ∧ (a.add b).pinf = (a.pinf || b.pinf) ∧
    (a.add b).ninf = (a.ninf || b.ninf) ∧ (a.add b).poison = (a.poison || b.poison)) ∧
  (∀ (a : Sterling) (p : Val), a.addProduct p = a.add (({} : Sterling).addProduct p)) ∧
  (∀ (a : Sterling) (l m : List Sterling), l.Perm m → l.foldl Sterling.add a = m.foldl Sterling.add a) ∧
  (∀ (a : Sterling) (l m : List Val), l.Perm m → l.foldl Sterling.addProduct a = m.foldl Sterling.addProduct a)

/-! ### The durable store -/

/-- R446, R445: a write of a page that power loss stops after any number of its 1,056 bytes leaves every read of the page with the
old content or with the new content whole, and the copy that a read returned is untouched; a complete write leaves the new
content.  It is stated for a page whose unread copy does not carry a valid header with a later number; that premise holds of a
blank page, and a complete write keeps it, as does one that stops before its header begins. -/
def Obligations.DurablePageOldOrNew : Prop :=
  ∀ (s : State) (p : Nat) (content : List Byte) (n : Nat), p < 1984 → content.length = 1024 →
    (s.ras.pages = [] → pageSound p (s.ras.pages.get {} p) ∧ pageRead p (s.ras.pages.get {} p) = some blankContent) ∧
    (pageCurrent p (s.ras.pages.get {} p) ≠ none → pageSound p (s.ras.pages.get {} p) →
      ∃ t, exec (.durablePageWrite p content n) s = .next t ∧ t = { s with ras := { s.ras with pages := t.ras.pages } } ∧
        (∀ q, q ≠ p → t.ras.pages.get {} q = s.ras.pages.get {} q) ∧
        let old := s.ras.pages.get {} p
        let new := t.ras.pages.get {} p
        (pageRead p new = pageRead p old ∨ pageRead p new = some content) ∧
        (n < 1024 → pageRead p new = pageRead p old) ∧
        (1056 ≤ n → pageRead p new = some content ∧ pageSound p new) ∧
        (n ≤ 1024 → pageSound p new) ∧
        (pageCurrent p old = some true → copyOfA p new = copyOfA p old) ∧
        (pageCurrent p old = some false → copyOfB new = copyOfB old))

/-! ### Every command -/

/-- Every command of the table ends in a next state, but for two: a tile's bundle that holds a reserved setting, and a vendor's JTAG
instruction after a debug unlock.  None is refused. -/
def Obligations.EveryCommandCompletes : Prop :=
  ∀ (i : Instr) (s : State), (∃ t, exec i s = .next t) ∨
    (∃ k a f h, i = .bundleIssue k a f h ∧ exec i s = .fault (.reservedBundle k (s.tileOf k).pc)) ∨
    (∃ c, i = .jtagInstruction c ∧ 6 ≤ c ∧ s.sec.debugUnlocked = true ∧ exec i s = .fault (.vendorInstruction c))
end

