-- ==== Sys2Proof/Laws/Table.lean ====
section
/-! SUPPORT. What a sparse table reads after each change, and that each change keeps the canonical form. -/
namespace Sys2Proof.Machine

variable {α : Type}

@[simp] theorem Table.get_nil (d : α) (k : Nat) : Table.get d [] k = d := rfl

theorem Table.get_ins_self (d : α) (t : Table α) (k : Nat) (v : α) : (t.ins k v).get d k = v := by
  induction t with
  | nil => simp [Table.ins, Table.get]
  | cons e r ih =>
    obtain ⟨a, w⟩ := e
    simp only [Table.ins]
    split
    · simp [Table.get]
    · split
      · simp [Table.get]
      · rename_i h1 h2
        simp [Table.get, Ne.symm h2, ih]

theorem Table.get_ins_ne (d : α) (t : Table α) {k j : Nat} (v : α) (h : j ≠ k) : (t.ins k v).get d j = t.get d j := by
  induction t with
  | nil => simp [Table.ins, Table.get, Ne.symm h]
  | cons e r ih =>
    obtain ⟨a, w⟩ := e
    simp only [Table.ins]
    split
    · simp [Table.get, Ne.symm h]
    · split
      · rename_i h1 h2; subst h2; simp [Table.get, Ne.symm h]
      · simp [Table.get, ih]

theorem Table.get_del_ne (d : α) (t : Table α) {k j : Nat} (h : j ≠ k) : (t.del k).get d j = t.get d j := by
  induction t with
  | nil => rfl
  | cons e r ih =>
    obtain ⟨a, w⟩ := e
    simp only [Table.del]
    split
    · rename_i h1; subst h1; simp [Table.get, Ne.symm h, ih]
    · simp [Table.get, ih]

/-- Reading below a sorted table's first key finds nothing. -/
theorem Table.get_below (d : α) (t : Table α) {lo k : Nat} (h : t.sortedFrom lo = true) (hk : k < lo) : t.get d k = d := by
  induction t generalizing lo with
  | nil => rfl
  | cons e r ih =>
    obtain ⟨a, w⟩ := e
    simp only [Table.sortedFrom, Bool.and_eq_true, decide_eq_true_eq] at h
    have : a ≠ k := by omega
    simp [Table.get, this, ih h.2 (by omega)]

theorem Table.get_del_self (d : α) (t : Table α) (k : Nat) : (t.del k).get d k = d := by
  induction t with
  | nil => rfl
  | cons e r ih =>
    obtain ⟨a, w⟩ := e
    simp only [Table.del]
    split
    · exact ih
    · rename_i h1; simp [Table.get, h1, ih]

theorem Table.get_set_ne [DecidableEq α] (d : α) (t : Table α) {k j : Nat} (v : α) (h : j ≠ k) :
    (t.set d k v).get d j = t.get d j := by
  unfold Table.set
  split
  · exact Table.get_del_ne d t h
  · exact Table.get_ins_ne d t v h

@[simp] theorem Table.get_set_self [DecidableEq α] (d : α) (t : Table α) (k : Nat) (v : α) : (t.set d k v).get d k = v := by
  unfold Table.set
  split
  · rename_i hv; rw [hv]; exact Table.get_del_self d t k
  · exact Table.get_ins_self d t k v

/-! ### The canonical form -/

theorem Table.sortedFrom_mono (t : Table α) {lo m : Nat} (h : t.sortedFrom lo = true) (hm : m ≤ lo) :
    t.sortedFrom m = true := by
  cases t with
  | nil => rfl
  | cons e r =>
    simp only [Table.sortedFrom, Bool.and_eq_true, decide_eq_true_eq] at h ⊢
    exact ⟨by omega, h.2⟩

theorem Table.sortedFrom_ins (t : Table α) {lo k : Nat} (v : α) (h : t.sortedFrom lo = true) (hk : lo ≤ k) :
    (t.ins k v).sortedFrom lo = true := by
  induction t generalizing lo with
  | nil => simp [Table.ins, Table.sortedFrom, hk]
  | cons e r ih =>
    obtain ⟨a, w⟩ := e
    simp only [Table.sortedFrom, Bool.and_eq_true, decide_eq_true_eq] at h
    simp only [Table.ins]
    split
    · simp only [Table.sortedFrom, Bool.and_eq_true, decide_eq_true_eq]
      exact ⟨hk, by omega, h.2⟩
    · split
      · rename_i h1 h2; subst h2
        simp only [Table.sortedFrom, Bool.and_eq_true, decide_eq_true_eq]
        exact ⟨hk, h.2⟩
      · simp only [Table.sortedFrom, Bool.and_eq_true, decide_eq_true_eq]
        exact ⟨h.1, ih h.2 (by omega)⟩

theorem Table.sortedFrom_filter (t : Table α) {lo : Nat} (p : Nat × α → Bool) (h : t.sortedFrom lo = true) :
    Table.sortedFrom lo (t.filter p) = true := by
  induction t generalizing lo with
  | nil => rfl
  | cons e r ih =>
    obtain ⟨a, w⟩ := e
    simp only [Table.sortedFrom, Bool.and_eq_true, decide_eq_true_eq] at h
    simp only [List.filter_cons]
    split
    · simp only [Table.sortedFrom, Bool.and_eq_true, decide_eq_true_eq]
      exact ⟨h.1, ih h.2⟩
    · exact ih (Table.sortedFrom_mono r h.2 (by omega))

theorem Table.sortedFrom_del (t : Table α) {lo : Nat} (k : Nat) (h : t.sortedFrom lo = true) :
    (t.del k).sortedFrom lo = true := by
  induction t generalizing lo with
  | nil => rfl
  | cons e r ih =>
    obtain ⟨a, w⟩ := e
    simp only [Table.sortedFrom, Bool.and_eq_true, decide_eq_true_eq] at h
    simp only [Table.del]
    split
    · exact Table.sortedFrom_mono _ (ih h.2) (by omega)
    · simp only [Table.sortedFrom, Bool.and_eq_true, decide_eq_true_eq]
      exact ⟨h.1, ih h.2⟩

theorem Table.mem_ins (t : Table α) (k : Nat) (v : α) {e : Nat × α} (h : e ∈ t.ins k v) : e = (k, v) ∨ e ∈ t := by
  induction t with
  | nil => simpa [Table.ins] using h
  | cons x r ih =>
    obtain ⟨a, w⟩ := x
    simp only [Table.ins] at h
    split at h
    · rcases List.mem_cons.1 h with h | h
      · exact Or.inl h
      · exact Or.inr h
    · split at h
      · rcases List.mem_cons.1 h with h | h
        · exact Or.inl h
        · exact Or.inr (List.mem_cons_of_mem _ h)
      · rcases List.mem_cons.1 h with h | h
        · exact Or.inr (by simp [h])
        · rcases ih h with h | h
          · exact Or.inl h
          · exact Or.inr (List.mem_cons_of_mem _ h)

theorem Table.mem_del (t : Table α) (k : Nat) {e : Nat × α} (h : e ∈ t.del k) : e ∈ t := by
  induction t with
  | nil => exact h
  | cons x r ih =>
    obtain ⟨a, w⟩ := x
    simp only [Table.del] at h
    split at h
    · exact List.mem_cons_of_mem _ (ih h)
    · rcases List.mem_cons.1 h with h | h
      · simp [h]
      · exact List.mem_cons_of_mem _ (ih h)

variable [DecidableEq α]

@[simp] theorem Table.wf_nil (d : α) : Table.wf d [] = true := rfl

/-- A write keeps the canonical form. -/
theorem Table.wf_set (d : α) (t : Table α) (k : Nat) (v : α) (h : t.wf d = true) : (t.set d k v).wf d = true := by
  simp only [Table.wf, Bool.and_eq_true, List.all_eq_true] at h ⊢
  unfold Table.set
  split
  · exact ⟨Table.sortedFrom_del t k h.1, fun e he => h.2 e (Table.mem_del t k he)⟩
  · rename_i hv
    refine ⟨Table.sortedFrom_ins t v h.1 (Nat.zero_le k), fun e he => ?_⟩
    rcases Table.mem_ins t k v he with rfl | he
    · simp [hv]
    · exact h.2 e he

theorem Table.wf_upd (d : α) (t : Table α) (k : Nat) (f : α → α) (h : t.wf d = true) : (t.upd d k f).wf d = true :=
  Table.wf_set d t k _ h

/-- Dropping entries keeps the canonical form. -/
theorem Table.wf_filter (d : α) (t : Table α) (p : Nat × α → Bool) (h : t.wf d = true) :
    Table.wf d (t.filter p) = true := by
  simp only [Table.wf, Bool.and_eq_true, List.all_eq_true] at h ⊢
  exact ⟨Table.sortedFrom_filter t p h.1, fun e he => h.2 e ((List.mem_filter.1 he).1)⟩

theorem Table.wf_keep (d : α) (t : Table α) (p : Nat → Bool) (h : t.wf d = true) : (t.keep p).wf d = true :=
  Table.wf_filter d t _ h

theorem Table.wf_setList (d : α) (t : Table α) (k : Nat) (vs : List α) (h : t.wf d = true) :
    (t.setList d k vs).wf d = true := by
  induction vs generalizing t k with
  | nil => exact h
  | cons v r ih => exact ih _ _ (Table.wf_set d t k v h)

/-- Writing a list of keys one by one keeps the canonical form. -/
theorem Table.wf_foldl_set {β : Type} (d : α) (l : List β) (key : β → Nat) (val : β → α) (t : Table α)
    (h : t.wf d = true) : Table.wf d (l.foldl (fun t e => t.set d (key e) (val e)) t) = true := by
  induction l generalizing t with
  | nil => exact h
  | cons e r ih => exact ih _ (Table.wf_set d t _ _ h)

/-- A consecutive write reads back at each key. -/
theorem Table.get_setList_ne (d : α) (t : Table α) (k j : Nat) (vs : List α) (h : j < k ∨ k + vs.length ≤ j) :
    (t.setList d k vs).get d j = t.get d j := by
  induction vs generalizing t k with
  | nil => rfl
  | cons v r ih =>
    simp only [List.length_cons] at h
    rw [Table.setList, ih _ _ (by omega), Table.get_set_ne d t v (by omega)]

end Sys2Proof.Machine
end

