-- ==== Sys2Proof/Laws/State.lean ====
section
/-! SUPPORT. One lemma for each field under each named update of State, true by unfolding, so that no later proof unfolds a
record update; and what the accessors read after the updates. -/
namespace Sys2Proof.Machine

variable (s : State)

/-! ### setFn -/

@[simp] theorem State.setFn_dev (f : Nat) (x : Fn) : (s.setFn f x).dev = s.dev := rfl
@[simp] theorem State.setFn_boot (f : Nat) (x : Fn) : (s.setFn f x).boot = s.boot := rfl
@[simp] theorem State.setFn_sec (f : Nat) (x : Fn) : (s.setFn f x).sec = s.sec := rfl
@[simp] theorem State.setFn_power (f : Nat) (x : Fn) : (s.setFn f x).power = s.power := rfl
@[simp] theorem State.setFn_mod (f : Nat) (x : Fn) : (s.setFn f x).mod = s.mod := rfl
@[simp] theorem State.setFn_ras (f : Nat) (x : Fn) : (s.setFn f x).ras = s.ras := rfl
@[simp] theorem State.setFn_own (f : Nat) (x : Fn) : (s.setFn f x).own = s.own := rfl
@[simp] theorem State.setFn_fab (f : Nat) (x : Fn) : (s.setFn f x).fab = s.fab := rfl
@[simp] theorem State.setFn_hbm (f : Nat) (x : Fn) : (s.setFn f x).hbm = s.hbm := rfl
@[simp] theorem State.setFn_seq (f : Nat) (x : Fn) : (s.setFn f x).seq = s.seq := rfl
@[simp] theorem State.setFn_sclk (f : Nat) (x : Fn) : (s.setFn f x).sclk = s.sclk := rfl
@[simp] theorem State.setFn_free (f : Nat) (x : Fn) : (s.setFn f x).free = s.free := rfl
@[simp] theorem State.setFn_out (f : Nat) (x : Fn) : (s.setFn f x).out = s.out := rfl
@[simp] theorem State.setFn_pending (f : Nat) (x : Fn) : (s.setFn f x).pending = s.pending := rfl
@[simp] theorem State.setFn_host_ports (f : Nat) (x : Fn) : (s.setFn f x).host.ports = s.host.ports := rfl
@[simp] theorem State.setFn_host_writes (f : Nat) (x : Fn) : (s.setFn f x).host.writes = s.host.writes := rfl
@[simp] theorem State.setFn_host_flights (f : Nat) (x : Fn) : (s.setFn f x).host.flights = s.host.flights := rfl
@[simp] theorem State.setFn_host_limits (f : Nat) (x : Fn) : (s.setFn f x).host.limits = s.host.limits := rfl
@[simp] theorem State.setFn_host_steward (f : Nat) (x : Fn) : (s.setFn f x).host.steward = s.host.steward := rfl
@[simp] theorem State.setFn_host_lockGen (f : Nat) (x : Fn) : (s.setFn f x).host.lockGen = s.host.lockGen := rfl
@[simp] theorem State.setFn_host_lockAband (f : Nat) (x : Fn) : (s.setFn f x).host.lockAband = s.host.lockAband := rfl
@[simp] theorem State.setFn_host_ghosts (f : Nat) (x : Fn) : (s.setFn f x).host.ghosts = s.host.ghosts := rfl
@[simp] theorem State.setFn_host_nextWrite (f : Nat) (x : Fn) : (s.setFn f x).host.nextWrite = s.host.nextWrite := rfl

/-! ### setPort -/

@[simp] theorem State.setPort_dev (n : Nat) (x : Port) : (s.setPort n x).dev = s.dev := rfl
@[simp] theorem State.setPort_boot (n : Nat) (x : Port) : (s.setPort n x).boot = s.boot := rfl
@[simp] theorem State.setPort_sec (n : Nat) (x : Port) : (s.setPort n x).sec = s.sec := rfl
@[simp] theorem State.setPort_power (n : Nat) (x : Port) : (s.setPort n x).power = s.power := rfl
@[simp] theorem State.setPort_mod (n : Nat) (x : Port) : (s.setPort n x).mod = s.mod := rfl
@[simp] theorem State.setPort_ras (n : Nat) (x : Port) : (s.setPort n x).ras = s.ras := rfl
@[simp] theorem State.setPort_own (n : Nat) (x : Port) : (s.setPort n x).own = s.own := rfl
@[simp] theorem State.setPort_fab (n : Nat) (x : Port) : (s.setPort n x).fab = s.fab := rfl
@[simp] theorem State.setPort_hbm (n : Nat) (x : Port) : (s.setPort n x).hbm = s.hbm := rfl
@[simp] theorem State.setPort_seq (n : Nat) (x : Port) : (s.setPort n x).seq = s.seq := rfl
@[simp] theorem State.setPort_sclk (n : Nat) (x : Port) : (s.setPort n x).sclk = s.sclk := rfl
@[simp] theorem State.setPort_free (n : Nat) (x : Port) : (s.setPort n x).free = s.free := rfl
@[simp] theorem State.setPort_out (n : Nat) (x : Port) : (s.setPort n x).out = s.out := rfl
@[simp] theorem State.setPort_pending (n : Nat) (x : Port) : (s.setPort n x).pending = s.pending := rfl
@[simp] theorem State.setPort_host_fns (n : Nat) (x : Port) : (s.setPort n x).host.fns = s.host.fns := rfl
@[simp] theorem State.setPort_host_writes (n : Nat) (x : Port) : (s.setPort n x).host.writes = s.host.writes := rfl
@[simp] theorem State.setPort_host_flights (n : Nat) (x : Port) : (s.setPort n x).host.flights = s.host.flights := rfl
@[simp] theorem State.setPort_host_limits (n : Nat) (x : Port) : (s.setPort n x).host.limits = s.host.limits := rfl
@[simp] theorem State.setPort_host_steward (n : Nat) (x : Port) : (s.setPort n x).host.steward = s.host.steward := rfl
@[simp] theorem State.setPort_host_lockGen (n : Nat) (x : Port) : (s.setPort n x).host.lockGen = s.host.lockGen := rfl
@[simp] theorem State.setPort_host_lockAband (n : Nat) (x : Port) : (s.setPort n x).host.lockAband = s.host.lockAband := rfl
@[simp] theorem State.setPort_host_ghosts (n : Nat) (x : Port) : (s.setPort n x).host.ghosts = s.host.ghosts := rfl
@[simp] theorem State.setPort_host_nextWrite (n : Nat) (x : Port) : (s.setPort n x).host.nextWrite = s.host.nextWrite := rfl

/-! ### setLease -/

@[simp] theorem State.setLease_dev (l : Nat) (x : Lease) : (s.setLease l x).dev = s.dev := rfl
@[simp] theorem State.setLease_boot (l : Nat) (x : Lease) : (s.setLease l x).boot = s.boot := rfl
@[simp] theorem State.setLease_sec (l : Nat) (x : Lease) : (s.setLease l x).sec = s.sec := rfl
@[simp] theorem State.setLease_power (l : Nat) (x : Lease) : (s.setLease l x).power = s.power := rfl
@[simp] theorem State.setLease_mod (l : Nat) (x : Lease) : (s.setLease l x).mod = s.mod := rfl
@[simp] theorem State.setLease_ras (l : Nat) (x : Lease) : (s.setLease l x).ras = s.ras := rfl
@[simp] theorem State.setLease_host (l : Nat) (x : Lease) : (s.setLease l x).host = s.host := rfl
@[simp] theorem State.setLease_fab (l : Nat) (x : Lease) : (s.setLease l x).fab = s.fab := rfl
@[simp] theorem State.setLease_hbm (l : Nat) (x : Lease) : (s.setLease l x).hbm = s.hbm := rfl
@[simp] theorem State.setLease_seq (l : Nat) (x : Lease) : (s.setLease l x).seq = s.seq := rfl
@[simp] theorem State.setLease_sclk (l : Nat) (x : Lease) : (s.setLease l x).sclk = s.sclk := rfl
@[simp] theorem State.setLease_free (l : Nat) (x : Lease) : (s.setLease l x).free = s.free := rfl
@[simp] theorem State.setLease_out (l : Nat) (x : Lease) : (s.setLease l x).out = s.out := rfl
@[simp] theorem State.setLease_pending (l : Nat) (x : Lease) : (s.setLease l x).pending = s.pending := rfl
@[simp] theorem State.setLease_own_regions (l : Nat) (x : Lease) : (s.setLease l x).own.regions = s.own.regions := rfl
@[simp] theorem State.setLease_own_cfg (l : Nat) (x : Lease) : (s.setLease l x).own.cfg = s.own.cfg := rfl

/-! ### setRegion -/

@[simp] theorem State.setRegion_dev (r : Nat) (x : Region) : (s.setRegion r x).dev = s.dev := rfl
@[simp] theorem State.setRegion_boot (r : Nat) (x : Region) : (s.setRegion r x).boot = s.boot := rfl
@[simp] theorem State.setRegion_sec (r : Nat) (x : Region) : (s.setRegion r x).sec = s.sec := rfl
@[simp] theorem State.setRegion_power (r : Nat) (x : Region) : (s.setRegion r x).power = s.power := rfl
@[simp] theorem State.setRegion_mod (r : Nat) (x : Region) : (s.setRegion r x).mod = s.mod := rfl
@[simp] theorem State.setRegion_ras (r : Nat) (x : Region) : (s.setRegion r x).ras = s.ras := rfl
@[simp] theorem State.setRegion_host (r : Nat) (x : Region) : (s.setRegion r x).host = s.host := rfl
@[simp] theorem State.setRegion_fab (r : Nat) (x : Region) : (s.setRegion r x).fab = s.fab := rfl
@[simp] theorem State.setRegion_hbm (r : Nat) (x : Region) : (s.setRegion r x).hbm = s.hbm := rfl
@[simp] theorem State.setRegion_seq (r : Nat) (x : Region) : (s.setRegion r x).seq = s.seq := rfl
@[simp] theorem State.setRegion_sclk (r : Nat) (x : Region) : (s.setRegion r x).sclk = s.sclk := rfl
@[simp] theorem State.setRegion_free (r : Nat) (x : Region) : (s.setRegion r x).free = s.free := rfl
@[simp] theorem State.setRegion_out (r : Nat) (x : Region) : (s.setRegion r x).out = s.out := rfl
@[simp] theorem State.setRegion_pending (r : Nat) (x : Region) : (s.setRegion r x).pending = s.pending := rfl
@[simp] theorem State.setRegion_own_leases (r : Nat) (x : Region) : (s.setRegion r x).own.leases = s.own.leases := rfl
@[simp] theorem State.setRegion_own_cfg (r : Nat) (x : Region) : (s.setRegion r x).own.cfg = s.own.cfg := rfl

/-! ### setEng -/

@[simp] theorem State.setEng_dev (e : Nat) (x : CfgEng) : (s.setEng e x).dev = s.dev := rfl
@[simp] theorem State.setEng_boot (e : Nat) (x : CfgEng) : (s.setEng e x).boot = s.boot := rfl
@[simp] theorem State.setEng_sec (e : Nat) (x : CfgEng) : (s.setEng e x).sec = s.sec := rfl
@[simp] theorem State.setEng_power (e : Nat) (x : CfgEng) : (s.setEng e x).power = s.power := rfl
@[simp] theorem State.setEng_mod (e : Nat) (x : CfgEng) : (s.setEng e x).mod = s.mod := rfl
@[simp] theorem State.setEng_ras (e : Nat) (x : CfgEng) : (s.setEng e x).ras = s.ras := rfl
@[simp] theorem State.setEng_host (e : Nat) (x : CfgEng) : (s.setEng e x).host = s.host := rfl
@[simp] theorem State.setEng_fab (e : Nat) (x : CfgEng) : (s.setEng e x).fab = s.fab := rfl
@[simp] theorem State.setEng_hbm (e : Nat) (x : CfgEng) : (s.setEng e x).hbm = s.hbm := rfl
@[simp] theorem State.setEng_seq (e : Nat) (x : CfgEng) : (s.setEng e x).seq = s.seq := rfl
@[simp] theorem State.setEng_sclk (e : Nat) (x : CfgEng) : (s.setEng e x).sclk = s.sclk := rfl
@[simp] theorem State.setEng_free (e : Nat) (x : CfgEng) : (s.setEng e x).free = s.free := rfl
@[simp] theorem State.setEng_out (e : Nat) (x : CfgEng) : (s.setEng e x).out = s.out := rfl
@[simp] theorem State.setEng_pending (e : Nat) (x : CfgEng) : (s.setEng e x).pending = s.pending := rfl
@[simp] theorem State.setEng_own_leases (e : Nat) (x : CfgEng) : (s.setEng e x).own.leases = s.own.leases := rfl
@[simp] theorem State.setEng_own_regions (e : Nat) (x : CfgEng) : (s.setEng e x).own.regions = s.own.regions := rfl

/-! ### setClk -/

@[simp] theorem State.setClk_dev (d : Nat) (x : DieClk) : (s.setClk d x).dev = s.dev := rfl
@[simp] theorem State.setClk_boot (d : Nat) (x : DieClk) : (s.setClk d x).boot = s.boot := rfl
@[simp] theorem State.setClk_sec (d : Nat) (x : DieClk) : (s.setClk d x).sec = s.sec := rfl
@[simp] theorem State.setClk_mod (d : Nat) (x : DieClk) : (s.setClk d x).mod = s.mod := rfl
@[simp] theorem State.setClk_ras (d : Nat) (x : DieClk) : (s.setClk d x).ras = s.ras := rfl
@[simp] theorem State.setClk_host (d : Nat) (x : DieClk) : (s.setClk d x).host = s.host := rfl
@[simp] theorem State.setClk_own (d : Nat) (x : DieClk) : (s.setClk d x).own = s.own := rfl
@[simp] theorem State.setClk_fab (d : Nat) (x : DieClk) : (s.setClk d x).fab = s.fab := rfl
@[simp] theorem State.setClk_hbm (d : Nat) (x : DieClk) : (s.setClk d x).hbm = s.hbm := rfl
@[simp] theorem State.setClk_seq (d : Nat) (x : DieClk) : (s.setClk d x).seq = s.seq := rfl
@[simp] theorem State.setClk_sclk (d : Nat) (x : DieClk) : (s.setClk d x).sclk = s.sclk := rfl
@[simp] theorem State.setClk_free (d : Nat) (x : DieClk) : (s.setClk d x).free = s.free := rfl
@[simp] theorem State.setClk_out (d : Nat) (x : DieClk) : (s.setClk d x).out = s.out := rfl
@[simp] theorem State.setClk_pending (d : Nat) (x : DieClk) : (s.setClk d x).pending = s.pending := rfl
@[simp] theorem State.setClk_power_power (d : Nat) (x : DieClk) : (s.setClk d x).power.power = s.power.power := rfl
@[simp] theorem State.setClk_power_scrub (d : Nat) (x : DieClk) : (s.setClk d x).power.scrub = s.power.scrub := rfl
@[simp] theorem State.setClk_power_active (d : Nat) (x : DieClk) : (s.setClk d x).power.active = s.power.active := rfl
@[simp] theorem State.setClk_power_triggers (d : Nat) (x : DieClk) : (s.setClk d x).power.triggers = s.power.triggers := rfl
@[simp] theorem State.setClk_power_cause (d : Nat) (x : DieClk) : (s.setClk d x).power.cause = s.power.cause := rfl
@[simp] theorem State.setClk_power_flitErrs (d : Nat) (x : DieClk) : (s.setClk d x).power.flitErrs = s.power.flitErrs := rfl

/-! ### setTile -/

@[simp] theorem State.setTile_dev (t : Nat) (x : Tile) : (s.setTile t x).dev = s.dev := rfl
@[simp] theorem State.setTile_boot (t : Nat) (x : Tile) : (s.setTile t x).boot = s.boot := rfl
@[simp] theorem State.setTile_sec (t : Nat) (x : Tile) : (s.setTile t x).sec = s.sec := rfl
@[simp] theorem State.setTile_power (t : Nat) (x : Tile) : (s.setTile t x).power = s.power := rfl
@[simp] theorem State.setTile_mod (t : Nat) (x : Tile) : (s.setTile t x).mod = s.mod := rfl
@[simp] theorem State.setTile_ras (t : Nat) (x : Tile) : (s.setTile t x).ras = s.ras := rfl
@[simp] theorem State.setTile_host (t : Nat) (x : Tile) : (s.setTile t x).host = s.host := rfl
@[simp] theorem State.setTile_own (t : Nat) (x : Tile) : (s.setTile t x).own = s.own := rfl
@[simp] theorem State.setTile_hbm (t : Nat) (x : Tile) : (s.setTile t x).hbm = s.hbm := rfl
@[simp] theorem State.setTile_seq (t : Nat) (x : Tile) : (s.setTile t x).seq = s.seq := rfl
@[simp] theorem State.setTile_sclk (t : Nat) (x : Tile) : (s.setTile t x).sclk = s.sclk := rfl
@[simp] theorem State.setTile_free (t : Nat) (x : Tile) : (s.setTile t x).free = s.free := rfl
@[simp] theorem State.setTile_out (t : Nat) (x : Tile) : (s.setTile t x).out = s.out := rfl
@[simp] theorem State.setTile_pending (t : Nat) (x : Tile) : (s.setTile t x).pending = s.pending := rfl
@[simp] theorem State.setTile_fab_mtiles (t : Nat) (x : Tile) : (s.setTile t x).fab.mtiles = s.fab.mtiles := rfl
@[simp] theorem State.setTile_fab_sram (t : Nat) (x : Tile) : (s.setTile t x).fab.sram = s.fab.sram := rfl
@[simp] theorem State.setTile_fab_sramPoison (t : Nat) (x : Tile) : (s.setTile t x).fab.sramPoison = s.fab.sramPoison := rfl
@[simp] theorem State.setTile_fab_sramFlags (t : Nat) (x : Tile) : (s.setTile t x).fab.sramFlags = s.fab.sramFlags := rfl
@[simp] theorem State.setTile_fab_icpFrames (t : Nat) (x : Tile) : (s.setTile t x).fab.icpFrames = s.fab.icpFrames := rfl
@[simp] theorem State.setTile_fab_frames (t : Nat) (x : Tile) : (s.setTile t x).fab.frames = s.fab.frames := rfl
@[simp] theorem State.setTile_fab_streams (t : Nat) (x : Tile) : (s.setTile t x).fab.streams = s.fab.streams := rfl
@[simp] theorem State.setTile_fab_net (t : Nat) (x : Tile) : (s.setTile t x).fab.net = s.fab.net := rfl
@[simp] theorem State.setTile_fab_tx (t : Nat) (x : Tile) : (s.setTile t x).fab.tx = s.fab.tx := rfl

/-! ### setMTile -/

@[simp] theorem State.setMTile_dev (t : Nat) (x : MTile) : (s.setMTile t x).dev = s.dev := rfl
@[simp] theorem State.setMTile_boot (t : Nat) (x : MTile) : (s.setMTile t x).boot = s.boot := rfl
@[simp] theorem State.setMTile_sec (t : Nat) (x : MTile) : (s.setMTile t x).sec = s.sec := rfl
@[simp] theorem State.setMTile_power (t : Nat) (x : MTile) : (s.setMTile t x).power = s.power := rfl
@[simp] theorem State.setMTile_mod (t : Nat) (x : MTile) : (s.setMTile t x).mod = s.mod := rfl
@[simp] theorem State.setMTile_ras (t : Nat) (x : MTile) : (s.setMTile t x).ras = s.ras := rfl
@[simp] theorem State.setMTile_host (t : Nat) (x : MTile) : (s.setMTile t x).host = s.host := rfl
@[simp] theorem State.setMTile_own (t : Nat) (x : MTile) : (s.setMTile t x).own = s.own := rfl
@[simp] theorem State.setMTile_hbm (t : Nat) (x : MTile) : (s.setMTile t x).hbm = s.hbm := rfl
@[simp] theorem State.setMTile_seq (t : Nat) (x : MTile) : (s.setMTile t x).seq = s.seq := rfl
@[simp] theorem State.setMTile_sclk (t : Nat) (x : MTile) : (s.setMTile t x).sclk = s.sclk := rfl
@[simp] theorem State.setMTile_free (t : Nat) (x : MTile) : (s.setMTile t x).free = s.free := rfl
@[simp] theorem State.setMTile_out (t : Nat) (x : MTile) : (s.setMTile t x).out = s.out := rfl
@[simp] theorem State.setMTile_pending (t : Nat) (x : MTile) : (s.setMTile t x).pending = s.pending := rfl
@[simp] theorem State.setMTile_fab_tiles (t : Nat) (x : MTile) : (s.setMTile t x).fab.tiles = s.fab.tiles := rfl
@[simp] theorem State.setMTile_fab_sram (t : Nat) (x : MTile) : (s.setMTile t x).fab.sram = s.fab.sram := rfl
@[simp] theorem State.setMTile_fab_sramPoison (t : Nat) (x : MTile) : (s.setMTile t x).fab.sramPoison = s.fab.sramPoison := rfl
@[simp] theorem State.setMTile_fab_sramFlags (t : Nat) (x : MTile) : (s.setMTile t x).fab.sramFlags = s.fab.sramFlags := rfl
@[simp] theorem State.setMTile_fab_icpFrames (t : Nat) (x : MTile) : (s.setMTile t x).fab.icpFrames = s.fab.icpFrames := rfl
@[simp] theorem State.setMTile_fab_frames (t : Nat) (x : MTile) : (s.setMTile t x).fab.frames = s.fab.frames := rfl
@[simp] theorem State.setMTile_fab_streams (t : Nat) (x : MTile) : (s.setMTile t x).fab.streams = s.fab.streams := rfl
@[simp] theorem State.setMTile_fab_net (t : Nat) (x : MTile) : (s.setMTile t x).fab.net = s.fab.net := rfl
@[simp] theorem State.setMTile_fab_tx (t : Nat) (x : MTile) : (s.setMTile t x).fab.tx = s.fab.tx := rfl

/-! ### setStream -/

@[simp] theorem State.setStream_dev (i : Nat) (x : Option Stream) : (s.setStream i x).dev = s.dev := rfl
@[simp] theorem State.setStream_boot (i : Nat) (x : Option Stream) : (s.setStream i x).boot = s.boot := rfl
@[simp] theorem State.setStream_sec (i : Nat) (x : Option Stream) : (s.setStream i x).sec = s.sec := rfl
@[simp] theorem State.setStream_power (i : Nat) (x : Option Stream) : (s.setStream i x).power = s.power := rfl
@[simp] theorem State.setStream_mod (i : Nat) (x : Option Stream) : (s.setStream i x).mod = s.mod := rfl
@[simp] theorem State.setStream_ras (i : Nat) (x : Option Stream) : (s.setStream i x).ras = s.ras := rfl
@[simp] theorem State.setStream_host (i : Nat) (x : Option Stream) : (s.setStream i x).host = s.host := rfl
@[simp] theorem State.setStream_own (i : Nat) (x : Option Stream) : (s.setStream i x).own = s.own := rfl
@[simp] theorem State.setStream_hbm (i : Nat) (x : Option Stream) : (s.setStream i x).hbm = s.hbm := rfl
@[simp] theorem State.setStream_seq (i : Nat) (x : Option Stream) : (s.setStream i x).seq = s.seq := rfl
@[simp] theorem State.setStream_sclk (i : Nat) (x : Option Stream) : (s.setStream i x).sclk = s.sclk := rfl
@[simp] theorem State.setStream_free (i : Nat) (x : Option Stream) : (s.setStream i x).free = s.free := rfl
@[simp] theorem State.setStream_out (i : Nat) (x : Option Stream) : (s.setStream i x).out = s.out := rfl
@[simp] theorem State.setStream_pending (i : Nat) (x : Option Stream) : (s.setStream i x).pending = s.pending := rfl
@[simp] theorem State.setStream_fab_tiles (i : Nat) (x : Option Stream) : (s.setStream i x).fab.tiles = s.fab.tiles := rfl
@[simp] theorem State.setStream_fab_mtiles (i : Nat) (x : Option Stream) : (s.setStream i x).fab.mtiles = s.fab.mtiles := rfl
@[simp] theorem State.setStream_fab_sram (i : Nat) (x : Option Stream) : (s.setStream i x).fab.sram = s.fab.sram := rfl
@[simp] theorem State.setStream_fab_sramPoison (i : Nat) (x : Option Stream) : (s.setStream i x).fab.sramPoison = s.fab.sramPoison := rfl
@[simp] theorem State.setStream_fab_sramFlags (i : Nat) (x : Option Stream) : (s.setStream i x).fab.sramFlags = s.fab.sramFlags := rfl
@[simp] theorem State.setStream_fab_icpFrames (i : Nat) (x : Option Stream) : (s.setStream i x).fab.icpFrames = s.fab.icpFrames := rfl
@[simp] theorem State.setStream_fab_frames (i : Nat) (x : Option Stream) : (s.setStream i x).fab.frames = s.fab.frames := rfl
@[simp] theorem State.setStream_fab_net (i : Nat) (x : Option Stream) : (s.setStream i x).fab.net = s.fab.net := rfl
@[simp] theorem State.setStream_fab_tx (i : Nat) (x : Option Stream) : (s.setStream i x).fab.tx = s.fab.tx := rfl

/-! ### setProg -/

@[simp] theorem State.setProg_dev (h : Nat) (x : Option Prog) : (s.setProg h x).dev = s.dev := rfl
@[simp] theorem State.setProg_boot (h : Nat) (x : Option Prog) : (s.setProg h x).boot = s.boot := rfl
@[simp] theorem State.setProg_sec (h : Nat) (x : Option Prog) : (s.setProg h x).sec = s.sec := rfl
@[simp] theorem State.setProg_power (h : Nat) (x : Option Prog) : (s.setProg h x).power = s.power := rfl
@[simp] theorem State.setProg_mod (h : Nat) (x : Option Prog) : (s.setProg h x).mod = s.mod := rfl
@[simp] theorem State.setProg_ras (h : Nat) (x : Option Prog) : (s.setProg h x).ras = s.ras := rfl
@[simp] theorem State.setProg_host (h : Nat) (x : Option Prog) : (s.setProg h x).host = s.host := rfl
@[simp] theorem State.setProg_own (h : Nat) (x : Option Prog) : (s.setProg h x).own = s.own := rfl
@[simp] theorem State.setProg_fab (h : Nat) (x : Option Prog) : (s.setProg h x).fab = s.fab := rfl
@[simp] theorem State.setProg_hbm (h : Nat) (x : Option Prog) : (s.setProg h x).hbm = s.hbm := rfl
@[simp] theorem State.setProg_sclk (h : Nat) (x : Option Prog) : (s.setProg h x).sclk = s.sclk := rfl
@[simp] theorem State.setProg_free (h : Nat) (x : Option Prog) : (s.setProg h x).free = s.free := rfl
@[simp] theorem State.setProg_out (h : Nat) (x : Option Prog) : (s.setProg h x).out = s.out := rfl
@[simp] theorem State.setProg_pending (h : Nat) (x : Option Prog) : (s.setProg h x).pending = s.pending := rfl
@[simp] theorem State.setProg_seq_contexts (h : Nat) (x : Option Prog) : (s.setProg h x).seq.contexts = s.seq.contexts := rfl
@[simp] theorem State.setProg_seq_sections (h : Nat) (x : Option Prog) : (s.setProg h x).seq.sections = s.seq.sections := rfl
@[simp] theorem State.setProg_seq_nextSec (h : Nat) (x : Option Prog) : (s.setProg h x).seq.nextSec = s.seq.nextSec := rfl
@[simp] theorem State.setProg_seq_runQueue (h : Nat) (x : Option Prog) : (s.setProg h x).seq.runQueue = s.seq.runQueue := rfl
@[simp] theorem State.setProg_seq_chans (h : Nat) (x : Option Prog) : (s.setProg h x).seq.chans = s.seq.chans := rfl

/-! ### setSec -/

@[simp] theorem State.setSec_dev (i : Nat) (x : Option Section) : (s.setSec i x).dev = s.dev := rfl
@[simp] theorem State.setSec_boot (i : Nat) (x : Option Section) : (s.setSec i x).boot = s.boot := rfl
@[simp] theorem State.setSec_sec (i : Nat) (x : Option Section) : (s.setSec i x).sec = s.sec := rfl
@[simp] theorem State.setSec_power (i : Nat) (x : Option Section) : (s.setSec i x).power = s.power := rfl
@[simp] theorem State.setSec_mod (i : Nat) (x : Option Section) : (s.setSec i x).mod = s.mod := rfl
@[simp] theorem State.setSec_ras (i : Nat) (x : Option Section) : (s.setSec i x).ras = s.ras := rfl
@[simp] theorem State.setSec_host (i : Nat) (x : Option Section) : (s.setSec i x).host = s.host := rfl
@[simp] theorem State.setSec_own (i : Nat) (x : Option Section) : (s.setSec i x).own = s.own := rfl
@[simp] theorem State.setSec_fab (i : Nat) (x : Option Section) : (s.setSec i x).fab = s.fab := rfl
@[simp] theorem State.setSec_hbm (i : Nat) (x : Option Section) : (s.setSec i x).hbm = s.hbm := rfl
@[simp] theorem State.setSec_sclk (i : Nat) (x : Option Section) : (s.setSec i x).sclk = s.sclk := rfl
@[simp] theorem State.setSec_free (i : Nat) (x : Option Section) : (s.setSec i x).free = s.free := rfl
@[simp] theorem State.setSec_out (i : Nat) (x : Option Section) : (s.setSec i x).out = s.out := rfl
@[simp] theorem State.setSec_pending (i : Nat) (x : Option Section) : (s.setSec i x).pending = s.pending := rfl
@[simp] theorem State.setSec_seq_progs (i : Nat) (x : Option Section) : (s.setSec i x).seq.progs = s.seq.progs := rfl
@[simp] theorem State.setSec_seq_contexts (i : Nat) (x : Option Section) : (s.setSec i x).seq.contexts = s.seq.contexts := rfl
@[simp] theorem State.setSec_seq_nextSec (i : Nat) (x : Option Section) : (s.setSec i x).seq.nextSec = s.seq.nextSec := rfl
@[simp] theorem State.setSec_seq_runQueue (i : Nat) (x : Option Section) : (s.setSec i x).seq.runQueue = s.seq.runQueue := rfl
@[simp] theorem State.setSec_seq_chans (i : Nat) (x : Option Section) : (s.setSec i x).seq.chans = s.seq.chans := rfl

/-! ### setChan -/

@[simp] theorem State.setChan_dev (c : Nat) (x : Chan) : (s.setChan c x).dev = s.dev := rfl
@[simp] theorem State.setChan_boot (c : Nat) (x : Chan) : (s.setChan c x).boot = s.boot := rfl
@[simp] theorem State.setChan_sec (c : Nat) (x : Chan) : (s.setChan c x).sec = s.sec := rfl
@[simp] theorem State.setChan_power (c : Nat) (x : Chan) : (s.setChan c x).power = s.power := rfl
@[simp] theorem State.setChan_mod (c : Nat) (x : Chan) : (s.setChan c x).mod = s.mod := rfl
@[simp] theorem State.setChan_ras (c : Nat) (x : Chan) : (s.setChan c x).ras = s.ras := rfl
@[simp] theorem State.setChan_host (c : Nat) (x : Chan) : (s.setChan c x).host = s.host := rfl
@[simp] theorem State.setChan_own (c : Nat) (x : Chan) : (s.setChan c x).own = s.own := rfl
@[simp] theorem State.setChan_fab (c : Nat) (x : Chan) : (s.setChan c x).fab = s.fab := rfl
@[simp] theorem State.setChan_hbm (c : Nat) (x : Chan) : (s.setChan c x).hbm = s.hbm := rfl
@[simp] theorem State.setChan_sclk (c : Nat) (x : Chan) : (s.setChan c x).sclk = s.sclk := rfl
@[simp] theorem State.setChan_free (c : Nat) (x : Chan) : (s.setChan c x).free = s.free := rfl
@[simp] theorem State.setChan_out (c : Nat) (x : Chan) : (s.setChan c x).out = s.out := rfl
@[simp] theorem State.setChan_pending (c : Nat) (x : Chan) : (s.setChan c x).pending = s.pending := rfl
@[simp] theorem State.setChan_seq_progs (c : Nat) (x : Chan) : (s.setChan c x).seq.progs = s.seq.progs := rfl
@[simp] theorem State.setChan_seq_contexts (c : Nat) (x : Chan) : (s.setChan c x).seq.contexts = s.seq.contexts := rfl
@[simp] theorem State.setChan_seq_sections (c : Nat) (x : Chan) : (s.setChan c x).seq.sections = s.seq.sections := rfl
@[simp] theorem State.setChan_seq_nextSec (c : Nat) (x : Chan) : (s.setChan c x).seq.nextSec = s.seq.nextSec := rfl
@[simp] theorem State.setChan_seq_runQueue (c : Nat) (x : Chan) : (s.setChan c x).seq.runQueue = s.seq.runQueue := rfl

/-! ### setHbmMem -/

@[simp] theorem State.setHbmMem_dev (m : Table Byte) : (s.setHbmMem m).dev = s.dev := rfl
@[simp] theorem State.setHbmMem_boot (m : Table Byte) : (s.setHbmMem m).boot = s.boot := rfl
@[simp] theorem State.setHbmMem_sec (m : Table Byte) : (s.setHbmMem m).sec = s.sec := rfl
@[simp] theorem State.setHbmMem_power (m : Table Byte) : (s.setHbmMem m).power = s.power := rfl
@[simp] theorem State.setHbmMem_mod (m : Table Byte) : (s.setHbmMem m).mod = s.mod := rfl
@[simp] theorem State.setHbmMem_ras (m : Table Byte) : (s.setHbmMem m).ras = s.ras := rfl
@[simp] theorem State.setHbmMem_host (m : Table Byte) : (s.setHbmMem m).host = s.host := rfl
@[simp] theorem State.setHbmMem_own (m : Table Byte) : (s.setHbmMem m).own = s.own := rfl
@[simp] theorem State.setHbmMem_fab (m : Table Byte) : (s.setHbmMem m).fab = s.fab := rfl
@[simp] theorem State.setHbmMem_seq (m : Table Byte) : (s.setHbmMem m).seq = s.seq := rfl
@[simp] theorem State.setHbmMem_sclk (m : Table Byte) : (s.setHbmMem m).sclk = s.sclk := rfl
@[simp] theorem State.setHbmMem_free (m : Table Byte) : (s.setHbmMem m).free = s.free := rfl
@[simp] theorem State.setHbmMem_out (m : Table Byte) : (s.setHbmMem m).out = s.out := rfl
@[simp] theorem State.setHbmMem_pending (m : Table Byte) : (s.setHbmMem m).pending = s.pending := rfl
@[simp] theorem State.setHbmMem_hbm_poison (m : Table Byte) : (s.setHbmMem m).hbm.poison = s.hbm.poison := rfl
@[simp] theorem State.setHbmMem_hbm_reqs (m : Table Byte) : (s.setHbmMem m).hbm.reqs = s.hbm.reqs := rfl
@[simp] theorem State.setHbmMem_hbm_flags (m : Table Byte) : (s.setHbmMem m).hbm.flags = s.hbm.flags := rfl
@[simp] theorem State.setHbmMem_hbm_arb (m : Table Byte) : (s.setHbmMem m).hbm.arb = s.hbm.arb := rfl
@[simp] theorem State.setHbmMem_hbm_mem (m : Table Byte) : (s.setHbmMem m).hbm.mem = m := rfl

/-! ### setHbmPoison -/

@[simp] theorem State.setHbmPoison_dev (m : Table Bool) : (s.setHbmPoison m).dev = s.dev := rfl
@[simp] theorem State.setHbmPoison_boot (m : Table Bool) : (s.setHbmPoison m).boot = s.boot := rfl
@[simp] theorem State.setHbmPoison_sec (m : Table Bool) : (s.setHbmPoison m).sec = s.sec := rfl
@[simp] theorem State.setHbmPoison_power (m : Table Bool) : (s.setHbmPoison m).power = s.power := rfl
@[simp] theorem State.setHbmPoison_mod (m : Table Bool) : (s.setHbmPoison m).mod = s.mod := rfl
@[simp] theorem State.setHbmPoison_ras (m : Table Bool) : (s.setHbmPoison m).ras = s.ras := rfl
@[simp] theorem State.setHbmPoison_host (m : Table Bool) : (s.setHbmPoison m).host = s.host := rfl
@[simp] theorem State.setHbmPoison_own (m : Table Bool) : (s.setHbmPoison m).own = s.own := rfl
@[simp] theorem State.setHbmPoison_fab (m : Table Bool) : (s.setHbmPoison m).fab = s.fab := rfl
@[simp] theorem State.setHbmPoison_seq (m : Table Bool) : (s.setHbmPoison m).seq = s.seq := rfl
@[simp] theorem State.setHbmPoison_sclk (m : Table Bool) : (s.setHbmPoison m).sclk = s.sclk := rfl
@[simp] theorem State.setHbmPoison_free (m : Table Bool) : (s.setHbmPoison m).free = s.free := rfl
@[simp] theorem State.setHbmPoison_out (m : Table Bool) : (s.setHbmPoison m).out = s.out := rfl
@[simp] theorem State.setHbmPoison_pending (m : Table Bool) : (s.setHbmPoison m).pending = s.pending := rfl
@[simp] theorem State.setHbmPoison_hbm_mem (m : Table Bool) : (s.setHbmPoison m).hbm.mem = s.hbm.mem := rfl
@[simp] theorem State.setHbmPoison_hbm_reqs (m : Table Bool) : (s.setHbmPoison m).hbm.reqs = s.hbm.reqs := rfl
@[simp] theorem State.setHbmPoison_hbm_flags (m : Table Bool) : (s.setHbmPoison m).hbm.flags = s.hbm.flags := rfl
@[simp] theorem State.setHbmPoison_hbm_arb (m : Table Bool) : (s.setHbmPoison m).hbm.arb = s.hbm.arb := rfl
@[simp] theorem State.setHbmPoison_hbm_poison (m : Table Bool) : (s.setHbmPoison m).hbm.poison = m := rfl

/-! ### setSram -/

@[simp] theorem State.setSram_dev (m : Table Byte) : (s.setSram m).dev = s.dev := rfl
@[simp] theorem State.setSram_boot (m : Table Byte) : (s.setSram m).boot = s.boot := rfl
@[simp] theorem State.setSram_sec (m : Table Byte) : (s.setSram m).sec = s.sec := rfl
@[simp] theorem State.setSram_power (m : Table Byte) : (s.setSram m).power = s.power := rfl
@[simp] theorem State.setSram_mod (m : Table Byte) : (s.setSram m).mod = s.mod := rfl
@[simp] theorem State.setSram_ras (m : Table Byte) : (s.setSram m).ras = s.ras := rfl
@[simp] theorem State.setSram_host (m : Table Byte) : (s.setSram m).host = s.host := rfl
@[simp] theorem State.setSram_own (m : Table Byte) : (s.setSram m).own = s.own := rfl
@[simp] theorem State.setSram_hbm (m : Table Byte) : (s.setSram m).hbm = s.hbm := rfl
@[simp] theorem State.setSram_seq (m : Table Byte) : (s.setSram m).seq = s.seq := rfl
@[simp] theorem State.setSram_sclk (m : Table Byte) : (s.setSram m).sclk = s.sclk := rfl
@[simp] theorem State.setSram_free (m : Table Byte) : (s.setSram m).free = s.free := rfl
@[simp] theorem State.setSram_out (m : Table Byte) : (s.setSram m).out = s.out := rfl
@[simp] theorem State.setSram_pending (m : Table Byte) : (s.setSram m).pending = s.pending := rfl
@[simp] theorem State.setSram_fab_tiles (m : Table Byte) : (s.setSram m).fab.tiles = s.fab.tiles := rfl
@[simp] theorem State.setSram_fab_mtiles (m : Table Byte) : (s.setSram m).fab.mtiles = s.fab.mtiles := rfl
@[simp] theorem State.setSram_fab_sramPoison (m : Table Byte) : (s.setSram m).fab.sramPoison = s.fab.sramPoison := rfl
@[simp] theorem State.setSram_fab_sramFlags (m : Table Byte) : (s.setSram m).fab.sramFlags = s.fab.sramFlags := rfl
@[simp] theorem State.setSram_fab_icpFrames (m : Table Byte) : (s.setSram m).fab.icpFrames = s.fab.icpFrames := rfl
@[simp] theorem State.setSram_fab_frames (m : Table Byte) : (s.setSram m).fab.frames = s.fab.frames := rfl
@[simp] theorem State.setSram_fab_streams (m : Table Byte) : (s.setSram m).fab.streams = s.fab.streams := rfl
@[simp] theorem State.setSram_fab_net (m : Table Byte) : (s.setSram m).fab.net = s.fab.net := rfl
@[simp] theorem State.setSram_fab_tx (m : Table Byte) : (s.setSram m).fab.tx = s.fab.tx := rfl
@[simp] theorem State.setSram_fab_sram (m : Table Byte) : (s.setSram m).fab.sram = m := rfl

/-! ### setSramPoison -/

@[simp] theorem State.setSramPoison_dev (m : Table Bool) : (s.setSramPoison m).dev = s.dev := rfl
@[simp] theorem State.setSramPoison_boot (m : Table Bool) : (s.setSramPoison m).boot = s.boot := rfl
@[simp] theorem State.setSramPoison_sec (m : Table Bool) : (s.setSramPoison m).sec = s.sec := rfl
@[simp] theorem State.setSramPoison_power (m : Table Bool) : (s.setSramPoison m).power = s.power := rfl
@[simp] theorem State.setSramPoison_mod (m : Table Bool) : (s.setSramPoison m).mod = s.mod := rfl
@[simp] theorem State.setSramPoison_ras (m : Table Bool) : (s.setSramPoison m).ras = s.ras := rfl
@[simp] theorem State.setSramPoison_host (m : Table Bool) : (s.setSramPoison m).host = s.host := rfl
@[simp] theorem State.setSramPoison_own (m : Table Bool) : (s.setSramPoison m).own = s.own := rfl
@[simp] theorem State.setSramPoison_hbm (m : Table Bool) : (s.setSramPoison m).hbm = s.hbm := rfl
@[simp] theorem State.setSramPoison_seq (m : Table Bool) : (s.setSramPoison m).seq = s.seq := rfl
@[simp] theorem State.setSramPoison_sclk (m : Table Bool) : (s.setSramPoison m).sclk = s.sclk := rfl
@[simp] theorem State.setSramPoison_free (m : Table Bool) : (s.setSramPoison m).free = s.free := rfl
@[simp] theorem State.setSramPoison_out (m : Table Bool) : (s.setSramPoison m).out = s.out := rfl
@[simp] theorem State.setSramPoison_pending (m : Table Bool) : (s.setSramPoison m).pending = s.pending := rfl
@[simp] theorem State.setSramPoison_fab_tiles (m : Table Bool) : (s.setSramPoison m).fab.tiles = s.fab.tiles := rfl
@[simp] theorem State.setSramPoison_fab_mtiles (m : Table Bool) : (s.setSramPoison m).fab.mtiles = s.fab.mtiles := rfl
@[simp] theorem State.setSramPoison_fab_sram (m : Table Bool) : (s.setSramPoison m).fab.sram = s.fab.sram := rfl
@[simp] theorem State.setSramPoison_fab_sramFlags (m : Table Bool) : (s.setSramPoison m).fab.sramFlags = s.fab.sramFlags := rfl
@[simp] theorem State.setSramPoison_fab_icpFrames (m : Table Bool) : (s.setSramPoison m).fab.icpFrames = s.fab.icpFrames := rfl
@[simp] theorem State.setSramPoison_fab_frames (m : Table Bool) : (s.setSramPoison m).fab.frames = s.fab.frames := rfl
@[simp] theorem State.setSramPoison_fab_streams (m : Table Bool) : (s.setSramPoison m).fab.streams = s.fab.streams := rfl
@[simp] theorem State.setSramPoison_fab_net (m : Table Bool) : (s.setSramPoison m).fab.net = s.fab.net := rfl
@[simp] theorem State.setSramPoison_fab_tx (m : Table Bool) : (s.setSramPoison m).fab.tx = s.fab.tx := rfl
@[simp] theorem State.setSramPoison_fab_sramPoison (m : Table Bool) : (s.setSramPoison m).fab.sramPoison = m := rfl

/-! ### setFrames -/

@[simp] theorem State.setFrames_dev (m : Table Frame) : (s.setFrames m).dev = s.dev := rfl
@[simp] theorem State.setFrames_boot (m : Table Frame) : (s.setFrames m).boot = s.boot := rfl
@[simp] theorem State.setFrames_sec (m : Table Frame) : (s.setFrames m).sec = s.sec := rfl
@[simp] theorem State.setFrames_power (m : Table Frame) : (s.setFrames m).power = s.power := rfl
@[simp] theorem State.setFrames_mod (m : Table Frame) : (s.setFrames m).mod = s.mod := rfl
@[simp] theorem State.setFrames_ras (m : Table Frame) : (s.setFrames m).ras = s.ras := rfl
@[simp] theorem State.setFrames_host (m : Table Frame) : (s.setFrames m).host = s.host := rfl
@[simp] theorem State.setFrames_own (m : Table Frame) : (s.setFrames m).own = s.own := rfl
@[simp] theorem State.setFrames_hbm (m : Table Frame) : (s.setFrames m).hbm = s.hbm := rfl
@[simp] theorem State.setFrames_seq (m : Table Frame) : (s.setFrames m).seq = s.seq := rfl
@[simp] theorem State.setFrames_sclk (m : Table Frame) : (s.setFrames m).sclk = s.sclk := rfl
@[simp] theorem State.setFrames_free (m : Table Frame) : (s.setFrames m).free = s.free := rfl
@[simp] theorem State.setFrames_out (m : Table Frame) : (s.setFrames m).out = s.out := rfl
@[simp] theorem State.setFrames_pending (m : Table Frame) : (s.setFrames m).pending = s.pending := rfl
@[simp] theorem State.setFrames_fab_tiles (m : Table Frame) : (s.setFrames m).fab.tiles = s.fab.tiles := rfl
@[simp] theorem State.setFrames_fab_mtiles (m : Table Frame) : (s.setFrames m).fab.mtiles = s.fab.mtiles := rfl
@[simp] theorem State.setFrames_fab_sram (m : Table Frame) : (s.setFrames m).fab.sram = s.fab.sram := rfl
@[simp] theorem State.setFrames_fab_sramPoison (m : Table Frame) : (s.setFrames m).fab.sramPoison = s.fab.sramPoison := rfl
@[simp] theorem State.setFrames_fab_sramFlags (m : Table Frame) : (s.setFrames m).fab.sramFlags = s.fab.sramFlags := rfl
@[simp] theorem State.setFrames_fab_icpFrames (m : Table Frame) : (s.setFrames m).fab.icpFrames = s.fab.icpFrames := rfl
@[simp] theorem State.setFrames_fab_streams (m : Table Frame) : (s.setFrames m).fab.streams = s.fab.streams := rfl
@[simp] theorem State.setFrames_fab_net (m : Table Frame) : (s.setFrames m).fab.net = s.fab.net := rfl
@[simp] theorem State.setFrames_fab_tx (m : Table Frame) : (s.setFrames m).fab.tx = s.fab.tx := rfl
@[simp] theorem State.setFrames_fab_frames (m : Table Frame) : (s.setFrames m).fab.frames = m := rfl

/-! ### emit -/

@[simp] theorem State.emit_dev (o : Out) : (s.emit o).dev = s.dev := rfl
@[simp] theorem State.emit_boot (o : Out) : (s.emit o).boot = s.boot := rfl
@[simp] theorem State.emit_sec (o : Out) : (s.emit o).sec = s.sec := rfl
@[simp] theorem State.emit_power (o : Out) : (s.emit o).power = s.power := rfl
@[simp] theorem State.emit_mod (o : Out) : (s.emit o).mod = s.mod := rfl
@[simp] theorem State.emit_ras (o : Out) : (s.emit o).ras = s.ras := rfl
@[simp] theorem State.emit_host (o : Out) : (s.emit o).host = s.host := rfl
@[simp] theorem State.emit_own (o : Out) : (s.emit o).own = s.own := rfl
@[simp] theorem State.emit_fab (o : Out) : (s.emit o).fab = s.fab := rfl
@[simp] theorem State.emit_hbm (o : Out) : (s.emit o).hbm = s.hbm := rfl
@[simp] theorem State.emit_seq (o : Out) : (s.emit o).seq = s.seq := rfl
@[simp] theorem State.emit_sclk (o : Out) : (s.emit o).sclk = s.sclk := rfl
@[simp] theorem State.emit_free (o : Out) : (s.emit o).free = s.free := rfl
@[simp] theorem State.emit_pending (o : Out) : (s.emit o).pending = s.pending := rfl
@[simp] theorem State.emit_out (o : Out) : (s.emit o).out = s.out ++ [o] := rfl

/-! ### drew -/

@[simp] theorem State.drew_dev  : (s.drew).dev = s.dev := rfl
@[simp] theorem State.drew_boot  : (s.drew).boot = s.boot := rfl
@[simp] theorem State.drew_sec  : (s.drew).sec = s.sec := rfl
@[simp] theorem State.drew_power  : (s.drew).power = s.power := rfl
@[simp] theorem State.drew_mod  : (s.drew).mod = s.mod := rfl
@[simp] theorem State.drew_ras  : (s.drew).ras = s.ras := rfl
@[simp] theorem State.drew_host  : (s.drew).host = s.host := rfl
@[simp] theorem State.drew_own  : (s.drew).own = s.own := rfl
@[simp] theorem State.drew_fab  : (s.drew).fab = s.fab := rfl
@[simp] theorem State.drew_hbm  : (s.drew).hbm = s.hbm := rfl
@[simp] theorem State.drew_seq  : (s.drew).seq = s.seq := rfl
@[simp] theorem State.drew_sclk  : (s.drew).sclk = s.sclk := rfl
@[simp] theorem State.drew_out  : (s.drew).out = s.out := rfl
@[simp] theorem State.drew_pending  : (s.drew).pending = s.pending := rfl
@[simp] theorem State.drew_free : s.drew.free = s.free + 1 := rfl

/-! ### updFn -/

@[simp] theorem State.updFn_dev (f : Nat) (g : Fn → Fn) : (s.updFn f g).dev = s.dev := rfl
@[simp] theorem State.updFn_boot (f : Nat) (g : Fn → Fn) : (s.updFn f g).boot = s.boot := rfl
@[simp] theorem State.updFn_sec (f : Nat) (g : Fn → Fn) : (s.updFn f g).sec = s.sec := rfl
@[simp] theorem State.updFn_power (f : Nat) (g : Fn → Fn) : (s.updFn f g).power = s.power := rfl
@[simp] theorem State.updFn_mod (f : Nat) (g : Fn → Fn) : (s.updFn f g).mod = s.mod := rfl
@[simp] theorem State.updFn_ras (f : Nat) (g : Fn → Fn) : (s.updFn f g).ras = s.ras := rfl
@[simp] theorem State.updFn_own (f : Nat) (g : Fn → Fn) : (s.updFn f g).own = s.own := rfl
@[simp] theorem State.updFn_fab (f : Nat) (g : Fn → Fn) : (s.updFn f g).fab = s.fab := rfl
@[simp] theorem State.updFn_hbm (f : Nat) (g : Fn → Fn) : (s.updFn f g).hbm = s.hbm := rfl
@[simp] theorem State.updFn_seq (f : Nat) (g : Fn → Fn) : (s.updFn f g).seq = s.seq := rfl
@[simp] theorem State.updFn_sclk (f : Nat) (g : Fn → Fn) : (s.updFn f g).sclk = s.sclk := rfl
@[simp] theorem State.updFn_free (f : Nat) (g : Fn → Fn) : (s.updFn f g).free = s.free := rfl
@[simp] theorem State.updFn_out (f : Nat) (g : Fn → Fn) : (s.updFn f g).out = s.out := rfl
@[simp] theorem State.updFn_pending (f : Nat) (g : Fn → Fn) : (s.updFn f g).pending = s.pending := rfl
@[simp] theorem State.updFn_host_ports (f : Nat) (g : Fn → Fn) : (s.updFn f g).host.ports = s.host.ports := rfl
@[simp] theorem State.updFn_host_writes (f : Nat) (g : Fn → Fn) : (s.updFn f g).host.writes = s.host.writes := rfl
@[simp] theorem State.updFn_host_flights (f : Nat) (g : Fn → Fn) : (s.updFn f g).host.flights = s.host.flights := rfl
@[simp] theorem State.updFn_host_limits (f : Nat) (g : Fn → Fn) : (s.updFn f g).host.limits = s.host.limits := rfl
@[simp] theorem State.updFn_host_steward (f : Nat) (g : Fn → Fn) : (s.updFn f g).host.steward = s.host.steward := rfl
@[simp] theorem State.updFn_host_lockGen (f : Nat) (g : Fn → Fn) : (s.updFn f g).host.lockGen = s.host.lockGen := rfl
@[simp] theorem State.updFn_host_lockAband (f : Nat) (g : Fn → Fn) : (s.updFn f g).host.lockAband = s.host.lockAband := rfl
@[simp] theorem State.updFn_host_ghosts (f : Nat) (g : Fn → Fn) : (s.updFn f g).host.ghosts = s.host.ghosts := rfl

/-! ### updLease -/

@[simp] theorem State.updLease_dev (l : Nat) (g : Lease → Lease) : (s.updLease l g).dev = s.dev := rfl
@[simp] theorem State.updLease_boot (l : Nat) (g : Lease → Lease) : (s.updLease l g).boot = s.boot := rfl
@[simp] theorem State.updLease_sec (l : Nat) (g : Lease → Lease) : (s.updLease l g).sec = s.sec := rfl
@[simp] theorem State.updLease_power (l : Nat) (g : Lease → Lease) : (s.updLease l g).power = s.power := rfl
@[simp] theorem State.updLease_mod (l : Nat) (g : Lease → Lease) : (s.updLease l g).mod = s.mod := rfl
@[simp] theorem State.updLease_ras (l : Nat) (g : Lease → Lease) : (s.updLease l g).ras = s.ras := rfl
@[simp] theorem State.updLease_host (l : Nat) (g : Lease → Lease) : (s.updLease l g).host = s.host := rfl
@[simp] theorem State.updLease_fab (l : Nat) (g : Lease → Lease) : (s.updLease l g).fab = s.fab := rfl
@[simp] theorem State.updLease_hbm (l : Nat) (g : Lease → Lease) : (s.updLease l g).hbm = s.hbm := rfl
@[simp] theorem State.updLease_seq (l : Nat) (g : Lease → Lease) : (s.updLease l g).seq = s.seq := rfl
@[simp] theorem State.updLease_sclk (l : Nat) (g : Lease → Lease) : (s.updLease l g).sclk = s.sclk := rfl
@[simp] theorem State.updLease_free (l : Nat) (g : Lease → Lease) : (s.updLease l g).free = s.free := rfl
@[simp] theorem State.updLease_out (l : Nat) (g : Lease → Lease) : (s.updLease l g).out = s.out := rfl
@[simp] theorem State.updLease_pending (l : Nat) (g : Lease → Lease) : (s.updLease l g).pending = s.pending := rfl
@[simp] theorem State.updLease_own_regions (l : Nat) (g : Lease → Lease) : (s.updLease l g).own.regions = s.own.regions := rfl
@[simp] theorem State.updLease_own_cfg (l : Nat) (g : Lease → Lease) : (s.updLease l g).own.cfg = s.own.cfg := rfl

/-! ### updRegion -/

@[simp] theorem State.updRegion_dev (r : Nat) (g : Region → Region) : (s.updRegion r g).dev = s.dev := rfl
@[simp] theorem State.updRegion_boot (r : Nat) (g : Region → Region) : (s.updRegion r g).boot = s.boot := rfl
@[simp] theorem State.updRegion_sec (r : Nat) (g : Region → Region) : (s.updRegion r g).sec = s.sec := rfl
@[simp] theorem State.updRegion_power (r : Nat) (g : Region → Region) : (s.updRegion r g).power = s.power := rfl
@[simp] theorem State.updRegion_mod (r : Nat) (g : Region → Region) : (s.updRegion r g).mod = s.mod := rfl
@[simp] theorem State.updRegion_ras (r : Nat) (g : Region → Region) : (s.updRegion r g).ras = s.ras := rfl
@[simp] theorem State.updRegion_host (r : Nat) (g : Region → Region) : (s.updRegion r g).host = s.host := rfl
@[simp] theorem State.updRegion_fab (r : Nat) (g : Region → Region) : (s.updRegion r g).fab = s.fab := rfl
@[simp] theorem State.updRegion_hbm (r : Nat) (g : Region → Region) : (s.updRegion r g).hbm = s.hbm := rfl
@[simp] theorem State.updRegion_seq (r : Nat) (g : Region → Region) : (s.updRegion r g).seq = s.seq := rfl
@[simp] theorem State.updRegion_sclk (r : Nat) (g : Region → Region) : (s.updRegion r g).sclk = s.sclk := rfl
@[simp] theorem State.updRegion_free (r : Nat) (g : Region → Region) : (s.updRegion r g).free = s.free := rfl
@[simp] theorem State.updRegion_out (r : Nat) (g : Region → Region) : (s.updRegion r g).out = s.out := rfl
@[simp] theorem State.updRegion_pending (r : Nat) (g : Region → Region) : (s.updRegion r g).pending = s.pending := rfl
@[simp] theorem State.updRegion_own_leases (r : Nat) (g : Region → Region) : (s.updRegion r g).own.leases = s.own.leases := rfl
@[simp] theorem State.updRegion_own_cfg (r : Nat) (g : Region → Region) : (s.updRegion r g).own.cfg = s.own.cfg := rfl

/-! ### What an accessor reads after its update -/

@[simp] theorem State.fnOf_setFn (f : Nat) (x : Fn) : (s.setFn f x).fnOf f = x :=
  Table.get_set_self ({} : Fn) s.host.fns f x
theorem State.fnOf_setFn_ne {f j : Nat} (x : Fn) (h : j ≠ f) : (s.setFn f x).fnOf j = s.fnOf j :=
  Table.get_set_ne ({} : Fn) s.host.fns x h
@[simp] theorem State.portOf_setPort (n : Nat) (x : Port) : (s.setPort n x).portOf n = x :=
  Table.get_set_self ({} : Port) s.host.ports n x
theorem State.portOf_setPort_ne {n j : Nat} (x : Port) (h : j ≠ n) : (s.setPort n x).portOf j = s.portOf j :=
  Table.get_set_ne ({} : Port) s.host.ports x h
@[simp] theorem State.leaseOf_setLease (l : Nat) (x : Lease) : (s.setLease l x).leaseOf l = x :=
  Table.get_set_self ({} : Lease) s.own.leases l x
theorem State.leaseOf_setLease_ne {l j : Nat} (x : Lease) (h : j ≠ l) : (s.setLease l x).leaseOf j = s.leaseOf j :=
  Table.get_set_ne ({} : Lease) s.own.leases x h
@[simp] theorem State.regionOf_setRegion (r : Nat) (x : Region) : (s.setRegion r x).regionOf r = x :=
  Table.get_set_self ({} : Region) s.own.regions r x
theorem State.regionOf_setRegion_ne {r j : Nat} (x : Region) (h : j ≠ r) : (s.setRegion r x).regionOf j = s.regionOf j :=
  Table.get_set_ne ({} : Region) s.own.regions x h
@[simp] theorem State.engOf_setEng (e : Nat) (x : CfgEng) : (s.setEng e x).engOf e = x :=
  Table.get_set_self ({} : CfgEng) s.own.cfg e x
theorem State.engOf_setEng_ne {e j : Nat} (x : CfgEng) (h : j ≠ e) : (s.setEng e x).engOf j = s.engOf j :=
  Table.get_set_ne ({} : CfgEng) s.own.cfg x h
@[simp] theorem State.clkOf_setClk (d : Nat) (x : DieClk) : (s.setClk d x).clkOf d = x :=
  Table.get_set_self ({} : DieClk) s.power.dies d x
theorem State.clkOf_setClk_ne {d j : Nat} (x : DieClk) (h : j ≠ d) : (s.setClk d x).clkOf j = s.clkOf j :=
  Table.get_set_ne ({} : DieClk) s.power.dies x h
@[simp] theorem State.tileOf_setTile (t : Nat) (x : Tile) : (s.setTile t x).tileOf t = x :=
  Table.get_set_self ({} : Tile) s.fab.tiles t x
theorem State.tileOf_setTile_ne {t j : Nat} (x : Tile) (h : j ≠ t) : (s.setTile t x).tileOf j = s.tileOf j :=
  Table.get_set_ne ({} : Tile) s.fab.tiles x h
@[simp] theorem State.mtileOf_setMTile (t : Nat) (x : MTile) : (s.setMTile t x).mtileOf t = x :=
  Table.get_set_self ({} : MTile) s.fab.mtiles t x
theorem State.mtileOf_setMTile_ne {t j : Nat} (x : MTile) (h : j ≠ t) : (s.setMTile t x).mtileOf j = s.mtileOf j :=
  Table.get_set_ne ({} : MTile) s.fab.mtiles x h
@[simp] theorem State.chanOf_setChan (c : Nat) (x : Chan) : (s.setChan c x).chanOf c = x :=
  Table.get_set_self ({} : Chan) s.seq.chans c x
theorem State.chanOf_setChan_ne {c j : Nat} (x : Chan) (h : j ≠ c) : (s.setChan c x).chanOf j = s.chanOf j :=
  Table.get_set_ne ({} : Chan) s.seq.chans x h
@[simp] theorem State.streamOf_setStream (i : Nat) (x : Option Stream) : (s.setStream i x).streamOf i = x :=
  Table.get_set_self none s.fab.streams i x
theorem State.streamOf_setStream_ne {i j : Nat} (x : Option Stream) (h : j ≠ i) : (s.setStream i x).streamOf j = s.streamOf j :=
  Table.get_set_ne none s.fab.streams x h
@[simp] theorem State.progOf_setProg (i : Nat) (x : Option Prog) : (s.setProg i x).progOf i = x :=
  Table.get_set_self none s.seq.progs i x
theorem State.progOf_setProg_ne {i j : Nat} (x : Option Prog) (h : j ≠ i) : (s.setProg i x).progOf j = s.progOf j :=
  Table.get_set_ne none s.seq.progs x h
@[simp] theorem State.secOf_setSec (i : Nat) (x : Option Section) : (s.setSec i x).secOf i = x :=
  Table.get_set_self none s.seq.sections i x
theorem State.secOf_setSec_ne {i j : Nat} (x : Option Section) (h : j ≠ i) : (s.setSec i x).secOf j = s.secOf j :=
  Table.get_set_ne none s.seq.sections x h

/-! ### Accessors that an update leaves alone -/

@[simp] theorem State.setFn_portOf (f : Nat) (x : Fn) (k : Nat) : (s.setFn f x).portOf k = s.portOf k := rfl
@[simp] theorem State.setFn_leaseOf (f : Nat) (x : Fn) (k : Nat) : (s.setFn f x).leaseOf k = s.leaseOf k := rfl
@[simp] theorem State.setFn_regionOf (f : Nat) (x : Fn) (k : Nat) : (s.setFn f x).regionOf k = s.regionOf k := rfl
@[simp] theorem State.setFn_tileOf (f : Nat) (x : Fn) (k : Nat) : (s.setFn f x).tileOf k = s.tileOf k := rfl
@[simp] theorem State.setFn_mtileOf (f : Nat) (x : Fn) (k : Nat) : (s.setFn f x).mtileOf k = s.mtileOf k := rfl
@[simp] theorem State.setFn_streamOf (f : Nat) (x : Fn) (k : Nat) : (s.setFn f x).streamOf k = s.streamOf k := rfl
@[simp] theorem State.setFn_progOf (f : Nat) (x : Fn) (k : Nat) : (s.setFn f x).progOf k = s.progOf k := rfl
@[simp] theorem State.setFn_secOf (f : Nat) (x : Fn) (k : Nat) : (s.setFn f x).secOf k = s.secOf k := rfl
@[simp] theorem State.setFn_chanOf (f : Nat) (x : Fn) (k : Nat) : (s.setFn f x).chanOf k = s.chanOf k := rfl
@[simp] theorem State.setFn_clkOf (f : Nat) (x : Fn) (k : Nat) : (s.setFn f x).clkOf k = s.clkOf k := rfl
@[simp] theorem State.setPort_fnOf (n : Nat) (x : Port) (k : Nat) : (s.setPort n x).fnOf k = s.fnOf k := rfl
@[simp] theorem State.setPort_leaseOf (n : Nat) (x : Port) (k : Nat) : (s.setPort n x).leaseOf k = s.leaseOf k := rfl
@[simp] theorem State.setPort_regionOf (n : Nat) (x : Port) (k : Nat) : (s.setPort n x).regionOf k = s.regionOf k := rfl
@[simp] theorem State.setPort_tileOf (n : Nat) (x : Port) (k : Nat) : (s.setPort n x).tileOf k = s.tileOf k := rfl
@[simp] theorem State.setPort_mtileOf (n : Nat) (x : Port) (k : Nat) : (s.setPort n x).mtileOf k = s.mtileOf k := rfl
@[simp] theorem State.setPort_streamOf (n : Nat) (x : Port) (k : Nat) : (s.setPort n x).streamOf k = s.streamOf k := rfl
@[simp] theorem State.setPort_progOf (n : Nat) (x : Port) (k : Nat) : (s.setPort n x).progOf k = s.progOf k := rfl
@[simp] theorem State.setPort_secOf (n : Nat) (x : Port) (k : Nat) : (s.setPort n x).secOf k = s.secOf k := rfl
@[simp] theorem State.setPort_chanOf (n : Nat) (x : Port) (k : Nat) : (s.setPort n x).chanOf k = s.chanOf k := rfl
@[simp] theorem State.setPort_clkOf (n : Nat) (x : Port) (k : Nat) : (s.setPort n x).clkOf k = s.clkOf k := rfl
@[simp] theorem State.setLease_fnOf (l : Nat) (x : Lease) (k : Nat) : (s.setLease l x).fnOf k = s.fnOf k := rfl
@[simp] theorem State.setLease_portOf (l : Nat) (x : Lease) (k : Nat) : (s.setLease l x).portOf k = s.portOf k := rfl
@[simp] theorem State.setLease_regionOf (l : Nat) (x : Lease) (k : Nat) : (s.setLease l x).regionOf k = s.regionOf k := rfl
@[simp] theorem State.setLease_tileOf (l : Nat) (x : Lease) (k : Nat) : (s.setLease l x).tileOf k = s.tileOf k := rfl
@[simp] theorem State.setLease_mtileOf (l : Nat) (x : Lease) (k : Nat) : (s.setLease l x).mtileOf k = s.mtileOf k := rfl
@[simp] theorem State.setLease_streamOf (l : Nat) (x : Lease) (k : Nat) : (s.setLease l x).streamOf k = s.streamOf k := rfl
@[simp] theorem State.setLease_progOf (l : Nat) (x : Lease) (k : Nat) : (s.setLease l x).progOf k = s.progOf k := rfl
@[simp] theorem State.setLease_secOf (l : Nat) (x : Lease) (k : Nat) : (s.setLease l x).secOf k = s.secOf k := rfl
@[simp] theorem State.setLease_chanOf (l : Nat) (x : Lease) (k : Nat) : (s.setLease l x).chanOf k = s.chanOf k := rfl
@[simp] theorem State.setLease_clkOf (l : Nat) (x : Lease) (k : Nat) : (s.setLease l x).clkOf k = s.clkOf k := rfl
@[simp] theorem State.setRegion_fnOf (r : Nat) (x : Region) (k : Nat) : (s.setRegion r x).fnOf k = s.fnOf k := rfl
@[simp] theorem State.setRegion_portOf (r : Nat) (x : Region) (k : Nat) : (s.setRegion r x).portOf k = s.portOf k := rfl
@[simp] theorem State.setRegion_leaseOf (r : Nat) (x : Region) (k : Nat) : (s.setRegion r x).leaseOf k = s.leaseOf k := rfl
@[simp] theorem State.setRegion_tileOf (r : Nat) (x : Region) (k : Nat) : (s.setRegion r x).tileOf k = s.tileOf k := rfl
@[simp] theorem State.setRegion_mtileOf (r : Nat) (x : Region) (k : Nat) : (s.setRegion r x).mtileOf k = s.mtileOf k := rfl
@[simp] theorem State.setRegion_streamOf (r : Nat) (x : Region) (k : Nat) : (s.setRegion r x).streamOf k = s.streamOf k := rfl
@[simp] theorem State.setRegion_progOf (r : Nat) (x : Region) (k : Nat) : (s.setRegion r x).progOf k = s.progOf k := rfl
@[simp] theorem State.setRegion_secOf (r : Nat) (x : Region) (k : Nat) : (s.setRegion r x).secOf k = s.secOf k := rfl
@[simp] theorem State.setRegion_chanOf (r : Nat) (x : Region) (k : Nat) : (s.setRegion r x).chanOf k = s.chanOf k := rfl
@[simp] theorem State.setRegion_clkOf (r : Nat) (x : Region) (k : Nat) : (s.setRegion r x).clkOf k = s.clkOf k := rfl
@[simp] theorem State.setEng_fnOf (e : Nat) (x : CfgEng) (k : Nat) : (s.setEng e x).fnOf k = s.fnOf k := rfl
@[simp] theorem State.setEng_portOf (e : Nat) (x : CfgEng) (k : Nat) : (s.setEng e x).portOf k = s.portOf k := rfl
@[simp] theorem State.setEng_leaseOf (e : Nat) (x : CfgEng) (k : Nat) : (s.setEng e x).leaseOf k = s.leaseOf k := rfl
@[simp] theorem State.setEng_regionOf (e : Nat) (x : CfgEng) (k : Nat) : (s.setEng e x).regionOf k = s.regionOf k := rfl
@[simp] theorem State.setEng_tileOf (e : Nat) (x : CfgEng) (k : Nat) : (s.setEng e x).tileOf k = s.tileOf k := rfl
@[simp] theorem State.setEng_mtileOf (e : Nat) (x : CfgEng) (k : Nat) : (s.setEng e x).mtileOf k = s.mtileOf k := rfl
@[simp] theorem State.setEng_streamOf (e : Nat) (x : CfgEng) (k : Nat) : (s.setEng e x).streamOf k = s.streamOf k := rfl
@[simp] theorem State.setEng_progOf (e : Nat) (x : CfgEng) (k : Nat) : (s.setEng e x).progOf k = s.progOf k := rfl
@[simp] theorem State.setEng_secOf (e : Nat) (x : CfgEng) (k : Nat) : (s.setEng e x).secOf k = s.secOf k := rfl
@[simp] theorem State.setEng_chanOf (e : Nat) (x : CfgEng) (k : Nat) : (s.setEng e x).chanOf k = s.chanOf k := rfl
@[simp] theorem State.setEng_clkOf (e : Nat) (x : CfgEng) (k : Nat) : (s.setEng e x).clkOf k = s.clkOf k := rfl
@[simp] theorem State.setClk_fnOf (d : Nat) (x : DieClk) (k : Nat) : (s.setClk d x).fnOf k = s.fnOf k := rfl
@[simp] theorem State.setClk_portOf (d : Nat) (x : DieClk) (k : Nat) : (s.setClk d x).portOf k = s.portOf k := rfl
@[simp] theorem State.setClk_leaseOf (d : Nat) (x : DieClk) (k : Nat) : (s.setClk d x).leaseOf k = s.leaseOf k := rfl
@[simp] theorem State.setClk_regionOf (d : Nat) (x : DieClk) (k : Nat) : (s.setClk d x).regionOf k = s.regionOf k := rfl
@[simp] theorem State.setClk_tileOf (d : Nat) (x : DieClk) (k : Nat) : (s.setClk d x).tileOf k = s.tileOf k := rfl
@[simp] theorem State.setClk_mtileOf (d : Nat) (x : DieClk) (k : Nat) : (s.setClk d x).mtileOf k = s.mtileOf k := rfl
@[simp] theorem State.setClk_streamOf (d : Nat) (x : DieClk) (k : Nat) : (s.setClk d x).streamOf k = s.streamOf k := rfl
@[simp] theorem State.setClk_progOf (d : Nat) (x : DieClk) (k : Nat) : (s.setClk d x).progOf k = s.progOf k := rfl
@[simp] theorem State.setClk_secOf (d : Nat) (x : DieClk) (k : Nat) : (s.setClk d x).secOf k = s.secOf k := rfl
@[simp] theorem State.setClk_chanOf (d : Nat) (x : DieClk) (k : Nat) : (s.setClk d x).chanOf k = s.chanOf k := rfl
@[simp] theorem State.setTile_fnOf (t : Nat) (x : Tile) (k : Nat) : (s.setTile t x).fnOf k = s.fnOf k := rfl
@[simp] theorem State.setTile_portOf (t : Nat) (x : Tile) (k : Nat) : (s.setTile t x).portOf k = s.portOf k := rfl
@[simp] theorem State.setTile_leaseOf (t : Nat) (x : Tile) (k : Nat) : (s.setTile t x).leaseOf k = s.leaseOf k := rfl
@[simp] theorem State.setTile_regionOf (t : Nat) (x : Tile) (k : Nat) : (s.setTile t x).regionOf k = s.regionOf k := rfl
@[simp] theorem State.setTile_mtileOf (t : Nat) (x : Tile) (k : Nat) : (s.setTile t x).mtileOf k = s.mtileOf k := rfl
@[simp] theorem State.setTile_streamOf (t : Nat) (x : Tile) (k : Nat) : (s.setTile t x).streamOf k = s.streamOf k := rfl
@[simp] theorem State.setTile_progOf (t : Nat) (x : Tile) (k : Nat) : (s.setTile t x).progOf k = s.progOf k := rfl
@[simp] theorem State.setTile_secOf (t : Nat) (x : Tile) (k : Nat) : (s.setTile t x).secOf k = s.secOf k := rfl
@[simp] theorem State.setTile_chanOf (t : Nat) (x : Tile) (k : Nat) : (s.setTile t x).chanOf k = s.chanOf k := rfl
@[simp] theorem State.setTile_clkOf (t : Nat) (x : Tile) (k : Nat) : (s.setTile t x).clkOf k = s.clkOf k := rfl
@[simp] theorem State.setMTile_fnOf (t : Nat) (x : MTile) (k : Nat) : (s.setMTile t x).fnOf k = s.fnOf k := rfl
@[simp] theorem State.setMTile_portOf (t : Nat) (x : MTile) (k : Nat) : (s.setMTile t x).portOf k = s.portOf k := rfl
@[simp] theorem State.setMTile_leaseOf (t : Nat) (x : MTile) (k : Nat) : (s.setMTile t x).leaseOf k = s.leaseOf k := rfl
@[simp] theorem State.setMTile_regionOf (t : Nat) (x : MTile) (k : Nat) : (s.setMTile t x).regionOf k = s.regionOf k := rfl
@[simp] theorem State.setMTile_tileOf (t : Nat) (x : MTile) (k : Nat) : (s.setMTile t x).tileOf k = s.tileOf k := rfl
@[simp] theorem State.setMTile_streamOf (t : Nat) (x : MTile) (k : Nat) : (s.setMTile t x).streamOf k = s.streamOf k := rfl
@[simp] theorem State.setMTile_progOf (t : Nat) (x : MTile) (k : Nat) : (s.setMTile t x).progOf k = s.progOf k := rfl
@[simp] theorem State.setMTile_secOf (t : Nat) (x : MTile) (k : Nat) : (s.setMTile t x).secOf k = s.secOf k := rfl
@[simp] theorem State.setMTile_chanOf (t : Nat) (x : MTile) (k : Nat) : (s.setMTile t x).chanOf k = s.chanOf k := rfl
@[simp] theorem State.setMTile_clkOf (t : Nat) (x : MTile) (k : Nat) : (s.setMTile t x).clkOf k = s.clkOf k := rfl
@[simp] theorem State.setStream_fnOf (i : Nat) (x : Option Stream) (k : Nat) : (s.setStream i x).fnOf k = s.fnOf k := rfl
@[simp] theorem State.setStream_portOf (i : Nat) (x : Option Stream) (k : Nat) : (s.setStream i x).portOf k = s.portOf k := rfl
@[simp] theorem State.setStream_leaseOf (i : Nat) (x : Option Stream) (k : Nat) : (s.setStream i x).leaseOf k = s.leaseOf k := rfl
@[simp] theorem State.setStream_regionOf (i : Nat) (x : Option Stream) (k : Nat) : (s.setStream i x).regionOf k = s.regionOf k := rfl
@[simp] theorem State.setStream_tileOf (i : Nat) (x : Option Stream) (k : Nat) : (s.setStream i x).tileOf k = s.tileOf k := rfl
@[simp] theorem State.setStream_mtileOf (i : Nat) (x : Option Stream) (k : Nat) : (s.setStream i x).mtileOf k = s.mtileOf k := rfl
@[simp] theorem State.setStream_progOf (i : Nat) (x : Option Stream) (k : Nat) : (s.setStream i x).progOf k = s.progOf k := rfl
@[simp] theorem State.setStream_secOf (i : Nat) (x : Option Stream) (k : Nat) : (s.setStream i x).secOf k = s.secOf k := rfl
@[simp] theorem State.setStream_chanOf (i : Nat) (x : Option Stream) (k : Nat) : (s.setStream i x).chanOf k = s.chanOf k := rfl
@[simp] theorem State.setStream_clkOf (i : Nat) (x : Option Stream) (k : Nat) : (s.setStream i x).clkOf k = s.clkOf k := rfl
@[simp] theorem State.setProg_fnOf (h : Nat) (x : Option Prog) (k : Nat) : (s.setProg h x).fnOf k = s.fnOf k := rfl
@[simp] theorem State.setProg_portOf (h : Nat) (x : Option Prog) (k : Nat) : (s.setProg h x).portOf k = s.portOf k := rfl
@[simp] theorem State.setProg_leaseOf (h : Nat) (x : Option Prog) (k : Nat) : (s.setProg h x).leaseOf k = s.leaseOf k := rfl
@[simp] theorem State.setProg_regionOf (h : Nat) (x : Option Prog) (k : Nat) : (s.setProg h x).regionOf k = s.regionOf k := rfl
@[simp] theorem State.setProg_tileOf (h : Nat) (x : Option Prog) (k : Nat) : (s.setProg h x).tileOf k = s.tileOf k := rfl
@[simp] theorem State.setProg_mtileOf (h : Nat) (x : Option Prog) (k : Nat) : (s.setProg h x).mtileOf k = s.mtileOf k := rfl
@[simp] theorem State.setProg_streamOf (h : Nat) (x : Option Prog) (k : Nat) : (s.setProg h x).streamOf k = s.streamOf k := rfl
@[simp] theorem State.setProg_secOf (h : Nat) (x : Option Prog) (k : Nat) : (s.setProg h x).secOf k = s.secOf k := rfl
@[simp] theorem State.setProg_chanOf (h : Nat) (x : Option Prog) (k : Nat) : (s.setProg h x).chanOf k = s.chanOf k := rfl
@[simp] theorem State.setProg_clkOf (h : Nat) (x : Option Prog) (k : Nat) : (s.setProg h x).clkOf k = s.clkOf k := rfl
@[simp] theorem State.setSec_fnOf (i : Nat) (x : Option Section) (k : Nat) : (s.setSec i x).fnOf k = s.fnOf k := rfl
@[simp] theorem State.setSec_portOf (i : Nat) (x : Option Section) (k : Nat) : (s.setSec i x).portOf k = s.portOf k := rfl
@[simp] theorem State.setSec_leaseOf (i : Nat) (x : Option Section) (k : Nat) : (s.setSec i x).leaseOf k = s.leaseOf k := rfl
@[simp] theorem State.setSec_regionOf (i : Nat) (x : Option Section) (k : Nat) : (s.setSec i x).regionOf k = s.regionOf k := rfl
@[simp] theorem State.setSec_tileOf (i : Nat) (x : Option Section) (k : Nat) : (s.setSec i x).tileOf k = s.tileOf k := rfl
@[simp] theorem State.setSec_mtileOf (i : Nat) (x : Option Section) (k : Nat) : (s.setSec i x).mtileOf k = s.mtileOf k := rfl
@[simp] theorem State.setSec_streamOf (i : Nat) (x : Option Section) (k : Nat) : (s.setSec i x).streamOf k = s.streamOf k := rfl
@[simp] theorem State.setSec_progOf (i : Nat) (x : Option Section) (k : Nat) : (s.setSec i x).progOf k = s.progOf k := rfl
@[simp] theorem State.setSec_chanOf (i : Nat) (x : Option Section) (k : Nat) : (s.setSec i x).chanOf k = s.chanOf k := rfl
@[simp] theorem State.setSec_clkOf (i : Nat) (x : Option Section) (k : Nat) : (s.setSec i x).clkOf k = s.clkOf k := rfl
@[simp] theorem State.setChan_fnOf (c : Nat) (x : Chan) (k : Nat) : (s.setChan c x).fnOf k = s.fnOf k := rfl
@[simp] theorem State.setChan_portOf (c : Nat) (x : Chan) (k : Nat) : (s.setChan c x).portOf k = s.portOf k := rfl
@[simp] theorem State.setChan_leaseOf (c : Nat) (x : Chan) (k : Nat) : (s.setChan c x).leaseOf k = s.leaseOf k := rfl
@[simp] theorem State.setChan_regionOf (c : Nat) (x : Chan) (k : Nat) : (s.setChan c x).regionOf k = s.regionOf k := rfl
@[simp] theorem State.setChan_tileOf (c : Nat) (x : Chan) (k : Nat) : (s.setChan c x).tileOf k = s.tileOf k := rfl
@[simp] theorem State.setChan_mtileOf (c : Nat) (x : Chan) (k : Nat) : (s.setChan c x).mtileOf k = s.mtileOf k := rfl
@[simp] theorem State.setChan_streamOf (c : Nat) (x : Chan) (k : Nat) : (s.setChan c x).streamOf k = s.streamOf k := rfl
@[simp] theorem State.setChan_progOf (c : Nat) (x : Chan) (k : Nat) : (s.setChan c x).progOf k = s.progOf k := rfl
@[simp] theorem State.setChan_secOf (c : Nat) (x : Chan) (k : Nat) : (s.setChan c x).secOf k = s.secOf k := rfl
@[simp] theorem State.setChan_clkOf (c : Nat) (x : Chan) (k : Nat) : (s.setChan c x).clkOf k = s.clkOf k := rfl
@[simp] theorem State.setHbmMem_fnOf (m : Table Byte) (k : Nat) : (s.setHbmMem m).fnOf k = s.fnOf k := rfl
@[simp] theorem State.setHbmMem_portOf (m : Table Byte) (k : Nat) : (s.setHbmMem m).portOf k = s.portOf k := rfl
@[simp] theorem State.setHbmMem_leaseOf (m : Table Byte) (k : Nat) : (s.setHbmMem m).leaseOf k = s.leaseOf k := rfl
@[simp] theorem State.setHbmMem_regionOf (m : Table Byte) (k : Nat) : (s.setHbmMem m).regionOf k = s.regionOf k := rfl
@[simp] theorem State.setHbmMem_tileOf (m : Table Byte) (k : Nat) : (s.setHbmMem m).tileOf k = s.tileOf k := rfl
@[simp] theorem State.setHbmMem_mtileOf (m : Table Byte) (k : Nat) : (s.setHbmMem m).mtileOf k = s.mtileOf k := rfl
@[simp] theorem State.setHbmMem_streamOf (m : Table Byte) (k : Nat) : (s.setHbmMem m).streamOf k = s.streamOf k := rfl
@[simp] theorem State.setHbmMem_progOf (m : Table Byte) (k : Nat) : (s.setHbmMem m).progOf k = s.progOf k := rfl
@[simp] theorem State.setHbmMem_secOf (m : Table Byte) (k : Nat) : (s.setHbmMem m).secOf k = s.secOf k := rfl
@[simp] theorem State.setHbmMem_chanOf (m : Table Byte) (k : Nat) : (s.setHbmMem m).chanOf k = s.chanOf k := rfl
@[simp] theorem State.setHbmMem_clkOf (m : Table Byte) (k : Nat) : (s.setHbmMem m).clkOf k = s.clkOf k := rfl
@[simp] theorem State.setHbmPoison_fnOf (m : Table Bool) (k : Nat) : (s.setHbmPoison m).fnOf k = s.fnOf k := rfl
@[simp] theorem State.setHbmPoison_portOf (m : Table Bool) (k : Nat) : (s.setHbmPoison m).portOf k = s.portOf k := rfl
@[simp] theorem State.setHbmPoison_leaseOf (m : Table Bool) (k : Nat) : (s.setHbmPoison m).leaseOf k = s.leaseOf k := rfl
@[simp] theorem State.setHbmPoison_regionOf (m : Table Bool) (k : Nat) : (s.setHbmPoison m).regionOf k = s.regionOf k := rfl
@[simp] theorem State.setHbmPoison_tileOf (m : Table Bool) (k : Nat) : (s.setHbmPoison m).tileOf k = s.tileOf k := rfl
@[simp] theorem State.setHbmPoison_mtileOf (m : Table Bool) (k : Nat) : (s.setHbmPoison m).mtileOf k = s.mtileOf k := rfl
@[simp] theorem State.setHbmPoison_streamOf (m : Table Bool) (k : Nat) : (s.setHbmPoison m).streamOf k = s.streamOf k := rfl
@[simp] theorem State.setHbmPoison_progOf (m : Table Bool) (k : Nat) : (s.setHbmPoison m).progOf k = s.progOf k := rfl
@[simp] theorem State.setHbmPoison_secOf (m : Table Bool) (k : Nat) : (s.setHbmPoison m).secOf k = s.secOf k := rfl
@[simp] theorem State.setHbmPoison_chanOf (m : Table Bool) (k : Nat) : (s.setHbmPoison m).chanOf k = s.chanOf k := rfl
@[simp] theorem State.setHbmPoison_clkOf (m : Table Bool) (k : Nat) : (s.setHbmPoison m).clkOf k = s.clkOf k := rfl
@[simp] theorem State.setSram_fnOf (m : Table Byte) (k : Nat) : (s.setSram m).fnOf k = s.fnOf k := rfl
@[simp] theorem State.setSram_portOf (m : Table Byte) (k : Nat) : (s.setSram m).portOf k = s.portOf k := rfl
@[simp] theorem State.setSram_leaseOf (m : Table Byte) (k : Nat) : (s.setSram m).leaseOf k = s.leaseOf k := rfl
@[simp] theorem State.setSram_regionOf (m : Table Byte) (k : Nat) : (s.setSram m).regionOf k = s.regionOf k := rfl
@[simp] theorem State.setSram_tileOf (m : Table Byte) (k : Nat) : (s.setSram m).tileOf k = s.tileOf k := rfl
@[simp] theorem State.setSram_mtileOf (m : Table Byte) (k : Nat) : (s.setSram m).mtileOf k = s.mtileOf k := rfl
@[simp] theorem State.setSram_streamOf (m : Table Byte) (k : Nat) : (s.setSram m).streamOf k = s.streamOf k := rfl
@[simp] theorem State.setSram_progOf (m : Table Byte) (k : Nat) : (s.setSram m).progOf k = s.progOf k := rfl
@[simp] theorem State.setSram_secOf (m : Table Byte) (k : Nat) : (s.setSram m).secOf k = s.secOf k := rfl
@[simp] theorem State.setSram_chanOf (m : Table Byte) (k : Nat) : (s.setSram m).chanOf k = s.chanOf k := rfl
@[simp] theorem State.setSram_clkOf (m : Table Byte) (k : Nat) : (s.setSram m).clkOf k = s.clkOf k := rfl
@[simp] theorem State.setSramPoison_fnOf (m : Table Bool) (k : Nat) : (s.setSramPoison m).fnOf k = s.fnOf k := rfl
@[simp] theorem State.setSramPoison_portOf (m : Table Bool) (k : Nat) : (s.setSramPoison m).portOf k = s.portOf k := rfl
@[simp] theorem State.setSramPoison_leaseOf (m : Table Bool) (k : Nat) : (s.setSramPoison m).leaseOf k = s.leaseOf k := rfl
@[simp] theorem State.setSramPoison_regionOf (m : Table Bool) (k : Nat) : (s.setSramPoison m).regionOf k = s.regionOf k := rfl
@[simp] theorem State.setSramPoison_tileOf (m : Table Bool) (k : Nat) : (s.setSramPoison m).tileOf k = s.tileOf k := rfl
@[simp] theorem State.setSramPoison_mtileOf (m : Table Bool) (k : Nat) : (s.setSramPoison m).mtileOf k = s.mtileOf k := rfl
@[simp] theorem State.setSramPoison_streamOf (m : Table Bool) (k : Nat) : (s.setSramPoison m).streamOf k = s.streamOf k := rfl
@[simp] theorem State.setSramPoison_progOf (m : Table Bool) (k : Nat) : (s.setSramPoison m).progOf k = s.progOf k := rfl
@[simp] theorem State.setSramPoison_secOf (m : Table Bool) (k : Nat) : (s.setSramPoison m).secOf k = s.secOf k := rfl
@[simp] theorem State.setSramPoison_chanOf (m : Table Bool) (k : Nat) : (s.setSramPoison m).chanOf k = s.chanOf k := rfl
@[simp] theorem State.setSramPoison_clkOf (m : Table Bool) (k : Nat) : (s.setSramPoison m).clkOf k = s.clkOf k := rfl
@[simp] theorem State.setFrames_fnOf (m : Table Frame) (k : Nat) : (s.setFrames m).fnOf k = s.fnOf k := rfl
@[simp] theorem State.setFrames_portOf (m : Table Frame) (k : Nat) : (s.setFrames m).portOf k = s.portOf k := rfl
@[simp] theorem State.setFrames_leaseOf (m : Table Frame) (k : Nat) : (s.setFrames m).leaseOf k = s.leaseOf k := rfl
@[simp] theorem State.setFrames_regionOf (m : Table Frame) (k : Nat) : (s.setFrames m).regionOf k = s.regionOf k := rfl
@[simp] theorem State.setFrames_tileOf (m : Table Frame) (k : Nat) : (s.setFrames m).tileOf k = s.tileOf k := rfl
@[simp] theorem State.setFrames_mtileOf (m : Table Frame) (k : Nat) : (s.setFrames m).mtileOf k = s.mtileOf k := rfl
@[simp] theorem State.setFrames_streamOf (m : Table Frame) (k : Nat) : (s.setFrames m).streamOf k = s.streamOf k := rfl
@[simp] theorem State.setFrames_progOf (m : Table Frame) (k : Nat) : (s.setFrames m).progOf k = s.progOf k := rfl
@[simp] theorem State.setFrames_secOf (m : Table Frame) (k : Nat) : (s.setFrames m).secOf k = s.secOf k := rfl
@[simp] theorem State.setFrames_chanOf (m : Table Frame) (k : Nat) : (s.setFrames m).chanOf k = s.chanOf k := rfl
@[simp] theorem State.setFrames_clkOf (m : Table Frame) (k : Nat) : (s.setFrames m).clkOf k = s.clkOf k := rfl
@[simp] theorem State.emit_fnOf (o : Out) (k : Nat) : (s.emit o).fnOf k = s.fnOf k := rfl
@[simp] theorem State.emit_portOf (o : Out) (k : Nat) : (s.emit o).portOf k = s.portOf k := rfl
@[simp] theorem State.emit_leaseOf (o : Out) (k : Nat) : (s.emit o).leaseOf k = s.leaseOf k := rfl
@[simp] theorem State.emit_regionOf (o : Out) (k : Nat) : (s.emit o).regionOf k = s.regionOf k := rfl
@[simp] theorem State.emit_tileOf (o : Out) (k : Nat) : (s.emit o).tileOf k = s.tileOf k := rfl
@[simp] theorem State.emit_mtileOf (o : Out) (k : Nat) : (s.emit o).mtileOf k = s.mtileOf k := rfl
@[simp] theorem State.emit_streamOf (o : Out) (k : Nat) : (s.emit o).streamOf k = s.streamOf k := rfl
@[simp] theorem State.emit_progOf (o : Out) (k : Nat) : (s.emit o).progOf k = s.progOf k := rfl
@[simp] theorem State.emit_secOf (o : Out) (k : Nat) : (s.emit o).secOf k = s.secOf k := rfl
@[simp] theorem State.emit_chanOf (o : Out) (k : Nat) : (s.emit o).chanOf k = s.chanOf k := rfl
@[simp] theorem State.emit_clkOf (o : Out) (k : Nat) : (s.emit o).clkOf k = s.clkOf k := rfl
@[simp] theorem State.drew_fnOf  (k : Nat) : (s.drew).fnOf k = s.fnOf k := rfl
@[simp] theorem State.drew_portOf  (k : Nat) : (s.drew).portOf k = s.portOf k := rfl
@[simp] theorem State.drew_leaseOf  (k : Nat) : (s.drew).leaseOf k = s.leaseOf k := rfl
@[simp] theorem State.drew_regionOf  (k : Nat) : (s.drew).regionOf k = s.regionOf k := rfl
@[simp] theorem State.drew_tileOf  (k : Nat) : (s.drew).tileOf k = s.tileOf k := rfl
@[simp] theorem State.drew_mtileOf  (k : Nat) : (s.drew).mtileOf k = s.mtileOf k := rfl
@[simp] theorem State.drew_streamOf  (k : Nat) : (s.drew).streamOf k = s.streamOf k := rfl
@[simp] theorem State.drew_progOf  (k : Nat) : (s.drew).progOf k = s.progOf k := rfl
@[simp] theorem State.drew_secOf  (k : Nat) : (s.drew).secOf k = s.secOf k := rfl
@[simp] theorem State.drew_chanOf  (k : Nat) : (s.drew).chanOf k = s.chanOf k := rfl
@[simp] theorem State.drew_clkOf  (k : Nat) : (s.drew).clkOf k = s.clkOf k := rfl
@[simp] theorem State.updFn_portOf (f : Nat) (g : Fn → Fn) (k : Nat) : (s.updFn f g).portOf k = s.portOf k := rfl
@[simp] theorem State.updFn_leaseOf (f : Nat) (g : Fn → Fn) (k : Nat) : (s.updFn f g).leaseOf k = s.leaseOf k := rfl
@[simp] theorem State.updFn_regionOf (f : Nat) (g : Fn → Fn) (k : Nat) : (s.updFn f g).regionOf k = s.regionOf k := rfl
@[simp] theorem State.updFn_tileOf (f : Nat) (g : Fn → Fn) (k : Nat) : (s.updFn f g).tileOf k = s.tileOf k := rfl
@[simp] theorem State.updFn_mtileOf (f : Nat) (g : Fn → Fn) (k : Nat) : (s.updFn f g).mtileOf k = s.mtileOf k := rfl
@[simp] theorem State.updFn_streamOf (f : Nat) (g : Fn → Fn) (k : Nat) : (s.updFn f g).streamOf k = s.streamOf k := rfl
@[simp] theorem State.updFn_progOf (f : Nat) (g : Fn → Fn) (k : Nat) : (s.updFn f g).progOf k = s.progOf k := rfl
@[simp] theorem State.updFn_secOf (f : Nat) (g : Fn → Fn) (k : Nat) : (s.updFn f g).secOf k = s.secOf k := rfl
@[simp] theorem State.updFn_chanOf (f : Nat) (g : Fn → Fn) (k : Nat) : (s.updFn f g).chanOf k = s.chanOf k := rfl
@[simp] theorem State.updFn_clkOf (f : Nat) (g : Fn → Fn) (k : Nat) : (s.updFn f g).clkOf k = s.clkOf k := rfl
@[simp] theorem State.updLease_fnOf (l : Nat) (g : Lease → Lease) (k : Nat) : (s.updLease l g).fnOf k = s.fnOf k := rfl
@[simp] theorem State.updLease_portOf (l : Nat) (g : Lease → Lease) (k : Nat) : (s.updLease l g).portOf k = s.portOf k := rfl
@[simp] theorem State.updLease_regionOf (l : Nat) (g : Lease → Lease) (k : Nat) : (s.updLease l g).regionOf k = s.regionOf k := rfl
@[simp] theorem State.updLease_tileOf (l : Nat) (g : Lease → Lease) (k : Nat) : (s.updLease l g).tileOf k = s.tileOf k := rfl
@[simp] theorem State.updLease_mtileOf (l : Nat) (g : Lease → Lease) (k : Nat) : (s.updLease l g).mtileOf k = s.mtileOf k := rfl
@[simp] theorem State.updLease_streamOf (l : Nat) (g : Lease → Lease) (k : Nat) : (s.updLease l g).streamOf k = s.streamOf k := rfl
@[simp] theorem State.updLease_progOf (l : Nat) (g : Lease → Lease) (k : Nat) : (s.updLease l g).progOf k = s.progOf k := rfl
@[simp] theorem State.updLease_secOf (l : Nat) (g : Lease → Lease) (k : Nat) : (s.updLease l g).secOf k = s.secOf k := rfl
@[simp] theorem State.updLease_chanOf (l : Nat) (g : Lease → Lease) (k : Nat) : (s.updLease l g).chanOf k = s.chanOf k := rfl
@[simp] theorem State.updLease_clkOf (l : Nat) (g : Lease → Lease) (k : Nat) : (s.updLease l g).clkOf k = s.clkOf k := rfl
@[simp] theorem State.updRegion_fnOf (r : Nat) (g : Region → Region) (k : Nat) : (s.updRegion r g).fnOf k = s.fnOf k := rfl
@[simp] theorem State.updRegion_portOf (r : Nat) (g : Region → Region) (k : Nat) : (s.updRegion r g).portOf k = s.portOf k := rfl
@[simp] theorem State.updRegion_leaseOf (r : Nat) (g : Region → Region) (k : Nat) : (s.updRegion r g).leaseOf k = s.leaseOf k := rfl
@[simp] theorem State.updRegion_tileOf (r : Nat) (g : Region → Region) (k : Nat) : (s.updRegion r g).tileOf k = s.tileOf k := rfl
@[simp] theorem State.updRegion_mtileOf (r : Nat) (g : Region → Region) (k : Nat) : (s.updRegion r g).mtileOf k = s.mtileOf k := rfl
@[simp] theorem State.updRegion_streamOf (r : Nat) (g : Region → Region) (k : Nat) : (s.updRegion r g).streamOf k = s.streamOf k := rfl
@[simp] theorem State.updRegion_progOf (r : Nat) (g : Region → Region) (k : Nat) : (s.updRegion r g).progOf k = s.progOf k := rfl
@[simp] theorem State.updRegion_secOf (r : Nat) (g : Region → Region) (k : Nat) : (s.updRegion r g).secOf k = s.secOf k := rfl
@[simp] theorem State.updRegion_chanOf (r : Nat) (g : Region → Region) (k : Nat) : (s.updRegion r g).chanOf k = s.chanOf k := rfl
@[simp] theorem State.updRegion_clkOf (r : Nat) (g : Region → Region) (k : Nat) : (s.updRegion r g).clkOf k = s.clkOf k := rfl

end Sys2Proof.Machine
end

