-- ==== Sys2Proof/Laws/Memory.lean ====
section
/-! SUPPORT. Every memory operation keeps the canonical form of the memories, and what each leaves alone. -/
namespace Sys2Proof.Machine

variable (s : State)

/-- The memories alone decide whether they are in canonical form. -/
theorem Memory.wf_congr {s t : State} (h1 : t.hbm.mem = s.hbm.mem) (h2 : t.hbm.poison = s.hbm.poison)
    (h3 : t.fab.sram = s.fab.sram) (h4 : t.fab.sramPoison = s.fab.sramPoison) (h5 : t.fab.frames = s.fab.frames) :
    Memory.wf t = Memory.wf s := by simp [Memory.wf, h1, h2, h3, h4, h5]

theorem Memory.wf_iff : Memory.wf s = true ↔
    (Table.wf 0 s.hbm.mem = true ∧ Table.wf false s.hbm.poison = true) ∧
    (Table.wf 0 s.fab.sram = true ∧ Table.wf false s.fab.sramPoison = true) ∧ Table.wf 0 s.fab.frames = true := by
  simp [Memory.wf, and_assoc]

theorem Memory.wf_setHbmMem (m : Table Byte) (h : Memory.wf s = true) (hm : Table.wf 0 m = true) :
    Memory.wf (s.setHbmMem m) = true := by
  rw [Memory.wf_iff] at *; exact ⟨⟨hm, h.1.2⟩, h.2⟩
theorem Memory.wf_setHbmPoison (m : Table Bool) (h : Memory.wf s = true) (hm : Table.wf false m = true) :
    Memory.wf (s.setHbmPoison m) = true := by
  rw [Memory.wf_iff] at *; exact ⟨⟨h.1.1, hm⟩, h.2⟩
theorem Memory.wf_setSram (m : Table Byte) (h : Memory.wf s = true) (hm : Table.wf 0 m = true) :
    Memory.wf (s.setSram m) = true := by
  rw [Memory.wf_iff] at *; exact ⟨h.1, ⟨hm, h.2.1.2⟩, h.2.2⟩
theorem Memory.wf_setSramPoison (m : Table Bool) (h : Memory.wf s = true) (hm : Table.wf false m = true) :
    Memory.wf (s.setSramPoison m) = true := by
  rw [Memory.wf_iff] at *; exact ⟨h.1, ⟨h.2.1.1, hm⟩, h.2.2⟩
theorem Memory.wf_setFrames (m : Table Frame) (h : Memory.wf s = true) (hm : Table.wf 0 m = true) :
    Memory.wf (s.setFrames m) = true := by
  rw [Memory.wf_iff] at *; exact ⟨h.1, h.2.1, hm⟩

/-! ### Lease HBM -/

theorem Memory.wf_hbmClearWhole (l a n : Nat) (h : Memory.wf s = true) : Memory.wf (s.hbmClearWhole l a n) = true := by
  unfold State.hbmClearWhole; dsimp only
  split
  · exact Memory.wf_setHbmPoison s _ h (Table.wf_setList false _ _ _ ((Memory.wf_iff s).1 h).1.2)
  · exact h
/-- A write to lease HBM keeps the canonical form. -/
theorem Memory.wf_hbmWrite (l a : Nat) (bs : List Byte) (h : Memory.wf s = true) : Memory.wf (s.hbmWrite l a bs) = true := by
  unfold State.hbmWrite
  exact Memory.wf_hbmClearWhole _ l a _ (Memory.wf_setHbmMem s _ h (Table.wf_setList 0 _ _ _ ((Memory.wf_iff s).1 h).1.1))
theorem Memory.wf_hbmMark (l a n : Nat) (p : Bool) (h : Memory.wf s = true) : Memory.wf (s.hbmMark l a n p) = true := by
  unfold State.hbmMark
  split
  · exact h
  · exact Memory.wf_setHbmPoison s _ h (Table.wf_setList false _ _ _ ((Memory.wf_iff s).1 h).1.2)
theorem Memory.wf_hbmZero (l a n : Nat) (h : Memory.wf s = true) : Memory.wf (s.hbmZero l a n) = true := by
  unfold State.hbmZero
  have h' := (Memory.wf_iff s).1 h
  exact Memory.wf_setHbmPoison _ _ (Memory.wf_setHbmMem s _ h (Table.wf_keep 0 _ _ h'.1.1)) (Table.wf_keep false _ _ h'.1.2)
theorem Memory.wf_hbmErase (l : Nat) (h : Memory.wf s = true) : Memory.wf (s.hbmErase l) = true := by
  unfold State.hbmErase
  have h' := (Memory.wf_iff s).1 h
  exact Memory.wf_setHbmPoison _ _ (Memory.wf_setHbmMem s _ h (Table.wf_keep 0 _ _ h'.1.1)) (Table.wf_keep false _ _ h'.1.2)

/-! ### On-chip SRAM -/

theorem Memory.wf_sramClearWhole (t a n : Nat) (h : Memory.wf s = true) : Memory.wf (s.sramClearWhole t a n) = true := by
  unfold State.sramClearWhole; dsimp only
  split
  · exact Memory.wf_setSramPoison s _ h (Table.wf_setList false _ _ _ ((Memory.wf_iff s).1 h).2.1.2)
  · exact h
theorem Memory.wf_sramMark (t a n : Nat) (p : Bool) (h : Memory.wf s = true) : Memory.wf (s.sramMark t a n p) = true := by
  unfold State.sramMark
  split
  · exact h
  · exact Memory.wf_setSramPoison s _ h (Table.wf_setList false _ _ _ ((Memory.wf_iff s).1 h).2.1.2)
/-- A write to a tile's SRAM keeps the canonical form. -/
theorem Memory.wf_sramWrite (t a : Nat) (bs : List Byte) (p : Bool) (h : Memory.wf s = true) :
    Memory.wf (s.sramWrite t a bs p) = true := by
  unfold State.sramWrite
  have h1 := Memory.wf_sramClearWhole _ t a bs.length
    (Memory.wf_setSram s _ h (Table.wf_setList 0 _ (sramKey t a) bs ((Memory.wf_iff s).1 h).2.1.1))
  dsimp only
  split
  · exact Memory.wf_sramMark _ t a _ true h1
  · exact h1
theorem Memory.wf_sramErase (ts : List Nat) (h : Memory.wf s = true) : Memory.wf (s.sramErase ts) = true := by
  unfold State.sramErase
  have h' := (Memory.wf_iff s).1 h
  exact Memory.wf_setSramPoison _ _ (Memory.wf_setSram s _ h (Table.wf_keep 0 _ _ h'.2.1.1)) (Table.wf_keep false _ _ h'.2.1.2)

/-! ### Frames -/

theorem Memory.wf_setFrame (t i : Nat) (f : Frame) (h : Memory.wf s = true) : Memory.wf (s.setFrame t i f) = true :=
  Memory.wf_setFrames s _ h (Table.wf_set 0 _ _ _ ((Memory.wf_iff s).1 h).2.2)
theorem Memory.wf_frameErase (ts : List Nat) (h : Memory.wf s = true) : Memory.wf (s.frameErase ts) = true :=
  Memory.wf_setFrames s _ h (Table.wf_keep 0 _ _ ((Memory.wf_iff s).1 h).2.2)

/-! ### Merging tables, zeroising and restoring a region -/

theorem wf_mergeTable {α : Type} [DecidableEq α] (d : α) (t add : Table α) (h : t.wf d = true) :
    (mergeTable d t add).wf d = true := Table.wf_foldl_set d add Prod.fst Prod.snd t h
theorem wf_copyKeys {α : Type} [DecidableEq α] (d : α) (src : Table α) (sk : Nat) (dst : Table α) (dk n : Nat)
    (h : dst.wf d = true) : (copyKeys d src sk dst dk n).wf d = true :=
  wf_mergeTable d _ _ (Table.wf_keep d _ _ h)

theorem Memory.wf_zeroiseRegion (r : Nat) (h : Memory.wf s = true) : Memory.wf (zeroiseRegion s r) = true := by
  unfold zeroiseRegion
  exact Memory.wf_frameErase _ _ (Memory.wf_sramErase s _ h)

/-- A pass whose every turn keeps the canonical form keeps it. -/
theorem Memory.wf_foldl {β : Type} (f : State → β → State) (hf : ∀ s b, Memory.wf s = true → Memory.wf (f s b) = true)
    (l : List β) (s : State) (h : Memory.wf s = true) : Memory.wf (l.foldl f s) = true := by
  induction l generalizing s with
  | nil => exact h
  | cons b r ih => exact ih _ (hf _ _ h)

theorem Memory.wf_restoreRegion (l r : Nat) (h : Memory.wf s = true) : Memory.wf (restoreRegion s l r) = true := by
  unfold restoreRegion
  split
  · exact h
  · have h' := (Memory.wf_iff s).1 h
    apply Memory.wf_foldl
    · intro t b ht
      dsimp only
      split
      · exact ht
      · exact ht
    · exact Memory.wf_setSramPoison _ _ (Memory.wf_setSram s _ h (wf_mergeTable 0 _ _ h'.2.1.1)) (wf_mergeTable false _ _ h'.2.1.2)

end Sys2Proof.Machine
end

