-- ==== Sys2Proof/Laws/Ops.lean ====
section
/-! SUPPORT. What the shared frames of the meanings do, said once: a register access through a BAR, a command of the mailbox, an
instruction of a program, a packet that arrives. -/
namespace Sys2Proof.Machine

/-! ### Accesses through a BAR -/

/-- An access through an open BAR acts once the function's earlier register writes are in force. -/
theorem gated_open {s : State} {f : Nat} (h : s.barOpen f = true) (act : State → State) : gated f act s = act (settleRegs f s) := by
  simp [gated, h]
/-- An access through a closed BAR is answered with Unsupported Request. -/
theorem gated_closed {s : State} {f : Nat} (h : s.barOpen f = false) (act : State → State) :
    gated f act s = s.emit (.unsupported f) := by
  simp [gated, h]

/-! ### Commands of the mailbox -/

/-- What a message under way is: in flight, begun, with these bytes. -/
theorem begun_iff {s : State} {fn : Nat} {seq : Word} {b : List Byte} :
    s.begun fn seq b = true ↔
      ∃ x, flightOf s fn seq = some x ∧ x.wait = .begun ∧ entryBytes x.msg.bytes = b := by
  unfold State.begun
  split <;> rename_i h <;> simp [h]
/-- A begun message of opcode `op` has its bytes, its opcode and its lease. -/
theorem asks_iff {s : State} {fn op : Nat} {seq : Word} {b : List Byte} :
    s.asks fn seq op b = true ↔ s.begun fn seq b = true ∧ msgOp b = op ∧ staleStatus s fn op b = none := by
  simp [State.asks, and_assoc]
/-- A begun command of its opcode acts. -/
theorem onCmd_asks {s : State} {fn op : Nat} {seq : Word} {b : List Byte} (h : s.asks fn seq op b = true)
    (act : List Byte → State → State) : onCmd fn seq op none act s = act b s := by
  obtain ⟨hb, ho, hl⟩ := asks_iff.mp h
  obtain ⟨x, hx, hw, he⟩ := begun_iff.mp hb
  simp [onCmd, hx, hw, he, ho, hl]
/-- A begun command of its opcode and sub-operation acts. -/
theorem onCmd_sub {s : State} {fn op k : Nat} {seq : Word} {b : List Byte} (h : s.asks fn seq op b = true)
    (hk : fieldAt b 8 1 = k) (act : List Byte → State → State) : onCmd fn seq op (some k) act s = act b s := by
  obtain ⟨hb, ho, hl⟩ := asks_iff.mp h
  obtain ⟨x, hx, hw, he⟩ := begun_iff.mp hb
  simp [onCmd, hx, hw, he, ho, hk, hl]
/-- A command that no message under way asks for does nothing. -/
theorem onCmd_none {s : State} {fn op : Nat} {seq : Word} {sub : Option Nat} (h : flightOf s fn seq = none)
    (act : List Byte → State → State) : onCmd fn seq op sub act s = s := by
  simp [onCmd, h]

/-- The change of a command in flight is found again under its number. -/
theorem flightOf_updFlight {s : State} {fn : Nat} {seq : Word} {x : Flight} (h : flightOf s fn seq = some x) (g : Flight → Flight)
    (hf : (g x).fn = x.fn) (hm : (g x).msg.seq = x.msg.seq) : flightOf (updFlight s fn seq g) fn seq = some (g x) := by
  unfold flightOf at h ⊢
  simp only [updFlight]
  generalize s.host.flights = l at h ⊢
  induction l with
  | nil => simp at h
  | cons y r ih =>
    by_cases hy : (y.fn == fn && y.msg.seq == seq) = true
    · simp only [List.find?_cons, hy] at h
      cases h
      simp only [List.findIdx?_cons, hy, if_true, List.modify_zero_cons, List.find?_cons, hf, hm]
    · simp only [Bool.not_eq_true] at hy
      simp only [List.find?_cons, hy] at h
      have := ih h
      simp only [List.findIdx?_cons, hy]
      cases hr : r.findIdx? (fun x => x.fn == fn && x.msg.seq == seq) with
      | none => simp [hr, hy] at this ⊢; exact this
      | some i => simp [hr, hy] at this ⊢; exact this

/-! ### Programs -/

/-- A program that may issue an instruction of this opcode issues it. -/
theorem onIssue_issues {s : State} {h op w : Nat} {p : Prog} (hi : s.issues h op p w = true) (act : Prog → Nat → State → State) :
    onIssue h op act s = act { p with lastIssued := p.pc } w s := by
  simp only [State.issues, Bool.and_eq_true, beq_iff_eq] at hi
  obtain ⟨⟨⟨h1, h2⟩, h3⟩, h4⟩ := hi
  simp [onIssue, issueOf, h1, h2, h3, h4]
/-- A program that is not bound issues nothing. -/
theorem onIssue_none {s : State} {h op : Nat} (hp : s.progOf h = none) (act : Prog → Nat → State → State) :
    onIssue h op act s = s := by
  simp [onIssue, issueOf, hp]

/-! ### Packets -/

/-- A packet that may arrive, and that the row takes, leaves the network and acts. -/
theorem arriveKeep_mayArrive {s : State} {i : Nat} {p : Packet} (hp : s.mayArrive i p = true) {ok : Packet → Bool}
    (hk : ok p = true) (act : Packet → State → State × Option Packet) :
    arriveKeep i ok act s = match act p (s.offNet i) with
      | (s2, none) => s2
      | (s2, some q) => s2.putNet i q := by
  simp only [State.mayArrive, Bool.and_eq_true, beq_iff_eq, Bool.not_eq_true', Option.isNone_iff_eq_none] at hp
  obtain ⟨⟨⟨⟨⟨⟨h1, h2⟩, h3⟩, h4⟩, h5⟩, h6⟩, h7⟩ := hp
  have h5' : ¬(p.vn = vnStream ∧ ((dstRegion p).any (fun r => !regionLive s r)) = true) := by
    intro ⟨a, b⟩
    simp [a, b] at h5
  simp only [arriveKeep, h1, hk, h2, h3, h4, h6, h7, if_neg h5']
  rcases act p (s.offNet i) with ⟨t, _ | q⟩ <;> rfl
/-- A packet that may arrive, and that the row takes, leaves the network and is taken whole. -/
theorem arrive_mayArrive {s : State} {i : Nat} {p : Packet} (hp : s.mayArrive i p = true) {ok : Packet → Bool}
    (hk : ok p = true) (act : Packet → State → State) : arrive i ok act s = act p (s.offNet i) := by
  simp [arrive, arriveKeep_mayArrive hp hk]
/-- A place of the network with no packet gives nothing. -/
theorem arrive_none {s : State} {i : Nat} (h : s.fab.net[i]? = none) (ok : Packet → Bool) (act : Packet → State → State) :
    arrive i ok act s = s := by
  simp [arrive, arriveKeep, h]

end Sys2Proof.Machine
end

