-- ==== Sys2Proof/WellFormed.lean ====
section
/-! DEFINITION. When a command names things that some part of Table 3.1 has: the ranges of its operands.  A command that
names a unit which the part at hand lacks is well formed and has no effect (log 7). -/
namespace Sys2Proof

/-- The ranges of a staged group's number. -/
def Group.wf (g : Group) : Bool :=
  match g with
  | .ring f => decide (f < 1028)
  | .evtRing f => decide (f < 1028)
  | .freq d => decide (d < 4)
  | .power => true
  | .scrub => true
  | .hbmArb k => decide (k < 64)

/-- The ranges of the operands of a command. -/
def Instr.wf (i : Instr) : Bool :=
  match i with
  | .registerWrite _ fn _ size _ _ => decide (fn < 1028) && (size == 4 || size == 8)
  | .commit fn g _ => decide (fn < 1028) && g.wf
  | .commitTransfer g => g.wf
  | .ordFlushRead fn _ => decide (fn < 1028)
  | .flushComplete fn => decide (fn < 1028)
  | .mbxPost fn _ => decide (fn < 1028)
  | .mbxPostShort fn size _ => decide (fn < 1028) && (size == 4 || size == 8)
  | .mbxRingConsWrite fn _ => decide (fn < 1028)
  | .evtRingConsWrite fn _ => decide (fn < 1028)
  | .dbRing fn _ => decide (fn < 1028)
  | .doorbellService fn bit => decide (fn < 1028) && decide (bit < 32)
  | .htallySignal fn n _ => decide (fn < 1028) && decide (n < 64)
  | .htallyArm fn n _ => decide (fn < 1028) && decide (n < 64)
  | .hlatchReq fn j _ => decide (fn < 1028) && decide (j < 8)
  | .hlatchRel fn j _ => decide (fn < 1028) && decide (j < 8)
  | .stwLockAcquire fn _ => decide (fn < 1028)
  | .stwLockRelease fn _ => decide (fn < 1028)
  | .htallyLeaseWrite fn _ => decide (fn < 1028)
  | .hostWindowWrite fn _ _ _ => decide (fn < 1028)
  | .windowWriteLands _ => true
  | .hostWindowRead fn _ _ _ _ _ => decide (fn < 1028)
  | .msixVectorUnmask fn v => decide (fn < 1028) && decide (v < 16)
  | .configRequest fn _ => decide (fn < 1028)
  | .bar2Resize fn _ => decide (fn < 1028)
  | .vfEnableClear port => decide (port < 4)
  | .functionLevelReset fn => decide (fn < 1028)
  | .hotReset port => decide (port < 4)
  | .linkDown port => decide (port < 4)
  | .linkUp port => decide (port < 4)
  | .perstAssert port => decide (port < 4)
  | .perstDeassert port => decide (port < 4)
  | .d3hotEntry fn => decide (fn < 1028)
  | .d3coldEntry port => decide (port < 4)
  | .busMasterEnableClear fn => decide (fn < 1028)
  | .functionReady fn => decide (fn < 1028)
  | .messageTake fn => decide (fn < 1028)
  | .messageBegin fn _ => decide (fn < 1028)
  | .queryCaps fn _ => decide (fn < 1028)
  | .queryTilemap fn _ => decide (fn < 1028)
  | .queryHealth fn _ => decide (fn < 1028)
  | .leaseOpen fn _ => decide (fn < 1028)
  | .leaseResize fn _ => decide (fn < 1028)
  | .leaseClose fn _ => decide (fn < 1028)
  | .leaseReclaim fn _ => decide (fn < 1028)
  | .leasePolicyLimits fn _ => decide (fn < 1028)
  | .leasePolicyDemandSigned fn _ => decide (fn < 1028)
  | .leasePolicyKeyInstall fn _ _ _ => decide (fn < 1028)
  | .leasePolicyKeyClear fn _ => decide (fn < 1028)
  | .leasePolicyDoorbellBind fn _ => decide (fn < 1028)
  | .leasePolicyDiePreference fn _ => decide (fn < 1028)
  | .leasePolicyDebugPermission fn _ => decide (fn < 1028)
  | .leasePolicyMaxDormancy fn _ => decide (fn < 1028)
  | .windowMapInbound fn _ => decide (fn < 1028)
  | .windowMapEntry fn _ => decide (fn < 1028)
  | .windowUnmapInbound fn _ => decide (fn < 1028)
  | .windowUnmapEntry fn _ => decide (fn < 1028)
  | .billetSpill fn _ => decide (fn < 1028)
  | .billetFill fn _ => decide (fn < 1028)
  | .zeroFill fn _ => decide (fn < 1028)
  | .ingotStage fn _ _ _ => decide (fn < 1028)
  | .ingotVerify fn _ _ _ => decide (fn < 1028)
  | .ingotEvict fn _ => decide (fn < 1028)
  | .seqStart fn _ _ _ => decide (fn < 1028)
  | .seqStop fn _ => decide (fn < 1028)
  | .seqSuspend fn _ => decide (fn < 1028)
  | .seqResume fn _ => decide (fn < 1028)
  | .fenceCommand fn _ => decide (fn < 1028)
  | .tallyRead fn _ => decide (fn < 1028)
  | .tallySet fn _ => decide (fn < 1028)
  | .solverBind fn _ _ _ => decide (fn < 1028)
  | .solverUnbind fn _ => decide (fn < 1028)
  | .powerPolicyFrequency fn _ => decide (fn < 1028)
  | .powerPolicyModuleCap fn _ => decide (fn < 1028)
  | .powerPolicyLending fn _ => decide (fn < 1028)
  | .powerPolicyScrubCap fn _ => decide (fn < 1028)
  | .stewardInfo fn _ => decide (fn < 1028)
  | .vfPartition fn _ => decide (fn < 1028)
  | .fwStage fn _ _ _ _ => decide (fn < 1028)
  | .fwActivate fn _ => decide (fn < 1028)
  | .quenchEnter fn _ => decide (fn < 1028)
  | .quenchExit fn _ => decide (fn < 1028)
  | .logRead fn _ => decide (fn < 1028)
  | .remapStatus fn _ => decide (fn < 1028)
  | .debugSnapshot fn _ => decide (fn < 1028)
  | .debugUnlockRequest fn _ => decide (fn < 1028)
  | .debugUnlockAnswer fn _ _ _ => decide (fn < 1028)
  | .run h => decide (h < 1024)
  | .runLoadBegin h => decide (h < 1024)
  | .wait h => decide (h < 1024)
  | .waitSatisfied h => decide (h < 1024)
  | .sig h => decide (h < 1024)
  | .br h => decide (h < 1024)
  | .brEvaluate h => decide (h < 1024)
  | .loop h => decide (h < 1024)
  | .fence h => decide (h < 1024)
  | .fenceComplete _ => true
  | .fencePeerRead _ window _ => decide (window < 256)
  | .notify h => decide (h < 1024)
  | .spill h => decide (h < 1024)
  | .fill h => decide (h < 1024)
  | .spillFillComplete _ _ _ => true
  | .halt h => decide (h < 1024)
  | .contextSwap h _ => decide (h < 1024)
  | .sectionStart _ => true
  | .sectionEnd _ => true
  | .bundleIssue tile _ _ _ => decide (tile < 4608)
  | .endsecComplete tile => decide (tile < 4608)
  | .tensorRowComplete tile => decide (tile < 4608)
  | .inletEntryArrival _ => true
  | .streamStart _ => true
  | .prologueStreamStart _ => true
  | .runAheadStart h => decide (h < 1024)
  | .streamAccess _ _ _ => true
  | .billetReadServed _ _ _ => true
  | .mtRead _ _ _ => true
  | .mtWrite _ => true
  | .mtGather _ _ _ => true
  | .mtScatter _ _ _ => true
  | .mtSadd _ _ _ => true
  | .mtIadd _ _ _ => true
  | .mtMax _ _ _ => true
  | .mtMin _ _ _ => true
  | .mtClose _ => true
  | .stallyArrival _ => true
  | .tallySigArrival _ => true
  | .latchAcq _ => true
  | .latchRel _ => true
  | .reduceCombine i j => decide (i ≠ j)
  | .barrierCombine i j => decide (i ≠ j)
  | .flagCombine i j => decide (i ≠ j)
  | .barrierArrival _ => true
  | .flagSend tile oset => decide (tile < 4608) && decide (oset < 8)
  | .flagArrival _ => true
  | .wrAckArrival _ => true
  | .drainArrival _ => true
  | .seamPacket _ region side => decide (region < 64) && decide (side < 4)
  | .packetInject _ => true
  | .flitError _ _ => true
  | .hbmRequestServed pc _ _ => decide (pc < 256)
  | .windowReadComplete _ _ => true
  | .windowWriteSend _ => true
  | .nop engine => decide (engine < 5)
  | .sync engine _ => decide (engine < 5)
  | .frameAddr engine _ => decide (engine < 5)
  | .frameData engine _ _ => decide (engine < 5)
  | .writeCreg engine _ _ => decide (engine < 5)
  | .crcCheck engine _ _ _ => decide (engine < 5)
  | .regionOpen engine lease _ => decide (engine < 5) && decide (lease < 1024)
  | .regionSeal engine _ => decide (engine < 5)
  | .desync engine _ => decide (engine < 5)
  | .columnDrain region col => decide (region < 64) && decide (col < 9)
  | .framePacketArrival _ => true
  | .progressLimit _ => true
  | .sectionTimeout _ => true
  | .regionIdleReport region => decide (region < 64)
  | .regionUngate region => decide (region < 64)
  | .budgetRecall region => decide (region < 64)
  | .regionHandover region _ _ => decide (region < 64)
  | .regionReserve region => decide (region < 64)
  | .leaseDrained lease _ _ => decide (lease < 1024)
  | .drainingLimit lease => decide (lease < 1024)
  | .dormancyExpiry lease => decide (lease < 1024)
  | .problemDescriptor _ => true
  | .problemInputArrived ch _ => decide (ch < 32)
  | .iterationComplete ch _ _ => decide (ch < 32)
  | .prologueComplete ch _ _ => decide (ch < 32)
  | .problemComplete ch _ _ => decide (ch < 32)
  | .solverDeadline ch => decide (ch < 32)
  | .unitOutOfService unit => decide (unit < 28)
  | .scrubLineRead die dom _ _ => decide (die < 4) && decide (dom < 3)
  | .scrubWriteBack die dom => decide (die < 4) && decide (dom < 3)
  | .scrubRestored die dom => decide (die < 4) && decide (dom < 3)
  | .canaryCheck die _ _ _ => decide (die < 4)
  | .tmrVote upset => decide (upset < 3)
  | .runtimeSelfTest region _ _ => decide (region < 64)
  | .spareCalibration die _ _ => decide (die < 4)
  | .durablePageWrite page _ _ => decide (page < 1984)
  | .patinaPageFlush page => decide (page < 1984)
  | .drbgReseed => true
  | .entropyHealthFail => true
  | .entropyRestart _ => true
  | .ideIntegrityFail port stream => decide (port < 4) && decide (stream < 5)
  | .ideKm port stream _ _ => decide (port < 4) && decide (stream < 5)
  | .getVersion port => decide (port < 4)
  | .getCapabilities port => decide (port < 4)
  | .negotiateAlgorithms port _ => decide (port < 4)
  | .getDigests port => decide (port < 4)
  | .getCertificate port _ => decide (port < 4)
  | .challenge port _ => decide (port < 4)
  | .getMeasurements port _ => decide (port < 4)
  | .keyExchange port => decide (port < 4)
  | .finish port _ => decide (port < 4)
  | .endSession port => decide (port < 4)
  | .temperDecisionTick _ => true
  | .clockSlewStep die _ => decide (die < 4)
  | .droop die => decide (die < 4)
  | .quenchTrigger code => decide (1 ≤ code) && decide (code ≤ 6)
  | .quenchTriggerClear code => decide (1 ≤ code) && decide (code ≤ 6)
  | .standbyPresent modId => decide (modId < 8)
  | .standbyLoss => true
  | .j1Valid => true
  | .mainPowerEnable => true
  | .mainPowerGood _ => true
  | .startupRetry => true
  | .startupWatchdog => true
  | .moduleReset code => decide (2 ≤ code) && decide (code ≤ 4)
  | .supplyFault => true
  | .mainPowerLoss => true
  | .j1Reversed => true
  | .leakSample _ => true
  | .flowSample _ => true
  | .thermistorSample _ _ => true
  | .outputFault pin _ => decide (1 ≤ pin) && decide (pin ≤ 40)
  | .i2cBusStuck _ => true
  | .smbusBusHeld => true
  | .mctpPacket _ _ => true
  | .pldmGetSensorReading id => decide (1 ≤ id) && decide (id ≤ 14)
  | .moduleResetRequest => true
  | .quenchTest _ => true
  | .pldmFirmwareUpdate _ => true
  | .activateFirmware => true
  | .sspWord _ => true
  | .sspPartialWord => true
  | .recoveryPackageCheck => true
  | .hbmReadDataArrival _ => true
  | .telemetryUpdate _ => true
  | .ceSummary => true
  | .leaseFreed lease => decide (lease < 1024)
  | .droopRecovery die => decide (die < 4)
  | .jtagInstruction _ => true
  | .trstAssert => true

end Sys2Proof
end

