-- ==== Sys2Proof/Tests/Slice0.lean ====
section
/-! SUPPORT. The model's own tests: a state with the device up and a lease open, from which the witnesses start; ill-formed
commands that the check refuses; and what one command does, with the expected value taken from the spec. -/
namespace Sys2Proof.Tests
set_option Elab.async false
open Sys2Proof.Machine

/-! ### States -/

/-- Port 0 with its link up. -/
def port0 : Port := { linkUp := true, perstHigh := true, released := true }
/-- A function that software has enabled. -/
def fnUp : Fn := { ready := true, mse := true, bme := true }
/-- Lease 1: owned by function 0, regions 0 and 1, one span of die 0, 8 host tallies and 2 host latches. -/
def lease1 : Lease := { st := .opened, owner := 0, regions := 3, spans := [0], tallies := 8, latches := 2, token := 5 }
/-- A die whose clocks run. -/
def clkUp : DieClk := { fclk := 40, fTarget := 40, tclk := 16, tTarget := 16, stopped := false }

/-- The device in READY, with function 0 up, the steward lock held by it, and lease 1 open. -/
def up : State :=
  { State.reset with
    boot := { State.reset.boot with state := 3, step := 12 }
    mod := { State.reset.mod with standby := true, j1 := 1, mainOn := true, mainGood := true }
    sec := { State.reset.sec with seeded := true }
    power := { State.reset.power with dies := [(0, clkUp)] }
    host := { State.reset.host with ports := [(0, port0)], fns := [(0, fnUp)], steward := 0 }
    own := { State.reset.own with leases := [(1, lease1)] } }

/-- `up` with another function 0. -/
def upFn (x : Fn) : State := up.setFn 0 x
/-- `up` with another lease 1. -/
def upLease (x : Lease) : State := up.setLease 1 x

/-- Does a command end in a next state that satisfies `p`? -/
def after (c : Instr) (s : State) (p : State → Bool) : Bool :=
  match exec c s with
  | .next t => p t
  | _ => false

/-! ### Ill-formed commands are refused -/

theorem test_wf_register_write : (Instr.registerWrite false 1028 0 4 0 false).wf = false ∧
    (Instr.registerWrite false 0 0 2 0 false).wf = false ∧ (Instr.registerWrite false 1027 0 8 0 true).wf = true := by decide
theorem test_wf_groups : (Instr.commitTransfer (.freq 4)).wf = false ∧ (Instr.commit 0 (.hbmArb 64) 0).wf = false ∧
    (Instr.commitTransfer (.ring 1028)).wf = false ∧ (Instr.commitTransfer .power).wf = true := by decide
theorem test_wf_bits : (Instr.doorbellService 0 32).wf = false ∧ (Instr.htallySignal 0 64 0).wf = false ∧
    (Instr.hlatchReq 0 8 0).wf = false ∧ (Instr.msixVectorUnmask 0 16).wf = false := by decide
theorem test_wf_ports : (Instr.hotReset 4).wf = false ∧ (Instr.ideKm 0 5 0 0).wf = false ∧ (Instr.linkUp 3).wf = true := by
  decide
theorem test_wf_programs : (Instr.run 1024).wf = false ∧ (Instr.fencePeerRead (.program 0) 256 true).wf = false := by decide
theorem test_wf_tiles : (Instr.bundleIssue 4608 0 .clean none).wf = false ∧ (Instr.flagSend 0 8).wf = false ∧
    (Instr.bundleIssue 4607 0 .clean (some (.pred 3))).wf = true := by decide
theorem test_wf_network : (Instr.reduceCombine 3 3).wf = false ∧ (Instr.seamPacket 0 64 0).wf = false ∧
    (Instr.seamPacket 0 63 4).wf = false := by decide
theorem test_wf_units : (Instr.sync 5 0).wf = false ∧ (Instr.hbmRequestServed 256 0 .clean).wf = false ∧
    (Instr.columnDrain 0 9).wf = false ∧ (Instr.regionHandover 64 0 .clean).wf = false ∧ (Instr.leaseFreed 1024).wf = false ∧
    (Instr.iterationComplete 32 0 .clean).wf = false ∧ (Instr.unitOutOfService 28).wf = false := by decide
theorem test_wf_repair : (Instr.scrubLineRead 0 3 0 .clean).wf = false ∧ (Instr.tmrVote 3).wf = false ∧
    (Instr.durablePageWrite 1984 [] 0).wf = false ∧ (Instr.spareCalibration 4 0 .clean).wf = false := by decide
theorem test_wf_module : (Instr.quenchTrigger 0).wf = false ∧ (Instr.standbyPresent 8).wf = false ∧
    (Instr.moduleReset 1).wf = false ∧ (Instr.outputFault 41 true).wf = false ∧
    (Instr.pldmGetSensorReading 15).wf = false := by decide

/-! ### What one command does -/

/-- A post takes sequence number 0 (16 R386). -/
theorem test_post : after (.mbxPost 0 1) up (fun t => ((t.fnOf 0).queue.map (fun m => m.seq) == [0]) &&
    (t.fnOf 0).nextSeq == 1) = true := by decide +kernel
/-- A post to a full queue is rejected (16 R386). -/
theorem test_post_full :
    after (.mbxPost 0 1) (upFn { fnUp with queue := List.replicate 32 { seq := 0, bytes := 0 }, nextSeq := 32 })
      (fun t => (t.fnOf 0).rejectValid && (t.fnOf 0).lastRejectSeq == 32 && t.out == [.errMessage 0 false]) = true := by
  decide +kernel
/-- A misaligned access discards its write (00 R6). -/
theorem test_misaligned : after (.registerWrite false 0 0x1002 4 7 false) up (fun t => (t.fnOf 0).msg == 0) = true := by
  decide +kernel
/-- HTALLY_SIGNAL wraps modulo 65,536 (09 R213). -/
theorem test_tally_wraps : after (.htallySignal 0 3 2)
    ((upFn { fnUp with htLease := 1 }).setLease 1 { lease1 with htally := [(3, { value := 0xFFFF })] })
      (fun t => ((t.leaseOf 1).htally.get {} 3).value == 1) = true := by decide +kernel
/-- The wait condition at its boundary (09 R214). -/
theorem test_wait_boundary : waitHolds 32767 0 = true ∧ waitHolds 32768 0 = false ∧ waitHolds 0 1 = false ∧
    waitHolds 0 0x8001 = true := by decide
/-- A release by another PF leaves the steward lock (17 R412). -/
theorem test_steward_release : after (.stwLockRelease 257 2)
    { up with host := { up.host with ports := [(0, port0), (1, port0)], fns := [(0, fnUp), (257, fnUp)] } }
      (fun t => t.host.steward == 0) = true := by decide +kernel
/-- A doorbell's service clears its bit (09 R225). -/
theorem test_doorbell : after (.doorbellService 0 31) (upFn { fnUp with dbRing := 0x80000001 })
    (fun t => (t.fnOf 0).dbRing == 1) = true := by decide +kernel
/-- A read of ORD_FLUSH with no write under way completes with 0 (15 R377). -/
theorem test_flush : after (.flushComplete 0) (upFn { fnUp with flushes := [([], true)] })
    (fun t => t.out == [.completion 0 [0, 0, 0, 0] false true] && (t.fnOf 0).flushes == []) = true := by decide +kernel
/-- A write through a window lands at its lease address (15 R367). -/
theorem test_window_lands : after (.windowWriteLands 7)
    { upFn { fnUp with windows := [(2, some { lease := 1, barOff := 0, length := 4096, hbmOff := 8192, writable := true })] } with
      host := { (upFn { fnUp with windows := [(2, some { lease := 1, barOff := 0, length := 4096, hbmOff := 8192, writable := true })] }).host
        with writes := [{ id := 7, fn := 0, window := 2, lease := 1, addr := 8192, barOff := 0, data := [some 0xAB], ep := false }] } }
      (fun t => t.hbmByte 1 8192 == 0xAB && t.host.writes.isEmpty) = true := by decide +kernel
/-- CRC-32C of "123456789" is E3069283. -/
theorem test_crc32c : crc32c [0x31, 0x32, 0x33, 0x34, 0x35, 0x36, 0x37, 0x38, 0x39] = 0xE3069283 := by decide +kernel
/-- A vendor's JTAG instruction stops the model by name after a debug unlock (19 R467). -/
theorem test_vendor : exec (.jtagInstruction 9) { up with sec := { up.sec with debugUnlocked := true } } =
    .fault (.vendorInstruction 9) := rfl
/-- Before a debug unlock any other code selects the bypass register (19 R467). -/
theorem test_bypass : after (.jtagInstruction 9) up (fun t => t.mod.jtagIr == 1) = true := by decide +kernel
/-- Quench entry by a leak drives QUENCH# and stops the clocks (20 R495, R496). -/
theorem test_quench : after (.quenchTrigger 3) up (fun t => t.boot.state == 5 && t.mod.quenchDrive && (t.clkOf 0).stopped &&
    t.power.cause == 3) = true := by decide +kernel
/-- A clock moves one 25 MHz step (20 R480). -/
theorem test_slew : after (.clockSlewStep 0 false) (up.setClk 0 { clkUp with fTarget := 38 })
    (fun t => (t.clkOf 0).fclk == 39) = true := by decide +kernel
/-- −2^64 in compact form (04 R97). -/
theorem test_compact : ({ i := -(2 ^ 64) } : Sterling).compact.bytes = [0x01, 0x04, 0, 0, 0, 0, 0, 0, 0, 0] := by
  decide +kernel
/-- −2^64 and −1. -/
def minus64 : Sterling := { i := -(2 ^ 64) }
def minus1 : Sterling := { i := -1 }
/-- Limb 0 of the one is the highest that is no copy of the sign, and every limb of the other is a copy. -/
theorem witness_SterlingCompactRoundTrip : limbOf minus64.wide 0 ≠ fillLimb minus64.compact.fill ∧
    (∀ k, k < 10 → 0 < k → limbOf minus64.wide k = fillLimb minus64.compact.fill) ∧
    (∀ k, k < 10 → limbOf minus1.wide k = fillLimb minus1.compact.fill) := by decide +kernel
/-- −1 in compact form (04 R97). -/
theorem test_compact_one : ({ i := -1 } : Sterling).compact.bytes = [0x00, 0x04] := by decide +kernel
/-- A leak reading's class by the median of the last five (22 R531). -/
theorem test_leak : after (.leakSample 100) { up with mod := { up.mod with leak := [2000, 2000, 1300, 1300] } }
    (fun t => t.mod.leakClass == 0 && t.power.triggers == 0) = true := by decide +kernel
/-- GET_VERSION answers 1.2 (19 R462). -/
theorem test_spdm : after (.getVersion 0) up (fun t => t.out == [.doe 0 4 true [0x12]]) = true := by decide +kernel

end Sys2Proof.Tests
end

