-- ==== Sys2Proof/Tests/Mailbox.lean ====
section
/-! SUPPORT. Witnesses: for each statement about a command of the mailbox, concrete states and messages that meet the hypotheses
of each of its clauses. -/
namespace Sys2Proof.Tests
set_option Elab.async false
open Sys2Proof.Machine

/-- A message: opcode, lease, and its bytes from byte 8. -/
def message (op lease : Nat) (rest : List Byte) : Entry :=
  entryOf ([BitVec.ofNat 8 op, 0, 0, 0] ++ leBytes lease 2 ++ [0, 0] ++ rest)
/-- The state with that message of function 0 begun, as number 9. -/
def asking (s : State) (op lease : Nat) (rest : List Byte) : State :=
  { s with host := { s.host with flights := [{ fn := 0, msg := { seq := 9, bytes := message op lease rest }, wait := .begun }] } }
/-- Does that state ask for the command, and meet `p`? -/
def asks (s : State) (op lease : Nat) (rest : List Byte) (p : State → List Byte → Bool) : Bool :=
  let t := asking s op lease rest
  let b := entryBytes (message op lease rest)
  t.asks 0 9 op b && p t b

/-- A section of lease 1 that runs on region 0. -/
def sec1 : Section := { prog := 6, lease := 1, slot := 0, instr := 0, roll := false, origin := 0, placed := [(0, 0)], phase := .running }
/-- `up` with it. -/
def running : State := up.setSec 4 (some sec1)
/-- A program of lease 1. -/
def prog6 : Prog := { lease := 1, fn := 0, tag := 2, seq := 3, code := [] }
/-- `up` with it bound. -/
def bound6 : State := up.setProg 6 (some prog6)
/-- `up` without a steward. -/
def noSteward : State := { up with host := { up.host with steward := 0xFFFF } }

theorem witness_DiscoveryCommands : asks up 1 0xFFFF [] (fun _ _ => true) = true ∧
    asks up 2 0xFFFF (leBytes 32 8) (fun _ b => fieldAt b 8 8 % 64 != 0) = true ∧
    asks up 2 0xFFFF (leBytes 64 8) (fun t b => fieldAt b 8 8 % 64 == 0 && t.canSend 0) = true ∧
    asks (upFn { fnUp with bme := false }) 2 0xFFFF (leBytes 64 8) (fun t b => fieldAt b 8 8 % 64 == 0 && !(t.canSend 0)) = true ∧
    asks up 3 0xFFFF [] (fun _ _ => true) = true := by decide +kernel

/-- LEASE_OPEN: regions, host tallies, host latches, spans, die preference, region mask. -/
def openArgs (n ht hl spans pref mask : Nat) : List Byte :=
  leBytes n 1 ++ leBytes ht 1 ++ leBytes hl 1 ++ [0] ++ leBytes spans 2 ++ leBytes pref 1 ++ [0] ++ leBytes mask 8
/-- What LEASE_OPEN would grant. -/
def grantOf (t : State) (b : List Byte) : Bool :=
  !t.sec.debugUnlocked && drbgOk t &&
    (openGrant t 0 (fieldAt b 8 1) (fieldAt b 9 1) (fieldAt b 10 1) (fieldAt b 12 2) (fieldAt b 14 1) (fieldAt b 16 8)).isSome
theorem witness_LeaseOpenGrants : asks up 0x10 0xFFFF (openArgs 1 64 8 1 15 0) grantOf = true ∧
    asks up 0x10 0xFFFF (openArgs 2 0 0 3 0 5) (fun t b => grantOf t b && (maskRegions 5).length == 2 &&
      (maskRegions 5).all (fun r => decide (r < t.nRegions))) = true ∧
    asks { up with host := { up.host with limits := [(0, some 1)] } } 0x10 0xFFFF (openArgs 64 0 0 1 0 0)
      (fun t b => !(grantOf t b) && drbgOk t && !t.sec.debugUnlocked) = true ∧
    asks { up with sec := { up.sec with debugUnlocked := true } } 0x10 0xFFFF (openArgs 1 0 0 1 0 0) (fun t _ => t.sec.debugUnlocked) = true := by decide +kernel

/-- Lease 1, dormant. -/
def lease1D : Lease := { lease1 with st := .dormant }
/-- A LEASE_RECLAIM of lease `x` that met the conditions when it was taken, or did not. -/
def reclaiming (met : Bool) (x : Lease) (s : State) (p : State → List Byte → Bool) : Bool :=
  asks (s.setLease 1 x) 0x13 1 (leBytes 5 16) (fun t b =>
    p { t with host := { t.host with flights := t.host.flights.map (fun f => { f with reclaim := met }) } } b)
/-- Behind another that met them. -/
def behind1 (s : State) : State :=
  { s with host := { s.host with
      flights := { fn := 0, msg := { seq := 8, bytes := message 0x13 1 (leBytes 5 16) }, reclaim := true } :: s.host.flights } }
theorem witness_LeaseResizeCloseReclaim :
    asks bound6 0x11 1 (leBytes 1 8 ++ leBytes 3 8) (fun t b => decide (1 ≤ fieldAt b 8 2) &&
      (maskRegions 3).all (fun r => decide (r < t.nRegions)) && t.bound.any (fun e => e.2.lease == 1)) = true ∧
    asks up 0x11 1 (leBytes 2 8 ++ leBytes 7 8) (fun t _ => !(t.bound.any (fun e => e.2.lease == 1)) &&
      !(windowAbove t 1 (spanBytes * 2)) && (maskRegions 3).all (fun r => (t.regionOf r).emulation.isNone) &&
      (let u := shrunk 1 2 7 t
       match placeSpans u 0 1 (stackFree u) with
       | some p => (placeSaves [2] p.2).isSome && grantable t 2
       | none => false)) = true ∧
    asks up 0x12 1 [] (fun t _ => leaseStill t 1 && (t.leaseOf 1).st != .closing) = true ∧
    reclaiming true lease1D up (fun t b => drbgOk t && !(reclaimBefore t 0 9 1) &&
      mayReclaim t 0 9 (t.leaseOf 1) (BitVec.ofNat 128 (fieldAt b 8 16)) && decide ((t.openOf 0).length < t.limitOf 0)) = true ∧
    reclaiming true lease1D { up with host := { up.host with limits := [(0, some 0)] } } (fun t b => drbgOk t &&
      !(reclaimBefore t 0 9 1) && mayReclaim t 0 9 (t.leaseOf 1) (BitVec.ofNat 128 (fieldAt b 8 16)) &&
      decide (t.limitOf 0 ≤ (t.openOf 0).length)) = true ∧
    reclaiming false lease1D up (fun t b => drbgOk t && !(reclaimBefore t 0 9 1) &&
      !(mayReclaim t 0 9 (t.leaseOf 1) (BitVec.ofNat 128 (fieldAt b 8 16)))) = true ∧
    (let t := behind1 (asking (upLease lease1D) 0x13 1 (leBytes 5 16))
     t.asks 0 9 0x13 (entryBytes (message 0x13 1 (leBytes 5 16))) = true ∧ reclaimBefore t 0 9 1 = true) ∧
    reclaimMet (upLease lease1D) 0 (entryBytes (message 0x13 1 (leBytes 5 16))) = true := by decide +kernel

theorem witness_LeaseEnds :
    (let s := upLease { lease1 with st := .draining }
     (s.leaseOf 1).st = .draining ∧ ∀ e ∈ s.secs, e.2.lease ≠ 1) ∧
    (let s := { upLease { lease1 with st := .dormant, maxDormS := 1 } with sclk := 25000001 }
     (s.leaseOf 1).st = .dormant ∧ (s.leaseOf 1).maxDormS ≠ 0 ∧
       (s.leaseOf 1).maxDormS * 25000000 < s.sclk - (s.leaseOf 1).dormAt ∧ s.host.flights = []) ∧
    (let s := upLease { lease1 with st := .closing }
     (s.leaseOf 1).st = .closing ∧ leaseStill s 1 = true) ∧
    (let s := { upLease { lease1 with st := .draining, drainAt := 5 } with sclk := 25000005 }
     (s.leaseOf 1).st = .draining ∧ 25000000 ≤ s.sclk - (s.leaseOf 1).drainAt) := by decide +kernel

/-- LEASE_POLICY: sub-operation, and the bytes from byte 12. -/
def policy (sub : Nat) (rest : List Byte) : List Byte := leBytes sub 4 ++ rest
theorem witness_LeasePolicyCommands :
    asks up 0x14 1 (policy 0 (leBytes 10000 4)) (fun _ b => fieldAt b 8 1 == 0 && fieldAt b 12 4 == 10000) = true ∧
    asks up 0x14 1 (policy 0 (leBytes 4 4)) (fun _ b => fieldAt b 12 4 == 4) = true ∧
    asks up 0x14 1 (policy 1 [1]) (fun t b => fieldAt b 12 1 == 1 && !(t.leaseOf 1).demandSigned) = true ∧
    asks (upLease { lease1 with demandSigned := true }) 0x14 1 (policy 1 [0]) (fun t b => fieldAt b 12 1 == 0 && (t.leaseOf 1).demandSigned) = true ∧
    asks up 0x14 1 (policy 2 ([7, 0, 0, 0] ++ leBytes (67108864 - 96) 8)) (fun t b => !(t.leaseOf 1).demandSigned &&
      fieldAt b 12 1 == 7 && t.inLease 1 (fieldAt b 16 8) 96) = true ∧
    asks (upLease { lease1 with demandSigned := true }) 0x14 1 (policy 2 [0]) (fun t b => fieldAt b 8 1 == 2 && (t.leaseOf 1).demandSigned) = true ∧
    asks up 0x14 1 (policy 3 [7]) (fun t b => !(t.leaseOf 1).demandSigned && fieldAt b 12 1 == 7) = true ∧
    asks (upLease { lease1 with demandSigned := true }) 0x14 1 (policy 3 [0]) (fun t _ => (t.leaseOf 1).demandSigned) = true ∧
    asks up 0x14 1 (policy 4 [31, 1, 7]) (fun t b => fieldAt b 12 1 == 31 && fieldAt b 13 1 == 1 &&
      decide (fieldAt b 14 1 < (t.leaseOf 1).tallies)) = true ∧
    asks up 0x14 1 (policy 4 [31, 0]) (fun _ b => fieldAt b 13 1 == 0) = true ∧
    asks up 0x14 1 (policy 5 [15]) (fun _ b => fieldAt b 8 1 == 5 && fieldAt b 12 1 == 15) = true ∧
    asks up 0x14 1 (policy 0x10 [1]) (fun t b => t.isSteward 0 && fieldAt b 8 1 == 0x10 && !(t.sec.policy.getLsbD 3)) = true ∧
    asks noSteward 0x14 1 (policy 0x10 [1]) (fun t _ => !(t.isSteward 0)) = true ∧
    asks up 0x14 1 (policy 0x11 (leBytes 60 4)) (fun t b => t.isSteward 0 && fieldAt b 8 1 == 0x11) = true ∧
    asks noSteward 0x14 1 (policy 0x11 []) (fun t _ => !(t.isSteward 0)) = true := by decide +kernel

/-- WINDOW_MAP: kind, index, attributes, and the three 64-bit arguments. -/
def mapArgs (kind i attr a b c : Nat) : List Byte :=
  leBytes kind 1 ++ leBytes i 1 ++ leBytes attr 6 ++ leBytes a 8 ++ leBytes b 8 ++ leBytes c 8
/-- An entry of lease 1's window list. -/
def entry1 : WinEntry := { busAddr := 4096, length := 4096, read := true, write := true, peer := false, runAheadSafe := false }
/-- A window of lease 1. -/
def win2 : InWin := { lease := 1, barOff := 0, length := 2097152, hbmOff := 0, writable := true }
theorem witness_WindowCommands :
    asks up 0x20 1 (mapArgs 0 15 1 0 67108864 0) (fun t b => fieldAt b 8 1 == 0 && fieldAt b 9 1 == 15 && fieldAt b 10 1 == 1 &&
      t.inLease 1 0 67108864 && decide (0 + 67108864 ≤ 2 ^ (t.fnOf 0).bar2Log2) && (t.fnOf 0).windows == []) = true ∧
    asks (upFn { fnUp with windows := [(15, some win2)] }) 0x20 1 (mapArgs 0 15 1 2097152 2097152 0)
      (fun t b => (t.fnOf 0).windows == [(15, some win2)] && fieldAt b 16 8 == 2097152 && t.inLease 1 0 2097152) = true ∧
    asks up 0x20 1 (mapArgs 1 255 15 4096 (2 ^ 40) 0) (fun t b => fieldAt b 8 1 == 1 && fieldAt b 10 1 == 15 &&
      fieldAt b 24 8 == 2 ^ 40 && (t.leaseOf 1).entries.get none 255 == none) = true ∧
    asks (upLease { lease1 with entries := [(3, some entry1)] }) 0x20 1 (mapArgs 1 3 3 4096 4096 0)
      (fun t b => fieldAt b 8 1 == 1 && (t.leaseOf 1).entries.get none 3 != none) = true ∧
    asks (upFn { fnUp with windows := [(15, some win2)] }) 0x21 1 (mapArgs 0 15 0 0 0 0)
      (fun t b => fieldAt b 8 1 == 0 && (t.fnOf 0).windows.get none 15 == some win2) = true ∧
    asks (upLease { lease1 with entries := [(3, some entry1)] }) 0x21 1 (mapArgs 1 3 0 0 0 0)
      (fun t b => fieldAt b 8 1 == 1 && (t.leaseOf 1).entries.get none 3 != none && !(entryInUse t 1 3)) = true ∧
    asks up 0x24 1 (mapArgs 0 0 0 4096 (67108864 - 4096) 0) (fun t b => t.inLease 1 (fieldAt b 16 8) (fieldAt b 24 8) &&
      Table.wf 0 t.hbm.mem && decide (t.leaseBytes 1 ≤ 2 ^ 40) && !(leaseRuns t 1 true)) = true ∧
    asks running 0x24 1 (mapArgs 0 0 0 0 4096 0) (fun t _ => t.inLease 1 0 4096 && leaseRuns t 1 true) = true := by decide +kernel

/-- An emulated channel whose slot 3 is in use. -/
def emu3 : State := up.setChan 0 { lease := some 1, emulated := true, region := 0, emuSlot := 3 }
theorem witness_IngotCommands :
    asks up 0x30 1 (mapArgs 63 0 0 0 0 0) (fun t b => (t.leaseOf 1).slots.get none 63 == none &&
      (stagingChecks t 1 (fieldAt b 16 8)).1 != .ok) = true ∧
    asks (upLease { lease1 with slots := [(63, some { image := [] })] }) 0x30 1 (mapArgs 63 0 0 0 0 0)
      (fun t _ => (t.leaseOf 1).slots.get none 63 != none) = true ∧
    asks up 0x31 1 [] (fun _ _ => true) = true ∧
    asks emu3 0x32 1 [3] (fun t _ => slotInUse t 1 3) = true ∧
    asks up 0x32 1 [63] (fun t b => fieldAt b 8 1 == 63 && !(slotInUse t 1 63)) = true := by decide +kernel

/-- SEQ_START: the program's place and length. -/
def startArgs (off n : Nat) : List Byte := leBytes 0 8 ++ leBytes off 8 ++ leBytes n 2
/-- Lease memory with a HALT, 0x0A in bits [63:58], at byte 0. -/
def halted (s : State) : State := s.hbmWrite 1 0 (leBytes (0x0A * 2 ^ 58) 8)
/-- Eight bound programs of lease 1. -/
def bound8 : State := (List.range 8).foldl (fun s h => s.setProg h (some prog6)) up
/-- 129 of them: the first waits and has a context to give up. -/
def bound129 : State :=
  let ps := (0, some { prog6 with wait := .halt, ctx := some 5 }) :: (List.range 128).map (fun h => (h + 1, some prog6))
  { up with seq := { up.seq with progs := ps } }
theorem witness_ProgramCommands :
    asks (halted up) 0x40 1 (startArgs 0 1) (fun t b => fieldAt b 24 2 == 1 && t.inLease 1 0 8 && !(t.hbmAnyPoison 1 0 8) &&
      !(programBad t 1 ((programWords t 1 0 1).map BitVec.toNat)) &&
      decide ((t.bound.filter (fun e => e.2.lease == 1)).length < 8) && decide (t.bound.length < 1024)) = true ∧
    asks up 0x40 1 (startArgs 0 1) (fun t _ => programBad t 1 ((programWords t 1 0 1).map BitVec.toNat)) = true ∧
    asks (halted bound8) 0x40 1 (startArgs 0 1) (fun t _ => !(programBad t 1 ((programWords t 1 0 1).map BitVec.toNat)) &&
      decide (8 ≤ (t.bound.filter (fun e => e.2.lease == 1)).length)) = true ∧
    asks bound6 0x41 1 [6, 0, 0] (fun t b => cmdProg t b == some (6, prog6) && fieldAt b 10 1 == 0) = true ∧
    asks bound6 0x41 1 [6, 0, 1] (fun t b => cmdProg t b == some (6, prog6) && fieldAt b 10 1 == 1) = true ∧
    asks bound6 0x42 1 [6] (fun t b => cmdProg t b == some (6, prog6) &&
      ((cancelPending (t.setProg 6 (some { prog6 with suspended := true })) 6).runningOf 6).isEmpty) = true ∧
    asks (bound6.setSec 4 (some sec1)) 0x42 1 [6] (fun t b => cmdProg t b == some (6, prog6) &&
      !((cancelPending (t.setProg 6 (some { prog6 with suspended := true })) 6).runningOf 6).isEmpty) = true ∧
    asks bound6 0x43 1 [6] (fun t b => cmdProg t b == some (6, prog6)) = true ∧
    asks up 0x44 1 [] (fun t _ => unsentEnded t 1 == [] && (t.leaseOf 1).peerWins == []) = true ∧
    asks (upLease { lease1 with peerWins := [3] }) 0x44 1 [] (fun t _ => (t.leaseOf 1).peerWins != []) = true ∧
    bound129.progOf 0 = some { prog6 with wait := .halt, ctx := some 5 } ∧ 128 < bound129.bound.length ∧
    mayLeave bound129 0 { prog6 with wait := .halt, ctx := some 5 } = true ∧
    bound6.progOf 6 = some prog6 ∧ prog6.ctx = none ∧ freeContext bound6 = some 0 := by decide +kernel

/-- Without engines: Engine 3 of die 0 out of service. -/
def noEngine : State := outOfService 12 up
theorem witness_TallyChannelBilletCommands :
    asks up 0x50 1 [0, 8] (fun t b => (tallyArg t b).isNone) = true ∧ asks up 0x50 1 [0, 7] (fun t b => (tallyArg t b).isSome) = true ∧
    asks noSteward 0x51 1 [0, 7] (fun t _ => !(mayDebug t 0 1)) = true ∧
    asks up 0x51 1 [0, 7] (fun t b => mayDebug t 0 1 && (tallyArg t b).isSome) = true ∧
    asks (outOfService 27 up) 0x58 1 [0, 0] (fun t b => decide (fieldAt b 8 1 < t.nChans) && !(t.usable 27)) = true ∧
    asks (up.setChan 0 { lease := some 2 }) 0x58 1 [0, 2, 0, 0, 1] (fun t b => t.usable 27 && fieldAt b 9 1 == 2 && fieldAt b 12 4 == 1 &&
      (t.chanOf 0).lease == some 2) = true ∧
    asks (up.setChan 0 { lease := some 1 }) 0x58 1 [0, 0] (fun t _ => t.usable 27 && (t.chanOf 0).lease == some 1 && engineServes t 0) = true ∧
    asks up 0x58 1 [0, 0] (fun t _ => t.usable 27 && (t.chanOf 0).lease == none && engineServes t 0) = true ∧
    asks noEngine 0x58 1 [0, 0] (fun t _ => t.usable 27 && (t.chanOf 0).lease == none && !(engineServes t 0) &&
      (bindEmulated 1 0 0 0 0 .clean (problemLost 0 t)).isSome) = true ∧
    asks (noEngine.setChan 0 { lease := some 1 }) 0x58 1 [0, 0] (fun t _ => t.usable 27 && (t.chanOf 0).lease == some 1 &&
      !(t.chanOf 0).emulated && !(engineServes t 0) && (bindEmulated 1 0 0 0 0 .clean (problemLost 0 t)).isSome) = true ∧
    asks (noEngine.updLease 1 (fun x => { x with regions := 0 })) 0x58 1 [0, 0] (fun t _ => t.usable 27 && !(engineServes t 0) &&
      (bindEmulated 1 0 0 0 0 .clean (problemLost 0 t)).isNone) = true ∧
    asks (up.setChan 0 { lease := some 1 }) 0x59 1 [0] (fun t _ => (t.chanOf 0).lease == some 1 && !(chanNamed t 1 0) &&
      !(t.chanOf 0).emulated) = true ∧
    asks up 0x22 1 [1, 2] (fun t _ => moveOk t { fill := false, lease := 1, region := 1, scope := 2, hbmOff := 0 } && !(leaseRuns t 1 true)) = true ∧
    asks running 0x23 1 [0, 0] (fun t _ => moveOk t { fill := true, lease := 1, region := 0, scope := 0, hbmOff := 0 } && leaseRuns t 1 true) = true ∧
    asks up 0x23 1 [2, 0] (fun t _ => !(moveOk t { fill := true, lease := 1, region := 2, scope := 0, hbmOff := 0 })) = true := by
  decide +kernel

theorem witness_PowerAndStewardCommands :
    asks up 0x60 0xFFFF ([0, 0] ++ leBytes 2000 2 ++ leBytes 800 2 ++ leBytes 400 2) (fun t b => (fieldAt b 8 1 == 0 && decide (0 < t.nDies)) &&
      !(t.groupOf (.freq 0)).pending && freqOk (fieldAt b 10 2) 800 && freqOk (fieldAt b 12 2) 800 && freqOk (fieldAt b 14 2) 400) = true ∧
    asks up 0x60 0xFFFF ([1, 0] ++ leBytes 400 2) (fun t b => fieldAt b 10 2 == 400 && !(t.groupOf .power).pending) = true ∧
    asks up 0x60 0xFFFF ([1, 0] ++ leBytes 1601 2) (fun _ b => decide (1600 < fieldAt b 10 2)) = true ∧
    asks up 0x60 0xFFFF [2, 1] (fun t b => fieldAt b 8 1 == 2 && !(t.groupOf .power).pending) = true ∧
    asks up 0x60 0xFFFF [3, 2, 100] (fun t b => fieldAt b 8 1 == 3 && fieldAt b 10 1 == 100 && !(t.groupOf .scrub).pending) = true ∧
    asks up 0x70 0xFFFF [] (fun _ _ => true) = true ∧
    asks up 0x71 0xFFFF (leBytes 0 2 ++ leBytes up.nLeases 2) (fun t b => t.fnExists (fieldAt b 8 2) && decide (fieldAt b 10 2 ≤ t.nLeases)) = true ∧
    asks up 0x71 0xFFFF (leBytes 0xFFFF 2) (fun t b => !(t.fnExists (fieldAt b 8 2))) = true ∧
    asks { up with boot := { up.boot with slots := [(1, { state := 2 })] } } 0x73 0xFFFF [1, 0] (fun t b =>
      (t.boot.slots.get {} (fieldAt b 8 1)).state == 2 && fieldAt b 9 1 == 0) = true ∧
    asks { up with boot := { up.boot with slots := [(1, { state := 2 })] } } 0x73 0xFFFF [1, 1] (fun t b =>
      (t.boot.slots.get {} (fieldAt b 8 1)).state == 2 && fieldAt b 9 1 == 1 && !t.quenched && t.bound == []) = true ∧
    asks { bound6 with boot := { up.boot with slots := [(1, { state := 2 })] } } 0x73 0xFFFF [1, 1] (fun t b =>
      (t.boot.slots.get {} (fieldAt b 8 1)).state == 2 && fieldAt b 9 1 == 1 && t.bound != []) = true ∧
    asks up 0x74 0xFFFF [] (fun _ _ => true) = true ∧
    asks { up with power := { up.power with triggers := 1 } } 0x75 0xFFFF [] (fun t _ => t.power.triggers != 0) = true ∧
    asks { up with boot := { up.boot with state := 5 } } 0x75 0xFFFF [] (fun t _ => t.power.triggers == 0 && t.boot.state == 5) = true ∧
    asks up 0x75 0xFFFF [] (fun t _ => t.power.triggers == 0 && t.boot.state != 5) = true := by
  decide +kernel

/-- LOG_READ: the first record and the count. -/
def logArgs (first n : Nat) : List Byte := leBytes first 4 ++ leBytes n 4
theorem witness_LogAndDebugCommands :
    asks { up with ras := { up.ras with logNext := 31233 } } 0x76 0xFFFF (logArgs 0 2) (fun t b => t.canSend 0 &&
      decide (max (fieldAt b 8 4) (t.ras.logNext - 31232) < min (fieldAt b 8 4 + fieldAt b 12 2) t.ras.logNext)) = true ∧
    asks up 0x76 0xFFFF (logArgs 0 2) (fun t b => t.canSend 0 &&
      decide (min (fieldAt b 8 4 + fieldAt b 12 2) t.ras.logNext ≤ max (fieldAt b 8 4) (t.ras.logNext - 31232))) = true ∧
    asks up 0x77 0xFFFF [] (fun _ _ => true) = true ∧
    asks noSteward 0x7E 1 [] (fun t _ => !(mayDebug t 0 1)) = true ∧ asks up 0x7E 1 [] (fun t _ => mayDebug t 0 1 && t.canSend 0) = true ∧
    asks up 0x7F 0xFFFF [0] (fun t b => fieldAt b 8 1 == 0 && drbgOk t) = true ∧
    asks { up with sec := { up.sec with rejected := 8 } } 0x7F 0xFFFF [1] (fun t b => fieldAt b 8 1 == 1 && decide (8 ≤ t.sec.rejected)) = true ∧
    asks up 0x7F 0xFFFF [1] (fun t _ => !(t.sec.policy.getLsbD 2) && decide (t.sec.rejected < 8) && t.sec.challenge == none) = true := by
  decide +kernel

end Sys2Proof.Tests
end

