-- ==== Sys2Proof/Tests/Images.lean ====
section
/-! SUPPORT. A small ingot, a signed firmware image and a signed debug answer, put together field by field from the spec's layouts,
and the witnesses that need one of them. -/
namespace Sys2Proof.Tests
set_option Elab.async false
open Sys2Proof.Machine

/-- Zeros up to `n` bytes. -/
def pad (n : Nat) (l : List Byte) : List Byte := l ++ List.replicate (n - l.length) 0

/-! ### An ingot (12 Tables 12.1, 12.2, 11 Table 11.5) -/

/-- Header: magic, version, kind, mode FAST, a footprint of one region, no required unit, 384 bytes, seed 1, the bitmap at
256 and 16 bytes of frame stream at 320. -/
def ingotHeader : List Byte :=
  pad 256 (leBytes 0x4C4E4947 4 ++ leBytes 1 2 ++ [3, 0, 0, 1, 1, 0] ++ leBytes 0 8 ++ leBytes 384 4 ++ leBytes 1 8 ++
    leBytes 256 4 ++ leBytes 0 16 ++ leBytes 320 4 ++ leBytes 16 4)
/-- The ingot without its check code: its frame stream opens region 0, passes the check of no words, and seals it. -/
def ingotPlain : List Byte :=
  pad 384 (ingotHeader ++ leBytes 0 64 ++ leBytes 0x60000000 4 ++ leBytes 0x50000000 4 ++ leBytes 0 4 ++ leBytes 0x70000000 4)
/-- The ingot. -/
def ingot : List Byte := ingotPlain.take 0xFC ++ leBytes (crc32c ingotPlain).toNat 4 ++ ingotPlain.drop 0x100

set_option maxRecDepth 100000 in
/-- It passes every staging check, and the same bytes with one bit of the check code turned fail check 4. -/
theorem test_ingot_stages : (stagingChecks (up.hbmWrite 1 0 ingot) 1 0).1 = .ok ∧
    (stagingChecks ((up.hbmWrite 1 0 ingot).hbmWrite 1 0xFC [(crc32c ingotPlain).truncate 8 ^^^ 1]) 1 0).1 = .ingotCrc := by
  decide +kernel
set_option maxRecDepth 100000 in
theorem witness_IngotCommands_stage :
    asks (up.hbmWrite 1 4096 ingot) 0x30 1 (mapArgs 63 0 0 4096 0 0) (fun t b => (t.leaseOf 1).slots.get none 63 == none &&
      (stagingChecks t 1 (fieldAt b 16 8)).1 == .ok && (stagingChecks t 1 (fieldAt b 16 8)).2.isSome) = true := by decide +kernel

/-! ### Signatures (19 R451, R468): the key is the base point and the nonce is 1, so that s = z + r -/

/-- The public key. -/
def keyBytes : List Byte := beBytes p384Gx 48 ++ beBytes p384Gy 48
/-- The signature of some bytes. -/
def signature (m : List Byte) : List Byte :=
  beBytes (p384Gx % p384N) 48 ++ beBytes (((sha384 m).toNat + p384Gx) % p384N) 48
/-- An image: magic, version 7, svn 3, floor_raise 2, 208 bytes, the key and the signature. -/
def image (magic : Nat) : List Byte :=
  let h := leBytes magic 4 ++ leBytes 7 4 ++ leBytes 3 2 ++ leBytes 2 2 ++ leBytes 208 4 ++ keyBytes
  h ++ signature h
/-- `up` with that key fused. -/
def fused (s : State) : State := { s with sec := { s.sec with fwKeyHash := sha384 keyBytes, dbgKeyHash := sha384 keyBytes,
                                                              dbgKey := BitVec.ofNat 768 (beNat keyBytes) } }

set_option maxRecDepth 100000 in
theorem test_image_signed : imgFormed fwMagic (image fwMagic) = true ∧ imgSigned (sha384 keyBytes) (image fwMagic) = true := by
  decide +kernel
set_option maxRecDepth 100000 in
theorem test_package_signed : imgFormed recoveryMagic (image recoveryMagic) = true ∧
    imgSigned (sha384 keyBytes) (image recoveryMagic) = true := by
  decide +kernel
theorem image_svn : imgSvn (image fwMagic) = 3 ∧ imgSvn (image recoveryMagic) = 3 := by decide +kernel

/-- The image passes where its key is fused and the floor is at most 3. -/
theorem imgCheck_image {s : State} (hk : s.sec.fwKeyHash = sha384 keyBytes) (hf : s.sec.floor ≤ 3) :
    imgCheck s fwMagic (image fwMagic) = .ok := by
  unfold imgCheck
  rw [hk, test_image_signed.1, test_image_signed.2, image_svn.1]
  simp; omega
/-- Above that its svn is refused. -/
theorem imgCheck_image_svn {s : State} (hk : s.sec.fwKeyHash = sha384 keyBytes) (hf : 3 < s.sec.floor) :
    imgCheck s fwMagic (image fwMagic) = .svn := by
  unfold imgCheck
  rw [hk, test_image_signed.1, test_image_signed.2, image_svn.1]
  simp; omega
/-- The recovery package passes in the same way. -/
theorem imgCheck_package {s : State} (hk : s.sec.fwKeyHash = sha384 keyBytes) (hf : s.sec.floor ≤ 3) :
    imgCheck s recoveryMagic (image recoveryMagic) = .ok := by
  unfold imgCheck
  rw [hk, test_package_signed.1, test_package_signed.2, image_svn.2]
  simp; omega
theorem imgCheck_package_svn {s : State} (hk : s.sec.fwKeyHash = sha384 keyBytes) (hf : 3 < s.sec.floor) :
    imgCheck s recoveryMagic (image recoveryMagic) = .svn := by
  unfold imgCheck
  rw [hk, test_package_signed.1, test_package_signed.2, image_svn.2]
  simp; omega

/-- Lease memory with the image at byte 0. -/
def withImage (floor : Nat) : State :=
  let s := (fused up).hbmWrite 1 0 (image fwMagic)
  { s with sec := { s.sec with floor := floor } }
/-- FW_STAGE's arguments. -/
def stageArgs : List Byte := leBytes 0 8 ++ leBytes 0 8 ++ leBytes 208 4
set_option maxRecDepth 100000 in
theorem image_read : ∀ f ∈ [0, 4], ((asking (withImage f) 0x72 1 stageArgs).hbmRead 1 0 208 == image fwMagic &&
    (asking (withImage f) 0x72 1 stageArgs).sec.fwKeyHash == sha384 keyBytes) = true := by decide +kernel
set_option maxRecDepth 100000 in
theorem witness_FwStage : ∀ f ∈ [0, 4], asks (withImage f) 0x72 1 stageArgs (fun t b => decide (fieldAt b 24 4 ≤ 16777216) &&
    t.inLease (msgLease b) (fieldAt b 16 8) (fieldAt b 24 4) && fieldAt b 16 8 == 0 && fieldAt b 24 4 == 208 && msgLease b == 1 &&
    t.boot.updating == none) = true := by decide +kernel
theorem witness_FwStage_ok : imgCheck (asking (withImage 0) 0x72 1 stageArgs) fwMagic (image fwMagic) = .ok := by
  have h := image_read 0 (by simp)
  simp only [Bool.and_eq_true, beq_iff_eq] at h
  exact imgCheck_image h.2 (by decide +kernel)
theorem witness_FwStage_svn : imgCheck (asking (withImage 4) 0x72 1 stageArgs) fwMagic (image fwMagic) = .svn := by
  have h := image_read 4 (by simp)
  simp only [Bool.and_eq_true, beq_iff_eq] at h
  exact imgCheck_image_svn h.2 (by decide +kernel)
theorem witness_FwStage_key : imgCheck up fwMagic (image fwMagic) = .key := by decide +kernel

/-- A challenge, and its answer at byte 0 of lease 1. -/
def challenged : State :=
  let s := (fused up).hbmWrite 1 0 (signature [1, 2, 3])
  { s with sec := { s.sec with challenge := some ([1, 2, 3], 0) } }
set_option maxRecDepth 100000 in
theorem witness_DebugUnlockAnswer : asks challenged 0x7F 0xFFFF [1] (fun t b => t.sec.challenge == some ([1, 2, 3], 0) &&
    answerLease t 0 == some 1 && t.inLease 1 (fieldAt b 16 8) 96 && !(t.sec.policy.getLsbD 2) && decide (t.sclk - 0 ≤ 1500000000) &&
    answerOk t [1, 2, 3] (t.hbmRead 1 (fieldAt b 16 8) 96)) = true := by decide +kernel

end Sys2Proof.Tests
end

