-- ==== Sys2Proof/Tests/Fabric.lean ====
section
/-! SUPPORT. Witnesses: for each statement about the sequencer, the fabric, memory, configuration, regions and channels, concrete
states and operands that meet the hypotheses of each of its clauses: one entry of a list for each clause. -/
namespace Sys2Proof.Tests
set_option Elab.async false
open Sys2Proof.Machine

/-! ### Section programs -/

/-- An instruction word: opcode, tally or slot, amount, prediction, destination. -/
def word (op tally amount predict dest : Nat) : Nat :=
  op * 2 ^ 58 + tally * 2 ^ 52 + amount * 2 ^ 36 + predict * 2 ^ 34 + dest * 2 ^ 22
/-- A program of lease 1 with these instructions. -/
def progOf (ws : List Nat) : Prog := { prog6 with code := ws.map (BitVec.ofNat 64), ctx := some 0 }
/-- `s` with that program as program 6. -/
def issuing (s : State) (ws : List Nat) : State := s.setProg 6 (some (progOf ws))
/-- `s` with program 6 in a given wait. -/
def waiting (s : State) (p : Prog) : State := s.setProg 6 (some p)
/-- The next instruction of program 6 is `w` of opcode `op`, and issues. -/
def may (op w : Nat) : Bool := (issuing up [w]).issues 6 op (progOf [w]) w
/-- A section of program 6 that was made ahead of the branch. -/
def ahead : Section := { sec1 with phase := .ahead }
/-- The branch `w` of a program that has run ahead. -/
def branched (w : Nat) : Prog := { progOf [w] with wait := .br, aheadSec := some 4 }

theorem witness_SequencerControl :
    [may 2 (word 2 7 0 0 0) && waitHolds 0 0, may 2 (word 2 7 1 0 0) && !(waitHolds 0 1),
     (waiting up { progOf [] with wait := .satisfied }).progOf 6 == some { progOf [] with wait := .satisfied },
     may 3 (word 3 7 65535 0 0), may 4 (word 4 7 0 1 0),
     -- a branch that has not run ahead, one whose prediction holds, and one whose prediction fails
     (let p := { progOf [word 4 7 0 0 0] with wait := .br }
      (waiting up p).progOf 6 == some p && ((waiting up p).runningOf 6).isEmpty && instrAt p.code 0 == word 4 7 0 0 0 &&
        p.aheadSec == none),
     (let p := branched (word 4 7 0 1 0)
      let s := (waiting up p).setSec 4 (some ahead)
      s.progOf 6 == some p && (s.runningOf 6).isEmpty && waitHolds 0 0 && iPredict (word 4 7 0 1 0) == 1 &&
        ((commitAhead 4 s).progOf 6).isSome),
     (let p := branched (word 4 7 0 2 0)
      let s := (waiting up p).setSec 4 (some ahead)
      s.progOf 6 == some p && (s.runningOf 6).isEmpty && iPredict (word 4 7 0 2 0) != 1 && ((cancelSection s 4).progOf 6).isSome),
     may 5 (word 5 0 0 0 0), may 5 (word 5 0 1 0 0), may 7 (7 * 2 ^ 58 + 0xFFFFFFFF) && !(progOf []).silent,
     (let p := { progOf [7 * 2 ^ 58] with silent := true }
      (waiting up p).issues 6 7 p (7 * 2 ^ 58)),
     may 0x0A haltWord && ((issuing up [haltWord]).runningOf 6).isEmpty,
     ((issuing running [haltWord]).issues 6 0x0A (progOf [haltWord]) haltWord) && !((issuing running [haltWord]).runningOf 6).isEmpty]
    = List.replicate 14 true := by decide +kernel

/-- Lease 1 with the ingot of `Images` in slot 2. -/
def stocked : State := upLease { lease1 with slots := [(2, some { image := ingot })] }
/-- A RUN of slot 2 at region 0, and of the empty slot 3. -/
def run2 : Nat := word 1 2 0 0 0
def run3 : Nat := word 1 3 0 0 0
/-- A move of region 1's billets. -/
def moveWord (op region : Nat) : Nat := op * 2 ^ 58 + region * 2 ^ 51
/-- The move that a SPILL or FILL of region 1 makes. -/
def move1 (fill : Bool) : Move := { fill := fill, lease := 1, region := 1, scope := 0, hbmOff := 0 }
/-- A FENCE command that waits for window 3. -/
def fence9 : Flight := { fn := 0, msg := { seq := 9, bytes := entryOf [0x44, 0, 0, 0, 1, 0] }, wait := .fence [] [3] }

set_option maxRecDepth 100000 in
theorem witness_SequencerRunsAndMoves :
    [(issuing stocked [run2]).issues 6 1 (progOf [run2]) run2 &&
       (newSection (issuing stocked [run2]) 6 { progOf [run2] with lastIssued := 0 } 0 run2).1 == .ok,
     (issuing stocked [run3]).issues 6 1 (progOf [run3]) run3 &&
       (newSection (issuing stocked [run3]) 6 { progOf [run3] with lastIssued := 0 } 0 run3).1 != .ok,
     (let p := { progOf [word 4 7 0 2 0, run2] with wait := .br }
      let s := waiting stocked p
      s.progOf 6 == some p && p.aheadSec == none && !s.quenched && predictedRun s p == some 1 &&
        (newSection s 6 p 1 run2).1 == .ok && aheadFree s (newSection s 6 p 1 run2).2),
     (let p := { progOf [word 4 7 0 2 0, run3] with wait := .br }
      let s := waiting stocked p
      predictedRun s p == some 1 && (newSection s 6 p 1 run3).1 != .ok),
     may 6 (6 * 2 ^ 58),
     (let p := { progOf [6 * 2 ^ 58] with wait := .fence }
      (waiting up p).progOf 6 == some p && fenceWritten (waiting up p) 6 p && p.peerWins.all (fun k => p.peerReads.contains k)),
     (let p := { progOf [6 * 2 ^ 58] with wait := .fence, peerWins := [3] }
      (waiting up p).progOf 6 == some p && fenceWritten (waiting up p) 6 p && p.peerWins.contains 3 && !(p.peerReads.contains 3)),
     (let f := { fence9 with wait := .fence [] [] }
      let s := { up with host := { up.host with flights := [f] } }
      flightOf s 0 9 == some f && writesGone s []),
     (let s := { up with host := { up.host with flights := [fence9] } }
      flightOf s 0 9 == some fence9 && writesGone s [] && [3].contains 3),
     may 8 (moveWord 8 1) && moveOk up (move1 false), may 8 (moveWord 8 2) && !(moveOk up { move1 false with region := 2 }),
     may 9 (moveWord 9 1) && moveOk up (move1 true),
     (let p := { progOf [] with wait := .move, move := some (move1 false) }
      let s := waiting up p
      s.progOf 6 == some p && (s.runningOf 6).isEmpty && !(residentOn s 1 1 && otherRuns s 6 1)),
     (let f := { fence9 with wait := .move, move := some (move1 true) }
      let s := { up with host := { up.host with flights := [f] } }
      flightOf s 0 9 == some f && !(leaseRuns s 1 false))]
    = List.replicate 14 true := by decide +kernel

/-! ### Sections and tiles -/

/-- Region 0 sealed for lease 1. -/
def region0 : Region := { st := .sealed, resident := some 1, live := [(0, 1)] }
/-- Section 4 runs on region 0. -/
def onFabric : State := { running with own := { running.own with regions := [(0, region0)] } }
/-- Program 6 waits for its RUN, whose section is `x`. -/
def runs (x : Section) : State :=
  (waiting onFabric { progOf [run2] with wait := .run, runSec := 4 }).setSec 4 (some x)
/-- Every compute tile of region 0 in its ENDSEC. -/
def tilesEnded : Table Tile := ((upTo 8).flatMap (fun c => (upTo 8).map (fun r => (tileNo 0 c r, ({ phase := .ended, sec := 4 } : Tile)))))
/-- A section that 2^20 cycles have gone by. -/
def stuck : Section := { sec1 with progress := 1048576, limitUs := 1, barrierWant := 1 }

/-- The same, of the ingot in slot 2. -/
def loads (x : Section) : State :=
  (runs { x with slot := 2 }).updLease 1 (fun l => { l with slots := [(2, some { image := ingot })] })
/-- The checks of the RUN of section `x` pass at the state `s`. -/
def passes (s : State) (x : Section) : Bool := (runChecks s x.lease (secImage s x) x.origin).1 == .ok

set_option maxRecDepth 100000 in
theorem witness_SectionsStartAndEnd :
    [(let x := { sec1 with phase := .prologue, slot := 2 }
      runOf (loads x) 6 == some (4, x) && mayLoad (loads x) 4 x && passes (loads x) x),
     (let x := { sec1 with phase := .prologue }
      runOf (runs x) 6 == some (4, x) && !x.loading && !(runs x).quenched && !(passes (runs x) x)),
     (let x := { sec1 with phase := .prologue, slot := 2, loading := true }
      runOf (loads x) 6 == some (4, x) && !(mayLoad (loads x) 4 x) && passes (loads x) x),
     (let x := { sec1 with phase := .prologue, loading := true, opened := [0] }
      (runs x).secOf 4 == some x && mayStartSection (runs x) 4 x),
     (let x := { sec1 with phase := .prologue, loading := true }
      (runs x).secOf 4 == some x && !(mayStartSection (runs x) 4 x)),
     (let s := { onFabric with fab := { onFabric.fab with tiles := tilesEnded } }
      s.secOf 4 == some sec1 && sectionDone s 4 sec1),
     (let x := { sec1 with phase := .ending, verdict := some .aborted }
      (runs x).secOf 4 == some x && (runs x).hbm.reqs.all (fun q => q.sec != 4) &&
        (runs x).fab.net.all (fun p => p.sec != 4 || p.vn != vnReq)),
     (let x := { sec1 with phase := .ending, verdict := some .aborted }
      let s := { runs x with hbm := { (runs x).hbm with reqs := [{ id := 5, lease := 1, sec := 4, sid := 0, write := false, isWindow := false, addr := 0, len := 64, bus := 0 }] } }
      s.secOf 4 == some x && s.hbm.reqs.any (fun q => q.sec == 4)),
     (runs stuck).secOf 4 == some stuck && decide (1048576 ≤ stuck.progress) &&
       workPending (runs stuck) 4 stuck && !(timedOut (runs stuck) stuck),
     timedOut { runs stuck with sclk := 26 } stuck && !(timedOut { runs stuck with sclk := 25 } stuck),
     decide (sec1.progress < 1048576)]
    = List.replicate 11 true := by decide +kernel

/-- `onFabric` with tile 0 issuing, and its frames. -/
def tiled (x : Tile) (fs : List (Nat × Frame)) : State :=
  { onFabric with fab := { onFabric.fab with tiles := [(0, { x with sec := 4 })], frames := fs } }
/-- A frame with one word set. -/
def frameWith (w v : Nat) : Frame := BitVec.ofNat 2048 (v * 2 ^ (32 * w))
/-- A packet of stream data to inlet 0 of tile 0, from tile 1. -/
def data0 : Packet := { vn := vnStream, kind := 0, dst := 0, src := 1, port := 0, lease := 1, sec := 4, pl := .entries [{ data := 5 }] }
/-- `s` with packets in flight. -/
def flight (s : State) (ps : List Packet) : State := { s with fab := { s.fab with net := ps } }
/-- Inlet 0 of tile 0 takes data from tile 1. -/
def inlet0 : State := flight (tiled { phase := .issuing } [(frameKey 0 65, frameWith 0 1 ||| frameWith 1 1)]) [data0]

/-- A row that adds sums of inlet 1, which waits for one contribution of each pair. -/
def adding : RowOp := { op := 5, row := 0, queue := 1, redId := 7 }
/-- A pair of sums, and a grant of latch 3, for tile 0. -/
def sums0 : Packet := { data0 with kind := 1, pl := .reduce { redId := 0, pair := 0, vals := [{ i := 3 }] } }
def grant3 : Packet := { vn := vnCtl, kind := 5, dst := 0, src := 256, port := 16, lease := 1, sec := 4, pl := .latch 3 0 false }
/-- Latch ports enabled, with inlet 0. -/
def latchFrame : Nat × Frame := (frameKey 0 64, frameWith 16 2)

theorem witness_TileRows :
    [(let s := tiled { phase := .issuing } []
      canIssue s 0 (bundleAt s 0 0) && !(bundleBad 0 (fun k => some (osetW s 0 k 0 % 16)) (bundleAt s 0 0) ||
        bundleDenied 0 (bundleAt s 0 0) || bundleBadFormat 0 (bundleAt s 0 0))),
     (let s := tiled { phase := .issuing } [(0, BitVec.ofNat 2048 0x3F)]
      canIssue s 0 (bundleAt s 0 0) && bundleBad 0 (fun k => some (osetW s 0 k 0 % 16)) (bundleAt s 0 0)),
     (let s := tiled { phase := .ended } []
      !(canIssue s 0 (bundleAt s 0 0))),
     (let s := tiled { phase := .ending } []
      (s.tileOf 0).phase == .ending && (s.tileOf 0).rowOp == none && (upTo 4).all (fun n => outletUsed (s.tileOf 0) n == 0) &&
        secRuns s (s.tileOf 0).sec),
     (let r : RowOp := { op := 3, row := 0, queue := 1, entries := [{ data := 1 }] }
      let s := tiled { phase := .issuing, rowOp := some r } []
      (s.tileOf 0).rowOp == some r && secRuns s (s.tileOf 0).sec && r.op != 5),
     (let s := tiled { phase := .issuing, rowOp := some adding, redIn := [(1, [{ redId := 7, pair := 2, vals := [{ i := 3 }] }])] }
        [(frameKey 0 65, frameWith 18 1)]
      (s.tileOf 0).rowOp == some adding && secRuns s (s.tileOf 0).sec && inContrib s 0 1 == 1),
     inlet0.mayArrive 0 data0 && epIsCompute data0.dst && inletRoom (inlet0.tileOf 0) 0 &&
       inletTakes (inlet0.offNet 0) 0 0 data0 && !data0.sig,
     (let s := flight (tiled { phase := .issuing } [(frameKey 0 65, frameWith 0 2)]) [sums0]
      s.mayArrive 0 sums0 && epIsCompute sums0.dst && inletRoom (s.tileOf 0) 0 && inletTakes (s.offNet 0) 0 0 sums0 && !sums0.sig),
     (let p := { data0 with port := 4 }
      (flight inlet0 [p]).mayArrive 0 p && epIsCompute p.dst),
     (let s := flight (tiled { phase := .issuing } [latchFrame, (frameKey 0 65, frameWith 0 4)]) [grant3]
      s.mayArrive 0 grant3 && epIsCompute grant3.dst && latchEn (s.offNet 0) 0 && inKind (s.offNet 0) 0 (latchInlet (s.offNet 0) 0) == 4),
     (let s := flight (tiled { phase := .issuing } [latchFrame, (frameKey 0 65, frameWith 0 1)]) [grant3]
      s.mayArrive 0 grant3 && inKind (s.offNet 0) 0 (latchInlet (s.offNet 0) 0) != 4),
     (let s := flight (tiled { phase := .issuing } []) [grant3]
      s.mayArrive 0 grant3 && !(latchEn (s.offNet 0) 0)),
     (let p := { data0 with src := 2 }
      let s := flight inlet0 [p]
      s.mayArrive 0 p && epIsCompute p.dst && inletRoom (s.tileOf 0) 0 && !(inletTakes (s.offNet 0) 0 0 p))]
    = List.replicate 13 true := by decide +kernel

/-! ### Streams and memory tiles -/

/-- A stream descriptor: (word, lowest bit, value). -/
def descOf (l : List (Nat × Nat × Nat)) : SDesc := BitVec.ofNat 1024 (l.foldl (fun a x => a + x.2.2 * 2 ^ (64 * x.1 + x.2.1)) 0)
/-- Stream 0 of section 4, at memory tile 256 of region 0: entries of 64 bytes in billet 0. -/
def strm (l : List (Nat × Nat × Nat)) : Stream :=
  { sec := 4, index := 0, tile := 256, desc := descOf ([(4, 21, 6), (4, 41, 1)] ++ l) }
/-- `onFabric` with that stream and a section's billet 0 of a kind. -/
def streams (x : Stream) (kind : Nat) : State :=
  let s := { onFabric with fab := { onFabric.fab with streams := [(0, some x)], mtiles := [(256, { sec := 4 })] } }
  s.setSec 4 (some { sec1 with bils := [{ tile := 256, index := 0, kind := kind, zero := false, count := 1, writer := 1 }] })
/-- The address of an access, where it has one. -/
def addrOf : AccessAt → Option Nat
  | .at_ a => a
  | _ => none
/-- A read of the billet is served. -/
def served (passes : Nat) : BilletHas → Bool
  | .here b => readable b passes
  | _ => false
/-- Its section waits in prologue, with a stream that may start then. -/
def early : Stream := strm [(0, 40, 1), (0, 42, 1), (2, 0, 4096)]
def prologue : State := (streams early 0).setSec 4 (some { sec1 with phase := .prologue })
/-- An image with one stream descriptor, of a write of HBM bytes 0 to 4095. -/
def writerImage : List Byte :=
  pad 256 (pad 0x2C [] ++ leBytes 256 4 ++ leBytes 1 4) ++ leBytes (descOf [(0, 35, 1), (0, 40, 1), (2, 0, 4096)]).toNat 128
/-- The prologue beside a section 5 of the lease that holds that image and runs. -/
def hazard : State := (prologue.updLease 1 (fun l => { l with slots := [(7, some { image := writerImage })] })).setSec 5
  (some { sec1 with slot := 7, placed := [(0, 1)] })

theorem witness_StreamRows :
    [(let s := streams (strm []) 0
      s.streamOf 0 == some (strm []) && secRuns s 4 && mayStart s (strm [])),
     -- fabric tally 3 is to reach 1
     (let x := strm [(0, 45, 2), (3, 0, 3), (3, 16, 1)]
      !(mayStart (streams x 0) x)),
     !(secRuns prologue 4) && mayStart prologue early && (prologue.regionOf 0).resident == some (secLease prologue 4) &&
       reservedBy prologue 0 == none && !(descLatch early.desc) && !(rangeHazard prologue early) && !(unsafeAhead prologue early),
     hazard.streamOf 0 == some early && rangeHazard hazard early,
     (let x := { strm [] with phase := .running }
      streamRuns (streams x 0) x && !(descLatch x.desc) && !x.blocked && descOp x.desc == 0 && !(isDrain x.desc) &&
        !(isFetch x.desc) && !(isPort x.desc) && secRuns (streams x 0) 4 &&
        addrOf (accessAt (streams x 0) x x.pos) == some 0 && served (x.passes.get 0 0) (billetAt (streams x 0) 4 256 0)),
     (let x := { strm [] with phase := .running, blocked := true }
      streamRuns (streams x 0) x && x.blocked),
     (let x := { strm [(0, 36, 2)] with phase := .running }
      streamRuns (streams x 0) x && descOp x.desc == 2 && !(isDrain x.desc) && !(isFetch x.desc) && !(isPort x.desc) &&
        !(descLatch x.desc) && !x.blocked && secRuns (streams x 0) 4 && addrOf (accessAt (streams x 0) x x.pos) == some 0 &&
        served (x.passes.get 0 0) (billetAt (streams x 0) 4 256 0)),
     (let x := { strm [] with phase := .running, blocked := true }
      streamRuns (streams x 0) x && !(descLatch x.desc) && x.blocked && descOp x.desc == 0 && !(isDrain x.desc) &&
        !(isFetch x.desc) && !(isPort x.desc) && secRuns (streams x 0) 4 &&
        addrOf (accessAt (streams x 0) x x.pos) == some 0 && served (x.passes.get 0 0) (billetAt (streams x 0) 4 256 0)),
     -- a stream that uses a latch waits for its grant, and goes on once it has it
     (let x := { strm [(10, 32, 1)] with phase := .running }
      streamRuns (streams x 0) x && descLatch x.desc && !x.latchHeld),
     (let x := { strm [(10, 32, 1)] with phase := .running, latchHeld := true }
      streamRuns (streams x 0) x && x.latchHeld && !x.blocked)]
    = List.replicate 10 true := by decide +kernel

/-- A request to memory tile 256 from tile 1. -/
def request (op : Nat) (data : List Byte) : Packet :=
  { vn := vnReq, kind := 2, dst := 256, src := 1, port := 5, op := op, lease := 1, sec := 4, pl := .mt 0 data false [] }
/-- Billet 0 of `streams` takes writes of tile 1. -/
def gated (p : Packet) : Bool :=
  let s := flight (streams (strm []) 1) [p]
  s.mayArrive 0 p && !(toEmulation s p) && !(writeBehind s 0 p) && forUnit p && (match billetAt s (s.mtileOf 256).sec 256 0 with
    | .here b => writeGate b p.src (opKind p.op) == .accept
    | _ => false)
/-- Stream port 0 of memory tile 256 takes packets of tile 1, for a stream of an operation. -/
def porting (op : Nat) (p : Packet) : State :=
  let s := flight (streams { strm [(0, 35, 1), (0, 36, op)] with phase := .running } 1) [p]
  s.setFrame 256 8 (BitVec.ofNat 2048 (1 + 2 ^ 16))
/-- Entries for that port. -/
def toPort (n : Nat) : Packet :=
  { vn := vnStream, kind := 0, dst := 256, src := 1, port := 0, lease := 1, sec := 4, pl := .entries (List.replicate n { data := 5 }) }
/-- A pair of sums for it. -/
def pair0 : Packet := { toPort 0 with kind := 1, pl := .reduce { redId := 0, pair := 0, vals := [{ i := 3 }] } }
/-- Does the port take the packet, and is any of it left over? -/
def taken (op : Nat) (p : Packet) (left : Bool) : Bool :=
  let s := porting op p
  s.mayArrive 0 p && !(toEmulation s p) && !(writeBehind s 0 p) && decide (p.op ≤ 8) && forPort p && portTakes s p && !(emptyData p) &&
    (portStream s 256 0).isSome && (portTake p (s.offNet 0)).2.isSome == left

theorem witness_MemoryTileOperations :
    [gated (request 1 [1, 2]) && mtOk 1 0 [1, 2], gated (request 4 []) && mtOk 4 0 [], gated (request 8 []) && mtOk 8 0 [],
     [5, 6, 7].all (fun op => gated (request op [1, 0, 0, 0]) && mtOk op 0 [1, 0, 0, 0]),
     -- a reserved operation, at the operation unit and at a stream port
     (let s := flight (streams (strm []) 1) [request 9 [1]]
      s.mayArrive 0 (request 9 [1]) && !(toEmulation s (request 9 [1])) && !(writeBehind s 0 (request 9 [1])) && mtRefused s (request 9 [1])),
     (let p := { toPort 1 with op := 9 }
      let s := porting 1 p
      s.mayArrive 0 p && !(toEmulation s p) && !(writeBehind s 0 p) && mtRefused s p),
     [1, 3, 5, 6, 7, 8].all (fun op => sdOp (strm [(0, 35, 1), (0, 36, op)]).desc.toNat == op),
     taken 1 (toPort 1) false, taken 1 (toPort 2) true,
     (let s := porting 4 pair0
      s.mayArrive 0 pair0 && !(toEmulation s pair0) && !(writeBehind s 0 pair0) && decide (pair0.op ≤ 8) && forPort pair0 &&
        portTakes s pair0 && !(emptyData pair0) && (portStream s 256 0).isSome && (reduceTake pair0 (s.offNet 0)).2.isNone),
     -- the billet is SHADOW: the sum waits
     (let s := (porting 4 pair0).setMTile 256 { sec := 4, billets := [(0, some { kind := 1, count := 1, writer := 1, st := .shadow, sec := 4 })] }
      portTakes s pair0 && (portStream s 256 0).isSome && (reduceTake pair0 (s.offNet 0)).2.isSome)]
    = List.replicate 11 true := by decide +kernel

/-! ### Signals, latches and the network -/

/-- A signal of 1 to fabric tally 63 of memory tile 256, as control (kind 1) or in band. -/
def signal1 (vn kind : Nat) : Packet :=
  { vn := vn, kind := kind, dst := 256, src := 1, port := 16, lease := 1, sec := 4, pl := .signal 63 1 }
/-- A request, or release, of latch 15. -/
def latch15 (kind : Nat) : Packet :=
  { vn := vnCtl, kind := kind, dst := 256, src := 1, port := 17, ref := 2, lease := 1, sec := 4, pl := .latch 15 0 false }
/-- Latch 15 of memory tile 256, whose sequence has one position. -/
def latched (x : FLatch) (p : Packet) : State :=
  (flight (streams (strm []) 0) [p]).setFrame 256 7 (frameWith 15 1) |>.setMTile 256 { sec := 4, latch := [(15, x)] }
/-- A barrier packet, and the marker of a drained outlet. -/
def barrier1 : Packet := { vn := vnCtl, kind := 2, dst := 256, src := 1, port := 5, lease := 1, sec := 4, pl := .barrier 0 3 }
def drain1 : Packet := { vn := vnStream, kind := 3, dst := 0, src := 1, port := 0, lease := 1, sec := 4, pl := .drain 0 }

theorem witness_SignalsAndLatches :
    [(let s := flight (streams (strm []) 0) [signal1 vnCtl 1]
      s.mayArrive 0 (signal1 vnCtl 1) && epIsMem 256 && regLease s 0 == 1),
     (flight (streams (strm []) 0) [signal1 vnStream 2]).mayArrive 0 (signal1 vnStream 2) && !(epIsHub 256),
     (let s := latched {} (latch15 4)
      s.mayArrive 0 (latch15 4) && latchNamed s (latch15 4) 15 && !(((s.mtileOf 256).latch.get {} 15).asked.contains (1, 2)) &&
        !((s.mtileOf 256).latch.get {} 15).held),
     (let s := latched { asked := [(1, 2)] } (latch15 4)
      s.mayArrive 0 (latch15 4) && ((s.mtileOf 256).latch.get {} 15).asked.contains (1, 2)),
     (let p := { latch15 4 with pl := .latch 16 0 false }
      let s := latched {} p
      s.mayArrive 0 p && !(latchNamed (s.offNet 0) p 16)),
     (let s := latched { held := true, holder := 64 * 1 + 2 } (latch15 6)
      s.mayArrive 0 (latch15 6) && latchNamed s (latch15 6) 15 && ((s.mtileOf 256).latch.get {} 15).held &&
        ((s.mtileOf 256).latch.get {} 15).holder == 64 * (latch15 6).src + (latch15 6).ref),
     (let s := latched {} (latch15 6)
      latchNamed s (latch15 6) 15 && !(((s.mtileOf 256).latch.get {} 15).held)),
     (let s := flight onFabric [barrier1]
      s.mayArrive 0 barrier1 && (s.secOf barrier1.sec).isSome),
     (let s := flight inlet0 [drain1]
      s.mayArrive 0 drain1 && epIsCompute 0 && inKind s 0 0 == 1 && drain1.src == inSrc s 0 0),
     (let p := { drain1 with port := 4 }
      (flight inlet0 [p]).mayArrive 0 p)]
    = List.replicate 10 true := by decide +kernel

/-- `s` with packets ready to be injected. -/
def sending (s : State) (ps : List Packet) : State := { s with fab := { s.fab with tx := ps } }
/-- A pair of sums on its way, two of which may become one. -/
def sum0 : Packet := { pair0 with comb := true }
/-- A record of flags on its way to memory tile 256. -/
def flag3 : Packet := { vn := vnCtl, kind := 3, dst := 256, src := 1, port := 5, lease := 1, sec := 4, pl := .flag 3 { count := 1 } }
/-- A frame for tile 0 from tile 1. -/
def frame71 : Packet := { vn := vnCtl, kind := 0, dst := 0, src := 1, port := 32, lease := 1, sec := 4, pl := .frame 71 5 }
/-- Data from region 1, whose tile is at column 9. -/
def foreign : Packet := { data0 with src := 9 * 32 }
/-- Output setting 7 of tile 0 writes stream 0, whose flag home is memory tile 256 with record 3. -/
def flagged : State :=
  let s := streams (strm [(13, 0, 256), (13, 16, 3)]) 0
  { s with fab := { s.fab with tiles := [(0, { phase := .ended, sec := 4 })] } }.setSec 4
    (some { sec1 with osets := [(7, 1)], flagWant := [0] })

/-- The outlet 3 of tile 0 holds these, and is no latch outlet. -/
def outletReady (es : List QEntry) (vs : List Reduce) : Bool :=
  let s := tiled { phase := .issuing, outlets := [(3, es)], outRed := [(3, vs)] } []
  secRuns s (s.tileOf 0).sec && !((s.tileOf 0).portOff) && (s.tileOf 0).outlets.get [] 3 == es && (s.tileOf 0).outRed.get [] 3 == vs &&
    !(latchEn s 0 && latchOutlet s 0 == 3)
/-- Tile 0 once its outlet 3 has sent, and the packet of an entry of it. -/
def sent3 : State := tiled { phase := .issuing, sent := [(3, 1)] } []
def ready3 (e : QEntry) : Packet := { outPacket sent3 0 3 with pl := .entries [e] }

theorem witness_NetworkRows :
    [(let s := sending onFabric [data0]
      nextTx s == some (data0, 0) && !(sourceFaulted s data0) && !(injectRefused s (stamped s data0))),
     (let p := { data0 with dst := 2048 * 4 }
      let s := sending onFabric [p]
      nextTx s == some (p, 0) && !(sourceFaulted s p) && injectRefused s (stamped s p)),
     nextTx onFabric == none,
     -- an entry of an outlet: its inlet has a credit, or holds its 16 entries; and a pair of sums
     outletReady [{ data := 5 }] [] && roomFor sent3 [ready3 { data := 5 }],
     (let s := flight onFabric (List.replicate 16 (ready3 { data := 5 }))
      outletReady [{ data := 5 }] [] && !(roomFor s [ready3 { data := 5 }])),
     outletReady [] [{ redId := 0, pair := 0, vals := [{ i := 3 }] }],
     mayMerge [sum0, sum0] 0 1 && (mergeReduce sum0 sum0).isSome,
     mayMerge [barrier1, barrier1] 1 0 && (mergeBarrier barrier1 barrier1).isSome,
     mayMerge [flag3, flag3] 0 1 && (mergeFlag flag3 flag3).isSome,
     mergeBarrier barrier1 flag3 == none,
     (let s := flight onFabric [foreign]
      s.fab.net[0]? == some foreign && (seamRefuses s foreign).isSome && s.secOf foreign.sec == some sec1 &&
        sec1.phase == .running),
     (let s := flight onFabric [data0]
      s.fab.net[0]? == some data0 && seamRefuses s data0 == none && data0.pl == .entries [{ data := 5 }]),
     (let s := flagged
      let y := { sec1 with osets := [(7, 1)], flagWant := [0] }
      s.secOf (s.tileOf 0).sec == some y && y.phase == .running && y.osets.get 0 (8 * 0 + 7) != 0 && (s.tileOf 0).phase == .ended &&
        (s.tileOf 0).unacked.get 0 7 == 0 && !((s.tileOf 0).flagSent.get false 7) &&
        (secStream s 4 (y.osets.get 0 (8 * 0 + 7) - 1)).isSome &&
        roomFor s [flag3]),
     (let s := flight flagged [flag3]
      s.mayArrive 0 flag3 && secRuns s flag3.sec && epIsMem flag3.dst && (flagStream s flag3 3).isSome),
     (let s := flight onFabric [frame71]
      s.mayArrive 0 frame71 && srcRegion frame71 == dstRegion frame71 && epIsCompute frame71.dst &&
        71 / 72 == tileY (epTile frame71.dst) % 8),
     (let p := { frame71 with pl := .frame 72 5 }
      (flight onFabric [p]).mayArrive 0 p && 72 / 72 != tileY (epTile p.dst) % 8)]
    = List.replicate 16 true := by decide +kernel

/-! ### Requests, configuration, regions and channels -/

/-- A request of lease 1 for 64 bytes. -/
def req0 : Req := { id := 5, lease := 1, sec := 4, sid := 0, write := false, isWindow := false, addr := 0, len := 64, bus := 4096 }
/-- `streams` with requests. -/
def asked (l : List Req) : State :=
  let s := streams (strm []) 0
  { s with hbm := { s.hbm with reqs := l } }
/-- The same, with no link. -/
def unlinked (l : List Req) : State :=
  let s := asked l
  { s with host := { s.host with ports := [] } }
/-- Fixed shares of 16, 0 and 0 for group 0. -/
def fixed (l : List Req) : State :=
  let s := asked l
  { s with hbm := { s.hbm with arb := [(0, { live := 0x80000010 })] } }
/-- The acknowledgement of request 5. -/
def ack5 : Packet := { vn := vnReply, kind := 1, dst := 256, src := 1, port := 4, lease := 1, sec := 4, ref := 5 }

theorem witness_HbmAndWindowRequests :
    [[false, true].all (fun w =>
       let q := { req0 with write := w, data := if w then List.replicate 64 1 else [] }
       let s := asked [q]
       !s.power.selfRefresh && pcOf s 1 0 == 0 && !((s.groupOf (.hbmArb 0)).live.getLsbD 31) && pickDeadline s 0 [q] == some q),
     (let s := fixed [req0]
      let g := (s.groupOf (.hbmArb 0)).live
      g.getLsbD 31 && !(arbBadShares g) && slotClass g (s.hbm.slots.get [] 0) 0 == 0 && pickFixed 0 0 [req0] == some { req0 with slack := 0 } &&
        s.reqOf 5 == some req0),
     (asked [{ req0 with served := true }]).reqOf 5 == some { req0 with served := true }, (asked [req0]).reqOf 5 == some req0,
     (asked [{ req0 with isWindow := true, served := true }]).reqOf 5 == some { req0 with isWindow := true, served := true },
     (asked [{ req0 with isWindow := true }]).reqOf 5 == some { req0 with isWindow := true },
     (let q := { req0 with isWindow := true, write := true, data := [7] }
      let s := asked [q]
      s.reqOf 5 == some q && (s.reqsOf 0).all (fun r => r.served || decide (q.id ≤ r.id)) && leaseCanSend s 1 q.bus (isPeer s 1 q.window) == some 0 &&
        (s.streamOf 0).isSome),
     (let q := { req0 with isWindow := true, write := true, data := [7] }
      let s := unlinked [q]
      s.reqOf 5 == some q && leaseCanSend s 1 q.bus (isPeer s 1 q.window) == none && (s.streamOf 0).isSome),
     leaseCanSend (unlinked []) 1 4096 false == none, leaseCanSend (asked []) 1 4096 false == some 0,
     (let s := flight (asked [req0]) [ack5]
      s.mayArrive 0 ack5 && (s.offNet 0).reqOf ack5.ref == some req0)]
    = List.replicate 11 true := by decide +kernel

/-- An engine with a context. -/
def engine (e : Nat) (x : CfgEng) : State := onFabric.setEng e x
/-- The command word of an opcode without flags. -/
def cmdWord (op : Nat) : Nat := op * 2 ^ 28
/-- Region 1 rolls, and nothing of its column 0 is in use. -/
def rolling : State := { onFabric with own := { onFabric.own with regions := [(0, region0), (1, { st := .rolling })] } }
/-- The device in RECOVERY. -/
def recovering : State := { up with boot := { up.boot with state := 6 } }

theorem witness_ConfigurationEngine :
    [[1, 2, 6, 7, 8].all (fun op => cmdOp (cmdWord op) == op && cmdOperands (cmdWord op) == 0),
     [4, 5].all (fun op => cmdOp (cmdWord op) == op && cmdOperands (cmdWord op) == 1),
     cmdOp (cmdWord 3 + 1) == 3 && cmdOperands (cmdWord 3 + 1) == 64,
     (let s := engine 0 {}
      engineThere s 0 && (s.engOf 0).pushes.isEmpty && !(cfgWaits (s.engOf 0).ctx) &&
        (cfgExec 0 0 (cmdWord 7) [] true {} s).err == none),
     (let s := engine 0 { ctx := { synced := true } }
      (cfgExec 0 0 (cmdWord 7) [] true (s.engOf 0).ctx s).err.isSome),
     (let p : CfgPush := { sec := 4, words := [cmdWord 5, 7] }
      let s := engine 0 { pushes := [p] }
      (s.engOf 0).pushes == [p] && engineThere s 0 && pushTurn (s.engOf 0) == some 0 && p.words.take (1 + [7].length) == cmdWord 5 :: [7]),
     (let p : CfgPush := { sec := 4, words := [cmdWord 7], ctx := { heldSeal := true } }
      let s := engine 0 { pushes := [p] }
      !(s.engOf 0).pushes.isEmpty && pushTurn (s.engOf 0) == none),
     mayDrain rolling 1 8, !(mayDrain onFabric 0 0), up.boot.state != 6, recovering.boot.state == 6]
    = List.replicate 11 true := by decide +kernel

/-- `onFabric` with every tile of region 0 at its end. -/
def resting : State := { onFabric with fab := { onFabric.fab with tiles := tilesEnded } }
/-- Section 4 waits in the queue for region 0, which a lease holds since tick 0. -/
def queued (holder : Nat) : State :=
  let s := (runs { sec1 with phase := .queued }).updRegion 0 (fun r => { r with resident := some holder })
  { s with sclk := 50000, seq := { s.seq with runQueue := [6] } }

theorem witness_RegionRows :
    [sectionOn resting 0 == some (4, sec1) && regionWaits resting 4 (sec1.lendUs * 25) 0,
     (let s := onFabric.updRegion 0 (fun r => { r with gated := true })
      (s.regionOf 0).gated && sectionOn s 0 == some (4, sec1) && !(regionWaits s 4 0 0)),
     (let s := onFabric.updRegion 0 (fun r => { r with lent := true })
      (s.regionOf 0).lent && !((s.regionOf 0).gated)),
     (let s := onFabric.updRegion 1 (fun r => { r with resident := some 2, duty := 15 })
      let f := { s with power := { s.power with power := { s.power.power with live := 0x10000 } } }
      mayBorrow s 0 1 && !(mayBorrow s 0 2) && lendForbidden f && (f.regionOf 1).resident != (f.regionOf 0).resident && !(mayBorrow f 0 1)),
     headRun (queued 2) == some 6 && headReserves (queued 2) 6 0 && ((queued 2).regionOf 0).reserved == none,
     (let s := queued 2
      takerOf s 0 == some 6 && waitingRun s 6 == some (1, [0]) && handoverFree s 0 && (s.regionUsers 0).isEmpty &&
        (s.regionOf 0).resident == some 2 && stayed s 0 && reservedBy s 0 == some 6 && !s.quenched)]
    = List.replicate 6 true := by decide +kernel

/-- Channel 0, bound to lease 1, and region 0 open on every side. -/
def chan0 (x : Chan) : State :=
  (onFabric.updRegion 0 (fun r => { r with live := [(0, 1), (0x10, 0xFF)] })).setChan 0 { x with lease := some 1 }
/-- An entry for channel 0, on engine W of die 0. -/
def toChan : Packet := { toPort 1 with dst := 56 * 32 }
/-- The channel's deadline has gone by. -/
def late : Chan := { phase := .body, curMode := 1, curDeadline := 3 }

theorem witness_SolverRows :
    [(let s := flight (chan0 {}) [toChan]
      s.mayArrive 0 toChan && forChannel s toChan && !(chanRefuses s toChan) && chanAt s toChan == some 0 && chanRuns s 0 &&
        (s.chanOf 0).phase == .idle && !(resultWaits s 0)),
     (let s := flight (chan0 { phase := .input, sec := 4 }) [toChan]
      s.mayArrive 0 toChan && forChannel s toChan && !(chanRefuses s toChan) && chanAt s toChan == some 0 &&
        (s.chanOf 0).phase == .input && (s.chanOf 0).sec == toChan.sec),
     [ChanPhase.prologue, .body, .epilogue].all (fun p => !(expired (chan0 { phase := p }) ((chan0 { phase := p }).chanOf 0))),
     chanRuns (chan0 {}) 0,
     (let p := { toChan with kind := 1 }
      let s := flight (chan0 {}) [p]
      s.mayArrive 0 p && forChannel s p && chanRefuses (s.offNet 0) p),
     (let s := { chan0 late with sclk := 4 }
      expired s (s.chanOf 0) && (s.chanOf 0).phase == .body) && !(expired { chan0 late with sclk := 3 } ((chan0 late).chanOf 0)),
     up.usable 0 && up.usable 27, up.usable 12 && up.usable 19]
    = List.replicate 8 true := by decide +kernel

/-! ### Commands that a running section keeps waiting, and the debug snapshot -/

/-- An image that requires channel 0 and writes window 3. -/
def windowImage : List Byte :=
  pad 256 (pad 0x10 [] ++ leBytes 1 4 ++ leBytes 0 24 ++ leBytes 256 4 ++ leBytes 1 4) ++
    leBytes (descOf [(0, 35, 1), (0, 40, 2), (0, 48, 3)]).toNat 128
/-- A running section of lease 1 with that image, entry 3 and channel 0. -/
def naming : State :=
  (((upLease { lease1 with slots := [(0, some { image := windowImage })], entries := [(3, some entry1)] }).setSec 4
    (some sec1)).setChan 0 { lease := some 1 })

theorem witness_WindowCommands_inUse : asks naming 0x21 1 (mapArgs 1 3 0 0 0 0)
    (fun t b => fieldAt b 8 1 == 1 && (t.leaseOf 1).entries.get none 3 != none && entryInUse t 1 3) = true := by decide +kernel
theorem witness_TallyChannelBilletCommands_named : asks naming 0x59 1 [0]
    (fun t _ => (t.chanOf 0).lease == some 1 && chanNamed t 1 0) = true := by decide +kernel
/-- Lease 1 has two regions and no program: a header of 64 bytes and two records of 64 bytes. -/
theorem witness_LogAndDebugCommands_snapshot :
    asks up 0x7E 1 (leBytes 0 8 ++ leBytes 4096 8 ++ leBytes 191 4) (fun t b => mayDebug t 0 1 &&
      decide (fieldAt b 24 4 < (snapshotOf t 1).length)) = true ∧
    asks up 0x7E 1 (leBytes 0 8 ++ leBytes 4096 8 ++ leBytes 192 4) (fun t b => mayDebug t 0 1 && t.canSend 0 &&
      decide ((snapshotOf t 1).length ≤ fieldAt b 24 4)) = true := by decide +kernel

end Sys2Proof.Tests
end

