-- ==== Sys2Proof/Tests/Host.lean ====
section
/-! SUPPORT. Witnesses: for each statement about the host's side of the block, concrete states and operands that meet the
hypotheses of each of its clauses. -/
namespace Sys2Proof.Tests
set_option Elab.async false
open Sys2Proof.Machine

/-- The lease shown on function 0's tally page. -/
def paged : State := (upFn { fnUp with htLease := 1 }).setLease 1 { lease1 with
  htally := [(3, { value := 4, armed := true, target := 5 })], hlatch := [(1, { holder := 7 })] }
/-- A program of lease 1 that waits on tally 3. -/
def prog1 : Prog := { lease := 1, fn := 0, tag := 2, seq := 3, code := [] }
/-- A ring of 16 entries. -/
def ring16 : Ring := { grp := { live := 0x0040000000001000, staged := 0x0050000000002000, pending := true } }
/-- The window of lease 1 at BAR2 byte 0. -/
def win1 : InWin := { lease := 1, barOff := 0, length := 2097152, hbmOff := 4096, writable := true }
/-- Function 0 with that window as its window 2. -/
def windowed : State := upFn { fnUp with windows := [(2, some win1)] }
/-- A write of that window under way. -/
def write7 : WinWrite := { id := 7, fn := 0, window := 2, lease := 1, addr := 4096, barOff := 0, data := [0xAB, 1].map some, ep := false }
/-- `windowed` with it. -/
def landing : State := { windowed with host := { windowed.host with writes := [write7] } }

theorem witness_EmptyQueueTicks : State.reset.pending = [] ∧ ∀ f, (State.reset.fnOf f).regWrites = [] := ⟨rfl, fun _ => rfl⟩
theorem witness_StepKeepsMemoryCanonical : Memory.wf { up with pending := [.tmrVote 0] } = true ∧
    ∃ t, step { up with pending := [.tmrVote 0] } = .next t := ⟨by decide +kernel, _, rfl⟩
theorem witness_HbmReadAfterWrite : (2 ^ 40 - 1) + [(5 : Byte)].length ≤ 2 ^ 40 ∧
    ((0 : Nat) ≠ 1 ∨ (0 : Nat) < 2 ^ 40 - 1 ∨ 2 ^ 40 ≤ 0) := by decide +kernel
theorem witness_SramReadAfterWrite : (2 ^ 21 - 64) + (List.replicate 64 (1 : Byte)).length ≤ 2 ^ 21 ∧ (2 ^ 21 - 64) % 64 = 0 ∧
    (List.replicate 64 (1 : Byte)).length % 64 = 0 ∧ List.replicate 64 (1 : Byte) ≠ [] := by decide +kernel
theorem witness_ClosedBarRefusesWrites : State.reset.barOpen 0 = false := by decide +kernel
theorem witness_RegisterWriteReadsBack : up.barOpen 0 = true ∧ 15 < 16 ∧ 0 ≠ 15 ∧ (up.fnOf 0).regWrites = [] := by
  decide +kernel
theorem witness_MisalignedAccessDiscarded : up.barOpen 0 = true ∧ ¬(4 = 4 ∧ 2 % 4 = 0) ∧ ¬(4 = 8 ∧ 2 % 8 = 0) ∧
    ¬(8 = 4 ∧ 4 % 4 = 0) ∧ ¬(8 = 8 ∧ 4 % 8 = 0) := by decide +kernel
theorem witness_StagedCommitTransfer : up.barOpen 0 = true ∧ (settleRegs 0 up).isSteward 0 = true ∧ fnIsPf 0 = true ∧
    (let s := { up with power := { up.power with power := { up.power.power with pending := true } } }
     let u := settleRegs 0 s
     s.barOpen 0 = true ∧ u.isSteward 0 = true ∧ u.power.power.pending = true ∧ u.host.flights = []) := by decide +kernel
theorem witness_RingCounters : (let s := upFn { fnUp with ring := ring16 }
    (s.fnOf 0).ring.grp.pending = true ∧ (s.fnOf 0).held = [] ∧ s.host.flights = [] ∧ s.barOpen 0 = true ∧
      ((settleRegs 0 s).fnOf 0).held = []) := by decide +kernel
theorem witness_PostAppendsOrRejects : up.barOpen 0 = true ∧ ((settleRegs 0 up).fnOf 0).queue.length < 32 ∧
    (let s := upFn { fnUp with queue := List.replicate 32 { seq := 0, bytes := 0 } }
     let x := (settleRegs 0 s).fnOf 0
     s.barOpen 0 = true ∧ x.queue.length = 32 ∧ x.aerMask.getLsbD 15 = false ∧ x.aerLog = none) ∧
    (upFn { fnUp with queue := List.replicate 32 { seq := 0, bytes := 0 }, aerMask := 0x8000 }).barOpen 0 = true := by decide +kernel
theorem witness_ReplyRingWrites :
    (let s := upFn { fnUp with ring := ring16 }; (s.fnOf 0).held = [] ∧ s.replyRoom 0 = true) ∧
    (let s := upFn { fnUp with ring := { ring16 with prod := 16 }, held := List.replicate 63 0 }
     s.replyRoom 0 = false ∧ (s.fnOf 0).held.length < 64) ∧
    (let s := upFn { fnUp with ring := { ring16 with prod := 16 }, held := List.replicate 64 0 }
     s.replyRoom 0 = false ∧ 64 ≤ (s.fnOf 0).held.length) := by decide +kernel
theorem witness_DoorbellsAndHostLatches : up.barOpen 0 = true ∧
    (let s := upFn { fnUp with dbRing := 0x80000001, dbBind := [(31, some (1, 3))] }
     (s.fnOf 0).dbRing.getLsbD 0 = true ∧ (s.fnOf 0).dbBind.get none 0 = none ∧ (s.fnOf 0).dbRing.getLsbD 31 = true ∧
       (s.fnOf 0).dbBind.get none 31 = some (1, 3)) ∧
    (settleRegs 0 up).pageLease 0 = none ∧
    (let u := settleRegs 0 paged
     paged.barOpen 0 = true ∧ u.pageLease 0 = some 1 ∧ 1 < (u.leaseOf 1).latches ∧ (u.leaseOf 1).latches ≤ 2 ∧
     ((u.leaseOf 1).hlatch.get {} 0).holder = 0 ∧ BitVec.ofNat 16 ((9 : Word).toNat % 65536) ≠ (0 : Half) ∧
     ((u.leaseOf 1).hlatch.get {} 1).holder ≠ 0 ∧
     BitVec.ofNat 16 ((7 : Word).toNat % 65536) = ((u.leaseOf 1).hlatch.get {} 1).holder ∧
     BitVec.ofNat 16 ((8 : Word).toNat % 65536) ≠ ((u.leaseOf 1).hlatch.get {} 1).holder) := by decide +kernel
theorem witness_HostTallySignalAdds : (let s := paged.setProg 6 (some { prog1 with wait := .wait 3 5 })
    let u := settleRegs 0 s
    s.barOpen 0 = true ∧ u.pageLease 0 = some 1 ∧ 3 < (u.leaseOf 1).tallies ∧ (u.leaseOf 1).tallies ≤ 8 ∧
      ((u.leaseOf 1).htally.get {} 3).armed = true ∧
      waitHolds (((u.leaseOf 1).htally.get {} 3).value + (1 : Word).truncate 16) ((u.leaseOf 1).htally.get {} 3).target = true ∧
      u.progOf 6 = some { prog1 with wait := .wait 3 5 } ∧
      waitHolds (((u.leaseOf 1).htally.get {} 3).value + (1 : Word).truncate 16) (BitVec.ofNat 16 5) = true) := by
  decide +kernel
theorem witness_HostTallyArm : (let u := settleRegs 0 paged
    paged.barOpen 0 = true ∧ u.pageLease 0 = some 1 ∧ 7 < (u.leaseOf 1).tallies ∧ (u.leaseOf 1).tallies ≤ 8 ∧
      3 < (u.leaseOf 1).tallies ∧ (0x80010005 : Word).getLsbD 31 = true ∧ (0x000F0005 : Word).getLsbD 31 = false ∧
      waitHolds ((u.leaseOf 1).htally.get {} 7).value (BitVec.ofNat 16 ((0x80010005 : Word).toNat % 65536)) = false ∧
      waitHolds ((u.leaseOf 1).htally.get {} 3).value (BitVec.ofNat 16 ((0x80010004 : Word).toNat % 65536)) = true) ∧
    up.barOpen 0 = true ∧ (settleRegs 0 up).pageLease 0 = none := by
  decide +kernel
theorem witness_StewardLockAndTallyPage : up.barOpen 0 = true ∧ (settleRegs 0 up).host.steward ≠ 0xFFFF ∧
    (settleRegs 0 up).isSteward 0 = true ∧
    (let s := { up with host := { up.host with steward := 0xFFFF } }
     s.barOpen 0 = true ∧ fnIsPf 0 = true ∧ (settleRegs 0 s).host.steward = 0xFFFF ∧ (settleRegs 0 s).isSteward 0 = false) ∧
    ((0xFFFF : Word).toNat % 65536 = 0xFFFF) ∧
    (let u := settleRegs 0 up
     (u.leaseOf ((1 : Word).toNat % 65536)).st = .opened ∧ (u.leaseOf ((1 : Word).toNat % 65536)).owner = 0 ∧
     ¬((2 : Word).toNat % 65536 = 0xFFFF ∨ ((u.leaseOf ((2 : Word).toNat % 65536)).st = .opened ∧
       (u.leaseOf ((2 : Word).toNat % 65536)).owner = 0))) := by decide +kernel
theorem witness_WindowWriteLands : windowed.barOpen 0 = true ∧ [some (1 : Byte), none] ≠ [] ∧
    2097150 + [some (1 : Byte), none].length ≤ 2 ^ (windowed.fnOf 0).bar2Log2 ∧ win1.writable = true ∧
    (∀ k, k < 2 → windowAt windowed 0 (2097150 + k) = some (2, win1)) ∧
    (∀ k, k < 2 → windowAt windowed 0 (2097152 + k) = none) ∧ [some (1 : Byte), none].any Option.isSome = true ∧
    landing.host.writes.find? (fun w => w.id == write7.id) = some write7 ∧ write7.lost = false ∧ write7.ep = false ∧
    write7.data = [0xAB, 1].map some ∧ (landing.fnOf write7.fn).windows.get none write7.window = some win1 ∧
    behindOwn landing write7 = false ∧
    (let x := { write7 with id := 8 }
     let s := { landing with host := { landing.host with writes := [write7, x] } }
     s.host.writes.find? (fun w => w.id == x.id) = some x ∧ x.lost = false ∧ behindOwn s x = true) ∧
    (let x := { write7 with lost := true }
     ({ landing.host with writes := [x] }.writes.find? (fun w => w.id == x.id)) = some x ∧ x.lost = true) := by decide +kernel
theorem witness_WindowReads : windowed.barOpen 0 = true ∧ 2097088 + 64 ≤ 2 ^ (windowed.fnOf 0).bar2Log2 ∧ 0 < 64 ∧
    2097088 % 64 + 64 ≤ 64 ∧ windowed.host.writes.filter (fun w => w.fn == 0 && !w.lost) = [] ∧
    (∀ p ∈ unitPieces 2097087 65 (65 / 64 + 2), windowAt windowed 0 p.1 = some (2, win1)) ∧
    windowAt windowed 0 (2097088 + 63) = some (2, win1) ∧
    (let s := upFn { fnUp with winFault := { valid := true } }
     s.barOpen 0 = true ∧ 64 ≤ 2 ^ (s.fnOf 0).bar2Log2 ∧ s.host.writes = [] ∧ windowAt s 0 0 = none ∧
       (s.fnOf 0).winFault.valid = true) := by decide +kernel
theorem witness_FlushWaitsForWrites : up.barOpen 0 = true ∧
    (let s := landing.updFn 0 (fun y => { y with flushes := [([7], false), ([], true)] })
     (s.fnOf 0).flushes = ([7], false) :: [([], true)] ∧ 7 ∈ [7] ∧ 7 ∈ openWrites s 0) ∧
    (let s := up.updFn 0 (fun y => { y with flushes := [([7], true)] })
     (s.fnOf 0).flushes = ([7], true) :: [] ∧ ∀ i ∈ [7], i ∉ openWrites s 0) := by decide +kernel
theorem witness_MsixPendingAndUnmask : 15 < 16 ∧ (up.fnOf 0).msixMask.getLsbD 15 = true ∧ up.barOpen 0 = true ∧
    ((settleRegs 0 up).fnOf 0).msixPba.getLsbD 15 = false ∧
    (let s := upFn { fnUp with msixPba := 0x8000, msixEnable := true }
     let u := settleRegs 0 s
     s.barOpen 0 = true ∧ (u.fnOf 0).msixPba.getLsbD 15 = true ∧ (u.fnOf 0).msixEnable = true ∧ (u.fnOf 0).msixFMask = false ∧
       u.canSend 0 = true) := by decide +kernel
theorem witness_ConfigurationOfFunctions : (up.portOf (fnPort 0)).linkUp = true ∧ up.fnEnabled 0 = true ∧
    (up.fnOf 0).ready = true ∧ ((upFn { fnUp with ready := false }).fnOf 0).ready = false ∧
    ((upFn { fnUp with mse := false }).fnOf 0).mse = false ∧ (up.fnOf 0).mse = true ∧ up.boot.step = 12 ∧
    State.reset.boot.step ≠ 12 ∧
    mayTrain { up with host := { up.host with ports := [(0, { port0 with linkUp := false })] } } 0 = true := by decide +kernel
theorem witness_PortResets : (up.fnOf (257 * 0)).ready = true ∧ 1 ∈ up.openIds ∧ fnPort (up.leaseOf 1).owner = 0 ∧
    fnIsPf (up.leaseOf 1).owner = true ∧
    (let s := upLease { lease1 with owner := 1 }
     1 ∈ s.openIds ∧ fnPort (s.leaseOf 1).owner = 0 ∧ fnIsPf (s.leaseOf 1).owner = false) := by decide +kernel
/-- The virtual function 1 with a command in flight and lease 1. -/
def vf1 : State :=
  { up with
    host := { up.host with fns := [(1, fnUp)], flights := [{ fn := 1, msg := { seq := 1, bytes := 0 }, wait := .begun }] }
    own := { up.own with leases := [(1, { lease1 with owner := 1 })] } }
theorem witness_FunctionLevelReset : fnIsPf 1 = false ∧ vf1.isSteward 1 = false ∧ fnIsPf 0 = true ∧ 1 ∈ vf1.openOf 1 ∧ vf1.host.flights.all (fun x => x.fn == 1) = true := by
  decide +kernel

/-- A QUERY_CAPS that function 0 posted as number 9, and one that the checks refuse. -/
def msg9 : Msg := { seq := 9, bytes := entryOf [1, 0, 0, 0, 0xFF, 0xFF] }
def bad9 : Msg := { seq := 9, bytes := entryOf [0xEE] }
/-- That message in flight, waiting to begin. -/
def taken9 : Flight := { fn := 0, msg := { seq := 9, bytes := entryOf [0x14, 0, 0, 0, 1, 0] }, wait := .taken }
/-- A reserved opcode that names lease 1. -/
def failed9 : Flight := { fn := 0, msg := { seq := 9, bytes := entryOf [0xEE, 0, 0, 0, 1, 0] }, failed := some .badOpcode }
/-- One message of lease 1 before it. -/
def taken8 : Flight := { fn := 0, msg := { seq := 8, bytes := entryOf [0x14, 0, 0, 0, 1, 0] }, wait := .begun }
/-- `up` with messages in flight. -/
def flying (l : List Flight) : State := { up with host := { up.host with flights := l } }

theorem witness_MessagesTakenAndBegun :
    (let s := upFn { fnUp with queue := [bad9, msg9] }
     (s.fnOf 0).queue = bad9 :: [msg9] ∧ (takeChecks s 0 (entryBytes bad9.bytes)).isSome) ∧
    (let s := upFn { fnUp with queue := [msg9] }
     let u := s.updFn 0 (fun y => { y with queue := [], queueWm := sampleWm y.queueWm (decide (24 ≤ ([] : List Msg).length)) })
     (s.fnOf 0).queue = msg9 :: [] ∧ takeChecks u 0 (entryBytes msg9.bytes) = none ∧
       subListed (msgOp (entryBytes msg9.bytes)) (fieldAt (entryBytes msg9.bytes) 8 1) = true) ∧
    (let s := flying [taken8, taken9]
     flightOf s 0 9 = some taken9 ∧ taken9.wait = .taken ∧
       mayBegin 0 (msgLease (entryBytes taken9.msg.bytes)) [taken8] = false) ∧
    (let s := flying [taken9]
     let b := entryBytes taken9.msg.bytes
     flightOf s 0 9 = some taken9 ∧ mayBegin 0 (msgLease b) [] = true ∧ leaseCheck s 0 b = none ∧ quenchCheck s b = none ∧
       subListed (msgOp b) (fieldAt b 8 1) = true) ∧
    (let s := (flying [taken9]).setLease 1 {}
     flightOf s 0 9 = some taken9 ∧ (leaseCheck s 0 (entryBytes taken9.msg.bytes)).isSome) ∧
    flightOf (flying [failed9]) 0 9 = some failed9 ∧ failed9.failed = some .badOpcode ∧ taken9.failed = none ∧
    mayBegin 0 (msgLease (entryBytes bad9.bytes)) [taken8] = true ∧
    mayBegin 0 (msgLease (entryBytes failed9.msg.bytes)) [taken8] = false ∧
    (let b := entryOf [0x24, 0, 0, 0, 2, 0]
     let s := flying [{ fn := 0, msg := { seq := 9, bytes := b }, wait := .begun }]
     s.begun 0 9 (entryBytes b) = true ∧ msgOp (entryBytes b) = 0x24 ∧
       staleStatus s 0 0x24 (entryBytes b) = some .noLease) := by decide +kernel
theorem witness_CommandReplies : flightOf (flying [taken8]) 0 8 = some taken8 ∧ taken8.discard = false ∧
    flightOf (flying [{ taken8 with discard := true }]) 0 8 = some { taken8 with discard := true } := by decide +kernel

end Sys2Proof.Tests
end

