-- ==== Sys2Proof/Tests/Module.lean ====
section
/-! SUPPORT. Witnesses: for each statement about repair, security, power, start-up and the module, concrete states and operands
that meet the hypotheses of each of its clauses. -/
namespace Sys2Proof.Tests
set_option Elab.async false
open Sys2Proof.Machine

/-! ### Repair -/

/-- Column 8 of die 0 waits to be steered. -/
def steerable : State := { up with dev := { up.dev with dies := [(0, { pendingSteer := some 8 })] } }
/-- Scrub domain 1 of die 0. -/
def scrubbed (b : Scrub) : State := { up with sclk := 250000000, ras := { up.ras with scrubs := [(1, b)] } }

set_option maxRecDepth 100000 in
theorem witness_RasRows :
    [(up.regionOf 5).resident == none && (up.regionOf 5).testedAt == none && up.regionFree 5,
     tileRegion 3 == 0 && decide (2500000 ≤ { up with sclk := 2500000 }.sclk - (up.regionOf 5).vacantAt),
     decide ({ up with sclk := 2499999 }.sclk - (up.regionOf 5).vacantAt < 2500000),
     (up.dev.dies.get {} 0).pendingSteer == none,
     (steerable.dev.dies.get {} 0).pendingSteer == some 8 && !steerable.quenched &&
       (groupRegions 0 8).all (fun r => (steerable.regionUsers r).isEmpty && (steerable.regionOf r).emulation == none),
     !up.power.scrub.pending && !up.ras.cfgDisabled,
     (2 ^ 34 * 1 + 7) / 2 ^ 34 == 1 && (up.leaseOf 1).st != .free,
     (let s := scrubbed { escalated := true, quietAt := 0 }
      let b := s.ras.scrubs.get {} 1
      b.escalated && decide (250000000 ≤ s.sclk - b.quietAt) && (upTo 10).all (fun k => decide (errsIn s.sclk b k < 16))),
     (let s := scrubbed { escalated := true, errs := List.replicate 16 249999999 }
      decide (16 ≤ errsIn s.sclk (s.ras.scrubs.get {} 1) 0)),
     -- the canary passes, and does not
     (up.ras.scrubs.get {} 2).pass % 2304 == 0 && sealedFrames up 0 == 0, !(1 == (up.ras.scrubs.get {} 2).pass % 2304),
     -- the Burnisher: a column of region 0 that is not sealed, and one that is; the other scrubbers read every line
     !(scrubReads up 0 2 0),
     (let s := up.updRegion 0 (fun y => { y with sealedCols := 1 })
      scrubReads s 0 2 (1024 * 8 - 1) && !(scrubReads s 0 2 (1024 * 32))),
     scrubReads up 0 0 0 && scrubReads up 0 1 (2 ^ 34),
     pageCurrent 1983 (up.ras.pages.get {} 1983) != none && (List.replicate 1024 (0 : Byte)).length == 1024,
     (let s := { up with ras := { up.ras with logDirty := [1000] } }
      s.ras.logDirty.contains 1000 && pageCurrent 1000 (s.ras.pages.get {} 1000) != none)]
    = List.replicate 16 true := by decide +kernel

/-- A page whose first write is complete, and one whose copy B is the newer. -/
def written : Page := pageWrite 7 (List.replicate 1024 1) 1056 {}
def twice : Page := pageWrite 7 (List.replicate 1024 2) 1056 written

set_option maxRecDepth 100000 in
theorem witness_DurablePageOldOrNew : up.ras.pages = [] ∧ (List.replicate 1024 (1 : Byte)).length = 1024 ∧
    pageCurrent 7 {} = some true ∧ pageCurrent 7 written = some false ∧ pageCurrent 7 twice = some true := by decide +kernel

/-! ### Security -/

/-- Port 0 at a state of its SPDM connection. -/
def spdm0 (x : SpdmState) : State := { up with host := { up.host with ports := [(0, { port0 with spdm := x })] } }
/-- Its link stream is Secure. -/
def keyed : State := { up with host := { up.host with ports := [(0, { port0 with ide := [(0, { secure := true })] })] } }

/-- Its selective stream 3 is Secure, for the addresses from 0x1000 to 0x1FFF. -/
def peered : State := { up with host := { up.host with
  ports := [(0, { port0 with ide := [(3, { secure := true, base := 0x1000, limit := 0x1FFF })] })] } }

theorem witness_SecurityRows :
    [drbgOk up && decide (65536 ≤ { up with sec := { up.sec with drbgReqs := 65536 } }.sec.drbgReqs),
     decide (25000000 ≤ { up with sclk := 25000000 }.sclk - up.sec.drbgAt), up.mod.standby,
     { up with sec := { up.sec with entropyFail := true } }.sec.entropyFail,
     ((keyed.portOf 0).ide.get {} 0).secure && fnPort 0 == 0, keyed.ideFor 0 0x1000 false == some 0,
     ideCovers (peered.portOf 0) 0x1000 3 && ideCovers (peered.portOf 0) 0x1FFF 3 && !(ideCovers (peered.portOf 0) 0x2000 3) &&
       peered.ideFor 0 0x1000 true == some 3 && peered.ideFor 0 0x1000 false == none && peered.ideFor 0 0x2000 true == none,
     { peered with sec := { up.sec with policy := 1 } }.sec.policy.getLsbD 0 &&
       { peered with sec := { up.sec with policy := 1 } }.ideFor 0 0x2000 true == none,
     doeOpen (spdm0 .session) 0 && (spdm0 .session).portOf 0 == { port0 with spdm := .session } && drbgOk (spdm0 .session),
     doeOpen (spdm0 .start) 0 && ((spdm0 .start).portOf 0).spdm != .session && !(negotiated (spdm0 .start) 0),
     [SpdmState.capabilities, .version, .handshake].all (fun x => doeOpen (spdm0 x) 0 && ((spdm0 x).portOf 0).spdm == x),
     negotiated (spdm0 .negotiated) 0 && !(spdm0 .negotiated).sec.debugUnlocked,
     { spdm0 .negotiated with sec := { up.sec with debugUnlocked := true } }.sec.debugUnlocked,
     !(drbgOk { spdm0 .negotiated with sec := { up.sec with entropyFail := true } })]
    = List.replicate 14 true := by decide +kernel
theorem witness_SecurityRows_measurement : ∃ m, measurement (spdm0 .negotiated) 5 = some m := ⟨_, rfl⟩

/-- Vector 10 of IEEE 1619 (XTS-AES-256): its key pair, the bytes 0 to 63 under the tweak 0xFF, and the first bytes of the result. -/
def vectorKey : BitVec 512 := BitVec.ofNat 512 (leNat ([
  0x27, 0x18, 0x28, 0x18, 0x28, 0x45, 0x90, 0x45, 0x23, 0x53, 0x60, 0x28, 0x74, 0x71, 0x35, 0x26,
  0x62, 0x49, 0x77, 0x57, 0x24, 0x70, 0x93, 0x69, 0x99, 0x59, 0x57, 0x49, 0x66, 0x96, 0x76, 0x27,
  0x31, 0x41, 0x59, 0x26, 0x53, 0x58, 0x97, 0x93, 0x23, 0x84, 0x62, 0x64, 0x33, 0x83, 0x27, 0x95,
  0x02, 0x88, 0x41, 0x97, 0x16, 0x93, 0x99, 0x37, 0x51, 0x05, 0x82, 0x09, 0x74, 0x94, 0x45, 0x92] : List Byte))
theorem test_xts_vector : (xtsSeal vectorKey 0xFF (List.range 64)).take 16 =
    [0x1C, 0x3B, 0x3A, 0x10, 0x2F, 0x77, 0x03, 0x86, 0xE4, 0x83, 0x6C, 0x99, 0xE3, 0x70, 0xCF, 0x9B] := by decide +kernel
theorem witness_HbmIsEncrypted : (List.replicate 64 (0 : Byte)).length = 64 ∧ (up.hbmRead 1 0 64).length = 64 := by decide +kernel

/-! ### Power -/

/-- A die that nothing limits and whose budget permits 2.0 GHz. -/
def calm : DieSense := { tj := 800, hbmTemp := 800, overCurrent := false, powerSteps := 0, budgetF := 80, budgetT := 80 }

theorem witness_PowerRows :
    [(Sensors.mk [calm]).dies[0]? == some calm && !(up.clkOf 0).stopped && !up.power.lowFlow && !(up.clkOf 0).freq.pending &&
       limitsOf (up.clkOf 0) (withPool (safePoint .power up) 0 calm) false == [] && decide (floorOf (up.clkOf 0).freq.live ≤ (up.clkOf 0).fTarget),
     decide (1250 ≤ { up with sclk := 1250 }.sclk - (up.clkOf 0).fChanged),
     (let x := { calm with budgetF := 40 }
      decide (max (floorOf (up.clkOf 0).freq.live) (min (fclkCap (up.clkOf 0).freq.live) x.budgetF) ≤ (up.clkOf 0).fTarget)),
     decide ((1600 : Int) ≤ { calm with tj := 1600 }.tj) && { calm with overCurrent := true }.overCurrent,
     ((up.setClk 0 { clkUp with droopOwed := true, droop := true }).clkOf 0).droopOwed &&
       ((up.setClk 0 { clkUp with droopOwed := true, droop := true }).clkOf 0).droop,
     (State.reset.clkOf 0).stopped,
     { up with boot := { up.boot with state := 5 } }.boot.state == 5,
     { up with power := { up.power with triggers := 16 } }.power.triggers.getLsbD (5 - 1) && !(up.power.triggers.getLsbD (1 - 1)),
     pastStep12 up]
    = List.replicate 9 true := by decide +kernel

/-! ### Start-up -/

/-- A module whose slot 0 holds the signed image, as reset leaves it otherwise. -/
def loaded : State := { fused State.reset with boot := { State.reset.boot with slots := [(0, { state := 2, image := image fwMagic })] } }
/-- Standby power with the supply valid. -/
def standby : State :=
  { State.reset with boot := { State.reset.boot with state := 1, step := 4 }, mod := { State.reset.mod with standby := true, j1 := 1 } }
/-- A Quench trigger persists, and main power enabled. -/
def triggered : State := { standby with power := { standby.power with triggers := 1 } }
def enabled : State :=
  { standby with mod := { standby.mod with mainOn := true }, boot := { standby.boot with state := 2, step := 5 } }
/-- The hub frame that holds the recovery package, pushed and waiting. -/
def pushedWith (s : State) : State :=
  { s with boot := { s.boot with
      state := 6, pushed := true, hubFrames := [(0, BitVec.ofNat 2048 (leNat (image recoveryMagic)))] } }
/-- Nothing fails at start-up. -/
def sound : StartupTests := { failedUnits := [], failedTiles := [], exhaustedRows := [], hubConfigOk := true, hangAt := none }

set_option maxRecDepth 100000 in
theorem witness_StartupRows_standby : loaded.mod.standby = false ∧ pageCurrent 4 (loaded.ras.pages.get {} 4) ≠ none ∧
    loaded.boot.attempts < 3 := by decide +kernel
theorem witness_StartupRows_image : imgCheck loaded fwMagic (loaded.boot.slots.get {} loaded.boot.selected).image = .ok :=
  imgCheck_image (by rfl) (by decide)
theorem witness_StartupRows_noImage : ∀ k, imgCheck State.reset fwMagic (State.reset.boot.slots.get {} k).image ≠ .ok := by
  intro k
  show imgCheck State.reset fwMagic [] ≠ .ok
  decide +kernel
theorem witness_StartupRows :
    [(let s := standby
      s.boot.state == 1 && !s.mod.mainOn && s.mod.j1 == 1 && s.power.triggers == 0 && !s.boot.restart5),
     (let s := { standby with boot := { standby.boot with restart5 := true, clearSince := some 5 }, sclk := 250000005 }
      s.boot.restart5 && s.boot.clearSince == some 5 && decide (250000000 ≤ s.sclk - 5)),
     (let s := { standby with boot := { standby.boot with restart5 := true, clearSince := some 5 }, sclk := 250000004 }
      s.boot.clearSince == some 5 && decide (s.sclk - 5 < 250000000)),
     State.reset.mod.j1 != 1, triggered.power.triggers != 0,
     enabled.mod.mainOn && !enabled.mod.mainGood && enabled.boot.state == 2 && !enabled.boot.recovery,
     sound.failedUnits == [] && sound.failedTiles == [] && sound.exhaustedRows == [] && sound.hangAt == none && sound.hubConfigOk,
     !standby.mod.mainOn, up.mod.mainOn && up.boot.step == 12,
     (let s := { up with boot := { up.boot with state := 2, goodAt := 5 }, sclk := 75000005 }
      s.boot.state == 2 && s.mod.mainGood && decide (75000000 ≤ s.sclk - s.boot.goodAt)),
     [2, 3].all (fun k => let s := { up with boot := { up.boot with resetPending := k } }
      s.boot.resetPending == k && s.boot.state != 5),
     (let s := pushedWith (fused up)
      s.boot.pushed && s.boot.state == 6 && !s.boot.recovery)]
    = List.replicate 12 true := by decide +kernel

/-- The device with the key fused and a rollback floor. -/
def floored (n : Nat) : State := let s := fused up; { s with sec := { s.sec with floor := n } }
set_option maxRecDepth 100000 in
theorem package_pushed : pushedPackage (pushedWith up) = image recoveryMagic ∧
    pushedPackage (pushedWith (floored 3)) = image recoveryMagic ∧
    pushedPackage (pushedWith (floored 4)) = image recoveryMagic := by decide +kernel
theorem witness_StartupRows_package : imgCheck (pushedWith (floored 3)) recoveryMagic (pushedPackage (pushedWith (floored 3))) = .ok := by
  rw [package_pushed.2.1]
  exact imgCheck_package (by rfl) (by decide +kernel)
theorem witness_StartupRows_key : imgCheck (pushedWith up) recoveryMagic (pushedPackage (pushedWith up)) = .key := by
  rw [package_pushed.1]
  decide +kernel
theorem witness_StartupRows_svn : imgCheck (pushedWith (floored 4)) recoveryMagic (pushedPackage (pushedWith (floored 4))) = .svn := by
  rw [package_pushed.2.2]
  exact imgCheck_package_svn (by rfl) (by decide +kernel)

/-! ### The module controller -/

/-- A median of readings. -/
def leaking (l : List Nat) : State := { up with mod := { up.mod with leak := l } }
/-- The firmware update that an image begins. -/
def updatable : State := fused up
def updating : State := { updatable with boot := { up.boot with updating := some [1] } }

theorem witness_ModuleRows :
    [up.mod.standby && up.mod.mainOn, { up with boot := { up.boot with state := 5 } }.boot.state == 5,
     !{ up with mod := { up.mod with mainOn := false } }.mod.mainOn,
     medianOf ((2100 :: (leaking [2100, 2100, 1200]).mod.leak).take 5) == 2100 && !(up.power.triggers.getLsbD 2),
     medianOf ((300 :: (leaking [300, 300, 2000]).mod.leak).take 5) == 300,
     decide (medianOf ((299 :: (leaking [299, 299]).mod.leak).take 5) < 300),
     decide (2100 < medianOf ((2101 :: (leaking [2101, 2101]).mod.leak).take 5)), !(up.power.triggers.getLsbD 3),
     (let s := { up with sclk := 50000000, mod := { up.mod with lowSince := some 0 } }
      decide (50000000 ≤ s.sclk - s.mod.lowSince.getD s.sclk)),
     !up.mod.warned, { up with mod := { up.mod with quenchDrive := true } }.mod.quenchDrive, up.boot.state != 6,
     (sensorValue up 13).isSome && (sensorValue up 14).isSome, up.boot.state != 0 && up.boot.updating == none,
     updating.boot.updating == some [1],
     (let s := { up with boot := { up.boot with slots := [(1, { state := 2 })] } }
      inactiveSlot s == 1 && (s.boot.slots.get {} 1).state == 2), (up.boot.slots.get {} 1).state != 2,
     !up.sec.debugUnlocked, { up with sec := { up.sec with debugUnlocked := true } }.sec.debugUnlocked]
    = List.replicate 19 true := by decide +kernel
theorem witness_ModuleRows_image : imgCheck updatable fwMagic (image fwMagic) = .ok ∧ (image fwMagic).length ≤ 16777216 :=
  ⟨imgCheck_image (by rfl) (by decide), by decide +kernel⟩

end Sys2Proof.Tests
end

/-! PROOFS. Register accesses through BAR0 and BAR4 (chapter 00): what a write that comes into force does, what the registers of
MBX_MSG and of a staged group read and take, and the statements about them. -/
namespace Sys2Proof.Machine

/-! ### Fields of numbers -/

/-- A number with a field replaced, as its part above the field, the field and its part below. -/
theorem natPut_eq (x lo len v : Nat) :
    natPut x lo len v = 2 ^ lo * (2 ^ len * (x / 2 ^ lo / 2 ^ len) + v % 2 ^ len) + x % 2 ^ lo := by
  have hlo : 2 ^ lo * (x / 2 ^ lo) + x % 2 ^ lo = x := Nat.div_add_mod x _
  have hfield : 2 ^ lo * (2 ^ len * (x / 2 ^ lo / 2 ^ len)) + x / 2 ^ lo % 2 ^ len * 2 ^ lo = 2 ^ lo * (x / 2 ^ lo) := by
    rw [Nat.mul_comm (_ % _), ← Nat.mul_add, Nat.div_add_mod]
  rw [natPut, natBits, Nat.mul_add, Nat.mul_comm (v % _)]
  omega

/-- The bits of a number with a field replaced: the field's are the new value's, the others stand. -/
theorem testBit_natPut (x lo len v j : Nat) :
    (natPut x lo len v).testBit j = if lo ≤ j ∧ j < lo + len then v.testBit (j - lo) else x.testBit j := by
  rw [natPut_eq, Nat.testBit_two_pow_mul_add _ (Nat.mod_lt _ (Nat.two_pow_pos lo)),
    Nat.testBit_two_pow_mul_add _ (Nat.mod_lt _ (Nat.two_pow_pos len))]
  by_cases hlow : j < lo
  · simp [hlow, Nat.testBit_mod_two_pow]
  · by_cases hin : j < lo + len
    · have : j - lo < len := by omega
      simp [hlow, hin, this, Nat.testBit_mod_two_pow, Nat.le_of_not_lt hlow]
    · have h1 : ¬ j - lo < len := by omega
      have h2 : j - lo - len + len + lo = j := by omega
      simp [hlow, hin, h1, h2, Nat.testBit_div_two_pow]

theorem testBit_natBits (x lo len j : Nat) : (natBits x lo len).testBit j = (decide (j < len) && x.testBit (lo + j)) := by
  simp [natBits, Nat.testBit_mod_two_pow, Nat.testBit_div_two_pow, Nat.add_comm]

theorem natBits_natPut_same (x lo len v : Nat) : natBits (natPut x lo len v) lo len = v % 2 ^ len := by
  apply Nat.eq_of_testBit_eq
  intro j
  by_cases hj : j < len <;> simp [testBit_natBits, testBit_natPut, Nat.testBit_mod_two_pow, hj]

theorem natBits_natPut_disjoint {lo len lo' len' : Nat} (h : lo' + len' ≤ lo ∨ lo + len ≤ lo') (x v : Nat) :
    natBits (natPut x lo len v) lo' len' = natBits x lo' len' := by
  apply Nat.eq_of_testBit_eq
  intro j
  by_cases hj : j < len'
  · have : ¬ (lo ≤ lo' + j ∧ lo' + j < lo + len) := by omega
    simp [testBit_natBits, testBit_natPut, this]
  · simp [testBit_natBits, hj]

/-- A field below bit `n` stands where a number is cut to `n` bits. -/
theorem natBits_toNat_ofNat {lo len n : Nat} (h : lo + len ≤ n) (x : Nat) :
    natBits (BitVec.ofNat n x).toNat lo len = natBits x lo len := by
  apply Nat.eq_of_testBit_eq
  intro j
  by_cases hj : j < len
  · have : lo + j < n := by omega
    simp [testBit_natBits, BitVec.toNat_ofNat, Nat.testBit_mod_two_pow, this]
  · simp [testBit_natBits, hj]

/-! ### Changes of a function -/

@[simp] theorem State.fnOf_updFn (s : State) (f : Nat) (g : Fn → Fn) : (s.updFn f g).fnOf f = g (s.fnOf f) :=
  s.fnOf_setFn f _
theorem State.fnOf_updFn_ne (s : State) {f j : Nat} (g : Fn → Fn) (h : j ≠ f) : (s.updFn f g).fnOf j = s.fnOf j :=
  s.fnOf_setFn_ne _ h

/-! ### Array registers -/

theorem arrIx_entry {i n : Nat} (base : Nat) (h : i < n) : arrIx (base + 4 * i) base n = some i := by
  have hpos : base ≤ base + 4 * i ∧ base + 4 * i < base + 4 * n ∧ (base + 4 * i - base) % 4 = 0 := by omega
  have hix : (base + 4 * i - base) / 4 = i := by omega
  rw [arrIx, if_pos hpos, hix]

theorem arrIx_outside {off base n : Nat} (h : off < base ∨ base + 4 * n ≤ off) : arrIx off base n = none := by
  have : ¬ (base ≤ off ∧ off < base + 4 * n ∧ (off - base) % 4 = 0) := by omega
  rw [arrIx, if_neg this]

theorem State.nDies_le (s : State) : s.nDies ≤ 4 := by
  unfold State.nDies
  split <;> omega

/-! ### Writes (00 R6, R10) -/

theorem aligned_iff {off size : Nat} : aligned off size = true ↔ (size = 4 ∧ off % 4 = 0) ∨ (size = 8 ∧ off % 8 = 0) := by
  simp [aligned]

theorem aligned_eq_false {off size : Nat} (h4 : ¬(size = 4 ∧ off % 4 = 0)) (h8 : ¬(size = 8 ∧ off % 8 = 0)) :
    aligned off size = false :=
  Bool.eq_false_iff.mpr fun h => (aligned_iff.mp h).elim h4 h8

/-- R6 for a write, whatever the register. -/
theorem regWrite_misaligned {off size : Nat} (h : aligned off size = false) (bar4 : Bool) (f : Nat) (v : DWord) (s : State) :
    regWrite bar4 f off size v s = s := by
  simp [regWrite, h]

theorem regWrite_bar0_dword {off : Nat} (h : off % 4 = 0) (f : Nat) (v : DWord) (s : State) :
    regWrite false f off 4 v s = writeReg f off (v.truncate 32) s := by
  have ha : aligned off 4 = true := aligned_iff.mpr (.inl ⟨rfl, h⟩)
  simp [regWrite, ha]

theorem exec_registerWrite (bar4 : Bool) (fn off size : Nat) (v : DWord) (late : Bool) (s : State) :
    exec (.registerWrite bar4 fn off size v late) s = .next (hostWrite bar4 fn off size v late s) := rfl

/-- R10, at once: the write comes into force after the earlier ones of its function. -/
theorem exec_registerWrite_open {s : State} {fn : Nat} (h : s.barOpen fn = true) (bar4 : Bool) (off size : Nat) (v : DWord) :
    exec (.registerWrite bar4 fn off size v false) s = .next (regWrite bar4 fn off size v (settleRegs fn s)) := by
  simp [exec_registerWrite, hostWrite, h]

/-- R10, later: the write is only kept, behind the earlier ones of its function. -/
theorem exec_registerWrite_late {s : State} {fn : Nat} (h : s.barOpen fn = true) (bar4 : Bool) (off size : Nat) (v : DWord) :
    exec (.registerWrite bar4 fn off size v true) s = .next (s.updFn fn (fun y => { y with
      regWrites := y.regWrites ++ [{ bar4 := bar4, off := off, size := size, val := v }] })) := by
  simp [exec_registerWrite, hostWrite, h]

theorem settleRegs_nil {s : State} {fn : Nat} (h : (s.fnOf fn).regWrites = []) : settleRegs fn s = s := by
  simp [settleRegs, h]

/-! ### Reads (00 R6, R7) -/

/-- R6 for a read. -/
theorem hostRead_misaligned {off size : Nat} (h : aligned off size = false) (s : State) (bar4 : Bool) (f : Nat) :
    hostRead s bar4 f off size = 0 := by
  simp [hostRead, h]

theorem hostRead_dword {off : Nat} (h : off % 4 = 0) (s : State) (bar4 : Bool) (f : Nat) :
    hostRead s bar4 f off 4 = (if bar4 then readBar4 s f off else readReg s f off).zeroExtend 64 := by
  have ha : aligned off 4 = true := aligned_iff.mpr (.inl ⟨rfl, h⟩)
  simp [hostRead, ha]

/-- R7: a 64-bit read joins what 32-bit reads of its two halves return. -/
theorem hostRead_qword {off : Nat} (h : off % 8 = 0) (s : State) (bar4 : Bool) (f : Nat) :
    hostRead s bar4 f off 8 = hostRead s bar4 f off 4 ||| (hostRead s bar4 f (off + 4) 4 <<< 32) := by
  have ha : aligned off 8 = true := aligned_iff.mpr (.inr ⟨rfl, h⟩)
  rw [hostRead_dword (by omega), hostRead_dword (by omega)]
  simp [hostRead, ha]

theorem truncate_or_shiftLeft (a b : DWord) : (a ||| (b <<< 32)).truncate 32 = a.truncate 32 := by
  ext i hi
  simp

/-- The first word must fit the low half: a wider one would reach into the high half. -/
theorem truncate_ushiftRight_or (a : Word) (b : DWord) :
    ((a.zeroExtend 64 ||| (b <<< 32)) >>> 32).truncate 32 = b.truncate 32 := by
  ext i hi
  have : 32 + i < 64 := by omega
  simp [this, BitVec.getLsbD_eq_getElem (show i < 64 by omega)]

/-- The pages from MBX_MSG to the host tally page, exclusive, are the function's own (23 R547). -/
theorem readReg_fnPage {off : Nat} (hlo : 0x1000 ≤ off) (hhi : off < 0x4000) (s : State) (f : Nat) :
    readReg s f off = readFnPage s f off := by
  unfold readReg
  repeat rw [if_neg (by omega)]

section
/-! A write that is accepted and not yet in force is seen by no read. -/
variable (s : State) (f : Nat) (ws : Fn → List RegWrite)

theorem State.pageLease_regWrites :
    (s.updFn f (fun y => { y with regWrites := ws y })).pageLease f = s.pageLease f := by
  simp only [State.pageLease, State.fnOf_updFn]

theorem readTallyPage_regWrites (off : Nat) :
    readTallyPage (s.updFn f (fun y => { y with regWrites := ws y })) f off = readTallyPage s f off := by
  simp only [readTallyPage, State.pageLease_regWrites, State.fnOf_updFn]
  rfl

theorem readFnPage_regWrites (off : Nat) :
    readFnPage (s.updFn f (fun y => { y with regWrites := ws y })) f off = readFnPage s f off := by
  simp only [readFnPage, State.fnOf_updFn, mbxStatus]

theorem readReg_regWrites (off : Nat) :
    readReg (s.updFn f (fun y => { y with regWrites := ws y })) f off = readReg s f off := by
  simp only [readReg, readTallyPage_regWrites, readFnPage_regWrites]
  rfl

theorem readBar4_regWrites (off : Nat) :
    readBar4 (s.updFn f (fun y => { y with regWrites := ws y })) f off = readBar4 s f off := by
  simp only [readBar4, State.fnOf_updFn]

theorem hostRead_regWrites (bar4 : Bool) (off size : Nat) :
    hostRead (s.updFn f (fun y => { y with regWrites := ws y })) bar4 f off size = hostRead s bar4 f off size := by
  simp only [hostRead, readBar4_regWrites, readReg_regWrites]

end

/-! ### MBX_MSG (16 Table 16.1) -/

/-- The 64 bytes of MBX_MSG with word `i` replaced. -/
def msgPut (m : Entry) (i : Nat) (v : Word) : Entry := BitVec.ofNat 512 (natPut m.toNat (32 * i) 32 v.toNat)
/-- Word `i` of MBX_MSG. -/
def msgWord (m : Entry) (i : Nat) : Word := BitVec.ofNat 32 (natBits m.toNat (32 * i) 32)

theorem msgWord_msgPut_same {i : Nat} (h : i < 16) (m : Entry) (v : Word) : msgWord (msgPut m i v) i = v := by
  rw [msgWord, msgPut, natBits_toNat_ofNat (by omega), natBits_natPut_same, Nat.mod_eq_of_lt v.isLt, BitVec.ofNat_toNat,
    BitVec.setWidth_eq]

theorem msgWord_msgPut_ne {i j : Nat} (hj : j < 16) (h : j ≠ i) (m : Entry) (v : Word) :
    msgWord (msgPut m i v) j = msgWord m j := by
  rw [msgWord, msgPut, natBits_toNat_ofNat (by omega), natBits_natPut_disjoint (by omega), msgWord]

theorem writeReg_msg {i : Nat} (h : i < 16) (f : Nat) (v : Word) (s : State) :
    writeReg f (0x1000 + 4 * i) v s = s.updFn f (fun y => { y with msg := msgPut y.msg i v }) := by
  have : ¬ 0x8000 ≤ 0x1000 + 4 * i := by omega
  rw [writeReg, if_neg this, arrIx_entry _ h]
  rfl

theorem readReg_msg {i : Nat} (h : i < 16) (s : State) (f : Nat) :
    readReg s f (0x1000 + 4 * i) = msgWord (s.fnOf f).msg i := by
  rw [readReg_fnPage (by omega) (by omega), readFnPage, arrIx_entry _ h]
  rfl

/-! ### Staged groups (00 R14 to R16) -/

/-- R16 for a store into the staged copy. -/
theorem stage_pending {s : State} {g : Group} (h : (s.groupOf g).pending = true) (merge : Nat → Nat) :
    s.stage g merge = s.setGroup g { s.groupOf g with drop := true } := by
  simp [State.stage, stageWrite, h]

theorem commitWrite_one (g : Stg) : commitWrite g 1 = { g with pending := true } := rfl

/-- R16 for a further request. -/
theorem commitWrite_one_pending {g : Stg} (h : g.pending = true) : commitWrite g 1 = g := by
  cases g
  cases h
  rfl

theorem exec_commit (fn : Nat) (g : Group) (v : Word) (s : State) : exec (.commit fn g v) s =
    .next (gated fn (fun s => if mayCommit s fn g then writeCommit g v s else s) s) := rfl

/-- Through an open BAR a commit register takes the write of a function that may commit. -/
theorem exec_commit_open {s : State} {fn : Nat} {g : Group} (h : s.barOpen fn = true)
    (hc : mayCommit (settleRegs fn s) fn g = true) (v : Word) :
    exec (.commit fn g v) s = .next (writeCommit g v (settleRegs fn s)) := by
  rw [exec_commit, gated_open h, if_pos hc]

/-- TMP_POWER takes the steward's write as a staged field. -/
theorem writeReg_power {s : State} {f : Nat} (hpf : fnIsPf f = true) (hst : s.isSteward f = true) (v : Word) :
    writeReg f 0x8130 v s = s.stage .power (fun o => mergePower o v.toNat) := by
  have hd := s.nDies_le
  simp [writeReg, writeSteward, hpf, hst, arrIx_outside (off := 0x8130) (base := 0x8100) (n := s.nDies) (by omega),
    arrIx_outside (off := 0x8130) (base := 0x8110) (n := s.nDies) (by omega)]

theorem transfer_pending {g : Stg} (h : g.pending = true) : transfer g = { g with live := g.staged, pending := false } := by
  simp [transfer, h]

/-- A safe point also answers the POWER_POLICY commands that wait for it (20 R493); here none is in flight. -/
theorem safePoint_of_flights_nil {g : Group} {s : State} (hp : (s.groupOf g).pending = true)
    (hf : (transferGroup g s).host.flights = []) : safePoint g s = transferGroup g s := by
  simp [safePoint, hp, hf]

/-- The transfer of the pending group of TMP_POWER changes that group alone. -/
theorem transferGroup_power {s : State} (hp : s.power.power.pending = true) :
    transferGroup .power s = { s with power := { s.power with power :=
      { s.power.power with live := s.power.power.staged, pending := false } } } := by
  have : (s.groupOf .power).pending = true := hp
  rw [transferGroup, if_pos this, transfer_pending this]
  rfl

theorem exec_commitTransfer (g : Group) (s : State) : exec (.commitTransfer g) s =
    .next (if (s.groupOf g).pending && atSafePoint s g then safePoint g (newFrames g s) else s) := rfl

theorem exec_commitTransfer_power {s : State} (hp : s.power.power.pending = true) (hf : s.host.flights = []) :
    exec (.commitTransfer .power) s = .next { s with power := { s.power with power :=
      { s.power.power with live := s.power.power.staged, pending := false } } } := by
  have hg : (s.groupOf .power).pending = true := hp
  have hsp : safePoint .power s = transferGroup .power s :=
    safePoint_of_flights_nil hg (by rw [transferGroup_power hp]; exact hf)
  rw [← transferGroup_power hp, ← hsp]
  simp [exec_commitTransfer, newFrames, atSafePoint, hg]

/-! ### The statements -/

/-- Settles O9: the write to MBX_MSG replaces one word of the function's 64 bytes, and a late write only joins the function's
writes under way, which no read looks at. -/
theorem registerWriteReadsBack : Obligations.RegisterWriteReadsBack := by
  unfold Obligations.RegisterWriteReadsBack
  refine ⟨fun s fn i v hopen hi => ?_, fun s bar4 fn off size v hopen => ?_, fun s fn h => settleRegs_nil h⟩
  · intro u
    refine ⟨u.updFn fn (fun y => { y with msg := msgPut y.msg i (v.truncate 32) }), ?_, ?_, fun j hj hne => ?_,
      fun g hg => u.fnOf_updFn_ne _ hg, rfl⟩
    · rw [exec_registerWrite_open hopen, regWrite_bar0_dword (by omega), writeReg_msg hi]
    · rw [readReg_msg hi, State.fnOf_updFn, msgWord_msgPut_same hi]
    · rw [readReg_msg hj, readReg_msg hj, State.fnOf_updFn, msgWord_msgPut_ne hj hne]
  · exact ⟨exec_registerWrite_late hopen bar4 off size v, fun b k n => hostRead_regWrites s fn _ b k n,
      fun g hg => s.fnOf_updFn_ne _ hg⟩

/-- Settles O10: neither a write nor a read gets past the alignment check, and a 64-bit read joins the 32-bit reads of its
halves. -/
theorem misalignedAccessDiscarded : Obligations.MisalignedAccessDiscarded := by
  unfold Obligations.MisalignedAccessDiscarded
  refine ⟨fun s bar4 fn off size v h4 h8 => ?_, fun s bar4 fn off h => ⟨?_, ?_⟩⟩
  · have ha := aligned_eq_false h4 h8
    refine ⟨hostRead_misaligned ha s bar4 fn, fun hopen => ?_⟩
    rw [exec_registerWrite_open hopen, regWrite_misaligned ha]
  · rw [hostRead_qword h, truncate_or_shiftLeft]
  · rw [hostRead_qword h, hostRead_dword (by omega), truncate_ushiftRight_or]

/-- Settles O11: the pending group drops the staged write, stands under a further request, and moves whole at the transfer. -/
theorem stagedCommitTransfer : Obligations.StagedCommitTransfer := by
  unfold Obligations.StagedCommitTransfer
  intro s fn hopen u hst hpf
  have hcommit : exec (.commit fn .power 1) s = .next (writeCommit .power 1 u) := exec_commit_open (g := .power) hopen hst 1
  refine ⟨by rw [hcommit, writeCommit, commitWrite_one], fun hp => ?_⟩
  have hg : (u.groupOf .power).pending = true := hp
  refine ⟨fun v => ?_, ?_, fun hf => exec_commitTransfer_power hp hf⟩
  · rw [exec_registerWrite_open hopen, regWrite_bar0_dword (by decide), writeReg_power hpf hst, stage_pending hg]
    rfl
  · rw [hcommit, writeCommit, commitWrite_one_pending hg]
    rfl

end Sys2Proof.Machine

/-! PROOFS. Discovery (chapter 03, 16 Table 16.7): the sizes of what the commands return, the pieces in which bytes go to host memory,
and the statement about them. -/
namespace Sys2Proof.Machine

/-! ### Sizes -/

@[simp] theorem length_leBytes (x n : Nat) : (leBytes x n).length = n := by
  induction n generalizing x with
  | zero => rfl
  | succ n ih => rw [leBytes, List.length_cons, ih]

/-- 03 Table 3.7. -/
theorem length_dieRecord (s : State) (d : Nat) : (dieRecord s d).length = 256 := by
  unfold dieRecord
  split <;> simp [upTo]

/-- R74: a header of 64 bytes and the records of four dies. -/
theorem length_tileMap (s : State) : (tileMap s).length = 1088 := by
  simp [tileMap, List.length_flatMap, length_dieRecord, upTo]

/-! ### The pieces of a range (15 R374) -/

/-- Every piece lies in the range, has at most `m` bytes and crosses no 4 KiB boundary. -/
theorem portPieces_bounds {m a n fuel : Nat} {p : Nat × Nat} (h : p ∈ portPieces m a n fuel) :
    a ≤ p.1 ∧ p.1 + p.2 ≤ a + n ∧ p.2 ≤ m ∧ p.1 % 4096 + p.2 ≤ 4096 := by
  induction fuel generalizing a n with
  | zero => simp [portPieces] at h
  | succ fuel ih =>
    rw [portPieces] at h
    split at h
    · simp at h
    · rcases List.mem_cons.mp h with rfl | h
      · dsimp only
        omega
      · have := ih h
        omega

/-- A piece begins where those before it end. -/
theorem portPieces_start {m a n fuel k : Nat} {p : Nat × Nat} (h : (portPieces m a n fuel)[k]? = some p) :
    p.1 = a + (((portPieces m a n fuel).take k).map Prod.snd).sum := by
  induction fuel generalizing a n k with
  | zero => simp [portPieces] at h
  | succ fuel ih =>
    rw [portPieces] at h ⊢
    split at h
    · simp at h
    · rename_i hn
      rw [if_neg hn]
      cases k with
      | zero =>
        cases h
        rfl
      | succ k =>
        rw [List.getElem?_cons_succ] at h
        rw [ih h, List.take_succ_cons, List.map_cons, List.sum_cons]
        omega

/-- The bytes of a piece, where `bs` begins at bus address `a`: what goes out as one write. -/
def pieceOf (bs : List Byte) (a : Nat) (p : Nat × Nat) : Nat × List Byte := (p.1, (bs.drop (p.1 - a)).take p.2)

theorem length_pieceOf {bs : List Byte} {a fuel m : Nat} {p : Nat × Nat} (h : p ∈ portPieces m a bs.length fuel) :
    (pieceOf bs a p).2.length = p.2 := by
  have := portPieces_bounds h
  simp only [pieceOf, List.length_take, List.length_drop]
  omega

/-- The pieces of a range join to its bytes: each takes the next, and there is one as long as bytes are left. -/
theorem flatMap_pieceOf {m org a n fuel : Nat} (bs : List Byte) (hm : 0 < m) (ha : org ≤ a) (hf : n ≤ fuel) :
    ((portPieces m a n fuel).map (pieceOf bs org)).flatMap Prod.snd = (bs.drop (a - org)).take n := by
  induction fuel generalizing a n with
  | zero =>
    obtain rfl : n = 0 := by omega
    rfl
  | succ fuel ih =>
    rw [portPieces]
    split
    · rename_i hn
      simp [hn]
    · generalize hk : min (min n m) (4096 - a % 4096) = k
      have hn : n = k + (n - k) := by omega
      have hd : a + k - org = a - org + k := by omega
      rw [List.map_cons, List.flatMap_cons, ih (by omega) (by omega), hd, ← List.drop_drop]
      conv_rhs => rw [hn, List.take_add]
      rfl

/-- The writes that carry `bs` to bus address `a` on for function `f`. -/
def hostWrites (s : State) (f a : Nat) (bs : List Byte) : List (Nat × List Byte) :=
  (portPieces (s.fnOf f).payload a bs.length (bs.length + 1)).map (pieceOf bs a)

theorem foldl_emit {β : Type} (g : β → Out) (l : List β) (s : State) :
    l.foldl (fun t p => t.emit (g p)) s = { s with out := s.out ++ l.map g } := by
  induction l generalizing s with
  | nil => simp
  | cons p r ih => rw [List.foldl_cons, ih, State.emit_out, List.append_assoc]; rfl

theorem Fn.payload_pos (y : Fn) : 0 < y.payload := Nat.mul_pos (by decide) (Nat.two_pow_pos _)

theorem State.writeHost_eq (s : State) (f a : Nat) (bs : List Byte) : s.writeHost f a bs =
    { s with out := s.out ++ (hostWrites s f a bs).map (fun p => .memWrite f p.1 p.2 (s.attr f p.1 false false false)) } := by
  rw [State.writeHost, foldl_emit, hostWrites, List.map_map]
  rfl

theorem flatMap_hostWrites (s : State) (f a : Nat) (bs : List Byte) : (hostWrites s f a bs).flatMap Prod.snd = bs := by
  rw [hostWrites, flatMap_pieceOf bs (Fn.payload_pos _) (Nat.le_refl a) (Nat.le_succ _), Nat.sub_self, List.drop_zero,
    List.take_length]

/-- The first `k` writes hold as many bytes as the first `k` pieces. -/
theorem length_take_hostWrites (s : State) (f a k : Nat) (bs : List Byte) :
    (((hostWrites s f a bs).take k).flatMap Prod.snd).length =
      (((portPieces (s.fnOf f).payload a bs.length (bs.length + 1)).take k).map Prod.snd).sum := by
  rw [List.length_flatMap, hostWrites, ← List.map_take, List.map_map]
  exact congrArg List.sum (List.map_congr_left fun p hp => length_pieceOf (List.mem_of_mem_take hp))

theorem hostWrites_start {s : State} {f a k : Nat} {bs : List Byte} {p : Nat × List Byte}
    (h : (hostWrites s f a bs)[k]? = some p) : p.1 = a + (((hostWrites s f a bs).take k).flatMap Prod.snd).length := by
  rw [length_take_hostWrites]
  rw [hostWrites, List.getElem?_map] at h
  obtain ⟨q, hq, rfl⟩ := Option.map_eq_some_iff.mp h
  exact portPieces_start hq

theorem hostWrites_bounds {s : State} {f a : Nat} {bs : List Byte} {p : Nat × List Byte} (h : p ∈ hostWrites s f a bs) :
    p.2.length ≤ (s.fnOf f).payload ∧ p.1 % 4096 + p.2.length ≤ 4096 := by
  obtain ⟨q, hq, rfl⟩ := List.mem_map.mp h
  rw [length_pieceOf hq]
  exact (portPieces_bounds hq).2.2

/-! ### The commands -/

theorem exec_queryCaps {s : State} {fn : Nat} {seq : Word} {b : List Byte} (h : s.asks fn seq 0x01 b = true) :
    exec (.queryCaps fn seq) s = .next (reply fn seq
      (leBytes s.capFitted.toNat 4 ++ leBytes s.capUsable.toNat 4 ++ leBytes s.capCounts.toNat 4 ++ leBytes s.capChannels.toNat 4 ++
        leBytes s.idPart.toNat 4 ++ leBytes 0x100 4 ++ leBytes s.dev.capGen.toNat 4 ++ leBytes (s.limitOf fn) 2 ++
        leBytes (s.openOf fn).length 2 ++ leBytes s.devState.toNat 1) s) :=
  congrArg Host.Outcome.next (onCmd_asks h _)

theorem exec_queryTilemap {s : State} {fn : Nat} {seq : Word} {b : List Byte} (h : s.asks fn seq 0x02 b = true) :
    exec (.queryTilemap fn seq) s = .next (
      if fieldAt b 8 8 % 64 ≠ 0 then fail fn seq .badArg s
      else if !(s.canSend fn) then fail fn seq .peerUnreachable s
      else reply fn seq (leBytes s.dev.capGen.toNat 4) (s.writeHost fn (fieldAt b 8 8) (tileMap s))) :=
  congrArg Host.Outcome.next (onCmd_asks h _)

theorem exec_queryHealth {s : State} {fn : Nat} {seq : Word} {b : List Byte} (h : s.asks fn seq 0x03 b = true) :
    exec (.queryHealth fn seq) s = .next (reply fn seq
      (leBytes s.devState.toNat 1 ++ leBytes (if s.quenched then s.power.cause else 0) 1 ++
        leBytes (b2n s.ras.cfgDisabled) 1 ++ leBytes 0 1 ++ leBytes (ofSigned 16 (topTemp s)) 2 ++
        leBytes s.power.modulePower 2 ++ leBytes (logCount s) 4 ++
        leBytes ((s.fnOf fn).evtNumber - (s.fnOf fn).evtDropped).toNat 4) s) :=
  congrArg Host.Outcome.next (onCmd_asks h _)

/-- Settles O28: each command acts once, on the state that it finds, and its writes are the pieces of the buffer's range. -/
theorem discoveryCommands : Obligations.DiscoveryCommands := by
  unfold Obligations.DiscoveryCommands
  refine ⟨fun s fn seq b => ⟨exec_queryCaps, fun h => ⟨length_tileMap s, ?_, ?_, ?_⟩, fun h => ?_⟩, fun s f a bs =>
    ⟨hostWrites s f a bs, s.writeHost_eq f a bs, flatMap_hostWrites s f a bs, fun _ _ => hostWrites_start,
      fun _ => hostWrites_bounds⟩⟩
  · intro hu
    rw [exec_queryTilemap h, if_pos hu]
  · intro ha hc
    simp [exec_queryTilemap h, ha, hc]
  · intro ha hc
    simp [exec_queryTilemap h, ha, hc]
  · rw [exec_queryHealth h]
    simp only [State.quenched, beq_iff_eq]
    rfl

end Sys2Proof.Machine

/-! PROOFS. Solver channels (chapter 14) and units that go out of service (03 R61, R62): what each row does while the channel runs,
what a channel's words touch, what the records of a lost unit leave alone, and the statement about them. -/
namespace Sys2Proof.Machine

/-! ### Packets for a channel -/

/-- A packet that may arrive and that the row takes whole leaves the network. -/
theorem arriveKeep_takes {s t : State} {i : Nat} {p : Packet} {ok : Packet → Bool} {act : Packet → State → State × Option Packet}
    (hp : s.mayArrive i p = true) (hk : ok p = true) (h : act p (s.offNet i) = (t, none)) : arriveKeep i ok act s = t := by
  rw [arriveKeep_mayArrive hp hk, h]

/-- R349, R350: what no channel takes. -/
theorem exec_problemDescriptor_refused {s : State} {i : Nat} {p : Packet} (hp : s.mayArrive i p = true)
    (hf : forChannel s p = true) (hr : chanRefuses (s.offNet i) p = true) :
    exec (.problemDescriptor i) s = .next (chanRefuse p (s.offNet i)) :=
  congrArg Host.Outcome.next (arriveKeep_takes hp hf (if_pos hr))

/-- R347: an entry for a channel that is free and runs. -/
theorem exec_problemDescriptor_idle {s : State} {i c : Nat} {p : Packet} {e : QEntry} (hp : s.mayArrive i p = true)
    (hf : forChannel s p = true) (hr : chanRefuses (s.offNet i) p = false) (hc : chanAt (s.offNet i) p = some c)
    (he : p.pl = .entries [e]) (hrun : chanRuns (s.offNet i) c = true) (hph : ((s.offNet i).chanOf c).phase = .idle)
    (hw : resultWaits (s.offNet i) c = false) :
    exec (.problemDescriptor i) s = .next (takeDescriptor c p e (s.offNet i)) :=
  congrArg Host.Outcome.next (arriveKeep_takes hp hf (by simp [hr, hc, he, hrun, hph, hw]))

/-- R347, R348: a further entry of the problem that the channel takes input for. -/
theorem exec_problemInputArrived_input {s : State} {i c : Nat} {p : Packet} {e : QEntry} (hp : s.mayArrive i p = true)
    (hf : forChannel s p = true) (hr : chanRefuses s p = false) (hc : chanAt s p = some c) (he : p.pl = .entries [e])
    (hrun : chanRuns (s.offNet i) c = true) (hph : ((s.offNet i).chanOf c).phase = .input)
    (hsec : ((s.offNet i).chanOf c).sec = p.sec) :
    exec (.problemInputArrived c i) s = .next (takeInput c p e (s.offNet i)) :=
  congrArg Host.Outcome.next (arriveKeep_takes hp (by simp [hf, hc, hr]) (by simp [he, hrun, hph, hsec]))

/-! ### The run of a problem (14 R340, R355 to R357) -/

theorem chanGoes_iff {s : State} {c : Nat} {ph : ChanPhase} :
    chanGoes s c ph = true ↔ (s.chanOf c).phase = ph ∧ chanRuns s c = true ∧ expired s (s.chanOf c) = false := by
  simp [chanGoes, and_assoc]

/-- No phase goes on once the deadline has expired. -/
theorem chanGoes_expired {s : State} {c : Nat} (h : expired s (s.chanOf c) = true) (ph : ChanPhase) : chanGoes s c ph = false := by
  simp [chanGoes, h]

section
variable {s : State} {c : Nat} (w : Nat) (f : Finding)

theorem exec_prologueComplete (h : chanGoes s c .prologue = true) : exec (.prologueComplete c w f) s =
    .next ((quarterFinding c w f s).putChan c { runPrologue ((quarterFinding c w f s).chanIn c) with phase := .body }) :=
  congrArg Host.Outcome.next (if_pos h)

theorem exec_iterationComplete (h : chanGoes s c .body = true) : exec (.iterationComplete c w f) s =
    .next ((quarterFinding c w f s).putChan c (bodyDone ((quarterFinding c w f s).chanIn c))) :=
  congrArg Host.Outcome.next (if_pos h)

theorem exec_iterationComplete_not (h : chanGoes s c .body = false) : exec (.iterationComplete c w f) s = .next s :=
  congrArg Host.Outcome.next (if_neg (by simp [h]))

theorem exec_problemComplete (h : chanGoes s c .epilogue = true) :
    let z := runEpilogue ((quarterFinding c w f s).chanIn c)
    exec (.problemComplete c w f) s = .next (answer c
      (if z.curMode = 2 then bestAnswer z z.timingDep else lastAnswer z z.timingDep) ((quarterFinding c w f s).putChan c z)) :=
  congrArg Host.Outcome.next (if_pos h)

end

/-- R356, R357: what an expired deadline ends. -/
theorem exec_solverDeadline {s : State} {c : Nat}
    (hph : (s.chanOf c).phase = .prologue ∨ (s.chanOf c).phase = .body ∨ (s.chanOf c).phase = .epilogue)
    (he : expired s (s.chanOf c) = true) (hrun : chanRuns s c = true) :
    exec (.solverDeadline c) s = .next (answer c (expiredAnswer (s.chanOf c)) s) :=
  congrArg Host.Outcome.next (if_pos ⟨hph, he, hrun⟩)

/-! ### The words of a channel (14 R335, R361) -/

theorem State.putChan_engine (s : State) (c : Nat) {y : Chan} (h : y.emulated = false) : s.putChan c y = s.setChan c y := by
  simp [State.putChan, h]

/-- The channel stands in its place, and beside it only SRAM may change. -/
theorem State.putChan_eq (s : State) (c : Nat) (y : Chan) :
    ∃ m q z, s.putChan c y = ((s.setSram m).setSramPoison q).setChan c z := by
  unfold State.putChan
  split
  · exact ⟨_, _, _, rfl⟩
  · exact ⟨s.fab.sram, s.fab.sramPoison, y, rfl⟩

theorem State.putChan_frame (s : State) (c : Nat) (y : Chan) : (∀ k, k ≠ c → (s.putChan c y).chanOf k = s.chanOf k) ∧
    (s.putChan c y).hbm = s.hbm ∧ (s.putChan c y).own = s.own := by
  obtain ⟨m, q, z, h⟩ := s.putChan_eq c y
  rw [h]
  exact ⟨fun k hk => State.chanOf_setChan_ne _ _ hk, rfl, rfl⟩

/-! ### Event records leave the device alone (18 R448, 23 R551) -/

/-- From `s` to `t` only the host's side and what was sent may change. -/
def tellsOnly (s t : State) : Prop := ∃ h o, t = { s with host := h, out := o }

theorem tellsOnly_refl (s : State) : tellsOnly s s := ⟨_, _, rfl⟩

theorem tellsOnly_trans {s t u : State} (h1 : tellsOnly s t) (h2 : tellsOnly t u) : tellsOnly s u := by
  obtain ⟨_, _, rfl⟩ := h1
  obtain ⟨_, _, rfl⟩ := h2
  exact ⟨_, _, rfl⟩

theorem tellsOnly_emit (s : State) (o : Out) : tellsOnly s (s.emit o) := ⟨_, _, rfl⟩

theorem tellsOnly_updFn (s : State) (f : Nat) (g : Fn → Fn) : tellsOnly s (s.updFn f g) := ⟨_, _, rfl⟩

theorem tellsOnly_msix (s : State) (f v : Nat) : tellsOnly s (s.msix f v) := by
  unfold State.msix
  split
  · exact tellsOnly_emit _ _
  · exact tellsOnly_updFn _ _ _

theorem tellsOnly_eventTo (s : State) (e : Ev) (f : Nat) : tellsOnly s (s.eventTo e f) := by
  have hnumber := tellsOnly_updFn s f (fun y => { y with evtNumber := y.evtNumber + 1 })
  unfold State.eventTo
  split
  · exact tellsOnly_trans hnumber
      (tellsOnly_trans (tellsOnly_emit _ _) (tellsOnly_trans (tellsOnly_updFn _ _ _) (tellsOnly_msix _ _ _)))
  · exact tellsOnly_trans hnumber (tellsOnly_updFn _ _ _)

theorem tellsOnly_foldl_eventTo (e : Ev) (fns : List Nat) (s : State) :
    tellsOnly s (fns.foldl (fun s f => s.eventTo e f) s) := by
  induction fns generalizing s with
  | nil => exact tellsOnly_refl s
  | cons f r ih => exact tellsOnly_trans (tellsOnly_eventTo s e f) (ih _)

theorem State.event_eq (s : State) (e : Ev) (fns : List Nat) (log : Bool) :
    ∃ h o r, s.event e fns log = { s with host := h, out := o, ras := r } := by
  obtain ⟨h, o, hf⟩ := tellsOnly_foldl_eventTo e (dedup fns) s
  unfold State.event
  rw [hf]
  cases log <;> exact ⟨_, _, _, rfl⟩

theorem State.refreshReady_eq (s : State) : ∃ b, s.refreshReady = { s with boot := b } := by
  unfold State.refreshReady
  split <;> exact ⟨_, rfl⟩

/-! ### Units out of service (03 R61, R62) -/

/-- R61: the unit's bit and ID_CAP_GEN in the device, and beside it the records and DEV_STATE. -/
theorem outOfService_eq {s : State} {u : Nat} (h : s.usable u = true) : ∃ hs o r b, outOfService u s =
    { s with dev := { s.dev with dead := s.dev.dead ||| (1#32 <<< u), capGen := s.dev.capGen + 1 }
             host := hs, out := o, ras := r, boot := b } := by
  rw [outOfService, if_pos h]
  obtain ⟨hs, o, r, he⟩ := State.event_eq _ _ _ _
  obtain ⟨b, hb⟩ := State.refreshReady_eq _
  exact ⟨hs, o, r, b, by rw [hb, State.eventAllOpen, he]⟩

/-- R60: a unit is usable where it is fitted and not dead. -/
theorem State.usable_eq (s : State) (k : Nat) : s.usable k = (s.capFitted.getLsbD k && !s.dev.dead.getLsbD k) := by
  by_cases hk : k < 32
  · simp [State.usable, State.capUsable, hk]
  · simp [State.usable, State.capUsable, hk, BitVec.getLsbD_of_ge s.capFitted k (by omega)]

/-- One more dead unit of the same part. -/
theorem State.usable_of_dead {s t : State} {u : Nat} (hu : u < 32) (hp : t.dev.part = s.dev.part)
    (hd : t.dev.dead = s.dev.dead ||| (1#32 <<< u)) (k : Nat) : t.usable k = (s.usable k && decide (k ≠ u)) := by
  have hfit : t.capFitted = s.capFitted := by simp only [State.capFitted, hp]
  have hbit : (1#32 <<< u).getLsbD k = decide (k = u) := by
    by_cases hk : k = u <;> simp [hk, hu]
    omega
  simp [State.usable_eq, hfit, hd, hbit, Bool.and_assoc]

theorem exec_unitOutOfService_other {s : State} {u : Nat} (h : ¬(12 ≤ u ∧ u < 20)) :
    exec (.unitOutOfService u) s = .next (outOfService u s) :=
  congrArg Host.Outcome.next (if_neg fun he => h ⟨he.1, he.2.1⟩)

/-- R62: the four channels of a lost engine lose their problems. -/
theorem exec_unitOutOfService_engine {s : State} {u : Nat} (h12 : 12 ≤ u) (h20 : u < 20) (hu : s.usable u = true) :
    exec (.unitOutOfService u) s =
      .next ((upTo 4).foldl (fun s k => engineGone s (4 * (u - 12) + k)) (outOfService u s)) :=
  congrArg Host.Outcome.next (if_pos ⟨h12, h20, hu⟩)

theorem outOfService_effect {s : State} {u : Nat} (h32 : u < 32) (hu : s.usable u = true) :
    (outOfService u s).usable u = false ∧ (outOfService u s).dev.capGen = s.dev.capGen + 1 ∧
      (∀ k, k ≠ u → (outOfService u s).usable k = s.usable k) ∧ (outOfService u s).seq = s.seq ∧
      (outOfService u s).fab = s.fab ∧ (outOfService u s).hbm = s.hbm := by
  obtain ⟨hs, o, r, b, h⟩ := outOfService_eq hu
  have husable : ∀ k, (outOfService u s).usable k = (s.usable k && decide (k ≠ u)) :=
    State.usable_of_dead h32 (by rw [h]) (by rw [h])
  refine ⟨by simp [husable], by rw [h], fun k hk => by simp [husable, hk], ?_⟩
  rw [h]
  exact ⟨rfl, rfl, rfl⟩

/-! ### The statement -/

/-- Settles O50: each row of a channel is its meaning in the phase that it is for, and a unit's loss changes the device's two
capability registers and what is told of it. -/
theorem solverRows : Obligations.SolverRows := by
  unfold Obligations.SolverRows
  refine ⟨fun s i c p e hp hf => ?_, fun s i p => exec_problemDescriptor_refused, fun s c hrun => ⟨fun he w f => ?_, fun he hph => ?_⟩,
    fun s c y => ?_, fun s u h32 hu hne => ⟨_, exec_unitOutOfService_other hne, outOfService_effect h32 hu⟩,
    fun s u => exec_unitOutOfService_engine⟩
  · intro u hr hc hent hrun
    exact ⟨exec_problemDescriptor_idle hp hf hr hc hent hrun,
      fun hr' hc' => exec_problemInputArrived_input hp hf hr' hc' hent hrun⟩
  · have hgoes : ∀ ph, (s.chanOf c).phase = ph → chanGoes s c ph = true := fun ph hph => chanGoes_iff.mpr ⟨hph, hrun, he⟩
    exact ⟨fun hph => exec_prologueComplete w f (hgoes _ hph), fun hph => exec_iterationComplete w f (hgoes _ hph),
      fun hph => exec_problemComplete w f (hgoes _ hph)⟩
  · exact ⟨exec_solverDeadline hph he hrun, fun w f => exec_iterationComplete_not w f (chanGoes_expired he _)⟩
  · obtain ⟨hchan, hhbm, hown⟩ := s.putChan_frame c y
    exact ⟨hchan, s.putChan_engine c, hhbm, hown⟩

end Sys2Proof.Machine

/-! PROOFS. Sterling words (chapter 04): their addition as a commutative and associative operation, the canonical compact form limb by
limb, its bytes, and the statements about them. -/
namespace Sys2Proof.Machine

/-! ### Addition (04 R91, R92) -/

theorem Sterling.add_comm (a b : Sterling) : a.add b = b.add a := by
  simp [Sterling.add, BitVec.add_comm, Bool.or_comm]

theorem Sterling.add_assoc (a b c : Sterling) : (a.add b).add c = a.add (b.add c) := by
  simp [Sterling.add, BitVec.add_assoc, Bool.or_assoc]

theorem Sterling.add_right_comm (a b c : Sterling) : (a.add b).add c = (a.add c).add b := by
  rw [add_assoc, add_comm b c, add_assoc]

/-- The word of a single product is what the product adds: a flag, or the fixed-point integer of a finite one. -/
theorem Sterling.addProduct_eq_add (a : Sterling) (p : Val) : a.addProduct p = a.add (({} : Sterling).addProduct p) := by
  cases p with
  | poison => simp [addProduct, add]
  | nan => simp [addProduct, add]
  | inf neg => cases neg <;> simp [addProduct, add]
  | num neg m e =>
    by_cases hm : m = 0
    · simp [addProduct, add, hm]
    · by_cases hbig : 256 ≤ (log2Nat m : Int) + e
      · cases neg <;> simp [addProduct, add, hm, hbig]
      · simp [addProduct, add, hm, hbig]

theorem Sterling.addProduct_right_comm (a : Sterling) (p q : Val) :
    (a.addProduct p).addProduct q = (a.addProduct q).addProduct p := by
  rw [addProduct_eq_add (a.addProduct p), addProduct_eq_add a p, add_right_comm, ← addProduct_eq_add, ← addProduct_eq_add]

/-! ### Limbs of 640 bits -/

theorem toNat_limbOf (x : BitVec 640) (k : Nat) : (limbOf x k).toNat = x.toNat / (2 ^ 64) ^ k % 2 ^ 64 := by
  rw [limbOf, BitVec.extractLsb'_toNat, Nat.shiftRight_eq_div_pow, pow_mul]

/-- The digits of a number in base `b`, put together again. -/
theorem foldr_digits (b x n : Nat) : (List.range n).foldr (fun k a => x / b ^ k % b + b * a) 0 = x % b ^ n := by
  induction n generalizing x with
  | zero => simp [Nat.mod_one]
  | succ n ih =>
    have hdigit : ∀ k, x / b ^ (k + 1) = x / b / b ^ k := fun k => by rw [pow_succ', Nat.div_div_eq_div_mul]
    simp only [List.range_succ_eq_map, List.foldr_cons, List.foldr_map, hdigit, ih, pow_zero, Nat.div_one]
    rw [pow_succ', Nat.mod_mul]

theorem limbsWord_limbOf (x : BitVec 640) : limbsWord (limbOf x) = x := by
  apply BitVec.eq_of_toNat_eq
  simp only [limbsWord, upTo, toNat_limbOf, foldr_digits, BitVec.toNat_ofNat]
  omega

/-- Only the ten limbs of the word count. -/
theorem limbsWord_congr {f g : Nat → DWord} (h : ∀ k, k < 10 → f k = g k) : limbsWord f = limbsWord g := by
  refine congrArg (BitVec.ofNat 640) (List.foldr_ext _ _ _ fun k hk a => ?_)
  rw [h k (List.mem_range.mp hk)]

theorem Sterling.truncate_wide (v : Sterling) : v.wide.truncate 632 = v.i := by
  apply BitVec.eq_of_getLsbD_eq
  intro j hj
  have hj' : j < 640 := by omega
  rw [BitVec.truncate_eq_setWidth, BitVec.getLsbD_setWidth, wide, BitVec.getLsbD_signExtend]
  simp [hj, hj']

/-- The nine top bits of a sign extension are copies of the sign (04 R98). -/
theorem Sterling.top_wide (v : Sterling) : v.wide.extractLsb' 631 9 = if v.i.msb then BitVec.allOnes 9 else 0 := by
  apply BitVec.eq_of_getLsbD_eq
  intro j hj
  have hbit : (v.wide.extractLsb' 631 9).getLsbD j = v.i.msb := by
    rw [wide, BitVec.getLsbD_extractLsb', BitVec.getLsbD_signExtend, BitVec.msb_eq_getLsbD_last]
    by_cases h0 : j = 0
    · simp [h0]
    · have h640 : 631 + j < 640 := by omega
      have h632 : ¬ 631 + j < 632 := by omega
      simp [hj, h640, h632]
  rw [hbit]
  cases v.i.msb
  · exact BitVec.getLsbD_zero.symm
  · exact (BitVec.getLsbD_allOnes.trans (decide_eq_true hj)).symm

/-! ### The highest limb that counts -/

theorem sigLimbs_eq_findGreatest (x : BitVec 640) (fill : Bool) (n : Nat) :
    sigLimbs x fill n = Nat.findGreatest (fun j => limbOf x (j - 1) ≠ fillLimb fill) n := by
  induction n with
  | zero => rfl
  | succ n ih => simp [sigLimbs, Nat.findGreatest_succ, ih]

theorem topLimb_eq_findGreatest (l : List (Option DWord)) (n : Nat) :
    topLimb l n = Nat.findGreatest (fun j => (l.getD (j - 1) none).isSome) n := by
  induction n with
  | zero => rfl
  | succ n ih => simp [topLimb, Nat.findGreatest_succ, ih]

/-! ### The canonical form (04 R97) -/

/-- The number of limbs up to the highest that is not a copy of the sign. -/
def Sterling.sig (v : Sterling) : Nat := sigLimbs v.wide v.compact.fill 10

theorem Sterling.sig_eq_iff {v : Sterling} {m : Nat} : v.sig = m ↔ m ≤ 10 ∧
    (m ≠ 0 → limbOf v.wide (m - 1) ≠ fillLimb v.compact.fill) ∧
    ∀ k, m ≤ k → k < 10 → limbOf v.wide k = fillLimb v.compact.fill := by
  rw [sig, sigLimbs_eq_findGreatest, Nat.findGreatest_eq_iff]
  refine and_congr_right fun _ => and_congr_right fun _ => ⟨fun h k hk h10 => ?_, fun h j hj h10 => ?_⟩
  · simpa using h (Nat.lt_succ_of_le hk) h10
  · simpa using h (j - 1) (by omega) (by omega)

theorem Sterling.sig_le (v : Sterling) : v.sig ≤ 10 := (sig_eq_iff.mp rfl).1

theorem Sterling.compact_getD (v : Sterling) (k : Nat) : v.compact.limbs.getD k none =
    if k + 1 = v.sig then some (limbOf v.wide k)
    else if k + 1 < v.sig ∧ limbOf v.wide k ≠ 0 then some (limbOf v.wide k) else none := by
  have hle := v.sig_le
  by_cases hk : k < 10
  · simp [compact, upTo, hk, sig]
  · have h1 : ¬ k + 1 = v.sig := by omega
    have h2 : ¬ k + 1 < v.sig := by omega
    simp [compact, upTo, hk, h1, h2]

theorem Sterling.compact_getD_top {v : Sterling} {k : Nat} (h : k + 1 = v.sig) :
    v.compact.limbs.getD k none = some (limbOf v.wide k) := by
  rw [compact_getD, if_pos h]

theorem Sterling.compact_getD_below {v : Sterling} {k : Nat} (h : k + 1 < v.sig) :
    v.compact.limbs.getD k none = if limbOf v.wide k = 0 then none else some (limbOf v.wide k) := by
  rw [compact_getD, if_neg h.ne]
  by_cases hz : limbOf v.wide k = 0
  · rw [if_pos hz, if_neg fun hp => hp.2 hz]
  · rw [if_neg hz, if_pos ⟨h, hz⟩]

theorem Sterling.compact_getD_above {v : Sterling} {k : Nat} (h : v.sig ≤ k) : v.compact.limbs.getD k none = none := by
  rw [compact_getD, if_neg (by omega), if_neg (by omega)]

/-- The highest limb present is the highest that is not a copy of the sign. -/
theorem Sterling.topLimb_compact (v : Sterling) : topLimb v.compact.limbs 10 = v.sig := by
  rw [topLimb_eq_findGreatest, Nat.findGreatest_eq_iff]
  refine ⟨v.sig_le, fun h0 => ?_, fun j hj h10 => ?_⟩
  · rw [compact_getD_top (Nat.sub_one_add_one h0)]
    rfl
  · rw [compact_getD_above (Nat.le_sub_one_of_lt hj)]
    exact Bool.false_ne_true

/-- R96: every limb of a canonical form stands for the value's limb. -/
theorem Sterling.compact_limb (v : Sterling) {k : Nat} (hk : k < 10) : v.compact.limb k = limbOf v.wide k := by
  obtain ⟨-, -, hfill⟩ := sig_eq_iff.mp (rfl : v.sig = v.sig)
  rw [Compact.limb, topLimb_compact]
  rcases Nat.lt_trichotomy (k + 1) v.sig with hlt | heq | hgt
  · rw [compact_getD_below hlt]
    by_cases hz : limbOf v.wide k = 0
    · rw [if_pos hz, hz]
      exact if_pos (Nat.lt_of_succ_lt hlt)
    · rw [if_neg hz]
  · rw [compact_getD_top heq]
  · have hle : v.sig ≤ k := Nat.le_of_lt_succ hgt
    rw [compact_getD_above hle, hfill k hle hk]
    exact if_neg hle.not_gt

theorem Sterling.decode_compact (v : Sterling) : v.compact.decode = v := by
  have hword : limbsWord v.compact.limb = v.wide :=
    (limbsWord_congr fun _ => v.compact_limb).trans (limbsWord_limbOf _)
  have htop : (v.wide.extractLsb' 631 9 != 0 && v.wide.extractLsb' 631 9 != BitVec.allOnes 9) = false := by
    rw [top_wide]
    cases v.i.msb <;> rfl
  simp only [Compact.decode, hword, truncate_wide, htop]
  simp [compact]

/-! ### Numbers from bits, and bytes -/

theorem natBit_eq_testBit (x i : Nat) : natBit x i = x.testBit i := by
  rw [natBit, Nat.testBit_eq_decide_div_mod_eq]
  rfl

/-- The number whose bits below `n` are `p`. -/
def natOfBits (p : Nat → Bool) (n : Nat) : Nat := (upTo n).foldl (fun a k => a + b2n (p k) * 2 ^ k) 0

theorem natOfBits_succ (p : Nat → Bool) (n : Nat) : natOfBits p (n + 1) = natOfBits p n + b2n (p n) * 2 ^ n := by
  simp [natOfBits, upTo, List.range_succ]

theorem natOfBits_lt (p : Nat → Bool) (n : Nat) : natOfBits p n < 2 ^ n := by
  induction n with
  | zero => exact Nat.one_pos
  | succ n ih =>
    rw [natOfBits_succ, pow_succ]
    cases p n <;> simp [b2n] <;> omega

theorem natBit_natOfBits (p : Nat → Bool) {n k : Nat} (hk : k < n) : natBit (natOfBits p n) k = p k := by
  rw [natBit_eq_testBit]
  induction n with
  | zero => omega
  | succ n ih =>
    rw [natOfBits_succ, Nat.add_comm, Nat.mul_comm, Nat.testBit_two_pow_mul_add _ (natOfBits_lt p n)]
    split
    · exact ih ‹_›
    · obtain rfl : k = n := by omega
      cases p k <;> simp [b2n]

theorem leNat_leBytes (x n : Nat) : leNat (leBytes x n) = x % 256 ^ n := by
  induction n generalizing x with
  | zero => simp [leBytes, leNat, Nat.mod_one]
  | succ n ih => rw [leBytes, leNat, ih, BitVec.toNat_ofNat, pow_succ' 256, Nat.mod_mul]

/-- The field that a list begins with. -/
theorem fieldAt_leBytes_append {x n : Nat} (h : x < 256 ^ n) (bs : List Byte) : fieldAt (leBytes x n ++ bs) 0 n = x := by
  rw [fieldAt, slice, List.drop_zero, List.take_left' (length_leBytes x n), leNat_leBytes, Nat.mod_eq_of_lt h]

/-! ### The bytes of a compact value (04 R95, Table 4.8) -/

/-- Bit `k` of the header. -/
def Compact.headerBit (c : Compact) (k : Nat) : Bool :=
  match k with
  | 10 => c.fill
  | 11 => c.nan
  | 12 => c.pinf
  | 13 => c.ninf
  | 14 => c.poison
  | 15 => c.reserved
  | _ => (c.limbs.getD k none).isSome

theorem Compact.headerBit_limb (c : Compact) {k : Nat} (hk : k < 10) : c.headerBit k = (c.limbs.getD k none).isSome := by
  interval_cases k <;> rfl

/-- The bytes that a limb takes. -/
def limbBytes : Option DWord → List Byte
  | some v => leBytes v.toNat 8
  | none => []

theorem Compact.bytes_eq (c : Compact) (h : c.limbs.length = 10) :
    c.bytes = leBytes (natOfBits c.headerBit 16) 2 ++ c.limbs.flatMap limbBytes := by
  have hlimbs : (upTo 10).map (fun k => c.limbs.getD k none) = c.limbs :=
    List.ext_getElem (by simp [upTo, h]) fun k _ hk => by simp [upTo, hk]
  have hbody : (upTo 10).flatMap (fun k => limbBytes (c.limbs.getD k none)) = c.limbs.flatMap limbBytes := by
    rw [← List.flatMap_map, hlimbs]
  rw [← hbody]
  rfl

/-- Taking limbs by a mask that tells which are present undoes writing them. -/
theorem takeLimbs_limbBytes (mask : Nat) (l : List (Option DWord)) (k : Nat)
    (h : ∀ j, j < l.length → natBit mask (k + j) = (l.getD j none).isSome) :
    takeLimbs mask (l.flatMap limbBytes) k l.length = l := by
  induction l generalizing k with
  | nil => rfl
  | cons o l ih =>
    have hhead : natBit mask k = o.isSome := h 0 (by simp)
    have htail := ih (k + 1) fun j hj => by
      rw [Nat.add_right_comm]
      exact h (j + 1) (by simpa using hj)
    cases o with
    | none => simp [takeLimbs, hhead, limbBytes, htail]
    | some v =>
      have hfield := fieldAt_leBytes_append (n := 8) v.isLt (l.flatMap limbBytes)
      simp [takeLimbs, hhead, limbBytes, hfield, htail]

/-- A compact value of ten limbs is read back from its bytes, canonical or not. -/
theorem Compact.ofBytes_bytes (c : Compact) (h : c.limbs.length = 10) : Compact.ofBytes c.bytes = c := by
  have hhdr := fieldAt_leBytes_append (n := 2) (natOfBits_lt c.headerBit 16) (c.limbs.flatMap limbBytes)
  have hlimbs : takeLimbs (natOfBits c.headerBit 16) (c.limbs.flatMap limbBytes) 0 10 = c.limbs := by
    rw [← h]
    refine takeLimbs_limbBytes _ _ _ fun j hj => ?_
    rw [Nat.zero_add, natBit_natOfBits _ (by omega), c.headerBit_limb (by omega)]
  simp [ofBytes, c.bytes_eq h, hhdr, natBit_natOfBits, hlimbs, headerBit]

theorem Sterling.length_compact_limbs (v : Sterling) : v.compact.limbs.length = 10 := by
  simp [compact, upTo]

theorem Sterling.ofBytes_compact_bytes (v : Sterling) : Compact.ofBytes v.compact.bytes = v.compact :=
  v.compact.ofBytes_bytes v.length_compact_limbs

/-! ### The statements -/

/-- Settles O57: the bytes give back the compact form, whose limbs give back the value's, and the limbs present follow from which
limb is the highest that is not a copy of the sign. -/
theorem sterlingCompactRoundTrip : Obligations.SterlingCompactRoundTrip := by
  unfold Obligations.SterlingCompactRoundTrip
  have hround : ∀ v : Sterling, (Compact.ofBytes v.compact.bytes).decode = v := fun v => by
    rw [v.ofBytes_compact_bytes, v.decode_compact]
  refine ⟨fun v => ⟨v.decode_compact, v.ofBytes_compact_bytes, hround v⟩, fun v w h => ?_, fun v t ht hne hfill => ?_,
    fun v hfill k => ?_, by decide +kernel, by decide +kernel, by decide +kernel⟩
  · rw [← hround v, h, hround w]
  · have hsig : v.sig = t + 1 := Sterling.sig_eq_iff.mpr ⟨ht, fun _ => hne, hfill⟩
    exact ⟨Sterling.compact_getD_top hsig.symm, fun k hk => Sterling.compact_getD_below (by omega),
      fun k hk => Sterling.compact_getD_above (by omega)⟩
  · have hsig : v.sig = 0 := Sterling.sig_eq_iff.mpr ⟨Nat.zero_le 10, fun h => absurd rfl h, fun k _ => hfill k⟩
    exact Sterling.compact_getD_above (hsig.trans_le (Nat.zero_le k))

/-- Settles O58: addition is commutative and associative, and entering a product is adding the word of that product alone. -/
theorem sterlingAdditionOrderFree : Obligations.SterlingAdditionOrderFree := by
  unfold Obligations.SterlingAdditionOrderFree
  exact ⟨fun a b => ⟨rfl, rfl, rfl, rfl, rfl⟩, Sterling.addProduct_eq_add,
    fun a l m h => h.foldl_eq' (fun b _ c _ s => s.add_right_comm b c) a,
    fun a l m h => h.foldl_eq' (fun p _ q _ s => s.addProduct_right_comm p q) a⟩

end Sys2Proof.Machine

-- ==== Sys2Proof/Proofs/TileRows.lean ====
section
/-! The rows of a compute tile (O42): bundle issue, ENDSEC, streaming rows and what arrives at an inlet. -/
namespace Sys2Proof.Machine

variable {s : State} {t : Nat}

/-- The reserved settings that stop bundle `b` of tile `t` (06 R132): the test that BUNDLE_ISSUE makes. -/
def reservedAt (s : State) (t b : Nat) : Bool :=
  let m := (regCtx s (tileRegion t)).mode
  bundleBad m (fun k => some (osetW s t k 0 % 16)) b || bundleDenied m b || bundleBadFormat m b

section
variable {a : Nat} {f : Finding} {hit : Option ParityHit} (hi : canIssue s t (bundleAt s t (s.tileOf t).pc) = true)
include hi

theorem bundleIssue_reserved (hb : reservedAt s t (bundleAt s t (s.tileOf t).pc) = true) :
    exec (.bundleIssue t a f hit) s = .fault (.reservedBundle t (s.tileOf t).pc) :=
  (if_pos hi).trans (if_pos hb)

theorem bundleIssue_issues (hb : reservedAt s t (bundleAt s t (s.tileOf t).pc) = false) :
    exec (.bundleIssue t a f hit) s =
      .next (issue (bundleFinding t a f (hit.elim s fun h => s.updTile t (parityHit h))) t (bundleAt s t (s.tileOf t).pc)) := by
  cases hit <;> exact (if_pos hi).trans (if_neg (ne_true_of_eq_false hb))
end

theorem bundleIssue_waits {a : Nat} {f : Finding} {hit : Option ParityHit}
    (hi : canIssue s t (bundleAt s t (s.tileOf t).pc) = false) : exec (.bundleIssue t a f hit) s = .next s :=
  if_neg (ne_true_of_eq_false hi)

/-- ENDSEC of a tile with nothing outstanding. -/
theorem endsec_of_idle (hp : (s.tileOf t).phase = .ending) (hr : (s.tileOf t).rowOp = none)
    (ho : ∀ n, n < 4 → outletUsed (s.tileOf t) n = 0) (hs : secRuns s (s.tileOf t).sec = true) :
    endsec t s = (s.setTile t { s.tileOf t with phase := .ended, drainSent := true }).sendAll
      ((upTo 4).flatMap (outTail s t) ++ barrierPacket s t) := by
  have hall : (upTo 4).all (fun n => outletUsed (s.tileOf t) n == 0) = true := by
    simpa [upTo] using ho
  exact if_pos ⟨hp, hr, hall, hs⟩

/-- A row that adds goes on: it takes the values of its reduction inlet. -/
theorem rowStep_adds {r : RowOp} (hr : (s.tileOf t).rowOp = some r) (hs : secRuns s (s.tileOf t).sec = true)
    (ho : r.op = 5) :
    rowStep t s =
      let need := inContrib s t r.queue
      let y := addRows need r.row r.redId ((s.tileOf t).redIn.get [] r.queue) r.contribs (s.tileOf t).acc
      s.setTile t { s.tileOf t with
        redIn := (s.tileOf t).redIn.set [] r.queue y.1
        acc := y.2.2
        rowOp := if (upTo 16).all (fun p => decide (need ≤ y.2.1.get 0 p)) then none else some { r with contribs := y.2.1 } } := by
  simp [rowStep, hr, hs, ho]

/-- A streaming row goes on: it puts into its outlet what that has room for. -/
theorem rowStep_streams {r : RowOp} (hr : (s.tileOf t).rowOp = some r) (hs : secRuns s (s.tileOf t).sec = true)
    (ho : r.op ≠ 5) :
    rowStep t s =
      let n := outRoom (s.tileOf t) r.queue
      s.setTile t { s.tileOf t with
        outlets := (s.tileOf t).outlets.upd [] r.queue (· ++ r.entries.take n)
        outRed := (s.tileOf t).outRed.upd [] r.queue (· ++ r.reduces.take n)
        rowOp := if (r.entries.drop n).isEmpty && (r.reduces.drop n).isEmpty then none
                 else some { r with entries := r.entries.drop n, reduces := r.reduces.drop n } } := by
  simp [rowStep, hr, hs, ho]

/-! ### Arrival at an inlet -/

section
variable {p : Packet}

theorem inletTake_discards (h : 4 ≤ p.port ∨ p.sig = true ∨ inletTakes s (epTile p.dst) p.port p = false) :
    inletTake p s = packetFault s p := by
  refine if_pos ?_
  simpa using h

section
variable (hn : p.port < 4) (hg : p.sig = false) (ht : inletTakes s (epTile p.dst) p.port p = true)
include hn hg ht

theorem inletTake_entries {es : List QEntry} (hl : p.pl = .entries es) :
    inletTake p s = progressed (s.setTile (epTile p.dst) { s.tileOf (epTile p.dst) with
      inlets := (s.tileOf (epTile p.dst)).inlets.upd [] p.port (· ++ es) }) p.sec := by
  simp [inletTake, Nat.not_le_of_lt hn, hg, ht, hl]

theorem inletTake_reduce {v : Reduce} (hl : p.pl = .reduce v) :
    inletTake p s = progressed (s.setTile (epTile p.dst) { s.tileOf (epTile p.dst) with
      redIn := (s.tileOf (epTile p.dst)).redIn.upd [] p.port (· ++ [v]) }) p.sec := by
  simp [inletTake, Nat.not_le_of_lt hn, hg, ht, hl]
end

section
variable {j g : Nat} {ab : Bool} (hl : p.pl = .latch j g ab)
include hl

theorem grantTake_discards (h : latchEn s (epTile p.dst) = false ∨
    inKind s (epTile p.dst) (latchInlet s (epTile p.dst)) ≠ 4) : grantTake p s = packetFault s p := by
  simp only [grantTake, hl]
  exact if_pos (by simpa using h)

theorem grantTake_queues (he : latchEn s (epTile p.dst) = true)
    (hk : inKind s (epTile p.dst) (latchInlet s (epTile p.dst)) = 4) :
    grantTake p s = progressed (s.setTile (epTile p.dst) { s.tileOf (epTile p.dst) with
      inlets := (s.tileOf (epTile p.dst)).inlets.upd [] (latchInlet s (epTile p.dst))
        (· ++ [{ data := BitVec.ofNat 512 (j % 256 + g % 256 * 256 + (if ab then 65536 else 0)) }])
      latchWait := (s.tileOf (epTile p.dst)).latchWait.filter (fun k => k != j) }) p.sec := by
  have hab : b2n ab * 65536 = if ab then 65536 else 0 := by cases ab <;> rfl
  simp only [grantTake, hl, he, hk, hab]
  rfl
end

section
variable {i : Nat} (hp : s.mayArrive i p = true) (hd : epIsCompute p.dst = true)
include hp hd

theorem inletEntryArrival_stream (hv : p.vn = vnStream) (hk : p.kind = 0 ∨ p.kind = 1)
    (hr : 4 ≤ p.port ∨ inletRoom (s.tileOf (epTile p.dst)) p.port = true) :
    exec (.inletEntryArrival i) s = .next (inletTake p (s.offNet i)) := by
  refine congrArg Host.Outcome.next ((arrive_mayArrive hp ?_ _).trans ?_)
  · simpa [hd, hv, hk, vnStream, vnCtl] using hr
  · simp [hv, vnStream, vnCtl]

theorem inletEntryArrival_grant (hv : p.vn = vnCtl) (hk : p.kind = 5) :
    exec (.inletEntryArrival i) s = .next (grantTake p (s.offNet i)) := by
  refine congrArg Host.Outcome.next ((arrive_mayArrive hp ?_ _).trans (if_pos hv))
  simp [hd, hv, hk]
end
end

/-- Settles O42: each clause by the rule above that has its name. -/
theorem tileRows : Obligations.TileRows := by
  unfold Obligations.TileRows
  refine ⟨fun s t => ⟨fun a f => ⟨?issues, ?stopsOrWaits⟩, ?endsec, fun r hr hs => ?row⟩,
    fun s i p hp hd => ⟨?queued, ?discarded, ?grant⟩⟩
  case issues => exact fun hi hb => ⟨bundleIssue_issues hi hb, fun h => bundleIssue_issues hi hb⟩
  case stopsOrWaits => exact fun hit => ⟨bundleIssue_reserved, bundleIssue_waits⟩
  case endsec => exact fun hp hr ho hs => congrArg _ (endsec_of_idle hp hr ho hs)
  case row => exact ⟨fun ho => congrArg _ (rowStep_streams hr hs ho), fun ho => congrArg _ (rowStep_adds hr hs ho)⟩
  case queued =>
    intro hv hk hn hg hroom ht
    rw [inletEntryArrival_stream hp hd hv hk (.inr hroom)]
    exact ⟨fun es hl => congrArg _ (inletTake_entries hn hg ht hl), fun v hl => congrArg _ (inletTake_reduce hn hg ht hl)⟩
  case discarded =>
    intro hv hk h
    rw [inletEntryArrival_stream hp hd hv hk (h.imp_right And.left), inletTake_discards (h.imp_right fun h => h.2.symm)]
  case grant =>
    intro hv hk j g ab hl
    rw [inletEntryArrival_grant hp hd hv hk]
    exact ⟨fun he hi => congrArg _ (grantTake_queues hl he hi), fun h => congrArg _ (grantTake_discards hl h)⟩

end Sys2Proof.Machine
end

