-- ==== Sys2Proof/Proofs/Canonical.lean ====
section
/-! Every step keeps the memories canonical and ends in a next state (O5, O60): the invariant `Canon`, and the rules for
the operations of the state and the register accesses.

Each operation of the model that answers a state has one rule, named after it: from `h : Canon s` it gives `Canon` of the
answer, so that a chain of operations is a chain of rules, `h.setTile.sendAll`.  Where the operation branches, its rule
branches with it.  Each command has its `ends_` rule, which is for `simp`. -/
namespace Sys2Proof.Machine

/-- The invariant of O5: the memories of `s` are in canonical form. -/
def Canon (s : State) : Prop := Memory.wf s = true

variable {s : State}

/-- An update of a state beside its fabric and its HBM keeps the invariant. -/
theorem Canon.frame {dev boot sec power mod ras host own seq sclk free out pending} (h : Canon s) :
    Canon { s with
      dev := dev, boot := boot, sec := sec, power := power, mod := mod, ras := ras, host := host, own := own, seq := seq,
      sclk := sclk, free := free, out := out, pending := pending } := h

/-- So does an update of the fabric beside the bytes, marks and frames of its tiles. -/
theorem Canon.frameFab {tiles mtiles sramFlags icpFrames streams nextStream net tx} (h : Canon s) :
    Canon { s with fab := { s.fab with
      tiles := tiles, mtiles := mtiles, sramFlags := sramFlags, icpFrames := icpFrames, streams := streams,
      nextStream := nextStream, net := net, tx := tx } } := h

/-- So does an update of the HBM beside its bytes and marks. -/
theorem Canon.frameHbm {flags reqs nextReq arb arbBad slots} (h : Canon s) :
    Canon { s with hbm := { s.hbm with
      flags := flags, reqs := reqs, nextReq := nextReq, arb := arb, arbBad := arbBad, slots := slots } } := h

/-- The empty memories of a reset are canonical. -/
theorem canon_reset : Canon State.reset := rfl

/-- A state that is named once, where the state that follows from it speaks of it several times. -/
theorem Canon.through {a b : State} (ha : Canon a) (hab : Canon a → Canon b) : Canon b := hab ha

theorem Canon.ite {c : Prop} [Decidable c] {a b : State} (ha : Canon a) (hb : Canon b) :
    Canon (if c then a else b) := by
  split
  · exact ha
  · exact hb

theorem Canon.ite_fst {c : Prop} [Decidable c] {α : Type} {a b : State × α} (ha : Canon a.1) (hb : Canon b.1) :
    Canon (if c then a else b).1 := by
  split
  · exact ha
  · exact hb

/-- A pass whose every turn keeps the invariant keeps it. -/
theorem Canon.foldl {β : Type} {f : State → β → State} {l : List β}
    (h : Canon s) (hf : ∀ {u} b, Canon u → Canon (f u b)) :
    Canon (l.foldl f s) := Memory.wf_foldl f (fun _ b => hf b) l s h

theorem Canon.setHbmMem {m : Table Byte} (h : Canon s) (hm : Table.wf 0 m = true) : Canon (s.setHbmMem m) :=
  Memory.wf_setHbmMem s m h hm
theorem Canon.setHbmPoison {m : Table Bool} (h : Canon s) (hm : Table.wf false m = true) : Canon (s.setHbmPoison m) :=
  Memory.wf_setHbmPoison s m h hm
theorem Canon.setSram {m : Table Byte} (h : Canon s) (hm : Table.wf 0 m = true) : Canon (s.setSram m) :=
  Memory.wf_setSram s m h hm
theorem Canon.setSramPoison {m : Table Bool} (h : Canon s) (hm : Table.wf false m = true) :
    Canon (s.setSramPoison m) :=
  Memory.wf_setSramPoison s m h hm

/-- A table that every turn of a pass keeps canonical. -/
theorem Table.wf_foldl {α β : Type} [DecidableEq α] (d : α) {f : Table α → β → Table α}
    (hf : ∀ t b, Table.wf d t = true → Table.wf d (f t b) = true) (l : List β) (t : Table α) (h : Table.wf d t = true) :
    Table.wf d (l.foldl f t) = true := by
  induction l generalizing t with
  | nil => exact h
  | cons b l ih => exact ih _ (hf t b h)

/-- A command's outcome, from `s`: a next state, with the memories canonical where those of `s` are. -/
def Ends (s : State) (o : Host.Outcome State Fault Refusal) : Prop := ∃ t, o = .next t ∧ (Canon s → Canon t)

theorem Ends.done {t : State} (hk : Canon s → Canon t) : Ends s (done t) := ⟨t, rfl, hk⟩

/-! ### Operations of the state -/

theorem Canon.setFn {f : Nat} {x : Fn} (h : Canon s) : Canon (s.setFn f x) := h.frame
theorem Canon.updFn {f : Nat} {g : Fn → Fn} (h : Canon s) : Canon (s.updFn f g) := h.setFn
theorem Canon.setPort {n : Nat} {x : Port} (h : Canon s) : Canon (s.setPort n x) := h.frame
theorem Canon.setLease {l : Nat} {x : Lease} (h : Canon s) : Canon (s.setLease l x) := h.frame
theorem Canon.updLease {l : Nat} {g : Lease → Lease} (h : Canon s) : Canon (s.updLease l g) := h.setLease
theorem Canon.setRegion {r : Nat} {x : Region} (h : Canon s) : Canon (s.setRegion r x) := h.frame
theorem Canon.updRegion {r : Nat} {g : Region → Region} (h : Canon s) : Canon (s.updRegion r g) := h.setRegion
theorem Canon.setEng {e : Nat} {x : CfgEng} (h : Canon s) : Canon (s.setEng e x) := h.frame
theorem Canon.setClk {d : Nat} {x : DieClk} (h : Canon s) : Canon (s.setClk d x) := h.frame
theorem Canon.setTile {t : Nat} {x : Tile} (h : Canon s) : Canon (s.setTile t x) := h.frameFab
theorem Canon.setMTile {t : Nat} {x : MTile} (h : Canon s) : Canon (s.setMTile t x) := h.frameFab
theorem Canon.setStream {i : Nat} {x : Option Stream} (h : Canon s) : Canon (s.setStream i x) := h.frameFab
theorem Canon.setProg {hd : Nat} {x : Option Prog} (h : Canon s) : Canon (s.setProg hd x) := h.frame
theorem Canon.setSec {i : Nat} {x : Option Section} (h : Canon s) : Canon (s.setSec i x) := h.frame
theorem Canon.setChan {c : Nat} {x : Chan} (h : Canon s) : Canon (s.setChan c x) := h.frame
theorem Canon.emit {o : Out} (h : Canon s) : Canon (s.emit o) := h.frame
theorem Canon.refreshReady (h : Canon s) : Canon s.refreshReady := .ite h.frame h

theorem Canon.setGroup {g : Group} {x : Stg} (h : Canon s) : Canon (s.setGroup g x) := by
  unfold State.setGroup
  split
  · exact h.updFn
  · exact h.updFn
  · exact h.setClk
  · exact h.frame
  · exact h.frame
  · exact h.frameHbm

theorem Canon.drew (h : Canon s) : Canon s.drew := h.frame
theorem Canon.drewRandom (h : Canon s) : Canon s.drewRandom := h.frame
theorem Canon.msix {f v : Nat} (h : Canon s) : Canon (s.msix f v) := .ite h.emit h.updFn
theorem Canon.writeHost {f a : Nat} {bs : List Byte} (h : Canon s) : Canon (s.writeHost f a bs) :=
  h.foldl fun _ h => h.emit
theorem Canon.writeReply {f : Nat} {e : Entry} (h : Canon s) : Canon (s.writeReply f e) := h.emit.emit.updFn.msix

theorem Canon.drainHeld {f n : Nat} (h : Canon s) : Canon (s.drainHeld f n) := by
  induction n generalizing s with
  | zero => exact h
  | succ n ih =>
    unfold State.drainHeld
    split
    · exact h
    · exact .ite (ih h.updFn.writeReply) h

theorem Canon.drainPort {port : Nat} (h : Canon s) : Canon (s.drainPort port) := h.foldl fun _ h => h.drainHeld
theorem Canon.aerError {f bit bar off : Nat} (h : Canon s) : Canon (s.aerError f bit bar off) :=
  .ite h.setFn h.setFn.emit
theorem Canon.produce {f : Nat} {e : Entry} (h : Canon s) : Canon (s.produce f e) :=
  .ite h.writeReply (.ite h.updFn h.updFn)
theorem Canon.eventTo {e : Ev} {f : Nat} (h : Canon s) : Canon (s.eventTo e f) :=
  .ite h.updFn.emit.updFn.msix h.updFn.updFn
theorem Canon.logEvent {e : Ev} (h : Canon s) : Canon (s.logEvent e) := h.frame

theorem Canon.event {e : Ev} {fns : List Nat} {log : Bool} (h : Canon s) : Canon (s.event e fns log) := by
  unfold State.event
  extract_lets s1
  have h1 : Canon s1 := h.foldl fun _ h => h.eventTo
  exact .ite h1.logEvent h1

theorem Canon.eventLease {e : Ev} {l : Nat} (h : Canon s) : Canon (s.eventLease e l) := h.event
theorem Canon.eventSteward {e : Ev} (h : Canon s) : Canon (s.eventSteward e) := h.event
theorem Canon.eventStewardLog {e : Ev} (h : Canon s) : Canon (s.eventStewardLog e) := h.event
theorem Canon.eventLeaseStewardLog {e : Ev} {l : Nat} (h : Canon s) : Canon (s.eventLeaseStewardLog e l) := h.event
theorem Canon.eventLeaseSteward {e : Ev} {l : Nat} (h : Canon s) : Canon (s.eventLeaseSteward e l) := h.event
theorem Canon.eventAllOpen {e : Ev} (h : Canon s) : Canon (s.eventAllOpen e) := h.event

theorem Canon.leaseStateEvent {l newState cause former new : Nat} {fns : List Nat} (h : Canon s) :
    Canon (s.leaseStateEvent l newState cause former new fns) :=
  h.event

theorem Canon.hbmMark {l a n : Nat} {p : Bool} (h : Canon s) : Canon (s.hbmMark l a n p) :=
  Memory.wf_hbmMark s _ _ _ _ h
theorem Canon.hbmWrite {l a : Nat} {bs : List Byte} (h : Canon s) : Canon (s.hbmWrite l a bs) :=
  Memory.wf_hbmWrite s _ _ _ h
theorem Canon.hbmZero {l a n : Nat} (h : Canon s) : Canon (s.hbmZero l a n) := Memory.wf_hbmZero s _ _ _ h
theorem Canon.hbmErase {l : Nat} (h : Canon s) : Canon (s.hbmErase l) :=
  Memory.wf_hbmErase s _ h
theorem Canon.sramMark {t a n : Nat} {p : Bool} (h : Canon s) : Canon (s.sramMark t a n p) :=
  Memory.wf_sramMark s _ _ _ _ h
theorem Canon.sramClearWhole {t a n : Nat} (h : Canon s) : Canon (s.sramClearWhole t a n) :=
  Memory.wf_sramClearWhole s _ _ _ h
theorem Canon.sramWrite {t a : Nat} {bs : List Byte} {p : Bool} (h : Canon s) : Canon (s.sramWrite t a bs p) :=
  Memory.wf_sramWrite s _ _ _ _ h
theorem Canon.sramFlWrite {t a n : Nat} {fl : List (BitVec 5)} (h : Canon s) : Canon (s.sramFlWrite t a n fl) :=
  .ite h h.frameFab
theorem Canon.hbmFlWrite {sec l a n : Nat} {fl : List (BitVec 5)} (h : Canon s) : Canon (s.hbmFlWrite sec l a n fl) :=
  .ite h h.frameHbm

theorem Canon.putChan {c : Nat} {x : Chan} (h : Canon s) : Canon (s.putChan c x) := by
  obtain ⟨-, ⟨hsram, hmarks⟩, -⟩ := (Memory.wf_iff s).1 h
  unfold State.putChan
  extract_lets ts base sram
  have hs : Table.wf 0 sram = true := by
    refine Table.wf_foldl 0 (fun t e ht => ?_) _ _ (Table.wf_keep 0 _ _ hsram)
    split
    · exact Table.wf_setList 0 _ _ _ ht
    · exact ht
  exact .ite ((h.setSram hs).setSramPoison (Table.wf_keep false _ _ hmarks)).setChan h.setChan

theorem Canon.setFrame {t i : Nat} {f : Frame} (h : Canon s) : Canon (s.setFrame t i f) :=
  Memory.wf_setFrame s _ _ _ h
theorem Canon.frameErase {ts : List Nat} (h : Canon s) : Canon (s.frameErase ts) :=
  Memory.wf_frameErase s _ h

/-! ### Register accesses -/

theorem Canon.fireArmed {l n : Nat} (h : Canon s) : Canon (s.fireArmed l n) := by
  unfold State.fireArmed
  refine .ite ?_ h
  dsimp only
  split
  · exact h.updLease.msix
  · exact h.updLease

theorem Canon.markReady (h : Canon s) : Canon s.markReady := h.foldl fun _ h => h.setStream
theorem Canon.setHTally {l n : Nat} {v : Half} (h : Canon s) : Canon (s.setHTally l n v) :=
  h.updLease.frame.markReady.fireArmed
theorem Canon.addHTally {l n amount : Nat} (h : Canon s) : Canon (s.addHTally l n amount) := h.setHTally
theorem Canon.pageFault {l n : Nat} (h : Canon s) : Canon (pageFault l n s) := h.eventLease

theorem Canon.signalHTally {f n : Nat} {v : Word} (h : Canon s) : Canon (signalHTally f n v s) := by
  unfold Machine.signalHTally
  split
  · exact h
  · exact .ite h.addHTally h.pageFault

theorem Canon.armHTally {f n : Nat} {v : Word} (h : Canon s) : Canon (armHTally f n v s) := by
  unfold Machine.armHTally
  split
  · exact h
  · exact .ite h.updLease.fireArmed h

theorem Canon.requestHLatch {f j : Nat} {v : Word} (h : Canon s) : Canon (requestHLatch f j v s) := by
  unfold Machine.requestHLatch
  split
  · exact h
  · exact .ite h.pageFault (.ite h.updLease h)

theorem Canon.releaseHLatch {f j : Nat} {v : Word} (h : Canon s) : Canon (releaseHLatch f j v s) := by
  unfold Machine.releaseHLatch
  split
  · exact h
  · exact .ite (.ite h.updLease h.updLease) h.pageFault

theorem Canon.writeHtLease {f : Nat} {v : Word} (h : Canon s) : Canon (writeHtLease f v s) := .ite h.updFn h
theorem Canon.ringDoorbells {f : Nat} {v : Word} (h : Canon s) : Canon (ringDoorbells f v s) := h.updFn

theorem Canon.serviceDoorbell {f bit : Nat} (h : Canon s) : Canon (serviceDoorbell f bit s) := by
  unfold Machine.serviceDoorbell
  refine .ite ?_ h
  dsimp only
  split
  · exact h.updFn.addHTally
  · exact h.updFn

theorem Canon.postMessage {f off : Nat} {bytes : Entry} (h : Canon s) : Canon (postMessage f off bytes s) :=
  .ite h.setFn h.setFn.aerError
theorem Canon.writePost {f : Nat} {v : Word} (h : Canon s) : Canon (writePost f v s) := .ite h.postMessage h
theorem Canon.writePostShort {f size : Nat} {v : DWord} (h : Canon s) : Canon (writePostShort f size v s) :=
  .ite h.postMessage h
theorem Canon.writeRingCons {f : Nat} {v : Word} (h : Canon s) : Canon (writeRingCons f v s) := h.updFn.drainHeld
theorem Canon.writeEvtCons {f : Nat} {v : Word} (h : Canon s) : Canon (writeEvtCons f v s) := h.updFn
theorem Canon.acquireLock {f : Nat} {v : Word} (h : Canon s) : Canon (acquireLock f v s) := .ite h.frame h
theorem Canon.releaseLock {f : Nat} {v : Word} (h : Canon s) : Canon (releaseLock f v s) := .ite h.frame h
theorem Canon.writeLockReq {f : Nat} {v : Word} (h : Canon s) : Canon (writeLockReq f v s) :=
  h.acquireLock.releaseLock
theorem Canon.lockViolation {f off : Nat} {v : Word} (h : Canon s) : Canon (lockViolation f off v s) :=
  h.frame.eventSteward

theorem Canon.writeSec {f off : Nat} {v : Word} (h : Canon s) : Canon (writeSec f off v s) :=
  .ite h.lockViolation <| .ite (.ite h.lockViolation (h.frame.foldl fun _ h => h.drainPort)) <|
    .ite (.ite h.lockViolation h.frame) (.ite h.frame h)

theorem Canon.stage {g : Group} {merge : Nat → Nat} (h : Canon s) : Canon (s.stage g merge) := h.setGroup
theorem Canon.writeCommit {g : Group} {v : Word} (h : Canon s) : Canon (writeCommit g v s) := h.setGroup

theorem Canon.afterTransfer {g : Group} (h : Canon s) : Canon (afterTransfer g s) := by
  unfold Machine.afterTransfer
  split
  · exact h.updFn.drainHeld
  · exact h.updFn
  · exact .ite h.frameHbm h
  · exact h

theorem Canon.transferGroup {g : Group} (h : Canon s) : Canon (transferGroup g s) := .ite h.setGroup.afterTransfer h

theorem Canon.writeSteward {f off : Nat} {v : Word} (h : Canon s) : Canon (writeSteward f off v s) := by
  unfold Machine.writeSteward
  refine .ite h.writeLockReq (.ite h.writeSec (.ite h ?_))
  split
  · exact h.stage
  split
  · exact h.writeCommit
  refine .ite h.stage (.ite h.writeCommit (.ite h.stage (.ite h.writeCommit ?_)))
  split
  · exact h.setClk
  split
  · exact h.stage
  split
  · exact h.writeCommit
  refine .ite h.frameHbm (.ite h.frameHbm ?_)
  split
  · exact .ite h.setEng h
  split
  · exact .ite h.frame h
  · exact h

theorem Canon.writeReg {f off : Nat} {v : Word} (h : Canon s) : Canon (writeReg f off v s) := by
  unfold Machine.writeReg
  refine .ite (.ite h.writeSteward h) ?_
  split
  · exact h.updFn
  refine .ite h.writePost <| .ite h.writePostShort <| .ite (.ite h.updFn h) <| .ite h.updFn <| .ite h.stage <| .ite h.stage <|
    .ite h.stage <| .ite h.writeCommit <| .ite h.writeRingCons <| .ite h.ringDoorbells <| .ite (.ite h.updFn h) ?_
  split
  · exact h.signalHTally
  split
  · exact h.armHTally
  split
  · exact h.requestHLatch
  split
  · exact h.releaseHLatch
  split
  · split
    · exact h
    · exact .ite h.updLease h
  refine .ite h.writeHtLease <| .ite h.stage <| .ite h.stage <| .ite h.stage <| .ite h.writeCommit <| .ite h.writeEvtCons ?_
  split
  · exact h.setClk
  · exact h

theorem Canon.unmaskVector {f v : Nat} (h : Canon s) : Canon (unmaskVector f v s) := .ite h.updFn.updFn.emit h.updFn
theorem Canon.writeBar4 {f off : Nat} {v : Word} (h : Canon s) : Canon (writeBar4 f off v s) :=
  .ite (.ite h.updFn h.unmaskVector) (.ite h.updFn h)

theorem Canon.regWrite {bar4 : Bool} {f off size : Nat} {val : DWord} (h : Canon s) :
    Canon (regWrite bar4 f off size val s) := by
  unfold Machine.regWrite
  extract_lets lo hi s4 s1
  have h4 : Canon s4 := .ite h.writeBar4 h
  have h1 : Canon s1 := h.writeReg
  exact .ite h (.ite (.ite h4.writeBar4 h4) (.ite h.writePostShort (.ite h1.writeReg h1)))

theorem Canon.settleRegs {f : Nat} (h : Canon s) : Canon (settleRegs f s) := by
  unfold Machine.settleRegs
  split
  · exact h
  · exact h.updFn.foldl fun _ h => h.regWrite

theorem Canon.settleAll (h : Canon s) : Canon (settleAll s) := h.foldl fun _ h => h.settleRegs

theorem Canon.hostWrite {bar4 : Bool} {f off size : Nat} {val : DWord} {late : Bool} (h : Canon s) :
    Canon (hostWrite bar4 f off size val late s) :=
  .ite h.emit (.ite h.updFn h.settleRegs.regWrite)

@[simp] theorem ends_registerWrite {bar4 : Bool} {fn off size : Nat} {val : DWord} {late : Bool} :
    Ends s (exec (.registerWrite bar4 fn off size val late) s) :=
  .done fun h => h.hostWrite

theorem Canon.gated {f : Nat} {act : State → State} (h : Canon s) (hact : ∀ {u}, Canon u → Canon (act u)) :
    Canon (gated f act s) :=
  .ite (hact h.settleRegs) h.emit

@[simp] theorem ends_commit {fn : Nat} {g : Group} {val : Word} : Ends s (exec (.commit fn g val) s) :=
  .done fun h => h.gated fun h => .ite h.writeCommit h
@[simp] theorem ends_mbxPost {fn : Nat} {val : Word} : Ends s (exec (.mbxPost fn val) s) :=
  .done fun h => h.gated fun h => h.writePost
@[simp] theorem ends_mbxPostShort {fn size : Nat} {val : DWord} : Ends s (exec (.mbxPostShort fn size val) s) :=
  .done fun h => h.gated fun h => h.writePostShort
@[simp] theorem ends_mbxRingConsWrite {fn : Nat} {val : Word} : Ends s (exec (.mbxRingConsWrite fn val) s) :=
  .done fun h => h.gated fun h => h.writeRingCons
@[simp] theorem ends_evtRingConsWrite {fn : Nat} {val : Word} : Ends s (exec (.evtRingConsWrite fn val) s) :=
  .done fun h => h.gated fun h => h.writeEvtCons
@[simp] theorem ends_dbRing {fn : Nat} {val : Word} : Ends s (exec (.dbRing fn val) s) :=
  .done fun h => h.gated fun h => h.ringDoorbells
@[simp] theorem ends_doorbellService {fn bit : Nat} : Ends s (exec (.doorbellService fn bit) s) :=
  .done fun h => h.serviceDoorbell
@[simp] theorem ends_htallySignal {fn n : Nat} {val : Word} : Ends s (exec (.htallySignal fn n val) s) :=
  .done fun h => h.gated fun h => h.signalHTally
@[simp] theorem ends_htallyArm {fn n : Nat} {val : Word} : Ends s (exec (.htallyArm fn n val) s) :=
  .done fun h => h.gated fun h => h.armHTally
@[simp] theorem ends_hlatchReq {fn j : Nat} {val : Word} : Ends s (exec (.hlatchReq fn j val) s) :=
  .done fun h => h.gated fun h => h.requestHLatch
@[simp] theorem ends_hlatchRel {fn j : Nat} {val : Word} : Ends s (exec (.hlatchRel fn j val) s) :=
  .done fun h => h.gated fun h => h.releaseHLatch
@[simp] theorem ends_stwLockAcquire {fn : Nat} {val : Word} : Ends s (exec (.stwLockAcquire fn val) s) :=
  .done fun h => h.gated fun h => h.acquireLock
@[simp] theorem ends_stwLockRelease {fn : Nat} {val : Word} : Ends s (exec (.stwLockRelease fn val) s) :=
  .done fun h => h.gated fun h => h.releaseLock
@[simp] theorem ends_htallyLeaseWrite {fn : Nat} {val : Word} : Ends s (exec (.htallyLeaseWrite fn val) s) :=
  .done fun h => h.gated fun h => h.writeHtLease
@[simp] theorem ends_msixVectorUnmask {fn v : Nat} : Ends s (exec (.msixVectorUnmask fn v) s) :=
  .done fun h => h.gated fun h => h.unmaskVector

end Sys2Proof.Machine
end

