-- ==== Sys2Proof/Proofs/CanonicalDevice.lean ====
section
/-! Every step keeps the memories canonical and ends in a next state (O5, O60):
the rules for sections and programs that end, the host windows, power, what the memories find, boot. -/
namespace Sys2Proof.Machine

variable {s : State}

/-! ### Sections and programs that end -/

theorem Canon.sendAll {ps : List Packet} (h : Canon s) : Canon (s.sendAll ps) := h.frameFab

theorem Canon.tileFault {sec lease unit : Nat} {fields : List Nat} (h : Canon s) :
    Canon (s.tileFault sec lease unit fields) :=
  h.eventLease

theorem Canon.grantLatch {t j : Nat} (h : Canon s) : Canon (grantLatch t j s) := .ite h.setMTile.sendAll h
theorem Canon.abandonLatch {t j lease : Nat} (h : Canon s) : Canon (abandonLatch s t j lease) :=
  .ite h.setMTile.eventLease h

theorem Canon.abandonHeld {p : Nat → Bool} {rs : List Nat} {lease : Nat} (h : Canon s) :
    Canon (abandonHeld s p rs lease) :=
  h.foldl fun _ h => h.foldl fun _ h => .ite (.ite h.abandonLatch h.abandonLatch.grantLatch) h

theorem Canon.abandonLatches {rs : List Nat} {lease : Nat} (h : Canon s) : Canon (abandonLatches s rs lease) :=
  h.abandonHeld
theorem Canon.abandonAllLatches {r lease : Nat} (h : Canon s) : Canon (abandonAllLatches s r lease) :=
  h.foldl fun _ h => h.foldl fun _ h => h.abandonLatch
theorem Canon.endTile {lease t : Nat} (h : Canon s) : Canon (endTile lease s t) := .ite h.setTile h.setTile.tileFault
theorem Canon.endMTile {lease i t : Nat} (h : Canon s) : Canon (endMTile lease i s t) :=
  h.setMTile.foldl fun _ h => .ite h h.tileFault
theorem Canon.dropSection {i : Nat} (h : Canon s) : Canon (dropSection s i) := h.frameFab.frameHbm.frame
theorem Canon.endRegion {r : Nat} (h : Canon s) : Canon (endRegion s r) := h.updRegion
theorem Canon.loseBillet {t b : Nat} (h : Canon s) : Canon (loseBillet t b s) := h.sramWrite.sramFlWrite
theorem Canon.emptyShadow {i t : Nat} (h : Canon s) : Canon (emptyShadow s i t) :=
  h.setMTile.foldl fun _ h => h.loseBillet
theorem Canon.idleRegion {i r : Nat} (h : Canon s) : Canon (idleRegion i s r) := h.updRegion

theorem Canon.cancelCore {all : Bool} {i : Nat} (h : Canon s) : Canon (cancelCore all s i) := by
  unfold Machine.cancelCore
  split
  · exact h
  · extract_lets rs s1 s2 s3 s4
    have h3 : Canon s3 :=
      ((h.dropSection.foldl fun _ h => h.emptyShadow).foldl fun _ h => h.idleRegion).foldl fun _ h => h.updRegion
    have h4 : Canon s4 := by
      unfold s4
      split
      · exact .ite h3.setProg h3
      · exact h3
    exact h4.frame.setSec

theorem Canon.cancelSection {i : Nat} (h : Canon s) : Canon (cancelSection s i) := h.cancelCore

theorem Canon.rewound {i : Nat} (h : Canon s) : Canon (rewound s i).1 := by
  unfold Machine.rewound
  split
  · exact h
  · exact .ite_fst h.cancelSection.setSec h.cancelSection

theorem Canon.rewindSection {i : Nat} (h : Canon s) : Canon (rewindSection s i) := h.rewound

theorem Canon.requeueSection {i : Nat} (h : Canon s) : Canon (requeueSection s i) := by
  unfold Machine.requeueSection
  dsimp only
  split
  · exact h.rewound.frame
  · exact h.rewound

theorem Canon.cancelPending {hd : Nat} (h : Canon s) : Canon (cancelPending s hd) :=
  h.foldl fun _ h => h.cancelSection
theorem Canon.endRecord {hd : Nat} {p : Prog} (h : Canon s) : Canon (endRecord s hd p) := .ite h h.produce
theorem Canon.releaseProg {hd : Nat} (h : Canon s) : Canon (releaseProg s hd) := h.setProg.frame

theorem Canon.stopProg {hd ord idx : Nat} {st : Status} (h : Canon s) : Canon (stopProg s hd ord idx st) := by
  unfold Machine.stopProg
  split
  · exact h
  · exact h.setProg.cancelPending

theorem Canon.dropFlight {fn : Nat} {seq : Word} (h : Canon s) : Canon (dropFlight s fn seq) := h.frame

theorem Canon.finishCmd {fn : Nat} {seq : Word} {st : Status} {flags : Nat} {results : List Byte} (h : Canon s) :
    Canon (finishCmd s fn seq st flags results) := by
  unfold Machine.finishCmd
  split
  · exact h
  · exact .ite h.dropFlight h.dropFlight.produce

theorem Canon.safePoint {g : Group} (h : Canon s) : Canon (safePoint g s) :=
  .ite (h.transferGroup.foldl fun _ h => h.finishCmd) h
theorem Canon.leftOpen {l : Nat} (h : Canon s) : Canon (leftOpen s l) := h.frame
theorem Canon.abandonHLatches {l : Nat} (h : Canon s) : Canon (abandonHLatches s l) :=
  h.foldl fun _ h => .ite h h.updLease.eventLease
theorem Canon.unmapLease {l : Nat} (h : Canon s) : Canon (unmapLease s l) := h.frame
theorem Canon.loseWrites {l lo : Nat} (h : Canon s) : Canon (loseWrites l lo s) := h.foldl fun _ h => .ite h.frame h
theorem Canon.startClosing {l cause : Nat} {reach : List Nat} (h : Canon s) : Canon (startClosing s l cause reach) :=
  h.setLease.leftOpen.leaseStateEvent.unmapLease.loseWrites.abandonHLatches
theorem Canon.closeGoesOn {l : Nat} (h : Canon s) : Canon (closeGoesOn l s) := .ite h.startClosing h

theorem Canon.settleProg {hd : Nat} (h : Canon s) : Canon (settleProg s hd) := by
  unfold Machine.settleProg
  split
  · exact h
  extract_lets s1
  have h1 : Canon s1 := h.foldl fun _ h => h.finishCmd
  exact .ite h (.ite h1.endRecord.releaseProg.closeGoesOn (.ite h1.releaseProg.closeGoesOn h1))

theorem Canon.endSection {i : Nat} {st : Status} (h : Canon s) : Canon (endSection s i st) := by
  unfold Machine.endSection
  split
  · exact h
  · extract_lets rs ok s1 s2 s3 s4 s5 s' s6
    have h4 : Canon s4 :=
      ((h.abandonLatches.foldl fun _ h => .ite h.endTile h).foldl fun _ h => h.endMTile).dropSection.setSec.updLease
    have h5 : Canon s5 := by
      unfold s5
      split
      · exact h4
      · exact h4.setProg
    have h6 : Canon s6 := .ite h5 (h5.foldl fun _ h => h.cancelSection).stopProg
    exact (h6.foldl fun _ h => h.endRegion).settleProg

theorem Canon.verdictOn {i : Nat} {st : Status} (h : Canon s) : Canon (verdictOn s i st) := by
  unfold Machine.verdictOn
  split
  · exact h
  · exact .ite h.setSec.dropSection.frameFab (.ite h.setSec h)

theorem Canon.abortRegion {r : Nat} (h : Canon s) : Canon (abortRegion s r) := by
  unfold Machine.abortRegion
  extract_lets on lease s1 s2 s3
  have h2 : Canon s2 := h.abandonAllLatches.foldl fun _ h => .ite h.endSection (.ite h.cancelSection.stopProg h)
  exact h2.updRegion.foldl fun _ h => h.settleProg

theorem Canon.saveRegion {l r : Nat} (h : Canon s) : Canon (saveRegion s l r) := h.updLease
theorem Canon.zeroiseRegion {r : Nat} (h : Canon s) : Canon (zeroiseRegion s r) :=
  Memory.wf_zeroiseRegion s _ h
theorem Canon.restoreRegion {l r : Nat} (h : Canon s) : Canon (restoreRegion s l r) :=
  Memory.wf_restoreRegion s _ _ h
theorem Canon.scrubEvent {type die dom errs : Nat} (h : Canon s) : Canon (scrubEvent type die dom errs s) :=
  h.eventStewardLog
theorem Canon.setScrub {i : Nat} {b : Scrub} (h : Canon s) : Canon (setScrub s i b) := h.frame
theorem Canon.escalate {die dom : Nat} (h : Canon s) : Canon (escalate die dom s) := .ite h.setScrub.scrubEvent h

theorem Canon.poisonFound {lease unit addr domain by_ mask tag : Nat} {owned : Bool} (h : Canon s) :
    Canon (poisonFound lease unit addr domain by_ mask tag owned s) :=
  .ite h.eventLeaseStewardLog h.eventStewardLog

theorem Canon.countCorrectable {die dom line : Nat} (h : Canon s) : Canon (countCorrectable die dom line s) :=
  h.setScrub.escalate

theorem Canon.hbmFinding {l a by_ tag : Nat} {f : Finding} (h : Canon s) : Canon (hbmFinding l a by_ tag f s) := by
  unfold Machine.hbmFinding
  split
  · exact h
  · exact h.countCorrectable
  · exact h.hbmMark.poisonFound

theorem Canon.sramFinding {t a by_ tag : Nat} {f : Finding} (h : Canon s) : Canon (sramFinding t a by_ tag f s) := by
  unfold Machine.sramFinding
  split
  · exact h
  · exact h.countCorrectable
  · dsimp only
    split
    · exact h.sramMark.poisonFound
    · exact h.sramMark.poisonFound

theorem Canon.saveFinding {r k : Nat} {f : Finding} (h : Canon s) : Canon (saveFinding r k f s) := by
  unfold Machine.saveFinding
  split
  · exact .ite h.sramFinding h
  · exact h

theorem Canon.endEmulation {c : Nat} (h : Canon s) : Canon (endEmulation c s) := by
  unfold Machine.endEmulation
  dsimp only
  split
  · exact .ite h.zeroiseRegion.updRegion.updLease h
  · exact h

theorem Canon.unbindChan {c : Nat} (h : Canon s) : Canon (unbindChan s c) := h.endEmulation.setChan
theorem Canon.unbindChans {l : Nat} (h : Canon s) : Canon (unbindChans s l) := h.foldl fun _ h => .ite h.unbindChan h
theorem Canon.startDraining {l : Nat} (h : Canon s) : Canon (startDraining s l) :=
  .ite h (h.setLease.leftOpen.foldl fun _ h => h.setProg.cancelPending).leaseStateEvent
theorem Canon.dropLease {l : Nat} (h : Canon s) : Canon (dropLease s l) := h.frameFab.frameHbm
theorem Canon.dropCommands {l : Nat} (h : Canon s) : Canon (dropCommands l s) := h.foldl fun _ h => h.finishCmd
theorem Canon.freeLease {l : Nat} {reach : List Nat} (h : Canon s) : Canon (freeLease s l reach) :=
  (h.unbindChans.foldl fun _ h => .ite h.zeroiseRegion.updRegion h).dropCommands.hbmErase.setLease.dropLease.leaseStateEvent

/-! ### Host windows, configuration requests and resets -/

theorem Canon.newFrames {g : Group} (h : Canon s) : Canon (newFrames g s) := by
  unfold Machine.newFrames
  split
  · exact h.frameHbm
  · exact h

@[simp] theorem ends_commitTransfer {g : Group} : Ends s (exec (.commitTransfer g) s) :=
  .done fun h => .ite h.newFrames.safePoint h
theorem Canon.flushRead {f : Nat} {ro : Bool} (h : Canon s) : Canon (flushRead f ro s) := .ite h.updFn h.emit
@[simp] theorem ends_ordFlushRead {fn : Nat} {ro : Bool} : Ends s (exec (.ordFlushRead fn ro) s) :=
  .done fun h => h.flushRead

theorem Canon.flushDone {f : Nat} (h : Canon s) : Canon (flushDone f s) := by
  unfold Machine.flushDone
  split
  · exact h
  · exact .ite h h.settleRegs.updFn.emit

@[simp] theorem ends_flushComplete {fn : Nat} : Ends s (exec (.flushComplete fn) s) := .done fun h => h.flushDone
theorem Canon.windowFault {f off : Nat} {write : Bool} (h : Canon s) : Canon (windowFault f off write s) :=
  .ite h.updFn h.updFn.eventTo

theorem Canon.windowWrite {f off : Nat} {data : List (Option Byte)} {ep : Bool} (h : Canon s) :
    Canon (windowWrite f off data ep s) := by
  unfold Machine.windowWrite
  extract_lets runs s1 s2
  have h1 : Canon s1 := h.foldl fun _ h => by
    split
    · exact h.frame
    · exact h
  have h2 : Canon s2 := .ite h1.aerError h1
  refine .ite h.emit ?_
  split
  · exact h2.windowFault
  · exact h2

@[simp] theorem ends_hostWindowWrite {fn off : Nat} {data : List (Option Byte)} {ep : Bool} :
    Ends s (exec (.hostWindowWrite fn off data ep) s) :=
  .done fun h => h.windowWrite

theorem Canon.landBytes {l a : Nat} {data : List (Option Byte)} {ep : Bool} (h : Canon s) :
    Canon (landBytes l a data ep s) :=
  .ite ((h.foldl fun _ h => h.hbmWrite).foldl fun _ h => h.hbmMark) (h.foldl fun _ h => h.hbmWrite)

theorem Canon.landWrite {id : Nat} (h : Canon s) : Canon (landWrite id s) := by
  unfold Machine.landWrite
  split
  · exact h
  · exact .ite h (.ite h.frame.windowFault h.frame.landBytes.updFn)

@[simp] theorem ends_windowWriteLands {id : Nat} : Ends s (exec (.windowWriteLands id) s) :=
  .done fun h => h.landWrite

theorem Canon.windowRead {f off : Nat} {en : List Bool} {ro : Bool} {at_ : Nat} {fd : Finding} (h : Canon s) :
    Canon (windowRead f off en ro at_ fd s) := by
  unfold Machine.windowRead
  extract_lets len s0 v ps s1
  refine .ite h.emit ?_
  have h0 : Canon s0 := by
    unfold s0
    split
    · exact h.hbmFinding
    · exact h
  have h1 : Canon s1 := h0.foldl fun _ h => h.emit
  split
  · exact h1.windowFault
  · exact h1

@[simp] theorem ends_hostWindowRead {fn off : Nat} {en : List Bool} {ro : Bool} {at_ : Nat} {f : Finding} :
    Ends s (exec (.hostWindowRead fn off en ro at_ f) s) :=
  .done fun h => h.windowRead

theorem Canon.cfgAct {f : Nat} {op : ConfigOp} (h : Canon s) : Canon (cfgAct f op s) := by
  unfold Machine.cfgAct
  split
  · exact h.emit
  · exact h.updFn
  · exact h.updFn.drainHeld
  · exact h.updFn
  · exact h.updFn
  · exact .ite h.updFn (h.updFn.foldl fun _ h => .ite h h.unmaskVector)
  · exact h.updFn
  · exact h.updFn.drainHeld
  · exact .ite h.updFn h
  · exact .ite h.updFn h
  · exact .ite h.setPort h
  · exact h.updFn
  · exact h.updFn
  · exact h.updFn
  · exact h.updFn
  · exact h.emit

theorem Canon.cfgRequest {f : Nat} {op : ConfigOp} (h : Canon s) : Canon (cfgRequest f op s) :=
  .ite h (.ite h.emit (.ite h.emit h.cfgAct))
@[simp] theorem ends_configRequest {fn : Nat} {op : ConfigOp} : Ends s (exec (.configRequest fn op) s) :=
  .done fun h => h.cfgRequest
@[simp] theorem ends_bar2Resize {fn sizeLog2 : Nat} : Ends s (exec (.bar2Resize fn sizeLog2) s) :=
  .done fun h => .ite h.updFn h
@[simp] theorem ends_busMasterEnableClear {fn : Nat} : Ends s (exec (.busMasterEnableClear fn) s) :=
  .done fun h => .ite h.updFn h
@[simp] theorem ends_d3hotEntry {fn : Nat} : Ends s (exec (.d3hotEntry fn) s) := .done fun h => .ite h.updFn h
theorem Canon.abandonStewardLock (h : Canon s) : Canon (abandonStewardLock s) := h.frame.event
theorem Canon.resetFn {f : Nat} (h : Canon s) : Canon (resetFn s f) :=
  (Canon.ite h.frame.setFn.frame.abandonStewardLock h.frame.setFn.frame).foldl fun _ h => h.startDraining
theorem Canon.clearVfs {port : Nat} (h : Canon s) : Canon (clearVfs s port) := (h.foldl fun _ h => h.resetFn).setPort
@[simp] theorem ends_vfEnableClear {port : Nat} : Ends s (exec (.vfEnableClear port) s) :=
  .done fun h => .ite h.clearVfs h
@[simp] theorem ends_functionLevelReset {fn : Nat} : Ends s (exec (.functionLevelReset fn) s) :=
  .done fun h => .ite h.clearVfs.resetFn h.resetFn
theorem Canon.resetPort {port : Nat} (h : Canon s) : Canon (resetPort s port) := h.clearVfs.resetFn.setPort
@[simp] theorem ends_hotReset {port : Nat} : Ends s (exec (.hotReset port) s) := .done fun h => h.resetPort
@[simp] theorem ends_linkDown {port : Nat} : Ends s (exec (.linkDown port) s) := .done fun h => h.resetPort
@[simp] theorem ends_linkUp {port : Nat} : Ends s (exec (.linkUp port) s) := .done fun h => .ite h.setPort h
@[simp] theorem ends_perstAssert {port : Nat} : Ends s (exec (.perstAssert port) s) :=
  .done fun h => h.resetPort.setPort
@[simp] theorem ends_perstDeassert {port : Nat} : Ends s (exec (.perstDeassert port) s) := .done fun h => h.setPort
@[simp] theorem ends_d3coldEntry {port : Nat} : Ends s (exec (.d3coldEntry port) s) :=
  .done fun h => h.resetPort.setPort
@[simp] theorem ends_functionReady {fn : Nat} : Ends s (exec (.functionReady fn) s) := .done fun h => .ite h.updFn h

/-! ### Power -/

theorem Canon.overrideEvent {d : Nat} {c : DieClk} {ticks : Nat} {last : Bool} (h : Canon s) :
    Canon (overrideEvent d c ticks last s) :=
  h.eventStewardLog

theorem Canon.decideDie {d : Nat} {x : DieSense} (h : Canon s) : Canon (decideDie s d x) :=
  .ite h.safePoint.setClk (.ite h.safePoint.setClk.overrideEvent (.ite h.safePoint.setClk.overrideEvent h.safePoint.setClk))
theorem Canon.stopClocks (h : Canon s) : Canon (stopClocks s) := h.foldl fun _ h => h.setClk
theorem Canon.startClocks (h : Canon s) : Canon (startClocks s) := h.foldl fun _ h => .ite h.setClk h

theorem Canon.quenchSections (h : Canon s) : Canon (quenchSections s) := by
  unfold Machine.quenchSections
  extract_lets s1 s2 s3
  have h1 : Canon s1 := h.foldl fun _ h => h.endSection
  have h2 : Canon s2 := h1.foldl fun _ h => h.stopProg.settleProg
  have h3 : Canon s3 := h2.foldl fun _ h => h.cancelSection
  exact h3.foldl fun _ h => h.updRegion

theorem Canon.enterQuench {code : Nat} (h : Canon s) : Canon (enterQuench code s) := h.quenchSections.stopClocks.frame
theorem Canon.abortStartup (h : Canon s) : Canon (abortStartup s) := h.stopClocks.frame

theorem Canon.raiseTrigger {code : Nat} (h : Canon s) : Canon (raiseTrigger code s) := by
  unfold Machine.raiseTrigger
  extract_lets _ s1 s2
  have h1 : Canon s1 := .ite h h.frame
  have h2 : Canon s2 := .ite h1.abortStartup h1
  exact .ite h1 (.ite h1.enterQuench (.ite h1 h2.frame))

theorem Canon.clearTrigger {code : Nat} (h : Canon s) : Canon (clearTrigger code s) :=
  .ite h (.ite h.frame h.frame.frame)
@[simp] theorem ends_quenchTrigger {code : Nat} : Ends s (exec (.quenchTrigger code) s) :=
  .done fun h => .ite h.raiseTrigger h
@[simp] theorem ends_quenchTriggerClear {code : Nat} : Ends s (exec (.quenchTriggerClear code) s) :=
  .done fun h => .ite h.clearTrigger h
theorem Canon.leaveQuench (h : Canon s) : Canon (leaveQuench s) := h.frame.startClocks.frame
theorem Canon.thermalTrigger {sn : Sensors} (h : Canon s) : Canon (thermalTrigger sn s) :=
  .ite h.raiseTrigger (.ite h.clearTrigger h)
@[simp] theorem ends_temperDecisionTick {sn : Sensors} : Ends s (exec (.temperDecisionTick sn) s) :=
  .done fun h => (h.safePoint.foldl fun _ h => .ite h.decideDie h).through fun h => .ite h h.thermalTrigger
@[simp] theorem ends_clockSlewStep {die : Nat} {tclk : Bool} : Ends s (exec (.clockSlewStep die tclk) s) :=
  .done fun h => .ite h (.ite h.setClk h.setClk)
@[simp] theorem ends_droop {die : Nat} : Ends s (exec (.droop die) s) := .done fun h => .ite h h.setClk
@[simp] theorem ends_droopRecovery {die : Nat} : Ends s (exec (.droopRecovery die) s) :=
  .done fun h => .ite h.setClk h
@[simp] theorem ends_telemetryUpdate {sn : Telemetry} : Ends s (exec (.telemetryUpdate sn) s) :=
  .done fun h => (h.foldl fun _ h => h.setClk).frame

/-! ### Findings of the memories and of the self-tests -/

theorem Canon.outOfService {bit : Nat} (h : Canon s) : Canon (outOfService bit s) :=
  .ite h.frame.eventAllOpen.refreshReady h

theorem Canon.tileFailedEvent {t kind col test : Nat} {rs : List Nat} (h : Canon s) :
    Canon (tileFailedEvent t kind col test rs s) :=
  h.event

theorem Canon.markSteered {rs : List Nat} (h : Canon s) : Canon (markSteered rs s) := h.frame

theorem Canon.tileFailed {t test : Nat} (h : Canon s) : Canon (tileFailed t test s) := by
  unfold Machine.tileFailed
  extract_lets d x m m1 _ dv rs m2 dv2 s1 s2
  have h1 : Canon s1 := h.frame.markSteered
  have h2 : Canon s2 := .ite (h1.foldl fun _ h => h.updRegion) h1
  exact .ite h (.ite h.frame.tileFailedEvent h2.tileFailedEvent)

@[simp] theorem ends_runtimeSelfTest {region : Nat} {failed : Option Nat} {router : Bool} :
    Ends s (exec (.runtimeSelfTest region failed router) s) :=
  .done fun h => by
    extract_lets s1
    have h1 : Canon s1 := h.zeroiseRegion.updRegion
    refine .ite ?_ h
    split
    · exact .ite (.ite h1.tileFailed.outOfService h1.tileFailed) h1
    · exact h1

@[simp] theorem ends_spareCalibration {die at_ : Nat} {f : Finding} : Ends s (exec (.spareCalibration die at_ f) s) :=
  .done fun h => by
    split
    · exact h
    extract_lets rs s0 s1 s2 s3
    have h0 : Canon s0 := h.foldl fun _ h => h.rewindSection
    have h1 : Canon s1 := h0.foldl fun _ h => by
      split
      · exact h.saveFinding.saveRegion
      · exact h
    have h3 : Canon s3 := h1.frameErase.foldl fun _ h => by
      refine .updRegion ?_
      split
      · exact h.restoreRegion
      · exact h
    exact .ite h3.frame h

theorem Canon.hardFault {die dom line pos : Nat} (h : Canon s) : Canon (hardFault die dom line pos s) :=
  h.frame.eventStewardLog

theorem Canon.frameUncorrectable {r addr : Nat} (h : Canon s) : Canon (frameUncorrectable r addr s) := by
  unfold Machine.frameUncorrectable
  extract_lets lease on s1 s2 e
  have h1 : Canon s1 := h.foldl fun _ h => .ite h.endSection (.ite h.cancelSection.stopProg.settleProg h)
  have h2 : Canon s2 := h1.updRegion
  clear_value lease
  split
  · exact h2.eventLeaseStewardLog
  · exact h2.eventStewardLog

theorem Canon.markUncorrectable {die dom line mask : Nat} (h : Canon s) :
    Canon (markUncorrectable die dom line mask s) :=
  have ⟨⟨_, hmarks⟩, _⟩ := (Memory.wf_iff s).1 h
  .ite (.ite h.sramMark.poisonFound (.ite h.poisonFound h.setChan.poisonFound))
    (.ite (.ite (h.setHbmPoison (Table.wf_set false _ _ _ hmarks)).poisonFound h.frame.poisonFound) h.frameUncorrectable)

theorem Canon.correctable {die dom line pos : Nat} (h : Canon s) : Canon (correctable die dom line pos s) :=
  .ite h.setScrub.countCorrectable.hardFault h.setScrub.countCorrectable
theorem Canon.uncorrectable {die dom line mask : Nat} (h : Canon s) : Canon (uncorrectable die dom line mask s) :=
  .ite h.setScrub.markUncorrectable.hardFault h.setScrub.markUncorrectable

@[simp] theorem ends_scrubLineRead {die dom line : Nat} {f : Finding} :
    Ends s (exec (.scrubLineRead die dom line f) s) :=
  .done fun h => by
    refine .ite h.safePoint ?_
    split
    · exact h.safePoint.setScrub.setScrub
    · exact h.safePoint.setScrub.correctable
    · exact h.safePoint.setScrub.uncorrectable

@[simp] theorem ends_scrubWriteBack {die dom : Nat} : Ends s (exec (.scrubWriteBack die dom) s) :=
  .done fun h => h.setScrub
@[simp] theorem ends_scrubRestored {die dom : Nat} : Ends s (exec (.scrubRestored die dom) s) :=
  .done fun h => .ite h.setScrub.scrubEvent h

@[simp] theorem ends_canaryCheck {die reportedBit : Nat} {crc : Word} {frames : Nat} :
    Ends s (exec (.canaryCheck die reportedBit crc frames) s) :=
  .done fun h => by
    extract_lets _ s1 s2 s3
    have h3 : Canon s3 := h.frame.setScrub.eventStewardLog
    exact .ite h (.ite h.setScrub (.ite h3.frame.refreshReady.eventAllOpen h3))

@[simp] theorem ends_tmrVote {upset : Nat} : Ends s (exec (.tmrVote upset) s) := .done fun h => .ite h.frame h
@[simp] theorem ends_ceSummary : Ends s (exec .ceSummary s) :=
  .done fun h => h.foldl fun _ h => .ite h h.logEvent.setScrub

theorem Canon.writePage {p : Nat} {content : List Byte} {n : Nat} (h : Canon s) :
    Canon (writePage p content n s) := by
  unfold Machine.writePage
  dsimp only
  split
  · exact h.eventSteward
  · exact h.frame

@[simp] theorem ends_durablePageWrite {page : Nat} {content : List Byte} {interrupted : Nat} :
    Ends s (exec (.durablePageWrite page content interrupted) s) :=
  .done fun h => .ite h.writePage h

@[simp] theorem ends_patinaPageFlush {page : Nat} : Ends s (exec (.patinaPageFlush page) s) :=
  .done fun h => .ite h.writePage.frame h
theorem Canon.reloadLog (h : Canon s) : Canon (reloadLog s) := h.foldl fun _ h => h.frame

/-! ### Boot and startup -/

theorem Canon.rebuildFloor (h : Canon s) : Canon (rebuildFloor s) := by
  unfold Machine.rebuildFloor
  split
  · exact h
  · exact h.eventSteward.frame

theorem Canon.markFailed {k : Nat} (h : Canon s) : Canon (markFailed k s) := h.frame

theorem Canon.trySlot {k : Nat} (h : Canon s) : Canon (trySlot k s).1 := by
  unfold Machine.trySlot
  extract_lets _ s1 img _
  have h1 : Canon s1 := .ite h.frame h
  clear_value s1 img
  split
  · exact h1.frame
  · exact h1.markFailed

theorem Canon.runFirmware (h : Canon s) : Canon (runFirmware s) := h.drewRandom.frame
theorem Canon.enterRecovery {step : Nat} (h : Canon s) : Canon (enterRecovery step s) := h.frame

theorem Canon.bootRom (h : Canon s) : Canon (bootRom s) := by
  unfold Machine.bootRom
  extract_lets _ s0 sel first a b
  have ha : Canon a.1 := h.frame.rebuildFloor.trySlot
  have hb : Canon b.1 := ha.trySlot
  exact .ite ha.runFirmware (.ite hb.runFirmware hb.enterRecovery)

theorem Canon.atStep {k : Nat} (h : Canon s) : Canon (atStep k s) := h.frame
theorem Canon.failUnits {p : Nat → Bool} {units : List Nat} (h : Canon s) : Canon (failUnits p units s) :=
  h.foldl fun _ h => h.outOfService
theorem Canon.lowestClocks (h : Canon s) : Canon (lowestClocks s) := h.foldl fun _ h => .ite h.setClk h
theorem Canon.startStep6 {r : StartupTests} (h : Canon s) : Canon (startStep6 r s) := h.failUnits.lowestClocks.atStep
theorem Canon.repairRow {exhausted : List Nat} {x : Nat × Bool} (h : Canon s) : Canon (repairRow exhausted s x) :=
  .ite (.ite h.frame h.frame.eventStewardLog) h.frame
theorem Canon.startStep7 {r : StartupTests} (h : Canon s) : Canon (startStep7 r s) :=
  (h.failUnits.frame.foldl fun _ h => h.repairRow).atStep
theorem Canon.startStep8 {r : StartupTests} (h : Canon s) : Canon (startStep8 r s) :=
  (h.failUnits.foldl fun _ h => h.tileFailed).frame.atStep
theorem Canon.startStep9 (h : Canon s) : Canon (startStep9 s) := h.frame.atStep
theorem Canon.recordHubError {cause addr : Nat} (h : Canon s) : Canon (recordHubError cause addr s) := h.setEng
theorem Canon.startStep11 (h : Canon s) : Canon (startStep11 s) := (h.foldl fun _ h => h.setPort).frame.atStep
theorem Canon.raiseFloor (h : Canon s) : Canon (raiseFloor s) := h.frame
theorem Canon.startStep12 (h : Canon s) : Canon (startStep12 s) :=
  (Canon.ite h.frame h.frame.frame.raiseFloor).frame.atStep
theorem Canon.startFrom10 {r : StartupTests} (h : Canon s) : Canon (startFrom10 r s) :=
  .ite h (.ite h.drew.drew.recordHubError.enterRecovery (.ite h.atStep (.ite h.atStep.startStep11 h.atStep.startStep11.startStep12)))

theorem Canon.startFrom6 {r : StartupTests} (h : Canon s) : Canon (startFrom6 r s) := by
  unfold Machine.startFrom6
  extract_lets s6 s7 s8
  have h6 : Canon s6 := h.startStep6
  have h7 : Canon s7 := h6.startStep7
  have h8 : Canon s8 := h7.startStep8
  exact .ite h (.ite h6 (.ite h7 (.ite h8 h8.startStep9.startFrom10)))

@[simp] theorem ends_mainPowerGood {r : StartupTests} : Ends s (exec (.mainPowerGood r) s) :=
  .done fun h => .ite h.frame.startFrom6 (.ite h.startFrom10 h)
@[simp] theorem ends_standbyPresent {modId : Nat} : Ends s (exec (.standbyPresent modId) s) :=
  .done fun h => .ite h h.frame.bootRom
theorem Canon.enablePower (h : Canon s) : Canon (enablePower s) := h.frame
@[simp] theorem ends_mainPowerEnable : Ends s (exec .mainPowerEnable s) := .done fun h => .ite h.enablePower h

@[simp] theorem ends_startupRetry : Ends s (exec .startupRetry s) :=
  .done fun h => by
    split
    · exact h
    · exact .ite h.frame.enablePower h

theorem canon_coldState : Canon (coldState s) := canon_reset.frame
@[simp] theorem ends_standbyLoss : Ends s (exec .standbyLoss s) := .done fun _ => canon_coldState
theorem canon_moduleState : Canon (moduleState s) := canon_coldState.frame

theorem canon_moduleReset {code : Nat} : Canon (moduleReset code s) := by
  unfold moduleReset
  exact .bootRom (canon_moduleState (s := reloadLog s)).frame

@[simp] theorem ends_moduleReset {code : Nat} : Ends s (exec (.moduleReset code) s) :=
  .done fun h => .ite canon_moduleReset h
@[simp] theorem ends_startupWatchdog : Ends s (exec .startupWatchdog s) := .done fun h => .ite canon_moduleReset h
theorem canon_loseMainPower : Canon (loseMainPower s) := canon_reset.frameHbm.frame
@[simp] theorem ends_mainPowerLoss : Ends s (exec .mainPowerLoss s) :=
  .done fun h => .ite h (.ite canon_loseMainPower.stopClocks.frame (.ite h.stopClocks.frame h.abortStartup.frame))
theorem Canon.setSlot {k : Nat} {x : FwSlot} (h : Canon s) : Canon (setSlot s k x) := h.frame
theorem Canon.beginUpdate {img : List Byte} (h : Canon s) : Canon (beginUpdate img s) := h.setSlot.frame
theorem Canon.endUpdate {img : List Byte} {readBackOk : Bool} (h : Canon s) : Canon (endUpdate img readBackOk s) :=
  h.setSlot.frame
theorem Canon.selectSlot {k : Nat} (h : Canon s) : Canon (selectSlot k s) := h.frame
@[simp] theorem ends_recoveryPackageCheck : Ends s (exec .recoveryPackageCheck s) :=
  .done fun h => .ite (.ite h.drew.frame.frame h.drew.frame.frame) h

end Sys2Proof.Machine
end

