-- ==== Sys2Proof/Proofs/CanonicalFabric.lean ====
section
/-! Every step keeps the memories canonical and ends in a next state (O5, O60):
the rules for packets, messages, ingots, compute tiles, configuration engines, leases and tallies. -/
namespace Sys2Proof.Machine

variable {s : State}

/-! ### Packets -/

theorem Canon.onNet {ps : List Packet} (h : Canon s) : Canon (s.onNet ps) := h.frameFab
theorem Canon.packetFault {p : Packet} (h : Canon s) : Canon (packetFault s p) := h.tileFault
theorem Canon.ackOwners {os : List Nat} (h : Canon s) : Canon (ackOwners s os) := h.foldl fun _ h => .ite h h.setTile

theorem Canon.progressed {i : Nat} (h : Canon s) : Canon (progressed s i) := by
  unfold Machine.progressed
  split
  · exact h.setSec
  · exact h

theorem Canon.sectionPoisoned {i : Nat} (h : Canon s) : Canon (sectionPoisoned s i) := by
  unfold Machine.sectionPoisoned
  split
  · exact h.setSec
  · exact h

theorem Canon.offNet {i : Nat} (h : Canon s) : Canon (s.offNet i) := h.frameFab
theorem Canon.putNet {i : Nat} {p : Packet} (h : Canon s) : Canon (s.putNet i p) := h.frameFab

theorem Canon.arriveKeep {i : Nat} {ok : Packet → Bool} {act : Packet → State → State × Option Packet} (h : Canon s)
    (hact : ∀ {u} p, Canon u → Canon (act p u).1) : Canon (arriveKeep i ok act s) := by
  unfold Machine.arriveKeep
  split
  · exact h
  next p _ =>
    dsimp only
    refine .ite h.offNet.packetFault (.ite h (.ite h.offNet.packetFault (.ite h.offNet ?_)))
    have ht := hact p (h.offNet (i := i))
    split
    next he => rwa [he] at ht
    next he => rw [he] at ht; exact ht.putNet

theorem Canon.arrive {i : Nat} {ok : Packet → Bool} {act : Packet → State → State}
    (h : Canon s) (hact : ∀ {u} b0, Canon u → Canon (act b0 u)) :
    Canon (arrive i ok act s) :=
  h.arriveKeep fun _ h => hact _ h

/-! ### Messages -/

theorem Canon.beginMsg {fn : Nat} {m : Msg} (h : Canon s) : Canon (beginMsg fn m s) := .ite h h.finishCmd
theorem Canon.fly {x : Flight} (h : Canon s) : Canon (fly s x) := h.frame

@[simp] theorem ends_messageTake {fn : Nat} : Ends s (exec (.messageTake fn) s) :=
  .done fun h => by
    split
    · exact h
    · dsimp only
      split
      · exact .ite h.updFn.produce h.updFn.fly
      · exact .ite h.updFn.fly.beginMsg h.updFn.fly

theorem Canon.updFlight {fn : Nat} {seq : Word} {g : Flight → Flight} (h : Canon s) : Canon (updFlight s fn seq g) :=
  h.frame

@[simp] theorem ends_messageBegin {fn : Nat} {seq : Word} : Ends s (exec (.messageBegin fn seq) s) :=
  .done fun h => by
    split
    · exact h
    · refine .ite ?_ h
      split
      · exact h.finishCmd
      · exact h.updFlight.beginMsg

theorem Canon.onCmd {fn : Nat} {seq : Word} {op : Nat} {sub : Option Nat} {act : List Byte → State → State}
    (h : Canon s) (hact : ∀ {u} b0, Canon u → Canon (act b0 u)) :
    Canon (onCmd fn seq op sub act s) := by
  unfold Machine.onCmd
  split
  · exact h
  · refine .ite ?_ h
    split
    · exact h.finishCmd
    · exact hact _ h

theorem Canon.fail {fn : Nat} {seq : Word} {st : Status} (h : Canon s) : Canon (fail fn seq st s) := h.finishCmd
theorem Canon.reply {fn : Nat} {seq : Word} {results : List Byte} (h : Canon s) : Canon (reply fn seq results s) :=
  h.finishCmd

theorem Canon.fwRead {l off n at_ : Nat} {f : Finding} (h : Canon s) : Canon (fwRead l off n at_ f s) := by
  unfold Machine.fwRead
  split
  · exact h
  · exact .ite h.hbmFinding h

theorem Canon.waitFor {fn : Nat} {seq : Word} {w : CmdWait} (h : Canon s) : Canon (waitFor fn seq w s) := h.updFlight
@[simp] theorem ends_queryCaps {fn : Nat} {seq : Word} : Ends s (exec (.queryCaps fn seq) s) :=
  .done fun h => h.onCmd fun _ h => h.reply
@[simp] theorem ends_queryTilemap {fn : Nat} {seq : Word} : Ends s (exec (.queryTilemap fn seq) s) :=
  .done fun h => h.onCmd fun _ h => .ite h.fail (.ite h.fail h.writeHost.reply)
@[simp] theorem ends_queryHealth {fn : Nat} {seq : Word} : Ends s (exec (.queryHealth fn seq) s) :=
  .done fun h => h.onCmd fun _ h => h.reply

theorem Canon.policyCommit {fn : Nat} {seq : Word} {g : Group} {merge : Nat → Nat} (h : Canon s) :
    Canon (policyCommit fn seq g merge s) :=
  .ite h h.stage.writeCommit.waitFor

@[simp] theorem ends_powerPolicyFrequency {fn : Nat} {seq : Word} : Ends s (exec (.powerPolicyFrequency fn seq) s) :=
  .done fun h => h.onCmd fun _ h => .ite h.fail h.policyCommit
@[simp] theorem ends_powerPolicyModuleCap {fn : Nat} {seq : Word} : Ends s (exec (.powerPolicyModuleCap fn seq) s) :=
  .done fun h => h.onCmd fun _ h => .ite h.fail h.policyCommit
@[simp] theorem ends_powerPolicyLending {fn : Nat} {seq : Word} : Ends s (exec (.powerPolicyLending fn seq) s) :=
  .done fun h => h.onCmd fun _ h => .ite h.fail h.policyCommit
@[simp] theorem ends_powerPolicyScrubCap {fn : Nat} {seq : Word} : Ends s (exec (.powerPolicyScrubCap fn seq) s) :=
  .done fun h => h.onCmd fun _ h => .ite h.fail h.policyCommit
@[simp] theorem ends_stewardInfo {fn : Nat} {seq : Word} : Ends s (exec (.stewardInfo fn seq) s) :=
  .done fun h => h.onCmd fun _ h => h.reply
@[simp] theorem ends_vfPartition {fn : Nat} {seq : Word} : Ends s (exec (.vfPartition fn seq) s) :=
  .done fun h => h.onCmd fun _ h => .ite h.fail h.frame.reply

@[simp] theorem ends_fwStage {fn : Nat} {seq : Word} {readBackOk : Bool} {at_ : Nat} {f : Finding} :
    Ends s (exec (.fwStage fn seq readBackOk at_ f) s) :=
  .done fun h => h.onCmd fun _ h => by
    extract_lets l off len s' img s1
    have h' : Canon s' := .ite h.fwRead h
    have h1 : Canon s1 := h'.beginUpdate.endUpdate
    refine .ite h'.fail ?_
    split
    · exact h'.fail
    · exact h'.fail
    · exact h'.fail
    · exact .ite h'.fail (.ite h1.reply h1.fail)

@[simp] theorem ends_fwActivate {fn : Nat} {seq : Word} : Ends s (exec (.fwActivate fn seq) s) :=
  .done fun h => h.onCmd fun _ h => .ite h.fail (.ite h.fail (.ite h.selectSlot.reply.frame h.selectSlot.reply))
@[simp] theorem ends_quenchEnter {fn : Nat} {seq : Word} : Ends s (exec (.quenchEnter fn seq) s) :=
  .done fun h => h.onCmd fun _ h => h.raiseTrigger.reply
@[simp] theorem ends_quenchExit {fn : Nat} {seq : Word} : Ends s (exec (.quenchExit fn seq) s) :=
  .done fun h => h.onCmd fun _ h => .ite h.fail (Canon.ite h.leaveQuench h).reply
@[simp] theorem ends_logRead {fn : Nat} {seq : Word} : Ends s (exec (.logRead fn seq) s) :=
  .done fun h => h.onCmd fun _ h => .ite h.fail h.writeHost.reply
@[simp] theorem ends_remapStatus {fn : Nat} {seq : Word} : Ends s (exec (.remapStatus fn seq) s) :=
  .done fun h => h.onCmd fun _ h => h.reply
@[simp] theorem ends_windowMapInbound {fn : Nat} {seq : Word} : Ends s (exec (.windowMapInbound fn seq) s) :=
  .done fun h => h.onCmd fun _ h => .ite h.fail (.ite h.fail h.updFn.reply)
@[simp] theorem ends_windowMapEntry {fn : Nat} {seq : Word} : Ends s (exec (.windowMapEntry fn seq) s) :=
  .done fun h => h.onCmd fun _ h => .ite h.fail (.ite h.fail h.updLease.reply)
theorem Canon.forgetWindow {fn i : Nat} (h : Canon s) : Canon (forgetWindow fn i s) := h.frame

@[simp] theorem ends_windowUnmapInbound {fn : Nat} {seq : Word} : Ends s (exec (.windowUnmapInbound fn seq) s) :=
  .done fun h => h.onCmd fun _ h => by
    dsimp only
    split
    · exact .ite h.updFn.forgetWindow.reply h.fail
    · exact h.fail

/-! ### Ingots -/

theorem Canon.ingotRead {l off at_ : Nat} {f : Finding} (h : Canon s) : Canon (ingotRead l off at_ f s) := h.fwRead

@[simp] theorem ends_ingotStage {fn : Nat} {seq : Word} {at_ : Nat} {f : Finding} :
    Ends s (exec (.ingotStage fn seq at_ f) s) :=
  .done fun h => h.onCmd fun _ h => by
    refine .ite h.finishCmd (.ite h.finishCmd ?_)
    dsimp only
    split
    · exact h.ingotRead.updLease.finishCmd
    · exact h.ingotRead.finishCmd

@[simp] theorem ends_ingotVerify {fn : Nat} {seq : Word} {at_ : Nat} {f : Finding} :
    Ends s (exec (.ingotVerify fn seq at_ f) s) :=
  .done fun h => h.onCmd fun _ h => h.ingotRead.finishCmd

theorem Canon.evictSlot {l k : Nat} (h : Canon s) : Canon (evictSlot l k s) := h.updLease.frame
@[simp] theorem ends_ingotEvict {fn : Nat} {seq : Word} : Ends s (exec (.ingotEvict fn seq) s) :=
  .done fun h => h.onCmd fun _ h => .ite h.fail (.ite h.fail h.evictSlot.reply)

/-! ### Compute tiles -/

theorem Canon.updTile {t : Nat} {f : Tile → Tile} (h : Canon s) : Canon (s.updTile t f) := h.setTile

/-! ### The slots of a bundle -/

/-- Every effect of the list keeps the invariant. -/
def Keeps (fs : List Eff) : Prop := ∀ f ∈ fs, ∀ {u}, Canon u → Canon (f u)

theorem Keeps.nil : Keeps [] := fun _ hf => absurd hf List.not_mem_nil
theorem Keeps.cons {f : Eff} {fs : List Eff} (hf : ∀ {u}, Canon u → Canon (f u)) (hs : Keeps fs) : Keeps (f :: fs) :=
  List.forall_mem_cons.2 ⟨hf, hs⟩
theorem Keeps.one {f : Eff} (hf : ∀ {u}, Canon u → Canon (f u)) : Keeps [f] := .cons hf .nil
theorem Keeps.append {fs gs : List Eff} (hf : Keeps fs) (hg : Keeps gs) : Keeps (fs ++ gs) :=
  List.forall_mem_append.2 ⟨hf, hg⟩
theorem Keeps.ite {c : Prop} [Decidable c] {fs gs : List Eff} (hf : Keeps fs) (hg : Keeps gs) :
    Keeps (if c then fs else gs) := by
  split
  · exact hf
  · exact hg

/-- Effects applied one after another. -/
theorem Canon.effects {fs : List Eff} (h : Canon s) (hs : Keeps fs) : Canon (fs.foldl (fun s f => f s) s) := by
  induction fs generalizing s with
  | nil => exact h
  | cons f fs ih =>
    obtain ⟨hf, hfs⟩ := List.forall_mem_cons.1 hs
    exact ih (hf h) hfs

variable {e : TileEnv}

theorem Canon.putS {r : Nat} {v : PVal} (h : Canon s) : Canon (putS e r v s) := h.updTile
theorem Canon.putA {r : Nat} {v : PVal} (h : Canon s) : Canon (putA e r v s) := h.updTile
theorem Canon.putP {r : Nat} {v : PBit} (h : Canon s) : Canon (putP e r v s) := h.updTile
theorem Canon.putV {r : Nat} {v : VReg} (h : Canon s) : Canon (putV e r v s) := h.updTile
theorem Canon.putQ {r q : Nat} {d : Entry} {poison : Bool} {fl : ByteFl 64} (h : Canon s) :
    Canon (putQ e r q d poison fl s) :=
  h.updTile
theorem Canon.pushOut {n : Nat} {q : QEntry} (h : Canon s) : Canon (pushOut e n q s) := h.updTile

theorem keeps_padReport {a n : Nat} : Keeps (padReport e a n) := .ite .nil (.one fun h => h.tileFault)
theorem keeps_padStore {a : Nat} {bs : List Byte} {poison : Nat → Bool} {fl : List (BitVec 5)} :
    Keeps (padStore e a bs poison fl) :=
  .cons (fun h => (h.sramWrite.foldl fun _ h => .ite h.sramMark h).sramFlWrite) keeps_padReport

theorem keeps_memEff {m : Nat} : Keeps (memEff e m) := by
  unfold memEff
  refine .ite .nil ?_
  dsimp only
  split
  · exact .cons .putS keeps_padReport
  · exact keeps_padStore
  · exact .cons .putV keeps_padReport
  · exact keeps_padStore
  · exact .cons .putQ keeps_padReport
  · exact keeps_padStore
  · exact .cons .putA keeps_padReport
  · exact keeps_padStore
  · exact .one .putS
  · exact .one .putP
  · exact .one .putP
  · exact .one .putA
  · exact .one .putA
  · exact .one .putS
  · exact .one .putS

theorem keeps_popInlets {b : Nat} : Keeps (popInlets e b) := by
  intro f hf u h
  obtain ⟨n, -, hn⟩ := List.mem_filterMap.1 hf
  split at hn
  · cases hn
    exact h.updTile
  · cases hn

theorem keeps_moveEff {m : Nat} : Keeps (moveEff e m) := by
  unfold moveEff
  dsimp only
  split
  · exact .one .putQ
  · exact keeps_padStore.append (.one .putA)
  · exact .one .pushOut
  · exact .cons .pushOut (.cons .putA keeps_padReport)
  · exact .one .pushOut
  · exact .nil

theorem keeps_tmacEff {t : Nat} : Keeps (tmacEff e t) :=
  .cons .updTile (.append (.ite (.cons .putA keeps_padReport) .nil) (.ite (.cons .putA keeps_padReport) .nil))
theorem keeps_tzeroEff {t : Nat} : Keeps (tzeroEff e t) := .one .updTile

theorem keeps_toutEff {t : Nat} : Keeps (toutEff e t) := by
  unfold toutEff
  dsimp only
  refine .ite (.append (keeps_padStore.append (.ite .nil (keeps_padStore.append (.one .updTile)))) (.one fun h => ?_))
    (.cons .updTile (.one fun h => ?_))
  · exact .ite h.updTile.sectionPoisoned h.updTile
  · exact .ite h.updTile.sectionPoisoned h.updTile

theorem keeps_tpartEff {t : Nat} : Keeps (tpartEff e t) := .ite (.one .updTile) (.one .updTile)

theorem keeps_tenEff {t : Nat} : Keeps (tenEff e t) := by
  unfold tenEff
  refine .ite .nil ?_
  dsimp only
  split
  · exact keeps_tmacEff
  · exact keeps_tzeroEff
  · exact keeps_toutEff
  · exact keeps_tpartEff
  · exact .one .updTile
  · exact keeps_padStore
  · exact .cons .updTile keeps_padReport
  · exact .nil

theorem Canon.icpRestart {t : Nat} (h : Canon s) : Canon (icpRestart t s) :=
  (h.frameFab.foldl fun _ h => h.setFrame).updTile

theorem keeps_ctlEff {b : Nat} : Keeps (ctlEff e b) := by
  unfold ctlEff
  dsimp only
  refine .ite (.one .updTile) ?_
  split
  · exact .one .updTile
  · exact .ite (.one .updTile) (.one .updTile)
  · exact .one .updTile
  · refine .cons .updTile (.cons .putS (.append ?_ keeps_padReport))
    split
    · exact .ite (.one .sendAll) .nil
    · exact .nil
  · refine .append ?_ (.one .updTile)
    split
    · exact .one .icpRestart
    · exact .nil
  · exact .one .updTile

theorem keeps_vecEff {b : Nat} : Keeps (vecEff e b) :=
  .append (.ite (.one .putV) .nil) (.ite (.ite (.one .putS) (.one .putV)) .nil)

theorem keeps_bundleEff {b : Nat} : Keeps (bundleEff e b) :=
  ((((((keeps_popInlets.append keeps_memEff).append keeps_memEff).append keeps_vecEff).append keeps_tenEff).append
    keeps_moveEff).append keeps_moveEff).append keeps_ctlEff

theorem Canon.issue {t b : Nat} (h : Canon s) : Canon (issue s t b) :=
  have h1 := h.effects (keeps_bundleEff (e := bundleEnv s t b) (b := b))
  (Canon.ite h1.updTile.sectionPoisoned h1).progressed.updTile

theorem Canon.bundleFinding {t a : Nat} {f : Finding} (h : Canon s) : Canon (bundleFinding t a f s) :=
  .ite h.sramFinding h
theorem Canon.endsec {t : Nat} (h : Canon s) : Canon (endsec t s) := .ite h.updTile.sendAll h
@[simp] theorem ends_endsecComplete {tile : Nat} : Ends s (exec (.endsecComplete tile) s) := .done fun h => h.endsec

theorem Canon.rowStep {t : Nat} (h : Canon s) : Canon (rowStep t s) := by
  unfold Machine.rowStep
  dsimp only
  split
  · exact h
  · exact .ite h (.ite h.setTile h.setTile)

@[simp] theorem ends_tensorRowComplete {tile : Nat} : Ends s (exec (.tensorRowComplete tile) s) :=
  .done fun h => h.rowStep

theorem Canon.inletTake {p : Packet} (h : Canon s) : Canon (inletTake p s) := by
  unfold Machine.inletTake
  refine .ite h.packetFault (.progressed ?_)
  split
  · exact h.setTile
  · exact h.setTile
  · exact h

theorem Canon.grantTake {p : Packet} (h : Canon s) : Canon (grantTake p s) := by
  unfold Machine.grantTake
  dsimp only
  split
  · exact .ite h.packetFault h.updTile.progressed
  · exact h

@[simp] theorem ends_inletEntryArrival {pkt : Nat} : Ends s (exec (.inletEntryArrival pkt) s) :=
  .done fun h => h.arrive fun _ h => .ite h.grantTake h.inletTake

/-! ### Configuration engines -/

theorem Canon.recordError {d cause region addr : Nat} (h : Canon s) : Canon (recordError d cause region addr s) :=
  h.setEng
theorem Canon.faultRegion {r : Nat} (h : Canon s) : Canon (faultRegion s r) := h.updRegion

theorem Canon.streamError {sec e cause region : Nat} {x : CfgCtx} (h : Canon s) :
    Canon (streamError sec e cause region x s) := by
  unfold Machine.streamError
  extract_lets s1
  have h1 : Canon s1 := by
    unfold s1
    split
    · exact .ite h.faultRegion h
    · exact h
  exact .ite h1.recordError.frame h1.recordError.eventLease

theorem Canon.goOn {x : CfgCtx} (h : Canon s) : Canon (goOn s x).s := h

theorem Canon.ite_s {c : Prop} [Decidable c] {a b : CfgRes} (ha : Canon a.s) (hb : Canon b.s) :
    Canon (if c then a else b).s := by
  split
  · exact ha
  · exact hb

theorem Canon.inError {x : CfgCtx} {cause : Nat} {named : Option Nat} (h : Canon s) :
    Canon (inError s x cause named).s := by
  unfold Machine.inError
  split
  · exact h
  · exact h
  · exact h.drew

theorem Canon.cfgSync {e w : Nat} {x : CfgCtx} (h : Canon s) : Canon (cfgSync e w x s).s :=
  .ite_s (.ite_s h.inError h.goOn) (.ite_s h.frame.goOn h.goOn)
theorem Canon.openRolling {r : Nat} (h : Canon s) : Canon (openRolling r s) := h.frameErase.updRegion
theorem Canon.openWhole {r lease : Nat} (h : Canon s) : Canon (openWhole r lease s) :=
  h.abandonLatches.frameErase.updRegion

theorem Canon.cfgOpen {e lease w : Nat} {x : CfgCtx} (h : Canon s) : Canon (cfgOpen e lease w x s).s :=
  .ite_s h.inError <| .ite_s (.ite_s h.frame.goOn h.inError) <| .ite_s h.inError <| .ite_s h.inError <|
    .ite_s h.drew.inError (.ite_s h.openRolling.goOn h.openWhole.goOn)

theorem Canon.cfgAddr {w : Nat} {x : CfgCtx} (h : Canon s) : Canon (cfgAddr w x s).s := by
  unfold Machine.cfgAddr
  dsimp only
  split
  · exact h.inError
  · refine .ite_s (.ite_s h.inError h.goOn) ?_
    split
    · exact h.inError
    · exact .ite_s h.inError (.ite_s h.inError (.ite_s h.goOn h.goOn))

theorem Canon.putFrames {r c i n : Nat} {ws : List Nat} (h : Canon s) : Canon (putFrames r c i n ws s) :=
  h.foldl fun _ h => .ite h.frame h.setFrame
theorem Canon.unsealColumn {r c : Nat} (h : Canon s) : Canon (unsealColumn r c s) := .ite h h.updRegion

theorem Canon.cfgData {w : Nat} {ws : List Nat} {x : CfgCtx} (h : Canon s) : Canon (cfgData w ws x s).s := by
  unfold Machine.cfgData
  dsimp only
  split
  · exact h.inError
  · split
    · exact h.inError
    · exact .ite_s h.inError h.putFrames.unsealColumn.goOn

theorem Canon.cfgCreg {w v : Nat} {x : CfgCtx} (h : Canon s) : Canon (cfgCreg w v x s).s := by
  unfold Machine.cfgCreg
  split
  · exact h.inError
  · exact .ite_s h.inError h.updRegion.goOn

theorem Canon.cfgCheck {v : Nat} {eccOk : Bool} {x : CfgCtx} (h : Canon s) : Canon (cfgCheck v eccOk x s).s := by
  unfold Machine.cfgCheck
  split
  · exact h.inError
  · refine .ite_s h.inError (.ite_s h.inError ?_)
    dsimp only
    split
    · exact .ite_s h.updRegion.goOn h.goOn
    · exact h.goOn

theorem Canon.sealRegion {r : Nat} (h : Canon s) : Canon (sealRegion r s) := h.updRegion

theorem Canon.cfgSeal {w : Nat} {x : CfgCtx} (h : Canon s) : Canon (cfgSeal w x s).s := by
  unfold Machine.cfgSeal
  split
  · exact h.inError
  · exact .ite_s h.inError (.ite_s h.frame.goOn (.ite_s h.goOn h.sealRegion.goOn))

theorem Canon.cfgExec {e lease w : Nat} {ws : List Nat} {eccOk : Bool} {x : CfgCtx} (h : Canon s) :
    Canon (cfgExec e lease w ws eccOk x s).s := by
  unfold Machine.cfgExec
  refine .ite_s h.cfgSync (.ite_s h.goOn (.ite_s h.inError ?_))
  split
  · exact h.cfgAddr
  · exact h.cfgData
  · exact h.cfgCreg
  · exact h.cfgCheck
  · exact h.cfgOpen
  · exact h.cfgSeal
  · exact .ite_s h.inError h.goOn
  · exact h.goOn

theorem Canon.pushGroups {i e : Nat} {from_ : Option Nat} (h : Canon s) : Canon (pushGroups i e from_ s) := by
  unfold Machine.pushGroups
  split
  · exact h
  · exact .ite h h.setEng

theorem Canon.loadFailure {i e cause region : Nat} (h : Canon s) : Canon (loadFailure i e cause region s) := by
  unfold Machine.loadFailure
  split
  · exact h
  · exact .ite h.setSec.pushGroups h.cancelCore.stopProg.settleProg

theorem Canon.noteOpened {i : Nat} {x y : CfgCtx} (h : Canon s) : Canon (noteOpened i x y s) := by
  unfold Machine.noteOpened
  split
  · exact h.setSec
  · exact h

theorem Canon.setPush {e k : Nat} {p : Option CfgPush} (h : Canon s) : Canon (setPush e k p s) := h.setEng

theorem Canon.runPush {e k : Nat} {p : CfgPush} {w : Nat} {ws : List Nat} {eccOk : Bool} (h : Canon s) :
    Canon (runPush e k p w ws eccOk s) := by
  unfold Machine.runPush
  dsimp only
  split
  · exact h.cfgExec.streamError.setPush.loadFailure
  · exact h.cfgExec.noteOpened.setPush

theorem Canon.runOwn {e lease w : Nat} {ws : List Nat} {eccOk : Bool} (h : Canon s) :
    Canon (runOwn e lease w ws eccOk s) := by
  unfold Machine.runOwn
  refine .ite h ?_
  dsimp only
  split
  · exact h.cfgExec.streamError.setEng
  · exact h.cfgExec.setEng

theorem Canon.engineRow {e lease w : Nat} {ws : List Nat} {eccOk : Bool} (h : Canon s) :
    Canon (engineRow e lease w ws eccOk s) := by
  unfold Machine.engineRow
  refine .ite h (.ite h.runOwn ?_)
  split
  · exact h
  · split
    · exact h
    · exact .ite h.setEng.runPush h

@[simp] theorem ends_nop {engine : Nat} : Ends s (exec (.nop engine) s) := .done fun h => h.engineRow
@[simp] theorem ends_sync {engine : Nat} {cmd : Word} : Ends s (exec (.sync engine cmd) s) :=
  .done fun h => .ite h.engineRow h
@[simp] theorem ends_frameAddr {engine : Nat} {cmd : Word} : Ends s (exec (.frameAddr engine cmd) s) :=
  .done fun h => .ite h.engineRow h

@[simp] theorem ends_frameData {engine : Nat} {cmd : Word} {payload : List Word} :
    Ends s (exec (.frameData engine cmd payload) s) :=
  .done fun h => .ite h.engineRow h

@[simp] theorem ends_writeCreg {engine : Nat} {cmd val : Word} : Ends s (exec (.writeCreg engine cmd val) s) :=
  .done fun h => .ite h.engineRow h

@[simp] theorem ends_crcCheck {engine : Nat} {cmd val : Word} {eccOk : Bool} :
    Ends s (exec (.crcCheck engine cmd val eccOk) s) :=
  .done fun h => .ite h.engineRow h

@[simp] theorem ends_regionOpen {engine lease : Nat} {cmd : Word} : Ends s (exec (.regionOpen engine lease cmd) s) :=
  .done fun h => .ite h.engineRow h
@[simp] theorem ends_regionSeal {engine : Nat} {cmd : Word} : Ends s (exec (.regionSeal engine cmd) s) :=
  .done fun h => .ite h.engineRow h
@[simp] theorem ends_desync {engine : Nat} {cmd : Word} : Ends s (exec (.desync engine cmd) s) :=
  .done fun h => .ite h.engineRow h
theorem Canon.drainTile {lease c t : Nat} (h : Canon s) : Canon (drainTile lease c s t) :=
  .ite h.setMTile h.endTile.abandonHeld.setTile

theorem Canon.drainColumn {r c : Nat} (h : Canon s) : Canon (drainColumn r c s) := by
  unfold Machine.drainColumn
  extract_lets ts lease s1 s2 all e g sealing s3
  have h3 : Canon s3 := (h.foldl fun _ h => h.drainTile).frameErase.updRegion.setEng
  exact .ite h3.sealRegion h3

@[simp] theorem ends_columnDrain {region col : Nat} : Ends s (exec (.columnDrain region col) s) :=
  .done fun h => .ite h.drainColumn h
theorem Canon.icpFrame {t f : Nat} {v : Frame} (h : Canon s) : Canon (icpFrame t f v s) := .ite h.setFrame h.frameFab

@[simp] theorem ends_framePacketArrival {pkt : Nat} : Ends s (exec (.framePacketArrival pkt) s) :=
  .done fun h => h.arrive fun _ h => by
    split
    · exact .ite h.icpFrame.progressed h.packetFault
    · exact h.packetFault

theorem Canon.sspFeed {w : Nat} (h : Canon s) : Canon (sspFeed w s) := by
  unfold Machine.sspFeed
  dsimp only
  split
  · exact .ite h.setEng h.runOwn
  · exact .ite h.setEng h.setEng.runOwn

@[simp] theorem ends_sspWord {w : Word} : Ends s (exec (.sspWord w) s) := .done fun h => .ite h.emit.sspFeed h
@[simp] theorem ends_sspPartialWord : Ends s (exec .sspPartialWord s) := .done fun h => .ite h.streamError.setEng h

/-! ### Leases and regions -/

theorem Canon.showLease {f l : Nat} (h : Canon s) : Canon (showLease f l s) := h.updFn
theorem Canon.grantHbm {l k n : Nat} (h : Canon s) : Canon (grantHbm l k n s) := h.hbmZero.frame

@[simp] theorem ends_leaseOpen {fn : Nat} {seq : Word} : Ends s (exec (.leaseOpen fn seq) s) :=
  .done fun h => h.onCmd fun _ h => by
    refine .ite h.fail (.ite h.fail (.ite h.fail ?_))
    split
    · exact h.fail
    · exact h.drewRandom.drewRandom.grantHbm.setLease.showLease.reply

theorem Canon.releaseRegion {l r : Nat} (h : Canon s) : Canon (releaseRegion l s r) :=
  (Canon.ite h.zeroiseRegion.updRegion h).updLease

theorem Canon.shrunk {l spans new : Nat} (h : Canon s) : Canon (shrunk l spans new s) := by
  unfold Machine.shrunk
  extract_lets x lost s1 s2
  have h1 : Canon s1 := h.foldl fun _ h => h.releaseRegion
  have h2 : Canon s2 := .ite h1.loseWrites.hbmZero.updLease h1
  exact h2.updLease

@[simp] theorem ends_leaseResize {fn : Nat} {seq : Word} : Ends s (exec (.leaseResize fn seq) s) :=
  .done fun h => h.onCmd fun _ h => by
    refine .ite h.fail (.ite h.fail ?_)
    extract_lets s3
    have h3 : Canon s3 := h.shrunk
    split
    · exact h.fail
    · split
      · exact h.fail
      · exact .ite h.fail h3.grantHbm.updLease.reply

theorem Canon.stopByHand {hd : Nat} {p : Prog} (h : Canon s) : Canon (stopByHand hd p s) := .ite h h.stopProg
theorem Canon.stopAll {l : Nat} (h : Canon s) : Canon (stopAll l s) := h.foldl fun _ h => h.stopByHand.settleProg
@[simp] theorem ends_leaseClose {fn : Nat} {seq : Word} : Ends s (exec (.leaseClose fn seq) s) :=
  .done fun h => h.onCmd fun _ h => h.waitFor.stopAll.closeGoesOn
@[simp] theorem ends_leaseFreed {lease : Nat} : Ends s (exec (.leaseFreed lease) s) :=
  .done fun h => .ite (h.freeLease.foldl fun _ h => h.finishCmd) h

@[simp] theorem ends_leaseReclaim {fn : Nat} {seq : Word} : Ends s (exec (.leaseReclaim fn seq) s) :=
  .done fun h => h.onCmd fun _ h => .ite h <| .ite h.fail <|
    .ite (.ite h.fail h.drewRandom.setLease.leaseStateEvent.showLease.reply) (Canon.ite h.drew h).leaseStateEvent.fail

theorem Canon.policySet {fn : Nat} {seq : Word} {b : List Byte} {g : Lease → Lease} (h : Canon s) :
    Canon (policySet fn seq b g s) :=
  h.updLease.reply

@[simp] theorem ends_leasePolicyLimits {fn : Nat} {seq : Word} : Ends s (exec (.leasePolicyLimits fn seq) s) :=
  .done fun h => h.onCmd fun _ h => .ite h.fail h.policySet

@[simp] theorem ends_leasePolicyDemandSigned {fn : Nat} {seq : Word} :
    Ends s (exec (.leasePolicyDemandSigned fn seq) s) :=
  .done fun h => h.onCmd fun _ h => .ite h.fail (.ite h.fail h.policySet)

@[simp] theorem ends_leasePolicyKeyInstall {fn : Nat} {seq : Word} {at_ : Nat} {f : Finding} :
    Ends s (exec (.leasePolicyKeyInstall fn seq at_ f) s) :=
  .done fun h => h.onCmd fun _ h => by
    extract_lets l k off s1
    have h1 : Canon s1 := .ite h h.fwRead
    exact .ite h1.fail (.ite h1.fail h1.policySet)

@[simp] theorem ends_leasePolicyKeyClear {fn : Nat} {seq : Word} : Ends s (exec (.leasePolicyKeyClear fn seq) s) :=
  .done fun h => h.onCmd fun _ h => .ite h.fail (.ite h.fail h.policySet)

@[simp] theorem ends_leasePolicyDoorbellBind {fn : Nat} {seq : Word} :
    Ends s (exec (.leasePolicyDoorbellBind fn seq) s) :=
  .done fun h => h.onCmd fun _ h => .ite h.fail h.updFn.reply

@[simp] theorem ends_leasePolicyDiePreference {fn : Nat} {seq : Word} :
    Ends s (exec (.leasePolicyDiePreference fn seq) s) :=
  .done fun h => h.onCmd fun _ h => .ite h.fail h.policySet

@[simp] theorem ends_leasePolicyDebugPermission {fn : Nat} {seq : Word} :
    Ends s (exec (.leasePolicyDebugPermission fn seq) s) :=
  .done fun h => h.onCmd fun _ h => .ite h.fail (.ite h.fail (.ite h.fail h.policySet))

theorem Canon.expire {l : Nat} (h : Canon s) : Canon (expire l s) := .ite h.startClosing h

@[simp] theorem ends_leasePolicyMaxDormancy {fn : Nat} {seq : Word} :
    Ends s (exec (.leasePolicyMaxDormancy fn seq) s) :=
  .done fun h => h.onCmd fun _ h => .ite h.fail h.policySet.expire

@[simp] theorem ends_zeroFill {fn : Nat} {seq : Word} : Ends s (exec (.zeroFill fn seq) s) :=
  .done fun h => h.onCmd fun _ h => .ite h.fail (.ite h.fail h.hbmZero.reply)
theorem Canon.vacateAll {l at_ : Nat} {f : Finding} (h : Canon s) : Canon (vacateAll l at_ f s) :=
  h.foldl fun _ h => .ite h.saveFinding.saveRegion.zeroiseRegion.updRegion h

@[simp] theorem ends_leaseDrained {lease at_ : Nat} {f : Finding} : Ends s (exec (.leaseDrained lease at_ f) s) :=
  .done fun h => by
    extract_lets s1 s2 s3 x s4
    have h2 : Canon s2 := (h.foldl fun _ h => h.releaseProg).vacateAll.unbindChans
    exact .ite h2.unmapLease.abandonHLatches.setLease.leaseStateEvent h

@[simp] theorem ends_drainingLimit {lease : Nat} : Ends s (exec (.drainingLimit lease) s) :=
  .done fun h => .ite (h.foldl fun _ h => h.abortRegion) h
@[simp] theorem ends_dormancyExpiry {lease : Nat} : Ends s (exec (.dormancyExpiry lease) s) := .done fun h => h.expire

@[simp] theorem ends_regionReserve {region : Nat} : Ends s (exec (.regionReserve region) s) :=
  .done fun h => by
    split
    · exact h
    · exact .ite h.updRegion h

theorem Canon.handOver {r l : Nat} (h : Canon s) : Canon (handOver r l s) := by
  unfold Machine.handOver
  refine .updRegion (.restoreRegion (.zeroiseRegion ?_))
  split
  · exact h
  · exact .ite h h.saveRegion

theorem Canon.leaveQueue {hd : Nat} (h : Canon s) : Canon (leaveQueue hd s) := by
  unfold Machine.leaveQueue
  split
  · exact h
  · exact .ite (h.foldl fun _ h => h.updRegion).frame h

theorem Canon.joinQueue {r : Nat} (h : Canon s) : Canon (joinQueue r s) := h.frame
theorem Canon.leaveOthers (h : Canon s) : Canon (leaveOthers s) := h.frame

@[simp] theorem ends_regionHandover {region at_ : Nat} {f : Finding} :
    Ends s (exec (.regionHandover region at_ f) s) :=
  .done fun h => by
    split
    · exact h
    · refine .ite ?_ h
      have h1 := h.foldl (l := s.regionUsers region) (f := fun s e => requeueSection s e.1) fun _ h => h.requeueSection
      dsimp only
      split
      · exact h1
      · exact h1.saveFinding.handOver.leaveQueue.joinQueue.leaveOthers

/-! ### Tallies and latches -/

theorem Canon.fireWatch {t w n : Nat} (h : Canon s) : Canon (fireWatch t w n s) := by
  induction n generalizing s with
  | zero => exact h
  | succ n ih =>
    unfold Machine.fireWatch
    exact .ite (ih h.setMTile.sendAll) h

theorem Canon.fireWatches {t j : Nat} (h : Canon s) : Canon (fireWatches t j s) :=
  .ite (h.foldl fun _ h => .ite h.fireWatch h) h
theorem Canon.setTally {t j : Nat} {v : Half} (h : Canon s) : Canon (setTally t j v s) :=
  h.setMTile.fireWatches.markReady
theorem Canon.addTally {t j amount : Nat} (h : Canon s) : Canon (addTally t j amount s) := h.setTally
theorem Canon.addTails {t j n : Nat} (h : Canon s) : Canon (addTails t j n s) :=
  .ite h.setMTile (.ite h.setMTile h.setMTile.addTally)
theorem Canon.applySignal {idx amount : Nat} {p : Packet} (h : Canon s) : Canon (applySignal idx amount p s) :=
  .ite (.ite h.addTally h.packetFault) (.ite (.ite h.addHTally h.packetFault) h.packetFault)

theorem Canon.stallyTake {p : Packet} (h : Canon s) : Canon (stallyTake p s) := by
  unfold Machine.stallyTake
  split
  · exact .ite h.packetFault h.applySignal.progressed
  · exact h.packetFault

@[simp] theorem ends_stallyArrival {pkt : Nat} : Ends s (exec (.stallyArrival pkt) s) :=
  .done fun h => h.arrive fun _ h => h.stallyTake

theorem Canon.tallySigTake {p : Packet} (h : Canon s) : Canon (tallySigTake p s) := by
  unfold Machine.tallySigTake
  split
  · exact .ite h.packetFault h.applySignal.progressed
  · exact h.packetFault

@[simp] theorem ends_tallySigArrival {pkt : Nat} : Ends s (exec (.tallySigArrival pkt) s) :=
  .done fun h => h.arrive fun _ h => h.tallySigTake

theorem Canon.latchAcqTake {p : Packet} (h : Canon s) : Canon (latchAcqTake p s) := by
  unfold Machine.latchAcqTake
  split
  · exact .ite h.packetFault h.setMTile.grantLatch.progressed
  · exact h.packetFault

@[simp] theorem ends_latchAcq {pkt : Nat} : Ends s (exec (.latchAcq pkt) s) :=
  .done fun h => h.arrive fun _ h => h.latchAcqTake

theorem Canon.latchRelTake {p : Packet} (h : Canon s) : Canon (latchRelTake p s) := by
  unfold Machine.latchRelTake
  split
  · exact .ite h.packetFault h.setMTile.grantLatch.progressed
  · exact h.packetFault

@[simp] theorem ends_latchRel {pkt : Nat} : Ends s (exec (.latchRel pkt) s) :=
  .done fun h => h.arrive fun _ h => h.latchRelTake

end Sys2Proof.Machine
end

