-- ==== Sys2Proof/Proofs/CanonicalMemory.lean ====
section
/-! Every step keeps the memories canonical and ends in a next state (O5, O60):
the rules for memory tiles, the module controller and streams. -/
namespace Sys2Proof.Machine

variable {s : State}

/-! ### Memory tiles -/

theorem Canon.setBillet {t i : Nat} {b : Billet} (h : Canon s) : Canon (setBillet t i b s) := h.setMTile

theorem Canon.writerConflict {sec t i case_ src : Nat} (h : Canon s) :
    Canon (writerConflict sec t i case_ src s) := by
  unfold Machine.writerConflict
  split
  · exact h
  · exact h.eventLease.verdictOn

theorem Canon.updStream {i : Nat} {f : Stream → Stream} (h : Canon s) : Canon (s.updStream i f) := by
  unfold State.updStream
  split
  · exact h.setStream
  · exact h

theorem Canon.streamFault {x : Stream} {vals : List Nat} (h : Canon s) : Canon (streamFault x vals s) := by
  unfold Machine.streamFault
  dsimp only
  split
  · exact .ite h.setSec h.tileFault
  · exact h.tileFault

theorem Canon.reportIndex {sid n : Nat} (h : Canon s) : Canon (reportIndex sid n s) := by
  unfold Machine.reportIndex
  split
  · exact h
  · exact .ite h h.setStream.streamFault

theorem Canon.ownSignal {x : Stream} (h : Canon s) : Canon (ownSignal x s) :=
  .ite h.sendAll (.ite h.tileFault (.ite h.addTally h.addTails))

theorem Canon.signalOwn {sid : Nat} (h : Canon s) : Canon (signalOwn sid s) := by
  unfold Machine.signalOwn
  split
  · exact h
  · exact .ite h.ownSignal h.setStream

theorem Canon.dropLatch {sid : Nat} (h : Canon s) : Canon (dropLatch sid s) := by
  unfold Machine.dropLatch
  split
  · exact h
  · exact .ite h.setStream.sendAll h

theorem Canon.closeLeft {sec t i : Nat} (h : Canon s) : Canon (closeLeft sec t i s) := by
  unfold Machine.closeLeft
  split
  · exact .ite h.setBillet h
  · exact h

theorem Canon.closeEnd {sid : Nat} (h : Canon s) : Canon (closeEnd sid s) := by
  unfold Machine.closeEnd
  split
  · exact h
  · exact h.foldl fun _ h => by
      split
      · exact .ite h.setBillet (.ite h.closeLeft h)
      · exact h

theorem Canon.wroteAccess {sid n : Nat} (h : Canon s) : Canon (wroteAccess sid n s) := by
  unfold Machine.wroteAccess
  split
  · exact h
  extract_lets d last s1 s2 s3 s4
  have h2 : Canon s2 := .ite h.setStream.closeLeft h.setStream
  have h3 : Canon s3 := .ite h2.closeEnd h2
  have h4 : Canon s4 := by
    unfold s4
    split
    · exact .ite h3.signalOwn h3
    · exact h3
  exact .progressed (.ite h4.dropLatch h4)

theorem Canon.writeKeeping {t a : Nat} {bs : List Byte} {poison : Bool} (h : Canon s) :
    Canon (writeKeeping t a bs poison s) :=
  h.sramWrite.foldl fun _ h => h.sramMark

theorem Canon.atomicAt {t a op : Nat} {fp : Nat → Bool} {bs : List Byte} {poison : Bool} (h : Canon s) :
    Canon (atomicAt t a op fp bs poison s) :=
  h.writeKeeping

theorem Canon.saddAt {t a : Nat} {v : Sterling} (h : Canon s) : Canon (saddAt t a v s) := h.writeKeeping

theorem Canon.portWrite {sid : Nat} {x : Stream} {a : Nat} {b : Billet} {e : QEntry} (h : Canon s) :
    Canon (portWrite sid x a b e s) := by
  unfold Machine.portWrite
  refine .updStream (.setBillet ?_)
  split
  · exact h.sramWrite.sramFlWrite
  · exact h.atomicAt.sramFlWrite
  · exact h

theorem Canon.passAccess {sid : Nat} {x : Stream} (h : Canon s) : Canon (passAccess sid x s) :=
  .ite h.wroteAccess.updStream.markReady h.wroteAccess.updStream

theorem Canon.portAccesses {sid src n : Nat} {e : QEntry} (h : Canon s) : Canon (portAccesses sid src e n s).1 := by
  induction n generalizing s with
  | zero => exact h
  | succ n ih =>
    unfold Machine.portAccesses
    split
    · exact h
    · split
      · exact h
      · split
        · exact h
        · exact h.writerConflict
        · exact ih h.reportIndex.passAccess
        · split
          · exact h
          · exact h.writerConflict
          · split
            · exact h
            · exact h.writerConflict
            · exact ih h.portWrite.passAccess

theorem Canon.packetEnd {p : Packet} {ended : Bool} {lastAt : Option (Nat × Nat)} (h : Canon s) :
    Canon (packetEnd p ended lastAt s) := by
  unfold Machine.packetEnd
  extract_lets t s1
  have h1 : Canon s1 := by
    unfold s1
    split
    · refine .ite ?_ h
      split
      · exact .ite h h.setBillet
      · exact h
    · exact h
  exact .ite h1.addTails h1

theorem Canon.clearWritten {x : Stream} {e : QEntry} (h : Canon s) : Canon (clearWritten x e s) :=
  .ite h (h.foldl fun _ h => .ite h.sramClearWhole h)

theorem Canon.portTake {p : Packet} (h : Canon s) : Canon (portTake p s).1 := by
  unfold Machine.portTake
  extract_lets t
  split
  · refine .ite_fst h.packetFault ?_
    extract_lets r live s1 last lastAt ended
    have hr : Canon r.1 := h.portAccesses
    have h1 : Canon s1 := hr.clearWritten.updStream.ackOwners
    exact .ite_fst hr (.ite_fst hr (.ite_fst h1.packetEnd h1))
  · exact h.packetFault
  · exact h

theorem Canon.openWord {sec t a : Nat} (h : Canon s) : Canon (openWord sec t a s) :=
  h.foldl fun _ h => by
    split
    · exact h.setBillet
    · exact h

theorem Canon.countPair {sid t port : Nat} {r : Reduce} (h : Canon s) : Canon (countPair sid t port r s) := by
  unfold Machine.countPair
  split
  · exact h
  extract_lets m key need got len base s1 landed last s2 s3 s4 m4
  have h3 : Canon s3 := .ite h.setMTile.setStream.signalOwn h.setMTile.setStream
  exact .ite (.ite h3.dropLatch.setMTile.markReady h3) h.setMTile

theorem Canon.reduceTake {p : Packet} (h : Canon s) : Canon (reduceTake p s).1 := by
  unfold Machine.reduceTake
  extract_lets t
  split
  · refine .ite_fst h.packetFault ?_
    extract_lets ws gates s0 s1 bils s2 s3
    split
    · exact h.writerConflict
    · exact h
    have h0 : Canon s0 := .ite h h.packetFault
    have h1 : Canon s1 := h0.foldl fun _ h => h.openWord.saddAt
    have h2 : Canon s2 := h1.foldl fun _ h => by
      split
      · exact h.setBillet
      · exact h
    have h3 : Canon s3 := .ite h2.addTails h2
    exact h3.countPair.progressed
  · exact h.packetFault
  · exact h

theorem Canon.indexFinding {sid : Nat} {fi : Finding} (h : Canon s) : Canon (indexFinding sid fi s) := by
  unfold Machine.indexFinding
  split
  · exact h
  · exact h
  · refine .ite h ?_
    split
    · exact .ite h.sramFinding h
    · exact h

theorem Canon.unitTake {p : Packet} (h : Canon s) : Canon (unitTake p s).1 := by
  unfold Machine.unitTake
  extract_lets t sec k gate
  split
  · refine .ite_fst h.packetFault ?_
    extract_lets n bils s1 v s2 s3
    split
    · split
      · exact h.writerConflict
      · exact .ite_fst h h
    have h1 : Canon s1 := .ite h (h.foldl fun _ h => by
      split
      · exact h.setBillet
      · exact h)
    have h2 : Canon s2 := by
      unfold s2
      split
      · exact h1.sramWrite.sramFlWrite
      · exact h1.saddAt
      · exact h1
      · exact h1.atomicAt.sramFlWrite
    have h3 : Canon s3 := .ite (h2.foldl fun _ h => by
      split
      · exact h.setBillet
      · exact h) h2
    exact .progressed (.ite h3.addTails h3)
  · exact h.packetFault

theorem Canon.mtArrive {op pkt : Nat} (h : Canon s) : Canon (mtArrive op pkt s) :=
  h.arriveKeep fun _ h =>
    .ite_fst h.packetFault (.ite_fst h.unitTake (.ite_fst h.packetEnd.progressed (.ite_fst h.reduceTake h.portTake)))

theorem Canon.atomicFinding {op pkt at_ : Nat} {f : Finding} (h : Canon s) :
    Canon (atomicFinding op pkt at_ f s) := by
  unfold Machine.atomicFinding
  split
  · exact h
  · exact h
  · exact .ite h.sramFinding h

@[simp] theorem ends_mtWrite {pkt : Nat} : Ends s (exec (.mtWrite pkt) s) := .done fun h => h.mtArrive

@[simp] theorem ends_mtScatter {sid pkt : Nat} {fi : Finding} : Ends s (exec (.mtScatter sid pkt fi) s) :=
  .done fun h => by
    split
    · exact h
    · exact .ite h.indexFinding.mtArrive h

@[simp] theorem ends_mtSadd {pkt at_ : Nat} {f : Finding} : Ends s (exec (.mtSadd pkt at_ f) s) :=
  .done fun h => h.atomicFinding.mtArrive
@[simp] theorem ends_mtIadd {pkt at_ : Nat} {f : Finding} : Ends s (exec (.mtIadd pkt at_ f) s) :=
  .done fun h => h.atomicFinding.mtArrive
@[simp] theorem ends_mtMax {pkt at_ : Nat} {f : Finding} : Ends s (exec (.mtMax pkt at_ f) s) :=
  .done fun h => h.atomicFinding.mtArrive
@[simp] theorem ends_mtMin {pkt at_ : Nat} {f : Finding} : Ends s (exec (.mtMin pkt at_ f) s) :=
  .done fun h => h.atomicFinding.mtArrive
@[simp] theorem ends_mtClose {pkt : Nat} : Ends s (exec (.mtClose pkt) s) := .done fun h => h.mtArrive

/-! ### The module controller -/

theorem Canon.setMod {m : Module} (h : Canon s) : Canon (s.setMod m) := h.frame
theorem Canon.reportFault (h : Canon s) : Canon (reportFault s) := h.setMod
@[simp] theorem ends_j1Valid : Ends s (exec .j1Valid s) := .done fun h => .ite h.setMod h
@[simp] theorem ends_j1Reversed : Ends s (exec .j1Reversed s) := .done fun h => .ite h.setMod.reportFault h
@[simp] theorem ends_supplyFault : Ends s (exec .supplyFault s) := .done fun h => .ite h.raiseTrigger h
@[simp] theorem ends_leakSample {mv : Nat} : Ends s (exec (.leakSample mv) s) :=
  .done fun h => .ite h (.ite h.setMod.clearTrigger (Canon.ite h.setMod.reportFault h.setMod).raiseTrigger)

@[simp] theorem ends_flowSample {mv : Nat} : Ends s (exec (.flowSample mv) s) :=
  .done fun h => by
    extract_lets fault low since _ m _ s1 s2
    have h2 : Canon s2 := .ite h.frame.reportFault h.frame
    refine .ite h ?_
    clear_value since
    split
    · exact h2.clearTrigger
    · exact .ite h2.raiseTrigger h2

@[simp] theorem ends_thermistorSample {inlet outlet : Int} : Ends s (exec (.thermistorSample inlet outlet) s) :=
  .done fun h => by
    extract_lets fi fo warn _ m s1 s2
    have h2 : Canon s2 := .ite h.setMod.reportFault h.setMod
    exact .ite h (.ite h2.eventStewardLog h2)

theorem Canon.setOutFault {pin : Nat} {bad : Bool} (h : Canon s) : Canon (setOutFault pin bad s) :=
  .ite h.setMod.reportFault h.setMod

@[simp] theorem ends_outputFault {pin : Nat} {level : Bool} : Ends s (exec (.outputFault pin level) s) :=
  .done fun h => .ite h <| .ite (.ite h.setOutFault (.ite h.setOutFault h.raiseTrigger)) <| .ite h.setOutFault <|
    .ite h.setOutFault <| .ite h.setOutFault <| .ite (.ite h.setOutFault h) (.ite h.setOutFault h)

@[simp] theorem ends_i2cBusStuck {recovered : Bool} : Ends s (exec (.i2cBusStuck recovered) s) :=
  .done fun h => .ite h (.ite h.setMod h.setMod.reportFault)
@[simp] theorem ends_smbusBusHeld : Ends s (exec .smbusBusHeld s) := .done fun h => .ite h.setMod h
@[simp] theorem ends_mctpPacket {pecOk : Bool} {addr : Nat} : Ends s (exec (.mctpPacket pecOk addr) s) :=
  .done fun h => .ite h (.ite h.setMod h.setMod)
theorem Canon.pldm {code : Nat} {data : List Int} (h : Canon s) : Canon (pldm code data s) := h.emit

@[simp] theorem ends_pldmGetSensorReading {id : Nat} : Ends s (exec (.pldmGetSensorReading id) s) :=
  .done fun h => by
    refine .ite h ?_
    split
    · exact h.pldm
    · exact (Canon.ite h.setMod h).pldm.drew

@[simp] theorem ends_moduleResetRequest : Ends s (exec .moduleResetRequest s) :=
  .done fun h => .ite h (.ite h.pldm h.frame.pldm)
@[simp] theorem ends_quenchTest {wentLow : Bool} : Ends s (exec (.quenchTest wentLow) s) :=
  .done fun h => .ite h h.setMod.setOutFault.pldm

@[simp] theorem ends_pldmFirmwareUpdate {step : UpdateStep} : Ends s (exec (.pldmFirmwareUpdate step) s) :=
  .done fun h => by
    refine .ite h ?_
    split
    · exact .ite h.drew.pldm (.ite h.drew.pldm h.beginUpdate.pldm)
    · split
      · exact h.drew.pldm
      · exact .ite h.endUpdate.pldm h.endUpdate.drew.pldm

@[simp] theorem ends_activateFirmware : Ends s (exec .activateFirmware s) :=
  .done fun h => .ite h (.ite h.selectSlot.pldm h.drew.pldm)
@[simp] theorem ends_trstAssert : Ends s (exec .trstAssert s) := .done fun h => h.setMod

/-! ### Streams -/

theorem Canon.startStream {sid : Nat} {x : Stream} (h : Canon s) : Canon (startStream sid x s) :=
  .ite h.setStream.sendAll h.setStream

@[simp] theorem ends_streamStart {sid : Nat} : Ends s (exec (.streamStart sid) s) :=
  .done fun h => by
    split
    · exact .ite h.startStream h
    · exact h

@[simp] theorem ends_prologueStreamStart {sid : Nat} : Ends s (exec (.prologueStreamStart sid) s) :=
  .done fun h => by
    split
    · exact .ite h.startStream h
    · exact h

theorem Canon.addReq {q : Req} (h : Canon s) : Canon (s.addReq q) := h.frameHbm
theorem Canon.updReq {i : Nat} {f : Req → Req} (h : Canon s) : Canon (s.updReq i f) := h.frameHbm

theorem Canon.sendRead {q : Req} (h : Canon s) : Canon (sendRead q s) := by
  unfold Machine.sendRead
  refine .ite h ?_
  split
  · exact .ite h.emit.updReq h
  · exact h

theorem Canon.rangeFault {x : Stream} {off : Nat} (h : Canon s) : Canon (rangeFault x off s) := h.streamFault
theorem Canon.nextAccess {sid : Nat} {x : Stream} (h : Canon s) : Canon (nextAccess sid x s) :=
  .ite h.updStream.markReady h.updStream
theorem Canon.blockStream {sid : Nat} (h : Canon s) : Canon (blockStream sid s) := h.updStream

theorem Canon.issueFetch {sid : Nat} {x : Stream} {land : Option Nat} (h : Canon s) :
    Canon (issueFetch sid x land s) :=
  (h.foldl fun _ h => h.addReq.sendRead).updStream.nextAccess

theorem Canon.skipFetch {sid : Nat} {x : Stream} (h : Canon s) : Canon (skipFetch sid x s) := h.wroteAccess.nextAccess

theorem Canon.fetchAccess {sid : Nat} {x : Stream} (h : Canon s) : Canon (fetchAccess sid x s) := by
  unfold Machine.fetchAccess
  refine .ite (.ite h.rangeFault.skipFetch h) ?_
  split
  · exact h.blockStream
  · exact .ite h.writerConflict h
  · exact h.reportIndex.issueFetch
  · split
    · exact h
    · exact .ite h.writerConflict h
    · split
      · exact h.issueFetch
      · exact h
      · exact .ite h.writerConflict h

theorem Canon.drainDone {sid k : Nat} {last : Bool} (h : Canon s) : Canon (drainDone sid k last s) := by
  unfold Machine.drainDone
  split
  · exact h
  extract_lets s1 s2
  have h2 : Canon s2 := .ite h.setStream.sendAll h.setStream
  exact .progressed (.ite h2.dropLatch h2)

theorem Canon.landData {q : Req} {a : Nat} (h : Canon s) : Canon (landData q a s) := by
  unfold Machine.landData
  split
  · exact h
  · split
    · exact .ite h.writerConflict h
    · refine .updStream ?_
      split
      · exact h.sramWrite.sramFlWrite.setBillet
      · exact h.sramWrite.sramFlWrite

theorem Canon.clearFetched {sid n : Nat} {poison : Bool} (h : Canon s) : Canon (clearFetched sid n poison s) := by
  unfold Machine.clearFetched
  split
  · refine .ite h ?_
    split
    · exact .ite h.sramClearWhole h
    · exact h
  · exact h

theorem Canon.completeReq {q : Req} (h : Canon s) : Canon (completeReq q s) := by
  unfold Machine.completeReq
  extract_lets _ s1 s2 s3
  have h2 : Canon s2 := h.frameHbm.updStream
  have h3 : Canon s3 := by
    unfold s3
    split
    · exact .ite h2 h2.landData
    · exact h2
  exact .ite h3 (.ite h3.drainDone h3.clearFetched.wroteAccess)

theorem Canon.settleReqs {sid n : Nat} (h : Canon s) : Canon (settleReqs sid n s) := by
  induction n generalizing s with
  | zero => exact h
  | succ n ih =>
    unfold Machine.settleReqs
    split
    · exact .ite (ih h.completeReq) h
    · exact h

theorem Canon.settleTile {t : Nat} (h : Canon s) : Canon (settleTile t s) := h.foldl fun _ h => h.settleReqs

theorem Canon.releaseOf {sid i : Nat} {x : Stream} (h : Canon s) : Canon (releaseOf sid i x s) := by
  unfold Machine.releaseOf
  split
  · exact .ite h.setBillet.updStream.settleTile h
  · exact h

theorem Canon.releases {sid : Nat} {x : Stream} {a : Option Nat} (h : Canon s) : Canon (releases sid x a s) := by
  unfold Machine.releases
  refine .ite (.ite (h.foldl fun _ h => h.releaseOf) h) ?_
  split
  · exact .ite h.releaseOf h
  · exact h

theorem Canon.issueDrain {sid : Nat} {x : Stream} {k : Nat} {last : Bool} (h : Canon s) :
    Canon (issueDrain sid x k last s) := by
  unfold Machine.issueDrain
  extract_lets off a0 ps rate s0 slack s1 s2
  have h0 : Canon s0 := .ite h h.drew
  have h2 : Canon s2 := (h0.foldl fun _ h => h.addReq).updStream
  exact .ite h.rangeFault.drainDone (.ite h2.sendAll h2)

theorem Canon.entryOut {sid : Nat} {x : Stream} (h : Canon s) : Canon (entryOut sid x s) := by
  unfold Machine.entryOut
  extract_lets last
  split
  · exact h
  extract_lets s1 s2
  have h1 : Canon s1 := .ite h.issueDrain h.updStream.sendAll
  have h2 : Canon s2 := .ite h1.dropLatch h1
  exact h2.updStream

theorem Canon.tookBytes {sid : Nat} {x : Stream} {a : Option Nat} {bs : List Byte} {poison : Bool} {fl : List (BitVec 5)}
    (h : Canon s) :
    Canon (tookBytes sid x a bs poison fl s) :=
  h.updStream.releases.entryOut.nextAccess.progressed

theorem Canon.readAccess {sid : Nat} {x : Stream} (h : Canon s) : Canon (readAccess sid x s) := by
  unfold Machine.readAccess
  refine .ite h ?_
  split
  · exact h.blockStream
  · exact h.writerConflict
  · exact h.reportIndex.tookBytes
  · split
    · exact h.blockStream
    · exact h.writerConflict
    · exact .ite h.tookBytes h.blockStream

theorem Canon.takeGrant {sid : Nat} {x : Stream} (h : Canon s) : Canon (takeGrant sid x s) := by
  unfold Machine.takeGrant
  split
  · exact h.arrive fun _ h => h.updStream.progressed
  · exact h

theorem Canon.accessOf {sid : Nat} {x : Stream} (h : Canon s) : Canon (accessOf sid x s) :=
  .ite (.ite h h.fetchAccess) (.ite h (.ite h.readAccess h))

theorem Canon.readFinding {x : Stream} {f : Finding} (h : Canon s) : Canon (readFinding x f s) := by
  unfold Machine.readFinding
  refine .ite h ?_
  split
  · split
    · exact .ite h.sramFinding h
    · exact h
  · exact h

theorem Canon.streamAccess {sid : Nat} {f fi : Finding} (h : Canon s) : Canon (streamAccess sid f fi s) := by
  unfold Machine.streamAccess
  split
  · exact h
  · exact .ite h (.ite h.takeGrant (.ite h h.indexFinding.readFinding.accessOf))

theorem Canon.readServed {sid : Nat} {f fi : Finding} (h : Canon s) : Canon (readServed sid f fi s) := by
  unfold Machine.readServed
  split
  · exact h
  · exact .ite h.indexFinding.readFinding.accessOf h

theorem Canon.mtReadOp {op sid : Nat} {f fi : Finding} (h : Canon s) : Canon (mtReadOp op sid f fi s) := by
  unfold Machine.mtReadOp
  split
  · exact h
  · exact .ite (.ite h.readServed h.streamAccess) h

@[simp] theorem ends_streamAccess {sid : Nat} {f fi : Finding} : Ends s (exec (.streamAccess sid f fi) s) :=
  .done fun h => h.streamAccess
@[simp] theorem ends_billetReadServed {sid : Nat} {f fi : Finding} : Ends s (exec (.billetReadServed sid f fi) s) :=
  .done fun h => h.readServed
@[simp] theorem ends_mtRead {sid : Nat} {f fi : Finding} : Ends s (exec (.mtRead sid f fi) s) :=
  .done fun h => h.mtReadOp
@[simp] theorem ends_mtGather {sid : Nat} {f fi : Finding} : Ends s (exec (.mtGather sid f fi) s) :=
  .done fun h => h.mtReadOp
theorem Canon.reqBack {q : Req} (h : Canon s) : Canon (reqBack q s) :=
  .ite h.updReq.settleReqs h.updReq.settleReqs.settleTile

@[simp] theorem ends_hbmReadDataArrival {req : Nat} : Ends s (exec (.hbmReadDataArrival req) s) :=
  .done fun h => by
    split
    · exact .ite h.reqBack h
    · exact h

@[simp] theorem ends_wrAckArrival {pkt : Nat} : Ends s (exec (.wrAckArrival pkt) s) :=
  .done fun h => h.arrive fun _ h => by
    split
    · exact h.reqBack
    · exact h.packetFault

theorem Canon.peerUnreachable {sec l window n : Nat} (h : Canon s) : Canon (peerUnreachable sec l window n s) := by
  unfold Machine.peerUnreachable
  dsimp only
  split
  · exact .ite h.setSec h.eventLease
  · exact h.eventLease

theorem Canon.sendWaiting (h : Canon s) : Canon (sendWaiting s) := by
  unfold Machine.sendWaiting
  split
  · exact h.sendRead
  · exact h

theorem Canon.windowReadDone {q : Req} {res : ReadResult} (h : Canon s) : Canon (windowReadDone q res s) := by
  unfold Machine.windowReadDone
  split
  · exact h.updReq.reqBack.sendWaiting
  · exact .ite h.sendRead h.updReq.peerUnreachable.reqBack
  · exact h.updReq.peerUnreachable.reqBack.sendWaiting

@[simp] theorem ends_windowReadComplete {req : Nat} {res : ReadResult} :
    Ends s (exec (.windowReadComplete req res) s) :=
  .done fun h => by
    split
    · exact .ite h.windowReadDone h
    · exact h

theorem Canon.serveReq {pc : Nat} {q : Req} (h : Canon s) : Canon (serveReq pc q s) := by
  unfold Machine.serveReq
  extract_lets s1 s2
  have h1 : Canon s1 := h.hbmWrite.hbmFlWrite
  have h2 : Canon s2 := .ite h1.hbmMark h1
  refine .ite ?_ h.updReq
  split
  · exact h2.frameHbm
  · exact h2.updReq.sendAll

theorem Canon.serveFinding {pc : Nat} {f : Finding} {q : Req} (h : Canon s) : Canon (serveFinding pc f q s) :=
  (Canon.ite h h.hbmFinding).serveReq

theorem Canon.hbmServe {pc pick : Nat} {f : Finding} (h : Canon s) : Canon (hbmServe pc pick f s) := by
  unfold Machine.hbmServe
  refine .ite h (.ite ?_ ?_)
  · dsimp only
    split
    · exact h
    · split
      · exact h
      · exact h.frameHbm.serveFinding
  · split
    · exact h.serveFinding
    · exact h

@[simp] theorem ends_hbmRequestServed {pc pick : Nat} {f : Finding} : Ends s (exec (.hbmRequestServed pc pick f) s) :=
  .done fun h => h.hbmServe

theorem Canon.endedPeer {q : Req} (h : Canon s) : Canon (endedPeer q s) := by
  unfold Machine.endedPeer
  dsimp only
  split
  · exact .ite h.updLease.setProg h.updLease
  · exact h.updLease

theorem Canon.notePeer {q : Req} (h : Canon s) : Canon (notePeer q s) := by
  unfold Machine.notePeer
  split
  · exact h
  · refine .ite h ?_
    dsimp only
    split
    · exact h.updLease.setSec
    · exact h.updLease.endedPeer

theorem Canon.sendWrite {q : Req} (h : Canon s) : Canon (sendWrite q s) := by
  unfold Machine.sendWrite
  dsimp only
  split
  · exact h.notePeer.emit
  · exact h.peerUnreachable

theorem Canon.windowWriteSend {req : Nat} (h : Canon s) : Canon (windowWriteSend req s) := by
  unfold Machine.windowWriteSend
  split
  · exact h
  · refine .ite h ?_
    dsimp only
    split
    · exact h.sendWrite.frameHbm
    · exact h.sendWrite.updReq.sendAll

@[simp] theorem ends_windowWriteSend {req : Nat} : Ends s (exec (.windowWriteSend req) s) :=
  .done fun h => h.windowWriteSend

end Sys2Proof.Machine
end

