-- ==== Sys2Proof/Proofs/CanonicalPrograms.lean ====
section
/-! Every step keeps the memories canonical and ends in a next state (O5, O60):
the rules for the network, running sections, security, the sequencer and solver channels. -/
namespace Sys2Proof.Machine

variable {s : State}

/-! ### The network -/

theorem Canon.inject {p : Packet} (h : Canon s) : Canon (inject s p) := .ite h (.ite h.packetFault h.onNet)
theorem Canon.latchFromOutlet {t o : Nat} {e : QEntry} (h : Canon s) : Canon (latchFromOutlet t o e s) :=
  .ite (.ite h h.setTile.inject) (.ite (.ite h.setTile.inject h) h.setTile.packetFault)

theorem Canon.injectOutlet {t o : Nat} (h : Canon s) : Canon (injectOutlet t o s) := by
  unfold Machine.injectOutlet
  refine .ite h ?_
  split
  · exact .ite h.latchFromOutlet (.ite (h.setTile.foldl fun _ h => h.inject) h)
  · exact .ite (h.setTile.foldl fun _ h => h.inject) h
  · exact h

theorem Canon.packetInject {src : TxSource} (h : Canon s) : Canon (packetInject src s) := by
  unfold Machine.packetInject
  split
  · exact h.injectOutlet
  · split
    · exact h
    · exact h.frameFab.inject

@[simp] theorem ends_packetInject {src : TxSource} : Ends s (exec (.packetInject src) s) :=
  .done fun h => h.packetInject
theorem Canon.mergeNet {i j : Nat} {p : Packet} (h : Canon s) : Canon (mergeNet i j p s) := h.frameFab

theorem Canon.combine {i j : Nat} {f : Packet → Packet → Option Packet} (h : Canon s) : Canon (combine i j f s) := by
  unfold Machine.combine
  split
  · refine .ite h ?_
    split
    · exact h.mergeNet
    · exact h
  · exact h

@[simp] theorem ends_reduceCombine {i j : Nat} : Ends s (exec (.reduceCombine i j) s) := .done fun h => h.combine
@[simp] theorem ends_barrierCombine {i j : Nat} : Ends s (exec (.barrierCombine i j) s) := .done fun h => h.combine
@[simp] theorem ends_flagCombine {i j : Nat} : Ends s (exec (.flagCombine i j) s) := .done fun h => h.combine

@[simp] theorem ends_barrierArrival {pkt : Nat} : Ends s (exec (.barrierArrival pkt) s) :=
  .done fun h => h.arrive fun _ h => by
    split
    · exact h.setSec
    · exact h

@[simp] theorem ends_drainArrival {pkt : Nat} : Ends s (exec (.drainArrival pkt) s) :=
  .done fun h => h.arrive fun _ h => .ite h.updTile.progressed h.packetFault
theorem Canon.seamViolation {i r side : Nat} {p : Packet} (h : Canon s) : Canon (seamViolation i r side p s) :=
  (Canon.ite h.offNet.eventLease h.offNet.eventLeaseSteward).verdictOn

@[simp] theorem ends_seamPacket {pkt region side : Nat} : Ends s (exec (.seamPacket pkt region side) s) :=
  .done fun h => by
    split
    · exact h
    · exact .ite h.seamViolation h

theorem Canon.flitError {i : Nat} {e : FlitErr} (h : Canon s) : Canon (flitError i e s) := by
  unfold Machine.flitError
  split
  · exact h
  · exact h.frame
  · exact h
  · exact h.drew.offNet.putNet
  · exact h.offNet.eventLease.verdictOn

@[simp] theorem ends_flitError {pkt : Nat} {e : FlitErr} : Ends s (exec (.flitError pkt e) s) :=
  .done fun h => h.flitError

theorem Canon.writeFlag {x : Stream} {r : FlagRec} (h : Canon s) : Canon (writeFlag x r s) := by
  unfold Machine.writeFlag
  extract_lets l a home _ q peer s1
  have h1 : Canon s1 := by
    refine .ite h.tileFault ?_
    split
    · exact h.writerConflict
    split
    · exact h.hbmWrite
    · split
      · exact h.notePeer.emit
      · exact h.peerUnreachable
    · exact h.sramWrite
  split
  · exact h1.setSec
  · exact h1

theorem Canon.mergeAtHome {p : Packet} {x : Stream} {r : FlagRec} (h : Canon s) : Canon (mergeAtHome p x r s) := by
  unfold Machine.mergeAtHome
  split
  · exact h.packetFault
  extract_lets m n s1 s2
  have h2 : Canon s2 := .ite h.setSec.tileFault h.setSec
  exact .ite h2.writeFlag h2

theorem Canon.flagSend {t k : Nat} (h : Canon s) : Canon (flagSend t k s) := by
  unfold Machine.flagSend
  dsimp only
  split
  · exact h
  · refine .ite ?_ h
    split
    · exact .ite h.setTile.inject h
    · exact h

@[simp] theorem ends_flagSend {tile oset : Nat} : Ends s (exec (.flagSend tile oset) s) := .done fun h => h.flagSend

@[simp] theorem ends_flagArrival {pkt : Nat} : Ends s (exec (.flagArrival pkt) s) :=
  .done fun h => h.arrive fun _ h => by
    refine .ite h ?_
    split
    · split
      · exact .ite h.mergeAtHome h.packetFault
      · exact h.packetFault
    · exact h.packetFault

/-! ### Sections that run -/

theorem Canon.makeStreams {i : Nat} (h : Canon s) : Canon (makeStreams i s) := by
  unfold Machine.makeStreams
  split
  · exact h
  · exact h.foldl fun _ h => h.frameFab

theorem Canon.prepareSection {i : Nat} (h : Canon s) : Canon (prepareSection i s) := by
  unfold Machine.prepareSection
  split
  · exact h
  · exact h.setSec.makeStreams

theorem Canon.loadChan {x : Section} {c : Nat} (h : Canon s) : Canon (loadChan x s c) := by
  unfold Machine.loadChan
  refine .ite h ?_
  split
  · exact h.putChan
  · exact h

theorem Canon.displaceAhead {x : Section} (h : Canon s) : Canon (displaceAhead x s) :=
  h.foldl fun _ h => h.cancelSection

theorem Canon.beginLoad {i : Nat} {x : Section} (h : Canon s) : Canon (beginLoad i x s) := by
  unfold Machine.beginLoad
  extract_lets s0 fresh s1 s2 s3
  have h1 : Canon s1 := .ite h.displaceAhead.drewRandom h.displaceAhead
  have h2 : Canon s2 := h1.setSec
  have h3 : Canon s3 := (Canon.ite h2.prepareSection h2).foldl fun _ h => h.loadChan
  exact (h3.foldl fun _ h => h.pushGroups).markReady

@[simp] theorem ends_runLoadBegin {hd : Nat} : Ends s (exec (.runLoadBegin hd) s) :=
  .done fun h => by
    split
    · exact .ite h (.ite h.stopProg.settleProg (.ite h.beginLoad h))
    · exact h

theorem Canon.startCTile {i t : Nat} (h : Canon s) : Canon (startCTile i s t) := h.setTile

theorem Canon.sramZero {t a n : Nat} (h : Canon s) : Canon (s.sramZero t a n) := by
  obtain ⟨-, ⟨hsram, hmarks⟩, -⟩ := (Memory.wf_iff s).1 h
  exact (h.setSram (Table.wf_keep 0 _ _ hsram)).setSramPoison (Table.wf_keep false _ _ hmarks)

theorem Canon.startMTile {i : Nat} {bils : List BilDecl} {t : Nat} (h : Canon s) : Canon (startMTile i bils s t) :=
  (h.foldl fun _ h => h.sramZero).setMTile
theorem Canon.startWatches {t : Nat} (h : Canon s) : Canon (startWatches s t) := h.foldl fun _ h => h.fireWatch
theorem Canon.payOwed {e : Nat × Stream} (h : Canon s) : Canon (payOwed s e) :=
  h.updStream.foldl fun _ h => h.ownSignal

theorem Canon.emptyFlags {i k : Nat} (h : Canon s) : Canon (emptyFlags i s k) := by
  unfold Machine.emptyFlags
  split
  · exact .ite h.writeFlag h
  · exact h

theorem Canon.startUnits {i : Nat} {x : Section} (h : Canon s) : Canon (startUnits i x s) := by
  unfold Machine.startUnits
  extract_lets ms cs ts _ _ s1
  have h1 : Canon s1 := h.frameFab.frameHbm
  exact (h1.foldl fun _ h => h.startCTile).foldl fun _ h => h.startMTile

theorem Canon.startSection {i : Nat} {x : Section} (h : Canon s) : Canon (startSection i x s) := by
  unfold Machine.startSection
  extract_lets l s1 s2 s3 s4 s5
  have h2 : Canon s2 := (h.startUnits.foldl fun _ h => h.updRegion).setSec
  have h3 : Canon s3 := by
    unfold s3
    split
    · exact h2.setProg
    · exact h2
  have h5 : Canon s5 := (h3.foldl fun _ h => h.startWatches).foldl fun _ h => h.payOwed
  exact (h5.foldl fun _ h => h.emptyFlags).markReady

@[simp] theorem ends_sectionStart {sec : Nat} : Ends s (exec (.sectionStart sec) s) :=
  .done fun h => by
    split
    · exact .ite h.startSection h
    · exact h

theorem Canon.reportLeft {i : Nat} (h : Canon s) : Canon (reportLeft i s) := h.foldl fun _ h => h.packetFault

theorem Canon.finishSection {i : Nat} (h : Canon s) : Canon (finishSection i s) := by
  unfold Machine.finishSection
  split
  · exact h
  · exact .ite (.ite h.endSection h) (.ite h.reportLeft.endSection h)

@[simp] theorem ends_sectionEnd {sec : Nat} : Ends s (exec (.sectionEnd sec) s) := .done fun h => h.finishSection

/-! ### Progress, idleness and credit -/

theorem Canon.monitorEnds {i : Nat} {x : Section} {st : Status} (h : Canon s) : Canon (monitorEnds i x st s) :=
  h.frame.eventLease.verdictOn

@[simp] theorem ends_progressLimit {sec : Nat} : Ends s (exec (.progressLimit sec) s) :=
  .done fun h => by
    split
    · exact .ite h.monitorEnds h
    · exact h

@[simp] theorem ends_sectionTimeout {sec : Nat} : Ends s (exec (.sectionTimeout sec) s) :=
  .done fun h => by
    split
    · exact .ite h.monitorEnds h
    · exact h

theorem Canon.spendCredit {r : Nat} (h : Canon s) : Canon (spendCredit r s) :=
  h.foldl fun _ h => .ite h.drew.updRegion h

@[simp] theorem ends_regionIdleReport {region : Nat} : Ends s (exec (.regionIdleReport region) s) :=
  .done fun h => by
    split
    · exact .ite h.updRegion.spendCredit h
    · exact h

@[simp] theorem ends_regionUngate {region : Nat} : Ends s (exec (.regionUngate region) s) :=
  .done fun h => by
    split
    · exact .ite h.drew.updRegion h
    · exact h

theorem Canon.takeBack {r : Nat} (h : Canon s) : Canon (takeBack r s) := h.foldl fun _ h => .ite h.drew.updRegion h
@[simp] theorem ends_budgetRecall {region : Nat} : Ends s (exec (.budgetRecall region) s) :=
  .done fun h => .ite h.updRegion.takeBack h

/-! ### Security -/

@[simp] theorem ends_drbgReseed : Ends s (exec .drbgReseed s) := .done fun h => .ite h.frame h
@[simp] theorem ends_entropyHealthFail : Ends s (exec .entropyHealthFail s) := .done fun h => .ite h.frame h
@[simp] theorem ends_entropyRestart {pass : Bool} : Ends s (exec (.entropyRestart pass) s) :=
  .done fun h => .ite h.frame h
theorem Canon.setIde {port k : Nat} {x : Ide} (h : Canon s) : Canon (setIde s port k x) := h.setPort
@[simp] theorem ends_ideIntegrityFail {port stream : Nat} : Ends s (exec (.ideIntegrityFail port stream) s) :=
  .done fun h => .ite h.setIde.eventSteward h
@[simp] theorem ends_ideKm {port stream base limit : Nat} : Ends s (exec (.ideKm port stream base limit) s) :=
  .done fun h => .ite h (.ite h.setIde.drewRandom.drainPort.emit h.emit)
theorem Canon.spdmError {port code : Nat} (h : Canon s) : Canon (spdmError port code s) := h.emit
theorem Canon.spdmOk {port kind : Nat} {data : List Byte} (h : Canon s) : Canon (spdmOk port kind data s) := h.emit
theorem Canon.setSpdm {port : Nat} {x : SpdmState} (h : Canon s) : Canon (setSpdm port x s) := h.setPort

theorem Canon.spdmReq {port : Nat} {allowed : Bool} {act : State → State}
    (h : Canon s) (hact : ∀ {u}, Canon u → Canon (act u)) :
    Canon (spdmReq port allowed act s) :=
  .ite h (.ite (hact h) h.spdmError)

@[simp] theorem ends_getVersion {port : Nat} : Ends s (exec (.getVersion port) s) :=
  .done fun h => h.spdmReq fun h => h.spdmOk.setSpdm
@[simp] theorem ends_getCapabilities {port : Nat} : Ends s (exec (.getCapabilities port) s) :=
  .done fun h => h.spdmReq fun h => h.spdmOk.setSpdm

@[simp] theorem ends_negotiateAlgorithms {port : Nat} {offered : Bool} :
    Ends s (exec (.negotiateAlgorithms port offered) s) :=
  .done fun h => h.spdmReq fun h => .ite h.spdmOk.setSpdm h.spdmError

theorem Canon.spdmSigned {port : Nat} {act : State → State} (h : Canon s) (hact : ∀ {u}, Canon u → Canon (act u)) :
    Canon (spdmSigned port act s) :=
  .ite h.spdmError (.ite h.spdmError.drew (hact h.drewRandom))

@[simp] theorem ends_getDigests {port : Nat} : Ends s (exec (.getDigests port) s) :=
  .done fun h => h.spdmReq fun h => h.spdmOk.drew
@[simp] theorem ends_getCertificate {port slot : Nat} : Ends s (exec (.getCertificate port slot) s) :=
  .done fun h => h.spdmReq fun h => .ite h.spdmOk.drew h.spdmError
@[simp] theorem ends_challenge {port slot : Nat} : Ends s (exec (.challenge port slot) s) :=
  .done fun h => h.spdmReq fun h => .ite (h.spdmSigned fun h => h.spdmOk) h.spdmError

@[simp] theorem ends_getMeasurements {port index : Nat} : Ends s (exec (.getMeasurements port index) s) :=
  .done fun h => h.spdmReq fun h => by
    split
    · exact h.spdmError
    · exact h.spdmSigned fun h => h.spdmOk

@[simp] theorem ends_keyExchange {port : Nat} : Ends s (exec (.keyExchange port) s) :=
  .done fun h => h.spdmReq fun h => .ite h.spdmError.drew h.spdmOk.drewRandom.setSpdm
@[simp] theorem ends_finish {port : Nat} {verified : Bool} : Ends s (exec (.finish port verified) s) :=
  .done fun h => h.spdmReq fun h => .ite h.spdmOk.setSpdm h.spdmError.setSpdm
@[simp] theorem ends_endSession {port : Nat} : Ends s (exec (.endSession port) s) :=
  .done fun h => h.spdmReq fun h => h.spdmOk.setSpdm
@[simp] theorem ends_debugUnlockRequest {fn : Nat} {seq : Word} : Ends s (exec (.debugUnlockRequest fn seq) s) :=
  .done fun h => h.onCmd fun _ h => .ite h.fail h.drewRandom.frame.reply

theorem Canon.endEverything (h : Canon s) : Canon (endEverything s) := by
  unfold Machine.endEverything
  extract_lets s1 s2 s3
  have h1 : Canon s1 := h.foldl fun _ h => h.endSection
  have h2 : Canon s2 := h1.foldl fun _ h => h.stopProg.settleProg
  have h3 : Canon s3 := h2.foldl fun _ h => h.cancelSection
  exact h3.foldl fun _ h => h.updRegion

theorem canon_openDebug : Canon (openDebug s) := Canon.drew canon_reset.frameHbm.frame

@[simp] theorem ends_debugUnlockAnswer {fn : Nat} {seq : Word} {at_ : Nat} {f : Finding} :
    Ends s (exec (.debugUnlockAnswer fn seq at_ f) s) :=
  .done fun h => h.onCmd fun _ h => by
    extract_lets off s' rejected
    have h' : Canon s' := by
      unfold s'
      split
      · exact .ite h h.fwRead
      · exact h
    refine .ite h'.fail ?_
    split
    · exact .ite canon_openDebug.reply h'.frame.fail
    · exact h'.frame.fail

/-! ### The sequencer -/

theorem Canon.takeContext {hd : Nat} {c : Option Nat} (h : Canon s) : Canon (takeContext s hd c) := by
  unfold Machine.takeContext
  split
  · exact h.frame
  · exact h

@[simp] theorem ends_seqStart {fn : Nat} {seq : Word} {at_ : Nat} {f : Finding} :
    Ends s (exec (.seqStart fn seq at_ f) s) :=
  .done fun h => h.onCmd fun _ h => by
    extract_lets l off n s1
    have h1 : Canon s1 := .ite h.fwRead h
    exact .ite h1.fail (.ite h1.fail (.ite h1.fail h1.setProg.takeContext.finishCmd))

theorem Canon.onIssue {hd op : Nat} {act : Prog → Nat → State → State}
    (h : Canon s) (hact : ∀ {u} b0 b1, Canon u → Canon (act b0 b1 u)) :
    Canon (onIssue hd op act s) := by
  unfold Machine.onIssue
  split
  · exact hact _ _ h
  · exact h

theorem Canon.stopAt {hd : Nat} {p : Prog} {st : Status} (h : Canon s) : Canon (stopAt hd p st s) :=
  h.setProg.stopProg.settleProg
theorem Canon.placeRun {hd : Nat} {p : Prog} {x : Section} (h : Canon s) : Canon (placeRun hd p x s) :=
  .ite h.frame.setSec.setProg h.frame.setSec.setProg.frame
@[simp] theorem ends_run {hd : Nat} : Ends s (exec (.run hd) s) :=
  .done fun h => h.onIssue fun _ _ h => .ite h.placeRun h.setProg.stopProg.settleProg
@[simp] theorem ends_wait {hd : Nat} : Ends s (exec (.wait hd) s) :=
  .done fun h => h.onIssue fun _ _ h => .ite h.setProg h.setProg

@[simp] theorem ends_waitSatisfied {hd : Nat} : Ends s (exec (.waitSatisfied hd) s) :=
  .done fun h => by
    split
    · exact .ite h.setProg h
    · exact h

@[simp] theorem ends_sig {hd : Nat} : Ends s (exec (.sig hd) s) :=
  .done fun h => h.onIssue fun _ _ h => h.setProg.addHTally
@[simp] theorem ends_loop {hd : Nat} : Ends s (exec (.loop hd) s) := .done fun h => h.onIssue fun _ _ h => h.setProg
@[simp] theorem ends_notify {hd : Nat} : Ends s (exec (.notify hd) s) :=
  .done fun h => h.onIssue fun _ _ h => .ite h.setProg h.setProg.produce
@[simp] theorem ends_halt {hd : Nat} : Ends s (exec (.halt hd) s) :=
  .done fun h => h.onIssue fun _ _ h => h.setProg.settleProg
@[simp] theorem ends_br {hd : Nat} : Ends s (exec (.br hd) s) := .done fun h => h.onIssue fun _ _ h => h.setProg

theorem Canon.commitAhead {i : Nat} (h : Canon s) : Canon (commitAhead i s) := by
  unfold Machine.commitAhead
  split
  · exact h
  · exact .ite (h.setSec.foldl fun _ h => h.eventLease) h

@[simp] theorem ends_brEvaluate {hd : Nat} : Ends s (exec (.brEvaluate hd) s) :=
  .done fun h => by
    split
    · exact h
    extract_lets w taken right s1
    have h1 : Canon s1 := by
      unfold s1
      split
      · exact h
      · exact .ite h.commitAhead h.cancelSection
    refine .ite ?_ h
    split
    · exact h1
    · exact h1.setProg

@[simp] theorem ends_runAheadStart {hd : Nat} : Ends s (exec (.runAheadStart hd) s) :=
  .done fun h => by
    split
    · exact h
    · refine .ite ?_ h
      split
      · exact h
      · exact .ite h.frame.setSec.setProg.prepareSection.markReady h

@[simp] theorem ends_fence {hd : Nat} : Ends s (exec (.fence hd) s) := .done fun h => h.onIssue fun _ _ h => h.setProg
@[simp] theorem ends_fenceCommand {fn : Nat} {seq : Word} : Ends s (exec (.fenceCommand fn seq) s) :=
  .done fun h => h.onCmd fun _ h => .ite h.reply h.waitFor

@[simp] theorem ends_fenceComplete {w : MoveWaiter} : Ends s (exec (.fenceComplete w) s) :=
  .done fun h => by
    split
    · split
      · exact h
      · exact .ite h.setProg h
    · split
      · exact h
      · split
        · exact .ite h.reply h
        · exact h

theorem Canon.peerRead {l window : Nat} {ok : Bool} (h : Canon s) : Canon (peerRead l window ok s) := by
  unfold Machine.peerRead
  dsimp only
  split
  · exact .ite h.emit h.emit.eventLease
  · exact h.eventLease

@[simp] theorem ends_fencePeerRead {w : MoveWaiter} {window : Nat} {ok : Bool} :
    Ends s (exec (.fencePeerRead w window ok) s) :=
  .done fun h => by
    split
    · split
      · exact h
      · exact .ite h.peerRead.setProg h
    · split
      · exact h
      · split
        · exact .ite h.peerRead.waitFor h
        · exact h

/-- Where the lease is resident, the bytes and marks are those of the tiles themselves. -/
theorem Canon.setBanks {l r : Nat} {b : Banks} (h : Canon s)
    (hb : residentOn s l r = true → Table.wf 0 b.sram = true ∧ Table.wf false b.poison = true) :
    Canon (setBanks s l r b) := by
  unfold Machine.setBanks
  split
  next hr => exact (h.setSram (hb hr).1).setSramPoison (hb hr).2
  next => exact h.updLease

theorem banksOf_resident {l r : Nat} (hr : residentOn s l r = true) : banksOf s l r = ⟨s.fab.sram, s.fab.sramPoison⟩ :=
  if_pos hr

theorem Canon.spillTile {l r : Nat} {e : Nat × Nat × Nat} (h : Canon s) : Canon (spillTile l r s e) := by
  obtain ⟨⟨hmem, hmarks⟩, -⟩ := (Memory.wf_iff s).1 h
  exact .ite h.hbmWrite ((h.setHbmMem (wf_copyKeys 0 _ _ _ _ _ hmem)).setHbmPoison (wf_copyKeys false _ _ _ _ _ hmarks))

theorem Canon.fillTile {l r : Nat} {e : Nat × Nat × Nat} (h : Canon s) : Canon (fillTile l r s e) := by
  refine .ite h (h.setBanks fun hr => ?_)
  obtain ⟨-, ⟨hsram, hmarks⟩, -⟩ := (Memory.wf_iff s).1 h
  rw [banksOf_resident hr]
  exact ⟨wf_copyKeys 0 _ _ _ _ _ hsram, wf_copyKeys false _ _ _ _ _ hmarks⟩

theorem Canon.doMove {m : Move} (h : Canon s) : Canon (doMove m s) := by
  unfold Machine.doMove
  split
  · exact h.foldl fun _ h => h.fillTile
  · exact h.foldl fun _ h => h.spillTile

theorem Canon.issueMove {hd : Nat} {fill : Bool} {p : Prog} {w : Nat} (h : Canon s) :
    Canon (issueMove hd fill p w s) :=
  .ite h.setProg h.stopAt

@[simp] theorem ends_spill {hd : Nat} : Ends s (exec (.spill hd) s) :=
  .done fun h => h.onIssue fun _ _ h => h.issueMove
@[simp] theorem ends_fill {hd : Nat} : Ends s (exec (.fill hd) s) := .done fun h => h.onIssue fun _ _ h => h.issueMove

theorem Canon.moveCmd {fill : Bool} {fn : Nat} {seq : Word} {b : List Byte} (h : Canon s) :
    Canon (moveCmd fill fn seq b s) :=
  .ite h.fail (.ite h.fail h.updFlight)

@[simp] theorem ends_billetSpill {fn : Nat} {seq : Word} : Ends s (exec (.billetSpill fn seq) s) :=
  .done fun h => h.onCmd fun _ h => h.moveCmd
@[simp] theorem ends_billetFill {fn : Nat} {seq : Word} : Ends s (exec (.billetFill fn seq) s) :=
  .done fun h => h.onCmd fun _ h => h.moveCmd

theorem Canon.moveFinding {m : Move} {at_ tag : Nat} {f : Finding} (h : Canon s) :
    Canon (moveFinding m at_ tag f s) := by
  unfold Machine.moveFinding
  split
  · exact h
  · exact .ite h.hbmFinding (.ite h.sramFinding h)

@[simp] theorem ends_spillFillComplete {w : MoveWaiter} {at_ : Nat} {f : Finding} :
    Ends s (exec (.spillFillComplete w at_ f) s) :=
  .done fun h => by
    split
    · split
      · exact h
      · split
        · exact .ite h.moveFinding.doMove.setProg h
        · exact h
    · split
      · exact h
      · split
        · exact .ite h h.moveFinding.doMove.reply
        · exact h

@[simp] theorem ends_seqStop {fn : Nat} {seq : Word} : Ends s (exec (.seqStop fn seq) s) :=
  .done fun h => h.onCmd fun _ h => by
    refine .ite h.fail ?_
    split
    · exact h.fail
    · exact (h.stopByHand.finishCmd.foldl fun _ h => h.abortRegion).settleProg

@[simp] theorem ends_seqSuspend {fn : Nat} {seq : Word} : Ends s (exec (.seqSuspend fn seq) s) :=
  .done fun h => h.onCmd fun _ h => by
    split
    · exact h.fail
    · exact .ite h.setProg.cancelPending.reply h.setProg.cancelPending.waitFor

@[simp] theorem ends_seqResume {fn : Nat} {seq : Word} : Ends s (exec (.seqResume fn seq) s) :=
  .done fun h => h.onCmd fun _ h => by
    split
    · exact h.fail
    · exact h.setProg.reply

@[simp] theorem ends_contextSwap {hd : Nat} {restore : Bool} : Ends s (exec (.contextSwap hd restore) s) :=
  .done fun h => by
    split
    · exact h
    · split
      · exact .ite h.setProg.frame h
      · split
        · exact h.setProg.takeContext
        · exact h
      · exact h

theorem Canon.putTally {l : Nat} {a : TallyArg} {v : Half} (h : Canon s) : Canon (putTally l a v s) :=
  .ite h.setHTally (.ite h.setMTile.setTally h.updLease)
theorem Canon.markHandSet {l : Nat} (h : Canon s) : Canon (markHandSet l s) := h.foldl fun _ h => h.setProg

@[simp] theorem ends_tallyRead {fn : Nat} {seq : Word} : Ends s (exec (.tallyRead fn seq) s) :=
  .done fun h => h.onCmd fun _ h => by
    split
    · exact h.fail
    · exact h.reply

@[simp] theorem ends_tallySet {fn : Nat} {seq : Word} : Ends s (exec (.tallySet fn seq) s) :=
  .done fun h => h.onCmd fun _ h => by
    refine .ite h.fail ?_
    split
    · exact h.fail
    · exact h.markHandSet.putTally.reply

@[simp] theorem ends_debugSnapshot {fn : Nat} {seq : Word} : Ends s (exec (.debugSnapshot fn seq) s) :=
  .done fun h => h.onCmd fun _ h => .ite h.fail (.ite h.fail (.ite h.fail h.frame.writeHost.reply))
@[simp] theorem ends_windowUnmapEntry {fn : Nat} {seq : Word} : Ends s (exec (.windowUnmapEntry fn seq) s) :=
  .done fun h => h.onCmd fun _ h => .ite h.fail (.ite h.fail h.updLease.reply)

/-! ### Solver channels -/

theorem Canon.emulateOn {l c r at_ : Nat} {f : Finding} (h : Canon s) : Canon (emulateOn l c r at_ f s) :=
  (Canon.ite h h.saveFinding.handOver.joinQueue.leaveOthers).zeroiseRegion.updRegion

theorem Canon.bindEmulated {l c mode deadline at_ : Nat} {f : Finding} {t : State} (h : Canon s)
    (ht : bindEmulated l c mode deadline at_ f s = some t) : Canon t := by
  unfold Machine.bindEmulated at ht
  split at ht
  · cases ht
    exact h.emulateOn.updLease.setChan
  · cases ht

@[simp] theorem ends_solverUnbind {fn : Nat} {seq : Word} : Ends s (exec (.solverUnbind fn seq) s) :=
  .done fun h => h.onCmd fun _ h => .ite h.fail (.ite h.fail h.unbindChan.reply)

theorem Canon.markTiming {i : Nat} (h : Canon s) : Canon (markTiming i s) := by
  unfold Machine.markTiming
  split
  · exact h
  · dsimp only
    split
    · exact h.setSec.setProg
    · exact h.setSec

theorem Canon.answer {c : Nat} {a : Answer} (h : Canon s) : Canon (answer c a s) :=
  .ite h.setChan.sendAll.markTiming h.setChan.sendAll
theorem Canon.problemLost {c : Nat} (h : Canon s) : Canon (problemLost c s) := .ite h h.answer

@[simp] theorem ends_solverBind {fn : Nat} {seq : Word} {at_ : Nat} {f : Finding} :
    Ends s (exec (.solverBind fn seq at_ f) s) :=
  .done fun h => h.onCmd fun _ h => by
    refine .ite h.fail (.ite h.fail (.ite h.fail (.ite h.setChan.reply (.ite h.setChan.reply ?_))))
    split
    next hs => exact (h.problemLost.bindEmulated hs).reply
    next => exact h.fail

theorem Canon.chanRefuse {p : Packet} (h : Canon s) : Canon (chanRefuse p s) := by
  unfold Machine.chanRefuse
  split
  · exact .ite (.ite h h.setSec.packetFault) h.packetFault
  · exact h.packetFault

theorem Canon.takeDescriptor {c : Nat} {p : Packet} {e : QEntry} (h : Canon s) : Canon (takeDescriptor c p e s) := by
  unfold Machine.takeDescriptor
  dsimp only
  split
  · exact h
  · exact h.setChan.setSec

@[simp] theorem ends_problemDescriptor {pkt : Nat} : Ends s (exec (.problemDescriptor pkt) s) :=
  .done fun h => h.arriveKeep fun _ h => by
    refine .ite_fst h.chanRefuse ?_
    split
    · exact .ite_fst h.takeDescriptor h
    · exact h

theorem Canon.startProblem {c : Nat} (h : Canon s) : Canon (startProblem c s) :=
  .ite h.putChan.answer (.ite h.putChan.answer h.putChan)
theorem Canon.takeInput {c : Nat} {p : Packet} {e : QEntry} (h : Canon s) : Canon (takeInput c p e s) :=
  .ite h.putChan.progressed.startProblem h.putChan.progressed

@[simp] theorem ends_problemInputArrived {ch pkt : Nat} : Ends s (exec (.problemInputArrived ch pkt) s) :=
  .done fun h => h.arriveKeep fun _ h => by
    dsimp only
    split
    · exact .ite_fst h.takeInput h
    · exact h

theorem Canon.quarterFinding {c w : Nat} {f : Finding} (h : Canon s) : Canon (quarterFinding c w f s) := by
  unfold Machine.quarterFinding
  refine .ite h ?_
  refine .ite ?_ ?_
  · split
    · exact h.sramFinding
    · exact h
  · refine .ite h ?_
    split
    · exact h
    · exact h.countCorrectable
    · exact h.setChan.poisonFound

@[simp] theorem ends_prologueComplete {ch word : Nat} {f : Finding} : Ends s (exec (.prologueComplete ch word f) s) :=
  .done fun h => .ite h.quarterFinding.putChan h

@[simp] theorem ends_iterationComplete {ch word : Nat} {f : Finding} :
    Ends s (exec (.iterationComplete ch word f) s) :=
  .done fun h => .ite h.quarterFinding.putChan h

@[simp] theorem ends_problemComplete {ch word : Nat} {f : Finding} : Ends s (exec (.problemComplete ch word f) s) :=
  .done fun h => .ite h.quarterFinding.putChan.answer h
@[simp] theorem ends_solverDeadline {ch : Nat} : Ends s (exec (.solverDeadline ch) s) :=
  .done fun h => .ite h.answer h
theorem Canon.engineGone {c : Nat} (h : Canon s) : Canon (engineGone s c) := .ite h h.answer
@[simp] theorem ends_unitOutOfService {unit : Nat} : Ends s (exec (.unitOutOfService unit) s) :=
  .done fun h => .ite (h.outOfService.foldl fun _ h => h.engineGone) h.outOfService

end Sys2Proof.Machine
end

