-- ==== Sys2Proof/Proofs/StepMemory.lean ====
section
/-! Every step keeps the memories canonical (O5), and every command ends in a next state but for two stops (O60). -/
namespace Sys2Proof.Machine

variable {s : State}

/-! ### One step -/

theorem Canon.tickCounts (h : Canon s) : Canon (tickCounts s) := h.frameFab.frame

theorem Canon.tick (h : Canon s) : Canon (tick s) := h.settleAll.tickCounts

/-- A bundle that issues or waits ends in a next state; one that holds a reserved setting stops the model (06 R132). -/
theorem bundleIssue_ends {k a : Nat} {f : Finding} {hit : Option ParityHit} :
    Ends s (exec (.bundleIssue k a f hit) s) ∨
      exec (.bundleIssue k a f hit) s = .fault (.reservedBundle k (s.tileOf k).pc) := by
  cases hi : canIssue s k (bundleAt s k (s.tileOf k).pc)
  case false => exact .inl ⟨s, bundleIssue_waits hi, id⟩
  case true =>
    cases hb : reservedAt s k (bundleAt s k (s.tileOf k).pc)
    case true => exact .inr (bundleIssue_reserved hi hb)
    case false =>
      refine .inl ⟨_, bundleIssue_issues hi hb, fun h => ?_⟩
      cases hit with
      | none => exact h.bundleFinding.issue
      | some p => exact h.updTile.bundleFinding.issue

/-- A JTAG instruction ends in a next state but for a vendor's own code on an unlocked part (19 R467). -/
theorem jtagInstruction_ends {c : Nat} :
    Ends s (exec (.jtagInstruction c) s) ∨
      (6 ≤ c ∧ s.sec.debugUnlocked = true ∧ exec (.jtagInstruction c) s = .fault (.vendorInstruction c)) := by
  by_cases hc : c < 6
  · simp only [exec, execJtagInstruction, hc, if_true]
    exact .inl (.done fun h => h.frame)
  · by_cases hu : s.sec.debugUnlocked = true
    · exact .inr ⟨Nat.le_of_not_lt hc, hu, by simp only [exec, execJtagInstruction, hc, hu, if_false, if_true]⟩
    · simp only [exec, execJtagInstruction, hc, hu, if_false]
      exact .inl (.done fun h => h.frame)

/-- What a command can answer; the rule of each command but the two above is its `ends_` lemma. -/
theorem exec_ends (i : Instr) : Ends s (exec i s) ∨
    (∃ k a f h, i = .bundleIssue k a f h ∧ exec i s = .fault (.reservedBundle k (s.tileOf k).pc)) ∨
    (∃ c, i = .jtagInstruction c ∧ 6 ≤ c ∧ s.sec.debugUnlocked = true ∧ exec i s = .fault (.vendorInstruction c)) := by
  cases i
  case bundleIssue k a f h => exact bundleIssue_ends.imp_right fun hf => .inl ⟨k, a, f, h, rfl, hf⟩
  case jtagInstruction c => exact jtagInstruction_ends.imp_right fun ⟨hc, hu, hf⟩ => .inr ⟨c, rfl, hc, hu, hf⟩
  all_goals exact .inl (by simp)

/-- A command that ends in a next state keeps the invariant. -/
theorem Canon.exec {i : Instr} {t : State} (h : Canon s) (ht : exec i s = .next t) : Canon t := by
  obtain ⟨u, hu, hk⟩ | ⟨_, _, _, _, _, hf⟩ | ⟨_, _, _, _, hf⟩ := exec_ends (s := s) i
  · cases hu.symm.trans ht
    exact hk h
  · cases hf.symm.trans ht
  · cases hf.symm.trans ht

/-- Settles O60: what a command can answer, without what it keeps. -/
theorem everyCommandCompletes : Obligations.EveryCommandCompletes := fun i _ =>
  (exec_ends i).imp_left fun ⟨t, ht, _⟩ => ⟨t, ht⟩

/-- Settles O5: a tick and every command keep the invariant `Canon`. -/
theorem stepKeepsMemoryCanonical : Obligations.StepKeepsMemoryCanonical := by
  intro s t hs hst
  have h : Canon s := hs
  unfold step at hst
  split at hst
  next =>
    cases hst
    exact h.tick
  next c r _ => exact Canon.exec (s := { s with pending := r }) h.frame hst

end Sys2Proof.Machine
end

