-- ==== Sys2Proof/Proofs/TallyChannelCommands.lean ====
section
/-! The commands of the mailbox on tallies, solver channels and billets (O36): TALLY_READ, TALLY_SET, SOLVER_BIND, SOLVER_UNBIND,
BILLET_SPILL and BILLET_FILL. -/
namespace Sys2Proof.Machine

variable {s : State} {fn : Nat} {seq : Word} {b : List Byte}

/-! ### TALLY_READ and TALLY_SET (09 R233) -/

theorem exec_tallyRead_badArg (h : s.asks fn seq 0x50 b = true) (ha : tallyArg s b = none) :
    exec (.tallyRead fn seq) s = .next (fail fn seq .badArg s) :=
  congrArg Host.Outcome.next ((onCmd_asks h _).trans (by simp only [ha]))

theorem exec_tallyRead {a : TallyArg} (h : s.asks fn seq 0x50 b = true) (ha : tallyArg s b = some a) :
    exec (.tallyRead fn seq) s = .next
      (reply fn seq (leBytes (tallyValue s (msgLease b) a).1 2 ++ leBytes (tallyValue s (msgLease b) a).2 2) s) :=
  congrArg Host.Outcome.next ((onCmd_asks h _).trans (by simp only [ha]))

theorem exec_tallySet_denied (h : s.asks fn seq 0x51 b = true) (hd : mayDebug s fn (msgLease b) = false) :
    exec (.tallySet fn seq) s = .next (fail fn seq .stewardRequired s) :=
  congrArg Host.Outcome.next ((onCmd_asks h _).trans (if_pos (by simp [hd])))

theorem exec_tallySet {a : TallyArg} (h : s.asks fn seq 0x51 b = true) (hd : mayDebug s fn (msgLease b) = true)
    (ha : tallyArg s b = some a) : exec (.tallySet fn seq) s = .next (reply fn seq []
      (putTally (msgLease b) a (BitVec.ofNat 16 (fieldAt b 12 2)) (markHandSet (msgLease b) s))) :=
  congrArg Host.Outcome.next ((onCmd_asks h _).trans (by simp only [hd, ha]; rfl))

/-! ### SOLVER_BIND (14 R344, R345, R348, 03 R62) -/

section
variable {a : Nat} {f : Finding} (h : s.asks fn seq 0x58 b = true) (hc : fieldAt b 8 1 < s.nChans) (hm : fieldAt b 9 1 ≤ 2)
  (hd : fieldAt b 9 1 = 0 ∨ fieldAt b 12 4 ≠ 0)
include h hc hm hd

theorem exec_solverBind_unitAbsent (hu : s.usable 27 = false) :
    exec (.solverBind fn seq a f) s = .next (fail fn seq .unitAbsent s) :=
  congrArg Host.Outcome.next ((onCmd_asks h _).trans ((if_neg (by omega)).trans (if_pos hu)))

variable (hu : s.usable 27 = true)
include hu

theorem exec_solverBind_busy {k : Nat} (hk : (s.chanOf (fieldAt b 8 1)).lease = some k) (hne : k ≠ msgLease b) :
    exec (.solverBind fn seq a f) s = .next (fail fn seq .busy s) :=
  congrArg Host.Outcome.next ((onCmd_asks h _).trans
    ((if_neg (by omega)).trans ((if_neg (by simp [hu])).trans (if_pos (by simp [hk, hne])))))

/-- A channel that the lease holds is bound again, and keeps its problem in progress. -/
theorem exec_solverBind_again (hl : (s.chanOf (fieldAt b 8 1)).lease = some (msgLease b))
    (hs : (s.chanOf (fieldAt b 8 1)).emulated = true ∨ engineServes s (fieldAt b 8 1) = true) :
    exec (.solverBind fn seq a f) s = .next (reply fn seq (bindReply (s.chanOf (fieldAt b 8 1)))
      (s.setChan (fieldAt b 8 1) (bindSettings (msgLease b) (fieldAt b 9 1) (fieldAt b 12 4) (s.chanOf (fieldAt b 8 1))))) :=
  congrArg Host.Outcome.next ((onCmd_asks h _).trans
    ((if_neg (by omega)).trans ((if_neg (by simp [hu])).trans ((if_neg (by simp [hl])).trans (if_pos ⟨hl, hs⟩)))))

theorem exec_solverBind_engine (hl : (s.chanOf (fieldAt b 8 1)).lease = none) (hs : engineServes s (fieldAt b 8 1) = true) :
    exec (.solverBind fn seq a f) s = .next (reply fn seq (bindReply {})
      (s.setChan (fieldAt b 8 1) (bindSettings (msgLease b) (fieldAt b 9 1) (fieldAt b 12 4) {}))) :=
  congrArg Host.Outcome.next ((onCmd_asks h _).trans ((if_neg (by omega)).trans
    ((if_neg (by simp [hu])).trans ((if_neg (by simp [hl])).trans ((if_neg (by simp [hl])).trans (if_pos hs))))))

theorem exec_solverBind_emulates (hl : (s.chanOf (fieldAt b 8 1)).lease = none ∨
      (s.chanOf (fieldAt b 8 1)).lease = some (msgLease b) ∧ (s.chanOf (fieldAt b 8 1)).emulated = false)
    (hs : engineServes s (fieldAt b 8 1) = false) :
    exec (.solverBind fn seq a f) s =
      .next ((bindEmulated (msgLease b) (fieldAt b 8 1) (fieldAt b 9 1) (fieldAt b 12 4) a f (problemLost (fieldAt b 8 1) s)).elim
        (fail fn seq .noSpace s) (fun t => reply fn seq (bindReply (t.chanOf (fieldAt b 8 1))) t)) := by
  refine congrArg Host.Outcome.next ((onCmd_asks h _).trans ((if_neg (by omega)).trans ((if_neg (by simp [hu])).trans
    ((if_neg ?own).trans ((if_neg ?again).trans ((if_neg (by simp [hs])).trans ?emulated))))))
  case own => obtain hl | ⟨hl, -⟩ := hl <;> simp [hl]
  case again =>
    obtain hl | ⟨-, he⟩ := hl
    · simp [hl]
    · simp [he, hs]
  case emulated => split <;> rename_i hr <;> rw [hr] <;> rfl
end

/-! ### SOLVER_UNBIND (14 R345) -/

/-- A channel that an engine serves leaves nothing but its own reset state. -/
theorem unbindChan_engine {c : Nat} (he : (s.chanOf c).emulated = false) : unbindChan s c = s.setChan c {} := by
  have hstays : endEmulation c s = s := by
    cases hl : (s.chanOf c).lease <;> simp [endEmulation, hl, he]
  rw [unbindChan, hstays]

section
variable (h : s.asks fn seq 0x59 b = true) (hc : fieldAt b 8 1 < s.nChans)
  (hl : (s.chanOf (fieldAt b 8 1)).lease = some (msgLease b))
include h hc hl

theorem exec_solverUnbind_busy (hn : chanNamed s (msgLease b) (fieldAt b 8 1) = true) :
    exec (.solverUnbind fn seq) s = .next (fail fn seq .busy s) :=
  congrArg Host.Outcome.next ((onCmd_asks h _).trans ((if_neg (by simp [hc, hl])).trans (if_pos hn)))

theorem exec_solverUnbind (hn : chanNamed s (msgLease b) (fieldAt b 8 1) = false) :
    exec (.solverUnbind fn seq) s = .next (reply fn seq [] (unbindChan s (fieldAt b 8 1))) :=
  congrArg Host.Outcome.next ((onCmd_asks h _).trans ((if_neg (by simp [hc, hl])).trans (if_neg (by simp [hn]))))
end

/-! ### BILLET_SPILL and BILLET_FILL (07 R181, R183) -/

/-- The move that the message asks for. -/
def movedBy (b : List Byte) (fill : Bool) : Move :=
  { fill := fill, lease := msgLease b, region := fieldAt b 8 1, scope := fieldAt b 9 1, hbmOff := fieldAt b 16 8 }

/-- Both commands are `moveCmd`, of their direction. -/
theorem exec_billetMove {op : Nat} {fill : Bool} {cmd : Instr}
    (hop : (op = 0x22 ∧ fill = false ∧ cmd = .billetSpill fn seq) ∨ (op = 0x23 ∧ fill = true ∧ cmd = .billetFill fn seq))
    (h : s.asks fn seq op b = true) : exec cmd s = .next (moveCmd fill fn seq b s) := by
  obtain ⟨rfl, rfl, rfl⟩ | ⟨rfl, rfl, rfl⟩ := hop <;> exact congrArg Host.Outcome.next (onCmd_asks h _)

theorem moveCmd_badArg {fill : Bool} (hm : moveOk s (movedBy b fill) = false) : moveCmd fill fn seq b s = fail fn seq .badArg s :=
  if_pos (congrArg (! ·) hm)

theorem moveCmd_busy {fill : Bool} (hm : moveOk s (movedBy b fill) = true) (hr : leaseRuns s (msgLease b) true = true) :
    moveCmd fill fn seq b s = fail fn seq .busy s :=
  (if_neg (by simpa [movedBy] using hm)).trans (if_pos hr)

theorem moveCmd_begins {fill : Bool} (hm : moveOk s (movedBy b fill) = true) (hr : leaseRuns s (msgLease b) true = false) :
    moveCmd fill fn seq b s = updFlight s fn seq (fun y => { y with wait := .move, move := some (movedBy b fill) }) :=
  (if_neg (by simpa [movedBy] using hm)).trans (if_neg (by simp [hr]))

/-! ### The statement -/

/-- Settles O36: each command by the rules above that have its name. -/
theorem tallyChannelBilletCommands : Obligations.TallyChannelBilletCommands := by
  unfold Obligations.TallyChannelBilletCommands
  intro s fn seq b
  refine ⟨fun h => ⟨exec_tallyRead_badArg h, fun a => exec_tallyRead h⟩,
    fun h => ⟨exec_tallySet_denied h, fun a => exec_tallySet h⟩, ?bind, ?unbind, ?billets⟩
  case bind =>
    refine fun h hc hm hd a f => ⟨exec_solverBind_unitAbsent h hc hm hd, fun hu => ⟨fun k => exec_solverBind_busy h hc hm hd hu,
      exec_solverBind_again h hc hm hd hu, exec_solverBind_engine h hc hm hd hu, fun hl hs => ?_⟩⟩
    rw [exec_solverBind_emulates h hc hm hd hu hl hs]
    exact ⟨fun hr => by rw [hr]; rfl, fun t hr => by rw [hr]; rfl⟩
  case unbind =>
    exact fun h hc hl => ⟨exec_solverUnbind_busy h hc hl,
      fun hn he => (exec_solverUnbind h hc hl hn).trans (by rw [unbindChan_engine he]), exec_solverUnbind h hc hl⟩
  case billets =>
    intro op fill cmd hop h
    rw [exec_billetMove hop h]
    exact ⟨fun hm => congrArg _ (moveCmd_badArg hm), fun hm hr => congrArg _ (moveCmd_busy hm hr),
      fun hm hr => congrArg _ (moveCmd_begins hm hr)⟩

end Sys2Proof.Machine
end

