-- ==== Sys2Proof/Proofs/SequencerMoves.lean ====
section
/-! RUN, run-ahead, FENCE, SPILL and FILL of a section program, and the commands that wait as they do (O40). -/
namespace Sys2Proof.Machine

variable {s : State} {h w : Nat} {p : Prog}

/-! ### RUN (12 R309 to R311) -/

theorem exec_run_places (hi : s.issues h 1 p w = true)
    (hr : (newSection s h { p with lastIssued := p.pc } p.pc w).1 = .ok) :
    exec (.run h) s =
      .next (placeRun h { p with lastIssued := p.pc } (newSection s h { p with lastIssued := p.pc } p.pc w).2 s) :=
  congrArg Host.Outcome.next ((onIssue_issues hi _).trans (if_pos hr))

theorem exec_run_stops (hi : s.issues h 1 p w = true)
    (hr : (newSection s h { p with lastIssued := p.pc } p.pc w).1 ≠ .ok) :
    exec (.run h) s = .next (settleProg
      (stopProg (s.setProg h (some { p with lastIssued := p.pc, runs := p.runs + 1 })) h (p.runs + 1) p.pc
        (newSection s h { p with lastIssued := p.pc } p.pc w).1) h) :=
  congrArg Host.Outcome.next ((onIssue_issues hi _).trans (if_neg hr))

/-! ### Run-ahead (10 R243) -/

section
variable (hp : s.progOf h = some p)
  (hb : p.wait = .br ∧ p.suspended = false ∧ p.stopping = false ∧ p.aheadSec = none ∧ s.quenched = false)
  {idx : Nat} (hx : predictedRun s p = some idx)
include hp hb hx

theorem exec_runAheadStart_makes (hr : (newSection s h p idx (instrAt p.code idx)).1 = .ok ∧
      aheadFree s (newSection s h p idx (instrAt p.code idx)).2 = true) :
    exec (.runAheadStart h) s = .next (prepareSection s.seq.nextSec
      (({ s with seq := { s.seq with nextSec := s.seq.nextSec + 1 } }.setSec s.seq.nextSec
        (some { (newSection s h p idx (instrAt p.code idx)).2 with phase := .ahead })).setProg
          h (some { p with aheadSec := some s.seq.nextSec }))).markReady := by
  refine congrArg Host.Outcome.next ?_
  simp only [hp, hx, if_pos hb, if_pos hr]

theorem exec_runAheadStart_not (hr : ¬((newSection s h p idx (instrAt p.code idx)).1 = .ok ∧
      aheadFree s (newSection s h p idx (instrAt p.code idx)).2 = true)) : exec (.runAheadStart h) s = .next s := by
  refine congrArg Host.Outcome.next ?_
  simp only [hp, hx, if_pos hb, if_neg hr]
end

/-! ### FENCE (12 R315, 15 R380, R381) -/

theorem exec_fence (hi : s.issues h 6 p w = true) :
    exec (.fence h) s = .next (s.setProg h (some { p with lastIssued := p.pc, wait := .fence, peerReads := [] })) :=
  congrArg Host.Outcome.next (onIssue_issues hi _)

section
variable (hp : s.progOf h = some p) (hw : fenceWritten s h p = true)
include hp hw

theorem exec_fenceComplete_program (hr : p.peerWins.all (fun k => p.peerReads.contains k) = true) :
    exec (.fenceComplete (.program h)) s = .next (s.setProg h (some (next p))) := by
  refine congrArg Host.Outcome.next ?_
  simp only [hp]
  exact if_pos ⟨hw, hr⟩

theorem exec_fencePeerRead_program {k : Nat} {ok : Bool} (hk : p.peerWins.contains k = true) (hr : p.peerReads.contains k = false) :
    exec (.fencePeerRead (.program h) k ok) s =
      .next ((peerRead p.lease k ok s).setProg h (some { p with peerReads := p.peerReads ++ [k] })) := by
  refine congrArg Host.Outcome.next ?_
  simp only [hp]
  exact if_pos ⟨hw, hk, hr⟩
end

section
variable {fn : Nat} {seq : Word} {x : Flight} {ids : List Nat} (hf : flightOf s fn seq = some x) (hg : writesGone s ids = true)
include hf hg

theorem exec_fenceComplete_command (hw : x.wait = .fence ids []) :
    exec (.fenceComplete (.command fn seq)) s = .next (reply fn seq [] s) := by
  refine congrArg Host.Outcome.next ?_
  simp only [hf, hw]
  exact if_pos hg

theorem exec_fencePeerRead_command {rs : List Nat} {k : Nat} {ok : Bool} (hw : x.wait = .fence ids rs) (hk : rs.contains k = true) :
    exec (.fencePeerRead (.command fn seq) k ok) s =
      .next (waitFor fn seq (.fence ids (rs.filter (fun i => i != k))) (peerRead (msgLease (entryBytes x.msg.bytes)) k ok s)) := by
  refine congrArg Host.Outcome.next ?_
  simp only [hf, hw]
  exact if_pos ⟨hg, hk⟩
end

/-! ### SPILL and FILL (07 R181 to R183, 12 R317) -/

/-- The move that instruction `w` of the program asks for. -/
def movedAt (p : Prog) (w : Nat) (fill : Bool) : Move :=
  { fill := fill, lease := p.lease, region := iRegion w, scope := iScope w, hbmOff := iHbm w }

/-- Both instructions are `issueMove`, of their direction. -/
theorem exec_issueMove {op : Nat} {fill : Bool} {c : Instr}
    (hop : (op = 8 ∧ fill = false ∧ c = .spill h) ∨ (op = 9 ∧ fill = true ∧ c = .fill h)) (hi : s.issues h op p w = true) :
    exec c s = .next (issueMove h fill { p with lastIssued := p.pc } w s) := by
  obtain ⟨rfl, rfl, rfl⟩ | ⟨rfl, rfl, rfl⟩ := hop <;> exact congrArg Host.Outcome.next (onIssue_issues hi _)

theorem issueMove_begins {fill : Bool} (hm : moveOk s (movedAt p w fill) = true) :
    issueMove h fill p w s = s.setProg h (some { p with wait := .move, move := some (movedAt p w fill), rollFrom := none }) :=
  if_pos hm

theorem issueMove_stops {fill : Bool} (hm : moveOk s (movedAt p w fill) = false) :
    issueMove h fill p w s = stopAt h p .badArg s :=
  if_neg (ne_true_of_eq_false hm)

section
variable {v : Move} {a : Nat} {f : Finding}

/-- The billets of an instruction move once its sections have ended and no other context runs on the region. -/
theorem exec_spillFillComplete_program (hp : s.progOf h = some p) (hv : p.move = some v) (hw : p.wait = .move)
    (hr : s.runningOf h = []) (ho : (residentOn s v.lease v.region && otherRuns s h v.region) = false) :
    exec (.spillFillComplete (.program h) a f) s =
      .next ((doMove v (moveFinding v a 0 f s)).setProg h (some { next p with move := none })) := by
  refine congrArg Host.Outcome.next ?_
  simp only [hp, hv]
  exact if_pos ⟨hw, by simp [hr], ho⟩

/-- Those of a command move once no section of the lease runs. -/
theorem exec_spillFillComplete_command {fn : Nat} {seq : Word} {x : Flight} (hf : flightOf s fn seq = some x) (hw : x.wait = .move)
    (hv : x.move = some v) (hr : leaseRuns s v.lease false = false) :
    exec (.spillFillComplete (.command fn seq) a f) s =
      .next (reply fn seq (leBytes (scopeBillets v.scope) 4) (doMove v (moveFinding v a 0 f s))) := by
  refine congrArg Host.Outcome.next ?_
  simp only [hf, hw, hv]
  exact if_neg (ne_true_of_eq_false hr)
end

/-! ### The statement -/

/-- Settles O40: each clause by the rule above that has its name. -/
theorem sequencerRunsAndMoves : Obligations.SequencerRunsAndMoves := by
  unfold Obligations.SequencerRunsAndMoves
  intro s h w p
  refine ⟨fun hi => ⟨exec_run_places hi, exec_run_stops hi⟩, ?ahead, exec_fence, ?fenceProgram, ?fenceCommand, ?issues,
    fun v hp hv hw hr ho a f => exec_spillFillComplete_program hp hv hw hr ho,
    fun fn seq x v hf hw hv hr a f => exec_spillFillComplete_command hf hw hv hr⟩
  case ahead =>
    exact fun hp hw hs ht ha hq idx hx =>
      have hb := ⟨hw, hs, ht, ha, hq⟩
      ⟨fun hr hf => exec_runAheadStart_makes hp hb hx ⟨hr, hf⟩, exec_runAheadStart_not hp hb hx⟩
  case fenceProgram =>
    exact fun hp hw => ⟨exec_fenceComplete_program hp hw, fun k ok => exec_fencePeerRead_program hp hw⟩
  case fenceCommand =>
    exact fun fn seq x ids hf hg => ⟨exec_fenceComplete_command hf hg, fun rs k ok => exec_fencePeerRead_command hf hg⟩
  case issues =>
    intro op fill c hop hi
    rw [exec_issueMove hop hi]
    exact ⟨fun hm => congrArg _ (issueMove_begins hm), fun hm => congrArg _ (issueMove_stops hm)⟩

end Sys2Proof.Machine
end

