-- ==== Sys2Proof/Proofs/SectionLife.lean ====
section
/-! How a section loads, starts and ends (O41): RUN_LOAD_BEGIN, SECTION_START, SECTION_END and the two monitors. -/
namespace Sys2Proof.Machine

variable {s : State} {h i : Nat} {x : Section}

/-! ### The load (12 R310) -/

/-- The status of the checks of a RUN, made again before its load. -/
def loadStatus (s : State) (x : Section) : Status := (runChecks s x.lease (secImage s x) x.origin).1

theorem mayLoad_waits (hm : mayLoad s i x = true) : x.loading = false ∧ s.quenched = false := by
  simp only [mayLoad, Bool.and_eq_true, Bool.not_eq_true'] at hm
  obtain ⟨⟨⟨⟨⟨⟨⟨hl, -⟩, -⟩, hq⟩, -⟩, -⟩, -⟩, -⟩ := hm
  exact ⟨hl, hq⟩

section
variable (hr : runOf s h = some (i, x))
include hr

theorem exec_runLoadBegin_loads (hm : mayLoad s i x = true) (hk : loadStatus s x = .ok) :
    exec (.runLoadBegin h) s = .next (beginLoad i x s) := by
  obtain ⟨hl, hq⟩ := mayLoad_waits hm
  refine congrArg Host.Outcome.next ?_
  simp only [hr]
  exact (if_neg (by simp [hl, hq])).trans ((if_neg (not_not_intro hk)).trans (if_pos hm))

theorem exec_runLoadBegin_stops (hl : x.loading = false) (hq : s.quenched = false) (hk : loadStatus s x ≠ .ok) :
    exec (.runLoadBegin h) s = .next (settleProg (stopProg s h x.tag x.instr (loadStatus s x)) h) := by
  refine congrArg Host.Outcome.next ?_
  simp only [hr]
  exact (if_neg (by simp [hl, hq])).trans (if_pos hk)

theorem exec_runLoadBegin_waits (hm : mayLoad s i x = false) (hk : loadStatus s x = .ok) :
    exec (.runLoadBegin h) s = .next s := by
  refine congrArg Host.Outcome.next ?_
  simp only [hr]
  exact ite_eq_left_iff.mpr fun _ => (if_neg (not_not_intro hk)).trans (if_neg (ne_true_of_eq_false hm))
end

/-! ### The start (11 R280) and the end (07 R178, 13 R332) -/

section
variable (hx : s.secOf i = some x)
include hx

theorem exec_sectionStart (hm : mayStartSection s i x = true) : exec (.sectionStart i) s = .next (startSection i x s) := by
  refine congrArg Host.Outcome.next ?_
  simp only [hx]
  exact if_pos hm

theorem exec_sectionStart_not (hm : mayStartSection s i x = false) : exec (.sectionStart i) s = .next s := by
  refine congrArg Host.Outcome.next ?_
  simp only [hx]
  exact if_neg (ne_true_of_eq_false hm)

theorem exec_sectionEnd_done (hp : x.phase = .running) (hd : sectionDone s i x = true) :
    exec (.sectionEnd i) s = .next (endSection (reportLeft i s) i (if x.poisoned then .poisoned else .ok)) := by
  refine congrArg Host.Outcome.next ?_
  simp only [finishSection, hx]
  exact (if_neg (by simp [hp])).trans (if_pos ⟨hp, hd⟩)

section
variable (hp : x.phase = .ending)
include hp

/-- A verdict falls once the requests and the write packets of the section are gone. -/
theorem exec_sectionEnd_verdict {st : Status} (hv : x.verdict = some st) (hq : ∀ q ∈ s.hbm.reqs, q.sec ≠ i)
    (hn : ∀ p ∈ s.fab.net, p.sec = i → p.vn ≠ vnReq) : exec (.sectionEnd i) s = .next (endSection s i st) := by
  have hnet : ∀ p ∈ s.fab.net, p.sec ≠ i ∨ p.vn ≠ vnReq := fun p hp => Decidable.not_or_of_imp (hn p hp)
  refine congrArg Host.Outcome.next ?_
  simp only [finishSection, hx]
  refine (if_pos hp).trans ((if_pos (by simpa using ⟨hq, hnet⟩)).trans ?_)
  rw [hv]
  rfl

theorem exec_sectionEnd_waits (hq : ∃ q ∈ s.hbm.reqs, q.sec = i) : exec (.sectionEnd i) s = .next s := by
  obtain ⟨q, hm, hi⟩ := hq
  refine congrArg Host.Outcome.next ?_
  simp only [finishSection, hx]
  refine (if_pos hp).trans (if_neg fun hall => ?_)
  simp only [Bool.and_eq_true, List.all_eq_true, bne_iff_ne] at hall
  obtain ⟨hgone, -⟩ := hall
  exact hgone q hm hi
end
end

/-! ### DEADLOCK and TIMEOUT (13 R329, R332 to R334) -/

/-- An event record leaves the sections alone. -/
theorem secOf_eventLease (e : Ev) (l k : Nat) : (s.eventLease e l).secOf k = s.secOf k := by
  obtain ⟨_, _, _, he⟩ := State.event_eq s { e with lease := l } (s.leaseFn l) (s.leaseFn l).isEmpty
  rw [State.eventLease, he]
  rfl

theorem secOf_dropSection (k : Nat) : (dropSection s i).secOf k = s.secOf k := rfl

/-- A running section that a check ends is ending, with the check's verdict. -/
theorem secOf_verdictOn (hx : s.secOf i = some x) (hp : x.phase = .running) (st : Status) :
    (verdictOn s i st).secOf i = some { x with phase := .ending, verdict := some st, verdictAt := s.sclk } := by
  unfold verdictOn
  rw [hx]
  exact (congrArg (State.secOf · i) (if_pos hp)).trans ((secOf_dropSection i).trans (State.secOf_setSec s i _))

theorem secOf_monitorEnds (hx : s.secOf i = some x) (hp : x.phase = .running) (st : Status) :
    ∃ y, (monitorEnds i x st s).secOf i = some y ∧ y.phase = .ending ∧ y.verdict = some st := by
  have hev := (secOf_eventLease (s := { s with free := s.free + 2 }) (sectionSnapshot s i x st) x.lease i).trans hx
  exact ⟨_, secOf_verdictOn hev hp st, rfl, rfl⟩

section
variable (hx : s.secOf i = some x)
include hx

theorem exec_progressLimit_not (hc : x.progress < progressMax) : exec (.progressLimit i) s = .next s := by
  refine congrArg Host.Outcome.next ?_
  simp only [hx]
  exact if_neg fun ⟨_, hreached, _⟩ => Nat.not_le_of_lt hc hreached

theorem exec_sectionTimeout_not (ht : timedOut s x = false) : exec (.sectionTimeout i) s = .next s := by
  refine congrArg Host.Outcome.next ?_
  simp only [hx]
  exact if_neg fun ⟨_, hout⟩ => ne_true_of_eq_false ht hout

variable (hp : x.phase = .running)
include hp

theorem exec_progressLimit_ends (hc : progressMax ≤ x.progress) (hw : workPending s i x = true) (ht : timedOut s x = false) :
    exec (.progressLimit i) s = .next (monitorEnds i x .deadlock s) := by
  refine congrArg Host.Outcome.next ?_
  simp only [hx]
  refine (if_pos ⟨hp, hc, hw⟩).trans ?_
  rw [if_neg (ne_true_of_eq_false ht)]

theorem exec_sectionTimeout_ends (ht : timedOut s x = true) : exec (.sectionTimeout i) s = .next (monitorEnds i x .timeout s) := by
  refine congrArg Host.Outcome.next ?_
  simp only [hx]
  exact if_pos ⟨hp, ht⟩
end

/-! ### The statement -/

/-- Settles O41: each clause by the rule above that has its name. -/
theorem sectionsStartAndEnd : Obligations.SectionsStartAndEnd := by
  unfold Obligations.SectionsStartAndEnd
  refine fun s i x => ⟨fun h hr => ⟨exec_runLoadBegin_loads hr, exec_runLoadBegin_stops hr, exec_runLoadBegin_waits hr⟩,
    fun hx => ⟨exec_sectionStart hx, exec_sectionStart_not hx, exec_sectionEnd_done hx,
      fun st hp hv => ?verdict, fun hp => ?monitors⟩⟩
  case verdict => exact ⟨exec_sectionEnd_verdict hx hp hv, exec_sectionEnd_waits hx hp⟩
  case monitors =>
    obtain ⟨y, hdead⟩ := secOf_monitorEnds hx hp .deadlock
    obtain ⟨z, hlate⟩ := secOf_monitorEnds hx hp .timeout
    exact ⟨fun hc hw ht => ⟨_, y, exec_progressLimit_ends hx hp hc hw ht, hdead⟩,
      fun ht => ⟨_, z, exec_sectionTimeout_ends hx hp ht, hlate⟩, exec_progressLimit_not hx, exec_sectionTimeout_not hx⟩

end Sys2Proof.Machine
end

