-- ==== Sys2Proof/Proofs/StreamRelease.lean ====
section
/-! Why a read may change SRAM (refutes O43): the release that follows the last read of a RING billet lets data that waited
for the billet land in it (07 R171, R172). -/
namespace Sys2Proof.Machine

/-! ### A RING billet with a reader, and with data that wait for it -/

/-- The only billet of memory tile 256: a RING billet that its fetch engine writes and one stream reads, CLOSED. -/
def ringBillet : Billet := { kind := 2, count := 1, writer := 0xFFFF, st := .closed, sec := 4 }
/-- A walk of one access of 64 bytes of billet 0, READ, pushed to the fabric. -/
def readDesc : SDesc := (6#1024 <<< (64 * 4 + 21)) ||| (1#1024 <<< (64 * 4 + 41))
/-- The same walk, filled from HBM. -/
def fetchDesc : SDesc := readDesc ||| (1#1024 <<< 40)
/-- The reader of billet 0. -/
def ringReader : Stream := { sec := 4, index := 0, tile := 256, desc := readDesc, phase := .running }
/-- A fetch that has issued its only request. -/
def ringFetch : Stream := { sec := 4, index := 1, tile := 256, desc := fetchDesc, phase := .done, pos := 1, outstanding := 1 }
/-- That request, whose data are back: the byte 1 for address 0 of the tile. -/
def ringData : Req :=
  { id := 0, lease := 1, sec := 4, sid := 1, write := false, isWindow := false, addr := 0, len := 1, data := [1], land := some 0,
    served := true, back := true }
/-- Section 4 runs with the two streams. -/
def ringState : State :=
  { State.reset with
    power := { State.reset.power with dies := [(0, { stopped := false })] }
    fab := { State.reset.fab with
      streams := [(0, some ringReader), (1, some ringFetch)], mtiles := [(256, { sec := 4, billets := [(0, some ringBillet)] })] }
    hbm := { State.reset.hbm with reqs := [ringData] }
    seq := { State.reset.seq with sections := [(4, some
      { prog := 6, lease := 1, slot := 0, instr := 0, roll := false, origin := 0, placed := [(0, 0)], phase := .running })] } }

theorem ringReader_runs : streamRuns ringState ringReader = true ∧ secRuns ringState ringReader.sec = true ∧
    readable ringBillet (ringReader.passes.get 0 0) = true := by decide +kernel

/-- The reader neither uses a latch, nor fetches, nor writes. -/
theorem ringReader_reads : descLatch ringReader.desc = false ∧ isFetch ringReader.desc = false ∧ isPort ringReader.desc = false ∧
    isDrain ringReader.desc = false := by decide +kernel

theorem accessAt_static {s : State} {x : Stream} {n : Nat} (h : sdIndexed x.desc.toNat = false) :
    accessAt s x n = .at_ (inBillets x.desc.toNat (walkAddr x.desc.toNat n)) := if_neg (ne_true_of_eq_false h)

theorem ringReader_accessAt : accessAt ringState ringReader ringReader.pos = .at_ (some 0) := by
  have hstatic : sdIndexed ringReader.desc.toNat = false := by decide +kernel
  have haddr : inBillets ringReader.desc.toNat (walkAddr ringReader.desc.toNat ringReader.pos) = some 0 := by decide +kernel
  rw [accessAt_static hstatic, haddr]

theorem ringReader_billetAt : billetAt ringState ringReader.sec ringReader.tile (0 / 4096) = .here ringBillet := rfl

/-- The reader has taken the 64 bytes of its access. -/
def ringTaken : State :=
  tookBytes 0 ringReader (some 0) (ringState.sramRead ringReader.tile 0 (sdUnit ringReader.desc.toNat))
    (ringState.sramPoisoned ringReader.tile 0 (sdUnit ringReader.desc.toNat))
    (ringState.sramFl ringReader.tile 0 (sdUnit ringReader.desc.toNat)) ringState

/-- Its release has made the billet EMPTY, and the byte of the fetch stands at address 0. -/
theorem ringTaken_sram : ringTaken.fab.sram = [(sramKey 256 0, 1)] ∧ ringState.fab.sram = [] := by decide +kernel

/-- Refutes O43: the last read of a RING billet releases it, and data that wait for the billet land in it within the same
access, so that the SRAM of `ringTaken` is not that of `ringState`. -/
theorem not_streamRows : ¬ Obligations.StreamRows := by
  unfold Obligations.StreamRows
  intro h
  obtain ⟨-, -, -, -, -, -, hreads⟩ := h ringState 0 ringReader rfl
  obtain ⟨hruns, hsec, hread⟩ := ringReader_runs
  obtain ⟨hlatch, hfetch, hport, hdrain⟩ := ringReader_reads
  obtain ⟨-, -, -, -, hsram⟩ :=
    hreads 0 ringBillet hruns hlatch hfetch hport hdrain hsec ringReader_accessAt ringReader_billetAt hread
  obtain ⟨hlanded, hempty⟩ := ringTaken_sram
  rw [ringTaken] at hlanded
  rw [hlanded, hempty] at hsram
  cases hsram

end Sys2Proof.Machine
end

