-- ==== Sys2Proof/Proofs/MemTileOps.lean ====
section
/-! The operations of a memory tile (O44): what arrives at the operation unit and at a stream port, and what an atomic operation
leaves in each element of its range. -/
namespace Sys2Proof.Machine

variable {s : State} {i op : Nat} {p : Packet}

/-! ### What is stored is read back (07 R180) -/

theorem Table.get_setList_mem {α : Type} [DecidableEq α] (d : α) (t : Table α) (k : Nat) (vs : List α) {j : Nat}
    (h : j < vs.length) : (t.setList d k vs).get d (k + j) = vs[j] := by
  induction vs generalizing t k j with
  | nil => cases h
  | cons v r ih =>
    cases j with
    | zero => exact (Table.get_setList_ne d _ (k + 1) k r (by omega)).trans (Table.get_set_self d t k v)
    | succ j =>
      have := ih (t.set d k v) (k + 1) (Nat.lt_of_succ_lt_succ h)
      rwa [show k + 1 + j = k + (j + 1) by omega] at this

/-- A slice of what was written, read back. -/
theorem Table.getList_setList {α : Type} [DecidableEq α] (d : α) (t : Table α) (k : Nat) (vs : List α) {o n : Nat}
    (h : o + n ≤ vs.length) : Table.getList d (t.setList d k vs) (k + o) n = (vs.drop o).take n := by
  induction n generalizing o with
  | zero => rfl
  | succ n ih =>
    rw [Table.getList, Table.get_setList_mem d t k vs (by omega), Nat.add_assoc, ih (by omega),
      List.drop_eq_getElem_cons (by omega : o < vs.length), List.take_succ_cons]

/-- The `k`-th of pieces of one size. -/
theorem drop_take_flatMap {α β : Type} {g : α → List β} {c : Nat} (hg : ∀ x, (g x).length = c) (l : List α) {k : Nat}
    (h : k < l.length) : ((l.flatMap g).drop (c * k)).take c = g l[k] := by
  induction l generalizing k with
  | nil => cases h
  | cons x r ih =>
    cases k with
    | zero => simp [hg]
    | succ k =>
      have := ih (Nat.lt_of_succ_lt_succ h)
      rw [List.flatMap_cons, Nat.mul_succ, Nat.add_comm, ← List.drop_drop, List.drop_append_of_le_length (hg x).ge]
      simpa [← hg x] using this

/-! ### What an operation leaves alone

Each operation has one rule, named after it: from `h : SameStores r s` it gives `SameStores r` of the answer, so that a chain of
operations is a chain of rules. -/

/-- The host's side, HBM, the leases and the SRAM bytes of `s` are those of `r`. -/
structure SameStores (r s : State) : Prop where
  host : s.host = r.host
  hbm : s.hbm = r.hbm
  own : s.own = r.own
  sram : s.fab.sram = r.fab.sram

section
variable {r : State} {t : Nat}

theorem SameStores.refl (s : State) : SameStores s s := ⟨rfl, rfl, rfl, rfl⟩

theorem SameStores.ite {c : Prop} [Decidable c] {u v : State} (hu : SameStores r u) (hv : SameStores r v) :
    SameStores r (if c then u else v) := by
  split
  · exact hu
  · exact hv

theorem SameStores.foldl {α : Type} {f : State → α → State} {l : List α} (h : SameStores r s)
    (hf : ∀ {u} x, SameStores r u → SameStores r (f u x)) : SameStores r (l.foldl f s) := by
  induction l generalizing s with
  | nil => exact h
  | cons x l ih => exact ih (hf x h)

/-- An update of the fabric beside the bytes of its tiles. -/
theorem SameStores.fabric {fab : Fabric} (h : SameStores r s) (hf : fab.sram = s.fab.sram) : SameStores r { s with fab := fab } :=
  ⟨h.host, h.hbm, h.own, hf.trans h.sram⟩

theorem SameStores.setMTile {x : MTile} (h : SameStores r s) : SameStores r (s.setMTile t x) := h.fabric rfl
theorem SameStores.setStream {k : Nat} {x : Option Stream} (h : SameStores r s) : SameStores r (s.setStream k x) := h.fabric rfl
theorem SameStores.sendAll {ps : List Packet} (h : SameStores r s) : SameStores r (s.sendAll ps) := h.fabric rfl
theorem SameStores.setSramPoison {m : Table Bool} (h : SameStores r s) : SameStores r (s.setSramPoison m) := h.fabric rfl
theorem SameStores.setSec {k : Nat} {x : Option Section} (h : SameStores r s) : SameStores r (s.setSec k x) :=
  ⟨h.host, h.hbm, h.own, h.sram⟩

theorem SameStores.markReady (h : SameStores r s) : SameStores r s.markReady := h.foldl fun _ h => h.setStream

theorem SameStores.progressed {k : Nat} (h : SameStores r s) : SameStores r (progressed s k) := by
  unfold Machine.progressed
  split
  · exact h.setSec
  · exact h

theorem SameStores.fireWatch {w n : Nat} (h : SameStores r s) : SameStores r (fireWatch t w n s) := by
  induction n generalizing s with
  | zero => exact h
  | succ n ih => exact .ite (ih h.setMTile.sendAll) h

theorem SameStores.fireWatches {j : Nat} (h : SameStores r s) : SameStores r (fireWatches t j s) :=
  .ite (h.foldl fun _ h => .ite h.fireWatch h) h

theorem SameStores.setTally {j : Nat} {v : Half} (h : SameStores r s) : SameStores r (setTally t j v s) :=
  h.setMTile.fireWatches.markReady

theorem SameStores.addTails {j n : Nat} (h : SameStores r s) : SameStores r (addTails t j n s) :=
  .ite h.setMTile (.ite h.setMTile h.setMTile.setTally)

theorem SameStores.sramFlWrite {a n : Nat} {fl : List (BitVec 5)} (h : SameStores r s) : SameStores r (s.sramFlWrite t a n fl) :=
  .ite h (h.fabric rfl)

theorem SameStores.sramMark {a n : Nat} {p : Bool} (h : SameStores r s) : SameStores r (s.sramMark t a n p) :=
  .ite h h.setSramPoison

theorem SameStores.sramClearWhole {a n : Nat} (h : SameStores r s) : SameStores r (s.sramClearWhole t a n) :=
  .ite h.setSramPoison h

/-- A write to a tile's SRAM changes its bytes, and beside them only marks. -/
theorem SameStores.sramWrite (s : State) (t a : Nat) (bs : List Byte) (poison : Bool) :
    SameStores (s.setSram (Table.setList 0 s.fab.sram (sramKey t a) bs)) (s.sramWrite t a bs poison) :=
  have h := (SameStores.refl (s.setSram (Table.setList 0 s.fab.sram (sramKey t a) bs))).sramClearWhole
  .ite h.sramMark h

theorem SameStores.writeKeeping (s : State) (t a : Nat) (bs : List Byte) (poison : Bool) :
    SameStores (s.setSram (Table.setList 0 s.fab.sram (sramKey t a) bs)) (writeKeeping t a bs poison s) :=
  (SameStores.sramWrite s t a bs poison).foldl fun _ h => h.sramMark

/-- Where SRAM has changed from `r`, and nothing else of the four has, `s` has its own SRAM. -/
theorem SameStores.ownSram {m : Table Byte} (h : SameStores (r.setSram m) s) : SameStores (r.setSram s.fab.sram) s :=
  ⟨h.host, h.hbm, h.own, rfl⟩

end

theorem sram_sramWrite (s : State) (t a : Nat) (bs : List Byte) (poison : Bool) :
    (s.sramWrite t a bs poison).fab.sram = Table.setList 0 s.fab.sram (sramKey t a) bs := (SameStores.sramWrite s t a bs poison).sram

theorem sram_writeKeeping (s : State) (t a : Nat) (bs : List Byte) (poison : Bool) :
    (writeKeeping t a bs poison s).fab.sram = Table.setList 0 s.fab.sram (sramKey t a) bs :=
  (SameStores.writeKeeping s t a bs poison).sram

/-! ### The elements of an atomic operation (07 R165) -/

/-- Element `k` of an atomic operation's range holds the combination, modulo 2^32. -/
theorem sramRead_atomicAt {t a k : Nat} {fp : Nat → Bool} {bs : List Byte} {poison : Bool} (hk : 4 * k + 4 ≤ bs.length) :
    leNat ((atomicAt t a op fp bs poison s).sramRead t (a + 4 * k) 4) =
      atomOp op (fp (a + 4 * k)) (leNat (s.sramRead t (a + 4 * k) 4)) (fieldAt bs (4 * k) 4) % 2 ^ 32 := by
  have hn : k < (upTo (bs.length / 4)).length := by simp only [upTo, List.length_range]; omega
  have hlen : ∀ l : List Nat, ∀ g : Nat → Nat, (l.flatMap fun k => leBytes (g k) 4).length = 4 * l.length := by
    intro l g
    simp [List.length_flatMap, Nat.mul_comm]
  rw [State.sramRead, atomicAt, sram_writeKeeping, show sramKey t (a + 4 * k) = sramKey t a + 4 * k from
    (Nat.add_assoc _ _ _).symm, Table.getList_setList _ _ _ _ (by rw [hlen]; omega),
    drop_take_flatMap (fun _ => length_leBytes _ _) _ hn, leNat_leBytes]
  simp [upTo]

/-! ### The operation unit (07 R164, R165, R170) -/

/-- What the operation unit stores for operation `op` at `addr`. -/
def unitStored (op t addr : Nat) (data : List Byte) (poison : Bool) (s : State) : State :=
  if op = 1 then s.sramWrite t addr data poison
  else if op = 4 then saddAt t addr
    { (Compact.ofBytes data).decode with poison := (Compact.ofBytes data).decode.poison || poison } s
  else if op = 8 then s
  else atomicAt t addr op (fun a => Config.mtFp (2097152 * t + a)) data poison s

section
variable {t addr : Nat} {data : List Byte} {poison : Bool}

theorem unitStored_atomic (h1 : op ≠ 1) (h4 : op ≠ 4) (h8 : op ≠ 8) : unitStored op t addr data poison s =
    atomicAt t addr op (fun a => Config.mtFp (2097152 * t + a)) data poison s :=
  (if_neg h1).trans ((if_neg h4).trans (if_neg h8))

/-- Beside SRAM it changes marks at most. -/
theorem unitStored_frame :
    SameStores (s.setSram (unitStored op t addr data poison s).fab.sram) (unitStored op t addr data poison s) := by
  unfold unitStored
  split_ifs
  · exact (SameStores.sramWrite ..).ownSram
  · exact (SameStores.writeKeeping ..).ownSram
  · exact ⟨rfl, rfl, rfl, rfl⟩
  · exact (SameStores.writeKeeping ..).ownSram

/-- What it stores depends on the bytes and marks of SRAM alone. -/
theorem sram_unitStored_congr {u : State} (h : u.fab.sram = s.fab.sram) (hp : u.fab.sramPoison = s.fab.sramPoison) :
    (unitStored op t addr data poison u).fab.sram = (unitStored op t addr data poison s).fab.sram := by
  unfold unitStored
  split_ifs
  · simp only [sram_sramWrite, h]
  · simp only [saddAt, sram_writeKeeping, State.sramRead, State.sramPoisoned, h, hp]
  · exact h
  · simp only [atomicAt, sram_writeKeeping, State.sramRead, h]

/-- From `s` to `t` only memory tiles may change. -/
def onlyMTiles (s t : State) : Prop := ∃ m, t = { s with fab := { s.fab with mtiles := m } }

theorem onlyMTiles_refl (s : State) : onlyMTiles s s := ⟨_, rfl⟩

theorem onlyMTiles_setBillet {u : State} {t k : Nat} {b : Billet} (h : onlyMTiles s u) : onlyMTiles s (setBillet t k b u) := by
  obtain ⟨_, rfl⟩ := h
  exact ⟨_, rfl⟩

theorem onlyMTiles_foldl {α : Type} {f : State → α → State} {l : List α} {u : State} (h : onlyMTiles s u)
    (hf : ∀ {u} x, onlyMTiles s u → onlyMTiles s (f u x)) : onlyMTiles s (l.foldl f u) := by
  induction l generalizing u with
  | nil => exact h
  | cons x l ih => exact ih (hf x h)

/-- A change of memory tiles alone does not change what is stored. -/
theorem unitStored_onlyMTiles {u : State} (h : onlyMTiles s u) :
    SameStores (s.setSram (unitStored op t addr data poison s).fab.sram) (unitStored op t addr data poison u) := by
  have hframe := unitStored_frame (op := op) (t := t) (addr := addr) (data := data) (poison := poison) (s := u)
  obtain ⟨_, rfl⟩ := h
  exact ⟨hframe.host, hframe.hbm, hframe.own, sram_unitStored_congr rfl rfl⟩

/-- A request whose billets all accept it is performed at once. -/
theorem unitTake_performs {fl : List (BitVec 5)} (hpl : p.pl = .mt addr data poison fl) (hok : mtOk p.op addr data = true)
    (hgate : ∀ k, addr / 4096 ≤ k → k ≤ (addr + max (mtSpan p.op data) 1 - 1) / 4096 →
      ∃ b, billetAt s (s.mtileOf (epTile p.dst)).sec (epTile p.dst) k = .here b ∧ writeGate b p.src (opKind p.op) = .accept) :
    (unitTake p s).2 = none ∧
      SameStores (s.setSram (unitStored p.op (epTile p.dst) addr data poison s).fab.sram) (unitTake p s).1 := by
  unfold unitTake
  extract_lets t sec k gate
  split
  next addr' data' poison' fl' h =>
    cases hpl.symm.trans h
    rw [if_neg (by simp [hok])]
    extract_lets n bils s1 v s2 s3
    split
    next j hj =>
      obtain ⟨k, hk, rfl⟩ := List.mem_map.mp (List.mem_of_find?_eq_some hj)
      obtain ⟨b, hb, hacc⟩ := hgate (addr / 4096 + k) (by omega) (by simp only [upTo, List.mem_range] at hk; omega)
      have hrefused := List.find?_some hj
      have haccept : gate (addr / 4096 + k) = .accept := by
        unfold gate
        rw [hb]
        exact hacc
      simp [haccept] at hrefused
    next =>
      refine ⟨rfl, ?_⟩
      have hopened : onlyMTiles s s1 := by
        unfold s1
        split
        · exact onlyMTiles_refl s
        · refine onlyMTiles_foldl (onlyMTiles_refl s) fun x h => ?_
          split
          · exact onlyMTiles_setBillet h
          · exact h
      have hstored : SameStores (s.setSram (unitStored p.op t addr data poison s).fab.sram) s2 := by
        have h := unitStored_onlyMTiles (op := p.op) (t := t) (addr := addr) (data := data) (poison := poison) hopened
        unfold s2
        split
        next ho => rw [ho] at h ⊢; exact h.sramFlWrite
        next ho => rw [ho] at h ⊢; exact h
        next ho => rw [ho] at h ⊢; exact h
        next h1 h4 h8 =>
          rw [unitStored_atomic (s := s1) h1 h4 h8] at h
          exact h.sramFlWrite
      have hclosed : SameStores (s.setSram (unitStored p.op t addr data poison s).fab.sram) s3 := by
        refine .ite (hstored.foldl fun x h => ?_) hstored
        split
        · exact h.setMTile
        · exact h
      exact .progressed (.ite hclosed.addTails hclosed)
  next hne => exact absurd hpl (hne _ _ _ _)
end

/-! ### What a row takes (07 R163, R164, 06 R138) -/

/-- What a row of operation `op` does with a packet that it takes. -/
def mtTake (op : Nat) (p : Packet) (s : State) : State × Option Packet :=
  if mtRefused s p then (packetFault s p, none)
  else if forUnit p then unitTake p s
  else if emptyData p then (progressed (packetEnd p false none s) p.sec, none)
  else if op = 4 then reduceTake p s
  else portTake p s

theorem mtArrive_eq : mtArrive op i s =
    arriveKeep i (fun p => (mtOp s p == some op && !(writeBehind s i p)) || (op == 1 && mtRefused s p)) (mtTake op) s := rfl

/-- What leaves a packet over puts it back in its place. -/
theorem arriveKeep_leaves {t : State} {q : Packet} {ok : Packet → Bool} {act : Packet → State → State × Option Packet}
    (hp : s.mayArrive i p = true) (hk : ok p = true) (h : act p (s.offNet i) = (t, some q)) : arriveKeep i ok act s = t.putNet i q := by
  rw [arriveKeep_mayArrive hp hk, h]

theorem mayArrive_at (hp : s.mayArrive i p = true) : s.fab.net[i]? = some p := by
  simp only [State.mayArrive, Bool.and_eq_true, beq_iff_eq] at hp
  obtain ⟨⟨⟨⟨⟨⟨hat, -⟩, -⟩, -⟩, -⟩, -⟩, -⟩ := hp
  exact hat

section
variable (hp : s.mayArrive i p = true) (ho : mtOp s p = some op) (hw : writeBehind s i p = false)
include hp ho hw

theorem mtArrive_whole {u : State} (h : mtTake op p (s.offNet i) = (u, none)) : mtArrive op i s = u := by
  rw [mtArrive_eq]
  exact arriveKeep_takes hp (by simp [ho, hw]) h

theorem mtArrive_rest {u : State} {r : Packet} (h : mtTake op p (s.offNet i) = (u, some r)) : mtArrive op i s = u.putNet i r := by
  rw [mtArrive_eq]
  exact arriveKeep_leaves hp (by simp [ho, hw]) h
end

/-- Taking a packet off the network refuses no other. -/
theorem mtRefused_offNet : mtRefused (s.offNet i) p = mtRefused s p := rfl

/-- A refused packet is discarded and reported. -/
theorem mtArrive_refused (hp : s.mayArrive i p = true) (hr : mtRefused s p = true) : mtArrive 1 i s = packetFault (s.offNet i) p := by
  rw [mtArrive_eq]
  exact arriveKeep_takes hp (by simp [hr]) (if_pos (mtRefused_offNet.trans hr))

section
variable (hu : forUnit p = true)
include hu

theorem mtOp_unit (he : toEmulation s p = false) : mtOp s p = some p.op := by simp [mtOp, he, hu]

variable (ho : p.op = 1 ∨ 4 ≤ p.op ∧ p.op ≤ 8)
include ho

theorem mtRefused_unit : mtRefused s p = false := by
  simp only [forUnit, Bool.and_eq_true, beq_iff_eq] at hu
  obtain ⟨⟨⟨hv, hk⟩, hd⟩, hport⟩ := hu
  have hops : ¬(((p.op = 0 ∨ p.op = 2) ∨ p.op = 3) ∨ 8 < p.op) := by omega
  simpa [mtRefused, forPort, hv, hk, hd, hport, vnReq, vnStream] using fun _ => hops

theorem mtTake_unit : mtTake p.op p s = unitTake p s :=
  (if_neg (ne_true_of_eq_false (mtRefused_unit hu ho))).trans (if_pos hu)
end

section
variable (hf : forPort p = true)
include hf

theorem forUnit_of_forPort : forUnit p = false := by
  simp only [forPort, Bool.and_eq_true, beq_iff_eq] at hf
  obtain ⟨⟨⟨hv, -⟩, -⟩, -⟩ := hf
  simp [forUnit, hv, vnStream, vnReq]

theorem mtRefused_port (ht : portTakes s p = true) (hop : p.op ≤ 8) : mtRefused s p = false := by
  simp only [forPort, Bool.and_eq_true, decide_eq_true_eq, beq_iff_eq] at hf
  obtain ⟨⟨⟨hv, -⟩, hport⟩, -⟩ := hf
  simp [mtRefused, ht, hv, vnStream, vnReq, Nat.not_lt.mpr hop, Nat.not_lt.mpr hport]

variable (hn : emptyData p = false)
include hn

theorem mtOp_port (he : toEmulation s p = false) {sid : Nat} {x : Stream} (hs : portStream s (epTile p.dst) p.port = some (sid, x))
    (h0 : sdOp x.desc.toNat ≠ 0) (h2 : sdOp x.desc.toNat ≠ 2) : mtOp s p = some (sdOp x.desc.toNat) := by
  simp [mtOp, he, forUnit_of_forPort hf, hf, hn, hs, h0, h2]

variable (ht : portTakes s p = true) (hop : p.op ≤ 8)
include ht hop

theorem mtTake_port (ho : op ≠ 4) : mtTake op p s = portTake p s := by
  simp [mtTake, mtRefused_port hf ht hop, forUnit_of_forPort hf, hn, ho]

theorem mtTake_reduce : mtTake 4 p s = reduceTake p s := by
  simp [mtTake, mtRefused_port hf ht hop, forUnit_of_forPort hf, hn]
end

/-! ### The commands -/

/-- The commands for a request of each operation at the operation unit. -/
def unitOps (i : Nat) : List (Nat × Instr) :=
  [(1, .mtWrite i), (4, .mtSadd i 0 .clean), (5, .mtIadd i 0 .clean), (6, .mtMax i 0 .clean), (7, .mtMin i 0 .clean), (8, .mtClose i)]

theorem exec_unitOps {c : Instr} (h : (op, c) ∈ unitOps i) : exec c s = .next (mtArrive op i s) := by
  simp only [unitOps, List.mem_cons, Prod.mk.injEq, List.not_mem_nil, or_false] at h
  obtain ⟨rfl, rfl⟩ | ⟨rfl, rfl⟩ | ⟨rfl, rfl⟩ | ⟨rfl, rfl⟩ | ⟨rfl, rfl⟩ | ⟨rfl, rfl⟩ := h <;> rfl

theorem unitOps_op {c : Instr} (h : (op, c) ∈ unitOps i) : op = 1 ∨ 4 ≤ op ∧ op ≤ 8 := by
  simp only [unitOps, List.mem_cons, Prod.mk.injEq, List.not_mem_nil, or_false] at h
  omega

/-- A request whose billets all accept it is performed, and stores what its operation says. -/
theorem exec_unitOps_performs (hp : s.mayArrive i p = true) (he : toEmulation s p = false) (hw : writeBehind s i p = false)
    {addr : Nat} {data : List Byte} {poison : Bool} {fl : List (BitVec 5)} {c : Instr} (hu : forUnit p = true)
    (hpl : p.pl = .mt addr data poison fl) (hok : mtOk p.op addr data = true) (hc : (p.op, c) ∈ unitOps i)
    (hgate : ∀ k, addr / 4096 ≤ k → k ≤ (addr + max (mtSpan p.op data) 1 - 1) / 4096 →
      ∃ b, billetAt s (s.mtileOf (epTile p.dst)).sec (epTile p.dst) k = .here b ∧ writeGate b p.src (opKind p.op) = .accept) :
    ∃ u, exec c s = .next u ∧ u.host = s.host ∧ u.hbm = s.hbm ∧ u.own = s.own ∧
      u.fab.sram = (unitStored p.op (epTile p.dst) addr data poison s).fab.sram := by
  obtain ⟨hwhole, hstores⟩ := unitTake_performs (s := s.offNet i) hpl hok hgate
  have hunit : unitTake p (s.offNet i) = ((unitTake p (s.offNet i)).1, none) := Prod.ext rfl hwhole
  have htake := (mtTake_unit hu (unitOps_op hc)).trans hunit
  exact ⟨_, (exec_unitOps hc).trans (congrArg _ (mtArrive_whole hp (mtOp_unit hu he) hw htake)), hstores.host,
    hstores.hbm, hstores.own, hstores.sram.trans (sram_unitStored_congr rfl rfl)⟩

/-- The commands for a packet that stream `sid` takes at its port. -/
def portOps (sid i : Nat) : List (Nat × Instr) :=
  [(1, .mtWrite i), (3, .mtScatter sid i .clean), (5, .mtIadd i 0 .clean), (6, .mtMax i 0 .clean), (7, .mtMin i 0 .clean),
    (8, .mtClose i)]

theorem exec_portOps (hp : s.mayArrive i p = true) {sid : Nat} {x : Stream} {c : Instr}
    (hs : portStream s (epTile p.dst) p.port = some (sid, x)) (h : (op, c) ∈ portOps sid i) :
    exec c s = .next (mtArrive op i s) := by
  simp only [portOps, List.mem_cons, Prod.mk.injEq, List.not_mem_nil, or_false] at h
  obtain ⟨rfl, rfl⟩ | ⟨rfl, rfl⟩ | ⟨rfl, rfl⟩ | ⟨rfl, rfl⟩ | ⟨rfl, rfl⟩ | ⟨rfl, rfl⟩ := h
  case inr.inl =>
    refine congrArg Host.Outcome.next ?_
    simp only [mayArrive_at hp, hs]
    exact if_pos rfl
  all_goals rfl

theorem portOps_op {sid : Nat} {c : Instr} (h : (op, c) ∈ portOps sid i) : op ≠ 0 ∧ op ≠ 2 ∧ op ≠ 4 := by
  simp only [portOps, List.mem_cons, Prod.mk.injEq, List.not_mem_nil, or_false] at h
  omega

/-! ### The statement -/

/-- Settles O44: the operation unit by `exec_unitOps_performs`, a stream port by what it takes of the packet, the findings of the
atomics and their elements by the rules above. -/
theorem memoryTileOperations : Obligations.MemoryTileOperations := by
  unfold Obligations.MemoryTileOperations
  refine ⟨fun s i p hp he hw => ⟨?unit, ?port, ?reduce, ?refused⟩, fun s i a f => ⟨rfl, rfl, rfl, rfl⟩,
    fun s t a op fp bs poison k _ hk => sramRead_atomicAt hk, fun fp x y => rfl⟩
  case unit => exact fun addr data poison fl c hu hpl hok hc hgate => exec_unitOps_performs hp he hw hu hpl hok hc hgate
  case port =>
    intro sid x op c hf ht hn hop hs hc hx
    obtain ⟨h0, h2, h4⟩ := portOps_op hc
    have ho : mtOp s p = some op := hx ▸ mtOp_port hf hn he hs (hx ▸ h0) (hx ▸ h2)
    have htake : mtTake op p (s.offNet i) = portTake p (s.offNet i) := mtTake_port hf hn ht hop h4
    rw [exec_portOps hp hs hc]
    exact ⟨fun u h => congrArg _ (mtArrive_whole hp ho hw (htake.trans h)),
      fun u r h => congrArg _ (mtArrive_rest hp ho hw (htake.trans h))⟩
  case reduce =>
    intro sid x hf ht hn hop hs hx
    have ho : mtOp s p = some 4 := hx ▸ mtOp_port hf hn he hs (by omega) (by omega)
    have htake : mtTake 4 p (s.offNet i) = reduceTake p (s.offNet i) := mtTake_reduce hf hn ht hop
    exact ⟨fun u h => congrArg Host.Outcome.next (mtArrive_whole hp ho hw (htake.trans h)),
      fun u r h => congrArg Host.Outcome.next (mtArrive_rest hp ho hw (htake.trans h))⟩
  case refused => exact fun hr => congrArg Host.Outcome.next (mtArrive_refused hp hr)

end Sys2Proof.Machine
end

