-- ==== Sys2Proof/Proofs/FabricSignals.lean ====
section
/-! Signals to fabric tallies, fabric latches, barriers and drain markers (O45). -/
namespace Sys2Proof.Machine

variable {s : State} {i t j n : Nat} {p : Packet}

/-! ### A signal to a fabric tally (09 R212, R213, R220) -/

theorem mtileOf_markReady : s.markReady.mtileOf t = s.mtileOf t :=
  List.foldlRecOn (motive := fun u : State => u.mtileOf t = s.mtileOf t) _ _ rfl fun _ h _ _ => h

theorem mtileOf_sendAll {ps : List Packet} : (s.sendAll ps).mtileOf t = s.mtileOf t := rfl

theorem mtileOf_progressed {k : Nat} : (progressed s k).mtileOf t = s.mtileOf t := by
  unfold progressed
  split <;> rfl

/-- A watch that fires counts its firing in its tile, whose tallies stand. -/
theorem tally_fireWatch {w : Nat} : ((fireWatch t w n s).mtileOf t).tally = (s.mtileOf t).tally := by
  induction n generalizing s with
  | zero => rfl
  | succ n ih =>
    unfold fireWatch
    extract_lets m k
    split
    · rw [ih, mtileOf_sendAll, State.mtileOf_setMTile]
    · rfl

theorem tally_fireWatches : ((fireWatches t j s).mtileOf t).tally = (s.mtileOf t).tally := by
  unfold fireWatches
  split
  · refine List.foldlRecOn (motive := fun u : State => (u.mtileOf t).tally = (s.mtileOf t).tally) _ _ rfl fun u h w _ => ?_
    split
    · exact tally_fireWatch.trans h
    · exact h
  · rfl

/-- The watches that a tally's new value fires leave it, and every other tally of its tile, as it stands. -/
theorem tally_setTally {v : Half} : ((setTally t j v s).mtileOf t).tally = (s.mtileOf t).tally.set 0 j v := by
  rw [setTally, mtileOf_markReady, tally_fireWatches, State.mtileOf_setMTile]

/-- From `s` to `u`, tally `j` of memory tile `t` has risen by `n`; the other tallies of the tile, HBM and SRAM stand. -/
def tallyRaised (t j n : Nat) (s u : State) : Prop :=
  (u.mtileOf t).tally.get 0 j = (s.mtileOf t).tally.get 0 j + BitVec.ofNat 16 n ∧
    (∀ k, k ≠ j → (u.mtileOf t).tally.get 0 k = (s.mtileOf t).tally.get 0 k) ∧ u.hbm = s.hbm ∧ u.fab.sram = s.fab.sram

theorem tallyRaised_addTally {k : Nat} : tallyRaised t j n s (progressed (addTally t j n s) k) := by
  have hstores : SameStores s (progressed (addTally t j n s) k) := (SameStores.refl s).setTally.progressed
  have htally : ((progressed (addTally t j n s) k).mtileOf t).tally =
      (s.mtileOf t).tally.set 0 j ((s.mtileOf t).tally.get 0 j + BitVec.ofNat 16 n) := by
    rw [mtileOf_progressed, addTally, tally_setTally]
  unfold tallyRaised
  rw [htally]
  exact ⟨Table.get_set_self .., fun _ hk => Table.get_set_ne 0 _ _ hk, hstores.hbm, hstores.sram⟩

section
variable (hs : p.pl = .signal j n) (hm : epIsMem p.dst = true) (hj : j < 64) (hl : regLease s (tileRegion (epTile p.dst)) = p.lease)
include hm hj hl

theorem applySignal_fabric : applySignal j n p s = addTally (epTile p.dst) j n s := (if_pos hm).trans (if_pos ⟨hj, hl⟩)

include hs

theorem tallySigTake_fabric (ho : p.port = 16) : tallySigTake p s = progressed (addTally (epTile p.dst) j n s) p.sec := by
  simp [tallySigTake, hs, ho, applySignal_fabric hm hj hl]

theorem stallyTake_fabric (ho : p.port = 16 ∨ p.port ≤ 4 ∧ portTakes s p = true) :
    stallyTake p s = progressed (addTally (epTile p.dst) j n s) p.sec := by
  have haccepted : ¬(epIsMem p.dst && p.port != 16 && (decide (4 < p.port) || !portTakes s p)) = true := by
    obtain ho | ⟨hle, ht⟩ := ho
    · simp [ho]
    · simp [ht, hle]
  simp only [stallyTake, hs, if_neg haccepted, applySignal_fabric hm hj hl]

variable (hp : s.mayArrive i p = true)
include hp

theorem exec_tallySigArrival_fabric (hv : p.vn = vnCtl) (hk : p.kind = 1) (ho : p.port = 16) :
    ∃ u, exec (.tallySigArrival i) s = .next u ∧ tallyRaised (epTile p.dst) j n s u :=
  ⟨_, congrArg Host.Outcome.next ((arrive_mayArrive hp (by simp [hv, hk]) _).trans (tallySigTake_fabric hs hm hj hl ho)),
    tallyRaised_addTally⟩

theorem exec_stallyArrival_fabric (hv : p.vn = vnStream) (hk : p.kind = 2)
    (ho : p.port = 16 ∨ p.port ≤ 4 ∧ portTakes s p = true) (hh : epIsHub p.dst = false) :
    ∃ u, exec (.stallyArrival i) s = .next u ∧ tallyRaised (epTile p.dst) j n s u :=
  ⟨_, congrArg Host.Outcome.next ((arrive_mayArrive hp (by simp [hv, hk, hh]) _).trans (stallyTake_fabric hs hm hj hl ho)),
    tallyRaised_addTally⟩
end

/-! ### Latches (09 R226, R227) -/

/-- Latch `j` of the memory tile that a packet goes to. -/
def latchAt (s : State) (p : Packet) (j : Nat) : FLatch := (s.mtileOf (epTile p.dst)).latch.get {} j
/-- The packet's source holds the latch. -/
def heldBy (x : FLatch) (p : Packet) : Bool := x.held && x.holder == 64 * p.src + p.ref
/-- The latch stands as `y`, and is granted to the requester whose turn it is. -/
def latchBecomes (s : State) (p : Packet) (j : Nat) (y : FLatch) : State :=
  progressed (grantLatch (epTile p.dst) j (s.setMTile (epTile p.dst) { s.mtileOf (epTile p.dst) with
    latch := (s.mtileOf (epTile p.dst)).latch.set {} j y })) p.sec

section
variable {a : Nat} {b : Bool} (hl : p.pl = .latch j a b)
include hl

theorem latchAcqTake_eq : latchAcqTake p s =
    if !latchNamed s p j || (latchAt s p j).asked.contains (p.src, p.ref) || heldBy (latchAt s p j) p then packetFault s p
    else latchBecomes s p j { latchAt s p j with asked := (latchAt s p j).asked ++ [(p.src, p.ref)] } := by
  simp only [latchAcqTake, hl]
  rfl

theorem latchAcqTake_asks (hn : latchNamed s p j = true) (ha : (latchAt s p j).asked.contains (p.src, p.ref) = false)
    (hh : heldBy (latchAt s p j) p = false) : latchAcqTake p s =
      latchBecomes s p j { latchAt s p j with asked := (latchAt s p j).asked ++ [(p.src, p.ref)] } := by
  rw [latchAcqTake_eq hl, hn, ha, hh]
  rfl

theorem latchAcqTake_discards (h : latchNamed s p j = false ∨ (latchAt s p j).asked.contains (p.src, p.ref) = true ∨
    heldBy (latchAt s p j) p = true) : latchAcqTake p s = packetFault s p := by
  rw [latchAcqTake_eq hl]
  exact if_pos (by simpa only [Bool.or_eq_true, Bool.not_eq_true', or_assoc] using h)

theorem latchRelTake_eq : latchRelTake p s =
    if !latchNamed s p j || !heldBy (latchAt s p j) p then packetFault s p
    else latchBecomes s p j { latchAt s p j with
      held := false, abandoned := false, pos := ((latchAt s p j).pos + 1) % latchLen s (epTile p.dst) j } := by
  simp only [latchRelTake, hl]
  rfl

theorem latchRelTake_frees (hn : latchNamed s p j = true) (hh : heldBy (latchAt s p j) p = true) : latchRelTake p s =
    latchBecomes s p j { latchAt s p j with
      held := false, abandoned := false, pos := ((latchAt s p j).pos + 1) % latchLen s (epTile p.dst) j } := by
  rw [latchRelTake_eq hl, hn, hh]
  rfl

theorem latchRelTake_discards (h : latchNamed s p j = false ∨ heldBy (latchAt s p j) p = false) :
    latchRelTake p s = packetFault s p := by
  rw [latchRelTake_eq hl]
  exact if_pos (by simpa only [Bool.or_eq_true, Bool.not_eq_true'] using h)
end

section
variable (hp : s.mayArrive i p = true) (hv : p.vn = vnCtl)
include hp hv

theorem exec_latchAcq (hk : p.kind = 4) : exec (.latchAcq i) s = .next (latchAcqTake p (s.offNet i)) :=
  congrArg Host.Outcome.next (arrive_mayArrive hp (by simp [hv, hk]) _)

theorem exec_latchRel (hk : p.kind = 6) : exec (.latchRel i) s = .next (latchRelTake p (s.offNet i)) :=
  congrArg Host.Outcome.next (arrive_mayArrive hp (by simp [hv, hk]) _)

/-! ### Barriers and drain markers (08 R207, 11 R283) -/

theorem exec_barrierArrival (hk : p.kind = 2) {k : Nat} {y : Section} (hl : p.pl = .barrier k n) (hy : s.secOf p.sec = some y) :
    exec (.barrierArrival i) s =
      .next ((s.offNet i).setSec p.sec (some { y with barrier := y.barrier + n, progress := 0 })) := by
  have hsec : (s.offNet i).secOf p.sec = some y := hy
  refine congrArg Host.Outcome.next ((arrive_mayArrive hp (by simp [hv, hk]) _).trans ?_)
  simp only [hl, hsec]
end

/-- The inlet that a drain marker comes to takes packets of its source. -/
def drainTaken (s : State) (p : Packet) : Prop :=
  epIsCompute p.dst = true ∧ p.port < 4 ∧
    ((inKind s (epTile p.dst) p.port = 1 ∧ p.src = inSrc s (epTile p.dst) p.port) ∨ inKind s (epTile p.dst) p.port = 2)

section
variable (hp : s.mayArrive i p = true) (hv : p.vn = vnStream) (hk : p.kind = 3)
include hp hv hk

theorem exec_drainArrival_counts (h : drainTaken (s.offNet i) p) :
    exec (.drainArrival i) s = .next (progressed ((s.offNet i).updTile (epTile p.dst) fun x =>
      { x with drains := x.drains.upd 0 p.port (· + 1) }) p.sec) :=
  congrArg Host.Outcome.next ((arrive_mayArrive hp (by simp [hv, hk]) _).trans (if_pos h))

theorem exec_drainArrival_discards (h : ¬drainTaken (s.offNet i) p) : exec (.drainArrival i) s = .next (packetFault (s.offNet i) p) :=
  congrArg Host.Outcome.next ((arrive_mayArrive hp (by simp [hv, hk]) _).trans (if_neg h))
end

/-! ### The statement -/

/-- Settles O45: each clause by the rules above that have its name. -/
theorem signalsAndLatches : Obligations.SignalsAndLatches := by
  unfold Obligations.SignalsAndLatches
  refine fun s i p hp => ⟨fun j n hs hm hj hl => ⟨?signal, ?inBand⟩, fun j a b hl => ⟨?acquire, ?release⟩,
    fun k n y hv hk hl hy => exec_barrierArrival hp hv hk hl hy, fun hv hk => ⟨?drained, ?refused⟩⟩
  case signal => exact exec_tallySigArrival_fabric hs hm hj hl hp
  case inBand => exact exec_stallyArrival_fabric hs hm hj hl hp
  case acquire =>
    intro hv hk
    rw [exec_latchAcq hp hv hk]
    exact ⟨fun hn ha hh => congrArg _ (latchAcqTake_asks hl hn ha hh), fun h => congrArg _ (latchAcqTake_discards hl h)⟩
  case release =>
    intro hv hk
    rw [exec_latchRel hp hv hk]
    refine ⟨fun hn hh ho => congrArg _ (latchRelTake_frees hl hn ?_), fun h => congrArg _ (latchRelTake_discards hl ?_)⟩
    · exact Bool.and_eq_true_iff.mpr ⟨hh, beq_iff_eq.mpr ho⟩
    · exact h.imp_right fun h => by simpa [heldBy, latchAt, imp_iff_not_or] using h
  case drained => exact exec_drainArrival_counts hp hv hk
  case refused => exact exec_drainArrival_discards hp hv hk

end Sys2Proof.Machine
end

