-- ==== Sys2Proof/Proofs/FabricNetwork.lean ====
section
/-! The network (O46): injection, combining, seam cells, flit errors, flag records and the frames that an ICP sends. -/
namespace Sys2Proof.Machine

variable {s : State} {i j t o : Nat} {p : Packet}

/-! ### Injection by a unit (08 R192, R197) -/

/-- The state without packet `n` of those that units have ready. -/
def withoutTx (s : State) (n : Nat) : State := { s with fab := { s.fab with tx := s.fab.tx.eraseIdx n } }

theorem exec_packetInject_none (h : nextTx s = none) : exec (.packetInject .unit) s = .next s := by
  refine congrArg Host.Outcome.next ?_
  simp only [packetInject, h]

section
variable {n : Nat} (h : nextTx s = some (p, n))
include h

theorem exec_packetInject_next : exec (.packetInject .unit) s = .next (inject (withoutTx s n) p) := by
  refine congrArg Host.Outcome.next ?_
  simp only [packetInject, h]
  rfl

variable (hf : sourceFaulted s p = false)
include hf

theorem exec_packetInject_enters (hr : injectRefused s (stamped s p) = false) :
    exec (.packetInject .unit) s = .next ((withoutTx s n).onNet [stamped (withoutTx s n) p]) :=
  (exec_packetInject_next h).trans
    (congrArg _ ((if_neg (ne_true_of_eq_false hf)).trans (if_neg (ne_true_of_eq_false hr))))

theorem exec_packetInject_refused (hr : injectRefused s (stamped s p) = true) :
    exec (.packetInject .unit) s = .next (packetFault (withoutTx s n) (stamped (withoutTx s n) p)) :=
  (exec_packetInject_next h).trans (congrArg _ ((if_neg (ne_true_of_eq_false hf)).trans (if_pos hr)))
end

/-! ### Injection by a tile's outlet (08 R192, 09 R219) -/

/-- The packets enter the network of `u` where each finds a credit; else `s` stands. -/
def sendOrStay (s u : State) (ps : List Packet) : State := if roomFor u ps then ps.foldl inject u else s

/-- What a packet that leaves outlet `o` brings: itself and the signals of its position. -/
def outletSends (s : State) (t o : Nat) (p : Packet) : List Packet :=
  withSignals (outSig s t o) ((s.tileOf t).sent.get 0 o + 1) p

/-- The packet of the head entry of an outlet. -/
def entryPacket (s : State) (t o : Nat) (e : QEntry) : Packet := { outPacket s t o with pl := .entries [e] }
/-- The packet of the head pair of an outlet, which counts a tail when one is due. -/
def reducePacket (s : State) (t o : Nat) (v : Reduce) : Packet :=
  { outPacket s t o with
    kind := 1, op := 4, comb := outComb s t o, close := v.closes != 0
    pl := .reduce { v with
      tails := if (outSig s t o).mode = 2 ∧ sigDue (outSig s t o) ((s.tileOf t).sent.get 0 o + 1) = true then 1 else 0 } }

/-- Outlet `o` has sent its head entry, and these are left. -/
def entriesLeft (s : State) (t o : Nat) (r : List QEntry) : State :=
  s.setTile t { s.tileOf t with
    outlets := (s.tileOf t).outlets.set [] o r, sent := (s.tileOf t).sent.set 0 o ((s.tileOf t).sent.get 0 o + 1) }
/-- The same of its head pair. -/
def pairsLeft (s : State) (t o : Nat) (r : List Reduce) : State :=
  s.setTile t { s.tileOf t with
    outRed := (s.tileOf t).outRed.set [] o r, sent := (s.tileOf t).sent.set 0 o ((s.tileOf t).sent.get 0 o + 1) }

section
variable (hs : secRuns s (s.tileOf t).sec = true) (hp : (s.tileOf t).portOff = false)
include hs hp

theorem injectOutlet_entry (hl : (latchEn s t && latchOutlet s t == o) = false) {e : QEntry} {r : List QEntry}
    (he : (s.tileOf t).outlets.get [] o = e :: r) :
    injectOutlet t o s = sendOrStay s (entriesLeft s t o r) (outletSends s t o (entryPacket s t o e)) := by
  refine (if_neg (by simp [hs, hp])).trans ?_
  simp only [he]
  exact if_neg (ne_true_of_eq_false hl)

theorem injectOutlet_pair (he : (s.tileOf t).outlets.get [] o = []) {v : Reduce} {r : List Reduce}
    (hv : (s.tileOf t).outRed.get [] o = v :: r) :
    injectOutlet t o s = sendOrStay s (pairsLeft s t o r) (outletSends s t o (reducePacket s t o v)) := by
  refine (if_neg (by simp [hs, hp])).trans ?_
  simp only [he, hv]
  rfl
end

section
variable {u : State} {ps : List Packet}

theorem exec_packetInject_outlet (h : injectOutlet t o s = sendOrStay s u ps) :
    (roomFor u ps = true → exec (.packetInject (.outlet t o)) s = .next (ps.foldl inject u)) ∧
      (roomFor u ps = false → exec (.packetInject (.outlet t o)) s = .next s) :=
  ⟨fun hr => congrArg _ (h.trans (if_pos hr)), fun hr => congrArg _ (h.trans (if_neg (ne_true_of_eq_false hr)))⟩
end

/-! ### Combining (08 R202, R203, R207) -/

section
variable {q : Packet} (hi : s.fab.net[i]? = some p) (hj : s.fab.net[j]? = some q) (hm : mayMerge s.fab.net i j = true)
  {f : Packet → Packet → Option Packet}
include hi hj hm

theorem combine_eq : combine i j f s = (f p q).elim s fun r => mergeNet i j r s := by
  simp only [combine, hi, hj, hm]
  cases f p q <;> rfl

theorem combine_merges {r : Packet} (h : f p q = some r) : combine i j f s = mergeNet i j r s := by
  rw [combine_eq hi hj hm, h]
  rfl

theorem combine_stays (h : f p q = none) : combine i j f s = s := by
  rw [combine_eq hi hj hm, h]
  rfl
end

/-! ### Seam cells (11 R274, R276) -/

/-- Section `k` is ending with a verdict. -/
def endsWith (s : State) (k : Nat) (st : Status) : Prop := ∃ z, s.secOf k = some z ∧ z.phase = .ending ∧ z.verdict = some st

theorem endsWith_verdictOn {k : Nat} {y : Section} (hy : s.secOf k = some y) (hr : y.phase = .running) (st : Status) :
    endsWith (verdictOn s k st) k st := ⟨_, secOf_verdictOn hy hr st, rfl, rfl⟩

theorem secOf_eventLeaseSteward (e : Ev) (l k : Nat) : (s.eventLeaseSteward e l).secOf k = s.secOf k := by
  obtain ⟨_, _, _, he⟩ := State.event_eq s { e with lease := l } (s.leaseFn l ++ s.stewardFn)
    ((s.leaseFn l).isEmpty || s.stewardFn.isEmpty)
  rw [State.eventLeaseSteward, he]
  rfl

theorem seamViolation_ends {r side : Nat} {y : Section} (hy : s.secOf p.sec = some y) (hr : y.phase = .running) :
    endsWith (seamViolation i r side p s) p.sec .seamViolation := by
  refine endsWith_verdictOn (Eq.trans ?_ hy) hr _
  split
  · exact secOf_eventLease ..
  · exact secOf_eventLeaseSteward ..

section
variable (hi : s.fab.net[i]? = some p) {r side : Nat}
include hi

theorem exec_seamPacket_refuses (h : seamRefuses s p = some (r, side)) :
    exec (.seamPacket i r side) s = .next (seamViolation i r side p s) := by
  refine congrArg Host.Outcome.next ?_
  simp only [hi]
  exact if_pos h

theorem exec_seamPacket_passes (h : seamRefuses s p ≠ some (r, side)) : exec (.seamPacket i r side) s = .next s := by
  refine congrArg Host.Outcome.next ?_
  simp only [hi]
  exact if_neg h

/-! ### Flit errors (08 R209, R210) -/

theorem exec_flitError_single (n : Nat) : exec (.flitError i (.single n)) s = .next
    { s with power := { s.power with flitErrs := s.power.flitErrs.upd 0 (tileDie (epTile n)) (· + 1) } } := by
  refine congrArg Host.Outcome.next ?_
  simp only [flitError, hi]

theorem exec_flitError_bridge : exec (.flitError i .bridge) s = .next s := by
  refine congrArg Host.Outcome.next ?_
  simp only [flitError, hi]

theorem exec_flitError_data (k : Nat) :
    exec (.flitError i (.data k)) s = .next ((s.drew.offNet i).putNet i (lostFlit s k p)) := by
  refine congrArg Host.Outcome.next ?_
  simp only [flitError, hi]

/-- What goes back to the place of a packet that has left it stands there. -/
theorem net_putNet_offNet (q : Packet) : ((s.offNet i).putNet i q).fab.net[i]? = some q := by
  obtain ⟨hlt, -⟩ := List.getElem?_eq_some_iff.mp hi
  have hlen : ((s.fab.net.eraseIdx i).take i).length = i := by
    rw [List.length_take, List.length_eraseIdx_of_lt hlt]
    omega
  change ((s.fab.net.eraseIdx i).take i ++ q :: (s.fab.net.eraseIdx i).drop i)[i]? = some q
  rw [List.getElem?_append_right hlen.le, hlen, Nat.sub_self]
  rfl

theorem exec_flitError_tag_ends (n : Nat) {y : Section} (hy : s.secOf p.sec = some y) (hr : y.phase = .running) :
    ∃ u, exec (.flitError i (.tag n)) s = .next u ∧ endsWith u p.sec .aborted := by
  have htag : flitError i (.tag n) s = verdictOn ((s.offNet i).eventLease
      { type := 0x06, status := 0x12, unit := n, tag := secTag s p.sec, body := [0] } p.lease) p.sec .aborted := by
    simp only [flitError, hi]
  exact ⟨_, congrArg Host.Outcome.next htag, endsWith_verdictOn ((secOf_eventLease (s := s.offNet i) ..).trans hy) hr _⟩
end

theorem lostFlit_entries {es : List QEntry} {k : Nat} {e : QEntry} (hl : p.pl = .entries es) (he : es[k]? = some e) :
    lostFlit s k p = { p with pl := .entries (es.set k { e with poison := true }) } := by
  simp [lostFlit, hl, List.getD_eq_getElem?_getD, he]

/-! ### Flag records (10 R252) -/

section
variable {k : Nat} {y : Section} {d : Stream} (hy : s.secOf (s.tileOf t).sec = some y) (hr : y.phase = .running) (hk : k < 8)
  (ho : y.osets.get 0 (8 * t + k) ≠ 0) (he : (s.tileOf t).phase = .ended) (hu : (s.tileOf t).unacked.get 0 k = 0)
  (hf : (s.tileOf t).flagSent.get false k = false)
  (hd : secStream s (s.tileOf t).sec (y.osets.get 0 (8 * t + k) - 1) = some d)
include hy hr hk ho he hu hf hd

theorem flagSend_eq : flagSend t k s =
    if roomFor s [flagPacket s t d ((s.tileOf t).flags.get {} k)] then
      inject (s.setTile t { s.tileOf t with flagSent := (s.tileOf t).flagSent.set false k true })
        (flagPacket s t d ((s.tileOf t).flags.get {} k))
    else s := by
  simp only [flagSend, hy]
  refine (if_pos ⟨hr, ho, hk, he, hu, hf⟩).trans ?_
  simp only [hd]
end

section
variable (hp : s.mayArrive i p = true) (hv : p.vn = vnCtl)
include hp hv

theorem exec_flagArrival_merges {id : Nat} {r : FlagRec} {x : Stream} (hk : p.kind = 3) (hl : p.pl = .flag id r)
    (hs : secRuns s p.sec = true) (hm : epIsMem p.dst = true) (ho : p.port = 5) (hx : flagStream (s.offNet i) p id = some x) :
    exec (.flagArrival i) s = .next (mergeAtHome p x r (s.offNet i)) := by
  have hruns : secRuns (s.offNet i) p.sec = true := hs
  refine congrArg Host.Outcome.next ((arrive_mayArrive hp (by simp [hv, hk]) _).trans ?_)
  simp [hruns, hl, hx, hm, ho]

/-! ### The frames that an ICP sends (11 R279) -/

variable {k : Nat} {f : Frame} (hk : p.kind = 0) (hl : p.pl = .frame k f)
include hk hl

theorem exec_framePacketArrival_frame : exec (.framePacketArrival i) s = .next
    (if srcRegion p = dstRegion p ∧ epIsCompute p.dst = true ∧ p.port = 32 ∧ k / 72 = tileY (epTile p.dst) % 8 then
      progressed (icpFrame (epTile p.dst) (k % 72) f (s.offNet i)) p.sec
    else packetFault (s.offNet i) p) := by
  refine congrArg Host.Outcome.next ((arrive_mayArrive hp (by simp [hv, hk]) _).trans ?_)
  simp only [hl]
end

/-! ### The statement -/

/-- Settles O46: each clause by the rules above that have its name. -/
theorem networkRows : Obligations.NetworkRows := by
  unfold Obligations.NetworkRows
  refine ⟨fun s p n h hf => ⟨exec_packetInject_enters h hf, exec_packetInject_refused h hf⟩, fun s => exec_packetInject_none,
    fun s t o hs hp hl => ⟨fun e r he => exec_packetInject_outlet (injectOutlet_entry hs hp hl he),
      fun v r he hv => exec_packetInject_outlet (injectOutlet_pair hs hp he hv)⟩,
    ?combined, ?inFlight, ?flagSent, ?arrived⟩
  case combined =>
    exact fun s i j p q r hi hj hm => ⟨fun h => congrArg _ (combine_merges hi hj hm h), fun h => congrArg _ (combine_merges hi hj hm h),
      fun h => congrArg _ (combine_merges hi hj hm h), fun h => congrArg _ (combine_stays hi hj hm h)⟩
  case inFlight =>
    refine fun s i p hi => ⟨fun r side h => ⟨_, exec_seamPacket_refuses hi h, fun y => seamViolation_ends⟩,
      fun r side => exec_seamPacket_passes hi, exec_flitError_single hi, exec_flitError_bridge hi, fun es k e hl he => ?_,
      fun n y hy hr => ?_⟩
    · refine ⟨_, exec_flitError_data hi k, ?_, rfl, rfl⟩
      rw [lostFlit_entries hl he]
      exact net_putNet_offNet (s := s.drew) hi _
    · obtain ⟨u, hu, z, hz⟩ := exec_flitError_tag_ends hi n hy hr
      exact ⟨u, z, hu, hz⟩
  case flagSent =>
    intro s t k y d hy hr hk ho he hu hf hd
    have hsend := flagSend_eq hy hr hk ho he hu hf hd
    exact ⟨fun h => congrArg _ (hsend.trans (if_pos h)), fun h => congrArg _ (hsend.trans (if_neg (ne_true_of_eq_false h)))⟩
  case arrived =>
    intro s i p hp hv
    refine ⟨fun id r x hk hl hs hm ho hx => exec_flagArrival_merges hp hv hk hl hs hm ho hx, fun k f hk hl => ?_,
      fun t f v hf => if_pos hf⟩
    rw [exec_framePacketArrival_frame hp hv hk hl]
    exact ⟨fun h => congrArg _ (if_pos h), fun h => congrArg _ (if_neg h)⟩

end Sys2Proof.Machine
end

