-- ==== Sys2Proof/Proofs/HostTallies.lean ====
section
/-! Doorbells and host latches (O15), and what a change of a host tally's value does (O16). -/
namespace Sys2Proof.Machine

variable {s : State} {fn l n j : Nat} {v : Word}

theorem State.leaseOf_updLease (s : State) (l : Nat) (g : Lease → Lease) : (s.updLease l g).leaseOf l = g (s.leaseOf l) :=
  s.leaseOf_setLease l _
theorem State.leaseOf_updLease_ne (s : State) {l k : Nat} (g : Lease → Lease) (h : k ≠ l) :
    (s.updLease l g).leaseOf k = s.leaseOf k :=
  s.leaseOf_setLease_ne _ h

theorem natBits_lowHalf (v : Word) : natBits v.toNat 0 16 = v.toNat % 65536 := by simp [natBits]

/-! ### Doorbells (09 R225) -/

theorem exec_dbRing (hb : s.barOpen fn = true) :
    exec (.dbRing fn v) s = .next ((settleRegs fn s).updFn fn (fun y => { y with dbRing := y.dbRing ||| v })) :=
  congrArg Host.Outcome.next (gated_open hb _)

section
variable {bit : Nat} (hr : (s.fnOf fn).dbRing.getLsbD bit = true)
include hr

theorem exec_doorbellService_unbound (hn : (s.fnOf fn).dbBind.get none bit = none) :
    exec (.doorbellService fn bit) s =
      .next (s.updFn fn (fun y => { y with dbRing := y.dbRing &&& ~~~ (1#32 <<< bit) })) :=
  congrArg Host.Outcome.next ((if_pos hr).trans (by simp only [hn]))

theorem exec_doorbellService_bound (hn : (s.fnOf fn).dbBind.get none bit = some (l, n)) :
    exec (.doorbellService fn bit) s =
      .next ((s.updFn fn (fun y => { y with dbRing := y.dbRing &&& ~~~ (1#32 <<< bit) })).addHTally l n 1) :=
  congrArg Host.Outcome.next ((if_pos hr).trans (by simp only [hn]))
end

/-! ### Host latches (09 R212, R228) -/

/-- Host latch `j` of lease `l`. -/
def hlatchAt (s : State) (l j : Nat) : HLatch := (s.leaseOf l).hlatch.get {} j
/-- The state in which it is `x`. -/
def putHLatch (s : State) (l j : Nat) (x : HLatch) : State := s.updLease l (fun y => { y with hlatch := y.hlatch.set {} j x })
/-- The tag of a request or a release. -/
def latchTag (v : Word) : Half := BitVec.ofNat 16 (v.toNat % 65536)

theorem requestHLatch_noPage (hp : s.pageLease fn = none) : requestHLatch fn j v s = s := by simp only [requestHLatch, hp]

theorem releaseHLatch_noPage (hp : s.pageLease fn = none) : releaseHLatch fn j v s = s := by simp only [releaseHLatch, hp]

theorem requestHLatch_page (hp : s.pageLease fn = some l) : requestHLatch fn j v s =
    if (s.leaseOf l).latches ≤ j then pageFault l j s
    else if (hlatchAt s l j).holder = 0 ∧ latchTag v ≠ 0 then putHLatch s l j { hlatchAt s l j with holder := latchTag v }
    else s := by
  simp only [requestHLatch, hp, natBits_lowHalf]
  rfl

theorem releaseHLatch_page (hp : s.pageLease fn = some l) : releaseHLatch fn j v s =
    if j < (s.leaseOf l).latches then
      if (hlatchAt s l j).holder ≠ 0 ∧ latchTag v = (hlatchAt s l j).holder then
        putHLatch s l j { hlatchAt s l j with holder := 0, abandoned := false }
      else putHLatch s l j { hlatchAt s l j with relMismatch := true }
    else pageFault l j s := by
  simp only [releaseHLatch, hp, natBits_lowHalf]
  rfl

theorem exec_hlatchReq (hb : s.barOpen fn = true) : exec (.hlatchReq fn j v) s = .next (requestHLatch fn j v (settleRegs fn s)) :=
  congrArg Host.Outcome.next (gated_open hb _)

theorem exec_hlatchRel (hb : s.barOpen fn = true) : exec (.hlatchRel fn j v) s = .next (releaseHLatch fn j v (settleRegs fn s)) :=
  congrArg Host.Outcome.next (gated_open hb _)

/-- Settles O15: each doorbell clause by the rule that has its name, each latch clause by the branch that its hypotheses choose. -/
theorem doorbellsAndHostLatches : Obligations.DoorbellsAndHostLatches := by
  unfold Obligations.DoorbellsAndHostLatches
  refine ⟨fun s fn => ⟨fun v => exec_dbRing, fun bit hr =>
    ⟨exec_doorbellService_unbound hr, fun l n => exec_doorbellService_bound hr⟩⟩, fun s fn j l v hb => ?_⟩
  intro u h tag put
  rw [exec_hlatchReq hb, exec_hlatchRel hb]
  refine ⟨fun hp => ⟨congrArg _ (requestHLatch_noPage hp), congrArg _ (releaseHLatch_noPage hp)⟩, fun hp => ?_⟩
  rw [requestHLatch_page hp, releaseHLatch_page hp]
  refine ⟨fun hj => ?within, fun hj c hc => ?beyond⟩
  case within =>
    rw [if_neg (Nat.not_le.mpr hj), if_pos hj]
    exact ⟨fun hfree ht => congrArg _ (if_pos ⟨hfree, ht⟩), fun hno => congrArg _ (if_neg (not_and_or.mpr (hno.imp id not_not.mpr))),
      fun hheld ht => congrArg _ (if_pos ⟨hheld, ht⟩), fun hno => congrArg _ (if_neg (not_and_or.mpr (hno.imp_left not_not.mpr)))⟩
  case beyond =>
    simp only [List.mem_cons, List.not_mem_nil, or_false] at hc
    obtain rfl | rfl := hc
    · rw [exec_hlatchReq hb, requestHLatch_page hp]
      exact congrArg _ (if_pos hj)
    · rw [exec_hlatchRel hb, releaseHLatch_page hp]
      exact congrArg _ (if_neg (Nat.not_lt.mpr hj))

/-! ### The value of a host tally (09 R213, R214, R218) -/

/-- Host tally `n` of lease `l`. -/
def htallyAt (s : State) (l n : Nat) : HTally := (s.leaseOf l).htally.get {} n

/-- A wait is satisfied where the value is at its target or up to 32,767 past it. -/
theorem waitHolds_iff (value t : Half) : waitHolds value t = true ↔ (value.toNat + 65536 - t.toNat) % 65536 < 32768 := by
  have hsub : 2 ^ 16 - t.toNat + value.toNat = value.toNat + 65536 - t.toNat := by omega
  rw [waitHolds, decide_eq_true_iff, BitVec.toNat_sub, hsub]

theorem leaseOf_congr {t : State} (h : t.own = s.own) (k : Nat) : t.leaseOf k = s.leaseOf k := by rw [State.leaseOf, h, State.leaseOf]

theorem progOf_congr {t : State} (h : t.seq = s.seq) (k : Nat) : t.progOf k = s.progOf k := by rw [State.progOf, h, State.progOf]

theorem htallyAt_congr {t : State} (h : t.own = s.own) (m : Nat) : htallyAt t l m = htallyAt s l m := by
  rw [htallyAt, leaseOf_congr h, htallyAt]

/-- The state in which tally `n` of lease `l` is `x`. -/
def putHTally (s : State) (l n : Nat) (x : HTally) : State := s.updLease l (fun y => { y with htally := y.htally.set {} n x })

theorem htallyAt_putHTally (x : HTally) : htallyAt (putHTally s l n x) l n = x := by
  rw [htallyAt, putHTally, State.leaseOf_updLease, Table.get_set_self]

theorem htallyAt_putHTally_ne {m : Nat} (x : HTally) (hm : m ≠ n) : htallyAt (putHTally s l n x) l m = htallyAt s l m := by
  rw [htallyAt, putHTally, State.leaseOf_updLease, Table.get_set_ne _ _ _ hm, htallyAt]

theorem leaseOf_putHTally_ne {k : Nat} (x : HTally) (hk : k ≠ l) : (putHTally s l n x).leaseOf k = s.leaseOf k :=
  s.leaseOf_updLease_ne _ hk

/-! ### Vectors (09 R218) -/

/-- The tally is armed and its target holds. -/
def tallyFires (t : HTally) : Bool := t.armed && waitHolds t.value t.target

/-- The tally once its vector is sent. -/
def disarm (t : HTally) : HTally := { t with armed := false }

theorem fireArmed_stays (h : tallyFires (htallyAt s l n) = false) : s.fireArmed l n = s := if_neg (ne_true_of_eq_false h)

/-- A tally that fires is disarmed, and beside it only the owner is told. -/
theorem fireArmed_fires (h : tallyFires (htallyAt s l n) = true) :
    tellsOnly (putHTally s l n (disarm (htallyAt s l n))) (s.fireArmed l n) := by
  have hfires : s.fireArmed l n = match (putHTally s l n (disarm (htallyAt s l n))).ownerOf l with
    | some f => (putHTally s l n (disarm (htallyAt s l n))).msix f (htallyAt s l n).vector
    | none => putHTally s l n (disarm (htallyAt s l n)) := if_pos h
  rw [hfires]
  split
  · exact tellsOnly_msix _ _ _
  · exact tellsOnly_refl _

theorem tellsOnly_own_seq {t : State} (h : tellsOnly s t) : t.own = s.own ∧ t.seq = s.seq := by
  obtain ⟨_, _, rfl⟩ := h
  exact ⟨rfl, rfl⟩

/-- The evaluation of tally `n` of lease `l` changes no value, no other tally, no other lease and no program, and disarms a tally
that fires. -/
theorem fireArmed_spec (s : State) (l n : Nat) :
    (htallyAt (s.fireArmed l n) l n).value = (htallyAt s l n).value ∧
    (tallyFires (htallyAt s l n) = true → (htallyAt (s.fireArmed l n) l n).armed = false) ∧
    (∀ m, m ≠ n → htallyAt (s.fireArmed l n) l m = htallyAt s l m) ∧
    (∀ k, k ≠ l → (s.fireArmed l n).leaseOf k = s.leaseOf k) ∧ (s.fireArmed l n).seq = s.seq := by
  cases hf : tallyFires (htallyAt s l n) with
  | false =>
    rw [fireArmed_stays hf]
    exact ⟨rfl, fun h => absurd h Bool.false_ne_true, fun _ _ => rfl, fun _ _ => rfl, rfl⟩
  | true =>
    obtain ⟨hown, hseq⟩ := tellsOnly_own_seq (fireArmed_fires hf)
    have htally := (htallyAt_congr hown n).trans (htallyAt_putHTally _)
    exact ⟨(congrArg HTally.value htally).trans rfl, fun _ => congrArg HTally.armed htally,
      fun m hm => (htallyAt_congr hown m).trans (htallyAt_putHTally_ne _ hm),
      fun k hk => (leaseOf_congr hown k).trans (leaseOf_putHTally_ne _ hk), hseq⟩

/-! ### Waits on a host tally (09 R214) -/

/-- The program once tally `n` of lease `l` has value `v`. -/
def waitEvaluated (l n : Nat) (v : Half) (p : Prog) : Prog :=
  match p.wait with
  | .wait t target => if p.lease = l ∧ t = n ∧ waitHolds v (BitVec.ofNat 16 target) then { p with wait := .satisfied } else p
  | _ => p

theorem waitEvaluated_satisfies {p : Prog} {g : Nat} (hl : p.lease = l) (hw : p.wait = .wait n g) {v : Half}
    (hv : waitHolds v (BitVec.ofNat 16 g) = true) : waitEvaluated l n v p = { p with wait := .satisfied } := by
  rw [waitEvaluated, hw]
  exact if_pos ⟨hl, rfl, hv⟩

/-- A pass over what a table lists is seen at every key, where it leaves alone what an unlisted key reads as. -/
theorem Table.get_map {α : Type} (d : α) (f : α → α) (hd : f d = d) (t : Table α) (k : Nat) :
    Table.get d (t.map (fun e => (e.1, f e.2))) k = f (t.get d k) := by
  induction t with
  | nil => exact hd.symm
  | cons e r ih =>
    simp only [List.map_cons, Table.get]
    split
    · rfl
    · exact ih

theorem get_satisfyWaits (ps : Table (Option Prog)) (l n : Nat) (v : Half) (h : Nat) :
    Table.get none (satisfyWaits ps l n v) h = (ps.get none h).map (waitEvaluated l n v) :=
  Table.get_map none (Option.map (waitEvaluated l n v)) rfl ps h

/-! ### A new value (09 R213) -/

/-- The state in which tally `n` of lease `l` has value `w` and every wait on it has been evaluated. -/
def valued (s : State) (l n : Nat) (w : Half) : State :=
  let u := putHTally s l n { htallyAt s l n with value := w }
  { u with seq := { u.seq with progs := satisfyWaits u.seq.progs l n w } }

/-- Noting the streams that may start touches neither leases nor programs. -/
theorem markReady_own_seq : s.markReady.own = s.own ∧ s.markReady.seq = s.seq :=
  List.foldlRecOn (motive := fun u : State => u.own = s.own ∧ u.seq = s.seq) _ _ ⟨rfl, rfl⟩ fun _ h _ _ => h

/-- What a tally's new value does: no other tally and no other lease changes, a tally that fires is disarmed, and every wait on the
tally is evaluated. -/
theorem setHTally_spec (s : State) (l n : Nat) (w : Half) :
    (htallyAt (s.setHTally l n w) l n).value = w ∧
    (tallyFires { htallyAt s l n with value := w } = true → (htallyAt (s.setHTally l n w) l n).armed = false) ∧
    (∀ m, m ≠ n → htallyAt (s.setHTally l n w) l m = htallyAt s l m) ∧
    (∀ k, k ≠ l → (s.setHTally l n w).leaseOf k = s.leaseOf k) ∧
    (∀ h, (s.setHTally l n w).progOf h = (s.progOf h).map (waitEvaluated l n w)) := by
  obtain ⟨hvalue, hfires, htallies, hleases, hseq⟩ := fireArmed_spec (valued s l n w).markReady l n
  obtain ⟨hown, hprogs⟩ := markReady_own_seq (s := valued s l n w)
  have htally : htallyAt (valued s l n w).markReady l n = { htallyAt s l n with value := w } :=
    (htallyAt_congr hown n).trans (htallyAt_putHTally _)
  rw [htally] at hvalue hfires
  refine ⟨hvalue, hfires,
    fun m hm => (htallies m hm).trans ((htallyAt_congr hown m).trans (htallyAt_putHTally_ne _ hm)),
    fun k hk => (hleases k hk).trans ((leaseOf_congr hown k).trans (leaseOf_putHTally_ne _ hk)), fun h => ?_⟩
  calc (s.setHTally l n w).progOf h
      = (valued s l n w).progOf h := progOf_congr (hseq.trans hprogs) h
    _ = (s.progOf h).map (waitEvaluated l n w) := get_satisfyWaits s.seq.progs l n w h

/-! ### HTALLY_SIGNAL (09 R212, R213) -/

theorem exec_htallySignal (hb : s.barOpen fn = true) :
    exec (.htallySignal fn n v) s = .next (signalHTally fn n v (settleRegs fn s)) :=
  congrArg Host.Outcome.next (gated_open hb _)

theorem signalHTally_page (hp : s.pageLease fn = some l) : signalHTally fn n v s =
    if n < (s.leaseOf l).tallies then s.addHTally l n (v.toNat % 65536) else pageFault l n s := by
  simp only [signalHTally, hp, natBits_lowHalf]

/-- The amount of a signal is the low half of its word. -/
theorem addHTally_lowHalf : s.addHTally l n (v.toNat % 65536) = s.setHTally l n ((htallyAt s l n).value + v.truncate 16) :=
  congrArg (fun a => s.setHTally l n ((htallyAt s l n).value + a)) (BitVec.eq_of_toNat_eq (by simp))

/-- Settles O16: a signal within the page gives the tally a new value, and what that does is `setHTally_spec`. -/
theorem hostTallySignalAdds : Obligations.HostTallySignalAdds := by
  unfold Obligations.HostTallySignalAdds
  refine ⟨waitHolds_iff, fun s fn n l v hb => ?_⟩
  intro u old hp
  rw [exec_htallySignal hb, signalHTally_page hp]
  refine ⟨fun hn => congrArg _ (if_neg (Nat.not_lt.mpr hn)), fun hn => ?_⟩
  rw [if_pos hn]
  obtain ⟨hvalue, hfires, htallies, hleases, hprogs⟩ := setHTally_spec u l n (old.value + v.truncate 16)
  refine ⟨rfl, _, congrArg _ addHTally_lowHalf, hvalue, htallies, hleases,
    fun harm hold => hfires (Bool.and_eq_true_iff.mpr ⟨harm, hold⟩), fun h p hp hl hw => ?_⟩
  obtain ⟨g, hg, hold⟩ := hw
  exact ⟨{ p with wait := .satisfied },
    (hprogs h).trans ((congrArg _ hp).trans (congrArg some (waitEvaluated_satisfies hl hg hold))), rfl⟩

end Sys2Proof.Machine
end

