-- ==== Sys2Proof/Proofs/SequencerControl.lean ====
section
/-! WAIT, SIG, BR, LOOP, NOTIFY and HALT of a section program (O39). -/
namespace Sys2Proof.Machine

variable {s : State} {h w : Nat} {p : Prog}

/-- The condition of WAIT or BR `w` holds of the tally that it names (09 R214). -/
def conditionHolds (s : State) (p : Prog) (w : Nat) : Bool :=
  waitHolds ((s.leaseOf p.lease).htally.get {} (iTally w)).value (BitVec.ofNat 16 (iAmount w))

/-! ### WAIT and SIG (09 R213 to R215) -/

section
variable (hi : s.issues h 2 p w = true)
include hi

theorem exec_wait_passes (hc : conditionHolds s p w = true) :
    exec (.wait h) s = .next (s.setProg h (some (next { p with lastIssued := p.pc, rollFrom := none }))) :=
  congrArg Host.Outcome.next ((onIssue_issues hi _).trans (if_pos hc))

theorem exec_wait_waits (hc : conditionHolds s p w = false) :
    exec (.wait h) s = .next (s.setProg h
      (some { p with lastIssued := p.pc, rollFrom := none, wait := .wait (iTally w) (iAmount w) })) :=
  congrArg Host.Outcome.next ((onIssue_issues hi _).trans (if_neg (ne_true_of_eq_false hc)))
end

theorem exec_waitSatisfied (hp : s.progOf h = some p) (hw : p.wait = .satisfied) :
    exec (.waitSatisfied h) s = .next (s.setProg h (some (next p))) := by
  refine congrArg Host.Outcome.next ?_
  simp only [hp]
  exact if_pos hw

theorem exec_sig (hi : s.issues h 3 p w = true) : exec (.sig h) s =
    .next ((s.setProg h (some (next { p with lastIssued := p.pc }))).addHTally p.lease (iTally w) (iAmount w)) :=
  congrArg Host.Outcome.next (onIssue_issues hi _)

/-! ### BR (09 R216, 12 R320) -/

theorem exec_br (hi : s.issues h 4 p w = true) :
    exec (.br h) s = .next (s.setProg h (some { p with lastIssued := p.pc, wait := .br })) :=
  congrArg Host.Outcome.next (onIssue_issues hi _)

/-- Program `r` past branch `w`, taken or not. -/
def pastBranch (w : Nat) (taken : Bool) (r : Prog) : Prog := if taken then { r with pc := iDest w, wait := .none } else next r

/-- What branch `w` makes of the run-ahead of its program: it commits where the prediction was right and is cancelled where not. -/
def aheadResolved (s : State) (p : Prog) (w : Nat) : State :=
  match p.aheadSec with
  | none => s
  | some i => if iPredict w == (if conditionHolds s p w then 1 else 2) then commitAhead i s else cancelSection s i

theorem aheadResolved_none (ha : p.aheadSec = none) : aheadResolved s p w = s := by rw [aheadResolved, ha]

section
variable {i : Nat} (ha : p.aheadSec = some i)
include ha

theorem aheadResolved_right (hr : iPredict w = (if conditionHolds s p w then 1 else 2)) : aheadResolved s p w = commitAhead i s := by
  rw [aheadResolved, ha]
  exact if_pos (beq_iff_eq.mpr hr)

theorem aheadResolved_wrong (hr : ¬iPredict w = (if conditionHolds s p w then 1 else 2)) :
    aheadResolved s p w = cancelSection s i := by
  rw [aheadResolved, ha]
  exact if_neg (mt beq_iff_eq.mp hr)
end

/-- The program of handle `h`, if it is bound, goes past branch `w`. -/
def goPast (h w : Nat) (taken : Bool) (u : State) : State :=
  match u.progOf h with
  | none => u
  | some r => u.setProg h (some (pastBranch w taken r))

theorem goPast_bound {u : State} {r : Prog} {taken : Bool} (hr : u.progOf h = some r) :
    goPast h w taken u = u.setProg h (some (pastBranch w taken r)) := by
  simp only [goPast, hr]

/-- A branch that waits is evaluated once no section of its program runs. -/
theorem exec_brEvaluate (hp : s.progOf h = some p) (hb : p.wait = .br ∧ p.suspended = false ∧ s.runningOf h = [])
    (hw : instrAt p.code p.pc = w) :
    exec (.brEvaluate h) s = .next (goPast h w (conditionHolds s p w) (aheadResolved s p w)) := by
  obtain ⟨hbr, hs, hrun⟩ := hb
  subst hw
  refine congrArg Host.Outcome.next ?_
  simp only [hp]
  exact if_pos ⟨hbr, hs, by rw [hrun]; rfl⟩

/-! ### LOOP (12 R314) and NOTIFY (12 R316) -/

section
variable (hi : s.issues h 5 p w = true)
include hi

theorem exec_loop_passes (ha : iAmount w = 0) : exec (.loop h) s =
    .next (s.setProg h (some (advanced { p with lastIssued := p.pc } (iDest w) (iDest w + 1)))) :=
  congrArg Host.Outcome.next ((onIssue_issues hi _).trans (by rw [if_pos ha]))

theorem exec_loop_enters (ha : iAmount w ≠ 0) : exec (.loop h) s = .next (s.setProg h (some { p with
    lastIssued := p.pc, pc := p.pc + 1, loops := { first := p.pc + 1, last := iDest w, left := iAmount w } :: p.loops })) :=
  congrArg Host.Outcome.next ((onIssue_issues hi _).trans (by rw [if_neg ha]))
end

section
variable (hi : s.issues h 7 p w = true)
include hi

theorem exec_notify_tells (hs : p.silent = false) : exec (.notify h) s =
    .next ((s.setProg h (some (next { p with lastIssued := p.pc }))).produce p.fn (notifyEntry h p (natBits w 0 32))) :=
  congrArg Host.Outcome.next ((onIssue_issues hi _).trans (if_neg (ne_true_of_eq_false hs)))

theorem exec_notify_silent (hs : p.silent = true) :
    exec (.notify h) s = .next (s.setProg h (some (next { p with lastIssued := p.pc }))) :=
  congrArg Host.Outcome.next ((onIssue_issues hi _).trans (if_pos hs))
end

/-! ### What leaves the programs and sections alone -/

theorem seq_foldl {β : Type} {f : State → β → State} (hf : ∀ u b, (f u b).seq = u.seq) (l : List β) (s : State) :
    (l.foldl f s).seq = s.seq :=
  List.foldlRecOn (motive := fun u : State => u.seq = s.seq) _ _ rfl fun u h b _ => (hf u b).trans h

theorem seq_event (e : Ev) (fns : List Nat) (log : Bool) : (s.event e fns log).seq = s.seq := by
  obtain ⟨_, _, _, he⟩ := State.event_eq s e fns log
  rw [he]

theorem tellsOnly_writeReply (s : State) (f : Nat) (e : Entry) : tellsOnly s (s.writeReply f e) :=
  tellsOnly_trans ⟨_, _, rfl⟩ (tellsOnly_msix _ _ _)

theorem tellsOnly_produce (s : State) (f : Nat) (e : Entry) : tellsOnly s (s.produce f e) := by
  unfold State.produce
  split
  · exact tellsOnly_writeReply _ _ _
  · split <;> exact tellsOnly_updFn _ _ _

theorem tellsOnly_finishCmd (s : State) (fn : Nat) (seq : Word) (st : Status) (flags : Nat) (rs : List Byte) :
    tellsOnly s (finishCmd s fn seq st flags rs) := by
  unfold finishCmd
  split
  · exact tellsOnly_refl _
  · have hdrop : tellsOnly s (dropFlight s fn seq) := ⟨_, _, rfl⟩
    dsimp only
    split
    · exact hdrop
    · exact tellsOnly_trans hdrop (tellsOnly_produce _ _ _)

theorem seq_finishCmd (fn : Nat) (seq : Word) (st : Status) (flags : Nat) (rs : List Byte) :
    (finishCmd s fn seq st flags rs).seq = s.seq := by
  obtain ⟨_, _, he⟩ := tellsOnly_finishCmd s fn seq st flags rs
  rw [he]

theorem seq_abandonHLatches (l : Nat) : (abandonHLatches s l).seq = s.seq :=
  seq_foldl (fun u j => by
    dsimp only
    split
    · rfl
    · exact seq_event _ _ _) _ s

theorem seq_loseWrites (l lo : Nat) : (loseWrites l lo s).seq = s.seq :=
  seq_foldl (fun u w => by
    dsimp only
    split <;> rfl) _ s

theorem seq_startClosing (l cause : Nat) (reach : List Nat) : (startClosing s l cause reach).seq = s.seq :=
  (seq_abandonHLatches l).trans ((seq_loseWrites l 0).trans (seq_event _ _ _))

theorem seq_closeGoesOn (l : Nat) : (closeGoesOn l s).seq = s.seq := by
  unfold closeGoesOn
  split
  · exact seq_startClosing _ _ _
  · rfl

/-! ### HALT (12 R318) -/

theorem progOf_releaseProg : (releaseProg s h).progOf h = none := State.progOf_setProg s h none

theorem progOf_releaseProg_ne {k : Nat} (hk : k ≠ h) : (releaseProg s h).progOf k = s.progOf k := State.progOf_setProg_ne s none hk

/-- A program that has halted, or that stops, is not settled while a section of it runs. -/
theorem settleProg_waits (hr : s.runningOf h ≠ []) : settleProg s h = s := by
  unfold settleProg
  split
  · rfl
  · exact if_pos (by simpa using hr)

/-- The commands that wait for the program's suspension reply. -/
def suspendsReply (s : State) (h : Nat) : State :=
  (s.host.flights.filter (fun x => x.wait == .suspend h)).foldl (fun s x => finishCmd s x.fn x.msg.seq .ok 0 []) s

theorem seq_suspendsReply : (suspendsReply s h).seq = s.seq := seq_foldl (fun _ _ => seq_finishCmd _ _ _ _ _) _ s

/-- With no section left, a program that has halted is released, and no other program changes. -/
theorem settleProg_halted (hp : s.progOf h = some p) (hs : p.stopping = false) (hw : p.wait = .halt) (hr : s.runningOf h = []) :
    (settleProg s h).progOf h = none ∧ ∀ k, k ≠ h → (settleProg s h).progOf k = s.progOf k := by
  have hsettle : settleProg s h = closeGoesOn p.lease (releaseProg (suspendsReply s h) h) := by
    simp only [settleProg, hp, hr, hs, hw]
    rfl
  have hprogs (k : Nat) : (settleProg s h).progOf k = (releaseProg (suspendsReply s h) h).progOf k := by
    rw [hsettle]
    exact progOf_congr (seq_closeGoesOn _) k
  exact ⟨(hprogs h).trans progOf_releaseProg,
    fun k hk => (hprogs k).trans ((progOf_releaseProg_ne hk).trans (progOf_congr seq_suspendsReply k))⟩

/-- A program that is stopping issues nothing. -/
theorem stopping_of_issues {op : Nat} (hi : s.issues h op p w = true) : p.stopping = false := by
  simp only [State.issues, mayIssue, Bool.and_eq_true, Bool.not_eq_true'] at hi
  obtain ⟨⟨⟨-, ⟨⟨-, hs⟩, -⟩, -⟩, -⟩, -⟩ := hi
  exact hs

section
variable (hi : s.issues h 0x0A p w = true)
include hi

theorem exec_halt : exec (.halt h) s =
    .next (settleProg (s.setProg h (some { p with lastIssued := p.pc, wait := .halt })) h) :=
  congrArg Host.Outcome.next (onIssue_issues hi _)

theorem exec_halt_releases (hr : s.runningOf h = []) :
    ∃ t, exec (.halt h) s = .next t ∧ t.progOf h = none ∧ ∀ k, k ≠ h → t.progOf k = s.progOf k := by
  have hs : p.stopping = false := stopping_of_issues hi
  obtain ⟨hnone, hothers⟩ :=
    settleProg_halted (s.progOf_setProg h (some { p with lastIssued := p.pc, wait := .halt })) hs rfl hr
  exact ⟨_, exec_halt hi, hnone, fun k hk => (hothers k hk).trans (s.progOf_setProg_ne _ hk)⟩

theorem exec_halt_waits (hr : s.runningOf h ≠ []) :
    exec (.halt h) s = .next (s.setProg h (some { p with lastIssued := p.pc, wait := .halt })) :=
  (exec_halt hi).trans (congrArg _ (settleProg_waits hr))
end

/-! ### The statement -/

/-- Settles O39: each clause by the rule above that has its name. -/
theorem sequencerControl : Obligations.SequencerControl := by
  unfold Obligations.SequencerControl
  intro s h w p q v holds
  refine ⟨fun hi => ⟨exec_wait_passes hi, exec_wait_waits hi⟩, exec_waitSatisfied, exec_sig, exec_br, ?branch,
    fun hi => ⟨exec_loop_passes hi, exec_loop_enters (p := p) hi⟩, fun hi => ⟨exec_notify_tells hi, exec_notify_silent hi⟩,
    fun hi => ⟨exec_halt_releases hi, exec_halt_waits (p := p) hi⟩⟩
  case branch =>
    intro hp hbr hs hrun hw past right
    have hpast {u : State} (hu : aheadResolved s p w = u) {r : Prog} (hr : u.progOf h = some r) :
        exec (.brEvaluate h) s = .next (u.setProg h (some (past r))) := by
      rw [exec_brEvaluate hp ⟨hbr, hs, hrun⟩ hw, hu, goPast_bound hr]
      rfl
    exact ⟨fun ha => hpast (aheadResolved_none ha) hp, fun i r ha hright => hpast (aheadResolved_right ha hright),
      fun i r ha hwrong => hpast (aheadResolved_wrong ha hwrong)⟩

end Sys2Proof.Machine
end

