-- ==== Sys2Proof/Proofs/RegionRows.lean ====
section
/-! Idle regions, their credit, and regions between leases (O49). -/
namespace Sys2Proof.Machine

variable {s : State} {r i : Nat} {x : Section}

theorem State.regionOf_updRegion (s : State) (r : Nat) (g : Region → Region) : (s.updRegion r g).regionOf r = g (s.regionOf r) :=
  s.regionOf_setRegion r _
theorem State.regionOf_updRegion_ne (s : State) {r k : Nat} (g : Region → Region) (h : k ≠ r) :
    (s.updRegion r g).regionOf k = s.regionOf k :=
  s.regionOf_setRegion_ne _ h

/-! ### Lent credit (20 R491) -/

/-- Whether region `k` may borrow is decided by the two regions and TMP_POWER. -/
theorem mayBorrow_congr {t : State} {k : Nat} (hp : t.power = s.power) (hk : t.regionOf k = s.regionOf k)
    (hr : t.regionOf r = s.regionOf r) : mayBorrow t r k = mayBorrow s r k := by
  simp only [mayBorrow, lendForbidden, hp, hk, hr]

theorem mayBorrow_self : mayBorrow s r r = false := by simp [mayBorrow]

theorem mayBorrow_forbidden {k : Nat} (hf : lendForbidden s = true) (hne : (s.regionOf k).resident ≠ (s.regionOf r).resident) :
    mayBorrow s r k = false := by
  simp [mayBorrow, hf, hne]

/-- Region `k` takes of the credit of region `r` what it may. -/
def lendTo (r : Nat) (s : State) (k : Nat) : State :=
  if mayBorrow s r k then
    s.drew.updRegion k (fun y => { y with duty := y.duty + Config.freeNat s.free % (17 - y.duty), lender := some r })
  else s

/-- A loan leaves each region that may not borrow as it is. -/
theorem regionOf_lendTo {j k : Nat} (hk : mayBorrow s r k = false) : (lendTo r s j).regionOf k = s.regionOf k := by
  unfold lendTo
  split
  case isTrue hj =>
    have hne : k ≠ j := by
      rintro rfl
      exact absurd hj (ne_true_of_eq_false hk)
    exact s.drew.regionOf_updRegion_ne _ hne
  case isFalse => rfl

theorem power_lendTo {j : Nat} : (lendTo r s j).power = s.power := by
  unfold lendTo
  split <;> rfl

/-- The lending region and every region that may not borrow are left as they are. -/
theorem regionOf_spendCredit {k : Nat} (hk : mayBorrow s r k = false) : (spendCredit r s).regionOf k = s.regionOf k := by
  have hkept : (spendCredit r s).power = s.power ∧ (spendCredit r s).regionOf k = s.regionOf k ∧
      (spendCredit r s).regionOf r = s.regionOf r := by
    refine List.foldlRecOn (motive := fun t : State => t.power = s.power ∧ t.regionOf k = s.regionOf k ∧
      t.regionOf r = s.regionOf r) (groupDie r) (lendTo r) ⟨rfl, rfl, rfl⟩ fun t ht j _ => ?_
    obtain ⟨hp, htk, htr⟩ := ht
    have hmay : mayBorrow t r k = false := (mayBorrow_congr hp htk htr).trans hk
    exact ⟨power_lendTo.trans hp, (regionOf_lendTo hmay).trans htk, (regionOf_lendTo mayBorrow_self).trans htr⟩
  obtain ⟨-, hregion, -⟩ := hkept
  exact hregion

/-! ### Idle, woken and recalled (09 R231, R232, 20 R491, R492) -/

/-- The region reports idle, is gated and lends its credit. -/
def idled (s : State) (r : Nat) : State :=
  s.updRegion r (fun y => { y with idle := true, gated := true, lent := true, lender := none })

section
variable (hx : sectionOn s r = some (i, x))
include hx

theorem exec_regionIdleReport (hw : regionWaits s i (x.lendUs * 25) r = true) :
    exec (.regionIdleReport r) s = .next (spendCredit r (idled s r)) := by
  refine congrArg Host.Outcome.next ?_
  simp only [hx]
  exact if_pos hw

/-- A gated region wakes when something of it has something to do, at a free duty. -/
theorem exec_regionUngate (hg : (s.regionOf r).gated = true) (hw : regionWaits s i 0 r = false) :
    exec (.regionUngate r) s = .next (s.drew.updRegion r
      (fun y => { y with idle := false, gated := false, duty := Config.freeNat s.free % 16 + 1 })) := by
  refine congrArg Host.Outcome.next ?_
  simp only [hx]
  exact if_pos (by simp [hg, hw])
end

theorem exec_budgetRecall (hl : (s.regionOf r).lent = true) (hg : (s.regionOf r).gated = false) : exec (.budgetRecall r) s =
    .next (takeBack r (s.updRegion r (fun y => { y with duty := 16, lent := false, lender := none }))) :=
  congrArg Host.Outcome.next (if_pos (by simp [hl, hg]))

/-! ### Reservation and handover (17 R407 to R410) -/

variable {h l : Nat} {rs : List Nat}

theorem exec_regionReserve (hh : headRun s = some h) (hr : headReserves s h r = true) (hn : (s.regionOf r).reserved = none) :
    exec (.regionReserve r) s = .next (s.updRegion r (fun y => { y with reserved := some h })) := by
  refine congrArg Host.Outcome.next ?_
  simp only [hh]
  exact if_pos (by simp [hr, hn])

/-- Nothing keeps the taker of region `r` from it: no handover condition, no resident that stays, no other RUN's reservation. -/
def mayTake (s : State) (h r : Nat) : Prop :=
  handoverFree s r = true ∧ (∀ o, (s.regionOf r).resident = some o → stayed s r = true ∨ noProgram s o = true) ∧
  (reservedBy s r = none ∨ reservedBy s r = some h) ∧ s.quenched = false

theorem exec_regionHandover (ht : takerOf s r = some h) (hw : waitingRun s h = some (l, rs)) (hm : mayTake s h r)
    (hu : s.regionUsers r = []) (a : Nat) (f : Finding) : exec (.regionHandover r a f) s =
      .next (leaveOthers (joinQueue r (leaveQueue h (handOver r l (saveFinding r a f s))))) := by
  obtain ⟨hf, ho, hres, hq⟩ := hm
  refine congrArg Host.Outcome.next ?_
  simp only [ht]
  refine (if_pos ?may).trans ?taken
  case may =>
    simp only [Bool.and_eq_true]
    refine ⟨⟨⟨hf, ?out⟩, ?mine⟩, by rw [hq]; rfl⟩
    case out =>
      split
      case h_1 => rfl
      case h_2 o hr => exact Bool.or_eq_true_iff.mpr (ho o hr)
    case mine => obtain hr | hr := hres <;> simp [hr]
  case taken => simp only [hu, List.foldl_nil, hw]

theorem resident_handOver : ((handOver r l s).regionOf r).resident = some l := by
  rw [handOver, State.regionOf_updRegion]

/-! ### The statement -/

/-- Settles O49: each clause by the rule above that has its name. -/
theorem regionRows : Obligations.RegionRows := by
  unfold Obligations.RegionRows
  refine fun s r => ⟨fun i x hx => ⟨fun hw => ?idle, fun hg hw => ?wakes⟩, fun k => mayBorrow_forbidden, exec_budgetRecall,
    fun h => exec_regionReserve, fun h l rs ht hw hf hu ho hres hq a f =>
      ⟨exec_regionHandover ht hw ⟨hf, ho, hres, hq⟩ hu a f, resident_handOver⟩⟩
  case idle => exact ⟨exec_regionIdleReport hx hw, regionOf_spendCredit mayBorrow_self, fun k => regionOf_spendCredit⟩
  case wakes =>
    refine ⟨_, exec_regionUngate hx hg hw, ?_⟩
    rw [State.regionOf_updRegion]
    exact ⟨rfl, rfl, Nat.le_add_left 1 _, Nat.mod_lt _ (by decide), fun k hk => s.drew.regionOf_updRegion_ne _ hk, rfl⟩

end Sys2Proof.Machine
end

