-- ==== Sys2Proof/Proofs/HbmBytes.lean ====
section
/-! Lease HBM (O6): what a write of bytes and a mark of units change, and what is read after a write. -/
namespace Sys2Proof.Machine

variable {s : State} {l a : Nat} {bs : List Byte}

/-! ### What a change of lease HBM changes (10 R254, 07 R180) -/

/-- Clearing marks changes marks alone. -/
theorem hbmClearWhole_eq (s : State) (l a n : Nat) : ∃ m, s.hbmClearWhole l a n = s.setHbmPoison m := by
  unfold State.hbmClearWhole
  extract_lets lo hi
  split <;> exact ⟨_, rfl⟩

/-- Setting marks changes marks alone. -/
theorem hbmMark_eq (s : State) (l a n : Nat) (p : Bool) : ∃ m, s.hbmMark l a n p = s.setHbmPoison m := by
  unfold State.hbmMark
  split <;> exact ⟨_, rfl⟩

/-- A write changes the bytes from its key on, and beside them only marks. -/
theorem hbmWrite_eq (s : State) (l a : Nat) (bs : List Byte) :
    ∃ m, s.hbmWrite l a bs = (s.setHbmMem (Table.setList 0 s.hbm.mem (hbmKey l a) bs)).setHbmPoison m :=
  hbmClearWhole_eq ..

theorem mem_hbmWrite : (s.hbmWrite l a bs).hbm.mem = Table.setList 0 s.hbm.mem (hbmKey l a) bs := by
  obtain ⟨m, h⟩ := hbmWrite_eq s l a bs
  rw [h]
  rfl

theorem fab_hbmWrite : (s.hbmWrite l a bs).fab = s.fab := by
  obtain ⟨m, h⟩ := hbmWrite_eq s l a bs
  rw [h]
  rfl

/-! ### Reading after a write -/

theorem hbmRead_hbmWrite : (s.hbmWrite l a bs).hbmRead l a bs.length = bs := by
  have hread := Table.getList_setList 0 s.hbm.mem (hbmKey l a) bs (o := 0) (n := bs.length) (Nat.zero_add _).le
  rwa [Nat.add_zero, List.drop_zero, List.take_length, ← mem_hbmWrite] at hread

/-- The keys of other leases, and of bytes outside a range that lies within one lease's 2^40, are not the range's. -/
theorem hbmKey_outside {n k j : Nat} (hn : a + n ≤ 2 ^ 40) (hj : j < 2 ^ 40) (h : k ≠ l ∨ j < a ∨ a + n ≤ j) :
    hbmKey k j < hbmKey l a ∨ hbmKey l a + n ≤ hbmKey k j := by
  unfold hbmKey
  omega

theorem hbmByte_hbmWrite_outside {k j : Nat} (hn : a + bs.length ≤ 2 ^ 40) (hj : j < 2 ^ 40)
    (h : k ≠ l ∨ j < a ∨ a + bs.length ≤ j) : (s.hbmWrite l a bs).hbmByte k j = s.hbmByte k j := by
  rw [State.hbmByte, mem_hbmWrite, Table.get_setList_ne 0 _ _ _ _ (hbmKey_outside hn hj h), State.hbmByte]

/-! ### The statement -/

/-- Settles O6: what is written is read back, a byte outside the range has another key, and a write leaves the fabric alone. -/
theorem hbmReadAfterWrite : Obligations.HbmReadAfterWrite := by
  unfold Obligations.HbmReadAfterWrite
  exact fun s l a bs hn => ⟨hbmRead_hbmWrite, fun k j => hbmByte_hbmWrite_outside hn, fab_hbmWrite⟩

end Sys2Proof.Machine
end

