-- ==== Sys2Proof/Proofs/HbmRequests.lean ====
section
/-! Requests to HBM and to windows (O47): what a controller serves, what comes back, and the writes that leave a port. -/
namespace Sys2Proof.Machine

variable {s : State} {pc k i : Nat} {q : Req}

/-! ### A request that a controller serves (10 R249, R252, R254, 18 R426) -/

/-- Event records leave HBM alone. -/
theorem hbm_event (e : Ev) (fns : List Nat) (log : Bool) : (s.event e fns log).hbm = s.hbm := by
  obtain ⟨_, _, _, h⟩ := State.event_eq s e fns log
  rw [h]

/-- Event records leave the fabric alone. -/
theorem fab_event (e : Ev) (fns : List Nat) (log : Bool) : (s.event e fns log).fab = s.fab := by
  obtain ⟨_, _, _, h⟩ := State.event_eq s e fns log
  rw [h]

/-- The host's side, the leases and the bytes of HBM and of SRAM of `s` are those of `r`. -/
structure SameBytes (r s : State) : Prop where
  host : s.host = r.host
  own : s.own = r.own
  mem : s.hbm.mem = r.hbm.mem
  sram : s.fab.sram = r.fab.sram

section
variable {r : State} {l a n : Nat}

theorem SameBytes.refl (s : State) : SameBytes s s := ⟨rfl, rfl, rfl, rfl⟩

/-- An update of HBM beside its bytes. -/
theorem SameBytes.hbm {x : Hbm} (h : SameBytes r s) (hx : x.mem = s.hbm.mem) : SameBytes r { s with hbm := x } :=
  ⟨h.host, h.own, hx.trans h.mem, h.sram⟩

theorem SameBytes.updReq {f : Req → Req} (h : SameBytes r s) : SameBytes r (s.updReq i f) := h.hbm rfl
theorem SameBytes.sendAll {ps : List Packet} (h : SameBytes r s) : SameBytes r (s.sendAll ps) :=
  ⟨h.host, h.own, h.mem, h.sram⟩

theorem SameBytes.hbmFlWrite {sec : Nat} {fl : List (BitVec 5)} (h : SameBytes r s) :
    SameBytes r (s.hbmFlWrite sec l a n fl) := by
  unfold State.hbmFlWrite
  split
  · exact h
  · exact h.hbm rfl

theorem SameBytes.hbmMark {p : Bool} (h : SameBytes r s) : SameBytes r (s.hbmMark l a n p) := by
  obtain ⟨m, hm⟩ := hbmMark_eq s l a n p
  rw [hm]
  exact h.hbm rfl
end

theorem serveReq_read (hw : q.write = false) : serveReq pc q s = s.updReq q.id (fun r => { r with
    served := true, data := s.hbmRead q.lease q.addr q.len, poison := s.hbmAnyPoison q.lease q.addr q.len,
    fl := s.hbmFl q.sec q.lease q.addr q.len }) :=
  if_neg (ne_true_of_eq_false hw)

/-- A write stores its bytes; beside them it changes marks, flags, the request and what the controller's tile sends. -/
theorem serveReq_write (hw : q.write = true) : SameBytes (s.hbmWrite q.lease q.addr q.data) (serveReq pc q s) := by
  unfold serveReq
  rw [if_pos hw]
  extract_lets s1 s2
  have h1 : SameBytes (s.hbmWrite q.lease q.addr q.data) s1 := (SameBytes.refl _).hbmFlWrite
  have h2 : SameBytes (s.hbmWrite q.lease q.addr q.data) s2 := by
    unfold s2
    split
    · exact h1.hbmMark
    · exact h1
  split
  · exact h2.hbm rfl
  · exact h2.updReq.sendAll

theorem serveFinding_clean : serveFinding pc .clean q s = serveReq pc q s :=
  congrArg (serveReq pc q) (ite_self s)

/-- An uncorrectable error marks its unit and is reported: beside the mark it changes nothing in HBM. -/
theorem hbm_hbmFinding_uncorrectable {l a by_ tag m : Nat} :
    (hbmFinding l a by_ tag (.uncorrectable m) s).hbm = (s.hbmMark l a 1 true).hbm :=
  (congrArg State.hbm (if_pos rfl)).trans (hbm_event (s := s.hbmMark l a 1 true) ..)

theorem serveFinding_uncorrectable_read (hw : q.write = false) (m : Nat) :
    (serveFinding pc (.uncorrectable m) q s).hbm.mem = s.hbm.mem ∧
      (serveFinding pc (.uncorrectable m) q s).hbm.poison = (s.hbmMark q.lease q.addr 1 true).hbm.poison := by
  unfold serveFinding
  extract_lets ahead
  rw [if_neg (ne_true_of_eq_false hw), serveReq_read hw]
  simp only [State.updReq, hbm_hbmFinding_uncorrectable, and_true]
  exact (SameBytes.refl s).hbmMark.mem

/-! ### The request that a controller's mode chooses (10 R256, R257) -/

/-- The requests that wait at controller `pc`. -/
def waitingAt (s : State) (pc : Nat) : List Req :=
  s.hbm.reqs.filter (fun r => !r.isWindow && !r.served && pcOf s r.lease r.addr == pc)
/-- The arbitration in force at controller `pc`. -/
def arbAt (s : State) (pc : Nat) : DWord := (s.groupOf (.hbmArb (pc / 4))).live
/-- The slots of the frame that controller `pc` has served. -/
def slotsUsed (s : State) (pc : Nat) : List Nat := s.hbm.slots.get [] pc
/-- One more slot of class `c` is served. -/
def slotCounted (s : State) (pc c : Nat) : State :=
  { s with hbm := { s.hbm with slots := s.hbm.slots.set [] pc (countSlot (slotsUsed s pc) c) } }

section
variable (hr : s.power.selfRefresh = false)
include hr

theorem exec_hbmRequestServed_deadline (hm : ((arbAt s pc).getLsbD 31 && !arbBadShares (arbAt s pc)) = false)
    (hq : pickDeadline s k (waitingAt s pc) = some q) (f : Finding) :
    exec (.hbmRequestServed pc k f) s = .next (serveFinding pc f q s) := by
  refine congrArg Host.Outcome.next ((if_neg (ne_true_of_eq_false hr)).trans ((if_neg (ne_true_of_eq_false hm)).trans ?_))
  rw [waitingAt] at hq
  rw [hq]

theorem exec_hbmRequestServed_fixed {c : Nat} {r : Req} (hm : (arbAt s pc).getLsbD 31 = true)
    (hb : arbBadShares (arbAt s pc) = false) (hc : slotClass (arbAt s pc) (slotsUsed s pc) k = c)
    (hq : pickFixed pc c (waitingAt s pc) = some q) (hreq : s.reqOf q.id = some r) (f : Finding) :
    exec (.hbmRequestServed pc k f) s = .next (serveFinding pc f r (slotCounted s pc c)) := by
  subst hc
  have hmode : ((arbAt s pc).getLsbD 31 && !arbBadShares (arbAt s pc)) = true := by rw [hm, hb]; rfl
  refine congrArg Host.Outcome.next ((if_neg (ne_true_of_eq_false hr)).trans ((if_pos hmode).trans ?_))
  rw [waitingAt, arbAt, slotsUsed] at hq
  simp only [hq, hreq]
  rfl
end

/-! ### What comes back (10 R249, R250, R252) -/

section
variable (hq : s.reqOf i = some q)
include hq

theorem exec_hbmReadDataArrival_back (hs : q.served = true) (hw : q.write = false) (hb : q.isWindow = false) :
    exec (.hbmReadDataArrival i) s = .next (reqBack q s) := by
  refine congrArg Host.Outcome.next ?_
  simp [hq, hs, hw, hb]

theorem exec_hbmReadDataArrival_unserved (hs : q.served = false) : exec (.hbmReadDataArrival i) s = .next s := by
  refine congrArg Host.Outcome.next ?_
  simp [hq, hs]

theorem exec_windowReadComplete (hb : q.isWindow = true) (hw : q.write = false) (hn : q.back = false) (r : ReadResult) :
    exec (.windowReadComplete i r) s = .next (windowReadDone q r s) := by
  refine congrArg Host.Outcome.next ?_
  simp [hq, hb, hw, hn]
end

/-- A window's read `q` has failed: its bytes are open and poisoned, and the failure is reported. -/
def readLost (q : Req) (s : State) : State :=
  peerUnreachable q.sec q.lease q.window q.addr
    (s.updReq q.id (fun r => { r with poison := true, data := openBytes [0xFA, q.window, q.addr] q.len }))

section
variable (hs : q.served = true)
include hs

theorem windowReadDone_data (bs : List Byte) : windowReadDone q (.data bs) s =
    sendWaiting (reqBack q (s.updReq q.id (fun r => { r with data := fitBytes bs q.len }))) := by
  simp only [windowReadDone, hs]

theorem windowReadDone_failed : windowReadDone q .failed s = sendWaiting (reqBack q (readLost q s)) := by
  simp only [windowReadDone, hs]
  rfl
end

/-- A read that waits for a tag is sent where its function can send it, and lost where none can. -/
theorem windowReadDone_unserved (hs : q.served = false) (r : ReadResult) : windowReadDone q r s =
    if (leaseCanSend s q.lease q.bus (isPeer s q.lease q.window)).isSome then sendRead q s else reqBack q (readLost q s) := by
  simp only [windowReadDone, hs]
  rfl

theorem exec_wrAckArrival {p : Packet} (hp : s.mayArrive i p = true) (hv : p.vn = vnReply) (hk : p.kind = 1)
    (hq : (s.offNet i).reqOf p.ref = some q) : exec (.wrAckArrival i) s = .next (reqBack q (s.offNet i)) := by
  refine congrArg Host.Outcome.next ((arrive_mayArrive hp (by simp [hv, hk]) _).trans ?_)
  simp only [hq]

/-! ### A window's write (10 R251, 15 R379, R381) -/

/-- What is noted of a peer window is the lease's, and its programs' and sections'. -/
theorem notePeer_eq (q : Req) (s : State) : ∃ o x, notePeer q s = { s with own := o, seq := x } := by
  unfold notePeer
  split
  · exact ⟨_, _, rfl⟩
  split
  · exact ⟨_, _, rfl⟩
  extract_lets s1
  split
  · exact ⟨_, _, rfl⟩
  unfold endedPeer
  extract_lets s2
  split
  · split <;> exact ⟨_, _, rfl⟩
  · exact ⟨_, _, rfl⟩

theorem hbm_fab_peerUnreachable (sec l w n : Nat) :
    (peerUnreachable sec l w n s).hbm = s.hbm ∧ (peerUnreachable sec l w n s).fab = s.fab := by
  unfold peerUnreachable
  extract_lets e
  split
  · split
    · exact ⟨rfl, rfl⟩
    · exact ⟨hbm_event .., fab_event ..⟩
  · exact ⟨hbm_event .., fab_event ..⟩

/-- The write's packet, from function `f`. -/
def writeOut (s : State) (q : Req) (f : Nat) : Out :=
  .memWrite f q.bus q.data (s.attr f q.bus (isPeer s q.lease q.window) (s.fnOf f).ero q.poison)

theorem sendWrite_sends {f : Nat} (hf : leaseCanSend s q.lease q.bus (isPeer s q.lease q.window) = some f) :
    sendWrite q s = (notePeer q s).emit (writeOut s q f) := by
  simp only [sendWrite, hf]
  rfl

theorem sendWrite_lost (hf : leaseCanSend s q.lease q.bus (isPeer s q.lease q.window) = none) :
    sendWrite q s = peerUnreachable q.sec q.lease q.window q.len s := by
  simp only [sendWrite, hf]

theorem out_sendWrite {f : Nat} (hf : leaseCanSend s q.lease q.bus (isPeer s q.lease q.window) = some f) :
    (sendWrite q s).out = s.out ++ [writeOut s q f] := by
  obtain ⟨_, _, hn⟩ := notePeer_eq q s
  rw [sendWrite_sends hf, hn]
  rfl

/-- A window's write, sent or lost, leaves HBM and the fabric as they stand. -/
theorem hbm_fab_sendWrite (q : Req) (s : State) : (sendWrite q s).hbm = s.hbm ∧ (sendWrite q s).fab = s.fab := by
  cases hf : leaseCanSend s q.lease q.bus (isPeer s q.lease q.window) with
  | none =>
    rw [sendWrite_lost hf]
    exact hbm_fab_peerUnreachable ..
  | some f =>
    obtain ⟨_, _, hn⟩ := notePeer_eq q s
    rw [sendWrite_sends hf, hn]
    exact ⟨rfl, rfl⟩

/-- The hub's acknowledgement of a window's write. -/
def hubAck (s : State) (q : Req) (x : Stream) : Packet where
  vn := vnReply
  kind := 1
  dst := q.src
  src := hubEp s (tileDie x.tile) 1
  port := descEngine x.desc
  lease := q.lease
  sec := q.sec
  ref := q.id

/-- The first write of its stream that is not served is sent or lost, and acknowledged. -/
theorem exec_windowWriteSend {x : Stream} (hq : s.reqOf i = some q) (hb : q.isWindow = true) (hw : q.write = true)
    (hs : q.served = false) (hfirst : ∀ r ∈ s.reqsOf q.sid, r.served = true ∨ q.id ≤ r.id) (hx : s.streamOf q.sid = some x) :
    exec (.windowWriteSend i) s =
      .next (((sendWrite q s).updReq q.id (fun r => { r with served := true })).sendAll [hubAck s q x]) := by
  have hturn : ¬(!(q.isWindow && q.write && !q.served) ||
      (s.reqsOf q.sid).any (fun r => !r.served && decide (r.id < q.id))) = true := by
    simpa [hb, hw, hs, or_iff_not_imp_left] using hfirst
  have hstream : (sendWrite q s).streamOf q.sid = some x := by
    rw [State.streamOf, (hbm_fab_sendWrite q s).2]
    exact hx
  refine congrArg Host.Outcome.next ?_
  simp only [windowWriteSend, hq]
  refine (if_neg hturn).trans ?_
  simp only [hstream]
  rfl

/-! ### The statement -/

/-- Settles O47: each clause by the rules above that have its name. -/
theorem hbmAndWindowRequests : Obligations.HbmAndWindowRequests := by
  unfold Obligations.HbmAndWindowRequests
  refine ⟨fun s pc k q => ?deadline, fun s pc k c q r => ?fixed,
    fun s i q hq => ⟨exec_hbmReadDataArrival_back hq, exec_hbmReadDataArrival_unserved hq, ?windowRead, ?windowWrite⟩,
    fun s i p q => exec_wrAckArrival⟩
  case deadline =>
    intro l g hr hm hpick
    have hexec := exec_hbmRequestServed_deadline hr hm hpick
    refine ⟨fun hw => ?_, fun hw m => ⟨_, hexec _, serveFinding_uncorrectable_read hw m⟩, fun hw => ⟨_, hexec _, ?_⟩⟩
    · rw [hexec, serveFinding_clean, serveReq_read hw]
    · rw [serveFinding_clean]
      have hserved := serveReq_write (s := s) (pc := pc) hw
      obtain ⟨_, hwrite⟩ := hbmWrite_eq s q.lease q.addr q.data
      refine ⟨hserved.mem, hserved.host.trans ?_, hserved.own.trans ?_, hserved.sram.trans ?_⟩ <;> rw [hwrite] <;> rfl
  case fixed =>
    intro l g used hr hm hb hc hpick hreq
    rw [exec_hbmRequestServed_fixed hr hm hb hc hpick hreq, serveFinding_clean]
    rfl
  case windowRead =>
    intro hb hw hn lost
    refine ⟨fun hs => ⟨fun bs => ?_, ?_⟩, fun hs r => ?_⟩ <;> rw [exec_windowReadComplete hq hb hw hn]
    · exact congrArg _ (windowReadDone_data hs bs)
    · exact congrArg _ (windowReadDone_failed hs)
    · rw [windowReadDone_unserved hs]
      exact ⟨fun hf => by rw [hf]; rfl, fun f hf => by rw [hf]; rfl⟩
  case windowWrite =>
    intro hb hw hs hfirst x hx peer
    have hexec := exec_windowWriteSend hq hb hw hs hfirst hx
    obtain ⟨hhbm, hfab⟩ := hbm_fab_sendWrite q s
    have hbytes := And.intro (congrArg Hbm.mem hhbm) (congrArg Fabric.sram hfab)
    exact ⟨fun f hf => ⟨_, hexec, out_sendWrite hf, hbytes⟩, fun _ => ⟨_, hexec, hbytes⟩⟩

end Sys2Proof.Machine
end

