-- ==== Sys2Proof/Proofs/Configuration.lean ====
section
/-! The configuration engines, the drain of a column and the serial slave port (O48). -/
namespace Sys2Proof.Machine

variable {s : State} {e lease w : Nat} {args : List Nat} {ecc : Bool}

/-! ### A command that no pushed stream holds (11 R264) -/

section
variable (hwait : cfgWaits (s.engOf e).ctx = false)
include hwait

/-- A command that the engine accepts leaves its effect, and the engine's context after it. -/
theorem runOwn_accepted (hok : (cfgExec e lease w args ecc (s.engOf e).ctx s).err = none) :
    runOwn e lease w args ecc s =
      let r := cfgExec e lease w args ecc (s.engOf e).ctx s
      r.s.setEng e { r.s.engOf e with ctx := r.x } := by
  simp only [runOwn, hwait, hok, Bool.false_eq_true, if_false]

/-- A command that breaks a rule is recorded, and the engine's context is reset. -/
theorem runOwn_rejected {cause region : Nat}
    (herr : (cfgExec e lease w args ecc (s.engOf e).ctx s).err = some (cause, region)) :
    runOwn e lease w args ecc s =
      let r := cfgExec e lease w args ecc (s.engOf e).ctx s
      let t := streamError 0 e cause region r.x r.s
      t.setEng e { t.engOf e with ctx := {} } := by
  simp only [runOwn, hwait, herr, Bool.false_eq_true, if_false]
end

/-- NOP is accepted in every context, and changes nothing. -/
theorem cfgExec_nop (x : CfgCtx) : cfgExec e lease 0 args ecc x s = goOn s x := by
  cases hx : x.synced <;> simp [cfgExec, cmdOp, cmdReserved, natBits, hx]

/-! ### The engine takes a command (11 R277) -/

section
variable (hthere : engineThere s e = true) (hargs : args.length = cmdOperands w)
include hthere hargs

theorem engineRow_own (hnone : (s.engOf e).pushes = []) :
    engineRow e lease w args ecc s = runOwn e lease w args ecc s := by
  simp [engineRow, hthere, hargs, hnone]

/-- The command is the next of the words of the pushed stream whose turn it is. -/
theorem engineRow_push {k : Nat} {p : CfgPush} (hsome : (s.engOf e).pushes ≠ []) (hturn : pushTurn (s.engOf e) = some k)
    (hp : (s.engOf e).pushes[k]? = some p) (hnext : p.words.take (1 + args.length) = w :: args) :
    engineRow e lease w args ecc s = runPush e k p w args ecc (s.setEng e { s.engOf e with cur := some p.sec }) := by
  rw [hargs] at hnext
  simp [engineRow, hthere, hargs, hsome, hturn, hp, hnext]

/-- Every pushed stream waits. -/
theorem engineRow_waits (hsome : (s.engOf e).pushes ≠ []) (hturn : pushTurn (s.engOf e) = none) :
    engineRow e lease w args ecc s = s := by
  simp [engineRow, hthere, hargs, hsome, hturn]
end

/-- The first match in the eight oldest of a list has a number below 8. -/
theorem findIdx?_take_eight_lt {α : Type} {l : List α} {f : α → Bool} {k : Nat} (h : (l.take 8).findIdx? f = some k) : k < 8 := by
  obtain ⟨hk, -⟩ := List.findIdx?_eq_some_iff_getElem.mp h
  exact hk.trans_le (List.length_take_le 8 l)

/-- The stream whose turn it is, is one of the eight oldest: the one the engine is amid a column of, or the first that does not wait. -/
theorem pushTurn_lt {g : CfgEng} {k : Nat} (h : pushTurn g = some k) : k < 8 := by
  simp only [pushTurn] at h
  split at h
  case h_1 j hamid =>
    obtain rfl : j = k := Option.some.inj h
    obtain ⟨i, -, hi⟩ := Option.bind_eq_some_iff.mp hamid
    exact findIdx?_take_eight_lt hi
  case h_2 => exact findIdx?_take_eight_lt h

/-! ### The eight commands (11 Table 11.5) -/

/-- The commands of engine `e` with the command word `cmd`: the opcode, the operand words, and the lease that opens a region. -/
def configCommands (e l : Nat) (cmd v : Word) (ws : List Word) (ecc : Bool) : List (Nat × List Nat × Nat × Instr) :=
  [(1, [], 0, .sync e cmd), (2, [], 0, .frameAddr e cmd), (3, ws.map BitVec.toNat, 0, .frameData e cmd ws),
    (4, [v.toNat], 0, .writeCreg e cmd v), (5, [v.toNat], 0, .crcCheck e cmd v ecc), (6, [], l, .regionOpen e l cmd),
    (7, [], 0, .regionSeal e cmd), (8, [], 0, .desync e cmd)]

/-- A command whose word has its opcode is what the engine takes; only a CRC_CHECK's read-back can find an ECC error. -/
theorem exec_configCommand {l op : Nat} {cmd v : Word} {ws : List Word} {c : Instr}
    (hc : (op, args, lease, c) ∈ configCommands e l cmd v ws ecc) (hop : cmdOp cmd.toNat = op) :
    exec c s = .next (engineRow e lease cmd.toNat args (ecc || op != 5) s) := by
  simp only [configCommands, List.mem_cons, List.not_mem_nil, or_false, Prod.mk.injEq] at hc
  rcases hc with ⟨rfl, rfl, rfl, rfl⟩ | ⟨rfl, rfl, rfl, rfl⟩ | ⟨rfl, rfl, rfl, rfl⟩ | ⟨rfl, rfl, rfl, rfl⟩ |
    ⟨rfl, rfl, rfl, rfl⟩ | ⟨rfl, rfl, rfl, rfl⟩ | ⟨rfl, rfl, rfl, rfl⟩ | ⟨rfl, rfl, rfl, rfl⟩
  all_goals
    refine congrArg Host.Outcome.next ((if_pos hop).trans ?_)
    simp

theorem exec_nop (hthere : engineThere s e = true) (hnone : (s.engOf e).pushes = [])
    (hwait : cfgWaits (s.engOf e).ctx = false) : exec (.nop e) s = .next (s.setEng e (s.engOf e)) := by
  have haccept := cfgExec_nop (e := e) (lease := 0) (args := []) (ecc := true) (s := s) (s.engOf e).ctx
  refine congrArg Host.Outcome.next ?_
  rw [engineRow_own hthere rfl hnone, runOwn_accepted hwait (by rw [haccept]; rfl), haccept]
  rfl

/-! ### Rolling (11 R283 to R285) -/

theorem exec_columnDrain_may {r c : Nat} (hr : r < s.nRegions) (hc : c < 9) (hmay : mayDrain s r c = true) :
    exec (.columnDrain r c) s = .next (drainColumn r c s) :=
  congrArg Host.Outcome.next (if_pos (by simp [hr, hc, hmay]))
theorem exec_columnDrain_waits {r c : Nat} (hmay : mayDrain s r c = false) : exec (.columnDrain r c) s = .next s :=
  congrArg Host.Outcome.next (if_neg (by simp [hmay]))

/-! ### The serial slave port (22 R542 to R544) -/

theorem exec_sspWord_recovery (h : s.boot.state = 6) (w : Word) :
    exec (.sspWord w) s = .next (sspFeed w.toNat (s.emit (.sspMiso (sspStatus s)))) :=
  congrArg Host.Outcome.next (if_pos h)
theorem exec_sspWord_discarded (h : s.boot.state ≠ 6) (w : Word) : exec (.sspWord w) s = .next s :=
  congrArg Host.Outcome.next (if_neg h)

/-- The port's stream is broken with BAD_COMMAND, and the engine's context and its waiting words are reset. -/
theorem exec_sspPartialWord_recovery (h : s.boot.state = 6) :
    exec .sspPartialWord s =
      let x := (s.engOf 4).ctx
      let t := streamError 0 4 1 (x.open_.getD 0x7F) x s
      .next (t.setEng 4 { t.engOf 4 with ctx := {}, words := [] }) :=
  congrArg Host.Outcome.next (if_pos h)
theorem exec_sspPartialWord_discarded (h : s.boot.state ≠ 6) : exec .sspPartialWord s = .next s :=
  congrArg Host.Outcome.next (if_neg h)

/-! ### The statement -/

/-- Settles O48: each clause by the rule above that has its name. -/
theorem configurationEngine : Obligations.ConfigurationEngine := by
  unfold Obligations.ConfigurationEngine
  refine ⟨fun s e l cmd v ws ecc c op args lease hc hop hargs hthere => ?command, fun g k => pushTurn_lt, fun s e => exec_nop,
    fun s r c hr hc => ⟨exec_columnDrain_may hr hc, exec_columnDrain_waits⟩,
    fun s w => ⟨fun h => ⟨exec_sspWord_discarded h w, exec_sspPartialWord_discarded h⟩,
      fun h => ⟨exec_sspWord_recovery h w, _, exec_sspPartialWord_recovery h, ?context, ?words⟩⟩⟩
  case command =>
    rw [exec_configCommand hc hop]
    refine ⟨fun hnone hwait => ?own, fun k p hsome hturn hp hnext => ?push, fun hsome hturn => ?waits⟩
    case own =>
      rw [engineRow_own hthere hargs hnone]
      exact ⟨fun hok => congrArg _ (runOwn_accepted hwait hok), fun cause region herr => congrArg _ (runOwn_rejected hwait herr)⟩
    case push => rw [engineRow_push hthere hargs hsome hturn hp hnext]
    case waits => rw [engineRow_waits hthere hargs hsome hturn]
  case context | words => rw [State.engOf_setEng]

end Sys2Proof.Machine
end

