-- ==== Sys2Proof/Proofs/IngotCommands.lean ====
section
/-! The commands of the mailbox on ingots and their slots (O34): INGOT_STAGE, INGOT_VERIFY and INGOT_EVICT. -/
namespace Sys2Proof.Machine

variable {s : State} {fn : Nat} {seq : Word} {b : List Byte} {a : Nat} {f : Finding}

/-! ### INGOT_STAGE and INGOT_VERIFY (12 R305 to R307, 18 R425, R426) -/

/-- What firmware finds where it reads the ingot that the message names is dealt with. -/
def ingotFound (b : List Byte) (a : Nat) (f : Finding) (s : State) : State := ingotRead (msgLease b) (fieldAt b 16 8) a f s

/-- The staging checks of the ingot that the message names. -/
def checksOf (b : List Byte) (s : State) : Status × Option (List Byte) := stagingChecks s (msgLease b) (fieldAt b 16 8)

/-- The ingot with header `hd` is copied into the slot that the message names. -/
def stagedIngot (b hd : List Byte) (s : State) : State :=
  s.updLease (msgLease b) (fun x => { x with
    slots := x.slots.set none (fieldAt b 8 1) (some { image := s.hbmRead (msgLease b) (fieldAt b 16 8) (igTotal hd) }) })

section
variable (h : s.asks fn seq 0x30 b = true) (hk : fieldAt b 8 1 ≤ 63)
include h hk

theorem exec_ingotStage_busy (hs : (s.leaseOf (msgLease b)).slots.get none (fieldAt b 8 1) ≠ none) :
    exec (.ingotStage fn seq a f) s = .next (finishCmd s fn seq .busy 0 (ingotResults none)) :=
  congrArg Host.Outcome.next ((onCmd_asks h _).trans
    ((if_neg (by omega)).trans (if_pos (Option.isSome_iff_ne_none.mpr hs))))

variable (hs : (s.leaseOf (msgLease b)).slots.get none (fieldAt b 8 1) = none)
include hs

theorem exec_ingotStage_stages {hd : List Byte} (hr : checksOf b (ingotFound b a f s) = (.ok, some hd)) :
    exec (.ingotStage fn seq a f) s =
      .next (reply fn seq (ingotResults (some hd)) (stagedIngot b hd (ingotFound b a f s))) := by
  simp only [checksOf, ingotFound] at hr
  refine congrArg Host.Outcome.next ((onCmd_asks h _).trans ((if_neg (by omega)).trans ((if_neg (by simp [hs])).trans ?_)))
  simp only [hr]
  rfl

/-- An ingot that fails a check is not staged: the status is that of the failed check. -/
theorem exec_ingotStage_refused (hr : (checksOf b (ingotFound b a f s)).1 ≠ .ok) :
    exec (.ingotStage fn seq a f) s =
      .next (finishCmd (ingotFound b a f s) fn seq (checksOf b (ingotFound b a f s)).1 0
        (ingotResults (checksOf b (ingotFound b a f s)).2)) := by
  refine congrArg Host.Outcome.next ((onCmd_asks h _).trans ((if_neg (by omega)).trans ((if_neg (by simp [hs])).trans ?_)))
  dsimp only
  split
  · rename_i hok _
    exact absurd hok hr
  · rfl
end

theorem exec_ingotVerify (h : s.asks fn seq 0x31 b = true) :
    exec (.ingotVerify fn seq a f) s =
      .next (finishCmd (ingotFound b a f s) fn seq (checksOf b (ingotFound b a f s)).1 0
        (ingotResults (checksOf b (ingotFound b a f s)).2)) :=
  congrArg Host.Outcome.next (onCmd_asks h _)

/-! ### INGOT_EVICT (12 R306) -/

section
variable (h : s.asks fn seq 0x32 b = true) (hk : fieldAt b 8 1 ≤ 63)
include h hk

theorem exec_ingotEvict_busy (hu : slotInUse s (msgLease b) (fieldAt b 8 1) = true) :
    exec (.ingotEvict fn seq) s = .next (fail fn seq .busy s) :=
  congrArg Host.Outcome.next ((onCmd_asks h _).trans ((if_neg (by omega)).trans (if_pos hu)))

theorem exec_ingotEvict (hu : slotInUse s (msgLease b) (fieldAt b 8 1) = false) :
    exec (.ingotEvict fn seq) s = .next (reply fn seq [] (evictSlot (msgLease b) (fieldAt b 8 1) s)) :=
  congrArg Host.Outcome.next ((onCmd_asks h _).trans ((if_neg (by omega)).trans (if_neg (ne_true_of_eq_false hu))))
end

/-- Besides the slot, an eviction changes only what the channels remember. -/
theorem evictSlot_eq (l k : Nat) (s : State) :
    evictSlot l k s = { s.updLease l (fun x => { x with slots := x.slots.set none k none }) with seq := (evictSlot l k s).seq } ∧
      (evictSlot l k s).seq = { s.seq with chans := (evictSlot l k s).seq.chans } := ⟨rfl, rfl⟩

/-! ### The statement -/

/-- Settles O34: each command by the rules above that have its name. -/
theorem ingotCommands : Obligations.IngotCommands := by
  unfold Obligations.IngotCommands
  refine fun s fn seq b => ⟨fun h hk a f => ⟨fun hs => ?stage, exec_ingotStage_busy h hk⟩, fun h a f => exec_ingotVerify h,
    fun h hk => ⟨fun hu => ?evict, exec_ingotEvict_busy h hk⟩⟩
  case stage => exact ⟨fun hd => exec_ingotStage_stages h hk hs, exec_ingotStage_refused h hk hs⟩
  case evict => exact ⟨_, exec_ingotEvict h hk hu, evictSlot_eq _ _ _⟩

end Sys2Proof.Machine
end

