-- ==== Sys2Proof/Proofs/ProgramCommands.lean ====
section
/-! The commands of the mailbox on section programs, and their hardware contexts (O35): SEQ_START, SEQ_STOP, SEQ_SUSPEND, SEQ_RESUME,
FENCE and CONTEXT_SWAP. -/
namespace Sys2Proof.Machine

variable {s : State} {fn : Nat} {seq : Word} {b : List Byte}

/-! ### SEQ_START (12 R312, R322) -/

/-- What firmware finds where it reads the program that the message names is dealt with. -/
def programFound (b : List Byte) (a : Nat) (f : Finding) (s : State) : State :=
  fwRead (msgLease b) (fieldAt b 16 8) (8 * fieldAt b 24 2) a f s

/-- The program that the message names lies outside the lease's memory, or some of it is poisoned. -/
def programUnreadable (b : List Byte) (s : State) : Prop :=
  s.inLease (msgLease b) (fieldAt b 16 8) (8 * fieldAt b 24 2) = false ∨
    s.hbmAnyPoison (msgLease b) (fieldAt b 16 8) (8 * fieldAt b 24 2) = true

/-- The words of the program that the message names. -/
def codeOf (b : List Byte) (s : State) : List DWord := programWords s (msgLease b) (fieldAt b 16 8) (fieldAt b 24 2)

/-- The number of programs that the message's lease has bound. -/
def boundCount (b : List Byte) (s : State) : Nat := (s.bound.filter (fun e => e.2.lease == msgLease b)).length

/-- The program of the message, bound to the lowest free handle and with a hardware context if one is free. -/
def bindProgram (fn : Nat) (seq : Word) (b : List Byte) (s : State) : State :=
  let p : Prog := { lease := msgLease b, fn := fn, tag := fieldAt b 2 2, seq := seq, code := codeOf b s, ctx := freeContext s }
  takeContext (s.setProg (freeHandle s) (some p)) (freeHandle s) (freeContext s)

section
variable {a : Nat} {f : Finding} {t : State} (h : s.asks fn seq 0x40 b = true) (hmax : fieldAt b 24 2 ≤ 4096)
  (ht : programFound b a f s = t)
include h hmax ht

theorem exec_seqStart_unreadable (hr : programUnreadable b t) :
    exec (.seqStart fn seq a f) s = .next (fail fn seq .badArg t) := by
  subst ht
  refine congrArg Host.Outcome.next ((onCmd_asks h _).trans ?_)
  simp only [if_pos hmax]
  exact if_pos (.inr (.inr (hr.imp_left (congrArg (! ·)))))

variable (hpos : 1 ≤ fieldAt b 24 2) (hr : ¬programUnreadable b t)
include hpos hr

/-- A program that firmware can read is looked at: an illegal one is refused first, then one beyond a limit. -/
theorem exec_seqStart_readable : exec (.seqStart fn seq a f) s =
    .next (if programBad t (msgLease b) ((codeOf b t).map BitVec.toNat) then fail fn seq .badArg t
      else if 8 ≤ boundCount b t ∨ 1024 ≤ t.bound.length then fail fn seq .noSpace t
      else finishCmd (bindProgram fn seq b t) fn seq .accepted 0 (leBytes (freeHandle t) 2)) := by
  subst ht
  refine congrArg Host.Outcome.next ((onCmd_asks h _).trans ?_)
  simp only [if_pos hmax]
  refine if_neg ?_
  rintro (hshort | hlong | hout | hpoison)
  · omega
  · omega
  · exact hr (.inl ((Bool.not_eq_true' _).mp hout))
  · exact hr (.inr hpoison)

theorem exec_seqStart_illegal (hbad : programBad t (msgLease b) ((codeOf b t).map BitVec.toNat) = true) :
    exec (.seqStart fn seq a f) s = .next (fail fn seq .badArg t) :=
  (exec_seqStart_readable h hmax ht hpos hr).trans (congrArg _ (if_pos hbad))

variable (hlegal : programBad t (msgLease b) ((codeOf b t).map BitVec.toNat) = false)
include hlegal

theorem exec_seqStart_noSpace (hfull : 8 ≤ boundCount b t ∨ 1024 ≤ t.bound.length) :
    exec (.seqStart fn seq a f) s = .next (fail fn seq .noSpace t) :=
  (exec_seqStart_readable h hmax ht hpos hr).trans
    (congrArg _ ((if_neg (ne_true_of_eq_false hlegal)).trans (if_pos hfull)))

theorem exec_seqStart_binds (hlease : boundCount b t < 8) (hall : t.bound.length < 1024) :
    exec (.seqStart fn seq a f) s =
      .next (finishCmd (bindProgram fn seq b t) fn seq .accepted 0 (leBytes (freeHandle t) 2)) :=
  (exec_seqStart_readable h hmax ht hpos hr).trans
    (congrArg _ ((if_neg (ne_true_of_eq_false hlegal)).trans (if_neg (by omega))))
end

/-! ### SEQ_STOP, SEQ_SUSPEND and SEQ_RESUME (16 Table 16.12) -/

/-- A suspended program: a RUN of it that waits is issued again at the resume. -/
def suspendedProg (p : Prog) : Prog :=
  if p.wait = .run then { p with suspended := true, wait := .none, runs := p.runs - 1 } else { p with suspended := true }

/-- Program `h` is suspended, and what it has not started is cancelled. -/
def suspendProg (s : State) (h : Nat) (p : Prog) : State := cancelPending (s.setProg h (some (suspendedProg p))) h

section
variable {h : Nat} {p : Prog} (hp : cmdProg s b = some (h, p))
include hp

/-- The program stops and the command replies with the program's flags; its sections go on. -/
theorem exec_seqStop_noAbort (ha : s.asks fn seq 0x41 b = true) (h0 : fieldAt b 10 1 = 0) :
    exec (.seqStop fn seq) s = .next (settleProg (finishCmd (stopByHand h p s) fn seq .ok p.flags.toNat []) h) := by
  refine congrArg Host.Outcome.next ((onCmd_asks ha _).trans ((if_neg (by omega)).trans ?_))
  simp only [hp, h0]
  rfl

/-- The program stops, and the regions on which its sections run are aborted. -/
theorem exec_seqStop_abort (ha : s.asks fn seq 0x41 b = true) (h1 : fieldAt b 10 1 = 1) :
    exec (.seqStop fn seq) s = .next (settleProg
      ((runningRegions s h).foldl abortRegion (finishCmd (stopByHand h p s) fn seq .ok p.flags.toNat [])) h) := by
  refine congrArg Host.Outcome.next ((onCmd_asks ha _).trans ((if_neg (by omega)).trans ?_))
  simp only [hp, h1, if_true]

section
variable (ha : s.asks fn seq 0x42 b = true)
include ha

theorem exec_seqSuspend_replies (hr : (suspendProg s h p).runningOf h = []) :
    exec (.seqSuspend fn seq) s = .next (reply fn seq [] (suspendProg s h p)) := by
  refine congrArg Host.Outcome.next ((onCmd_asks ha _).trans ?_)
  simp only [hp]
  exact if_pos (List.isEmpty_iff.mpr hr)

/-- The reply waits for the sections that run. -/
theorem exec_seqSuspend_waits (hr : (suspendProg s h p).runningOf h ≠ []) :
    exec (.seqSuspend fn seq) s = .next (waitFor fn seq (.suspend h) (suspendProg s h p)) := by
  refine congrArg Host.Outcome.next ((onCmd_asks ha _).trans ?_)
  simp only [hp]
  exact if_neg (mt List.isEmpty_iff.mp hr)
end

theorem exec_seqResume (ha : s.asks fn seq 0x43 b = true) :
    exec (.seqResume fn seq) s = .next (reply fn seq [] (s.setProg h (some { p with suspended := false }))) := by
  refine congrArg Host.Outcome.next ((onCmd_asks ha _).trans ?_)
  simp only [hp]
end

/-! ### The FENCE command (16 Table 16.12) -/

/-- The writes of ended sections that the fence waits for. -/
def fenceWrites (s : State) (l : Nat) : List Nat := (unsentEnded s l).map (fun q => q.id)

/-- The peer windows that the fence reads: those that ended sections wrote, and those that their writes not sent go to. -/
def fenceWindows (s : State) (l : Nat) : List Nat :=
  dedup ((s.leaseOf l).peerWins ++ ((unsentEnded s l).filter (fun q => isPeer s l q.window)).map (fun q => q.window))

section
variable (h : s.asks fn seq 0x44 b = true)
include h

theorem exec_fenceCommand_replies (hw : fenceWrites s (msgLease b) = []) (hr : fenceWindows s (msgLease b) = []) :
    exec (.fenceCommand fn seq) s = .next (reply fn seq [] s) :=
  congrArg Host.Outcome.next ((onCmd_asks h _).trans
    (if_pos (Bool.and_eq_true_iff.mpr ⟨List.isEmpty_iff.mpr hw, List.isEmpty_iff.mpr hr⟩)))

theorem exec_fenceCommand_waits (hwr : fenceWrites s (msgLease b) ≠ [] ∨ fenceWindows s (msgLease b) ≠ []) :
    exec (.fenceCommand fn seq) s =
      .next (waitFor fn seq (.fence (fenceWrites s (msgLease b)) (fenceWindows s (msgLease b))) s) := by
  refine congrArg Host.Outcome.next ((onCmd_asks h _).trans (if_neg fun hnone => ?_))
  obtain ⟨hw, hr⟩ := Bool.and_eq_true_iff.mp hnone
  exact hwr.elim (· (List.isEmpty_iff.mp hw)) (· (List.isEmpty_iff.mp hr))
end

/-! ### CONTEXT_SWAP (12 R322) -/

section
variable {h c : Nat} {p : Prog} (hp : s.progOf h = some p)
include hp

theorem exec_contextSwap_leaves (hc : p.ctx = some c) (hmany : 128 < s.bound.length) (hm : mayLeave s h p = true) :
    let u := s.setProg h (some { p with ctx := none })
    exec (.contextSwap h false) s = .next { u with seq := { u.seq with contexts := u.seq.contexts.set none c none } } := by
  refine congrArg Host.Outcome.next ?_
  simp only [hp, hc]
  exact if_pos ⟨hmany, hm⟩

theorem exec_contextSwap_restores (hc : p.ctx = none) (hfree : freeContext s = some c) :
    exec (.contextSwap h true) s = .next (takeContext (s.setProg h (some { p with ctx := some c })) h (some c)) := by
  refine congrArg Host.Outcome.next ?_
  simp only [hp, hc, hfree]
end

/-! ### The statement -/

/-- Settles O35: each command by the rules above that have its name. -/
theorem programCommands : Obligations.ProgramCommands := by
  unfold Obligations.ProgramCommands
  refine ⟨fun s fn seq b => ⟨fun h hpos hmax a f => ⟨exec_seqStart_unreadable h hmax rfl, fun hin hclean => ?start⟩,
      fun h p hp => ⟨exec_seqStop_noAbort hp, exec_seqStop_abort hp,
        fun ha => ⟨exec_seqSuspend_replies hp ha, exec_seqSuspend_waits hp ha⟩, exec_seqResume hp⟩,
      fun h => ⟨exec_fenceCommand_replies h, exec_fenceCommand_waits h⟩⟩,
    fun s h p hp => ⟨fun c => exec_contextSwap_leaves hp, fun c => exec_contextSwap_restores hp⟩⟩
  case start =>
    have hr : ¬programUnreadable b (programFound b a f s) :=
      not_or.mpr ⟨ne_false_of_eq_true hin, ne_true_of_eq_false hclean⟩
    exact ⟨exec_seqStart_illegal h hmax rfl hpos hr, fun hlegal =>
      ⟨exec_seqStart_noSpace h hmax rfl hpos hr hlegal, exec_seqStart_binds h hmax rfl hpos hr hlegal⟩⟩

end Sys2Proof.Machine
end

