-- ==== Sys2Proof/Proofs/QueueTick.lean ====
section
/-! A step on an empty queue (O2): the register writes that stand accepted are in force, and one SCLK tick passes. -/
namespace Sys2Proof.Machine

variable {s : State}

/-- A step on an empty queue is one tick (the model's choice, log 8). -/
theorem step_eq_tick (h : s.pending = []) : step s = .next (tick s) := by
  simp only [step, h]

/-- With no register write outstanding, nothing comes into force (00 R10, log 20). -/
theorem settleAll_eq_self (h : ∀ f, (s.fnOf f).regWrites = []) : settleAll s = s :=
  List.foldl_fixed' (fun f => settleRegs_nil (h f)) _

/-- Settles O2: the step is `tick`, whose counts are over the settled state and change record time, sections, tiles and streams
alone. -/
theorem emptyQueueTicks : Obligations.EmptyQueueTicks := by
  unfold Obligations.EmptyQueueTicks
  refine ⟨fun s hempty => ⟨tickCounts (settleAll s), step_eq_tick hempty, ?counts⟩, fun s => settleAll_eq_self⟩
  case counts =>
    exact ⟨rfl, rfl, rfl, rfl, rfl, rfl, rfl, rfl, rfl, rfl, rfl, rfl, rfl, rfl, rfl, rfl⟩

end Sys2Proof.Machine
end

