-- ==== Sys2Proof/Proofs/HbmCipher.lean ====
section
/-! HBM holds ciphertext, and a reader sees what was written (O53): AES-256 and XTS undone. -/
namespace Sys2Proof.Machine

/-! ### Rows of bytes -/

/-- A row of `n` bytes, as the rounds of AES pass them on. -/
def ByteRow (n : Nat) (x : List Nat) : Prop := x.length = n ∧ ∀ b ∈ x, b < 256

section
variable {n m : Nat} {x y : List Nat}

theorem aesLook_lt (t : List Nat) (b : Nat) : aesLook t b < 256 := Nat.mod_lt _ (by decide)

theorem ByteRow.map_look (t : List Nat) (h : ByteRow n x) : ByteRow n (x.map (aesLook t)) :=
  ⟨by simp [h.1], by simpa using fun b _ => aesLook_lt t b⟩

theorem ByteRow.xorRow (hx : ByteRow n x) (hy : ByteRow n y) : ByteRow n (xorRow x y) := by
  refine ⟨by simp [Machine.xorRow, hx.1, hy.1], fun b hb => ?_⟩
  obtain ⟨i, hi, rfl⟩ := List.mem_iff_getElem.mp hb
  simp only [Machine.xorRow, List.getElem_zipWith]
  exact Nat.xor_lt_two_pow (n := 8) (hx.2 _ (List.getElem_mem _)) (hy.2 _ (List.getElem_mem _))

theorem ByteRow.getD_lt (h : ByteRow n x) (i : Nat) : x.getD i 0 < 256 := by
  rw [List.getD_eq_getElem?_getD]
  cases hi : x[i]? with
  | none => decide
  | some b => exact h.2 b (List.mem_of_getElem? hi)

/-- Places of a row, in any order. -/
theorem ByteRow.map_getD (h : ByteRow n x) (l : List Nat) (g : Nat → Nat) : ByteRow l.length (l.map (fun i => x.getD (g i) 0)) :=
  ⟨by simp, by simpa using fun i _ => h.getD_lt (g i)⟩

theorem ByteRow.append (hx : ByteRow n x) (hy : ByteRow m y) : ByteRow (n + m) (x ++ y) :=
  ⟨by simp [hx.1, hy.1], fun b hb => (List.mem_append.mp hb).elim (hx.2 b) (hy.2 b)⟩

theorem ByteRow.take (h : ByteRow (n + m) x) : ByteRow n (x.take n) :=
  ⟨by simp [h.1], fun b hb => h.2 b (List.mem_of_mem_take hb)⟩

theorem ByteRow.drop (h : ByteRow (n + m) x) : ByteRow m (x.drop n) :=
  ⟨by simp [h.1], fun b hb => h.2 b (List.mem_of_mem_drop hb)⟩

/-- A row that is put on twice is taken off. -/
theorem xorRow_xorRow (hx : ByteRow n x) (hy : ByteRow n y) : xorRow (xorRow x y) y = x := by
  refine List.ext_getElem (by simp [xorRow, hx.1, hy.1]) fun i _ _ => ?_
  simp [xorRow]

theorem byteRow_natLe (v n : Nat) : ByteRow n (natLe v n) :=
  ⟨by simp [natLe, upTo], by simpa [natLe] using fun i _ => Nat.mod_lt _ (by decide)⟩

theorem rowsOf_flatten (n : Nat) (k : Nat) (h : x.length = n * k) : (rowsOf n k x).flatten = x := by
  induction k generalizing x with
  | zero => simpa [rowsOf, eq_comm] using h
  | succ k ih => simp [rowsOf, ih (x := x.drop n) (by simp [h, Nat.mul_succ])]

theorem byteRow_of_mem_rowsOf {k : Nat} {r : List Nat} (h : ByteRow (n * k) x) (hr : r ∈ rowsOf n k x) : ByteRow n r := by
  induction k generalizing x with
  | zero => simp [rowsOf] at hr
  | succ k ih =>
    rw [Nat.mul_succ, Nat.add_comm] at h
    rcases List.mem_cons.mp hr with rfl | hr
    · exact h.take
    · exact ih h.drop hr

@[simp] theorem length_rowsOf (k : Nat) : (rowsOf n k x).length = k := by
  induction k generalizing x with
  | zero => rfl
  | succ k ih => simp [rowsOf, ih]

theorem byteRow_flatten {l : List (List Nat)} (h : ∀ r ∈ l, ByteRow n r) : ByteRow (n * l.length) l.flatten := by
  induction l with
  | nil => exact ⟨rfl, by simp⟩
  | cons r l ih =>
    rw [List.length_cons, Nat.mul_succ, Nat.add_comm]
    exact (h r List.mem_cons_self).append (ih fun q hq => h q (List.mem_cons_of_mem r hq))

theorem rowsOf_flatten_self {l : List (List Nat)} (h : ∀ r ∈ l, ByteRow n r) : rowsOf n l.length l.flatten = l := by
  induction l with
  | nil => rfl
  | cons r l ih =>
    have hr := (h r List.mem_cons_self).1
    simp only [List.length_cons, List.flatten_cons, rowsOf, List.take_left' hr, List.drop_left' hr,
      ih fun q hq => h q (List.mem_cons_of_mem r hq)]
end

/-! ### The steps of a round -/

theorem aesLook_inv_sub : ∀ b < 256, aesLook aesInv (aesLook aesSub b) = b := by decide +kernel

theorem map_aesLook_inv_sub {n : Nat} {x : List Nat} (h : ByteRow n x) :
    (x.map (aesLook aesSub)).map (aesLook aesInv) = x := by
  rw [List.map_map]
  exact (List.map_congr_left fun b hb => aesLook_inv_sub b (h.2 b hb)).trans (List.map_id x)

theorem byteRow_shiftRows {x : List Nat} (h : ByteRow 16 x) : ByteRow 16 (shiftRows x) := h.map_getD (upTo 16) _
theorem byteRow_unshiftRows {x : List Nat} (h : ByteRow 16 x) : ByteRow 16 (unshiftRows x) := h.map_getD (upTo 16) _

/-- A row of sixteen bytes is the list of its places. -/
theorem ByteRow.eq_map_getD {n : Nat} {x : List Nat} (h : ByteRow n x) : (upTo n).map (fun i => x.getD i 0) = x := by
  refine List.ext_getElem (by simp [upTo, h.1]) fun i _ hi => ?_
  simp [upTo, hi]

theorem unshiftRows_shiftRows {x : List Nat} (h : ByteRow 16 x) : unshiftRows (shiftRows x) = x := by
  conv_rhs => rw [← h.eq_map_getD]
  rfl

/-- Doubling in the field of AES on the bits: what leaves the byte comes back as 0x11B. -/
theorem aesTwice_eq_xor : ∀ b < 256, aesTwice b = (b <<< 1) ^^^ (b >>> 7 * 0x11B) := by decide +kernel

theorem aesTwice_lt : ∀ b < 256, aesTwice b < 256 := by decide +kernel

/-- Doubling is linear. -/
theorem aesTwice_xor {a b : Nat} (ha : a < 256) (hb : b < 256) : aesTwice (a ^^^ b) = aesTwice a ^^^ aesTwice b := by
  have hab : a ^^^ b < 256 := Nat.xor_lt_two_pow (n := 8) ha hb
  have carry : ∀ i < 2, ∀ j < 2, (i ^^^ j) * 0x11B = i * 0x11B ^^^ j * 0x11B := by decide
  rw [aesTwice_eq_xor _ ha, aesTwice_eq_xor _ hb, aesTwice_eq_xor _ hab, Nat.shiftLeft_xor_distrib, Nat.shiftRight_xor_distrib,
    carry _ (by omega) _ (by omega)]
  ac_rfl

/-- Doubling a mixed byte. -/
theorem aesTwice_mixed {p q r s t : Nat} (hp : p < 256) (hq : q < 256) (hr : r < 256) (hs : s < 256) (ht : t < 256) :
    aesTwice (p ^^^ q ^^^ r ^^^ s ^^^ t) = aesTwice p ^^^ aesTwice q ^^^ aesTwice r ^^^ aesTwice s ^^^ aesTwice t := by
  have hpq := Nat.xor_lt_two_pow (n := 8) hp hq
  have hpqr := Nat.xor_lt_two_pow (n := 8) hpq hr
  have hpqrs := Nat.xor_lt_two_pow (n := 8) hpqr hs
  rw [aesTwice_xor hpqrs ht, aesTwice_xor hpqr hs, aesTwice_xor hpq hr, aesTwice_xor hp hq]

theorem mixColumn_eq (a b c d : Nat) : mixColumn [a, b, c, d] =
    [aesTwice a ^^^ aesTwice b ^^^ b ^^^ c ^^^ d, aesTwice b ^^^ aesTwice c ^^^ c ^^^ d ^^^ a,
     aesTwice c ^^^ aesTwice d ^^^ d ^^^ a ^^^ b, aesTwice d ^^^ aesTwice a ^^^ a ^^^ b ^^^ c] := rfl

/-- Mixing twice leaves three terms of each byte of a column, since each other one comes twice. -/
theorem mixColumn_mixColumn {a b c d : Nat} (ha : a < 256) (hb : b < 256) (hc : c < 256) (hd : d < 256) :
    mixColumn (mixColumn [a, b, c, d]) =
      [a ^^^ aesTwice (aesTwice a) ^^^ aesTwice (aesTwice c), b ^^^ aesTwice (aesTwice b) ^^^ aesTwice (aesTwice d),
       c ^^^ aesTwice (aesTwice c) ^^^ aesTwice (aesTwice a), d ^^^ aesTwice (aesTwice d) ^^^ aesTwice (aesTwice b)] := by
  have ha' := aesTwice_lt a ha
  have hb' := aesTwice_lt b hb
  have hc' := aesTwice_lt c hc
  have hd' := aesTwice_lt d hd
  simp only [mixColumn_eq, aesTwice_mixed ha' hb' hb hc hd, aesTwice_mixed hb' hc' hc hd ha, aesTwice_mixed hc' hd' hd ha hb,
    aesTwice_mixed hd' ha' ha hb hc]
  simp only [Nat.xor_assoc, Nat.xor_comm, Nat.xor_left_comm, Nat.xor_xor_cancel_left, Nat.xor_self, Nat.zero_xor]

theorem byteRow_mixColumn {c : List Nat} (h : ByteRow 4 c) : ByteRow 4 (mixColumn c) := by
  refine ⟨by simp [mixColumn, upTo], fun x hx => ?_⟩
  obtain ⟨i, -, rfl⟩ := List.mem_map.mp hx
  have lt {x y : Nat} (hx : x < 256) (hy : y < 256) : x ^^^ y < 256 := Nat.xor_lt_two_pow (n := 8) hx hy
  exact lt (lt (lt (lt (aesTwice_lt _ (h.getD_lt _)) (aesTwice_lt _ (h.getD_lt _))) (h.getD_lt _)) (h.getD_lt _)) (h.getD_lt _)

/-- So four mixings leave a column as it was. -/
theorem mixColumn_four {c : List Nat} (h : ByteRow 4 c) : mixColumn (mixColumn (mixColumn (mixColumn c))) = c := by
  obtain ⟨hlen, hlt⟩ := h
  obtain ⟨p, q, r, t, rfl⟩ := List.length_eq_four.mp hlen
  simp only [List.mem_cons, List.not_mem_nil, or_false, forall_eq_or_imp, forall_eq] at hlt
  obtain ⟨hp, hq, hr, ht⟩ := hlt
  have tt (x : Nat) (hx : x < 256) := aesTwice_lt _ (aesTwice_lt x hx)
  have lt {x y : Nat} (hx : x < 256) (hy : y < 256) : x ^^^ y < 256 := Nat.xor_lt_two_pow (n := 8) hx hy
  have twice2 {x y z : Nat} (hx : x < 256) (hy : y < 256) (hz : z < 256) :
      aesTwice (aesTwice (x ^^^ y ^^^ z)) = aesTwice (aesTwice x) ^^^ aesTwice (aesTwice y) ^^^ aesTwice (aesTwice z) := by
    rw [aesTwice_xor (lt hx hy) hz, aesTwice_xor hx hy, aesTwice_xor (lt (aesTwice_lt x hx) (aesTwice_lt y hy)) (aesTwice_lt z hz),
      aesTwice_xor (aesTwice_lt x hx) (aesTwice_lt y hy)]
  have b2 {x y : Nat} (hx : x < 256) (hy : y < 256) :
      x ^^^ aesTwice (aesTwice x) ^^^ aesTwice (aesTwice y) < 256 := lt (lt hx (tt x hx)) (tt y hy)
  rw [mixColumn_mixColumn hp hq hr ht, mixColumn_mixColumn (b2 hp hr) (b2 hq ht) (b2 hr hp) (b2 ht hq),
    twice2 hp (tt p hp) (tt r hr), twice2 hr (tt r hr) (tt p hp), twice2 hq (tt q hq) (tt t ht), twice2 ht (tt t ht) (tt q hq)]
  simp only [Nat.xor_assoc, Nat.xor_comm, Nat.xor_left_comm, Nat.xor_xor_cancel_left, Nat.xor_self, Nat.xor_zero]

theorem byteRow_mixColumns {x : List Nat} (h : ByteRow 16 x) : ByteRow 16 (mixColumns x) := by
  have hrows : ∀ r ∈ (rowsOf 4 4 x).map mixColumn, ByteRow 4 r := fun r hr => by
    obtain ⟨c, hc, rfl⟩ := List.mem_map.mp hr
    exact byteRow_mixColumn (byteRow_of_mem_rowsOf h hc)
  simpa [mixColumns] using byteRow_flatten hrows

theorem rowsOf_mixColumns {x : List Nat} (h : ByteRow 16 x) : rowsOf 4 4 (mixColumns x) = (rowsOf 4 4 x).map mixColumn := by
  have hrows : ∀ r ∈ (rowsOf 4 4 x).map mixColumn, ByteRow 4 r := fun r hr => by
    obtain ⟨c, hc, rfl⟩ := List.mem_map.mp hr
    exact byteRow_mixColumn (byteRow_of_mem_rowsOf h hc)
  simpa [mixColumns] using rowsOf_flatten_self hrows

/-- Mixing three times undoes one mixing. -/
theorem mixColumns_four {x : List Nat} (h : ByteRow 16 x) : mixColumns (mixColumns (mixColumns (mixColumns x))) = x := by
  have h1 := byteRow_mixColumns h
  have h2 := byteRow_mixColumns h1
  have four : ∀ c ∈ rowsOf 4 4 x, mixColumn (mixColumn (mixColumn (mixColumn c))) = c := fun c hc =>
    mixColumn_four (byteRow_of_mem_rowsOf h hc)
  calc mixColumns (mixColumns (mixColumns (mixColumns x)))
      = ((rowsOf 4 4 x).map fun c => mixColumn (mixColumn (mixColumn (mixColumn c)))).flatten := by
        rw [mixColumns, rowsOf_mixColumns h2, rowsOf_mixColumns h1, rowsOf_mixColumns h]
        simp [Function.comp_def]
    _ = (rowsOf 4 4 x).flatten := by rw [List.map_congr_left four, List.map_id']
    _ = x := rowsOf_flatten 4 4 h.1

/-! ### AES-256 (19 R459, R460) -/

/-- A round of AES that mixes columns, and its inverse. -/
def aesRound (x k : List Nat) : List Nat := xorRow (mixColumns (shiftRows (x.map (aesLook aesSub)))) k
def aesUnround (y k : List Nat) : List Nat :=
  (unshiftRows (mixColumns (mixColumns (mixColumns (xorRow y k))))).map (aesLook aesInv)

section
variable {x k : List Nat} {ks : List (List Nat)}

theorem byteRow_aesRound (hx : ByteRow 16 x) (hk : ByteRow 16 k) : ByteRow 16 (aesRound x k) :=
  (byteRow_mixColumns (byteRow_shiftRows (hx.map_look _))).xorRow hk

theorem aesUnround_aesRound (hx : ByteRow 16 x) (hk : ByteRow 16 k) : aesUnround (aesRound x k) k = x := by
  have hs := byteRow_shiftRows (hx.map_look aesSub)
  rw [aesUnround, aesRound, xorRow_xorRow (byteRow_mixColumns hs) hk, mixColumns_four hs, unshiftRows_shiftRows (hx.map_look _),
    map_aesLook_inv_sub hx]

theorem byteRow_foldl_aesRound (hx : ByteRow 16 x) (hks : ∀ k ∈ ks, ByteRow 16 k) : ByteRow 16 (ks.foldl aesRound x) := by
  induction ks generalizing x with
  | nil => exact hx
  | cons k ks ih =>
    exact ih (byteRow_aesRound hx (hks k List.mem_cons_self)) fun j hj => hks j (List.mem_cons_of_mem k hj)

theorem foldl_aesUnround_aesRound (hx : ByteRow 16 x) (hks : ∀ k ∈ ks, ByteRow 16 k) :
    ks.reverse.foldl aesUnround (ks.foldl aesRound x) = x := by
  induction ks generalizing x with
  | nil => rfl
  | cons k ks ih =>
    have hk := hks k List.mem_cons_self
    have hrest := ih (byteRow_aesRound hx hk) fun j hj => hks j (List.mem_cons_of_mem k hj)
    rw [List.reverse_cons, List.foldl_append, List.foldl_cons (l := ks), hrest]
    exact aesUnround_aesRound hx hk

theorem aesRounds_append (l : List Nat) :
    aesRounds (ks ++ [l]) x = xorRow (shiftRows ((ks.foldl aesRound x).map (aesLook aesSub))) l := by
  induction ks generalizing x with
  | nil => rfl
  | cons k ks ih =>
    cases ks with
    | nil => rfl
    | cons j ks => exact ih (x := aesRound x k)

theorem aesUnrounds_append (l : List Nat) : aesUnrounds (ks ++ [l]) x = xorRow (ks.foldl aesUnround x) l := by
  induction ks generalizing x with
  | nil => rfl
  | cons k ks ih =>
    cases ks with
    | nil => rfl
    | cons j ks => exact ih (x := aesUnround x k)
end

/-- The round keys of AES-256: fifteen rows of sixteen bytes. -/
def RoundKeys (keys : List (List Nat)) : Prop := keys.length = 15 ∧ ∀ k ∈ keys, ByteRow 16 k

theorem RoundKeys.split {keys : List (List Nat)} (h : RoundKeys keys) : ∃ k ks l, keys = k :: (ks ++ [l]) := by
  obtain ⟨hlen, -⟩ := h
  obtain ⟨k, r, rfl⟩ := List.exists_cons_of_length_eq_add_one hlen
  have hr : r ≠ [] := List.ne_nil_of_length_eq_add_one (Nat.succ.inj hlen)
  exact ⟨k, r.dropLast, r.getLast hr, by rw [List.dropLast_append_getLast]⟩

section
variable {keys : List (List Nat)} {x : List Nat} (hkeys : RoundKeys keys) (hx : ByteRow 16 x)
include hkeys hx

theorem byteRow_aesEncrypt : ByteRow 16 (aesEncrypt keys x) := by
  obtain ⟨k, ks, l, rfl⟩ := hkeys.split
  have hrow := hkeys.2
  simp only [List.mem_cons, List.mem_append, List.not_mem_nil, or_false] at hrow
  rw [aesEncrypt, List.drop_one, List.tail_cons, aesRounds_append]
  have h0 : ByteRow 16 (xorRow x k) := hx.xorRow (hrow k (.inl rfl))
  have h1 := byteRow_foldl_aesRound h0 fun j hj => hrow j (.inr (.inl hj))
  exact (byteRow_shiftRows (h1.map_look _)).xorRow (hrow l (.inr (.inr rfl)))

/-- Deciphering undoes enciphering. -/
theorem aesDecrypt_aesEncrypt : aesDecrypt keys (aesEncrypt keys x) = x := by
  obtain ⟨k, ks, l, rfl⟩ := hkeys.split
  have hrow := hkeys.2
  simp only [List.mem_cons, List.mem_append, List.not_mem_nil, or_false] at hrow
  have hk := hrow k (.inl rfl)
  have h0 : ByteRow 16 (xorRow x k) := hx.xorRow hk
  have hks : ∀ j ∈ ks, ByteRow 16 j := fun j hj => hrow j (.inr (.inl hj))
  have h1 := byteRow_foldl_aesRound h0 hks
  have hrev : (k :: (ks ++ [l])).reverse = l :: (ks.reverse ++ [k]) := by simp
  have enc : aesEncrypt (k :: (ks ++ [l])) x =
      xorRow (shiftRows ((ks.foldl aesRound (xorRow x k)).map (aesLook aesSub))) l := aesRounds_append l
  have dec (y : List Nat) : aesDecrypt (k :: (ks ++ [l])) y =
      xorRow (ks.reverse.foldl aesUnround ((unshiftRows (xorRow y l)).map (aesLook aesInv))) k := by
    rw [aesDecrypt, hrev]
    exact aesUnrounds_append k
  rw [enc, dec, xorRow_xorRow (byteRow_shiftRows (h1.map_look _)) (hrow l (.inr (.inr rfl))), unshiftRows_shiftRows (h1.map_look _),
    map_aesLook_inv_sub h1, foldl_aesUnround_aesRound h0 hks, xorRow_xorRow hx hk]
end

/-! ### The key schedule -/

theorem byteRow_aesNextWord {i : Nat} {w : List (List Nat)} (hi : i < 60) (hlen : w.length = 8) (hw : ∀ x ∈ w, ByteRow 4 x) :
    ByteRow 4 (aesNextWord i w) := by
  have hword (k : Nat) (hk : k < 8) : ByteRow 4 (w.getD k []) := by
    rw [List.getD_eq_getElem _ _ (hlen ▸ hk)]
    exact hw _ (List.getElem_mem _)
  have hrot : ByteRow 4 ((w.getD 7 []).drop 1 ++ (w.getD 7 []).take 1) :=
    (ByteRow.drop (n := 1) (m := 3) (hword 7 (by decide))).append (ByteRow.take (n := 1) (m := 3) (hword 7 (by decide)))
  have hcon : ByteRow 4 [2 ^ (i / 8 - 1), 0, 0, 0] := by
    refine ⟨rfl, ?_⟩
    have : 2 ^ (i / 8 - 1) < 2 ^ 8 := Nat.pow_lt_pow_right (by decide) (by omega)
    simpa using this
  refine (hword 0 (by decide)).xorRow ?_
  split
  · exact (hrot.map_look _).xorRow hcon
  split
  · exact (hword 7 (by decide)).map_look _
  · exact hword 7 (by decide)

theorem byteRow_aesWords {n i : Nat} {w : List (List Nat)} (hi : i + n ≤ 60) (hlen : w.length = 8) (hw : ∀ x ∈ w, ByteRow 4 x) :
    (aesWords n i w).length = n ∧ ∀ x ∈ aesWords n i w, ByteRow 4 x := by
  induction n generalizing i w with
  | zero => exact ⟨rfl, by simp [aesWords]⟩
  | succ n ih =>
    have hx := byteRow_aesNextWord (i := i) (by omega) hlen hw
    have := ih (i := i + 1) (w := w.drop 1 ++ [aesNextWord i w]) (by omega) (by simp [hlen])
      (fun y hy => (List.mem_append.mp hy).elim (fun h => hw y (List.mem_of_mem_drop h)) (fun h => List.mem_singleton.mp h ▸ hx))
    exact ⟨congrArg (· + 1) this.1, List.forall_mem_cons.mpr ⟨hx, this.2⟩⟩

theorem roundKeys_aesKeys {key : List Nat} (h : ByteRow 32 key) : RoundKeys (aesKeys key) := by
  have hw : ∀ x ∈ rowsOf 4 8 key, ByteRow 4 x := fun x => byteRow_of_mem_rowsOf h
  obtain ⟨hlen, hws⟩ := byteRow_aesWords (n := 52) (i := 8) (w := rowsOf 4 8 key) (by decide) (by simp) hw
  have hall : ByteRow (4 * (rowsOf 4 8 key ++ aesWords 52 8 (rowsOf 4 8 key)).length)
      (rowsOf 4 8 key ++ aesWords 52 8 (rowsOf 4 8 key)).flatten :=
    byteRow_flatten fun x hx => (List.mem_append.mp hx).elim (hw x) (hws x)
  rw [List.length_append, hlen, length_rowsOf] at hall
  exact ⟨length_rowsOf 15, fun k hk => byteRow_of_mem_rowsOf (n := 16) (k := 15) hall hk⟩

theorem roundKeys_xtsKeys (pair : BitVec 512) : RoundKeys (xtsKeys pair).1 ∧ RoundKeys (xtsKeys pair).2 :=
  have hb := byteRow_natLe pair.toNat (32 + 32)
  ⟨roundKeys_aesKeys hb.take, roundKeys_aesKeys hb.drop⟩

/-! ### XTS -/

section
variable {f g : List Nat → List Nat} (hf : ∀ x, ByteRow 16 x → ByteRow 16 (f x))
include hf

theorem byteRow_xtsBlocks {n t : Nat} {x : List Nat} (h : ByteRow (16 * n) x) : ByteRow (16 * n) (xtsBlocks f n t x) := by
  induction n generalizing t x with
  | zero => exact ⟨rfl, by simp [xtsBlocks]⟩
  | succ n ih =>
    rw [Nat.mul_succ, Nat.add_comm] at h ⊢
    exact ((hf _ (h.take.xorRow (byteRow_natLe t 16))).xorRow (byteRow_natLe t 16)).append (ih h.drop)

theorem xtsBlocks_inverse (hg : ∀ x, ByteRow 16 x → g (f x) = x) {n t : Nat} {x : List Nat} (h : ByteRow (16 * n) x) :
    xtsBlocks g n t (xtsBlocks f n t x) = x := by
  induction n generalizing t x with
  | zero => exact (List.eq_nil_of_length_eq_zero h.1).symm
  | succ n ih =>
    rw [Nat.mul_succ, Nat.add_comm] at h
    have ht := byteRow_natLe t 16
    have hb := h.take.xorRow ht
    have hfb := hf _ hb
    have hc := (hfb.xorRow ht).1
    rw [xtsBlocks, xtsBlocks, List.take_left' hc, List.drop_left' hc, ih h.drop, xorRow_xorRow hfb ht, hg _ hb,
      xorRow_xorRow h.take ht, List.take_append_drop]
end

theorem byteRow_xtsSeal (pair : BitVec 512) (tweak : Nat) {x : List Nat} (h : ByteRow 64 x) : ByteRow 64 (xtsSeal pair tweak x) :=
  byteRow_xtsBlocks (fun _ => byteRow_aesEncrypt (roundKeys_xtsKeys pair).1) (n := 4) h

/-- What is sealed opens. -/
theorem xtsOpen_xtsSeal (pair : BitVec 512) (tweak : Nat) {x : List Nat} (h : ByteRow 64 x) :
    xtsOpen pair tweak (xtsSeal pair tweak x) = x :=
  have hk := (roundKeys_xtsKeys pair).1
  xtsBlocks_inverse (fun _ => byteRow_aesEncrypt hk) (fun _ => aesDecrypt_aesEncrypt hk) (n := 4) h

/-! ### What HBM stores (19 R458 to R460) -/

theorem byteRow_map_toNat (bs : List Byte) : ByteRow bs.length (bs.map BitVec.toNat) :=
  ⟨by simp, by simpa using fun b _ => b.isLt⟩

theorem map_toNat_map_ofNat {n : Nat} {x : List Nat} (h : ByteRow n x) : (x.map (BitVec.ofNat 8)).map BitVec.toNat = x := by
  rw [List.map_map]
  exact (List.map_congr_left fun b hb => Nat.mod_eq_of_lt (h.2 b hb)).trans (List.map_id x)

section
variable (s : State) (owner : Option Nat) (space a : Nat) {bytes : List Byte} (h : bytes.length = 64)
include h

theorem length_hbmStored : (hbmStored s owner space a bytes).length = 64 := by
  rw [hbmStored, List.length_map]
  exact (byteRow_xtsSeal _ _ (h ▸ byteRow_map_toNat bytes)).1

theorem hbmSeen_hbmStored : hbmSeen s owner space a (hbmStored s owner space a bytes) = bytes := by
  have hb : ByteRow 64 (bytes.map BitVec.toNat) := h ▸ byteRow_map_toNat bytes
  rw [hbmSeen, hbmStored, map_toNat_map_ofNat (byteRow_xtsSeal _ _ hb), xtsOpen_xtsSeal _ _ hb, List.map_map]
  exact (List.map_congr_left fun b _ => (BitVec.ofNat_toNat 8 b).trans (BitVec.setWidth_eq b)).trans (List.map_id bytes)
end

theorem Table.length_getList {α : Type} (d : α) (t : Table α) (k n : Nat) : (Table.getList d t k n).length = n := by
  induction n generalizing k with
  | zero => rfl
  | succ n ih => exact congrArg (· + 1) (ih (k + 1))

theorem length_hbmRead (s : State) (l a n : Nat) : (s.hbmRead l a n).length = n := Table.length_getList ..

/-! ### The statement -/

/-- Settles O53: AES-256 undone round by round, and XTS block by block. -/
theorem hbmIsEncrypted : Obligations.HbmIsEncrypted := by
  unfold Obligations.HbmIsEncrypted
  refine ⟨fun s owner space a bytes h => ⟨length_hbmStored s owner space a h, hbmSeen_hbmStored s owner space a h⟩,
    fun s l a => ?tweak, fun s l space a bytes => ⟨rfl, rfl⟩, fun s l a => hbmSeen_hbmStored s (some l) 0 a (length_hbmRead ..)⟩
  case tweak =>
    rw [State.hbmCipher, hbmStored, hbmTweak, Nat.zero_mul, Nat.zero_add]
    rfl

end Sys2Proof.Machine
end

