-- ==== Sys2Proof/Proofs/HostAccess.lean ====
section
/-! Accesses of a host function to its registers: closed BARs (O8), the rings (O12), posts (O13), the steward lock and the host tally
page (O18), ORD_FLUSH (O21) and MSI-X (O22). -/
namespace Sys2Proof.Machine

variable {s : State} {fn : Nat}

/-! ### Closed BARs (15 R375, Table 15.7, 21 R504, 19 R463) -/

/-- Settles O8: no access gets past the BAR check. -/
theorem closedBarRefusesWrites : Obligations.ClosedBarRefusesWrites := by
  unfold Obligations.ClosedBarRefusesWrites
  intro s fn h
  have hgate (act : State → State) : Host.Outcome.next (gated fn act s) =
      (.next (s.emit (.unsupported fn)) : Host.Outcome State Fault Refusal) := congrArg _ (gated_closed h act)
  refine ⟨fun g n v w size b c hc => ?registers, fun bar4 off size v late => ?write, fun off data ep => ?windowWrite,
    fun off en ro at_ f => ?windowRead⟩
  case registers =>
    simp only [List.mem_cons, List.not_mem_nil, or_false] at hc
    rcases hc with rfl | rfl | rfl | rfl | rfl | rfl | rfl | rfl | rfl | rfl | rfl | rfl | rfl | rfl | rfl
    case inr.inr.inr.inr.inr.inr.inr.inr.inr.inr.inr.inr.inr.inr =>
      exact congrArg Host.Outcome.next (if_neg (ne_true_of_eq_false h))
    all_goals exact hgate _
  case write => exact congrArg Host.Outcome.next (if_pos (by simp [h]))
  case windowWrite => exact congrArg Host.Outcome.next (if_pos (by simp [h]))
  case windowRead => exact congrArg Host.Outcome.next (if_pos (by simp [h]))

/-! ### The rings (16 R390, R393, R394, 23 R551) -/

theorem drainHeld_nil (h : (s.fnOf fn).held = []) (n : Nat) : s.drainHeld fn n = s := by
  cases n with
  | zero => rfl
  | succ n => simp only [State.drainHeld, h]

/-- A ring after its group's transfer: empty, with the new settings live. -/
def ringStarted (r : Ring) : Ring := { r with grp := transfer r.grp, prod := 0, cons := 0 }

theorem fnOf_ringStarted (f : Nat) :
    ((s.setGroup (.ring f) (transfer (s.groupOf (.ring f)))).updFn f fun y => { y with ring := { y.ring with prod := 0, cons := 0 } }).fnOf f =
      { s.fnOf f with ring := ringStarted (s.fnOf f).ring } := by
  simp only [State.setGroup, State.groupOf, State.fnOf_updFn]
  rfl

/-- Where nothing is held and no command waits, the transfer of a ring's group starts the ring anew and does nothing more. -/
theorem exec_commitTransfer_ring {f : Nat} (hp : (s.fnOf f).ring.grp.pending = true) (hh : (s.fnOf f).held = [])
    (hf : s.host.flights = []) : exec (.commitTransfer (.ring f)) s =
      .next ((s.setGroup (.ring f) (transfer (s.groupOf (.ring f)))).updFn f
        fun y => { y with ring := { y.ring with prod := 0, cons := 0 } }) := by
  have hg : (s.groupOf (.ring f)).pending = true := hp
  have ht : transferGroup (.ring f) s = (s.setGroup (.ring f) (transfer (s.groupOf (.ring f)))).updFn f
      (fun y => { y with ring := { y.ring with prod := 0, cons := 0 } }) := by
    rw [transferGroup, if_pos hg]
    exact drainHeld_nil (by rw [fnOf_ringStarted]; exact hh) 64
  have hsp : safePoint (.ring f) s = transferGroup (.ring f) s := safePoint_of_flights_nil hg (by rw [ht]; exact hf)
  rw [← ht, ← hsp]
  exact congrArg Host.Outcome.next (if_pos (by simp [hg, atSafePoint]))

/-- Settles O12. -/
theorem ringCounters : Obligations.RingCounters := by
  unfold Obligations.RingCounters
  refine ⟨fun s f hp hh hf => ⟨_, exec_commitTransfer_ring hp hh hf, ?_⟩, fun s fn v hb => ?_⟩
  · rw [fnOf_ringStarted, ringStarted, transfer_pending hp]
    exact ⟨rfl, rfl, rfl, rfl, fun g hg => by rw [State.fnOf_updFn_ne _ _ hg]; exact State.fnOf_updFn_ne _ _ hg, rfl⟩
  · intro u
    have hcons : exec (.mbxRingConsWrite fn v) s =
        .next ((u.updFn fn (fun y => { y with ring := { y.ring with cons := v } })).drainHeld fn 64) :=
      congrArg Host.Outcome.next (gated_open hb _)
    refine ⟨hcons, fun hh => ?_, congrArg Host.Outcome.next (gated_open hb _)⟩
    rw [hcons, drainHeld_nil (by simpa using hh)]

/-! ### Posts (16 R385, R386) -/

theorem Table.ins_ins {α : Type} (t : Table α) (k : Nat) (v w : α) : (t.ins k v).ins k w = t.ins k w := by
  induction t with
  | nil => simp [Table.ins]
  | cons e r ih =>
    obtain ⟨a, x⟩ := e
    by_cases hlt : k < a
    · simp [Table.ins, hlt]
    · by_cases heq : k = a
      · simp [Table.ins, heq]
      · simp [Table.ins, hlt, heq, ih]

/-- The second of two writes that both leave an entry is the one that stands. -/
theorem State.setFn_setFn {f : Nat} {x y : Fn} (hx : x ≠ {}) (hy : y ≠ {}) : (s.setFn f x).setFn f y = s.setFn f y := by
  simp only [State.setFn, Table.set, if_neg hx, if_neg hy, Table.ins_ins]

/-- The header that AER holds once `x` signals an error: the first one logged whose status bit still stands, or else this one. -/
def firstLog (x : Fn) (bar off bit : Nat) : AerLog :=
  match x.aerLog with
  | some h => if x.aerStatus.getLsbD h.bit then h else { bar := bar, off := off, bit := bit }
  | none => { bar := bar, off := off, bit := bit }

/-- An error that is not masked (15 R384). -/
theorem aerError_signals {f bit bar off : Nat} (hm : (s.fnOf f).aerMask.getLsbD bit = false) : s.aerError f bit bar off =
    (s.setFn f { s.fnOf f with
      aerStatus := (s.fnOf f).aerStatus ||| (1#32 <<< bit), aerLog := some (firstLog (s.fnOf f) bar off bit) }).emit
        (.errMessage f ((s.fnOf f).aerSeverity.getLsbD bit)) := by
  have hlog : (match (s.fnOf f).aerLog with
      | some h => if (s.fnOf f).aerStatus.getLsbD h.bit then some h else some { bar := bar, off := off, bit := bit }
      | none => some { bar := bar, off := off, bit := bit }) = some (firstLog (s.fnOf f) bar off bit) := by
    rw [firstLog]
    cases (s.fnOf f).aerLog with
    | none => rfl
    | some h => exact (apply_ite some _ _ _).symm
  rw [← hlog]
  exact if_neg (ne_true_of_eq_false hm)

/-- A function after a post that found its queue full. -/
def postRejected (x : Fn) : Fn :=
  { x with rejectedCount := satInc x.rejectedCount 65535, rejectValid := true, lastRejectSeq := x.nextSeq }
/-- Its AER status then. -/
def postAborted (x : Fn) : Fn := { postRejected x with aerStatus := x.aerStatus ||| (1#32 <<< 15) }

theorem Fn.ne_default {x : Fn} (h : x.rejectValid = true) : x ≠ {} := fun e => by simp [e] at h

section
variable {off : Nat} {bytes : Entry}

theorem postMessage_appends (h : (s.fnOf fn).queue.length < 32) : postMessage fn off bytes s = s.setFn fn { s.fnOf fn with
    queue := (s.fnOf fn).queue ++ [{ seq := (s.fnOf fn).nextSeq, bytes := bytes }],
    nextSeq := (s.fnOf fn).nextSeq + 1,
    queueWm := sampleWm (s.fnOf fn).queueWm (decide (24 ≤ (s.fnOf fn).queue.length + 1)) } := if_pos h

theorem postMessage_rejects (h : 32 ≤ (s.fnOf fn).queue.length) :
    postMessage fn off bytes s = (s.setFn fn (postRejected (s.fnOf fn))).aerError fn 15 0 off := if_neg (Nat.not_lt.mpr h)

theorem aerError_rejected_masked (x : Fn) (hm : x.aerMask.getLsbD 15 = true) :
    (s.setFn fn (postRejected x)).aerError fn 15 0 off = s.setFn fn (postAborted x) := by
  have hm' : (postRejected x).aerMask.getLsbD 15 = true := hm
  rw [State.aerError, State.fnOf_setFn]
  exact (if_pos hm').trans (State.setFn_setFn (Fn.ne_default rfl) (Fn.ne_default rfl))

theorem aerError_rejected_signals (x : Fn) (hm : x.aerMask.getLsbD 15 = false) :
    (s.setFn fn (postRejected x)).aerError fn 15 0 off =
      (s.setFn fn { postAborted x with aerLog := some (firstLog x 0 off 15) }).emit (.errMessage fn (x.aerSeverity.getLsbD 15)) := by
  have hm' : ((s.setFn fn (postRejected x)).fnOf fn).aerMask.getLsbD 15 = false := by rw [State.fnOf_setFn]; exact hm
  rw [aerError_signals hm', State.fnOf_setFn, State.setFn_setFn (Fn.ne_default rfl) (Fn.ne_default rfl)]
  rfl
end

/-- Settles O13: both registers post through `postMessage`. -/
theorem postAppendsOrRejects : Obligations.PostAppendsOrRejects := by
  unfold Obligations.PostAppendsOrRejects
  intro s fn off bytes c hb u x hc
  have hpost : exec c s = .next (postMessage fn off bytes u) := by
    rcases hc with ⟨rfl, rfl, rfl⟩ | ⟨v, rfl, rfl, rfl⟩
    · exact congrArg Host.Outcome.next ((gated_open hb _).trans (if_pos rfl))
    · exact congrArg Host.Outcome.next ((gated_open hb _).trans (if_pos rfl))
  refine ⟨fun h => by rw [hpost, postMessage_appends h], fun h => ?_⟩
  intro y z
  rw [hpost, postMessage_rejects h]
  refine ⟨fun hm => by rw [aerError_rejected_masked x hm]; rfl, fun hm hl => ?_,
    firstLog x 0 off 15, fun hm => by rw [aerError_rejected_signals x hm]; rfl⟩
  have hnone : x.aerLog = none := hl
  rw [aerError_rejected_signals x hm, firstLog, hnone]
  rfl

/-! ### The steward lock and HTALLY_LEASE (17 R412, 23 R550) -/

/-- Settles O18. -/
theorem stewardLockAndTallyPage : Obligations.StewardLockAndTallyPage := by
  unfold Obligations.StewardLockAndTallyPage
  refine ⟨fun s fn hb => ?lock, fun s fn v hb => ?page⟩
  case lock =>
    intro u
    have hacq (v : Word) : exec (.stwLockAcquire fn v) s = .next (acquireLock fn v u) := congrArg Host.Outcome.next (gated_open hb _)
    have hrel (v : Word) : exec (.stwLockRelease fn v) s = .next (releaseLock fn v u) := congrArg Host.Outcome.next (gated_open hb _)
    refine ⟨fun hpf hfree => ?_, fun hheld => ?_, fun hs => ?_, fun hs => ?_, ?_, ?_⟩
    · rw [hacq, acquireLock, if_pos (by simp [hpf, hfree])]
    · rw [hacq, acquireLock, if_neg (by simp [hheld])]
    · rw [hrel, releaseLock, if_pos (by simp [hs])]
    · rw [hrel, releaseLock, if_neg (by simp [hs])]
    · rw [hacq, acquireLock, if_neg (by simp)]
    · rw [hrel, releaseLock, if_neg (by simp)]
  case page =>
    intro u l
    have hw : exec (.htallyLeaseWrite fn v) s = .next (writeHtLease fn v u) := congrArg Host.Outcome.next (gated_open hb _)
    rw [hw, writeHtLease, natBits_lowHalf]
    exact ⟨fun h => congrArg Host.Outcome.next (if_pos h), fun h => congrArg Host.Outcome.next (if_neg h)⟩

/-! ### ORD_FLUSH (15 R377) -/

/-- Settles O21. -/
theorem flushWaitsForWrites : Obligations.FlushWaitsForWrites := by
  unfold Obligations.FlushWaitsForWrites
  refine fun s fn => ⟨fun ro hb => congrArg Host.Outcome.next (if_pos hb), fun ids ro r hf => ?_⟩
  have hdone : exec (.flushComplete fn) s = .next (if (openWrites s fn).any (fun i => ids.contains i) then s
      else ((settleRegs fn s).updFn fn (fun y => { y with flushes := r })).emit (.completion fn (leBytes 0 4) false ro)) := by
    show Host.Outcome.next (flushDone fn s) = _
    simp only [flushDone, hf]
  rw [hdone]
  constructor
  · rintro ⟨i, hi, ho⟩
    rw [if_pos (List.any_eq_true.mpr ⟨i, ho, List.contains_iff_mem.mpr hi⟩)]
  · intro hnone
    rw [if_neg fun h => ?_]
    · rfl
    · obtain ⟨i, ho, hi⟩ := List.any_eq_true.mp h
      exact hnone i (List.contains_iff_mem.mp hi) ho

/-! ### MSI-X (15 R382) -/

theorem getLsbD_clearBit {v : Nat} (hv : v < 16) (x : BitVec 16) : (x &&& ~~~ (1#16 <<< v)).getLsbD v = false := by
  simp [hv]

/-- Settles O22. -/
theorem msixPendingAndUnmask : Obligations.MsixPendingAndUnmask := by
  unfold Obligations.MsixPendingAndUnmask
  refine fun s fn v hv => ⟨fun hm => if_neg (by simp [hm]), fun hb => ?_⟩
  intro u
  have hact : exec (.msixVectorUnmask fn v) s = .next (unmaskVector fn v u) := congrArg Host.Outcome.next (gated_open hb _)
  rw [hact]
  refine ⟨fun hp => congrArg Host.Outcome.next (if_neg (by simp [hp])), fun hp he hf hc => ⟨_, rfl, ?_⟩⟩
  have hsend : unmaskVector fn v u = ((u.updFn fn (fun y => { y with msixMask := y.msixMask &&& ~~~ (1#16 <<< v) })).updFn fn
      (fun y => { y with msixPba := y.msixPba &&& ~~~ (1#16 <<< v) })).emit (.msix fn v) := if_pos (by simp [hp, he, hf, hc])
  rw [hsend]
  refine ⟨rfl, ?_, ?_, fun g hg => ?_⟩
  · rw [State.emit_fnOf, State.fnOf_updFn]
    exact getLsbD_clearBit hv _
  · rw [State.emit_fnOf, State.fnOf_updFn, State.fnOf_updFn]
    exact getLsbD_clearBit hv _
  · rw [State.emit_fnOf, State.fnOf_updFn_ne _ _ hg, State.fnOf_updFn_ne _ _ hg]

end Sys2Proof.Machine
end

