-- ==== Sys2Proof/Proofs/Reset.lean ====
section
/-! The front of the queue (O1), and what a cold reset leaves (O3, O4). -/
namespace Sys2Proof.Machine

/-- Settles O1: the step takes the command off the queue before it runs it. -/
theorem stepRunsFrontCommand : Obligations.StepRunsFrontCommand := by
  unfold Obligations.StepRunsFrontCommand
  exact fun s c => rfl

/-- An entry of an empty table reads as the default, whatever its number. -/
theorem reset_fnOf (f : Nat) : State.reset.fnOf f = {} := rfl
theorem reset_clkOf (d : Nat) : State.reset.clkOf d = {} := rfl

/-- Settles O3: every table is empty at reset, so that each entry holds the reset value of its type. -/
theorem resetRegisters : Obligations.ResetRegisters := by
  unfold Obligations.ResetRegisters
  refine ⟨by decide, by decide, rfl, rfl, fun d => ?clocks, rfl, rfl, fun k => rfl, fun f => ?functions, fun l => rfl, fun h => rfl,
    fun i => rfl, rfl, rfl⟩
  case clocks => rw [reset_clkOf]; exact ⟨rfl, rfl⟩
  case functions => rw [reset_fnOf]; exact ⟨rfl, rfl, rfl, by decide, rfl⟩

/-- Settles O4: the empty memories are canonical. -/
theorem resetMemoryCanonical : Obligations.ResetMemoryCanonical := by
  unfold Obligations.ResetMemoryCanonical
  exact canon_reset

end Sys2Proof.Machine
end

