-- ==== Sys2Proof/Proofs/Records.lean ====
section
/-! What event records change (18 R448, R449, 23 R551): of the host's side the functions' event rings, their numbers and their pending
vectors, what was sent, and the log.  Everything else stands, `RecordsOnly`, and so do the conditions that later proofs read. -/
namespace Sys2Proof.Machine

variable {s t u : State}

/-- From `x` to `y` a function's event ring, its numbers and its pending vectors alone may change. -/
def FnTold (x y : Fn) : Prop := ∃ e n d p, y = { x with evt := e, evtNumber := n, evtDropped := d, msixPba := p }

theorem FnTold.refl (x : Fn) : FnTold x x := ⟨_, _, _, _, rfl⟩

theorem FnTold.trans {x y z : Fn} (h1 : FnTold x y) (h2 : FnTold y z) : FnTold x z := by
  obtain ⟨_, _, _, _, rfl⟩ := h1
  obtain ⟨_, _, _, _, rfl⟩ := h2
  exact ⟨_, _, _, _, rfl⟩

/-- From `s` to `t` records alone were made. -/
structure RecordsOnly (s t : State) : Prop where
  frame : ∃ fns o r, t = { s with host := { s.host with fns := fns }, out := o, ras := r }
  fns : ∀ k, FnTold (s.fnOf k) (t.fnOf k)

theorem RecordsOnly.refl (s : State) : RecordsOnly s s := ⟨⟨_, _, _, rfl⟩, fun _ => .refl _⟩

theorem RecordsOnly.trans (h1 : RecordsOnly s t) (h2 : RecordsOnly t u) : RecordsOnly s u := by
  obtain ⟨⟨_, _, _, rfl⟩, hf1⟩ := h1
  obtain ⟨⟨_, _, _, rfl⟩, hf2⟩ := h2
  exact ⟨⟨_, _, _, rfl⟩, fun k => (hf1 k).trans (hf2 k)⟩

theorem RecordsOnly.emit (h : RecordsOnly s t) (o : Out) : RecordsOnly s (t.emit o) :=
  h.trans ⟨⟨_, _, _, rfl⟩, fun _ => .refl _⟩

theorem RecordsOnly.ras (h : RecordsOnly s t) (r : Ras) : RecordsOnly s { t with ras := r } :=
  h.trans ⟨⟨_, _, _, rfl⟩, fun _ => .refl _⟩

theorem RecordsOnly.updFn {f : Nat} {g : Fn → Fn} (h : RecordsOnly s t) (hg : ∀ y, FnTold y (g y)) : RecordsOnly s (t.updFn f g) := by
  refine h.trans ⟨⟨_, _, _, rfl⟩, fun k => ?_⟩
  by_cases hk : k = f
  · rw [hk, State.fnOf_updFn]; exact hg _
  · rw [State.fnOf_updFn_ne _ _ hk]; exact .refl _

theorem RecordsOnly.msix (h : RecordsOnly s t) (f v : Nat) : RecordsOnly s (t.msix f v) := by
  unfold State.msix
  split
  · exact h.emit _
  · exact h.updFn fun _ => ⟨_, _, _, _, rfl⟩

theorem RecordsOnly.eventTo (h : RecordsOnly s t) (e : Ev) (f : Nat) : RecordsOnly s (t.eventTo e f) := by
  have hnumber : RecordsOnly s (t.updFn f (fun y => { y with evtNumber := y.evtNumber + 1 })) := h.updFn fun _ => ⟨_, _, _, _, rfl⟩
  unfold State.eventTo
  split
  · exact ((hnumber.emit _).updFn fun _ => ⟨_, _, _, _, rfl⟩).msix f 1
  · exact hnumber.updFn fun _ => ⟨_, _, _, _, rfl⟩

theorem RecordsOnly.foldl {β : Type} {f : State → β → State} {l : List β} (h : RecordsOnly s t)
    (hf : ∀ {u} b, RecordsOnly s u → RecordsOnly s (f u b)) : RecordsOnly s (l.foldl f t) := by
  induction l generalizing t with
  | nil => exact h
  | cons b l ih => exact ih (hf b h)

theorem RecordsOnly.logEvent (h : RecordsOnly s t) (e : Ev) : RecordsOnly s (t.logEvent e) := h.ras _

theorem RecordsOnly.event {e : Ev} {fns : List Nat} {log : Bool} (h : RecordsOnly s t) : RecordsOnly s (t.event e fns log) := by
  unfold State.event
  have hsent : RecordsOnly s ((dedup fns).foldl (fun s f => s.eventTo e f) t) := h.foldl fun f h => h.eventTo e f
  cases log with
  | true => exact hsent.logEvent e
  | false => exact hsent

/-- The log takes one record where it is asked to; no other part of the repair state changes. -/
theorem ras_event (s : State) (e : Ev) (fns : List Nat) (log : Bool) :
    (s.event e fns log).ras = if log then (s.logEvent e).ras else s.ras := by
  have hsent : (dedup fns).foldl (fun s f => s.eventTo e f) s = { s with
      host := ((dedup fns).foldl (fun s f => s.eventTo e f) s).host, out := ((dedup fns).foldl (fun s f => s.eventTo e f) s).out } := by
    obtain ⟨h, o, hf⟩ := tellsOnly_foldl_eventTo e (dedup fns) s
    rw [hf]
  unfold State.event
  rw [hsent]
  cases log <;> rfl

section
variable (h : RecordsOnly s t)
include h

theorem RecordsOnly.canSend (f : Nat) : t.canSend f = s.canSend f := by
  obtain ⟨⟨fns, o, r, rfl⟩, hf⟩ := h
  obtain ⟨e, n, d, p, hk⟩ := hf f
  simp only [State.canSend, State.canSendTo, hk]
  rfl

theorem RecordsOnly.barOpen (f : Nat) : t.barOpen f = s.barOpen f := by
  obtain ⟨⟨fns, o, r, rfl⟩, hf⟩ := h
  obtain ⟨e, n, d, p, hk⟩ := hf f
  simp only [State.barOpen, hk]
  rfl

theorem RecordsOnly.bar2Log2 (f : Nat) : (t.fnOf f).bar2Log2 = (s.fnOf f).bar2Log2 := by
  obtain ⟨e, n, d, p, hk⟩ := h.fns f
  rw [hk]

theorem RecordsOnly.windowAt (f o : Nat) : windowAt t f o = windowAt s f o := by
  obtain ⟨e, n, d, p, hk⟩ := h.fns f
  simp only [Machine.windowAt, hk]
end

/-! ### What a read of lease HBM finds (18 R425, R426) -/

theorem RecordsOnly.setScrub (h : RecordsOnly s t) (i : Nat) (b : Scrub) : RecordsOnly s (setScrub t i b) := h.ras _

theorem RecordsOnly.scrubEvent (h : RecordsOnly s t) (type die dom n : Nat) : RecordsOnly s (scrubEvent type die dom n t) := by
  unfold Machine.scrubEvent State.eventStewardLog
  exact h.event

theorem RecordsOnly.escalate (h : RecordsOnly s t) (die dom : Nat) : RecordsOnly s (escalate die dom t) := by
  unfold Machine.escalate
  extract_lets b n
  split
  · exact (h.setScrub _ _).scrubEvent _ _ _ _
  · exact h

theorem RecordsOnly.countCorrectable (h : RecordsOnly s t) (die dom line : Nat) : RecordsOnly s (countCorrectable die dom line t) :=
  (h.setScrub _ _).escalate die dom

theorem RecordsOnly.poisonFound (h : RecordsOnly s t) (l unit addr domain by_ mask tag : Nat) (owned : Bool) :
    RecordsOnly s (poisonFound l unit addr domain by_ mask tag owned t) := by
  unfold Machine.poisonFound
  extract_lets e
  split
  · unfold State.eventLeaseStewardLog
    exact h.event
  · unfold State.eventStewardLog
    exact h.event

/-- A finding marks units of lease HBM, and makes records of it. -/
theorem hbmFinding_records (l a by_ tag : Nat) (f : Finding) (s : State) :
    ∃ m, RecordsOnly (s.setHbmPoison m) (hbmFinding l a by_ tag f s) := by
  cases f with
  | clean => exact ⟨s.hbm.poison, .refl _⟩
  | correctable pos => exact ⟨s.hbm.poison, (RecordsOnly.refl s).countCorrectable _ _ _⟩
  | uncorrectable mask =>
    obtain ⟨m, hm⟩ := hbmMark_eq s l a 1 true
    rw [hbmFinding, hm]
    exact ⟨m, (RecordsOnly.refl _).poisonFound ..⟩

end Sys2Proof.Machine
end

