-- ==== Sys2Proof/Proofs/HostWindows.lean ====
section
/-! Reads of a function's windows (O20) and configuration requests to it (O23). -/
namespace Sys2Proof.Machine

variable {s : State} {fn : Nat}

/-! ### BAR2 reads (15 R366, R367, R369, 18 R425, R426) -/

/-- The state once what the read finds at byte `at_` has been dealt with. -/
def windowFound (fn off at_ : Nat) (fd : Finding) (s : State) : State :=
  match windowAt s fn (off + at_) with
  | some (_, w) => hbmFinding w.lease (w.hbmOff + (off + at_ - w.barOff)) 4 0 fd s
  | none => s

/-- The completion of one piece of a read. -/
def pieceOut (s : State) (fn off : Nat) (en : List Bool) (ro : Bool) (p : Nat × Nat) : Out :=
  .completion fn (enabledBytes fn p.1 (windowPiece s (withOwnWrites fn s) fn p.1 p.2).1 (en.drop (p.1 - off)))
    (windowPiece s (withOwnWrites fn s) fn p.1 p.2).2 ro

/-- The pieces of a read in the units that it touches. -/
def readPieces (off len : Nat) : List (Nat × Nat) := unitPieces off len (len / 64 + 2)

/-- The read of what stands: the completions, and the record of the first piece that no window maps. -/
def windowServed (fn off : Nat) (en : List Bool) (ro : Bool) (s : State) : State :=
  let t : State := { s with out := s.out ++ (readPieces off en.length).map (pieceOut s fn off en ro) }
  match (readPieces off en.length).find? (fun p => (windowAt s fn p.1).isNone) with
  | some p => windowFault fn p.1 false t
  | none => t

section
variable {off : Nat} {en : List Bool} {ro : Bool} (hb : s.barOpen fn = true) (hlen : off + en.length ≤ 2 ^ (s.fnOf fn).bar2Log2)
include hb hlen

theorem exec_hostWindowRead (at_ : Nat) (f : Finding) : exec (.hostWindowRead fn off en ro at_ f) s =
    .next (windowServed fn off en ro (windowFound fn off at_ f s)) := by
  have hin : ¬(!(s.barOpen fn) || decide (2 ^ (s.fnOf fn).bar2Log2 < off + en.length)) = true := by simp [hb, hlen]
  refine congrArg Host.Outcome.next ((if_neg hin).trans ?_)
  rw [foldl_emit]
  rfl

theorem exec_hostWindowRead_clean (at_ : Nat) : exec (.hostWindowRead fn off en ro at_ .clean) s =
    .next (windowServed fn off en ro s) := by
  have hclean : windowFound fn off at_ .clean s = s := by
    unfold windowFound
    split <;> rfl
  rw [exec_hostWindowRead hb hlen, hclean]

/-- What is found is dealt with first; the read of the state that it leaves goes as any other. -/
theorem exec_hostWindowRead_found {at_ i : Nat} {w : InWin} (f : Finding) (hw : windowAt s fn (off + at_) = some (i, w)) :
    exec (.hostWindowRead fn off en ro at_ f) s =
      exec (.hostWindowRead fn off en ro at_ .clean) (hbmFinding w.lease (w.hbmOff + (off + at_ - w.barOff)) 4 0 f s) := by
  obtain ⟨m, hrec⟩ := hbmFinding_records w.lease (w.hbmOff + (off + at_ - w.barOff)) 4 0 f s
  have hb' : (hbmFinding w.lease (w.hbmOff + (off + at_ - w.barOff)) 4 0 f s).barOpen fn = true := (hrec.barOpen fn).trans hb
  rw [exec_hostWindowRead hb hlen, exec_hostWindowRead_clean hb' (by rw [hrec.bar2Log2]; exact hlen), windowFound, hw]
end

theorem withOwnWrites_none (h : s.host.writes.filter (fun w => w.fn == fn && !w.lost) = []) : withOwnWrites fn s = s := by
  rw [withOwnWrites, h]
  rfl

theorem pieceOut_mapped {off : Nat} {en : List Bool} {ro : Bool} {p : Nat × Nat} {i : Nat} {w : InWin}
    (h : s.host.writes.filter (fun w => w.fn == fn && !w.lost) = []) (hw : windowAt s fn p.1 = some (i, w)) :
    pieceOut s fn off en ro p = .completion fn (enabledBytes fn p.1 (s.hbmRead w.lease (w.hbmOff + (p.1 - w.barOff)) p.2)
      (en.drop (p.1 - off))) (s.hbmPoisoned w.lease (w.hbmOff + (p.1 - w.barOff))) ro := by
  simp only [pieceOut, windowPiece, hw, withOwnWrites_none h]

/-- A read within one unit is one piece. -/
theorem readPieces_unit {off len : Nat} (hpos : 0 < len) (h : off % 64 + len ≤ 64) : readPieces off len = [(off, len)] := by
  have hmin : min len (64 - off % 64) = len := by omega
  simp only [readPieces, unitPieces, hmin, Nat.sub_self, if_neg hpos.ne', if_pos]

theorem windowFault_counted {off : Nat} {write : Bool} (h : (s.fnOf fn).winFault.valid = true) : windowFault fn off write s =
    s.updFn fn (fun y => { y with winFault := { y.winFault with count := satInc y.winFault.count 255 } }) := if_pos h

/-- Settles O20. -/
theorem windowReads : Obligations.WindowReads := by
  unfold Obligations.WindowReads
  refine ⟨fun s fn off en ro hb hlen hpos => ?_, fun s fn off en ro at_ f i w hb hlen => exec_hostWindowRead_found hb hlen f,
    fun s fn off write => windowFault_counted⟩
  intro ps
  refine ⟨fun hown w hmap at_ => ?mapped, fun hunit hnone at_ => ?unmapped⟩
  case mapped =>
    have hfind : (readPieces off en.length).find? (fun p => (windowAt s fn p.1).isNone) = none := by
      refine List.find?_eq_none.mpr fun p hp => ?_
      obtain ⟨i, hi⟩ := hmap p hp
      simp [hi]
    rw [exec_hostWindowRead_clean hb hlen]
    simp only [windowServed, hfind]
    refine congrArg (fun l => Host.Outcome.next { s with out := s.out ++ l }) (List.map_congr_left fun p hp => ?_)
    obtain ⟨i, hi⟩ := hmap p hp
    exact pieceOut_mapped hown hi
  case unmapped =>
    rw [exec_hostWindowRead_clean hb hlen]
    simp only [windowServed, readPieces_unit hpos hunit, List.find?_cons, hnone, Option.isNone_none, List.map_cons, List.map_nil,
      pieceOut, windowPiece, Nat.sub_self, List.drop_zero]
    rfl

/-! ### Configuration requests (21 R504, 15 R370) -/

section
variable (hup : (s.portOf (fnPort fn)).linkUp = true) (hen : s.fnEnabled fn = true)
include hup hen

theorem exec_configRequest_notReady (hr : (s.fnOf fn).ready = false) (op : ConfigOp) :
    exec (.configRequest fn op) s = .next (s.emit (.retryStatus fn)) := by
  show Host.Outcome.next (cfgRequest fn op s) = _
  simp [cfgRequest, hup, hen, hr]

theorem exec_configRequest_ready (hr : (s.fnOf fn).ready = true) (op : ConfigOp) :
    exec (.configRequest fn op) s = .next (cfgAct fn op s) := by
  show Host.Outcome.next (cfgRequest fn op s) = _
  simp [cfgRequest, hup, hen, hr]
end

/-- Settles O23: once the request is let through, each operation is a change of one field. -/
theorem configurationOfFunctions : Obligations.ConfigurationOfFunctions := by
  unfold Obligations.ConfigurationOfFunctions
  intro s fn
  refine ⟨fun hup hen => ⟨fun hr op => exec_configRequest_notReady hup hen hr op, fun hr => ?requests⟩, fun hr => ?states,
    fun hup hen h12 => congrArg Host.Outcome.next (if_pos (by simp [hup, hen, h12])),
    fun h12 => congrArg Host.Outcome.next (if_neg (by simp [h12])), fun port ht => congrArg Host.Outcome.next (if_pos ht), fun port => rfl⟩
  case requests =>
    have hact := exec_configRequest_ready hup hen hr
    refine ⟨fun off => hact _, fun b => hact _, hact _, hact _, fun b => hact _, fun b => hact _, hact _, fun v => hact _,
      fun k hk => (hact _).trans (congrArg Host.Outcome.next (if_pos hk)), fun k hk => (hact _).trans (congrArg Host.Outcome.next (if_pos hk)),
      fun i v => hact _, fun v => hact _, fun v => hact _, fun v => hact _, fun n hpf hn hb => ?_, hact _⟩
    exact (hact _).trans (congrArg Host.Outcome.next (if_pos (by simp [hpf, hn, hb])))
  case states =>
    exact ⟨congrArg Host.Outcome.next (if_pos hr), congrArg Host.Outcome.next (if_pos hr),
      fun k h26 h38 hm => congrArg Host.Outcome.next (if_pos (by simp [hr, hm, h26, h38])),
      fun k hm => congrArg Host.Outcome.next (if_neg (by simp [hm]))⟩

end Sys2Proof.Machine
end

