-- ==== Sys2Proof/Proofs/Messages.lean ====
section
/-! Messages taken, begun and answered (O26, O27). -/
namespace Sys2Proof.Machine

variable {s : State} {fn : Nat} {seq : Word} {x : Flight}

/-! ### The reply of a command (16 R387, R397) -/

theorem finishCmd_discarded (h : flightOf s fn seq = some x) (hd : x.discard = true) (st : Status) (fl : Nat) (res : List Byte) :
    finishCmd s fn seq st fl res = dropFlight s fn seq := by
  simp [finishCmd, h, hd]

theorem finishCmd_replies (h : flightOf s fn seq = some x) (hd : x.discard = false) (st : Status) (fl : Nat) (res : List Byte) :
    finishCmd s fn seq st fl res = (dropFlight s fn seq).produce fn (replyEntry 0 st fl (fieldAt (entryBytes x.msg.bytes) 0 1)
      (fieldAt (entryBytes x.msg.bytes) 2 2) (fieldAt (entryBytes x.msg.bytes) 4 2) seq.toNat res) := by
  simp [finishCmd, h, hd]

/-- Settles O27: the reply of a function that was reset is dropped, any other is produced. -/
theorem commandReplies : Obligations.CommandReplies := by
  unfold Obligations.CommandReplies
  intro s fn seq x st fl res h
  exact ⟨fun hd => finishCmd_discarded h hd st fl res, fun hd => finishCmd_replies h hd st fl res⟩

/-! ### Taking a message (16 R395, R396) -/

/-- The state once the message at the front of a function's queue has left it. -/
def queueTaken (s : State) (fn : Nat) (r : List Msg) : State :=
  s.updFn fn (fun y => { y with queue := r, queueWm := sampleWm y.queueWm (decide (24 ≤ r.length)) })

section
variable {m : Msg} {r : List Msg} (hq : (s.fnOf fn).queue = m :: r)
include hq

theorem exec_messageTake_fails {st : Status} (hc : takeChecks (queueTaken s fn r) fn (entryBytes m.bytes) = some st) :
    exec (.messageTake fn) s = .next
      (if mayBegin fn (msgLease (entryBytes m.bytes)) (queueTaken s fn r).host.flights = true then
        (queueTaken s fn r).produce fn (replyEntry 0 st 0 (msgOp (entryBytes m.bytes)) (fieldAt (entryBytes m.bytes) 2 2)
          (msgLease (entryBytes m.bytes)) m.seq.toNat [])
      else fly (queueTaken s fn r) { fn := fn, msg := m, failed := some st }) := by
  unfold queueTaken at hc ⊢
  simp only [exec, execMessageTake, done, hq, hc]

theorem exec_messageTake_passes (hc : takeChecks (queueTaken s fn r) fn (entryBytes m.bytes) = none)
    (hs : subListed (msgOp (entryBytes m.bytes)) (fieldAt (entryBytes m.bytes) 8 1) = true) :
    exec (.messageTake fn) s = .next (fly (queueTaken s fn r)
      { fn := fn, msg := m, reclaim := reclaimMet s fn (entryBytes m.bytes),
        wait := if mayBegin fn (msgLease (entryBytes m.bytes)) (queueTaken s fn r).host.flights then .begun else .taken }) := by
  unfold queueTaken at hc ⊢
  simp only [exec, execMessageTake, done, hq, hc, beginMsg, hs, if_true, ite_self]
end

/-! ### Beginning a message that waited (16 R395, R396) -/

/-- The messages taken before the one with this sequence number. -/
def takenEarlier (s : State) (fn : Nat) (seq : Word) : List Flight :=
  s.host.flights.takeWhile (fun y => !(y.fn == fn && y.msg.seq == seq))

section
variable (hf : flightOf s fn seq = some x) (hw : x.wait = .taken)
include hf

theorem exec_messageBegin_waits (hm : mayBegin fn (msgLease (entryBytes x.msg.bytes)) (takenEarlier s fn seq) = false) :
    exec (.messageBegin fn seq) s = .next s := by
  have hnot : ¬(x.wait = .taken ∧ mayBegin fn (msgLease (entryBytes x.msg.bytes)) (takenEarlier s fn seq) = true) :=
    fun h => ne_true_of_eq_false hm h.2
  simp only [exec, execMessageBegin, done, hf]
  exact congrArg Host.Outcome.next (if_neg hnot)

include hw

theorem exec_messageBegin_fails {st : Status} (hm : mayBegin fn (msgLease (entryBytes x.msg.bytes)) (takenEarlier s fn seq) = true)
    (hst : x.failed = some st ∨ (x.failed = none ∧ leaseCheck s fn (entryBytes x.msg.bytes) = some st)) :
    exec (.messageBegin fn seq) s = .next (finishCmd s fn seq st 0 []) := by
  have hfirst : firstFail [x.failed, leaseCheck s fn (entryBytes x.msg.bytes), quenchCheck s (entryBytes x.msg.bytes)] = some st := by
    obtain h | ⟨h, hl⟩ := hst
    · simp [firstFail, h]
    · simp [firstFail, h, hl]
  simp only [exec, execMessageBegin, done, hf, hfirst]
  exact congrArg Host.Outcome.next (if_pos ⟨hw, hm⟩)

theorem exec_messageBegin_begins (hm : mayBegin fn (msgLease (entryBytes x.msg.bytes)) (takenEarlier s fn seq) = true)
    (hfail : x.failed = none) (hl : leaseCheck s fn (entryBytes x.msg.bytes) = none)
    (hq : quenchCheck s (entryBytes x.msg.bytes) = none)
    (hs : subListed (msgOp (entryBytes x.msg.bytes)) (fieldAt (entryBytes x.msg.bytes) 8 1) = true) :
    exec (.messageBegin fn seq) s = .next (updFlight s fn seq (fun y => { y with wait := .begun })) := by
  have hfirst : firstFail [x.failed, leaseCheck s fn (entryBytes x.msg.bytes), quenchCheck s (entryBytes x.msg.bytes)] = none := by
    simp [firstFail, hfail, hl, hq]
  simp only [exec, execMessageBegin, done, hf, hfirst, beginMsg, hs, if_true]
  exact congrArg Host.Outcome.next (if_pos ⟨hw, hm⟩)
end

/-! ### A command whose lease has changed since it began (17 Table 17.2, R415) -/

theorem onCmd_stale {b : List Byte} {op : Nat} {st : Status} (hb : s.begun fn seq b = true) (ho : msgOp b = op)
    (hs : staleStatus s fn op b = some st) (act : List Byte → State → State) :
    onCmd fn seq op none act s = finishCmd s fn seq st 0 [] := by
  obtain ⟨x, hx, hw, he⟩ := begun_iff.mp hb
  simp [onCmd, hx, hw, he, ho, hs]

/-- The commands that go on with a lease's memory or programs, with their opcodes. -/
def leaseCommands (fn : Nat) (seq : Word) (at_ : Nat) (f : Finding) : List (Nat × Instr) :=
  [(0x12, .leaseClose fn seq), (0x23, .billetFill fn seq), (0x24, .zeroFill fn seq), (0x30, .ingotStage fn seq at_ f),
   (0x40, .seqStart fn seq at_ f), (0x43, .seqResume fn seq), (0x44, .fenceCommand fn seq), (0x50, .tallyRead fn seq)]

theorem exec_leaseCommand {at_ op : Nat} {f : Finding} {c : Instr} (hc : (op, c) ∈ leaseCommands fn seq at_ f) :
    ∃ act, exec c s = .next (onCmd fn seq op none act s) := by
  simp only [leaseCommands, List.mem_cons, List.not_mem_nil, or_false, Prod.mk.injEq] at hc
  obtain ⟨rfl, rfl⟩ | ⟨rfl, rfl⟩ | ⟨rfl, rfl⟩ | ⟨rfl, rfl⟩ | ⟨rfl, rfl⟩ | ⟨rfl, rfl⟩ | ⟨rfl, rfl⟩ | ⟨rfl, rfl⟩ := hc <;>
    exact ⟨_, rfl⟩

theorem exec_leaseCommand_stale {b : List Byte} {at_ op : Nat} {f : Finding} {c : Instr} {st : Status}
    (hc : (op, c) ∈ leaseCommands fn seq at_ f) (hb : s.begun fn seq b = true) (ho : msgOp b = op)
    (hs : staleStatus s fn op b = some st) : exec c s = .next (finishCmd s fn seq st 0 []) := by
  obtain ⟨act, hact⟩ := exec_leaseCommand (s := s) hc
  rw [hact, onCmd_stale hb ho hs]

/-- Settles O26: the outcome of taking a message, of beginning one that waited, and of acting for a lease that has changed. -/
theorem messagesTakenAndBegun : Obligations.MessagesTakenAndBegun := by
  unfold Obligations.MessagesTakenAndBegun
  refine ⟨fun s fn m r hq => ⟨fun st hc => exec_messageTake_fails hq hc, fun hc hs => exec_messageTake_passes hq hc hs⟩,
    fun s fn seq x hf hw => ⟨fun hm => exec_messageBegin_waits hf hm, fun hm => ⟨fun st hst => exec_messageBegin_fails hf hw hm hst,
      fun hfail hl hq hs => exec_messageBegin_begins hf hw hm hfail hl hq hs⟩⟩,
    fun s fn seq b c op at_ f st hc hb ho hs => exec_leaseCommand_stale hc hb ho hs⟩

end Sys2Proof.Machine
end

