-- ==== Sys2Proof/Proofs/WindowOps.lean ====
section
/-! WINDOW_MAP, WINDOW_UNMAP and ZERO_FILL (O33). -/
namespace Sys2Proof.Machine

variable {s : State} {fn : Nat} {seq : Word} {b : List Byte}

/-! ### Zeroing lease memory (18 R427) -/

/-- Dropping keys leaves the default there and every other value. -/
theorem Table.get_keep {α : Type} (d : α) (t : Table α) (p : Nat → Bool) (k : Nat) :
    (t.keep p).get d k = if p k = true then t.get d k else d := by
  unfold Table.keep
  induction t with
  | nil => simp [Table.get]
  | cons e r ih =>
    obtain ⟨a, v⟩ := e
    by_cases ha : a = k
    · subst ha
      by_cases hp : p a = true
      · simp [Table.get, hp]
      · simpa [hp, Table.get] using ih
    · by_cases hp : p a = true
      · simpa [hp, Table.get, ha] using ih
      · simpa [hp, Table.get, ha] using ih

theorem hbmByte_hbmZero_inside {l a n j : Nat} (h1 : a ≤ j) (h2 : j < a + n) : (s.hbmZero l a n).hbmByte l j = 0 := by
  have hin : hbmKey l a ≤ hbmKey l j ∧ hbmKey l j < hbmKey l (a + n) := by
    unfold hbmKey
    omega
  rw [State.hbmByte, State.hbmZero, State.setHbmPoison, State.setHbmMem, Table.get_keep, if_neg (by simp [hin])]

theorem hbmKey_add (l a n : Nat) : hbmKey l (a + n) = hbmKey l a + n := (Nat.add_assoc _ _ _).symm

theorem hbmByte_hbmZero_outside {l a n k j : Nat} (hn : a + n ≤ 2 ^ 40) (hj : j < 2 ^ 40) (h : k ≠ l ∨ j < a ∨ a + n ≤ j) :
    (s.hbmZero l a n).hbmByte k j = s.hbmByte k j := by
  have hout : hbmKey k j < hbmKey l a ∨ hbmKey l (a + n) ≤ hbmKey k j := by
    rw [hbmKey_add]
    exact hbmKey_outside hn hj h
  rw [State.hbmByte, State.hbmZero, State.setHbmPoison, State.setHbmMem, Table.get_keep, if_pos (by simpa using hout)]
  rfl

/-- A reply leaves HBM as it is. -/
theorem hbm_finishCmd (st : Status) (fl : Nat) (res : List Byte) : (finishCmd s fn seq st fl res).hbm = s.hbm := by
  obtain ⟨_, _, h⟩ := tellsOnly_finishCmd s fn seq st fl res
  rw [h]

/-! ### Mapping (15 R368, Tables 15.4, 15.6) -/

/-- The inbound window that a WINDOW_MAP of kind 0 describes. -/
def mappedWindow (b : List Byte) : InWin :=
  { lease := msgLease b, barOff := fieldAt b 16 8, length := fieldAt b 24 8, hbmOff := fieldAt b 32 8,
    writable := fieldAt b 10 1 == 1 }
/-- The arguments that WINDOW_MAP takes for an inbound window of the function. -/
structure InboundArgs (s : State) (fn : Nat) (b : List Byte) : Prop where
  index : fieldAt b 9 1 ≤ 15
  access : fieldAt b 10 1 ≤ 1
  barAligned : fieldAt b 16 8 % 2097152 = 0
  lenAligned : fieldAt b 24 8 % 2097152 = 0
  lenPos : 2097152 ≤ fieldAt b 24 8
  hbmAligned : fieldAt b 32 8 % 2097152 = 0
  inLease : s.inLease (msgLease b) (fieldAt b 32 8) (fieldAt b 24 8) = true
  inBar : fieldAt b 16 8 + fieldAt b 24 8 ≤ 2 ^ (s.fnOf fn).bar2Log2
  apart : ∀ k w, (k, some w) ∈ (s.fnOf fn).windows →
    fieldAt b 16 8 + fieldAt b 24 8 ≤ w.barOff ∨ w.barOff + w.length ≤ fieldAt b 16 8

/-- The window of the message shares a byte of BAR2 with one that is mapped. -/
def overlapsMapped (s : State) (fn : Nat) (b : List Byte) : Bool :=
  (s.fnOf fn).windows.any (fun e => match e.2 with
    | some w => overlaps (fieldAt b 16 8) (fieldAt b 24 8) w.barOff w.length
    | none => false)

theorem InboundArgs.no_overlap (ha : InboundArgs s fn b) : overlapsMapped s fn b = false := by
  rw [overlapsMapped, List.any_eq_false]
  rintro ⟨k, w⟩ hw
  cases w with
  | none => simp
  | some w =>
    have := ha.apart k w hw
    simp only [overlaps, Bool.and_eq_true, decide_eq_true_eq]
    omega

theorem InboundArgs.not_bad (ha : InboundArgs s fn b) :
    ¬(15 < fieldAt b 9 1 ∨ 1 < fieldAt b 10 1 ∨ fieldAt b 16 8 % winUnit ≠ 0 ∨ fieldAt b 24 8 % winUnit ≠ 0 ∨
      fieldAt b 24 8 < winUnit ∨ fieldAt b 32 8 % winUnit ≠ 0 ∨ !(s.inLease (msgLease b) (fieldAt b 32 8) (fieldAt b 24 8)) ∨
      2 ^ (s.fnOf fn).bar2Log2 < fieldAt b 16 8 + fieldAt b 24 8 ∨ overlapsMapped s fn b) := by
  obtain ⟨hindex, haccess, hbar, hlen, hpos, hhbm, hin, hsize, -⟩ := id ha
  simp only [winUnit, ha.no_overlap, hin, Bool.not_true, Bool.false_eq_true, or_false, false_or]
  omega

section
variable (h : s.asks fn seq 0x20 b = true)
include h

theorem exec_windowMapInbound (hsub : fieldAt b 8 1 = 0) (ha : InboundArgs s fn b) : exec (.windowMapInbound fn seq) s = .next
    (if ((s.fnOf fn).windows.get none (fieldAt b 9 1)).isSome then fail fn seq .busy s
    else reply fn seq [] (s.updFn fn (fun y => { y with windows := y.windows.set none (fieldAt b 9 1) (some (mappedWindow b)) }))) :=
  congrArg Host.Outcome.next ((onCmd_sub h hsub _).trans (if_neg ha.not_bad))

/-- The external window that a WINDOW_MAP of kind 1 describes. -/
def mappedEntry (b : List Byte) : WinEntry :=
  { busAddr := fieldAt b 16 8, length := fieldAt b 24 8, read := natBit (fieldAt b 10 1) 0, write := natBit (fieldAt b 10 1) 1,
    peer := natBit (fieldAt b 10 1) 2, runAheadSafe := natBit (fieldAt b 10 1) 3 }

theorem exec_windowMapEntry (hsub : fieldAt b 8 1 = 1)
    (hok : ¬(15 < fieldAt b 10 1 ∨ fieldAt b 10 1 % 4 = 0 ∨ fieldAt b 16 8 % 4096 ≠ 0 ∨ fieldAt b 24 8 % 4096 ≠ 0 ∨
      fieldAt b 24 8 < 4096 ∨ 2 ^ 40 < fieldAt b 24 8)) :
    exec (.windowMapEntry fn seq) s = .next
      (if ((s.leaseOf (msgLease b)).entries.get none (fieldAt b 9 1)).isSome then fail fn seq .busy s
      else reply fn seq [] (s.updLease (msgLease b) (fun x =>
        { x with entries := x.entries.set none (fieldAt b 9 1) (some (mappedEntry b)) }))) :=
  congrArg Host.Outcome.next ((onCmd_sub h hsub _).trans (if_neg hok))
end

/-! ### Unmapping (15 R372, R376) -/

section
variable (h : s.asks fn seq 0x21 b = true)
include h

theorem exec_windowUnmapInbound (hsub : fieldAt b 8 1 = 0) {w : InWin}
    (hw : (s.fnOf fn).windows.get none (fieldAt b 9 1) = some w) (hl : w.lease = msgLease b) :
    exec (.windowUnmapInbound fn seq) s = .next (reply fn seq [] (forgetWindow fn (fieldAt b 9 1)
      (s.updFn fn (fun y => { y with windows := y.windows.set none (fieldAt b 9 1) none })))) := by
  refine congrArg Host.Outcome.next ((onCmd_sub h hsub _).trans ?_)
  simp only [hw, hl, if_true]

theorem exec_windowUnmapEntry (hsub : fieldAt b 8 1 = 1)
    (he : (s.leaseOf (msgLease b)).entries.get none (fieldAt b 9 1) ≠ none) :
    exec (.windowUnmapEntry fn seq) s = .next
      (if entryInUse s (msgLease b) (fieldAt b 9 1) = true then fail fn seq .busy s
      else reply fn seq [] (s.updLease (msgLease b) (fun x => { x with entries := x.entries.set none (fieldAt b 9 1) none }))) :=
  congrArg Host.Outcome.next ((onCmd_sub h hsub _).trans (if_neg (by simpa using he)))
end

/-! ### ZERO_FILL (16 Table 16.10) -/

section
variable (h : s.asks fn seq 0x24 b = true) (ho : fieldAt b 16 8 % 4096 = 0) (hn : fieldAt b 24 8 % 4096 = 0)
  (hin : s.inLease (msgLease b) (fieldAt b 16 8) (fieldAt b 24 8) = true)
include h ho hn hin

theorem exec_zeroFill : exec (.zeroFill fn seq) s = .next
    (if leaseRuns s (msgLease b) true = true then fail fn seq .busy s
    else reply fn seq [] (s.hbmZero (msgLease b) (fieldAt b 16 8) (fieldAt b 24 8))) :=
  congrArg Host.Outcome.next ((onCmd_asks h _).trans (if_neg (by simp [ho, hn, hin])))
end

/-- Settles O33: each mapping and unmapping with its arguments in order; what ZERO_FILL leaves, byte by byte. -/
theorem windowCommands : Obligations.WindowCommands := by
  unfold Obligations.WindowCommands
  intro s fn seq b
  refine ⟨fun h hsub h1 h2 h3 h4 h5 h6 h7 h8 h9 => ?_, fun h hsub h1 h2 h3 h4 h5 h6 => ?_,
    fun h hsub w hw hl => exec_windowUnmapInbound h hsub hw hl, fun h hsub he => ?_, fun h ho hn hin hle => ?_⟩
  · rw [exec_windowMapInbound h hsub ⟨h1, h2, h3, h4, h5, h6, h7, h8, h9⟩]
    exact ⟨fun hfree => congrArg Host.Outcome.next (if_neg (by simp [hfree])),
      fun hused => congrArg Host.Outcome.next (if_pos (Option.isSome_iff_ne_none.mpr hused))⟩
  · rw [exec_windowMapEntry h hsub (by omega)]
    exact ⟨fun hfree => congrArg Host.Outcome.next (if_neg (by simp [hfree])),
      fun hused => congrArg Host.Outcome.next (if_pos (Option.isSome_iff_ne_none.mpr hused))⟩
  · rw [exec_windowUnmapEntry h hsub he]
    exact ⟨fun hu => congrArg Host.Outcome.next (if_neg (ne_true_of_eq_false hu)), fun hu => congrArg Host.Outcome.next (if_pos hu)⟩
  · rw [exec_zeroFill h ho hn hin]
    refine ⟨fun hr => ⟨_, congrArg Host.Outcome.next (if_neg (ne_true_of_eq_false hr)), fun a h1 h2 => ?_, fun k a ha hout => ?_⟩,
      fun hr => congrArg Host.Outcome.next (if_pos hr)⟩
    · rw [reply, State.hbmByte, hbm_finishCmd]
      exact hbmByte_hbmZero_inside h1 h2
    · rw [reply, State.hbmByte, hbm_finishCmd]
      exact hbmByte_hbmZero_outside hle ha hout

end Sys2Proof.Machine
end

