-- ==== Sys2Proof/Proofs/LeasePolicy.lean ====
section
/-! The sub-operations of LEASE_POLICY (O32). -/
namespace Sys2Proof.Machine

variable {s : State} {fn : Nat} {seq : Word} {b : List Byte} (h : s.asks fn seq 0x14 b = true)

section
include h

/-! ### The owner's settings (16 Table 16.9, R399) -/

theorem exec_leasePolicyLimits (hsub : fieldAt b 8 1 = 0x00) : exec (.leasePolicyLimits fn seq) s = .next
    (if fieldAt b 12 4 ≠ 0 ∧ (fieldAt b 12 4 < 5 ∨ 10000 < fieldAt b 12 4) then fail fn seq .badArg s
    else policySet fn seq b (fun y => { y with
      lendUs := if fieldAt b 12 4 = 0 then y.lendUs else fieldAt b 12 4, limitUs := fieldAt b 16 4 }) s) :=
  congrArg Host.Outcome.next (onCmd_sub h hsub _)

theorem exec_leasePolicyDemandSigned (hsub : fieldAt b 8 1 = 0x01) : exec (.leasePolicyDemandSigned fn seq) s = .next
    (if (s.leaseOf (msgLease b)).demandSigned ∧ fieldAt b 12 1 = 0 then fail fn seq .locked s
    else if 1 < fieldAt b 12 1 then fail fn seq .badArg s
    else policySet fn seq b (fun y => { y with demandSigned := fieldAt b 12 1 == 1 }) s) :=
  congrArg Host.Outcome.next (onCmd_sub h hsub _)

theorem exec_leasePolicyDiePreference (hsub : fieldAt b 8 1 = 0x05) (hv : fieldAt b 12 1 ≤ 15) :
    exec (.leasePolicyDiePreference fn seq) s = .next (policySet fn seq b (fun y => { y with diePref := fieldAt b 12 1 }) s) :=
  congrArg Host.Outcome.next ((onCmd_sub h hsub _).trans (if_neg (Nat.not_lt.mpr hv)))

/-! ### The keys (16 R399, 18 R425, R426) -/

theorem exec_leasePolicyKeyInstall (hsub : fieldAt b 8 1 = 0x02) (hd : (s.leaseOf (msgLease b)).demandSigned = false) (a : Nat)
    (f : Finding) (hd1 : ((fwRead (msgLease b) (fieldAt b 16 8) 96 a f s).leaseOf (msgLease b)).demandSigned = false)
    (hk : fieldAt b 12 1 ≤ 7)
    (hin : (fwRead (msgLease b) (fieldAt b 16 8) 96 a f s).inLease (msgLease b) (fieldAt b 16 8) 96 = true) :
    exec (.leasePolicyKeyInstall fn seq a f) s = .next (policySet fn seq b (fun y => { y with
        keys := y.keys.set none (fieldAt b 12 1) (some (BitVec.ofNat 768
          (beNat ((fwRead (msgLease b) (fieldAt b 16 8) 96 a f s).hbmRead (msgLease b) (fieldAt b 16 8) 96)))) })
      (fwRead (msgLease b) (fieldAt b 16 8) 96 a f s)) := by
  have hread : (if (s.leaseOf (msgLease b)).demandSigned = true then s else fwRead (msgLease b) (fieldAt b 16 8) 96 a f s) =
      fwRead (msgLease b) (fieldAt b 16 8) 96 a f s := if_neg (ne_true_of_eq_false hd)
  have hargs : ¬(7 < fieldAt b 12 1 ∨
      !((fwRead (msgLease b) (fieldAt b 16 8) 96 a f s).inLease (msgLease b) (fieldAt b 16 8) 96)) := by
    simpa [hin] using hk
  refine congrArg Host.Outcome.next ((onCmd_sub h hsub _).trans ?_)
  simp only [hread]
  exact (if_neg (ne_true_of_eq_false hd1)).trans (if_neg hargs)

theorem exec_leasePolicyKeyInstall_locked (hsub : fieldAt b 8 1 = 0x02) (hd : (s.leaseOf (msgLease b)).demandSigned = true)
    (a : Nat) (f : Finding) : exec (.leasePolicyKeyInstall fn seq a f) s = .next (fail fn seq .locked s) := by
  refine congrArg Host.Outcome.next ((onCmd_sub h hsub _).trans ?_)
  simp only [hd, if_true]

theorem exec_leasePolicyKeyClear (hsub : fieldAt b 8 1 = 0x03) : exec (.leasePolicyKeyClear fn seq) s = .next
    (if (s.leaseOf (msgLease b)).demandSigned then fail fn seq .locked s
    else if 7 < fieldAt b 12 1 then fail fn seq .badArg s
    else policySet fn seq b (fun y => { y with keys := y.keys.set none (fieldAt b 12 1) none }) s) :=
  congrArg Host.Outcome.next (onCmd_sub h hsub _)

/-! ### A doorbell bit (09 R225) -/

theorem exec_leasePolicyDoorbellBind (hsub : fieldAt b 8 1 = 0x04) (hv : fieldAt b 12 1 ≤ 31) (hon : fieldAt b 13 1 ≤ 1)
    (hn : fieldAt b 13 1 = 1 → fieldAt b 14 1 < (s.leaseOf (msgLease b)).tallies) :
    exec (.leasePolicyDoorbellBind fn seq) s = .next (reply fn seq [] (s.updFn fn (fun y => { y with
      dbBind := y.dbBind.set none (fieldAt b 12 1) (if fieldAt b 13 1 = 1 then some (msgLease b, fieldAt b 14 1) else none) }))) :=
  congrArg Host.Outcome.next ((onCmd_sub h hsub _).trans (if_neg (by omega)))

/-! ### The steward's settings (17 R418) -/

theorem exec_leasePolicyDebugPermission (hsub : fieldAt b 8 1 = 0x10) : exec (.leasePolicyDebugPermission fn seq) s = .next
    (if !(s.isSteward fn) then fail fn seq .stewardRequired s
    else if s.sec.policy.getLsbD 3 ∧ fieldAt b 12 1 = 1 then fail fn seq .locked s
    else if 1 < fieldAt b 12 1 then fail fn seq .badArg s
    else policySet fn seq b (fun y => { y with debugPerm := fieldAt b 12 1 == 1 }) s) :=
  congrArg Host.Outcome.next (onCmd_sub h hsub _)

theorem exec_leasePolicyMaxDormancy (hsub : fieldAt b 8 1 = 0x11) : exec (.leasePolicyMaxDormancy fn seq) s = .next
    (if !(s.isSteward fn) then fail fn seq .stewardRequired s
    else expire (msgLease b) (policySet fn seq b (fun y => { y with maxDormS := fieldAt b 12 4 }) s)) :=
  congrArg Host.Outcome.next (onCmd_sub h hsub _)
end

/-- Settles O32: each sub-operation with its arguments in order, and what its lock or its owner refuses. -/
theorem leasePolicyCommands : Obligations.LeasePolicyCommands := by
  unfold Obligations.LeasePolicyCommands
  intro s fn seq b h
  refine ⟨fun hsub => ?_, fun hsub => ?_, fun hsub => ?_, fun hsub => ?_, fun hsub hv => ?_, fun hsub hv => ?_, fun hsub => ?_,
    fun hsub => ?_⟩
  · rw [exec_leasePolicyLimits h hsub]
    exact ⟨fun hv => congrArg Host.Outcome.next (if_neg (by omega)), fun h0 hv => congrArg Host.Outcome.next (if_pos ⟨h0, hv⟩)⟩
  · rw [exec_leasePolicyDemandSigned h hsub]
    exact ⟨fun hv hd => congrArg Host.Outcome.next ((if_neg hd).trans (if_neg (by omega))),
      fun hd hv => congrArg Host.Outcome.next (if_pos ⟨hd, hv⟩)⟩
  · exact ⟨fun a f hd hd1 hk hin => exec_leasePolicyKeyInstall h hsub hd a f hd1 hk hin,
      fun hd a f => exec_leasePolicyKeyInstall_locked h hsub hd a f⟩
  · rw [exec_leasePolicyKeyClear h hsub]
    exact ⟨fun hd hv => congrArg Host.Outcome.next ((if_neg (ne_true_of_eq_false hd)).trans (if_neg (by omega))),
      fun hd => congrArg Host.Outcome.next (if_pos hd)⟩
  · refine ⟨fun hon hn => ?_, fun hon => ?_⟩
    · rw [exec_leasePolicyDoorbellBind h hsub hv hon.le fun _ => hn, if_pos hon]
    · rw [exec_leasePolicyDoorbellBind h hsub hv (by omega) (by omega), if_neg (by omega)]
  · exact exec_leasePolicyDiePreference h hsub hv
  · rw [exec_leasePolicyDebugPermission h hsub]
    exact ⟨fun hst hv hf => congrArg Host.Outcome.next ((if_neg (by simp [hst])).trans ((if_neg hf).trans (if_neg (by omega)))),
      fun hst => congrArg Host.Outcome.next (if_pos (by simp [hst]))⟩
  · rw [exec_leasePolicyMaxDormancy h hsub]
    exact ⟨fun hst => congrArg Host.Outcome.next (if_neg (by simp [hst])),
      fun hst => congrArg Host.Outcome.next (if_pos (by simp [hst]))⟩

end Sys2Proof.Machine
end

