-- ==== Sys2Proof/Proofs/LeaseOpen.lean ====
section
/-! LEASE_OPEN: where regions, spans and save areas are placed, and what the grant holds (O29). -/
namespace Sys2Proof.Machine

variable {s : State} {free : List Nat}

/-! ### The die of a span, the stack of a save area (17 R405) -/

theorem foldl_choice {α : Type} {ok : α → Bool} {f : Option α → α → Option α}
    (hf : ∀ a d, f a d = a ∨ (f a d = some d ∧ ok d = true)) (l : List α) {a : Option α} (ha : ∀ d, a = some d → ok d = true) :
    ∀ d, l.foldl f a = some d → ok d = true := by
  induction l generalizing a with
  | nil => exact ha
  | cons e r ih =>
    refine ih fun d hd => ?_
    obtain h | ⟨h, hok⟩ := hf a e
    · exact ha d (h ▸ hd)
    · rw [h] at hd
      cases hd
      exact hok

theorem bestDie_ok {ok : Nat → Bool} {d : Nat} (h : bestDie free ok = some d) : ok d = true := by
  refine foldl_choice (fun a d => ?_) _ (by simp) d h
  cases a with
  | none => by_cases hok : ok d = true <;> simp [hok]
  | some e => by_cases hok : ok d = true <;> by_cases hr : dieRoom free e < dieRoom free d <;> simp [hok, hr]

theorem Option.eq_some_of_orElse {α : Type} {o : Option α} {f : Unit → Option α} {x : α} (h : o.orElse f = some x) :
    o = some x ∨ f () = some x := by
  cases o with
  | none => exact .inr h
  | some y => exact .inl h

theorem spanDie_fits {pref d : Nat} (h : spanDie s pref free = some d) : spanFits s free d = true := by
  obtain h | h := Option.eq_some_of_orElse h
  · have := List.find?_some h
    simp only [Bool.and_eq_true] at this
    exact this.2
  · exact bestDie_ok h

theorem saveStackOn_room {d k : Nat} (h : saveStackOn free d = some k) : saveBytes ≤ free.getD k 0 := by
  simpa using List.find?_some h

theorem saveStackFor_room {r k : Nat} (h : saveStackFor free r = some k) : saveBytes ≤ free.getD k 0 := by
  obtain h | h := Option.eq_some_of_orElse h
  · exact saveStackOn_room h
  · obtain ⟨d, -, hd⟩ := Option.bind_eq_some_iff.mp h
    exact saveStackOn_room hd

/-! ### What stays free never grows -/

theorem getD_takeBytes_le (k n j : Nat) : (takeBytes free k n).getD j 0 ≤ free.getD j 0 := by
  simp only [takeBytes, List.getD_eq_getElem?_getD, List.getElem?_set]
  split
  · rename_i hk
    subst hk
    split
    · simp
    · simp
  · exact le_rfl

theorem getD_takeSpan_le (d j : Nat) : (takeSpan free d).getD j 0 ≤ free.getD j 0 :=
  (getD_takeBytes_le _ _ _).trans (getD_takeBytes_le _ _ _)

theorem getD_stackFree_le (k : Nat) : (stackFree s).getD k 0 ≤ stackCap s k := by
  simp only [stackFree, upTo, List.getD_eq_getElem?_getD, List.getElem?_map]
  by_cases hk : k < 2 * s.nDies
  · simp [List.getElem?_range hk]
  · simp [List.getElem?_eq_none (show (List.range (2 * s.nDies)).length ≤ k by simpa using hk)]

/-- A stack with capacity is a usable stack of a usable die. -/
theorem usable_of_room {k : Nat} (h : saveBytes ≤ stackCap s k) : s.dieUsable (k / 2) = true ∧ s.stackUsable k = true := by
  by_cases hu : (s.dieUsable (k / 2) && s.stackUsable k) = true
  · simpa using hu
  · rw [stackCap, if_neg hu] at h
    exact absurd h (by decide)

/-! ### Placing spans and save areas -/

/-- Both stacks of a usable die are usable. -/
def dieWhole (s : State) (d : Nat) : Prop :=
  s.dieUsable d = true ∧ s.stackUsable (2 * d) = true ∧ s.stackUsable (2 * d + 1) = true

theorem dieWhole_of_fits {d : Nat} (h : spanFits s free d = true) : dieWhole s d := by
  simp only [spanFits, Bool.and_eq_true] at h
  obtain ⟨⟨⟨⟨hd, h0⟩, h1⟩, -⟩, -⟩ := h
  exact ⟨hd, h0, h1⟩

theorem placeSpans_spec {pref n : Nat} {p : List Nat × List Nat} (h : placeSpans s pref n free = some p) :
    p.1.length = n ∧ (∀ d ∈ p.1, dieWhole s d) ∧ ∀ j, p.2.getD j 0 ≤ free.getD j 0 := by
  induction n generalizing free p with
  | zero =>
    cases h
    exact ⟨rfl, by simp, fun j => le_rfl⟩
  | succ n ih =>
    rw [placeSpans] at h
    split at h
    · exact absurd h (by simp)
    next d hd =>
      obtain ⟨q, hq, rfl⟩ := Option.map_eq_some_iff.mp h
      obtain ⟨hlen, hwhole, hle⟩ := ih hq
      exact ⟨congrArg Nat.succ hlen, List.forall_mem_cons.mpr ⟨dieWhole_of_fits (spanDie_fits hd), hwhole⟩,
        fun j => (hle j).trans (getD_takeSpan_le d j)⟩

theorem placeSaves_room {rs : List Nat} {q : List (Nat × Nat) × List Nat} (h : placeSaves rs free = some q) :
    ∀ e ∈ q.1, saveBytes ≤ free.getD e.2 0 := by
  induction rs generalizing free q with
  | nil =>
    cases h
    simp
  | cons r rs ih =>
    rw [placeSaves] at h
    split at h
    · exact absurd h (by simp)
    next k hk =>
      obtain ⟨q', hq, rfl⟩ := Option.map_eq_some_iff.mp h
      exact List.forall_mem_cons.mpr ⟨saveStackFor_room hk, fun e he => (ih hq e he).trans (getD_takeBytes_le _ _ _)⟩

/-! ### Regions and the lease id (17 R402, R404) -/

theorem grantable_iff {r : Nat} :
    grantable s r = true ↔ r < s.nRegions ∧ s.dieUsable (regionDie r) = true ∧ grantsOf s r < 16 := by
  simp [grantable, and_assoc]

theorem grantable_of_regionOrder {pref r : Nat} (h : r ∈ regionOrder s pref) : grantable s r = true := by
  simp only [regionOrder, List.mem_flatMap, List.mem_append, List.mem_filter] at h
  obtain ⟨g, -, ⟨⟨⟨-, hr⟩, -⟩, -⟩ | ⟨⟨⟨-, hr⟩, -⟩, -⟩⟩ := h <;> exact hr

theorem pickRegions_spec {n mask pref : Nat} {rs : List Nat} (h : pickRegions s n mask pref = some rs)
    (hmask : mask ≠ 0 → (maskRegions mask).length = n) :
    rs.length = n ∧ (∀ r ∈ rs, grantable s r = true) ∧ (mask ≠ 0 → rs = maskRegions mask) := by
  rw [pickRegions] at h
  by_cases hm : mask ≠ 0
  · rw [if_pos hm] at h
    split at h
    next hall =>
      cases h
      exact ⟨hmask hm, List.all_eq_true.mp hall, fun _ => rfl⟩
    · exact absurd h (by simp)
  · rw [if_neg hm] at h
    dsimp only at h
    split at h
    next hlen =>
      cases h
      exact ⟨hlen, fun r hr => grantable_of_regionOrder (List.mem_of_mem_take hr), fun h => absurd h hm⟩
    · exact absurd h (by simp)

theorem freeId_spec {id : Nat} (h : freeId s = some id) :
    id < s.nLeases ∧ (s.leaseOf id).st = .free ∧ ∀ k, k < id → (s.leaseOf k).st ≠ .free := by
  rw [freeId, upTo, List.find?_range_eq_some] at h
  obtain ⟨hst, hlt, hmin⟩ := h
  exact ⟨List.mem_range.mp hlt, by simpa using hst, fun k hk => by simpa using hmin k hk⟩

/-! ### The grant -/

theorem openGrant_spec {fn n ht hl spans pref mask id : Nat} {rs sp : List Nat} {sv : List (Nat × Nat)}
    (h : openGrant s fn n ht hl spans pref mask = some (id, rs, sp, sv)) :
    (s.openOf fn).length < s.limitOf fn ∧ freeId s = some id ∧ pickRegions s n mask pref = some rs ∧
      ∃ p, placeSpans s pref spans (stackFree s) = some p ∧ p.1 = sp ∧
        ∃ q, placeSaves (maskRegions (regionsMask rs).toNat) p.2 = some q ∧ q.1 = sv := by
  rw [openGrant] at h
  split at h
  · exact absurd h (by simp)
  next hroom =>
    split at h
    next id' rs' hid hrs =>
      split at h
      · exact absurd h (by simp)
      next p hp =>
        obtain ⟨q, hq, he⟩ := Option.map_eq_some_iff.mp h
        simp only [Prod.mk.injEq] at he
        obtain ⟨rfl, rfl, hsp, hsv⟩ := he
        exact ⟨by omega, hid, hrs, p, hp, hsp, q, hq, hsv⟩
    · exact absurd h (by simp)

theorem saves_usable {pref spans : Nat} {p : List Nat × List Nat} {rs : List Nat} {q : List (Nat × Nat) × List Nat}
    (hp : placeSpans s pref spans (stackFree s) = some p) (hq : placeSaves rs p.2 = some q) :
    ∀ e ∈ q.1, s.dieUsable (e.2 / 2) = true ∧ s.stackUsable e.2 = true := by
  obtain ⟨-, -, hle⟩ := placeSpans_spec hp
  exact fun e he => usable_of_room ((placeSaves_room hq e he).trans ((hle _).trans (getD_stackFree_le _)))

/-! ### The memory of a grant (18 R427) -/

theorem hbmByte_grantHbm {l k c a : Nat} (h1 : spanBytes * k ≤ a) (h2 : a < spanBytes * (k + c)) :
    (grantHbm l k c s).hbmByte l a = 0 :=
  hbmByte_hbmZero_inside h1 (by rwa [← Nat.mul_add])

theorem hbmPoisoned_grantHbm {l k c a : Nat} (h1 : spanBytes * k ≤ a) (h2 : a < spanBytes * (k + c)) :
    (grantHbm l k c s).hbmPoisoned l a = false := by
  have hin : unitKey l (spanBytes * k) ≤ unitKey l a ∧
      unitKey l a < l * 2 ^ 34 + (spanBytes * k + spanBytes * c) / 64 := by
    simp only [unitKey, spanBytes] at h1 h2 ⊢
    omega
  have hkeep := Table.get_keep false s.hbm.poison
    (fun u => !(decide (unitKey l (spanBytes * k) ≤ u) && decide (u < l * 2 ^ 34 + (spanBytes * k + spanBytes * c) / 64))) (unitKey l a)
  exact hkeep.trans (if_neg (by simpa using hin))

/-! ### The command (16 Table 16.8) -/

/-- The arguments that LEASE_OPEN takes. -/
structure OpenArgs (s : State) (b : List Byte) : Prop where
  regions : 1 ≤ fieldAt b 8 1
  regionsMax : fieldAt b 8 1 ≤ 64
  tallies : fieldAt b 9 1 ≤ 64
  latches : fieldAt b 10 1 ≤ 8
  spans : 1 ≤ fieldAt b 12 2
  pref : fieldAt b 14 1 ≤ 15
  mask : fieldAt b 16 8 = 0 ∨
    ((maskRegions (fieldAt b 16 8)).length = fieldAt b 8 1 ∧ ∀ r ∈ maskRegions (fieldAt b 16 8), r < s.nRegions)

/-- What LEASE_OPEN would grant for its arguments. -/
def grantFor (s : State) (fn : Nat) (b : List Byte) : Option (Nat × List Nat × List Nat × List (Nat × Nat)) :=
  openGrant s fn (fieldAt b 8 1) (fieldAt b 9 1) (fieldAt b 10 1) (fieldAt b 12 2) (fieldAt b 14 1) (fieldAt b 16 8)

section
variable {fn : Nat} {seq : Word} {b : List Byte} (h : s.asks fn seq 0x10 b = true) (ha : OpenArgs s b)
include ha

theorem OpenArgs.not_bad : ¬(fieldAt b 8 1 < 1 ∨ 64 < fieldAt b 8 1 ∨ 64 < fieldAt b 9 1 ∨ 8 < fieldAt b 10 1 ∨
    fieldAt b 12 2 < 1 ∨ 15 < fieldAt b 14 1 ∨ (fieldAt b 16 8 ≠ 0 ∧ ((maskRegions (fieldAt b 16 8)).length ≠ fieldAt b 8 1 ∨
      !((maskRegions (fieldAt b 16 8)).all (fun r => decide (r < s.nRegions)))))) := by
  obtain ⟨h1, h2, h3, h4, h5, h6, h7⟩ := ha
  have hmask : ¬(fieldAt b 16 8 ≠ 0 ∧ ((maskRegions (fieldAt b 16 8)).length ≠ fieldAt b 8 1 ∨
      !((maskRegions (fieldAt b 16 8)).all (fun r => decide (r < s.nRegions))))) := by
    obtain h0 | ⟨hlen, hall⟩ := h7
    · exact fun hc => hc.1 h0
    · have hall' : (maskRegions (fieldAt b 16 8)).all (fun r => decide (r < s.nRegions)) = true := by simpa using hall
      simp [hlen, hall']
  simp only [hmask, or_false]
  omega

include h

theorem exec_leaseOpen_locked (hd : s.sec.debugUnlocked = true) : exec (.leaseOpen fn seq) s = .next (fail fn seq .locked s) :=
  congrArg Host.Outcome.next ((onCmd_asks h _).trans ((if_neg ha.not_bad).trans (if_pos hd)))

variable (hd : s.sec.debugUnlocked = false) (hr : drbgOk s = true)
include hd hr

theorem exec_leaseOpen_noSpace (hg : grantFor s fn b = none) : exec (.leaseOpen fn seq) s = .next (fail fn seq .noSpace s) := by
  unfold grantFor at hg
  refine congrArg Host.Outcome.next ((onCmd_asks h _).trans ((if_neg ha.not_bad).trans ((if_neg (ne_true_of_eq_false hd)).trans
    ((if_neg (by simp [hr])).trans ?_))))
  simp only [hg]

theorem exec_leaseOpen_grants {id : Nat} {rs sp : List Nat} {sv : List (Nat × Nat)} (hg : grantFor s fn b = some (id, rs, sp, sv)) :
    exec (.leaseOpen fn seq) s = .next (reply fn seq
      (leBytes id 2 ++ leBytes (fieldAt b 12 2) 2 ++ leBytes 0 4 ++ leBytes (regionsMask rs).toNat 8 ++
        leBytes (s.drewRandom.random.truncate 128 : BitVec 128).toNat 16)
      (showLease fn id ((grantHbm id 0 (fieldAt b 12 2) s.drewRandom.drewRandom).setLease id
        { st := .opened, owner := fn, regions := regionsMask rs, spans := sp, saveStack := saveTable sv, tallies := fieldAt b 9 1,
          latches := fieldAt b 10 1, token := s.drewRandom.random.truncate 128, key := s.random,
          demandSigned := s.sec.policy.getLsbD 1, diePref := fieldAt b 14 1 }))) := by
  unfold grantFor at hg
  refine congrArg Host.Outcome.next ((onCmd_asks h _).trans ((if_neg ha.not_bad).trans ((if_neg (ne_true_of_eq_false hd)).trans
    ((if_neg (by simp [hr])).trans ?_))))
  simp only [hg]
end

/-- Settles O29: the placement's facts, the command's three outcomes, and the memory that a grant leaves. -/
theorem leaseOpenGrants : Obligations.LeaseOpenGrants := by
  unfold Obligations.LeaseOpenGrants
  intro s fn seq b h n ht hl spans pref mask h1 h2 h3 h4 h5 h6 h7
  have ha : OpenArgs s b := ⟨h1, h2, h3, h4, h5, h6, h7⟩
  refine ⟨fun hd => exec_leaseOpen_locked h ha hd, fun hd hr => ⟨fun hg => exec_leaseOpen_noSpace h ha hd hr hg, ?_⟩,
    fun l k c a hlo hhi _ => ⟨hbmByte_grantHbm hlo hhi, hbmPoisoned_grantHbm hlo hhi⟩⟩
  intro id rs sp sv hg
  obtain ⟨hroom, hid, hrs, p, hp, rfl, q, hq, rfl⟩ := openGrant_spec hg
  obtain ⟨hlt, hfree, hmin⟩ := freeId_spec hid
  obtain ⟨hlen, hgrant, hmask⟩ := pickRegions_spec hrs fun hm => (h7.resolve_left hm).1
  obtain ⟨hspans, hwhole, -⟩ := placeSpans_spec hp
  exact ⟨hlt, hfree, hmin, hlen, fun r hr => grantable_iff.mp (hgrant r hr), hmask, hspans, hwhole, saves_usable hp hq, hroom,
    exec_leaseOpen_grants h ha hd hr hg⟩

end Sys2Proof.Machine
end

