-- ==== Sys2Proof/Proofs/LeaseClose.lean ====
section
/-! LEASE_RESIZE, LEASE_CLOSE and LEASE_RECLAIM (O30). -/
namespace Sys2Proof.Machine

variable {s t u : State} {fn l : Nat} {seq : Word} {b : List Byte}

/-! ### A lease begins to close (17 R559) -/

/-- Of the leases lease `l` alone may have changed, but not its state; the memories and the commands in flight stand. -/
structure LeaseKept (l : Nat) (s t : State) : Prop where
  others : ∀ k, k ≠ l → t.leaseOf k = s.leaseOf k
  st : (t.leaseOf l).st = (s.leaseOf l).st
  flights : t.host.flights = s.host.flights
  hbm : t.hbm = s.hbm
  fab : t.fab = s.fab

theorem LeaseKept.refl (l : Nat) (s : State) : LeaseKept l s s := ⟨fun _ _ => rfl, rfl, rfl, rfl, rfl⟩

theorem LeaseKept.trans (h1 : LeaseKept l s t) (h2 : LeaseKept l t u) : LeaseKept l s u :=
  ⟨fun k hk => (h2.others k hk).trans (h1.others k hk), h2.st.trans h1.st, h2.flights.trans h1.flights, h2.hbm.trans h1.hbm,
    h2.fab.trans h1.fab⟩

theorem LeaseKept.of_records (h : RecordsOnly s t) : LeaseKept l s t := by
  obtain ⟨⟨_, _, _, rfl⟩, -⟩ := h
  exact ⟨fun _ _ => rfl, rfl, rfl, rfl, rfl⟩

theorem LeaseKept.host (h : LeaseKept l s t) {x : HostSt} (hf : x.flights = t.host.flights) : LeaseKept l s { t with host := x } :=
  h.trans ⟨fun _ _ => rfl, rfl, hf, rfl, rfl⟩

theorem LeaseKept.updLease (h : LeaseKept l s t) {g : Lease → Lease} (hg : ∀ x, (g x).st = x.st) :
    LeaseKept l s (t.updLease l g) :=
  h.trans ⟨fun _ hk => State.leaseOf_updLease_ne _ _ hk, by rw [State.leaseOf_updLease, hg], rfl, rfl, rfl⟩

theorem LeaseKept.foldl {β : Type} {f : State → β → State} {xs : List β} (h : LeaseKept l s t)
    (hf : ∀ {u} x, LeaseKept l s u → LeaseKept l s (f u x)) : LeaseKept l s (xs.foldl f t) := by
  induction xs generalizing t with
  | nil => exact h
  | cons x xs ih => exact ih (hf x h)

theorem LeaseKept.eventLease (h : LeaseKept l s t) (e : Ev) (k : Nat) : LeaseKept l s (t.eventLease e k) := by
  unfold State.eventLease
  exact h.trans (.of_records (RecordsOnly.refl t).event)

theorem LeaseKept.abandonHLatches (h : LeaseKept l s t) : LeaseKept l s (abandonHLatches t l) :=
  h.foldl fun j h => by
    dsimp only
    split
    · exact h
    · refine LeaseKept.eventLease (LeaseKept.updLease h ?_) _ _
      exact fun _ => rfl

theorem LeaseKept.loseWrites (h : LeaseKept l s t) (k lo : Nat) : LeaseKept l s (loseWrites k lo t) :=
  h.foldl fun w h => by
    dsimp only
    split
    · exact h.host rfl
    · exact h

theorem LeaseKept.leaseStateEvent (h : LeaseKept l s t) (k st cause former new : Nat) (fns : List Nat) :
    LeaseKept l s (t.leaseStateEvent k st cause former new fns) := by
  unfold State.leaseStateEvent
  exact h.trans (.of_records (RecordsOnly.refl t).event)

/-- Once a lease has entered CLOSING, what begins its close keeps every other lease, the memories and the commands in flight. -/
theorem startClosing_kept (cause : Nat) (reach : List Nat) : LeaseKept l
    (s.setLease l { s.leaseOf l with st := .closing, cause := cause, told := !reach.isEmpty }) (startClosing s l cause reach) := by
  unfold startClosing
  extract_lets x s1 s2
  have h1 : LeaseKept l (s.setLease l { x with st := .closing, cause := cause, told := !reach.isEmpty }) s1 := (LeaseKept.refl l _).host rfl
  have h2 : LeaseKept l (s.setLease l { x with st := .closing, cause := cause, told := !reach.isEmpty }) (unmapLease s2 l) :=
    (h1.leaseStateEvent l 4 cause x.owner 0xFFFF reach).host rfl
  exact (h2.loseWrites l 0).abandonHLatches

theorem startClosing_spec (cause : Nat) (reach : List Nat) :
    ((startClosing s l cause reach).leaseOf l).st = .closing ∧ (∀ k, k ≠ l → (startClosing s l cause reach).leaseOf k = s.leaseOf k) ∧
      (startClosing s l cause reach).host.flights = s.host.flights ∧ (startClosing s l cause reach).hbm = s.hbm ∧
      (startClosing s l cause reach).fab = s.fab := by
  have hk := startClosing_kept (s := s) (l := l) cause reach
  exact ⟨hk.st.trans (by rw [State.leaseOf_setLease]), fun k hne => (hk.others k hne).trans (s.leaseOf_setLease_ne _ hne), hk.flights,
    hk.hbm, hk.fab⟩

/-! ### LEASE_CLOSE (16 Table 16.8) -/

theorem stopAll_of_still (hs : leaseStill s l = true) : stopAll l s = s := by
  have hnone : s.bound.filter (fun e => e.2.lease == l) = [] := by
    simp only [leaseStill, Bool.and_eq_true, List.all_eq_true] at hs
    rw [List.filter_eq_nil_iff]
    intro e he
    simpa using hs.2 e he
  rw [stopAll, hnone]
  rfl

theorem closeGoesOn_waited {x : Flight} (hx : flightOf s fn seq = some x) (hw : x.wait = .closing l) (hs : leaseStill s l = true)
    (hc : (s.leaseOf l).st ≠ .closing) : closeGoesOn l s = startClosing s l 6 (reachOf s l) := by
  have hany : s.host.flights.any (fun y => y.wait == .closing l) = true :=
    List.any_eq_true.mpr ⟨x, List.mem_of_find?_eq_some hx, by simp [hw]⟩
  exact if_pos (by simp [hany, hs, hc])

theorem exec_leaseClose_still (h : s.asks fn seq 0x12 b = true) (hs : leaseStill s (msgLease b) = true)
    (hc : (s.leaseOf (msgLease b)).st ≠ .closing) :
    exec (.leaseClose fn seq) s = .next (startClosing (waitFor fn seq (.closing (msgLease b)) s) (msgLease b) 6
      (reachOf s (msgLease b))) := by
  obtain ⟨x, hx, -, -⟩ := begun_iff.mp (asks_iff.mp h).1
  have hwait := flightOf_updFlight hx (fun y => { y with wait := .closing (msgLease b) }) rfl rfl
  refine congrArg Host.Outcome.next ((onCmd_asks h _).trans ?_)
  have hstop : stopAll (msgLease b) (waitFor fn seq (.closing (msgLease b)) s) = waitFor fn seq (.closing (msgLease b)) s :=
    stopAll_of_still hs
  dsimp only
  rw [hstop]
  exact closeGoesOn_waited hwait rfl hs hc

/-! ### LEASE_RESIZE (16 Table 16.8) -/

/-- The mask of regions that a LEASE_RESIZE asks for: the lease's own where it names none. -/
def resizeMask (s : State) (b : List Byte) : Nat :=
  if fieldAt b 16 8 = 0 then (s.leaseOf (msgLease b)).regions.toNat else fieldAt b 16 8

theorem mem_maskRegions {m r : Nat} : r ∈ maskRegions m ↔ r < 64 ∧ natBit m r = true := by
  simp [maskRegions, upTo]

/-- The lease with what a LEASE_RESIZE takes away, and the regions that it adds. -/
def resizeShrunk (s : State) (b : List Byte) : State := shrunk (msgLease b) (fieldAt b 8 2) (resizeMask s b) s
def resizeGained (s : State) (b : List Byte) : List Nat :=
  (maskRegions (resizeMask s b)).filter (fun r => !((s.leaseOf (msgLease b)).regions.getLsbD r))
/-- The spans that a LEASE_RESIZE adds. -/
def resizeMore (s : State) (b : List Byte) : Nat := fieldAt b 8 2 - (s.leaseOf (msgLease b)).spans.length
/-- A region that the resize takes away is held for solver emulation. -/
def loseEmulated (s : State) (b : List Byte) : Bool :=
  ((maskRegions (s.leaseOf (msgLease b)).regions.toNat).filter (fun r => !(natBit (resizeMask s b) r))).any
    (fun r => (s.regionOf r).emulation.isSome)

theorem loseEmulated_none (hem : ∀ r, (s.leaseOf (msgLease b)).regions.getLsbD r = true → natBit (resizeMask s b) r = false →
    (s.regionOf r).emulation = none) : loseEmulated s b = false := by
  rw [loseEmulated, List.any_eq_false]
  intro r hr
  obtain ⟨hr, hlost⟩ := List.mem_filter.mp hr
  obtain ⟨-, hbit⟩ := mem_maskRegions.mp hr
  rw [natBit_eq_testBit, BitVec.testBit_toNat] at hbit
  simp [hem r hbit (by simpa using hlost)]

theorem resize_args (hsp : 1 ≤ fieldAt b 8 2) (hrs : ∀ r ∈ maskRegions (resizeMask s b), r < s.nRegions) :
    ¬(fieldAt b 8 2 < 1 ∨ !((maskRegions (resizeMask s b)).all (fun r => decide (r < s.nRegions)))) := by
  have hall : (maskRegions (resizeMask s b)).all (fun r => decide (r < s.nRegions)) = true := by simpa using hrs
  simp only [hall, Bool.not_true, Bool.false_eq_true, or_false, Nat.not_lt, hsp]

section
variable (h : s.asks fn seq 0x11 b = true) (hsp : 1 ≤ fieldAt b 8 2) (hrs : ∀ r ∈ maskRegions (resizeMask s b), r < s.nRegions)
include h hsp hrs

theorem exec_leaseResize_busy (hb : s.bound.any (fun e => e.2.lease == msgLease b) = true) :
    exec (.leaseResize fn seq) s = .next (fail fn seq .busy s) :=
  congrArg Host.Outcome.next ((onCmd_asks h _).trans ((if_neg (resize_args hsp hrs)).trans (if_pos (.inl hb))))

theorem exec_leaseResize_grants (hb : s.bound.any (fun e => e.2.lease == msgLease b) = false)
    (hw : windowAbove s (msgLease b) (spanBytes * fieldAt b 8 2) = false) (hem : loseEmulated s b = false)
    {p : List Nat × List Nat} {q : List (Nat × Nat) × List Nat}
    (hp : placeSpans (resizeShrunk s b) (s.leaseOf (msgLease b)).diePref (resizeMore s b) (stackFree (resizeShrunk s b)) = some p)
    (hq : placeSaves (resizeGained s b) p.2 = some q) (hg : (resizeGained s b).all (grantable s) = true) :
    exec (.leaseResize fn seq) s = .next (reply fn seq
      (leBytes 0 2 ++ leBytes (fieldAt b 8 2) 2 ++ leBytes 0 4 ++ leBytes (resizeMask s b) 8)
      ((grantHbm (msgLease b) (s.leaseOf (msgLease b)).spans.length (resizeMore s b) (resizeShrunk s b)).updLease (msgLease b)
        (fun y => { y with
          spans := y.spans ++ p.1, regions := BitVec.ofNat 64 (resizeMask s b),
          saveStack := q.1.foldl (fun a e => a.set 0 e.1 (e.2 + 1)) y.saveStack }))) := by
  have hbusy : ¬(s.bound.any (fun e => e.2.lease == msgLease b) ∨ windowAbove s (msgLease b) (spanBytes * fieldAt b 8 2) ∨
      loseEmulated s b) := by
    simp [hb, hw, hem]
  unfold resizeShrunk resizeMore at hp
  refine congrArg Host.Outcome.next ((onCmd_asks h _).trans ((if_neg (resize_args hsp hrs)).trans ((if_neg hbusy).trans ?_)))
  unfold resizeMask at hp
  unfold resizeGained resizeMask at hq hg
  simp only [hp, hq, hg]
  rfl
end

/-! ### LEASE_RECLAIM (17 R420, R421) -/

/-- The token that the message gives. -/
def givenToken (b : List Byte) : BitVec 128 := BitVec.ofNat 128 (fieldAt b 8 16)

section
variable (h : s.asks fn seq 0x13 b = true)
include h

theorem exec_leaseReclaim_waits (hr : reclaimBefore s fn seq (msgLease b) = true) :
    exec (.leaseReclaim fn seq) s = .next s :=
  congrArg Host.Outcome.next ((onCmd_asks h _).trans (if_pos hr))

variable (hr : reclaimBefore s fn seq (msgLease b) = false) (hd : drbgOk s = true)
include hr hd

theorem exec_leaseReclaim_acts : exec (.leaseReclaim fn seq) s = .next
    (if mayReclaim s fn seq (s.leaseOf (msgLease b)) (givenToken b) then
      if s.limitOf fn ≤ (s.openOf fn).length then fail fn seq .noSpace s
      else reply fn seq (leBytes 0 16 ++ leBytes (s.random.truncate 128 : BitVec 128).toNat 16)
        (showLease fn (msgLease b) ((s.drewRandom.setLease (msgLease b) { s.leaseOf (msgLease b) with
          st := .opened, owner := fn, token := s.random.truncate 128 }).leaseStateEvent
            (msgLease b) 1 2 (s.leaseOf (msgLease b)).formerOwner fn [fn]))
    else fail fn seq .tokenRejected ((if (s.leaseOf (msgLease b)).st = .free then s.drew else s).leaseStateEvent (msgLease b)
      (leaseStCode (s.leaseOf (msgLease b)).st) 3 (formerOf s (s.leaseOf (msgLease b))) fn (rejectReach (s.leaseOf (msgLease b))))) :=
  congrArg Host.Outcome.next ((onCmd_asks h _).trans ((if_neg (ne_true_of_eq_false hr)).trans (if_neg (by simp [hd]))))
end

theorem reclaimMet_iff : reclaimMet s fn b = true ↔ msgOp b = 0x13 ∧ msgLease b < 1024 ∧ (s.leaseOf (msgLease b)).st = .dormant ∧
    ¬((s.leaseOf (msgLease b)).maxDormS ≠ 0 ∧
      (s.leaseOf (msgLease b)).maxDormS * 25000000 < s.sclk - (s.leaseOf (msgLease b)).dormAt) ∧
    fnPort fn = fnPort (s.leaseOf (msgLease b)).formerOwner ∧ givenToken b = (s.leaseOf (msgLease b)).token := by
  simp only [reclaimMet, dormancyOver, givenToken, Bool.and_eq_true, beq_iff_eq, decide_eq_true_eq, Bool.not_eq_true',
    ← Bool.not_eq_true, bne_iff_ne, and_assoc]
  rfl

/-- Settles O30: a resize, a close with nothing under way, and a reclaim; each outcome from its own lemma. -/
theorem leaseResizeCloseReclaim : Obligations.LeaseResizeCloseReclaim := by
  unfold Obligations.LeaseResizeCloseReclaim
  intro s fn seq b
  refine ⟨fun h => ?_, fun h hs hc => ?_, fun h => ?_, reclaimMet_iff⟩
  · intro spans new gained t hsp hrs
    exact ⟨fun hb => exec_leaseResize_busy h hsp hrs hb, fun hb hw hem p q hp hq hg =>
      exec_leaseResize_grants h hsp hrs hb hw (loseEmulated_none hem) hp hq hg⟩
  · obtain ⟨x, hx, -, -⟩ := begun_iff.mp (asks_iff.mp h).1
    obtain ⟨hst, hothers, hflights, hhbm, hfab⟩ := startClosing_spec (s := waitFor fn seq (.closing (msgLease b)) s)
      (l := msgLease b) 6 (reachOf s (msgLease b))
    refine ⟨_, exec_leaseClose_still h hs hc, hst, ⟨{ x with wait := .closing (msgLease b) }, ?_, rfl⟩, hothers, hhbm, hfab⟩
    rw [flightOf, hflights]
    exact flightOf_updFlight hx (fun y => { y with wait := .closing (msgLease b) }) rfl rfl
  · refine ⟨fun hr => exec_leaseReclaim_waits h hr, fun hr hd => ?_⟩
    rw [exec_leaseReclaim_acts h hr hd]
    exact ⟨fun hm hl => congrArg Host.Outcome.next ((if_pos hm).trans (if_neg (by omega))),
      fun hm hl => congrArg Host.Outcome.next ((if_pos hm).trans (if_pos hl)),
      fun hm => congrArg Host.Outcome.next (if_neg (ne_true_of_eq_false hm))⟩

end Sys2Proof.Machine
end

