-- ==== Sys2Proof/Proofs/Steward.lean ====
section
/-! POWER_POLICY and the steward's commands (O37), the log, the snapshot and the debug unlock (O38). -/
namespace Sys2Proof.Machine

variable {s : State} {fn : Nat} {seq : Word} {b : List Byte}

/-! ### POWER_POLICY (20 R493) -/

theorem policyCommit_commits {g : Group} (hg : (s.groupOf g).pending = false) (merge : Nat → Nat) :
    policyCommit fn seq g merge s = waitFor fn seq (.commit g) (writeCommit g 1 (s.stage g merge)) :=
  if_neg (ne_true_of_eq_false hg)

section
variable (h : s.asks fn seq 0x60 b = true)
include h

theorem exec_powerPolicyFrequency (hsub : fieldAt b 8 1 = 0) (hd : fieldAt b 9 1 < s.nDies)
    (hcap : freqOk (fieldAt b 10 2) 800 = true) (hfl : freqOk (fieldAt b 12 2) 800 = true) (htc : freqOk (fieldAt b 14 2) 400 = true) :
    exec (.powerPolicyFrequency fn seq) s = .next (policyCommit fn seq (.freq (fieldAt b 9 1))
      (fun _ => fieldAt b 14 2 / 25 * 65536 + fieldAt b 12 2 / 25 * 256 + fieldAt b 10 2 / 25) s) :=
  congrArg Host.Outcome.next ((onCmd_sub h hsub _).trans (if_neg (by simpa [hcap, hfl, htc] using hd)))

theorem exec_powerPolicyModuleCap (hsub : fieldAt b 8 1 = 1) : exec (.powerPolicyModuleCap fn seq) s = .next
    (if fieldAt b 10 2 < 400 ∨ 1600 < fieldAt b 10 2 then fail fn seq .badArg s
    else policyCommit fn seq .power (fun old => natPut old 0 16 (fieldAt b 10 2)) s) :=
  congrArg Host.Outcome.next (onCmd_sub h hsub _)

theorem exec_powerPolicyLending (hsub : fieldAt b 8 1 = 2) (hd : fieldAt b 9 1 ≤ 1) : exec (.powerPolicyLending fn seq) s =
    .next (policyCommit fn seq .power (fun old => natPut old 16 1 (fieldAt b 9 1)) s) :=
  congrArg Host.Outcome.next ((onCmd_sub h hsub _).trans (if_neg (Nat.not_lt.mpr hd)))

theorem exec_powerPolicyScrubCap (hsub : fieldAt b 8 1 = 3)
    (hok : ¬(2 < fieldAt b 9 1 ∨ fieldAt b 10 1 < 1 ∨ 100 < fieldAt b 10 1)) : exec (.powerPolicyScrubCap fn seq) s =
    .next (policyCommit fn seq .scrub (fun old => natPut old (8 * fieldAt b 9 1) 8 (fieldAt b 10 1)) s) :=
  congrArg Host.Outcome.next ((onCmd_sub h hsub _).trans (if_neg hok))
end

/-! ### The steward's commands (16 Table 16.14) -/

theorem exec_stewardInfo (h : s.asks fn seq 0x70 b = true) : exec (.stewardInfo fn seq) s = .next (reply fn seq
    (leBytes s.host.steward 2 ++ leBytes s.host.lockGen.toNat 1 ++ leBytes (if s.host.lockAband then 1 else 0) 1 ++
      leBytes s.openIds.length 2 ++ leBytes (s.own.leases.filter (fun e => e.2.st = .dormant)).length 2) s) :=
  congrArg Host.Outcome.next (onCmd_asks h _)

theorem exec_vfPartition (h : s.asks fn seq 0x71 b = true) : exec (.vfPartition fn seq) s = .next
    (if !(s.fnExists (fieldAt b 8 2)) ∨ s.nLeases < fieldAt b 10 2 then fail fn seq .badArg s
    else reply fn seq [] { s with host := { s.host with limits := s.host.limits.set none (fieldAt b 8 2) (some (fieldAt b 10 2)) } }) :=
  congrArg Host.Outcome.next (onCmd_asks h _)

/-! ### Firmware images (19 R452, 21 R515, R517 to R519) -/

/-- The state once what firmware finds where it reads the image has been dealt with. -/
def imageFound (b : List Byte) (a : Nat) (f : Finding) (s : State) : State :=
  fwRead (msgLease b) (fieldAt b 16 8) (fieldAt b 24 4) a f s

/-- The image that the message names. -/
def imageOf (b : List Byte) (s : State) : List Byte := s.hbmRead (msgLease b) (fieldAt b 16 8) (fieldAt b 24 4)

/-- FW_STAGE of an image that passes R451: where no update is under way the inactive slot takes it. -/
def stageImage (fn : Nat) (seq : Word) (img : List Byte) (readBackOk : Bool) (s : State) : State :=
  if s.boot.updating.isSome then fail fn seq .busy s
  else if readBackOk then reply fn seq (leBytes (inactiveSlot s) 1 ++ leBytes 0 3 ++ leBytes (imgVersion img) 4)
    (endUpdate img readBackOk (beginUpdate img s))
  else fail fn seq .ingotSignature (endUpdate img readBackOk (beginUpdate img s))

theorem stageImage_free (hu : s.boot.updating = none) (img : List Byte) (r : Bool) : stageImage fn seq img r s =
    if r then reply fn seq (leBytes (inactiveSlot s) 1 ++ leBytes 0 3 ++ leBytes (imgVersion img) 4) (endUpdate img r (beginUpdate img s))
    else fail fn seq .ingotSignature (endUpdate img r (beginUpdate img s)) :=
  if_neg (by simp [hu])

/-- What FW_STAGE does with an image by what the checks of R451 find. -/
def stageChecked (fn : Nat) (seq : Word) (img : List Byte) (readBackOk : Bool) (c : ImgCheck) (s : State) : State :=
  match c with
  | .malformed => fail fn seq .badArg s
  | .key => fail fn seq .ingotSignature s
  | .svn => fail fn seq .locked s
  | .ok => stageImage fn seq img readBackOk s

theorem exec_fwStage (h : s.asks fn seq 0x72 b = true) (hlen : fieldAt b 24 4 ≤ 16777216) (a : Nat) (f : Finding)
    (hin : (imageFound b a f s).inLease (msgLease b) (fieldAt b 16 8) (fieldAt b 24 4) = true) (r : Bool) :
    exec (.fwStage fn seq r a f) s = .next (stageChecked fn seq (imageOf b (imageFound b a f s)) r
      (imgCheck (imageFound b a f s) fwMagic (imageOf b (imageFound b a f s))) (imageFound b a f s)) := by
  have hread : (if fieldAt b 24 4 ≤ 16777216 then fwRead (msgLease b) (fieldAt b 16 8) (fieldAt b 24 4) a f s else s) =
      imageFound b a f s := if_pos hlen
  have hargs : ¬(16777216 < fieldAt b 24 4 ∨ !((imageFound b a f s).inLease (msgLease b) (fieldAt b 16 8) (fieldAt b 24 4))) := by
    simpa [hin] using hlen
  refine congrArg Host.Outcome.next ((onCmd_asks h _).trans ?_)
  dsimp only
  rw [hread, if_neg hargs]
  unfold imageOf
  generalize imgCheck (imageFound b a f s) fwMagic _ = c
  cases c <;> rfl

section
variable (h : s.asks fn seq 0x73 b = true) (hk : fieldAt b 8 1 ≤ 1) (hst : (s.boot.slots.get {} (fieldAt b 8 1)).state = 2)
  (hnow : fieldAt b 9 1 ≤ 1)
include h hk hst hnow

theorem exec_fwActivate : exec (.fwActivate fn seq) s = .next
    (if fieldAt b 9 1 = 1 ∧ (s.quenched ∨ !s.bound.isEmpty) then fail fn seq .busy s
    else if fieldAt b 9 1 = 1 then { reply fn seq [] (selectSlot (fieldAt b 8 1) s) with
      boot := { (reply fn seq [] (selectSlot (fieldAt b 8 1) s)).boot with resetPending := 2 } }
    else reply fn seq [] (selectSlot (fieldAt b 8 1) s)) :=
  congrArg Host.Outcome.next ((onCmd_asks h _).trans (if_neg (by simp [hst]; omega)))
end

/-! ### Quench (20 R494, R497) -/

theorem exec_quenchEnter (h : s.asks fn seq 0x74 b = true) :
    exec (.quenchEnter fn seq) s = .next (reply fn seq [] (raiseTrigger 6 s)) :=
  congrArg Host.Outcome.next (onCmd_asks h _)

theorem exec_quenchExit (h : s.asks fn seq 0x75 b = true) : exec (.quenchExit fn seq) s = .next
    (if s.power.triggers ≠ 0 then fail fn seq .busy s else reply fn seq [] (if s.quenched then leaveQuench s else s)) :=
  congrArg Host.Outcome.next (onCmd_asks h _)

theorem quenched_iff : s.quenched = true ↔ s.boot.state = 5 := by simp [State.quenched]

/-- Settles O37: each command with its arguments in order, and what its checks refuse. -/
theorem powerAndStewardCommands : Obligations.PowerAndStewardCommands := by
  unfold Obligations.PowerAndStewardCommands
  intro s fn seq b
  refine ⟨fun h => ⟨?_, ?_, ?_, ?_, ?_⟩, exec_stewardInfo, fun h => ?_, fun h hlen a f => ?_, fun h hk hst => ?_, exec_quenchEnter,
    fun h => ?_⟩
  · intro hsub hd hg hcap hfl htc
    rw [exec_powerPolicyFrequency h hsub hd hcap hfl htc, policyCommit_commits hg]
  · intro hsub h1 h2 hg
    rw [exec_powerPolicyModuleCap h hsub, if_neg (by omega), policyCommit_commits hg]
  · intro hsub hw
    rw [exec_powerPolicyModuleCap h hsub, if_pos hw]
  · intro hsub hd hg
    rw [exec_powerPolicyLending h hsub hd, policyCommit_commits hg]
  · intro hsub h1 h2 h3 hg
    rw [exec_powerPolicyScrubCap h hsub (by omega), policyCommit_commits hg]
  · rw [exec_vfPartition h]
    exact ⟨fun he hn => congrArg Host.Outcome.next (if_neg (by simpa [he] using hn)),
      fun hbad => congrArg Host.Outcome.next (if_pos (by simpa using hbad))⟩
  · intro s1 img hin
    have hexec := exec_fwStage h hlen a f hin
    refine ⟨fun hc r => ?_, fun hc r => ?_, fun hc r => ?_, fun hc hu => ⟨?_, ?_⟩⟩ <;>
      refine (hexec _).trans ((congrArg (fun c => Host.Outcome.next (stageChecked fn seq _ _ c _)) hc).trans ?_)
    · rfl
    · rfl
    · rfl
    · exact congrArg Host.Outcome.next (stageImage_free hu _ true)
    · exact congrArg Host.Outcome.next (stageImage_free hu _ false)
  · refine ⟨fun hd => ?_, fun hd hq hb => ?_, fun hd hb => ?_⟩
    · rw [exec_fwActivate h hk hst (by omega), if_neg (by omega), if_neg (by omega)]
    · rw [exec_fwActivate h hk hst hd.le, if_neg (by simp [hq, hb]), if_pos hd]
      exact ⟨_, rfl, rfl, rfl⟩
    · rw [exec_fwActivate h hk hst hd.le, if_pos ⟨hd, by simpa using hb⟩]
  · rw [exec_quenchExit h]
    refine ⟨fun ht => congrArg Host.Outcome.next (if_pos ht), fun ht hq => ?_, fun ht hq => ?_⟩
    · rw [if_neg (by simp [ht]), if_pos (quenched_iff.mpr hq)]
    · rw [if_neg (by simp [ht]), if_neg (quenched_iff.not.mpr hq)]

/-! ### The log (18 R449) -/

/-- The first of the records asked for that the ring still holds, and the one after the last. -/
def logFrom (s : State) (b : List Byte) : Nat := max (fieldAt b 8 4) (s.ras.logNext - 31232)
def logTo (s : State) (b : List Byte) : Nat := min (fieldAt b 8 4 + fieldAt b 12 2) s.ras.logNext

theorem exec_logRead (h : s.asks fn seq 0x76 b = true) (hs : s.canSend fn = true) : exec (.logRead fn seq) s = .next
    (reply fn seq (leBytes (logTo s b - logFrom s b) 4 ++ leBytes (min s.ras.logNext 31232) 4) (s.writeHost fn (fieldAt b 16 8)
      ((upTo (logTo s b - logFrom s b)).flatMap (fun i => entryBytes (s.ras.log.get 0 ((logFrom s b + i) % 31232)))))) :=
  congrArg Host.Outcome.next ((onCmd_asks h _).trans (if_neg (by simp [hs])))

/-! ### REMAP_STATUS and DEBUG_SNAPSHOT (16 R400, Table 16.14) -/

/-- What REMAP_STATUS answers. -/
def remapBytes (s : State) : List Byte :=
  (upTo 4).flatMap (fun d => leBytes ((s.dev.dies.get {} d).steered.getD 0xFF) 1) ++
    (upTo 4).flatMap (fun d => leBytes (absentOn s d) 2) ++
    leBytes (((upTo 4).filter (fun d => (s.dev.dies.get {} d).steered.isSome)).length +
      (s.dev.absent.filter (fun e => e.2)).length) 4 ++ leBytes s.ras.rowsRepaired 4

theorem exec_remapStatus (h : s.asks fn seq 0x77 b = true) :
    exec (.remapStatus fn seq) s = .next (reply fn seq (remapBytes s) s) :=
  congrArg Host.Outcome.next (onCmd_asks h _)

theorem remapBytes_steered {d : Nat} (hd : d < 4) :
    (remapBytes s)[d]? = some (BitVec.ofNat 8 ((s.dev.dies.get {} d).steered.getD 0xFF)) := by
  interval_cases d <;> rfl

theorem exec_debugSnapshot (h : s.asks fn seq 0x7E b = true) : exec (.debugSnapshot fn seq) s = .next
    (if !(mayDebug s fn (msgLease b)) then fail fn seq .stewardRequired s
    else if fieldAt b 24 4 < (snapshotOf s (msgLease b)).length then fail fn seq .noSpace s
    else if !(s.canSend fn) then fail fn seq .peerUnreachable s
    else reply fn seq (leBytes (snapshotOf s (msgLease b)).length 4)
      ({ s with free := s.free + 128 }.writeHost fn (fieldAt b 16 8) (snapshotOf s (msgLease b)))) :=
  congrArg Host.Outcome.next (onCmd_asks h _)

/-! ### The debug unlock (19 R468 to R470) -/

/-- The state with a new challenge, any earlier one voided. -/
def challenged (s : State) : State :=
  { s.drewRandom with sec := { s.drewRandom.sec with challenge := some (challengeBytes s, s.sclk) } }

theorem exec_debugUnlockRequest (h : s.asks fn seq 0x7F b = true) (hsub : fieldAt b 8 1 = 0) (hd : drbgOk s = true) :
    exec (.debugUnlockRequest fn seq) s = .next (reply fn seq (challengeBytes s) (challenged s)) :=
  congrArg Host.Outcome.next ((onCmd_sub h hsub _).trans (if_neg (by simp [hd])))

/-- The state once an answer has been rejected: no challenge stands, and the rejection is counted. -/
def answerRejected (s : State) : State :=
  { s with sec := { s.sec with challenge := none, rejected := s.sec.rejected + 1 } }

/-- The steward's answer in lease `k` is in time and verifies for the challenge `c` of tick `t0`. -/
def answerPasses (s : State) (b c : List Byte) (t0 k : Nat) : Bool :=
  s.inLease k (fieldAt b 16 8) 96 && decide (s.sclk - t0 ≤ 60 * second) && answerOk s c (s.hbmRead k (fieldAt b 16 8) 96)

/-- What step 1 does once what firmware finds has been dealt with. -/
def answered (fn : Nat) (seq : Word) (b : List Byte) (s : State) : State :=
  match s.sec.challenge, answerLease s fn with
  | some (c, t0), some k =>
    if answerPasses s b c t0 k then reply fn seq [] (openDebug s) else fail fn seq .tokenRejected (answerRejected s)
  | _, _ => fail fn seq .tokenRejected (answerRejected s)

/-- The state once what firmware finds where it reads the answer has been dealt with; none is read while unlocking is locked. -/
def answerRead (fn : Nat) (b : List Byte) (a : Nat) (f : Finding) (s : State) : State :=
  match answerLease s fn with
  | some l => if s.sec.policy.getLsbD 2 ∨ 8 ≤ s.sec.rejected then s else fwRead l (fieldAt b 16 8) 96 a f s
  | none => s

theorem answerRead_clean (a : Nat) : answerRead fn b a .clean s = s := by
  unfold answerRead
  split
  · exact ite_self s
  · rfl

theorem exec_debugUnlockAnswer (h : s.asks fn seq 0x7F b = true) (hsub : fieldAt b 8 1 = 1) (a : Nat) (f : Finding) :
    exec (.debugUnlockAnswer fn seq a f) s = .next
      (if (answerRead fn b a f s).sec.policy.getLsbD 2 ∨ 8 ≤ (answerRead fn b a f s).sec.rejected then
        fail fn seq .locked (answerRead fn b a f s)
      else answered fn seq b (answerRead fn b a f s)) :=
  congrArg Host.Outcome.next (onCmd_sub h hsub _)

theorem answered_unasked (hc : s.sec.challenge = none) : answered fn seq b s = fail fn seq .tokenRejected (answerRejected s) := by
  simp only [answered, hc]

theorem answered_asked {c : List Byte} {t0 k : Nat} (hc : s.sec.challenge = some (c, t0)) (hk : answerLease s fn = some k) :
    answered fn seq b s =
      if answerPasses s b c t0 k then reply fn seq [] (openDebug s) else fail fn seq .tokenRejected (answerRejected s) := by
  simp only [answered, hc, hk]

theorem answerPasses_iff {c : List Byte} {t0 k : Nat} (hin : s.inLease k (fieldAt b 16 8) 96 = true) :
    answerPasses s b c t0 k = true ↔
      s.sclk - t0 ≤ 1500000000 ∧ answerOk s c (s.hbmRead k (fieldAt b 16 8) 96) = true := by
  simp only [answerPasses, hin, Bool.true_and, Bool.and_eq_true, decide_eq_true_eq]
  rfl

/-- Settles O38: the log's records, the repairs, the snapshot, and the challenge with its answer. -/
theorem logAndDebugCommands : Obligations.LogAndDebugCommands := by
  unfold Obligations.LogAndDebugCommands
  intro s fn seq b
  refine ⟨fun h hs => ⟨fun _ => exec_logRead h hs, fun hle => ?_⟩,
    fun h => ⟨_, exec_remapStatus h, rfl, fun d hd => remapBytes_steered hd⟩, fun h => ?_,
    fun h hsub hd => ⟨_, exec_debugUnlockRequest h hsub hd, rfl, rfl, rfl⟩, fun h hsub => ?_⟩
  · have hnone : logTo s b - logFrom s b = 0 := Nat.sub_eq_zero_of_le hle
    rw [exec_logRead h hs, hnone]
    rfl
  · rw [exec_debugSnapshot h]
    refine ⟨fun hm => ?_, fun hm hlen => ?_, fun hm hlen hs => ?_⟩
    · rw [if_pos (by simp [hm])]
    · rw [if_neg (by simp [hm]), if_pos hlen]
    · rw [if_neg (by simp [hm]), if_neg (Nat.not_lt.mpr hlen), if_neg (by simp [hs])]
  · have hexec a := exec_debugUnlockAnswer h hsub a .clean
    simp only [answerRead_clean] at hexec
    refine ⟨fun hlock a => (hexec a).trans (congrArg Host.Outcome.next (if_pos hlock)), fun hp hr => ?_⟩
    have hopen : ¬(s.sec.policy.getLsbD 2 = true ∨ 8 ≤ s.sec.rejected) := not_or.mpr ⟨ne_true_of_eq_false hp, Nat.not_le.mpr hr⟩
    simp only [if_neg hopen] at hexec
    refine ⟨fun c t0 k hc hk hin => ⟨fun hok a => ?_, fun hok a => ?_⟩, fun hc a => ?_⟩
    · rw [hexec, answered_asked hc hk, if_pos ((answerPasses_iff hin).mpr hok)]
    · rw [hexec, answered_asked hc hk, if_neg ((answerPasses_iff hin).not.mpr hok)]
      rfl
    · rw [hexec, answered_unasked hc]
      rfl

end Sys2Proof.Machine
end

