-- ==== Sys2Proof/Proofs/PageWrites.lean ====
section
/-! A page write interrupted at any byte (O59): the copy that a read returns is never the one being written, and a complete write
makes the new copy the later one. -/
namespace Sys2Proof.Machine

variable {p n : Nat} {g : Page} {content : List Byte}

/-! ### Header slots (18 Table 18.5) -/

theorem fieldAt_leBytes_middle {pre : List Byte} {off : Nat} (h : pre.length = off) (x n : Nat) (post : List Byte) :
    fieldAt (pre ++ (leBytes x n ++ post)) off n = x % 256 ^ n := by
  rw [fieldAt, slice, List.drop_left' h, List.take_left' (length_leBytes x n), leNat_leBytes]

/-- The 28 bytes of a header that its own checksum covers. -/
def headerStart (p seq : Nat) (content : List Byte) : List Byte :=
  leBytes 0x5047 2 ++ leBytes p 2 ++ leBytes seq 4 ++ leBytes (crc32c content).toNat 4 ++ leBytes 0 16

theorem pageHeader_eq (p seq : Nat) (content : List Byte) :
    pageHeader p seq content = headerStart p seq content ++ leBytes (crc32c (headerStart p seq content)).toNat 4 := rfl

theorem length_headerStart (p seq : Nat) (content : List Byte) : (headerStart p seq content).length = 28 := by simp [headerStart]

theorem length_pageHeader (p seq : Nat) (content : List Byte) : (pageHeader p seq content).length = 32 := by
  rw [pageHeader_eq, List.length_append, length_headerStart, length_leBytes]

/-- The header field by field. -/
theorem pageHeader_parts (p seq : Nat) (content : List Byte) : pageHeader p seq content =
    leBytes 0x5047 2 ++ (leBytes p 2 ++ (leBytes seq 4 ++ (leBytes (crc32c content).toNat 4 ++
      (leBytes 0 16 ++ leBytes (crc32c (headerStart p seq content)).toNat 4)))) := by
  rw [pageHeader_eq]
  generalize leBytes (crc32c (headerStart p seq content)).toNat 4 = own
  simp only [headerStart, List.append_assoc]

theorem pageHeader_magic (p seq : Nat) (content : List Byte) : fieldAt (pageHeader p seq content) 0 2 = 0x5047 := by
  rw [pageHeader_parts]
  exact fieldAt_leBytes_append (by decide) _

theorem pageHeader_page (hp : p < 65536) (seq : Nat) (content : List Byte) : fieldAt (pageHeader p seq content) 2 2 = p := by
  rw [pageHeader_parts, fieldAt_leBytes_middle (by simp)]
  exact Nat.mod_eq_of_lt hp

theorem pageHeader_seq (p seq : Nat) (content : List Byte) : fieldAt (pageHeader p seq content) 4 4 = seq % 2 ^ 32 := by
  rw [pageHeader_parts, ← List.append_assoc]
  exact fieldAt_leBytes_middle (by simp) seq 4 _

theorem pageHeader_crc (p seq : Nat) (content : List Byte) :
    fieldAt (pageHeader p seq content) 8 4 = (crc32c content).toNat := by
  rw [pageHeader_parts, ← List.append_assoc, ← List.append_assoc, fieldAt_leBytes_middle (by simp)]
  exact Nat.mod_eq_of_lt (crc32c content).isLt

theorem pageHeader_own_crc (p seq : Nat) (content : List Byte) :
    fieldAt (pageHeader p seq content) 28 4 = (crc32c ((pageHeader p seq content).take 28)).toNat := by
  have h := fieldAt_leBytes_middle (length_headerStart p seq content) (crc32c (headerStart p seq content)).toNat 4 []
  rw [List.append_nil] at h
  rw [pageHeader_eq, List.take_left' (length_headerStart p seq content), h]
  exact Nat.mod_eq_of_lt (crc32c (headerStart p seq content)).isLt

/-- A header slot written whole over its content is valid. -/
theorem copyValid_pageHeader (hp : p < 65536) (seq : Nat) (hc : content.length = 1024) :
    copyValid p (content, pageHeader p seq content) = true := by
  simp [copyValid, length_pageHeader, pageHeader_magic, ← pageHeader_own_crc, pageHeader_page hp, pageHeader_crc, hc]

theorem copyValid_length {c : List Byte × List Byte} (h : copyValid p c = true) : c.2.length = 32 := by
  simp only [copyValid, Bool.and_eq_true, beq_iff_eq] at h
  exact h.1.1.1.1.1

theorem copyValid_zeros (c : List Byte) : copyValid p (c, List.replicate 32 0) = false := by
  simp [copyValid, fieldAt, slice, leNat]

/-! ### Sequence numbers (18 R445) -/

theorem seqLater_next (a : Nat) : seqLater ((a + 1) % 2 ^ 32) a = true := by
  simp only [seqLater, Bool.and_eq_true, bne_iff_ne, decide_eq_true_eq]
  omega

theorem not_seqLater_next (a : Nat) : seqLater a ((a + 1) % 2 ^ 32) = false := by
  simp only [seqLater, Bool.and_eq_false_iff, decide_eq_false_iff_not]
  omega

/-! ### Which copy a read returns (18 R445) -/

/-- The sequence number of a copy. -/
def copySeq (c : List Byte × List Byte) : Nat := fieldAt c.2 4 4

theorem pageCurrent_A : pageCurrent p g = some true ↔ copyValid p (copyOfA p g) = true ∧
    (copyValid p (copyOfB g) = true → seqLater (copySeq (copyOfB g)) (copySeq (copyOfA p g)) = false) := by
  unfold copySeq
  by_cases ha : copyValid p (copyOfA p g) = true <;> by_cases hb : copyValid p (copyOfB g) = true <;> simp [pageCurrent, ha, hb]

theorem pageCurrent_B : pageCurrent p g = some false ↔ copyValid p (copyOfB g) = true ∧
    (copyValid p (copyOfA p g) = true → seqLater (copySeq (copyOfB g)) (copySeq (copyOfA p g)) = true) := by
  unfold copySeq
  by_cases ha : copyValid p (copyOfA p g) = true <;> by_cases hb : copyValid p (copyOfB g) = true <;> simp [pageCurrent, ha, hb]

theorem pageRead_A (h : pageCurrent p g = some true) : pageRead p g = some (copyOfA p g).1 := by simp [pageRead, h]
theorem pageRead_B (h : pageCurrent p g = some false) : pageRead p g = some (copyOfB g).1 := by simp [pageRead, h]

/-- A page with a valid copy is read as one of its two copies. -/
theorem pageRead_cases (h : copyValid p (copyOfA p g) = true ∨ copyValid p (copyOfB g) = true) :
    pageRead p g = some (copyOfA p g).1 ∨ pageRead p g = some (copyOfB g).1 := by
  cases hc : pageCurrent p g with
  | none =>
    by_cases ha : copyValid p (copyOfA p g) = true <;> by_cases hb : copyValid p (copyOfB g) = true <;>
      simp [pageCurrent, ha, hb] at hc h
  | some a =>
    cases a with
    | true => exact .inl (pageRead_A hc)
    | false => exact .inr (pageRead_B hc)

/-! ### A write that power loss stops (18 R446) -/

theorem overlay_none (old new : List Byte) : overlay old new 0 = old := rfl

theorem overlay_all {old new : List Byte} (h1 : new.length ≤ n) (h2 : old.length ≤ n) : overlay old new n = new := by
  rw [overlay, List.take_of_length_le h1, List.drop_eq_nil_of_le h2, List.append_nil]

theorem length_overlay {old new : List Byte} (h : old.length = new.length) : (overlay old new n).length = new.length := by
  simp only [overlay, List.length_append, List.length_take, List.length_drop]
  omega

/-- What an unread copy holds before the write: its content, and its header slot, zeros where they have another size. -/
def contentSlot (c : List Byte) : List Byte := if c.length = 1024 then c else blankContent
def headerSlot (h : List Byte) : List Byte := if h.length = 32 then h else List.replicate 32 0

theorem length_contentSlot (c : List Byte) : (contentSlot c).length = 1024 := by
  unfold contentSlot
  split
  · assumption
  · exact List.length_replicate

theorem length_headerSlot (h : List Byte) : (headerSlot h).length = 32 := by
  unfold headerSlot
  split
  · assumption
  · exact List.length_replicate

/-- A valid header in the slot is the one that stood there. -/
theorem headerSlot_of_valid {c h : List Byte} (hv : copyValid p (c, headerSlot h) = true) : headerSlot h = h := by
  unfold headerSlot at hv ⊢
  split
  · rfl
  next hl =>
    rw [if_neg hl, copyValid_zeros] at hv
    exact absurd hv (by decide)

/-- The unread copy `old` after `n` bytes of a write: the content first, then its header. -/
def tornCopy (old : List Byte × List Byte) (hdr content : List Byte) (n : Nat) : List Byte × List Byte :=
  (overlay (contentSlot old.1) content (min n 1024), overlay (headerSlot old.2) hdr (n - 1024))

section
variable {old : List Byte × List Byte} {hdr : List Byte}

theorem tornCopy_early (hn : n ≤ 1024) : (tornCopy old hdr content n).2 = headerSlot old.2 := by
  rw [tornCopy, Nat.sub_eq_zero_of_le hn, overlay_none]

theorem tornCopy_late (hc : content.length = 1024) (hn : 1024 ≤ n) : (tornCopy old hdr content n).1 = content :=
  overlay_all (by omega) (by rw [length_contentSlot]; omega)

theorem tornCopy_full (hc : content.length = 1024) (hh : hdr.length = 32) (hn : 1056 ≤ n) :
    tornCopy old hdr content n = (content, hdr) :=
  Prod.ext (tornCopy_late hc (by omega)) (overlay_all (by omega) (by rw [length_headerSlot]; omega))

theorem length_tornCopy (hh : hdr.length = 32) : (tornCopy old hdr content n).2.length = 32 :=
  (length_overlay ((length_headerSlot _).trans hh.symm)).trans hh

/-- Until the header begins, a valid unread copy has the header that stood there. -/
theorem tornCopy_early_valid (hn : n ≤ 1024) (hv : copyValid p (tornCopy old hdr content n) = true) :
    (tornCopy old hdr content n).2 = old.2 := by
  have hslot := tornCopy_early (old := old) (hdr := hdr) (content := content) hn
  rw [hslot]
  exact headerSlot_of_valid (p := p) (c := (tornCopy old hdr content n).1) (hslot ▸ hv)
end

/-- The header that a write over the copy with sequence number `seq` gives the other one. -/
def nextHeader (p seq : Nat) (content : List Byte) : List Byte := pageHeader p ((seq + 1) % 2 ^ 32) content

theorem nextHeader_seq (p seq : Nat) (content c : List Byte) : copySeq (c, nextHeader p seq content) = (seq + 1) % 2 ^ 32 := by
  rw [copySeq, nextHeader, pageHeader_seq, Nat.mod_mod]

theorem copyOfA_of_length {b c h hb : List Byte} (hl : h.length = 32) :
    copyOfA p { copyA := c, hdrA := h, copyB := b, hdrB := hb } = (c, h) := by
  cases h with
  | nil => simp at hl
  | cons x r => rfl

section
variable (hcur : pageCurrent p g = some true)
include hcur

/-- A write of a page that is read from copy A leaves A and goes to B. -/
theorem copyOfA_pageWrite_A : copyOfA p (pageWrite p content n g) = copyOfA p g := by
  rw [pageWrite, hcur]
  exact copyOfA_of_length (copyValid_length (pageCurrent_A.mp hcur).1)

theorem copyOfB_pageWrite_A : copyOfB (pageWrite p content n g) =
    tornCopy (copyOfB g) (nextHeader p (copySeq (copyOfA p g)) content) content n := by
  rw [pageWrite, hcur]
  rfl
end

section
variable (hcur : pageCurrent p g = some false)
include hcur

/-- A write of a page that is read from copy B leaves B and goes to A. -/
theorem copyOfA_pageWrite_B : copyOfA p (pageWrite p content n g) =
    tornCopy (copyOfA p g) (nextHeader p (copySeq (copyOfB g)) content) content n := by
  rw [pageWrite, hcur]
  exact copyOfA_of_length (length_tornCopy (n := n) (content := content) (old := copyOfA p g) (length_pageHeader _ _ _))

theorem copyOfB_pageWrite_B : copyOfB (pageWrite p content n g) = copyOfB g := by
  rw [pageWrite, hcur]
  rfl
end

/-! ### What a read returns after it (18 R445, R446) -/

/-- A page read from copy A, whose copy B would not be read whatever its content. -/
theorem sound_A (hs : pageSound p g) (hcur : pageCurrent p g = some true) {c : List Byte × List Byte} (hh : c.2 = g.hdrB)
    (hv : copyValid p c = true) : seqLater (copySeq c) (copySeq (copyOfA p g)) = false := by
  obtain ⟨c, h⟩ := c
  cases hh
  exact (hs c).1 hcur hv

/-- A page read from copy B, whose copy A would not be read whatever its content. -/
theorem sound_B (hs : pageSound p g) (hcur : pageCurrent p g = some false) {c : List Byte × List Byte} (hh : c.2 = (copyOfA p g).2)
    (hv : copyValid p c = true) : seqLater (copySeq (copyOfB g)) (copySeq c) = true := by
  obtain ⟨c, h⟩ := c
  cases hh
  exact (hs c).2 hcur hv

/-- What the write of `n` bytes leaves of a page, by how far it came. -/
structure WriteLeaves (p : Nat) (content : List Byte) (n : Nat) (old new : Page) : Prop where
  read : pageRead p new = pageRead p old ∨ pageRead p new = some content
  early : n ≤ 1024 → pageRead p new = pageRead p old ∧ pageSound p new
  full : 1056 ≤ n → pageRead p new = some content ∧ pageSound p new

section
variable (hp : p < 65536) (hc : content.length = 1024) (hs : pageSound p g)

section
variable (hcur : pageCurrent p g = some true)
include hs hcur

theorem current_A_early (hn : n ≤ 1024) : pageCurrent p (pageWrite p content n g) = some true := by
  rw [pageCurrent_A, copyOfA_pageWrite_A hcur, copyOfB_pageWrite_A hcur]
  exact ⟨(pageCurrent_A.mp hcur).1, fun hv => sound_A hs hcur (tornCopy_early_valid hn hv) hv⟩

theorem sound_A_early (hn : n ≤ 1024) : pageSound p (pageWrite p content n g) := by
  have hnew := current_A_early (content := content) hs hcur hn
  refine fun c => ⟨fun _ hv => ?_, fun h => absurd (hnew.symm.trans h) (by decide)⟩
  have hslot : (pageWrite p content n g).hdrB = headerSlot g.hdrB :=
    (congrArg Prod.snd (copyOfB_pageWrite_A hcur)).trans (tornCopy_early hn)
  have hkept : headerSlot g.hdrB = g.hdrB := headerSlot_of_valid (hslot ▸ hv)
  rw [copyOfA_pageWrite_A hcur]
  exact sound_A hs hcur (c := (c, (pageWrite p content n g).hdrB)) (hslot.trans hkept) hv
end

section
variable (hcur : pageCurrent p g = some false)
include hs hcur

theorem current_B_early (hn : n ≤ 1024) : pageCurrent p (pageWrite p content n g) = some false := by
  rw [pageCurrent_B, copyOfA_pageWrite_B hcur, copyOfB_pageWrite_B hcur]
  exact ⟨(pageCurrent_B.mp hcur).1, fun hv => sound_B hs hcur (tornCopy_early_valid hn hv) hv⟩

theorem sound_B_early (hn : n ≤ 1024) : pageSound p (pageWrite p content n g) := by
  have hnew := current_B_early (content := content) hs hcur hn
  refine fun c => ⟨fun h => absurd (hnew.symm.trans h) (by decide), fun _ hv => ?_⟩
  have hslot : (copyOfA p (pageWrite p content n g)).2 = headerSlot (copyOfA p g).2 :=
    (congrArg Prod.snd (copyOfA_pageWrite_B hcur)).trans (tornCopy_early hn)
  have hkept : headerSlot (copyOfA p g).2 = (copyOfA p g).2 := headerSlot_of_valid (hslot ▸ hv)
  have hlater := sound_B hs hcur (c := (c, (copyOfA p (pageWrite p content n g)).2)) (hslot.trans hkept) hv
  rwa [← copyOfB_pageWrite_B (n := n) (content := content) hcur] at hlater
end

include hp hc

theorem current_A_full (hcur : pageCurrent p g = some true) (hn : 1056 ≤ n) :
    pageCurrent p (pageWrite p content n g) = some false ∧ copyOfB (pageWrite p content n g) =
      (content, nextHeader p (copySeq (copyOfA p g)) content) := by
  have hB := (copyOfB_pageWrite_A (n := n) (content := content) hcur).trans (tornCopy_full hc (length_pageHeader _ _ _) hn)
  rw [pageCurrent_B, copyOfA_pageWrite_A hcur, hB]
  exact ⟨⟨copyValid_pageHeader hp _ hc, fun _ => (nextHeader_seq p _ content content).symm ▸ seqLater_next _⟩, rfl⟩

theorem current_B_full (hcur : pageCurrent p g = some false) (hn : 1056 ≤ n) :
    pageCurrent p (pageWrite p content n g) = some true ∧ copyOfA p (pageWrite p content n g) =
      (content, nextHeader p (copySeq (copyOfB g)) content) := by
  have hA := (copyOfA_pageWrite_B (n := n) (content := content) hcur).trans (tornCopy_full hc (length_pageHeader _ _ _) hn)
  rw [pageCurrent_A, copyOfB_pageWrite_B hcur, hA]
  exact ⟨⟨copyValid_pageHeader hp _ hc, fun _ => (nextHeader_seq p _ content content).symm ▸ not_seqLater_next _⟩, rfl⟩

include hs

theorem pageWrite_leaves_A (hcur : pageCurrent p g = some true) : WriteLeaves p content n g (pageWrite p content n g) where
  read := by
    by_cases hn : n ≤ 1024
    · exact .inl (by rw [pageRead_A (current_A_early hs hcur hn), copyOfA_pageWrite_A hcur, pageRead_A hcur])
    · have hvalid : copyValid p (copyOfA p (pageWrite p content n g)) = true := by
        rw [copyOfA_pageWrite_A hcur]
        exact (pageCurrent_A.mp hcur).1
      obtain hr | hr := pageRead_cases (.inl hvalid)
      · exact .inl (by rw [hr, copyOfA_pageWrite_A hcur, pageRead_A hcur])
      · exact .inr (by rw [hr, copyOfB_pageWrite_A hcur, tornCopy_late hc (by omega)])
  early hn := ⟨by rw [pageRead_A (current_A_early hs hcur hn), copyOfA_pageWrite_A hcur, pageRead_A hcur], sound_A_early hs hcur hn⟩
  full hn := by
    obtain ⟨hnew, hB⟩ := current_A_full hp hc hcur hn
    refine ⟨by rw [pageRead_B hnew, hB], fun c => ⟨fun h => absurd (hnew.symm.trans h) (by decide), fun _ _ => ?_⟩⟩
    have hseq : copySeq (copyOfB (pageWrite p content n g)) = _ := (congrArg copySeq hB).trans (nextHeader_seq p _ content content)
    have hlater := seqLater_next (copySeq (copyOfA p g))
    rw [← hseq, ← copyOfA_pageWrite_A (n := n) (content := content) hcur] at hlater
    exact hlater

theorem pageWrite_leaves_B (hcur : pageCurrent p g = some false) : WriteLeaves p content n g (pageWrite p content n g) where
  read := by
    by_cases hn : n ≤ 1024
    · exact .inl (by rw [pageRead_B (current_B_early hs hcur hn), copyOfB_pageWrite_B hcur, pageRead_B hcur])
    · have hvalid : copyValid p (copyOfB (pageWrite p content n g)) = true := by
        rw [copyOfB_pageWrite_B hcur]
        exact (pageCurrent_B.mp hcur).1
      obtain hr | hr := pageRead_cases (.inr hvalid)
      · exact .inr (by rw [hr, copyOfA_pageWrite_B hcur, tornCopy_late hc (by omega)])
      · exact .inl (by rw [hr, copyOfB_pageWrite_B hcur, pageRead_B hcur])
  early hn := ⟨by rw [pageRead_B (current_B_early hs hcur hn), copyOfB_pageWrite_B hcur, pageRead_B hcur], sound_B_early hs hcur hn⟩
  full hn := by
    obtain ⟨hnew, hA⟩ := current_B_full hp hc hcur hn
    refine ⟨by rw [pageRead_A hnew, hA], fun c => ⟨fun _ _ => ?_, fun h => absurd (hnew.symm.trans h) (by decide)⟩⟩
    have hseq : copySeq (copyOfA p (pageWrite p content n g)) = _ := (congrArg copySeq hA).trans (nextHeader_seq p _ content content)
    have hlater := not_seqLater_next (copySeq (copyOfB g))
    rw [← hseq, ← copyOfB_pageWrite_B (n := n) (content := content) hcur] at hlater
    exact hlater

theorem pageWrite_leaves (hcur : pageCurrent p g ≠ none) : WriteLeaves p content n g (pageWrite p content n g) := by
  obtain ⟨a, ha⟩ := Option.ne_none_iff_exists'.mp hcur
  cases a with
  | true => exact pageWrite_leaves_A hp hc hs ha
  | false => exact pageWrite_leaves_B hp hc hs ha
end

/-! ### The page of a blank store, and the row -/

theorem blank_current (hp : p < 65536) : pageCurrent p {} = some true :=
  pageCurrent_A.mpr ⟨copyValid_pageHeader hp 0 List.length_replicate, fun h => absurd (copyValid_length h) (by decide)⟩

theorem blank_sound (hp : p < 65536) : pageSound p {} := fun _ =>
  ⟨fun _ h => absurd (copyValid_length h) (by simp), fun h => absurd ((blank_current hp).symm.trans h) (by decide)⟩

theorem exec_durablePageWrite {s : State} (hp : p < 1984) (hc : content.length = 1024)
    (hcur : pageCurrent p (s.ras.pages.get {} p) ≠ none) (n : Nat) : exec (.durablePageWrite p content n) s = .next { s with
      ras := { s.ras with pages := s.ras.pages.set {} p (pageWrite p content n (s.ras.pages.get {} p)) } } := by
  obtain ⟨a, ha⟩ := Option.ne_none_iff_exists'.mp hcur
  refine congrArg Host.Outcome.next ((if_pos ⟨hp, hc⟩).trans ?_)
  simp only [writePage, ha]

/-- Settles O59: the copy being written is not read before its header is whole, and is the later one from then on. -/
theorem durablePageOldOrNew : Obligations.DurablePageOldOrNew := by
  unfold Obligations.DurablePageOldOrNew
  intro s p content n hp hc
  have hp' : p < 65536 := by omega
  refine ⟨fun h => ?_, fun hcur hs => ⟨_, exec_durablePageWrite hp hc hcur n, rfl, fun q hq => Table.get_set_ne _ _ _ hq, ?_⟩⟩
  · rw [h]
    exact ⟨blank_sound hp', pageRead_A (blank_current hp')⟩
  · simp only [Table.get_set_self]
    obtain ⟨hread, hearly, hfull⟩ := pageWrite_leaves (n := n) hp' hc hs hcur
    exact ⟨hread, fun hn => (hearly hn.le).1, hfull, fun hn => (hearly hn).2, fun h => copyOfA_pageWrite_A h,
      fun h => copyOfB_pageWrite_B h⟩

end Sys2Proof.Machine
end

