-- ==== Sys2Proof/Proofs/Scrubbing.lean ====
section
/-! Scrubbing, self-tests, the durable store and the log (O51). -/
namespace Sys2Proof.Machine

variable {s t u : State} {die dom line : Nat}

/-! ### Self-test of a vacant region (18 R437, 08 R196) -/

/-- The region holds zeros and the time of its test; it stays vacant since the same time. -/
def tested (s : State) (r : Nat) : State :=
  (zeroiseRegion s r).updRegion r (fun y => { y with testedAt := some s.sclk, vacantAt := (s.regionOf r).vacantAt })

/-- The next state where tile `t` of the region failed, or none did. -/
def selfTested (s : State) (r : Nat) (failed : Option Nat) (router : Bool) : State :=
  match failed with
  | some t =>
    if tileRegion t = r then
      if router then outOfService (tileDie t) (tileFailed t 1 (tested s r)) else tileFailed t 1 (tested s r)
    else tested s r
  | none => tested s r

section
variable {r : Nat} (hr : (s.regionOf r).resident = none) (ht : (s.regionOf r).testedAt = none) (hf : s.regionFree r = true)
include hr ht hf

theorem exec_runtimeSelfTest (failed : Option Nat) (router : Bool) : exec (.runtimeSelfTest r failed router) s = .next
    (if 2500000 ≤ s.sclk - (s.regionOf r).vacantAt then selfTested s r failed router else s) := by
  by_cases hv : 2500000 ≤ s.sclk - (s.regionOf r).vacantAt
  · rw [if_pos hv]
    simp only [exec, execRuntimeSelfTest, done, hr, ht, hf, hv]
    rfl
  · rw [if_neg hv]
    simp only [exec, execRuntimeSelfTest, done, hr, ht, hf, hv]
    rfl
end

/-! ### The spare column is mapped in (18 Table 18.4) -/

/-- The device, HBM and the programs stand. -/
structure MapKept (s t : State) : Prop where
  dev : t.dev = s.dev
  hbm : t.hbm = s.hbm
  seq : t.seq = s.seq

theorem MapKept.refl (s : State) : MapKept s s := ⟨rfl, rfl, rfl⟩

theorem MapKept.trans (h1 : MapKept s t) (h2 : MapKept t u) : MapKept s u :=
  ⟨h2.dev.trans h1.dev, h2.hbm.trans h1.hbm, h2.seq.trans h1.seq⟩

theorem MapKept.of_records (h : RecordsOnly s t) : MapKept s t := by
  obtain ⟨⟨_, _, _, rfl⟩, -⟩ := h
  exact ⟨rfl, rfl, rfl⟩

theorem MapKept.foldl {β : Type} {f : State → β → State} {xs : List β} (h : MapKept s t)
    (hf : ∀ {u} x, MapKept s u → MapKept s (f u x)) : MapKept s (xs.foldl f t) := by
  induction xs generalizing t with
  | nil => exact h
  | cons x xs ih => exact ih (hf x h)

theorem MapKept.updRegion {r : Nat} {g : Region → Region} (h : MapKept s t) : MapKept s (t.updRegion r g) := h.trans ⟨rfl, rfl, rfl⟩

theorem MapKept.sramFinding (h : MapKept s t) (k a by_ tag : Nat) (f : Finding) : MapKept s (sramFinding k a by_ tag f t) := by
  refine h.trans ?_
  cases f with
  | clean => exact .refl _
  | correctable pos => exact .of_records ((RecordsOnly.refl t).countCorrectable _ _ _)
  | uncorrectable mask =>
    have hmark : MapKept t (t.sramMark k a 1 true) := ⟨rfl, rfl, rfl⟩
    unfold Machine.sramFinding
    dsimp only
    split <;> exact hmark.trans (.of_records ((RecordsOnly.refl _).poisonFound ..))

theorem MapKept.saveFinding (h : MapKept s t) (r k : Nat) (f : Finding) : MapKept s (saveFinding r k f t) := by
  unfold Machine.saveFinding
  split
  · split
    · exact h.sramFinding _ _ _ _ f
    · exact h
  · exact h

theorem MapKept.restoreRegion (h : MapKept s t) (l r : Nat) : MapKept s (restoreRegion t l r) := by
  unfold Machine.restoreRegion
  split
  · exact h
  · refine MapKept.foldl (h.trans ⟨rfl, rfl, rfl⟩) fun k h => ?_
    dsimp only
    split
    · exact h
    · exact h.trans ⟨rfl, rfl, rfl⟩

/-- No section runs or ends on the four regions, none is held for emulation, and the device is not QUENCHED. -/
def mayMap (s : State) (die x : Nat) : Bool :=
  (groupRegions die x).all (fun r => (s.regionUsers r).all (fun e => e.2.phase != .running && e.2.phase != .ending) &&
    (s.regionOf r).emulation.isNone) && !s.quenched

section
variable {x : Nat} (hfree : ∀ r ∈ groupRegions die x, s.regionUsers r = [] ∧ (s.regionOf r).emulation = none)
include hfree

theorem mayMap_of_free (hq : s.quenched = false) : mayMap s die x = true := by
  rw [mayMap, hq, Bool.not_false, Bool.and_true, List.all_eq_true]
  intro r hr
  obtain ⟨husers, hemu⟩ := hfree r hr
  rw [husers, hemu]
  rfl

/-- Where nothing is on the four regions, mapping the spare in saves and restores them, and then the reservation ends. -/
theorem exec_spareCalibration_maps (hx : (s.dev.dies.get {} die).pendingSteer = some x) (hq : s.quenched = false) (at_ : Nat)
    (f : Finding) : ∃ u, MapKept s u ∧ exec (.spareCalibration die at_ f) s = .next { u with
      dev := { u.dev with dies := u.dev.dies.set {} die { s.dev.dies.get {} die with pendingSteer := none } } } := by
  have husers : (groupRegions die x).flatMap (fun r => s.regionUsers r) = [] :=
    List.flatMap_eq_nil_iff.mpr fun r hr => (hfree r hr).1
  change ∃ u, MapKept s u ∧ execSpareCalibration die at_ f s = _
  unfold execSpareCalibration
  extract_lets m
  rw [show m.pendingSteer = some x from hx]
  refine ⟨_, ?_, congrArg Host.Outcome.next (if_pos (mayMap_of_free hfree hq))⟩
  rw [husers]
  refine MapKept.foldl (MapKept.trans (MapKept.foldl (.refl s) fun r h => ?_) ⟨rfl, rfl, rfl⟩) fun r h => ?_
  · split
    · exact (h.saveFinding r at_ f).trans ⟨rfl, rfl, rfl⟩
    · exact h
  · refine MapKept.updRegion ?_
    split
    · exact h.restoreRegion _ _
    · exact h
end

/-! ### What records leave of the repair state (18 R449) -/

/-- From `r` to `r'` the log alone may change. -/
def LogTold (r r' : Ras) : Prop := ∃ l n d, r' = { r with log := l, logNext := n, logDirty := d }

theorem logTold_event (s : State) (e : Ev) (fns : List Nat) (log : Bool) : LogTold s.ras (s.event e fns log).ras := by
  rw [ras_event]
  cases log with
  | true => exact ⟨_, _, _, rfl⟩
  | false => exact ⟨_, _, _, rfl⟩

theorem logTold_eventStewardLog (s : State) (e : Ev) : LogTold s.ras (s.eventStewardLog e).ras := by
  unfold State.eventStewardLog
  exact logTold_event ..

theorem scrubs_eventStewardLog (s : State) (e : Ev) : (s.eventStewardLog e).ras.scrubs = s.ras.scrubs := by
  obtain ⟨l, n, d, h⟩ := logTold_eventStewardLog s e
  rw [h]

/-- The state of a scrub domain. -/
def scrubOf (s : State) (i : Nat) : Scrub := s.ras.scrubs.get {} i

theorem scrubOf_setScrub (i : Nat) (b : Scrub) : scrubOf (setScrub s i b) i = b := Table.get_set_self _ _ _ _

theorem scrubOf_eventStewardLog (e : Ev) (i : Nat) : scrubOf (s.eventStewardLog e) i = scrubOf s i := by
  rw [scrubOf, scrubs_eventStewardLog, scrubOf]

/-! ### Counting a correctable error (18 R425, R431, R438) -/

theorem escalate_keeps : (scrubOf (escalate die dom s) (4 * die + dom)).writeBack = (scrubOf s (4 * die + dom)).writeBack ∧
    (scrubOf (escalate die dom s) (4 * die + dom)).hourErrs = (scrubOf s (4 * die + dom)).hourErrs := by
  unfold escalate
  extract_lets b n
  split
  · rw [scrubEvent, scrubOf_eventStewardLog, scrubOf_setScrub]
    exact ⟨rfl, rfl⟩
  · exact ⟨rfl, rfl⟩

theorem countCorrectable_counts :
    line ∈ (scrubOf (countCorrectable die dom line s) (4 * die + dom)).writeBack ∧
      (scrubOf (countCorrectable die dom line s) (4 * die + dom)).hourErrs = (scrubOf s (4 * die + dom)).hourErrs + 1 := by
  unfold countCorrectable
  extract_lets b old
  obtain ⟨hw, hh⟩ := escalate_keeps (die := die) (dom := dom) (s := setScrub s (4 * die + dom)
    { b with errs := old ++ [s.sclk], hourErrs := b.hourErrs + 1, writeBack := b.writeBack ++ [line] })
  rw [hw, hh, scrubOf_setScrub]
  exact ⟨List.mem_append_right _ (List.mem_singleton.mpr rfl), rfl⟩

theorem hardFault_records (pos : Nat) : RecordsOnly s (hardFault die dom line pos s) := by
  unfold hardFault State.eventStewardLog
  exact ((RecordsOnly.refl s).ras _).event

theorem scrubs_hardFault (pos : Nat) : (hardFault die dom line pos s).ras.scrubs = s.ras.scrubs := by
  unfold hardFault
  refine (scrubs_eventStewardLog _ _).trans ?_
  dsimp only
  split <;> rfl

theorem correctable_records (pos : Nat) : RecordsOnly s (correctable die dom line pos s) := by
  have hcount (b : Scrub) : RecordsOnly s (countCorrectable die dom line (setScrub s (4 * die + dom) b)) :=
    ((RecordsOnly.refl s).setScrub _ b).countCorrectable die dom line
  unfold correctable
  extract_lets b s1
  split
  · exact (hcount _).trans (hardFault_records pos)
  · exact hcount _

theorem correctable_counts (pos : Nat) : line ∈ (scrubOf (correctable die dom line pos s) (4 * die + dom)).writeBack ∧
    (scrubOf (correctable die dom line pos s) (4 * die + dom)).hourErrs = (scrubOf s (4 * die + dom)).hourErrs + 1 := by
  have hscrubs : (correctable die dom line pos s).ras.scrubs = (countCorrectable die dom line (setScrub s (4 * die + dom)
      { scrubOf s (4 * die + dom) with lastErr := (scrubOf s (4 * die + dom)).lastErr.set none line (some pos) })).ras.scrubs := by
    unfold correctable
    extract_lets b s1
    split
    · exact scrubs_hardFault pos
    · rfl
  have hcount := countCorrectable_counts (die := die) (dom := dom) (line := line) (s := setScrub s (4 * die + dom)
    { scrubOf s (4 * die + dom) with lastErr := (scrubOf s (4 * die + dom)).lastErr.set none line (some pos) })
  rw [scrubOf_setScrub] at hcount
  rw [scrubOf, hscrubs]
  exact hcount

/-! ### The Burnisher's read of a line (18 R429, R433) -/

/-- The read of line `line` begins: it is the domain's place, and a pass over where the order wraps. -/
def lineRead (s : State) (die dom line : Nat) : State :=
  setScrub s (4 * die + dom) { scrubOf s (4 * die + dom) with
    pos := line + 1
    pass := if line < (scrubOf s (4 * die + dom)).pos ∧ dom ≠ 2 then (scrubOf s (4 * die + dom)).pass + 1
      else (scrubOf s (4 * die + dom)).pass }

/-- What the read does with what it found. -/
def lineDone (s : State) (die dom line : Nat) (f : Finding) : State :=
  match f with
  | .clean => setScrub (lineRead s die dom line) (4 * die + dom)
      { scrubOf (lineRead s die dom line) (4 * die + dom) with
        lastErr := (scrubOf s (4 * die + dom)).lastErr.set none line none }
  | .correctable pos => correctable die dom line pos (lineRead s die dom line)
  | .uncorrectable mask => uncorrectable die dom line mask (lineRead s die dom line)

theorem safePoint_idle {g : Group} (h : (s.groupOf g).pending = false) : safePoint g s = s := if_neg (ne_true_of_eq_false h)

section
variable (hp : s.power.scrub.pending = false) (hd : dom = 2 → s.ras.cfgDisabled = false)
include hp hd

theorem exec_scrubLineRead (f : Finding) : exec (.scrubLineRead die dom line f) s =
    .next (lineDone s die dom line (if scrubReads s die dom line then f else .clean)) := by
  have hon : ¬(dom = 2 && s.ras.cfgDisabled) = true := by
    intro h
    simp only [Bool.and_eq_true, decide_eq_true_eq] at h
    exact absurd (hd h.1) (by simp [h.2])
  change execScrubLineRead die dom line f s = _
  unfold execScrubLineRead
  rw [safePoint_idle (g := .scrub) hp]
  refine congrArg Host.Outcome.next ((if_neg hon).trans ?_)
  generalize (if scrubReads s die dom line then f else .clean) = g
  cases g <;> rfl
end

theorem scrubReads_passes_over : scrubReads s die dom line = false ↔ dom = 2 ∧
    (s.regionOf (tileRegion (die * 1152 + line / 1024))).sealedCols.getLsbD (tileX (die * 1152 + line / 1024) % 9) = false := by
  simp only [scrubReads, Bool.or_eq_false_iff, bne_eq_false_iff_eq]

theorem lineDone_clean : (scrubOf (lineDone s die dom line .clean) (4 * die + dom)).pos = line + 1 ∧
    lineDone s die dom line .clean = { s with ras := { s.ras with scrubs := (lineDone s die dom line .clean).ras.scrubs } } := by
  refine ⟨?_, rfl⟩
  rw [lineDone, scrubOf_setScrub, lineRead, scrubOf_setScrub]

theorem lineDone_correctable (pos : Nat) :
    RecordsOnly s (lineDone s die dom line (.correctable pos)) ∧
      line ∈ (scrubOf (lineDone s die dom line (.correctable pos)) (4 * die + dom)).writeBack ∧
      (scrubOf (lineDone s die dom line (.correctable pos)) (4 * die + dom)).hourErrs = (scrubOf s (4 * die + dom)).hourErrs + 1 := by
  obtain ⟨hw, hh⟩ := correctable_counts (die := die) (dom := dom) (line := line) (s := lineRead s die dom line) pos
  rw [lineRead, scrubOf_setScrub] at hh
  exact ⟨((RecordsOnly.refl s).setScrub _ _).trans (correctable_records pos), hw, hh⟩

/-- An uncorrectable error of a unit that a lease owns marks it; everything else that changes is a record. -/
theorem lineDone_uncorrectable (mask : Nat) (hl : line / 2 ^ 34 < 1024) (hst : (s.leaseOf (line / 2 ^ 34)).st ≠ .free) :
    RecordsOnly (s.setHbmPoison (s.hbm.poison.set false line true)) (lineDone s die 1 line (.uncorrectable mask)) := by
  have hwhere (b : Scrub) : (lineWhere (setScrub (lineRead s die 1 line) (4 * die + 1) b) die 1 line).1 ≠ 0xFFFF := by
    have h : (lineWhere (setScrub (lineRead s die 1 line) (4 * die + 1) b) die 1 line).1 = line / 2 ^ 34 := if_pos ⟨hl, hst⟩
    omega
  have hmark (b : Scrub) : RecordsOnly (s.setHbmPoison (s.hbm.poison.set false line true))
      (markUncorrectable die 1 line mask (setScrub (lineRead s die 1 line) (4 * die + 1) b)) := by
    unfold markUncorrectable
    rw [if_neg (by decide), if_pos rfl, if_pos (hwhere b)]
    exact ((((RecordsOnly.refl _).setScrub _ _).setScrub _ b).poisonFound ..)
  unfold lineDone uncorrectable
  dsimp only
  split
  · exact (hmark _).trans (hardFault_records 0)
  · exact hmark _

/-! ### The end of an escalation, and the canary (18 R431, R433, R434) -/

theorem exec_scrubRestored_ends (he : (scrubOf s (4 * die + dom)).escalated = true)
    (hq : 250000000 ≤ s.sclk - (scrubOf s (4 * die + dom)).quietAt)
    (hfew : ∀ k, k < 10 → errsIn s.sclk (scrubOf s (4 * die + dom)) k < 16) :
    ∃ t, exec (.scrubRestored die dom) s = .next t ∧ (scrubOf t (4 * die + dom)).escalated = false ∧ RecordsOnly s t := by
  have hall : (upTo 10).all (fun k => decide (errsIn s.sclk (scrubOf s (4 * die + dom)) k < 16)) = true :=
    List.all_eq_true.mpr fun k hk => decide_eq_true (hfew k (List.mem_range.mp hk))
  have hends : ((scrubOf s (4 * die + dom)).escalated && decide (10 * second ≤ s.sclk - (scrubOf s (4 * die + dom)).quietAt) &&
      (upTo 10).all (fun k => decide (errsIn s.sclk (scrubOf s (4 * die + dom)) k < 16))) = true := by
    rw [he, hall, Bool.and_true, Bool.true_and]
    exact decide_eq_true hq
  refine ⟨_, congrArg Host.Outcome.next (if_pos hends), ?_, ((RecordsOnly.refl s).setScrub _ _).scrubEvent _ _ _ _⟩
  rw [scrubEvent, scrubOf_eventStewardLog, scrubOf_setScrub]

theorem exec_scrubRestored_goesOn {k : Nat} (hk : k < 10) (hmany : 16 ≤ errsIn s.sclk (scrubOf s (4 * die + dom)) k) :
    exec (.scrubRestored die dom) s = .next s := by
  have hall : (upTo 10).all (fun k => decide (errsIn s.sclk (scrubOf s (4 * die + dom)) k < 16)) = false :=
    List.all_eq_false.mpr ⟨k, List.mem_range.mpr hk, by simpa using hmany⟩
  refine congrArg Host.Outcome.next (if_neg ?_)
  change ¬(_ && (upTo 10).all (fun k => decide (errsIn s.sclk (scrubOf s (4 * die + dom)) k < 16))) = true
  rw [hall, Bool.and_false]
  decide

/-- The canary of a die reads as it should. -/
def canaryPasses (s : State) (die bit : Nat) (crc : Word) (n : Nat) : Prop :=
  bit = (scrubOf s (4 * die + 2)).pass % 2304 ∧ crc = 0x9D41E60B#32 ∧ n = sealedFrames s die

section
variable {bit n : Nat} {crc : Word} (hon : s.ras.cfgDisabled = false)
include hon

theorem exec_canaryCheck_passes (hpass : canaryPasses s die bit crc n) : exec (.canaryCheck die bit crc n) s =
    .next (setScrub s (4 * die + 2) { scrubOf s (4 * die + 2) with
      canaryFailed := false, pass := (scrubOf s (4 * die + 2)).pass + 1 }) :=
  congrArg Host.Outcome.next ((if_neg (ne_true_of_eq_false hon)).trans (if_pos hpass))

/-- The state with a failed canary on record. -/
def canaryFailed (s : State) (die : Nat) : State :=
  (setScrub { s with ras := { s.ras with canaryFails := satInc s.ras.canaryFails 255 } } (4 * die + 2)
    { scrubOf s (4 * die + 2) with canaryFailed := true, pos := 0 }).eventStewardLog
    { type := 0x14, body := leBytes die 1 ++ leBytes (b2n (scrubOf s (4 * die + 2)).canaryFailed) 1 ++
        leBytes (scrubOf s (4 * die + 2)).pass 4 }

/-- Configuration scrubbing ends, and every open lease and the steward are told. -/
def scrubbingEnded (s : State) (die : Nat) : State :=
  (({ s with ras := { s.ras with cfgDisabled := true } }).refreshReady).eventAllOpen { type := 0x15, body := leBytes die 1 }

theorem exec_canaryCheck_fails (hfail : ¬canaryPasses s die bit crc n) : exec (.canaryCheck die bit crc n) s =
    .next (if (scrubOf s (4 * die + 2)).canaryFailed then scrubbingEnded (canaryFailed s die) die else canaryFailed s die) :=
  congrArg Host.Outcome.next ((if_neg (ne_true_of_eq_false hon)).trans (if_neg hfail))
end

theorem canaryFailed_records : RecordsOnly s (canaryFailed s die) := by
  unfold canaryFailed State.eventStewardLog
  exact (((RecordsOnly.refl s).ras _).setScrub _ _).event

theorem canaryFailed_marks : (scrubOf (canaryFailed s die) (4 * die + 2)).canaryFailed = true := by
  rw [canaryFailed, scrubOf_eventStewardLog, scrubOf_setScrub]

theorem cfgDisabled_canaryFailed : (canaryFailed s die).ras.cfgDisabled = s.ras.cfgDisabled := by
  obtain ⟨l, n, d, h⟩ := logTold_eventStewardLog (setScrub { s with ras := { s.ras with canaryFails := satInc s.ras.canaryFails 255 } }
    (4 * die + 2) { scrubOf s (4 * die + 2) with canaryFailed := true, pos := 0 })
    { type := 0x14, body := leBytes die 1 ++ leBytes (b2n (scrubOf s (4 * die + 2)).canaryFailed) 1 ++
        leBytes (scrubOf s (4 * die + 2)).pass 4 }
  rw [canaryFailed, h]
  rfl

theorem scrubbingEnded_spec : (scrubbingEnded s die).ras.cfgDisabled = true ∧ (scrubbingEnded s die).ras.scrubs = s.ras.scrubs ∧
    (scrubbingEnded s die).hbm = s.hbm ∧ (scrubbingEnded s die).fab = s.fab := by
  unfold scrubbingEnded State.eventAllOpen
  obtain ⟨b, hb⟩ := State.refreshReady_eq { s with ras := { s.ras with cfgDisabled := true } }
  rw [hb]
  refine ⟨?_, ?_, (hbm_event ..).trans rfl, (fab_event ..).trans rfl⟩ <;>
  · rw [ras_event]
    rfl

/-! ### The hour's counts (18 Table 18.7) -/

/-- One domain's count goes to the log and begins again; a die has three domains. -/
def summarize (s : State) (i : Nat) : State :=
  if i % 4 = 3 then s else
  setScrub (s.logEvent { type := 0x1B, body := leBytes (i / 4) 1 ++ leBytes (i % 4) 1 ++ leBytes (s.ras.scrubs.get {} i).hourErrs 4 }) i
    { s.ras.scrubs.get {} i with hourErrs := 0 }

theorem exec_ceSummary : exec .ceSummary s = .next ((upTo (4 * s.nDies)).foldl summarize s) := rfl

theorem scrubOf_logEvent (e : Ev) (j : Nat) : scrubOf (s.logEvent e) j = scrubOf s j := by
  dsimp only [scrubOf, State.logEvent]

theorem scrubOf_setScrub_ne {i j : Nat} (b : Scrub) (h : j ≠ i) : scrubOf (setScrub s i b) j = scrubOf s j :=
  Table.get_set_ne _ _ _ h

theorem summarize_frame (i : Nat) : (summarize s i).host = s.host ∧ (summarize s i).hbm = s.hbm := by
  unfold summarize
  split
  · exact ⟨rfl, rfl⟩
  · dsimp only [setScrub, State.logEvent]
    exact ⟨rfl, rfl⟩

theorem logNext_summarize (i : Nat) : (summarize s i).ras.logNext = s.ras.logNext + if i % 4 = 3 then 0 else 1 := by
  unfold summarize
  split
  · rfl
  · dsimp only [setScrub, State.logEvent]

theorem hourErrs_summarize {i j : Nat} (hj : j % 4 ≠ 3) (h : j = i ∨ (scrubOf s j).hourErrs = 0) :
    (scrubOf (summarize s i) j).hourErrs = 0 := by
  by_cases hij : j = i
  · subst hij
    rw [summarize, if_neg hj, scrubOf_setScrub]
  · have hs := h.resolve_left hij
    unfold summarize
    split
    · exact hs
    · rw [scrubOf_setScrub_ne _ hij, scrubOf_logEvent, hs]

/-- The domains before the `n`-th have been logged, three of each four, and count from 0. -/
theorem foldl_summarize (n : Nat) : ((upTo n).foldl summarize s).ras.logNext = s.ras.logNext + (n - n / 4) ∧
    (∀ j, j < n → j % 4 ≠ 3 → (scrubOf ((upTo n).foldl summarize s) j).hourErrs = 0) ∧
    ((upTo n).foldl summarize s).host = s.host ∧ ((upTo n).foldl summarize s).hbm = s.hbm := by
  induction n with
  | zero => exact ⟨rfl, by simp, rfl, rfl⟩
  | succ n ih =>
    obtain ⟨hlog, hzero, hhost, hhbm⟩ := ih
    rw [show upTo (n + 1) = upTo n ++ [n] from List.range_succ, List.foldl_append, List.foldl_cons, List.foldl_nil]
    obtain ⟨hh, hm⟩ := summarize_frame (s := (upTo n).foldl summarize s) n
    refine ⟨?_, fun j hj hj3 => hourErrs_summarize hj3 ?_, hh.trans hhost, hm.trans hhbm⟩
    · rw [logNext_summarize, hlog]
      split <;> omega
    · by_cases hjn : j = n
      · exact .inl hjn
      · exact .inr (hzero j (by omega) hj3)

/-! ### A page of the log (18 R449) -/

theorem exec_patinaPageFlush {page : Nat} (hd : page ∈ s.ras.logDirty) (hc : pageCurrent page (s.ras.pages.get {} page) ≠ none) :
    exec (.patinaPageFlush page) s = .next { s with ras := { s.ras with
      pages := s.ras.pages.set {} page (pageWrite page (logPage s page) 1056 (s.ras.pages.get {} page))
      logDirty := s.ras.logDirty.filter (fun k => k != page) } } := by
  obtain ⟨a, ha⟩ := Option.ne_none_iff_exists'.mp hc
  refine congrArg Host.Outcome.next ((if_pos (List.contains_iff_mem.mpr hd)).trans ?_)
  simp only [writePage, ha]

theorem exec_spareCalibration_none (hx : (s.dev.dies.get {} die).pendingSteer = none) (at_ : Nat) (f : Finding) :
    exec (.spareCalibration die at_ f) s = .next s := by
  change execSpareCalibration die at_ f s = _
  unfold execSpareCalibration
  extract_lets m
  rw [show m.pendingSteer = none from hx]
  rfl

/-- Settles O51: each row from its own lemma. -/
theorem rasRows : Obligations.RasRows := by
  unfold Obligations.RasRows
  intro s die
  refine ⟨fun r hr ht hf => ⟨fun hv => ⟨fun b => ?_, fun t hin => ⟨?_, ?_⟩⟩, fun hv f b => ?_⟩, fun hx a f => ?_,
    fun x hx hq hfree a f => ?_, fun dom line hp hd => ⟨?_, fun hr f => ?_, scrubReads_passes_over, fun hr pos => ?_⟩,
    fun line mask hp hl hst => ?_, fun dom => ⟨rfl, fun he hq hfew => ?_, fun k hk hmany => exec_scrubRestored_goesOn hk hmany⟩,
    fun bit crc n hon => ⟨fun hpass => exec_canaryCheck_passes hon hpass, fun hfail => ?_⟩, fun k => rfl, ?_,
    fun page content n hp hc hcur => exec_durablePageWrite hp hc hcur n, fun page hd hc => exec_patinaPageFlush hd hc⟩
  · rw [exec_runtimeSelfTest hr ht hf, if_pos hv]
    rfl
  · rw [exec_runtimeSelfTest hr ht hf, if_pos hv]
    exact congrArg Host.Outcome.next ((if_pos hin).trans (if_neg Bool.false_ne_true))
  · rw [exec_runtimeSelfTest hr ht hf, if_pos hv]
    exact congrArg Host.Outcome.next ((if_pos hin).trans (if_pos rfl))
  · rw [exec_runtimeSelfTest hr ht hf, if_neg (Nat.not_le.mpr hv)]
  · exact exec_spareCalibration_none hx a f
  · obtain ⟨u, ⟨hdev, hhbm, hseq⟩, hexec⟩ := exec_spareCalibration_maps hfree hx hq a f
    refine ⟨_, hexec, ?_, fun k hk => ?_, hhbm, hseq⟩
    · dsimp only
      rw [Table.get_set_self]
    · dsimp only
      rw [Table.get_set_ne _ _ _ hk, hdev]
  · have hexec := exec_scrubLineRead (die := die) (line := line) hp hd .clean
    rw [ite_self] at hexec
    exact ⟨_, hexec, lineDone_clean⟩
  · rw [exec_scrubLineRead hp hd, exec_scrubLineRead hp hd, if_neg (ne_true_of_eq_false hr), ite_self]
  · have hexec := exec_scrubLineRead (die := die) (line := line) hp hd (.correctable pos)
    rw [if_pos hr] at hexec
    obtain ⟨⟨⟨fns, o, r, ht⟩, -⟩, hw, hh⟩ := lineDone_correctable (s := s) (die := die) (dom := dom) (line := line) pos
    refine ⟨_, hexec, ?_, ?_, ?_, ?_, hw, hh⟩ <;> rw [ht]
  · have hexec := exec_scrubLineRead (die := die) (line := line) (dom := 1) hp (by simp) (.uncorrectable mask)
    obtain ⟨⟨fns, o, r, ht⟩, -⟩ := lineDone_uncorrectable (die := die) mask hl hst
    refine ⟨_, hexec, ?_, ?_, ?_⟩ <;> rw [if_pos (by rfl), ht] <;> rfl
  · obtain ⟨t, hexec, hend, ⟨fns, o, r, rfl⟩, -⟩ := exec_scrubRestored_ends he hq hfew
    exact ⟨_, hexec, hend, rfl, rfl⟩
  · refine ⟨_, exec_canaryCheck_fails hon hfail, ?_⟩
    obtain ⟨⟨fns, o, r, ht⟩, -⟩ := canaryFailed_records (s := s) (die := die)
    have hhbm : (canaryFailed s die).hbm = s.hbm := by rw [ht]
    have hfab : (canaryFailed s die).fab = s.fab := by rw [ht]
    have hmark := canaryFailed_marks (s := s) (die := die)
    by_cases hb : (scrubOf s (4 * die + 2)).canaryFailed = true
    · obtain ⟨hdis, hscrubs, hm, hf⟩ := scrubbingEnded_spec (s := canaryFailed s die) (die := die)
      rw [if_pos hb]
      refine ⟨hdis.trans hb.symm, ?_, hm.trans hhbm, hf.trans hfab⟩
      rw [hscrubs]
      exact hmark
    · rw [if_neg hb]
      refine ⟨cfgDisabled_canaryFailed.trans (hon.trans ?_), hmark, hhbm, hfab⟩
      exact (Bool.eq_false_iff.mpr hb).symm
  · obtain ⟨hlog, hzero, hhost, hhbm⟩ := foldl_summarize (s := s) (4 * s.nDies)
    exact ⟨_, exec_ceSummary, hlog.trans (by omega), fun d k hd hk => hzero _ (by omega) (by omega), hhost, hhbm⟩

end Sys2Proof.Machine
end

