-- ==== Sys2Proof/Proofs/SecureLinks.lean ====
section
/-! The DRBG, IDE streams and SPDM (O52). -/
namespace Sys2Proof.Machine

variable {s t : State} {p k : Nat}

/-! ### The DRBG (19 R456, R457) -/

theorem exec_drbgReseed (hd : drbgOk s = true) (hdue : 65536 ≤ s.sec.drbgReqs ∨ 25000000 ≤ s.sclk - s.sec.drbgAt) :
    exec .drbgReseed s = .next { s with sec := { s.sec with drbgReqs := 0, drbgAt := s.sclk } } := by
  have hc : (drbgOk s && (decide (65536 ≤ s.sec.drbgReqs) || decide (second ≤ s.sclk - s.sec.drbgAt))) = true := by
    rw [hd, Bool.true_and, Bool.or_eq_true, decide_eq_true_eq, decide_eq_true_eq]
    exact hdue
  exact congrArg Host.Outcome.next (if_pos hc)

theorem exec_entropyRestart (pass : Bool) : exec (.entropyRestart pass) s = .next
    (if s.sec.entropyFail && pass then
      { s with sec := { s.sec with entropyFail := false, seeded := true, drbgReqs := 0, drbgAt := s.sclk } } else s) := rfl

/-! ### IDE streams (19 R464 to R466) -/

theorem portOf_setIde (x : Ide) : (setIde s p k x).portOf p = { s.portOf p with ide := (s.portOf p).ide.set {} k x } := by
  rw [setIde, State.portOf_setPort]

theorem portOf_congr (h : t.host.ports = s.host.ports) : t.portOf p = s.portOf p := by rw [State.portOf, h, State.portOf]

theorem ports_msix (f v : Nat) : (s.msix f v).host.ports = s.host.ports := by
  unfold State.msix
  split <;> rfl

theorem ports_drainHeld (f n : Nat) : (s.drainHeld f n).host.ports = s.host.ports := by
  induction n generalizing s with
  | zero => rfl
  | succ n ih =>
    rw [State.drainHeld]
    split
    · rfl
    · split
      · exact ih.trans (ports_msix f 0)
      · rfl

theorem ports_drainPort : (s.drainPort p).host.ports = s.host.ports := by
  unfold State.drainPort
  generalize s.portFns p = l
  induction l generalizing s with
  | nil => rfl
  | cons f l ih => exact ih.trans (ports_drainHeld f 64)

/-- The link stream is not Secure: a request to host memory goes by no stream. -/
theorem ideFor_host_none {addr : Nat} (h : ((s.portOf p).ide.get {} 0).secure = false) : s.ideFor p addr false = none := by
  simp [State.ideFor, h]

theorem ideFor_host_secure {addr : Nat} (h : ((s.portOf p).ide.get {} 0).secure = true) : s.ideFor p addr false = some 0 := by
  simp [State.ideFor, h]

/-- The first selective stream of a port that is Secure and covers the address. -/
def selective (s : State) (p addr : Nat) : Option Nat := [1, 2, 3, 4].find? (ideCovers (s.portOf p) addr)

theorem ideFor_peer (addr : Nat) : s.ideFor p addr true =
    (selective s p addr).or (if ((s.portOf p).ide.get {} 0).secure then some 0 else none) := by
  unfold State.ideFor selective
  rw [if_pos rfl]
  cases [1, 2, 3, 4].find? (ideCovers (s.portOf p) addr) <;> rfl

theorem selective_spec {addr : Nat} (h : selective s p addr = some k) : k ≠ 0 ∧ k ≤ 4 ∧ ideCovers (s.portOf p) addr k = true := by
  have hmem := List.mem_of_find?_eq_some h
  simp only [List.mem_cons, List.not_mem_nil, or_false] at hmem
  exact ⟨by omega, by omega, List.find?_some h⟩

theorem selective_covered {addr : Nat} (h1 : 1 ≤ k) (h4 : k ≤ 4) (hc : ideCovers (s.portOf p) addr k = true) :
    ∃ j, selective s p addr = some j := by
  refine Option.isSome_iff_exists.mp (List.find?_isSome.mpr ⟨k, ?_, hc⟩)
  interval_cases k <;> decide

theorem ideFor_spec {addr : Nat} {peer : Bool} (h : s.ideFor p addr peer = some k) :
    (k = 0 → ((s.portOf p).ide.get {} 0).secure = true) ∧ (k ≠ 0 → peer = true ∧ k ≤ 4 ∧ ideCovers (s.portOf p) addr k = true) := by
  cases peer with
  | false =>
    by_cases hs : ((s.portOf p).ide.get {} 0).secure = true
    · rw [ideFor_host_secure hs] at h
      cases h
      exact ⟨fun _ => hs, fun h => absurd rfl h⟩
    · rw [ideFor_host_none (Bool.eq_false_iff.mpr hs)] at h
      exact absurd h (by simp)
  | true =>
    rw [ideFor_peer, Option.or_eq_some_iff] at h
    obtain h | ⟨-, h⟩ := h
    · obtain ⟨h0, h4, hc⟩ := selective_spec h
      exact ⟨fun h => absurd h h0, fun _ => ⟨rfl, h4, hc⟩⟩
    · obtain ⟨hs, h⟩ := Option.ite_none_right_eq_some.mp h
      cases h
      exact ⟨fun _ => hs, fun h => absurd rfl h⟩

theorem canSendTo_none {f addr : Nat} {peer : Bool} (h : s.ideFor (fnPort f) addr peer = none)
    (hno : s.sec.policy.getLsbD 0 = true ∨ ((s.portOf (fnPort f)).ide.get {} 0).insecure = true) : s.canSendTo f addr peer = false := by
  have hcarries : s.ideCarries (fnPort f) addr peer = false := by
    unfold State.ideCarries
    obtain hno | hno := hno <;> rw [h, hno] <;> simp
  rw [State.canSendTo, hcarries, Bool.and_false]

/-- The stream that failed its check, and the record of it. -/
def streamFailed (s : State) (p k : Nat) : State :=
  (setIde s p k { (s.portOf p).ide.get {} k with secure := false, insecure := true }).eventSteward
    { type := 0x06, body := leBytes 1 1 ++ leBytes p 1 }

theorem streamFailed_records : RecordsOnly (setIde s p k { (s.portOf p).ide.get {} k with secure := false, insecure := true })
    (streamFailed s p k) := by
  unfold streamFailed State.eventSteward
  exact (RecordsOnly.refl _).event

theorem ide_streamFailed :
    ((streamFailed s p k).portOf p).ide.get {} k = { (s.portOf p).ide.get {} k with secure := false, insecure := true } := by
  have hports : (streamFailed s p k).host.ports = (setIde s p k { (s.portOf p).ide.get {} k with
      secure := false, insecure := true }).host.ports := by
    obtain ⟨⟨_, _, _, h⟩, -⟩ := streamFailed_records (s := s) (p := p) (k := k)
    rw [h]
  rw [portOf_congr hports, portOf_setIde, Table.get_set_self]

/-- A port whose link stream is Insecure sends nothing. -/
theorem canSend_streamFailed {f : Nat} (hf : fnPort f = p) : (streamFailed s p 0).canSend f = false := by
  subst hf
  have hide := ide_streamFailed (s := s) (p := fnPort f) (k := 0)
  exact canSendTo_none (ideFor_host_none (by rw [hide])) (.inr (by rw [hide]))

/-- The keyed stream, and the held replies that may go. -/
def streamKeyed (s : State) (p k base limit : Nat) : State :=
  (((setIde s p k { secure := true, base := base, limit := limit }).drewRandom).drainPort p).emit (.doe p 0x100 true [])

theorem ide_streamKeyed {a b : Nat} : ((streamKeyed s p k a b).portOf p).ide =
    (s.portOf p).ide.set {} k { secure := true, base := a, limit := b } := by
  have hports : (streamKeyed s p k a b).host.ports = (setIde s p k { secure := true, base := a, limit := b }).host.ports :=
    ports_drainPort
  rw [portOf_congr hports, portOf_setIde]

section
variable (ho : doeOpen s p = true)
include ho

theorem exec_ideKm (a b : Nat) : exec (.ideKm p k a b) s = .next
    (if (s.portOf p).spdm = .session && decide (k < 5) && drbgOk s then streamKeyed s p k a b
    else s.emit (.doe p 0x100 false [])) :=
  congrArg Host.Outcome.next (if_neg (by simp [ho]))

/-! ### SPDM (19 R462, R463, R471) -/

theorem spdmReq_open (allowed : Bool) (act : State → State) :
    spdmReq p allowed act s = if allowed then act s else spdmError p spdmUnexpected s :=
  if_neg (by simp [ho])

/-- A request that one state alone allows. -/
theorem spdmReq_state (x : SpdmState) (act : State → State) :
    spdmReq p ((s.portOf p).spdm == x) act s = if (s.portOf p).spdm = x then act s else spdmError p spdmUnexpected s := by
  rw [spdmReq_open ho]
  simp only [beq_iff_eq]

/-- A request that needs negotiated algorithms. -/
theorem spdmReq_negotiated (hn : negotiated s p = true) (act : State → State) : spdmReq p (negotiated s p) act s = act s :=
  (spdmReq_open ho _ _).trans (if_pos hn)
theorem spdmReq_unnegotiated (hn : negotiated s p = false) (act : State → State) :
    spdmReq p (negotiated s p) act s = spdmError p spdmUnexpected s :=
  (spdmReq_open ho _ _).trans (if_neg (ne_true_of_eq_false hn))
end

theorem spdmSigned_locked (h : s.sec.debugUnlocked = true) (act : State → State) :
    spdmSigned p act s = spdmError p spdmUnspecified s := if_pos h
theorem spdmSigned_signs (h : s.sec.debugUnlocked = false) (hd : drbgOk s = true) (act : State → State) :
    spdmSigned p act s = act s.drewRandom :=
  (if_neg (ne_true_of_eq_false h)).trans (if_neg (by simp [hd]))

section
variable (ho : doeOpen s p = true) (hn : negotiated s p = true)
include ho hn

theorem exec_getDigests : exec (.getDigests p) s = .next (s.emit (.doe p 0x01 true (leBytes 0x03 1 ++
    beBytes (sha384 (signedBy s 0)).toNat 48 ++ beBytes (sha384 (signedBy s 1)).toNat 48))).drew :=
  congrArg Host.Outcome.next (spdmReq_negotiated ho hn _)

theorem exec_getCertificate : exec (.getCertificate p k) s = .next
    (if k < 2 then (s.emit (.doe p 0x02 true (signedBy s k))).drew else spdmError p spdmInvalid s) :=
  congrArg Host.Outcome.next (spdmReq_negotiated ho hn _)

theorem exec_challenge : exec (.challenge p k) s = .next
    (if k < 2 then spdmSigned p (fun s => s.emit (.doe p 0x03 true (signedBy s 2))) s else spdmError p spdmInvalid s) :=
  congrArg Host.Outcome.next (spdmReq_negotiated ho hn _)

theorem exec_getMeasurements {m : List Byte} (hm : measurement s k = some m) : exec (.getMeasurements p k) s =
    .next (spdmSigned p (fun t => t.emit (.doe p 0x60 true (m ++ signedBy t 3))) s) := by
  refine congrArg Host.Outcome.next ((spdmReq_negotiated ho hn _).trans ?_)
  simp only [hm]
  rfl

theorem exec_keyExchange : exec (.keyExchange p) s = .next
    (if !(drbgOk s) then (spdmError p (Config.freeNat s.free % 256) s).drew
    else setSpdm p .handshake ((s.emit (.doe p 0x64 true (signedBy s 4))).drewRandom)) :=
  congrArg Host.Outcome.next (spdmReq_negotiated ho hn _)
end

/-! ### The statement, part by part -/

section
variable (ho : doeOpen s p = true)
include ho

theorem exec_getVersion : exec (.getVersion p) s = .next (setSpdm p .version (s.emit (.doe p 0x04 true (leBytes 0x12 1)))) :=
  congrArg Host.Outcome.next ((spdmReq_open ho _ _).trans (if_pos rfl))

theorem exec_getCapabilities : exec (.getCapabilities p) s = .next
    (if (s.portOf p).spdm = .version then setSpdm p .capabilities (s.emit (.doe p 0x61 true [])) else spdmError p spdmUnexpected s) :=
  congrArg Host.Outcome.next (spdmReq_state ho .version _)

theorem exec_negotiateAlgorithms (offered : Bool) : exec (.negotiateAlgorithms p offered) s = .next
    (if (s.portOf p).spdm = .capabilities then
      (if offered then setSpdm p .negotiated (s.emit (.doe p 0x63 true [])) else spdmError p spdmInvalid s)
    else spdmError p spdmUnexpected s) :=
  congrArg Host.Outcome.next (spdmReq_state ho .capabilities _)

theorem exec_finish (ok : Bool) : exec (.finish p ok) s = .next
    (if (s.portOf p).spdm = .handshake then
      (if ok then setSpdm p .session (s.emit (.doe p 0x65 true [])) else setSpdm p .negotiated (spdmError p spdmInvalid s))
    else spdmError p spdmUnexpected s) :=
  congrArg Host.Outcome.next (spdmReq_state ho .handshake _)

theorem exec_endSession : exec (.endSession p) s = .next
    (if (s.portOf p).spdm = .session then setSpdm p .negotiated (s.emit (.doe p 0x6C true [])) else spdmError p spdmUnexpected s) :=
  congrArg Host.Outcome.next (spdmReq_state ho .session _)
end

theorem next_ite {c : Prop} [Decidable c] {a b : State} :
    (Host.Outcome.next (if c then a else b) : Host.Outcome State Fault Refusal) = if c then .next a else .next b :=
  apply_ite Host.Outcome.next c a b

/-- Settles O52: the DRBG's rows, the IDE streams and the stream of a request, and the SPDM requests by state. -/
theorem securityRows : Obligations.SecurityRows := by
  unfold Obligations.SecurityRows
  refine ⟨fun s => ⟨exec_drbgReseed, fun hst => congrArg Host.Outcome.next (if_pos hst), fun he => ?_, ?_⟩,
    fun s p k => ⟨fun hsec => ?_, fun a b ho hs hk hd => ?_, fun a b ho hs => ?_⟩,
    fun s p addr => ⟨fun peer k h => ideFor_spec h, ideFor_host_secure, fun k h1 h4 hc => ?_, fun peer hnone hpol f hf => ?_⟩,
    fun s p ho => ⟨exec_getVersion ho, ?_, ?_, fun hst => ?_, fun ok hst => ?_, fun hst => ?_, fun hst => ?_, ?_, fun hn k => ?_,
      fun hn => ?_⟩⟩
  · rw [exec_entropyRestart, if_pos (by simp [he])]
  · rw [exec_entropyRestart, if_neg (by simp)]
  · have hide := ide_streamFailed (s := s) (p := p) (k := k)
    obtain ⟨⟨_, _, _, hrec⟩, -⟩ := streamFailed_records (s := s) (p := p) (k := k)
    refine ⟨streamFailed s p k, congrArg Host.Outcome.next (if_pos hsec), by rw [hide], by rw [hide],
      fun h0 f hf => h0 ▸ canSend_streamFailed hf, ?_, ?_, ?_⟩ <;> rw [hrec] <;> rfl
  · refine ⟨?_, ?_, fun j hj => ?_⟩
    · rw [exec_ideKm ho, if_pos (by simp [hs, hk, hd])]
      rfl
    · exact (congrArg (Table.get {} · k) ide_streamKeyed).trans (Table.get_set_self _ _ _ _)
    · exact (congrArg (Table.get {} · j) ide_streamKeyed).trans (Table.get_set_ne _ _ _ hj)
  · rw [exec_ideKm ho, if_neg (by simp [hs])]
  · obtain ⟨j, hj⟩ := selective_covered h1 h4 hc
    exact ⟨j, (selective_spec hj).1, by rw [ideFor_peer, hj]; rfl⟩
  · subst hf
    exact canSendTo_none hnone (.inl hpol)
  · rw [exec_getCapabilities ho, next_ite]
  · rw [exec_negotiateAlgorithms ho, if_pos rfl, next_ite]
  · rw [exec_negotiateAlgorithms ho, if_pos hst, if_neg Bool.false_ne_true]
  · rw [exec_finish ho, if_neg hst]
  · rw [exec_finish ho, if_pos hst, if_pos rfl]
  · rw [exec_finish ho, if_pos hst, if_neg Bool.false_ne_true]
  · rw [exec_endSession ho, next_ite]
  · refine ⟨?_, ?_, ?_, ?_, ?_⟩ <;> exact congrArg Host.Outcome.next (spdmReq_unnegotiated ho hn _)
  · refine ⟨exec_getDigests ho hn, fun k hk => ?_, fun k hk => ⟨?_, ?_⟩, fun hu k hk => ?_, fun hu k m hm => ?_,
      fun hd hu => ⟨fun k hk => ?_, fun k m hm => ?_⟩, fun hd => ?_, fun hd => ?_⟩
    · rw [exec_getCertificate ho hn, if_pos hk]
    · rw [exec_getCertificate ho hn, if_neg (by omega)]
    · rw [exec_challenge ho hn, if_neg (by omega)]
    · rw [exec_challenge ho hn, if_pos hk, spdmSigned_locked hu]
    · rw [exec_getMeasurements ho hn hm, spdmSigned_locked hu]
    · rw [exec_challenge ho hn, if_pos hk, spdmSigned_signs hu hd]
    · rw [exec_getMeasurements ho hn hm, spdmSigned_signs hu hd]
    · rw [exec_keyExchange ho hn, if_neg (by simp [hd])]
    · rw [exec_keyExchange ho hn, if_pos (by simp [hd])]
      exact ⟨_, _, rfl, rfl, rfl, rfl⟩

end Sys2Proof.Machine
end

