-- ==== Sys2Proof/Proofs/Platform.lean ====
section
/-! What sections, programs, leases and functions cannot touch when they end: the identity, the boot state, the module, power and the
clock, and of the security state all but an open challenge.  `PlatformKept r s`: of these, `s` holds what `r` does. -/
namespace Sys2Proof.Machine

variable {r s t : State}

/-- The platform of `s` is that of `r`. -/
structure PlatformKept (r s : State) : Prop where
  dev : s.dev = r.dev
  boot : s.boot = r.boot
  sec : ∃ c, s.sec = { r.sec with challenge := c }
  power : s.power = r.power
  mod : s.mod = r.mod
  sclk : s.sclk = r.sclk

namespace PlatformKept

theorem refl (s : State) : PlatformKept s s := ⟨rfl, rfl, ⟨_, rfl⟩, rfl, rfl, rfl⟩

theorem trans (h1 : PlatformKept r s) (h2 : PlatformKept s t) : PlatformKept r t := by
  obtain ⟨c1, hs1⟩ := h1.sec
  obtain ⟨c2, hs2⟩ := h2.sec
  exact ⟨h2.dev.trans h1.dev, h2.boot.trans h1.boot, ⟨c2, by rw [hs2, hs1]⟩, h2.power.trans h1.power, h2.mod.trans h1.mod,
    h2.sclk.trans h1.sclk⟩

theorem of_records (h : RecordsOnly s t) : PlatformKept s t := by
  obtain ⟨⟨_, _, _, rfl⟩, -⟩ := h
  exact ⟨rfl, rfl, ⟨_, rfl⟩, rfl, rfl, rfl⟩

theorem of_tells (h : tellsOnly s t) : PlatformKept s t := by
  obtain ⟨_, _, rfl⟩ := h
  exact ⟨rfl, rfl, ⟨_, rfl⟩, rfl, rfl, rfl⟩

section
variable (h : PlatformKept r s)
include h

/-! ### The parts of the state that it leaves out -/

theorem of_host (x : HostSt) : PlatformKept r { s with host := x } := h.trans ⟨rfl, rfl, ⟨_, rfl⟩, rfl, rfl, rfl⟩
theorem of_own (x : LeaseTab) : PlatformKept r { s with own := x } := h.trans ⟨rfl, rfl, ⟨_, rfl⟩, rfl, rfl, rfl⟩
theorem of_fab (x : Fabric) : PlatformKept r { s with fab := x } := h.trans ⟨rfl, rfl, ⟨_, rfl⟩, rfl, rfl, rfl⟩
theorem of_hbm (x : Hbm) : PlatformKept r { s with hbm := x } := h.trans ⟨rfl, rfl, ⟨_, rfl⟩, rfl, rfl, rfl⟩
theorem of_seq (x : Seq) : PlatformKept r { s with seq := x } := h.trans ⟨rfl, rfl, ⟨_, rfl⟩, rfl, rfl, rfl⟩

theorem updFn {f : Nat} {g : Fn → Fn} : PlatformKept r (s.updFn f g) := h.of_host _
theorem setLease {l : Nat} {x : Lease} : PlatformKept r (s.setLease l x) := h.of_own _
theorem updLease {l : Nat} {g : Lease → Lease} : PlatformKept r (s.updLease l g) := h.of_own _
theorem updRegion {k : Nat} {g : Region → Region} : PlatformKept r (s.updRegion k g) := h.of_own _
theorem setTile {k : Nat} {x : Tile} : PlatformKept r (s.setTile k x) := h.of_fab _
theorem setMTile {k : Nat} {x : MTile} : PlatformKept r (s.setMTile k x) := h.of_fab _
theorem sendAll {ps : List Packet} : PlatformKept r (s.sendAll ps) := h.of_fab _
theorem setProg {k : Nat} {x : Option Prog} : PlatformKept r (s.setProg k x) := h.of_seq _
theorem setSec {k : Nat} {x : Option Section} : PlatformKept r (s.setSec k x) := h.of_seq _
theorem setChan {c : Nat} {x : Chan} : PlatformKept r (s.setChan c x) := h.of_seq _

/-! ### Records and replies -/

theorem event {e : Ev} {fns : List Nat} {log : Bool} : PlatformKept r (s.event e fns log) :=
  h.trans (.of_records (RecordsOnly.refl s).event)
theorem eventLease {e : Ev} {l : Nat} : PlatformKept r (s.eventLease e l) := by
  unfold State.eventLease
  exact h.event
theorem eventStewardLog {e : Ev} : PlatformKept r (s.eventStewardLog e) := by
  unfold State.eventStewardLog
  exact h.event
theorem leaseStateEvent {l st cause former new : Nat} {fns : List Nat} : PlatformKept r (s.leaseStateEvent l st cause former new fns) := by
  unfold State.leaseStateEvent
  exact h.event
theorem produce {f : Nat} {e : Entry} : PlatformKept r (s.produce f e) := h.trans (.of_tells (tellsOnly_produce ..))
theorem finishCmd {fn : Nat} {seq : Word} {st : Status} {fl : Nat} {res : List Byte} : PlatformKept r (finishCmd s fn seq st fl res) :=
  h.trans (.of_tells (tellsOnly_finishCmd ..))
theorem tileFault {sec lease unit : Nat} {fields : List Nat} : PlatformKept r (s.tileFault sec lease unit fields) := h.eventLease
end

theorem foldl {β : Type} {f : State → β → State} {l : List β} (h : PlatformKept r s)
    (hf : ∀ {u} b, PlatformKept r u → PlatformKept r (f u b)) : PlatformKept r (l.foldl f s) := by
  induction l generalizing s with
  | nil => exact h
  | cons b l ih => exact ih (hf b h)

theorem ite {c : Prop} [Decidable c] {t : State} (h1 : PlatformKept r s) (h2 : PlatformKept r t) : PlatformKept r (if c then s else t) := by
  split
  · exact h1
  · exact h2

/-! ### Latches, tiles and billets (07 R177, R178, 09 R226, R229) -/

section
variable (h : PlatformKept r s)
include h

theorem grantLatch {k j : Nat} : PlatformKept r (grantLatch k j s) := .ite h.setMTile.sendAll h
theorem abandonLatch {k j lease : Nat} : PlatformKept r (abandonLatch s k j lease) := .ite h.setMTile.eventLease h
theorem abandonLatches {rs : List Nat} {lease : Nat} : PlatformKept r (abandonLatches s rs lease) :=
  h.foldl fun _ h => h.foldl fun _ h => .ite (.ite h.abandonLatch h.abandonLatch.grantLatch) h
theorem endTile {lease k : Nat} : PlatformKept r (endTile lease s k) := .ite h.setTile h.setTile.tileFault
theorem endMTile {lease i k : Nat} : PlatformKept r (endMTile lease i s k) := h.setMTile.foldl fun _ h => .ite h h.tileFault
theorem dropSection {i : Nat} : PlatformKept r (dropSection s i) := h.trans ⟨rfl, rfl, ⟨_, rfl⟩, rfl, rfl, rfl⟩
theorem sramClearWhole {k a n : Nat} : PlatformKept r (s.sramClearWhole k a n) := .ite (h.of_fab _) h

theorem loseBillet {k b : Nat} : PlatformKept r (loseBillet k b s) :=
  .ite ((h.of_fab _).sramClearWhole) (((h.of_fab _).sramClearWhole).of_fab _)

theorem emptyShadow {i k : Nat} : PlatformKept r (emptyShadow s i k) := h.setMTile.foldl fun _ h => h.loseBillet

/-! ### Sections and programs that end (12 R318, R321) -/

theorem cancelSection {i : Nat} : PlatformKept r (cancelSection s i) := by
  unfold Machine.cancelSection Machine.cancelCore
  split
  · exact h
  · extract_lets rs s1 s2 s3 s4
    have h3 : PlatformKept r s3 :=
      ((h.dropSection.foldl fun _ h => h.emptyShadow).foldl fun _ h => h.updRegion).foldl fun _ h => h.updRegion
    have h4 : PlatformKept r s4 := by
      unfold s4
      split
      · exact .ite h3.setProg h3
      · exact h3
    exact (h4.of_seq _).setSec

theorem cancelPending {k : Nat} : PlatformKept r (cancelPending s k) := h.foldl fun _ h => h.cancelSection
theorem endRecord {k : Nat} {p : Prog} : PlatformKept r (endRecord s k p) := .ite h h.produce
theorem releaseProg {k : Nat} : PlatformKept r (releaseProg s k) := h.setProg.of_seq _

theorem stopProg {k ord idx : Nat} {st : Status} : PlatformKept r (stopProg s k ord idx st) := by
  unfold Machine.stopProg
  split
  · exact h
  · exact h.setProg.cancelPending

/-! ### Leases that close (17 R559) -/

theorem abandonHLatches {l : Nat} : PlatformKept r (abandonHLatches s l) := h.foldl fun _ h => .ite h h.updLease.eventLease
theorem loseWrites {l lo : Nat} : PlatformKept r (loseWrites l lo s) := h.foldl fun _ h => .ite (h.of_host _) h
theorem startClosing {l cause : Nat} {reach : List Nat} : PlatformKept r (startClosing s l cause reach) :=
  ((h.setLease.of_host _).leaseStateEvent.of_host _).loseWrites.abandonHLatches
theorem closeGoesOn {l : Nat} : PlatformKept r (closeGoesOn l s) := .ite h.startClosing h

theorem settleProg {k : Nat} : PlatformKept r (settleProg s k) := by
  unfold Machine.settleProg
  split
  · exact h
  · extract_lets s1
    have h1 : PlatformKept r s1 := h.foldl fun _ h => h.finishCmd
    exact .ite h (.ite h1.endRecord.releaseProg.closeGoesOn (.ite h1.releaseProg.closeGoesOn h1))

theorem endSection {i : Nat} {st : Status} : PlatformKept r (endSection s i st) := by
  unfold Machine.endSection
  split
  · exact h
  · extract_lets rs ok s1 s2 s3 s4 s5 s' s6
    have h4 : PlatformKept r s4 :=
      ((h.abandonLatches.foldl fun _ h => .ite h.endTile h).foldl fun _ h => h.endMTile).dropSection.setSec.updLease
    have h5 : PlatformKept r s5 := by
      unfold s5
      split
      · exact h4
      · exact h4.setProg
    have h6 : PlatformKept r s6 := .ite h5 (h5.foldl fun _ h => h.cancelSection).stopProg
    exact (h6.foldl fun _ h => h.updRegion).settleProg

theorem quenchSections : PlatformKept r (quenchSections s) := by
  unfold Machine.quenchSections
  extract_lets s1 s2 s3
  have h1 : PlatformKept r s1 := h.foldl fun _ h => h.endSection
  have h2 : PlatformKept r s2 := h1.foldl fun _ h => h.stopProg.settleProg
  have h3 : PlatformKept r s3 := h2.foldl fun _ h => h.cancelSection
  exact h3.foldl fun _ h => h.updRegion
end

end PlatformKept

end Sys2Proof.Machine
end

