-- ==== Sys2Proof/Proofs/PowerDecisions.lean ====
section
/-! Temper's decisions, the clocks, Quench and telemetry (O54). -/
namespace Sys2Proof.Machine

variable {s t u : State} {d : Nat}

/-! ### Every die's clocks -/

/-- The clocks of the first `n` dies changed, each by its own. -/
def mapClocks (g : Nat → DieClk → DieClk) (n : Nat) (s : State) : State :=
  (upTo n).foldl (fun s d => s.setClk d (g d (s.clkOf d))) s

theorem mapClocks_succ (g : Nat → DieClk → DieClk) (n : Nat) :
    mapClocks g (n + 1) s = (mapClocks g n s).setClk n (g n ((mapClocks g n s).clkOf n)) := by
  rw [mapClocks, show upTo (n + 1) = upTo n ++ [n] from List.range_succ, List.foldl_append]
  rfl

theorem mapClocks_frame (g : Nat → DieClk → DieClk) (n : Nat) :
    ∃ c, mapClocks g n s = { s with power := { s.power with dies := c } } := by
  induction n with
  | zero => exact ⟨s.power.dies, rfl⟩
  | succ n ih =>
    obtain ⟨c, hc⟩ := ih
    rw [mapClocks_succ, hc]
    exact ⟨_, rfl⟩

theorem clkOf_mapClocks (g : Nat → DieClk → DieClk) (n d : Nat) :
    (mapClocks g n s).clkOf d = if d < n then g d (s.clkOf d) else s.clkOf d := by
  induction n with
  | zero => rfl
  | succ n ih =>
    rw [mapClocks_succ]
    by_cases hd : d = n
    · subst hd
      rw [State.clkOf_setClk, ih, if_neg (lt_irrefl d), if_pos (Nat.lt_succ_self d)]
    · rw [State.clkOf_setClk_ne _ _ hd, ih]
      have hiff : d < n + 1 ↔ d < n := by omega
      simp only [hiff]

/-- A die's clocks stopped. -/
def clockStopped (c : DieClk) : DieClk := { c with stopped := true, fclk := 0, tclk := 0 }

theorem stopClocks_eq : stopClocks s = mapClocks (fun _ => clockStopped) s.nDies s := rfl

theorem stopClocks_frame : ∃ c, stopClocks s = { s with power := { s.power with dies := c } } := by
  rw [stopClocks_eq]
  exact mapClocks_frame _ _

theorem clkOf_stopClocks (d : Nat) : (stopClocks s).clkOf d = if d < s.nDies then clockStopped (s.clkOf d) else s.clkOf d := by
  rw [stopClocks_eq, clkOf_mapClocks]

/-! ### The next targets (20 R482, R484) -/

theorem leastOf_le_default (l : List Nat) (m : Nat) : leastOf l m ≤ m := by
  unfold leastOf
  induction l generalizing m with
  | nil => exact le_rfl
  | cons a l ih => exact (ih _).trans (min_le_left m a)

theorem leastOf_le_mem {l : List Nat} {a : Nat} (h : a ∈ l) (m : Nat) : leastOf l m ≤ a := by
  unfold leastOf
  induction l generalizing m with
  | nil => exact absurd h List.not_mem_nil
  | cons b l ih =>
    obtain rfl | h := List.mem_cons.mp h
    · exact (leastOf_le_default l _).trans (min_le_right m a)
    · exact ih h _

section
variable (now : Nat) (c : DieClk) (x : DieSense) (lim : List (Nat × Nat × Nat))

theorem floorOf_le_cap (g : DWord) : floorOf g ≤ fclkCap g := min_le_right _ _

theorem nextF_le_cap : nextF now c x lim ≤ fclkCap c.freq.live := by
  have hfloor := floorOf_le_cap c.freq.live
  unfold nextF
  extract_lets cap fl want
  have hwant : want ≤ cap := by
    unfold want
    split <;> omega
  split
  · exact (leastOf_le_default _ _).trans (min_le_left _ _)
  · split
    · exact hwant
    · split
      · exact hwant
      · exact min_le_left _ _

theorem nextT_le_cap : nextT now c x lim ≤ tclkCap c.freq.live := by
  unfold nextT
  extract_lets cap want
  have hwant : want ≤ cap := min_le_left _ _
  split
  · exact (leastOf_le_default _ _).trans (min_le_left _ _)
  · split
    · exact hwant
    · split
      · exact hwant
      · exact min_le_left _ _

/-- A limit that acts bounds the target. -/
theorem nextF_le_limit {l : Nat × Nat × Nat} (h : l ∈ lim) : nextF now c x lim ≤ l.2.1 := by
  unfold nextF
  extract_lets cap fl want
  rw [if_pos (by simpa using List.ne_nil_of_mem h)]
  exact leastOf_le_mem (List.mem_map_of_mem h) _

/-- With no limit acting, a target at or above the floor goes where the floor and the budget permit, once the dwell is past. -/
theorem nextF_free (hfl : floorOf c.freq.live ≤ c.fTarget)
    (h : 1250 ≤ now - c.fChanged ∨ max (floorOf c.freq.live) (min (fclkCap c.freq.live) x.budgetF) ≤ c.fTarget) :
    nextF now c x [] = max (floorOf c.freq.live) (min (fclkCap c.freq.live) x.budgetF) := by
  unfold nextF
  extract_lets cap fl want
  have hwant : want = max fl (min cap x.budgetF) := if_neg (Nat.not_lt.mpr hfl)
  rw [if_neg (by simp)]
  by_cases hle : want ≤ c.fTarget
  · rw [if_pos hle, hwant]
  · have hdwell : dwellTicks ≤ now - c.fChanged := h.resolve_right (hwant ▸ hle)
    rw [if_neg hle, if_pos hdwell, hwant]
end

/-- Each limit that acts is among the limits. -/
theorem droop_mem_limits {c : DieClk} (h : c.droopOwed = true) (x : DieSense) (low : Bool) :
    (1, max 32 (c.fTarget - 2), c.tTarget) ∈ limitsOf c x low := by simp [limitsOf, h]
theorem current_mem_limits (c : DieClk) {x : DieSense} (h : x.overCurrent = true) (low : Bool) :
    (2, max 32 (c.fTarget - 4), c.tTarget) ∈ limitsOf c x low := by simp [limitsOf, h]
theorem thermal_mem_limits (c : DieClk) {x : DieSense} (h : 1600 ≤ x.tj) (low : Bool) :
    (3, max 32 (c.fTarget - 4), max 16 (c.tTarget - 4)) ∈ limitsOf c x low := by simp [limitsOf, h]

/-! ### One die's decision (20 R482) -/

theorem episodeStep_targets (now : Nat) (c : DieClk) (lim : List (Nat × Nat × Nat)) :
    (episodeStep now c lim).fTarget = c.fTarget ∧ (episodeStep now c lim).tTarget = c.tTarget ∧
      (episodeStep now c lim).droopOwed = c.droopOwed := by
  unfold episodeStep
  extract_lets below c1
  split
  · split
    · split <;> exact ⟨rfl, rfl, rfl⟩
    · exact ⟨rfl, rfl, rfl⟩
  · split <;> exact ⟨rfl, rfl, rfl⟩

/-- What a decision of another die leaves of die `d` and of what its own decision reads. -/
structure DieKept (d : Nat) (s t : State) : Prop where
  clk : t.clkOf d = s.clkOf d
  lowFlow : t.power.lowFlow = s.power.lowFlow
  group : t.power.power = s.power.power
  dev : t.dev = s.dev
  own : t.own = s.own
  sclk : t.sclk = s.sclk

theorem DieKept.refl (d : Nat) (s : State) : DieKept d s s := ⟨rfl, rfl, rfl, rfl, rfl, rfl⟩

theorem DieKept.trans (h1 : DieKept d s t) (h2 : DieKept d t u) : DieKept d s u :=
  ⟨h2.clk.trans h1.clk, h2.lowFlow.trans h1.lowFlow, h2.group.trans h1.group, h2.dev.trans h1.dev, h2.own.trans h1.own,
    h2.sclk.trans h1.sclk⟩

theorem DieKept.of_records (h : RecordsOnly s t) : DieKept d s t := by
  obtain ⟨⟨_, _, _, rfl⟩, -⟩ := h
  exact ⟨rfl, rfl, rfl, rfl, rfl, rfl⟩

theorem DieKept.of_tells (h : tellsOnly s t) : DieKept d s t := by
  obtain ⟨_, _, rfl⟩ := h
  exact ⟨rfl, rfl, rfl, rfl, rfl, rfl⟩

theorem DieKept.setClk_ne {e : Nat} (h : DieKept d s t) (he : d ≠ e) (c : DieClk) : DieKept d s (t.setClk e c) :=
  h.trans ⟨State.clkOf_setClk_ne _ _ he, rfl, rfl, rfl, rfl, rfl⟩

theorem DieKept.foldl {β : Type} {f : State → β → State} {l : List β} (h : DieKept d s t)
    (hf : ∀ {u}, ∀ b ∈ l, DieKept d s u → DieKept d s (f u b)) : DieKept d s (l.foldl f t) := by
  induction l generalizing t with
  | nil => exact h
  | cons b l ih => exact ih (hf b List.mem_cons_self h) fun b hb => hf b (List.mem_cons_of_mem _ hb)

theorem DieKept.overrideEvent (h : DieKept d s t) (e : Nat) (c : DieClk) (ticks : Nat) (last : Bool) :
    DieKept d s (overrideEvent e c ticks last t) := by
  unfold Machine.overrideEvent State.eventStewardLog
  exact h.trans (.of_records (RecordsOnly.refl t).event)

theorem DieKept.safePoint_freq {e : Nat} (h : DieKept d s t) (he : d ≠ e) : DieKept d s (safePoint (.freq e) t) := by
  unfold safePoint
  split
  next hp =>
    have htransfer : DieKept d s (transferGroup (.freq e) t) := by
      rw [transferGroup, if_pos hp]
      exact h.setClk_ne he _
    exact htransfer.foldl fun x _ h => h.trans (.of_tells (tellsOnly_finishCmd ..))
  · exact h

theorem DieKept.decideDie {e : Nat} (h : DieKept d s t) (he : d ≠ e) (x : DieSense) : DieKept d s (decideDie t e x) := by
  unfold Machine.decideDie
  extract_lets s1 c0 c lim f tt c1 c2 secs c3 s2
  have h1 : DieKept d s s1 := h.safePoint_freq he
  have h2 : DieKept d s s2 := h1.setClk_ne he _
  split
  · exact h1.setClk_ne he _
  · split
    · exact h2.overrideEvent _ _ _ _
    · split
      · exact h2.overrideEvent _ _ _ _
      · exact h2

/-- The targets that a decision sets. -/
structure Decided (s t : State) (d : Nat) (x : DieSense) : Prop where
  fclk : (t.clkOf d).fTarget = nextF s.sclk (s.clkOf d) x (limitsOf (s.clkOf d) x s.power.lowFlow)
  tclk : (t.clkOf d).tTarget = nextT s.sclk (s.clkOf d) x (limitsOf (s.clkOf d) x s.power.lowFlow)
  droop : (t.clkOf d).droopOwed = false

theorem decideDie_decides (hrun : (s.clkOf d).stopped = false) (hp : (s.clkOf d).freq.pending = false) (x : DieSense) :
    Decided s (decideDie s d x) d x := by
  have hsafe : safePoint (.freq d) s = s := safePoint_idle hp
  unfold decideDie
  rw [hsafe]
  extract_lets s1 c0 c lim f tt c1 c2 secs c3 s2
  obtain ⟨hf, ht, hd⟩ := episodeStep_targets s.sclk c1 lim
  have h2 : Decided s s2 d x := by
    have hclk : s2.clkOf d = c3 := State.clkOf_setClk _ _ _
    exact ⟨by rw [hclk]; exact hf, by rw [hclk]; exact ht, by rw [hclk]; exact hd⟩
  have hover (e : Nat) (y : DieClk) (n : Nat) (b : Bool) : Decided s (overrideEvent e y n b s2) d x := by
    have hclk : (overrideEvent e y n b s2).clkOf d = s2.clkOf d := ((DieKept.refl d s2).overrideEvent e y n b).clk
    exact ⟨by rw [hclk]; exact h2.fclk, by rw [hclk]; exact h2.tclk, by rw [hclk]; exact h2.droop⟩
  rw [if_neg (ne_true_of_eq_false hrun)]
  split
  · exact hover _ _ _ _
  · split
    · exact hover _ _ _ _
    · exact h2

/-! ### The decision tick (20 R482, R491) -/

/-- The decision of the die that a sensor reading is of. -/
def decideOne (s : State) (x : DieSense × Nat) : State :=
  if x.2 < s.nDies then decideDie s x.2 (withPool s x.2 x.1) else s

theorem exec_temperDecisionTick (sn : Sensors) (h : sn.dies ≠ []) : exec (.temperDecisionTick sn) s =
    .next (thermalTrigger sn (sn.dies.zipIdx.foldl decideOne (safePoint .power s))) :=
  congrArg Host.Outcome.next (if_neg (by simpa using h))

theorem DieKept.decideOne {x : DieSense × Nat} (h : DieKept d s t) (hx : d ≠ x.2) : DieKept d s (decideOne t x) := by
  unfold Machine.decideOne
  split
  · exact h.decideDie hx _
  · exact h

/-- The readings before and after that of die `d` are of other dies. -/
theorem zipIdx_split {xs : List DieSense} {x : DieSense} (h : xs[d]? = some x) :
    ∃ pre post, xs.zipIdx = pre ++ (x, d) :: post ∧ (∀ y ∈ pre, d ≠ y.2) ∧ ∀ y ∈ post, d ≠ y.2 := by
  obtain ⟨hlt, rfl⟩ := List.getElem?_eq_some_iff.mp h
  refine ⟨(xs.take d).zipIdx, (xs.drop (d + 1)).zipIdx (d + 1), ?_, fun y hy => ?_, fun y hy => ?_⟩
  · have hlen : (xs.take d).length = d := List.length_take_of_le hlt.le
    conv_lhs => rw [← List.take_append_drop d xs, List.drop_eq_getElem_cons hlt, List.zipIdx_append, List.zipIdx_cons, hlen, Nat.zero_add]
  · have hlt' := List.snd_lt_of_mem_zipIdx hy
    rw [List.length_take] at hlt'
    omega
  · have hle := List.le_snd_of_mem_zipIdx hy
    omega

theorem DieKept.withPool (h : DieKept d s t) (e : Nat) (x : DieSense) : withPool t e x = withPool s e x := by
  have hpool : poolOnF t e = poolOnF s e := by
    simp only [poolOnF, lendForbidden, State.regionOf, h.own, h.group]
  rw [Machine.withPool, hpool, Machine.withPool]

theorem Decided.of_kept (h : Decided s t d x) {s' t' : State} (hs : DieKept d s' s) (ht : DieKept d t t') : Decided s' t' d x :=
  ⟨by rw [ht.clk, h.fclk, hs.sclk, hs.clk, hs.lowFlow], by rw [ht.clk, h.tclk, hs.sclk, hs.clk, hs.lowFlow], by rw [ht.clk, h.droop]⟩

/-- The decisions of a tick are each die's own. -/
theorem foldl_decides {xs : List DieSense} {x : DieSense} (h : xs[d]? = some x) (hd : d < s.nDies)
    (hrun : (s.clkOf d).stopped = false) (hp : (s.clkOf d).freq.pending = false) :
    Decided s (xs.zipIdx.foldl decideOne s) d (withPool s d x) := by
  obtain ⟨pre, post, hsplit, hpre, hpost⟩ := zipIdx_split h
  have hbefore : DieKept d s (pre.foldl decideOne s) := (DieKept.refl d s).foldl fun y hy h => h.decideOne (hpre y hy)
  have hnow : decideOne (pre.foldl decideOne s) (x, d) = decideDie (pre.foldl decideOne s) d (withPool s d x) := by
    have hdies : d < (pre.foldl decideOne s).nDies := by rwa [State.nDies, hbefore.dev]
    rw [decideOne, if_pos hdies, hbefore.withPool]
  rw [hsplit, List.foldl_append, List.foldl_cons, hnow]
  have hdecided := decideDie_decides (s := pre.foldl decideOne s) (d := d) (by rw [hbefore.clk]; exact hrun)
    (by rw [hbefore.clk]; exact hp) (withPool s d x)
  exact hdecided.of_kept hbefore ((DieKept.refl d _).foldl fun y hy h => h.decideOne (hpost y hy))

/-- The safe point of TMP_POWER leaves the clocks. -/
theorem safePoint_power_kept : (safePoint .power s).power.dies = s.power.dies ∧ (safePoint .power s).power.lowFlow = s.power.lowFlow ∧
    (safePoint .power s).dev = s.dev ∧ (safePoint .power s).sclk = s.sclk := by
  unfold safePoint
  split
  next hp =>
    have htold : tellsOnly (transferGroup .power s) (((transferGroup .power s).host.flights.filter (fun x =>
        x.wait == .commit .power)).foldl (fun s x => finishCmd s x.fn x.msg.seq .ok 0 []) (transferGroup .power s)) := by
      generalize (transferGroup .power s).host.flights.filter _ = l
      generalize transferGroup .power s = u
      induction l generalizing u with
      | nil => exact tellsOnly_refl u
      | cons x l ih => exact tellsOnly_trans (tellsOnly_finishCmd ..) (ih _)
    obtain ⟨h, o, htold⟩ := htold
    dsimp only
    rw [htold, transferGroup_power hp]
    exact ⟨rfl, rfl, rfl, rfl⟩
  · exact ⟨rfl, rfl, rfl, rfl⟩

/-! ### Triggers and Quench (20 R494 to R496) -/

/-- The targets of die `d` are as they were, and so is what a droop owes. -/
structure TargetsKept (d : Nat) (s t : State) : Prop where
  fclk : (t.clkOf d).fTarget = (s.clkOf d).fTarget
  tclk : (t.clkOf d).tTarget = (s.clkOf d).tTarget
  droop : (t.clkOf d).droopOwed = (s.clkOf d).droopOwed

theorem TargetsKept.of_clk (h : t.clkOf d = s.clkOf d) : TargetsKept d s t := by
  constructor <;> rw [h]

theorem stopClocks_targets : TargetsKept d s (stopClocks s) := by
  constructor <;>
  · rw [clkOf_stopClocks]
    split <;> rfl

theorem quenchSections_clk : (quenchSections s).clkOf d = s.clkOf d := by
  rw [State.clkOf, (PlatformKept.refl s).quenchSections.power, State.clkOf]

theorem TargetsKept.trans (h1 : TargetsKept d s t) (h2 : TargetsKept d t u) : TargetsKept d s u :=
  ⟨h2.fclk.trans h1.fclk, h2.tclk.trans h1.tclk, h2.droop.trans h1.droop⟩

theorem TargetsKept.of_dies (h : t.power.dies = s.power.dies) : TargetsKept d s t := .of_clk (by rw [State.clkOf, h, State.clkOf])

theorem enterQuench_targets (code : Nat) : TargetsKept d s (enterQuench code s) :=
  ((TargetsKept.of_clk quenchSections_clk).trans stopClocks_targets).trans (.of_dies (by dsimp only [enterQuench]))

theorem abortStartup_targets : TargetsKept d s (abortStartup s) :=
  stopClocks_targets.trans (.of_dies (by dsimp only [abortStartup]))

/-- A trigger's bit, set where the trigger persists: all but QUENCH_ENTER's. -/
def triggerSet (code : Nat) (s : State) : State :=
  if code = 6 then s else { s with power := { s.power with triggers := s.power.triggers ||| (1#6 <<< (code - 1)) } }

theorem triggerSet_targets (code : Nat) : TargetsKept d s (triggerSet code s) := by
  unfold triggerSet
  split <;> exact .of_dies (by dsimp only)

/-- A trigger that does not enter Quench: start-up stops, and 21 R502's wait begins anew. -/
def triggerEarly (s : State) : State :=
  { s with boot := { s.boot with clearSince := none },
           mod := { s.mod with quenchDrive := s.mod.quenchDrive || (s.boot.state == 1 && ownTrigger s) } }

theorem raiseTrigger_eq (code : Nat) : raiseTrigger code s =
    if s.boot.state = 5 then triggerSet code s else if pastStep12 s then enterQuench code (triggerSet code s)
    else if code = 6 then triggerSet code s
    else triggerEarly (if s.boot.state = 2 then abortStartup (triggerSet code s) else triggerSet code s) := rfl

theorem raiseTrigger_targets (code : Nat) : TargetsKept d s (raiseTrigger code s) := by
  have hset : TargetsKept d s (triggerSet code s) := triggerSet_targets code
  rw [raiseTrigger_eq]
  split
  · exact hset
  · split
    · exact hset.trans (enterQuench_targets code)
    · split
      · exact hset
      · refine TargetsKept.trans (t := if s.boot.state = 2 then abortStartup (triggerSet code s) else triggerSet code s) ?_
          (.of_dies (by dsimp only [triggerEarly]))
        split
        · exact hset.trans abortStartup_targets
        · exact hset

theorem clearTrigger_targets (code : Nat) : TargetsKept d s (clearTrigger code s) := by
  unfold clearTrigger
  split
  · exact .of_dies rfl
  · split <;> exact .of_dies (by dsimp only)

theorem thermalTrigger_targets (sn : Sensors) : TargetsKept d s (thermalTrigger sn s) := by
  unfold thermalTrigger
  split
  · exact raiseTrigger_targets 1
  · split
    · exact clearTrigger_targets 1
    · exact .of_dies rfl

/-- What a decision tick leaves of a die whose clocks run. -/
theorem exec_temperDecisionTick_decides {sn : Sensors} {x : DieSense} (hx : sn.dies[d]? = some x) (hd : d < s.nDies)
    (hrun : (s.clkOf d).stopped = false) (hlow : s.power.lowFlow = false) (hp : (s.clkOf d).freq.pending = false) :
    ∃ t, exec (.temperDecisionTick sn) s = .next t ∧ (t.clkOf d).droopOwed = false ∧
      (t.clkOf d).fTarget = nextF s.sclk (s.clkOf d) (withPool (safePoint .power s) d x)
        (limitsOf (s.clkOf d) (withPool (safePoint .power s) d x) false) ∧
      (t.clkOf d).tTarget = nextT s.sclk (s.clkOf d) (withPool (safePoint .power s) d x)
        (limitsOf (s.clkOf d) (withPool (safePoint .power s) d x) false) := by
  obtain ⟨hdies, hflow, hdev, hsclk⟩ := safePoint_power_kept (s := s)
  have hclk : (safePoint .power s).clkOf d = s.clkOf d := by rw [State.clkOf, hdies, State.clkOf]
  have hne : sn.dies ≠ [] := by
    rintro h
    rw [h] at hx
    exact absurd hx (by simp)
  obtain ⟨hf, ht, hdroop⟩ := foldl_decides (s := safePoint .power s) hx (by rwa [State.nDies, hdev]) (by rwa [hclk]) (by rwa [hclk])
  rw [hclk, hsclk, hflow, hlow] at hf ht
  have hkept := thermalTrigger_targets (d := d) (s := sn.dies.zipIdx.foldl decideOne (safePoint .power s)) sn
  exact ⟨_, exec_temperDecisionTick sn hne, hkept.droop.trans hdroop, hkept.fclk.trans hf, hkept.tclk.trans ht⟩

/-! ### The clocks' steps (20 R480) -/

theorem exec_clockSlewStep (tclk : Bool) : exec (.clockSlewStep d tclk) s = .next
    (if (s.clkOf d).stopped then s
    else if tclk then s.setClk d { s.clkOf d with tclk := slewOne (s.clkOf d).tclk (s.clkOf d).tTarget }
    else s.setClk d { s.clkOf d with fclk := slewOne (s.clkOf d).fclk (s.clkOf d).fTarget }) := rfl

theorem exec_droop : exec (.droop d) s = .next
    (if (s.clkOf d).stopped then s else s.setClk d { s.clkOf d with droop := true }) := rfl

/-! ### The rows of Quench -/

section
variable {k : Nat} (h1 : 1 ≤ k) (h5 : k ≤ 5)
include h1 h5

theorem exec_quenchTrigger : exec (.quenchTrigger k) s = .next (raiseTrigger k s) := congrArg Host.Outcome.next (if_pos ⟨h1, h5⟩)
theorem exec_quenchTriggerClear : exec (.quenchTriggerClear k) s = .next (clearTrigger k s) :=
  congrArg Host.Outcome.next (if_pos ⟨h1, h5⟩)

omit h1 in
theorem triggerSet_own : triggerSet k s = { s with power := { s.power with triggers := s.power.triggers ||| (1#6 <<< (k - 1)) } } :=
  if_neg (by omega)

theorem getLsbD_triggerBit : (1#6 <<< (k - 1)).getLsbD (k - 1) = true := by
  interval_cases k <;> decide

omit h5 in
theorem drivesPin_own : drivesPin k = decide (k ≤ 4) := by simp [drivesPin, h1]
end

theorem pastStep12_not_quenched (h : pastStep12 s = true) : s.boot.state ≠ 5 := by
  intro h5
  simp [pastStep12, h5] at h

/-- The device in Quench: its clocks are stopped, its HBM is in self-refresh, and QUENCH# is driven for its own triggers. -/
theorem enterQuench_spec (code : Nat) : (enterQuench code s).boot.state = 5 ∧ (enterQuench code s).power.active = true ∧
    (enterQuench code s).power.cause = code ∧ (enterQuench code s).power.selfRefresh = true ∧
    (enterQuench code s).power.triggers = s.power.triggers ∧ (enterQuench code s).mod.quenchDrive = drivesPin code ∧
    ∀ d, d < s.nDies → ((enterQuench code s).clkOf d).stopped = true ∧ ((enterQuench code s).clkOf d).fclk = 0 ∧
      ((enterQuench code s).clkOf d).tclk = 0 := by
  have hq := (PlatformKept.refl s).quenchSections
  obtain ⟨c, hc⟩ := stopClocks_frame (s := quenchSections s)
  refine ⟨rfl, rfl, rfl, rfl, ?_, rfl, fun d hd => ?_⟩
  · dsimp only [enterQuench]
    rw [hc, hq.power]
  · have hclk : (enterQuench code s).clkOf d = clockStopped (s.clkOf d) := by
      have hstop := clkOf_stopClocks (s := quenchSections s) d
      rw [if_pos (by rwa [State.nDies, hq.dev]), quenchSections_clk] at hstop
      rw [State.clkOf]
      dsimp only [enterQuench]
      exact hstop
    rw [hclk]
    exact ⟨rfl, rfl, rfl⟩

/-! ### Telemetry (20 R499) -/

/-- What telemetry takes of a die. -/
def sampled (v : Telemetry) (d : Nat) (c : DieClk) : DieClk :=
  { c with telClock := telClockOf c, telLimit := c.limit.zeroExtend 32, temp := v.temp.getD d 0,
           power := v.diePower.getD d 0, thermWm := sampleWm c.thermWm (decide (1600 ≤ v.temp.getD d 0)) }

/-- What telemetry takes of the module, with `n` stacks. -/
def moduleSampled (v : Telemetry) (n : Nat) (s : State) : State :=
  { s with power := { s.power with
    hbmTemp := (upTo n).foldl (fun a k => a.set 0 k (v.hbmTemp.getD k 0)) s.power.hbmTemp
    modulePower := v.modulePower, energy := BitVec.ofNat 64 v.energy, regionIdle := idleBits s } }

/-- Settles O54: the decision through its bounds, the clock steps, the triggers, and telemetry. -/
theorem powerRows : Obligations.PowerRows := by
  unfold Obligations.PowerRows
  refine ⟨fun s sn d sense hx hd hrun hlow hp => ?_, fun s d => ⟨fun hrun => ⟨?_, ?_, ?_⟩, fun hstop b => ⟨?_, ?_⟩, fun hdroop => ?_⟩,
    fun s k h1 h5 => ⟨fun hq => ?_, fun hq hset => ?_, fun hclear => ?_, fun hpast => ?_⟩, fun s v => ?_⟩
  · obtain ⟨t, hexec, hdroop, hf, ht⟩ := exec_temperDecisionTick_decides hx hd hrun hlow hp
    dsimp only
    refine ⟨t, hexec, hf ▸ nextF_le_cap .., ht ▸ nextT_le_cap .., hdroop, fun hj => hf ▸ ?_, fun ho => hf ▸ ?_, fun ho => hf ▸ ?_,
      fun hnone hdwell hfl => ?_⟩
    · exact nextF_le_limit _ _ _ _ (thermal_mem_limits _ hj _)
    · exact nextF_le_limit _ _ _ _ (current_mem_limits _ ho _)
    · exact nextF_le_limit _ _ _ _ (droop_mem_limits ho _ _)
    · rw [hf, hnone]
      exact nextF_free _ _ _ hfl hdwell
  · rw [exec_clockSlewStep, if_neg (ne_true_of_eq_false hrun), if_neg Bool.false_ne_true]
    rfl
  · rw [exec_clockSlewStep, if_neg (ne_true_of_eq_false hrun), if_pos rfl]
    rfl
  · rw [exec_droop, if_neg (ne_true_of_eq_false hrun)]
  · rw [exec_clockSlewStep, if_pos hstop]
  · rw [exec_droop, if_pos hstop]
  · exact congrArg Host.Outcome.next (if_pos hdroop)
  · rw [exec_quenchTrigger h1 h5, raiseTrigger_eq, if_pos hq, triggerSet_own h5]
  · rw [exec_quenchTriggerClear h1 h5]
    exact congrArg Host.Outcome.next ((if_neg (by simp [hset])).trans (if_pos hq))
  · rw [exec_quenchTriggerClear h1 h5]
    exact congrArg Host.Outcome.next (if_pos (by simp [hclear]))
  · obtain ⟨hstate, hactive, hcause, hrefresh, htriggers, hdrive, hclk⟩ := enterQuench_spec (s := triggerSet k s) k
    rw [exec_quenchTrigger h1 h5, raiseTrigger_eq, if_neg (pastStep12_not_quenched hpast), if_pos hpast]
    refine ⟨_, rfl, hstate, hactive, hcause, hrefresh, ?_, hdrive.trans (drivesPin_own h1), ?_⟩
    · rw [htriggers, triggerSet_own h5]
      simp [BitVec.getLsbD_or, getLsbD_triggerBit h1 h5]
    · rw [triggerSet_own h5] at hclk ⊢
      exact hclk
  · have hexec : exec (.telemetryUpdate v) s = .next (moduleSampled v s.nStacks (mapClocks (sampled v) s.nDies s)) := rfl
    obtain ⟨c, hc⟩ := mapClocks_frame (s := s) (sampled v) s.nDies
    refine ⟨_, hexec, by rw [hc]; rfl, rfl, rfl, fun d hd => ?_⟩
    have hclk : (moduleSampled v s.nStacks (mapClocks (sampled v) s.nDies s)).clkOf d = sampled v d (s.clkOf d) :=
      (clkOf_mapClocks (sampled v) s.nDies d).trans (if_pos hd)
    rw [hclk]
    exact ⟨rfl, rfl, rfl, rfl⟩

end Sys2Proof.Machine
end

