-- ==== Sys2Proof/Proofs/ModuleControl.lean ====
section
/-! The module controller: supplies, leak, flow and thermistor inputs, outputs and buses, PLDM and JTAG (O56). -/
namespace Sys2Proof.Machine

variable {s t : State}

/-! ### What a trigger leaves of the module controller (20 R494) -/

/-- Trigger `k` is set; of the module controller only main power and QUENCH# change. -/
structure TriggerRaised (k : Nat) (s t : State) : Prop where
  mod : ∃ on good drive, t.mod = { s.mod with mainOn := on, mainGood := good, quenchDrive := drive }
  triggers : t.power.triggers = s.power.triggers ||| (1#6 <<< (k - 1))
  lowFlow : t.power.lowFlow = s.power.lowFlow

theorem enterQuench_module (code : Nat) : (enterQuench code s).mod = { s.mod with quenchDrive := drivesPin code } ∧
    (enterQuench code s).power.triggers = s.power.triggers ∧ (enterQuench code s).power.lowFlow = s.power.lowFlow := by
  have hq := (PlatformKept.refl s).quenchSections
  obtain ⟨c, hc⟩ := stopClocks_frame (s := quenchSections s)
  dsimp only [enterQuench]
  rw [hc, hq.power, hq.mod]
  exact ⟨rfl, rfl, rfl⟩

theorem abortStartup_module : (abortStartup s).mod = { s.mod with mainOn := false, mainGood := false } ∧
    (abortStartup s).power.triggers = s.power.triggers ∧ (abortStartup s).power.lowFlow = s.power.lowFlow := by
  obtain ⟨c, hc⟩ := stopClocks_frame (s := s)
  dsimp only [abortStartup]
  rw [hc]
  exact ⟨rfl, rfl, rfl⟩

/-- What happens after the trigger's bit is set. -/
theorem TriggerRaised.after {k : Nat} {u : State} {on good drive : Bool} (h : TriggerRaised k s t)
    (hmod : u.mod = { t.mod with mainOn := on, mainGood := good, quenchDrive := drive })
    (htriggers : u.power.triggers = t.power.triggers) (hflow : u.power.lowFlow = t.power.lowFlow) : TriggerRaised k s u := by
  obtain ⟨on', good', drive', ht⟩ := h.mod
  exact ⟨⟨on, good, drive, by rw [hmod, ht]⟩, htriggers.trans h.triggers, hflow.trans h.lowFlow⟩

theorem TriggerRaised.enterQuench {k : Nat} (h : TriggerRaised k s t) : TriggerRaised k s (enterQuench k t) := by
  obtain ⟨hmod, htriggers, hflow⟩ := enterQuench_module (s := t) k
  exact h.after hmod htriggers hflow

theorem TriggerRaised.abortStartup {k : Nat} (h : TriggerRaised k s t) : TriggerRaised k s (abortStartup t) := by
  obtain ⟨hmod, htriggers, hflow⟩ := abortStartup_module (s := t)
  exact h.after hmod htriggers hflow

theorem TriggerRaised.triggerEarly {k : Nat} (h : TriggerRaised k s t) : TriggerRaised k s (triggerEarly t) := by
  refine h.after (u := Machine.triggerEarly t) (on := t.mod.mainOn) (good := t.mod.mainGood)
    (drive := (Machine.triggerEarly t).mod.quenchDrive) ?_ ?_ ?_ <;> rfl

theorem triggerSet_raised {k : Nat} (h5 : k ≤ 5) : TriggerRaised k s (triggerSet k s) := by
  rw [triggerSet_own h5]
  exact ⟨⟨_, _, _, rfl⟩, rfl, rfl⟩

theorem raiseTrigger_raised {k : Nat} (h5 : k ≤ 5) : TriggerRaised k s (raiseTrigger k s) := by
  have hset : TriggerRaised k s (triggerSet k s) := triggerSet_raised h5
  rw [raiseTrigger_eq]
  split
  · exact hset
  · split
    · exact hset.enterQuench
    · rw [if_neg (by omega)]
      split
      · exact hset.abortStartup.triggerEarly
      · exact hset.triggerEarly

theorem TriggerRaised.getLsbD {k : Nat} (h : TriggerRaised k s t) (h1 : 1 ≤ k) (h5 : k ≤ 5) : t.power.triggers.getLsbD (k - 1) = true := by
  rw [h.triggers]
  simp [BitVec.getLsbD_or, getLsbD_triggerBit h1 h5]

theorem raiseTrigger_quenched {k : Nat} (h5 : k ≤ 5) (hq : s.boot.state = 5) : raiseTrigger k s =
    { s with power := { s.power with triggers := s.power.triggers ||| (1#6 <<< (k - 1)) } } := by
  rw [raiseTrigger_eq, if_pos hq, triggerSet_own h5]

theorem clearTrigger_clear {k : Nat} (h : s.power.triggers.getLsbD (k - 1) = false) : clearTrigger k s = s := if_pos (by rw [h]; rfl)

/-! ### Rows under standby power -/

section
variable (h : s.mod.standby = true)
include h

/-- The test for standby power that every row of the module controller makes. -/
theorem notStandby_ne : ¬ ((!s.mod.standby) = true) := by simp [h]

theorem exec_j1Valid : exec .j1Valid s = .next (s.setMod { s.mod with j1 := 1 }) := congrArg Host.Outcome.next (if_pos h)
theorem exec_j1Reversed : exec .j1Reversed s = .next (s.setMod { s.mod with j1 := 2, alert := true }) :=
  congrArg Host.Outcome.next (if_pos h)
theorem exec_smbusBusHeld : exec .smbusBusHeld s = .next (s.setMod { s.mod with smbResets := s.mod.smbResets + 1 }) :=
  congrArg Host.Outcome.next (if_pos h)

/-- The state with a leak reading `mv` taken. -/
theorem exec_leakSample (mv : Nat) : exec (.leakSample mv) s = .next
    (let s1 := s.setMod { s.mod with leak := (mv :: s.mod.leak).take 5
                                     leakClass := leakClassOf (medianOf ((mv :: s.mod.leak).take 5)) }
     if leakClassOf (medianOf ((mv :: s.mod.leak).take 5)) = 0 then clearTrigger 3 s1
     else raiseTrigger 3 (if 2 ≤ leakClassOf (medianOf ((mv :: s.mod.leak).take 5)) then reportFault s1 else s1)) :=
  congrArg Host.Outcome.next (if_neg (notStandby_ne h))

theorem exec_flowSample_enough {mv : Nat} (hlow : 1700 ≤ mv) (hhigh : mv ≤ 4750) : exec (.flowSample mv) s = .next
    (clearTrigger 4 { s with mod := { s.mod with flowMv := mv, flowFault := false, lowSince := none }
                             power := { s.power with lowFlow := false } }) := by
  have hfault : (decide (mv < 250) || decide (4750 < mv)) = false := by
    simp
    omega
  have hnotLow : decide (mv < 1700) = false := decide_eq_false (by omega)
  refine (congrArg Host.Outcome.next (if_neg (notStandby_ne h))).trans ?_
  simp only [hfault, hnotLow, Bool.or_false, Bool.false_eq_true, if_false]

/-- The state with a flow reading below the minimum taken. -/
def lowFlowTaken (mv : Nat) (s : State) : State :=
  { s with mod := { s.mod with flowMv := mv, flowFault := decide (mv < 250), lowSince := some (s.mod.lowSince.getD s.sclk)
                               alert := s.mod.alert || decide (mv < 250) }
           power := { s.power with lowFlow := true } }

theorem exec_flowSample_low {mv : Nat} (hlow : mv < 1700) : exec (.flowSample mv) s = .next
    (if 2 * second ≤ s.sclk - s.mod.lowSince.getD s.sclk then raiseTrigger 4 (lowFlowTaken mv s) else lowFlowTaken mv s) := by
  have hhigh : decide (4750 < mv) = false := decide_eq_false (by omega)
  have htaken : lowFlowTaken mv s = if decide (mv < 250) then reportFault { s with
      mod := { s.mod with flowMv := mv, flowFault := decide (mv < 250), lowSince := some (s.mod.lowSince.getD s.sclk) }
      power := { s.power with lowFlow := true } } else { s with
      mod := { s.mod with flowMv := mv, flowFault := decide (mv < 250), lowSince := some (s.mod.lowSince.getD s.sclk) }
      power := { s.power with lowFlow := true } } := by
    cases hf : decide (mv < 250) with
    | true => simp [lowFlowTaken, hf, reportFault, State.setMod]
    | false => simp [lowFlowTaken, hf]
  refine (congrArg Host.Outcome.next (if_neg (notStandby_ne h))).trans ?_
  simp only [hhigh, decide_eq_true hlow, Bool.or_false, Bool.true_or, if_true, htaken]

/-- The state with readings of the two thermistors taken, before the warning of an outlet above 65 °C. -/
def thermistorsTaken (i o : Int) (s : State) : State :=
  { s with mod := { s.mod with
      inlet := i, outlet := o, inletFault := thermFault i, outletFault := thermFault o
      warned := if thermFault o then s.mod.warned else if o < 600 then false
        else s.mod.warned || (!thermFault o && decide (650 < o) && !s.mod.warned)
      alert := s.mod.alert || (thermFault i || thermFault o) } }

theorem exec_thermistorSample (i o : Int) : exec (.thermistorSample i o) s = .next
    (if !thermFault o && decide (650 < o) && !s.mod.warned then
      (thermistorsTaken i o s).eventStewardLog
        { type := 0x0D, body := leBytes (ofSigned 16 o) 2 ++ leBytes (ofSigned 16 i) 2 }
    else thermistorsTaken i o s) := by
  refine (congrArg Host.Outcome.next (if_neg (notStandby_ne h))).trans ?_
  cases hf : (thermFault i || thermFault o) with
  | true => simp [thermistorsTaken, hf, reportFault, State.setMod]
  | false => simp [thermistorsTaken, hf, State.setMod]

/-! ### Outputs and buses -/

theorem exec_outputFault_cfgErr (b : Bool) : exec (.outputFault 17 b) s = .next (setOutFault 17 (b == s.mod.cfgErr) s) :=
  congrArg Host.Outcome.next (if_neg (notStandby_ne h))

theorem exec_outputFault_quench (hdrive : s.mod.quenchDrive = true) (b : Bool) :
    exec (.outputFault 18 b) s = .next (setOutFault 18 b s) :=
  congrArg Host.Outcome.next ((if_neg (notStandby_ne h)).trans (if_pos hdrive))

theorem exec_outputFault_miso (hstate : s.boot.state ≠ 6) (b : Bool) : exec (.outputFault 29 b) s = .next s :=
  congrArg Host.Outcome.next ((if_neg (notStandby_ne h)).trans (if_neg hstate))

theorem exec_i2cBusStuck (recovered : Bool) : exec (.i2cBusStuck recovered) s = .next
    (if recovered then s.setMod { s.mod with busFault := !recovered }
    else reportFault (s.setMod { s.mod with busFault := !recovered })) :=
  congrArg Host.Outcome.next (if_neg (notStandby_ne h))

theorem exec_mctpPacket_here (ok : Bool) : exec (.mctpPacket ok (0x60 + s.mod.modId)) s = .next
    (if ok then s.setMod { s.mod with mctpAccepted := s.mod.mctpAccepted + 1 }
    else s.setMod { s.mod with mctpDropped := s.mod.mctpDropped + 1 }) :=
  congrArg Host.Outcome.next (if_neg (by simp [h]))

omit h in
theorem exec_mctpPacket_elsewhere {a : Nat} (ha : a ≠ 0x60 + s.mod.modId) (ok : Bool) : exec (.mctpPacket ok a) s = .next s :=
  congrArg Host.Outcome.next (if_pos (by simp [ha]))

/-! ### PLDM (22 R539 to R541) -/

theorem exec_pldmGetSensorReading {id : Nat} {v : Bool × List Int} (hv : sensorValue s id = some v) :
    exec (.pldmGetSensorReading id) s = .next
      (pldm 0 (opState v.1 :: v.2) (if id = 13 then s.setMod { s.mod with alert := false } else s)).drew := by
  refine (congrArg Host.Outcome.next (if_neg (notStandby_ne h))).trans ?_
  rw [hv]

theorem exec_pldmGetSensorReading_unknown {id : Nat} (hid : sensorValue s id = none) :
    exec (.pldmGetSensorReading id) s = .next (pldm 0x80 [] s) := by
  refine (congrArg Host.Outcome.next (if_neg (notStandby_ne h))).trans ?_
  rw [hid]

theorem exec_moduleResetRequest : exec .moduleResetRequest s = .next
    (if s.boot.state = 5 then pldm 0x04 [] s else pldm 0 [] { s with boot := { s.boot with resetPending := 3 } }) :=
  congrArg Host.Outcome.next (if_neg (notStandby_ne h))

theorem exec_quenchTest (b : Bool) : exec (.quenchTest b) s = .next
    (pldm 0 [] (setOutFault 18 (!b) (s.setMod { s.mod with quenchTest := some s.sclk }))) :=
  congrArg Host.Outcome.next (if_neg (notStandby_ne h))

section
variable (hs : s.boot.state ≠ 0) {img : List Byte}
include hs

/-- The test that the firmware rows make: standby power, and the boot ROM done. -/
theorem notUpdating_ne : ¬ ((!s.mod.standby || s.boot.state == 0) = true) := by simp [h, hs]

theorem exec_pldmFirmwareUpdate_request (hidle : s.boot.updating = none) (hlen : img.length ≤ 16777216)
    (hok : imgCheck s fwMagic img = .ok) : exec (.pldmFirmwareUpdate (.request img)) s = .next (pldm 0 [] (beginUpdate img s)) :=
  congrArg Host.Outcome.next ((if_neg (notUpdating_ne h hs)).trans ((if_neg (by simp [hidle])).trans
    (if_neg (by simp [hlen, hok]))))

theorem exec_pldmFirmwareUpdate_busy {x : List Byte} (hbusy : s.boot.updating = some x) :
    exec (.pldmFirmwareUpdate (.request img)) s = .next (pldm (Config.freeNat s.free) [] s.drew) :=
  congrArg Host.Outcome.next ((if_neg (notUpdating_ne h hs)).trans (if_pos (by simp [hbusy])))

theorem exec_pldmFirmwareUpdate_program (himg : s.boot.updating = some img) :
    exec (.pldmFirmwareUpdate (.program true)) s = .next (pldm 0 [] (endUpdate img true s)) := by
  refine (congrArg Host.Outcome.next (if_neg (notUpdating_ne h hs))).trans ?_
  rw [himg]
  exact congrArg Host.Outcome.next (if_pos rfl)

theorem exec_activateFirmware : exec .activateFirmware s = .next
    (if (s.boot.slots.get {} (inactiveSlot s)).state = 2 then pldm 0 [] (selectSlot (inactiveSlot s) s)
    else pldm (Config.freeNat s.free) [] s.drew) :=
  congrArg Host.Outcome.next (if_neg (notUpdating_ne h hs))
end
end

/-- The sensors are numbered 1 to 14. -/
theorem sensorValue_unknown {id : Nat} (hid : id = 0 ∨ 14 < id) : sensorValue s id = none := by
  unfold sensorValue
  iterate 12 rw [if_neg (by omega)]

/-- A verified image stands in the slot that the device did not boot. -/
theorem endUpdate_slot {img : List Byte} (hok : imgCheck s fwMagic img = .ok) :
    (endUpdate img true s).boot.slots.get {} (inactiveSlot s) =
      { state := 2, version := imgVersion img, svn := imgSvn img, image := imgBody img } := by
  refine (Table.get_set_self _ _ _ _).trans (if_pos ?_)
  rw [hok]
  rfl

/-! ### A leak, a low flow, a warm outlet -/

theorem leakClassOf_dry {m : Nat} (h1 : 1200 ≤ m) (h2 : m ≤ 2100) : leakClassOf m = 0 := by
  rw [leakClassOf, if_neg (by omega), if_neg (by omega), if_pos h2]
theorem leakClassOf_wet {m : Nat} (h1 : 300 ≤ m) (h2 : m < 1200) : leakClassOf m = 1 := by
  rw [leakClassOf, if_neg (by omega), if_pos h2]
theorem leakClassOf_fault {m : Nat} (h : m < 300 ∨ 2100 < m) : leakClassOf m = if m < 300 then 2 else 3 := by
  unfold leakClassOf
  split
  · rfl
  · rw [if_neg (by omega), if_neg (by omega)]

theorem thermFault_within {t : Int} (h1 : -200 ≤ t) (h2 : t ≤ 1100) : thermFault t = false := by
  simp [thermFault, h1, h2]

/-- The event log's next number, after an event that goes to it. -/
theorem logNext_eventStewardLog (e : Ev) : (s.eventStewardLog e).ras.logNext = s.ras.logNext + 1 := by
  unfold State.eventStewardLog
  rw [ras_event, if_pos rfl]
  dsimp only [State.logEvent]

theorem mod_eventStewardLog (e : Ev) : (s.eventStewardLog e).mod = s.mod := by
  unfold State.eventStewardLog
  exact (PlatformKept.of_records (RecordsOnly.refl s).event).mod

/-- A second pair of the same readings, once the outlet has been warned of. -/
theorem thermistorsTaken_again {i o : Int} (ho : thermFault o = false) (hwarm : 650 < o)
    (ht : t.mod = (thermistorsTaken i o s).mod) (hw : s.mod.warned = false) :
    thermistorsTaken i o t = { t with mod := { t.mod with alert := t.mod.alert || thermFault i } } := by
  have hcold : ¬ o < 600 := by omega
  simp [thermistorsTaken, ht, ho, hwarm, hcold, hw]

theorem exec_leakSample_fault (h : s.mod.standby = true) {mv : Nat}
    (hm : medianOf ((mv :: s.mod.leak).take 5) < 300 ∨ 2100 < medianOf ((mv :: s.mod.leak).take 5)) :
    ∃ t, exec (.leakSample mv) s = .next t ∧
      t.mod.leakClass = (if medianOf ((mv :: s.mod.leak).take 5) < 300 then 2 else 3) ∧ t.mod.alert = true ∧
      t.power.triggers.getLsbD 2 = true := by
  have hclass := leakClassOf_fault hm
  have htwo : 2 ≤ leakClassOf (medianOf ((mv :: s.mod.leak).take 5)) := by
    rw [hclass]
    split <;> omega
  rw [exec_leakSample h]
  dsimp only
  rw [if_neg (by omega), if_pos htwo, ← hclass]
  generalize hs1 : reportFault _ = s1
  have hraised : TriggerRaised 3 s1 (raiseTrigger 3 s1) := raiseTrigger_raised (by omega)
  obtain ⟨_, _, _, hmod⟩ := hraised.mod
  refine ⟨_, rfl, ?_, ?_, hraised.getLsbD (by omega) (by omega)⟩
  · rw [hmod, ← hs1]
    rfl
  · rw [hmod, ← hs1]
    rfl

theorem exec_flowSample_low_spec (h : s.mod.standby = true) {mv : Nat} (hlow : mv < 1700) :
    ∃ t, exec (.flowSample mv) s = .next t ∧ t.power.lowFlow = true ∧ t.mod.flowFault = decide (mv < 250) ∧
      t.mod.lowSince = some (s.mod.lowSince.getD s.sclk) ∧
      (50000000 ≤ s.sclk - s.mod.lowSince.getD s.sclk → t.power.triggers.getLsbD 3 = true) := by
  rw [exec_flowSample_low h hlow]
  by_cases hlong : 2 * second ≤ s.sclk - s.mod.lowSince.getD s.sclk
  · have hraised : TriggerRaised 4 (lowFlowTaken mv s) (raiseTrigger 4 (lowFlowTaken mv s)) := raiseTrigger_raised (by omega)
    obtain ⟨_, _, _, hmod⟩ := hraised.mod
    rw [if_pos hlong]
    exact ⟨_, rfl, hraised.lowFlow, by rw [hmod]; rfl, by rw [hmod]; rfl, fun _ => hraised.getLsbD (by omega) (by omega)⟩
  · rw [if_neg hlong]
    exact ⟨_, rfl, rfl, rfl, rfl, fun hge => absurd hge hlong⟩

theorem exec_thermistorSample_cool (h : s.mod.standby = true) {i o : Int} (ho : thermFault o = false)
    (hcool : o ≤ 650) : exec (.thermistorSample i o) s = .next (thermistorsTaken i o s) := by
  rw [exec_thermistorSample h, if_neg (by simp [ho]; omega)]

theorem exec_thermistorSample_warm (h : s.mod.standby = true) {i o : Int} (ho : thermFault o = false) (hwarm : 650 < o)
    (hw : s.mod.warned = false) : ∃ t, exec (.thermistorSample i o) s = .next t ∧
      t.mod.warned = true ∧ t.ras.logNext = s.ras.logNext + 1 ∧ exec (.thermistorSample i o) t = .next
        { t with mod := { t.mod with alert := t.mod.alert || thermFault i } } := by
  rw [exec_thermistorSample h, if_pos (by simp [ho, hwarm, hw])]
  have hmod := mod_eventStewardLog (s := thermistorsTaken i o s)
    { type := 0x0D, body := leBytes (ofSigned 16 o) 2 ++ leBytes (ofSigned 16 i) 2 }
  have hlog := logNext_eventStewardLog (s := thermistorsTaken i o s)
    { type := 0x0D, body := leBytes (ofSigned 16 o) 2 ++ leBytes (ofSigned 16 i) 2 }
  generalize (thermistorsTaken i o s).eventStewardLog _ = t at hmod hlog
  have hwarned : t.mod.warned = true := by
    rw [hmod]
    simp [thermistorsTaken, ho, hwarm, hw]
    omega
  have hstandby : t.mod.standby = true := by rw [hmod]; exact h
  refine ⟨t, rfl, hwarned, hlog, ?_⟩
  rw [exec_thermistorSample hstandby, if_neg (by simp [hwarned]), thermistorsTaken_again ho hwarm hmod hw]

/-! ### JTAG (19 R467, 22 R545) -/

theorem exec_jtagInstruction (c : Nat) : exec (.jtagInstruction c) s =
    (if c < 6 then .next (s.setMod { s.mod with jtagIr := c, tapReset := false })
    else if s.sec.debugUnlocked then .fault (.vendorInstruction c)
    else .next (s.setMod { s.mod with jtagIr := 1, tapReset := false })) := rfl

/-- Settles O56: each row by its own lemma; a leak and a low flow through what a trigger leaves of the module controller. -/
theorem moduleRows : Obligations.ModuleRows := by
  unfold Obligations.ModuleRows
  refine ⟨fun s h => ⟨exec_j1Valid h, exec_j1Reversed h, fun hon hq => ?_, fun hoff => ?_,
    fun mv => ⟨fun h1 h2 hclear => ?_, fun h1 h2 hq => ?_, fun hm => exec_leakSample_fault h hm⟩, fun mv h1 h2 hclear => ?_,
    fun mv hlow => exec_flowSample_low_spec h hlow, fun i o hi1 hi2 ho1 ho2 => ?_,
    fun i o hwarm ho hw => exec_thermistorSample_warm h (thermFault_within (by omega) ho) hwarm hw,
    exec_outputFault_cfgErr h, exec_outputFault_quench h, exec_outputFault_miso h, exec_i2cBusStuck h true, exec_i2cBusStuck h false,
    exec_smbusBusHeld h, exec_mctpPacket_here h true, exec_mctpPacket_here h false, fun ok a ha => exec_mctpPacket_elsewhere ha ok,
    fun id v hv => ?_, fun id hid => exec_pldmGetSensorReading_unknown h (sensorValue_unknown hid), fun hq => ?_, fun hq => ?_,
    exec_quenchTest h, fun hs => ⟨fun img => exec_pldmFirmwareUpdate_request h hs,
      fun img x hbusy => ⟨_, exec_pldmFirmwareUpdate_busy h hs hbusy, rfl⟩,
      fun img himg hok => ⟨_, exec_pldmFirmwareUpdate_program h hs himg, rfl, endUpdate_slot hok⟩, fun hready => ?_,
      fun hready => ⟨_, (exec_activateFirmware h hs).trans (congrArg _ (if_neg hready)), rfl⟩⟩⟩,
    fun s c => ⟨fun hc => ?_, fun hc hlocked => ?_, fun hc hopen => ?_, rfl⟩⟩
  · exact congrArg Host.Outcome.next ((if_pos hon).trans (raiseTrigger_quenched (by omega) hq))
  · exact congrArg Host.Outcome.next (if_neg (ne_true_of_eq_false hoff))
  · rw [exec_leakSample h, leakClassOf_dry h1 h2]
    exact congrArg Host.Outcome.next (clearTrigger_clear hclear)
  · rw [exec_leakSample h, leakClassOf_wet h1 h2]
    exact congrArg Host.Outcome.next (raiseTrigger_quenched (by omega) hq)
  · rw [exec_flowSample_enough h h1 h2, clearTrigger_clear hclear]
  · have hi := thermFault_within hi1 hi2
    have ho := thermFault_within ho1 (by omega : o ≤ 1100)
    refine ⟨_, exec_thermistorSample_cool h ho ho2, rfl, rfl, hi, ho, fun hcool => ?_, rfl⟩
    simp [thermistorsTaken, ho, hcool]
  · refine ⟨_, exec_pldmGetSensorReading h hv, ?_, ?_, ?_, ?_⟩ <;> split <;> rfl
  · rw [exec_moduleResetRequest h, if_neg hq]
    rfl
  · rw [exec_moduleResetRequest h, if_pos hq]
    rfl
  · rw [exec_activateFirmware h hs, if_pos hready]
    rfl
  · rw [exec_jtagInstruction, if_pos hc]
  · rw [exec_jtagInstruction, if_neg (by omega), if_neg (ne_true_of_eq_false hlocked)]
  · rw [exec_jtagInstruction, if_neg (by omega), if_pos hopen]

end Sys2Proof.Machine
end

