-- ==== Sys2Proof/Proofs/PowerLoss.lean ====
section
/-! Main power goes (21 R513): what closing every lease and resetting every port leaves. -/
namespace Sys2Proof.Machine

variable {r s t : State}

/-- `s` after `r`, with nothing that runs: the platform stands, and no program and no section exists. -/
structure PowerGone (r s : State) : Prop where
  platform : PlatformKept r s
  progs : s.seq.progs = []
  sections : s.seq.sections = []

namespace PowerGone

theorem after (h : PowerGone r s) (hp : PlatformKept s t) (hprogs : t.seq.progs = s.seq.progs)
    (hsections : t.seq.sections = s.seq.sections) : PowerGone r t :=
  ⟨h.platform.trans hp, hprogs.trans h.progs, hsections.trans h.sections⟩

theorem foldl {β : Type} {f : State → β → State} {l : List β} (h : PowerGone r s)
    (hf : ∀ {u} b, PowerGone r u → PowerGone r (f u b)) : PowerGone r (l.foldl f s) := by
  induction l generalizing s with
  | nil => exact h
  | cons b l ih => exact ih (hf b h)

theorem ite {c : Prop} [Decidable c] {t : State} (h1 : PowerGone r s) (h2 : PowerGone r t) : PowerGone r (if c then s else t) := by
  split
  · exact h1
  · exact h2

section
variable (h : PowerGone r s)
include h

theorem bound : s.bound = [] := by rw [State.bound, h.progs, List.filterMap_nil]

/-! ### The state's operations -/

theorem of_host (x : HostSt) : PowerGone r { s with host := x } := h.after ((PlatformKept.refl s).of_host x) rfl rfl
theorem of_own (x : LeaseTab) : PowerGone r { s with own := x } := h.after ((PlatformKept.refl s).of_own x) rfl rfl
theorem of_fab (x : Fabric) : PowerGone r { s with fab := x } := h.after ((PlatformKept.refl s).of_fab x) rfl rfl
theorem of_hbm (x : Hbm) : PowerGone r { s with hbm := x } := h.after ((PlatformKept.refl s).of_hbm x) rfl rfl
theorem drew : PowerGone r s.drew := h.after ⟨rfl, rfl, ⟨_, rfl⟩, rfl, rfl, rfl⟩ rfl rfl
theorem endChallenge : PowerGone r { s with sec := { s.sec with challenge := none } } := h.after ⟨rfl, rfl, ⟨_, rfl⟩, rfl, rfl, rfl⟩ rfl rfl
theorem setFn {f : Nat} {x : Fn} : PowerGone r (s.setFn f x) := h.of_host _
theorem setPort {n : Nat} {x : Port} : PowerGone r (s.setPort n x) := h.of_host _
theorem setLease {l : Nat} {x : Lease} : PowerGone r (s.setLease l x) := h.of_own _
theorem updLease {l : Nat} {g : Lease → Lease} : PowerGone r (s.updLease l g) := h.of_own _
theorem updRegion {k : Nat} {g : Region → Region} : PowerGone r (s.updRegion k g) := h.of_own _
theorem setChan {c : Nat} {x : Chan} : PowerGone r (s.setChan c x) := h.after (PlatformKept.refl s).setChan rfl rfl

theorem of_tells (ht : tellsOnly s t) : PowerGone r t := by
  obtain ⟨_, _, rfl⟩ := ht
  exact h.after ⟨rfl, rfl, ⟨_, rfl⟩, rfl, rfl, rfl⟩ rfl rfl

theorem event {e : Ev} {fns : List Nat} {log : Bool} : PowerGone r (s.event e fns log) := by
  obtain ⟨⟨_, _, _, heq⟩, -⟩ := (RecordsOnly.refl s).event (e := e) (fns := fns) (log := log)
  exact h.after (.of_records (RecordsOnly.refl s).event) (by rw [heq]) (by rw [heq])

theorem eventLease {e : Ev} {l : Nat} : PowerGone r (s.eventLease e l) := by
  unfold State.eventLease
  exact h.event
theorem leaseStateEvent {l st cause former new : Nat} {fns : List Nat} : PowerGone r (s.leaseStateEvent l st cause former new fns) := by
  unfold State.leaseStateEvent
  exact h.event

/-! ### A lease closes and is freed (17 R410, R559) -/

theorem abandonHLatches {l : Nat} : PowerGone r (abandonHLatches s l) := h.foldl fun _ h => .ite h h.updLease.eventLease
theorem loseWrites {l lo : Nat} : PowerGone r (loseWrites l lo s) := h.foldl fun _ h => .ite (h.of_host _) h
theorem startClosing {l cause : Nat} {reach : List Nat} : PowerGone r (startClosing s l cause reach) :=
  ((h.setLease.of_host _).leaseStateEvent.of_host _).loseWrites.abandonHLatches

theorem zeroiseRegion {k : Nat} : PowerGone r (zeroiseRegion s k) := by
  unfold Machine.zeroiseRegion
  extract_lets ts s1 fab s2
  have h2 : PowerGone r s2 := h.after ⟨rfl, rfl, ⟨_, rfl⟩, rfl, rfl, rfl⟩ rfl rfl
  exact h2.updRegion

theorem endEmulation {c : Nat} : PowerGone r (endEmulation c s) := by
  unfold Machine.endEmulation
  extract_lets x
  split
  · exact .ite h.zeroiseRegion.updRegion.updLease h
  · exact h

theorem unbindChans {l : Nat} : PowerGone r (unbindChans s l) := h.foldl fun _ h => .ite h.endEmulation.setChan h
theorem dropCommands {l : Nat} : PowerGone r (dropCommands l s) := h.foldl fun _ h => h.of_tells (tellsOnly_finishCmd ..)
theorem dropLease {l : Nat} : PowerGone r (dropLease s l) := h.after ⟨rfl, rfl, ⟨_, rfl⟩, rfl, rfl, rfl⟩ rfl rfl
theorem hbmErase {l : Nat} : PowerGone r (s.hbmErase l) := h.of_hbm _

theorem freeLease {l : Nat} {reach : List Nat} : PowerGone r (freeLease s l reach) :=
  (h.unbindChans.foldl fun _ h => .ite h.zeroiseRegion.updRegion h).dropCommands.hbmErase.setLease.dropLease.leaseStateEvent

theorem losePower {l : Nat} : PowerGone r (losePower s l) := h.drew.startClosing.freeLease

/-! ### A port is reset (17 R414) -/

theorem abandonStewardLock : PowerGone r (abandonStewardLock s) := by
  unfold Machine.abandonStewardLock
  extract_lets host s1
  have h1 : PowerGone r s1 := h.of_host _
  exact h1.event

/-- With no program bound, a lease that drains stops none. -/
theorem startDraining {l : Nat} : PowerGone r (startDraining s l) := by
  unfold Machine.startDraining
  extract_lets x s1 s2
  have h1 : PowerGone r s1 := h.setLease.of_host _
  have h2 : s2 = s1 := by
    unfold s2
    rw [h1.bound]
    rfl
  rw [h2]
  exact .ite h h1.leaseStateEvent

theorem resetFn {f : Nat} : PowerGone r (resetFn s f) := by
  unfold Machine.resetFn
  extract_lets owned ws old host s1 sec s2 s3
  have h1 : PowerGone r s1 := (h.of_host host).setFn
  have h2 : PowerGone r s2 := h1.endChallenge
  have h3 : PowerGone r s3 := .ite h2.abandonStewardLock h2
  exact h3.foldl fun _ h => h.startDraining

theorem clearVfs {port : Nat} : PowerGone r (clearVfs s port) := (h.foldl fun _ h => h.resetFn).setPort
theorem resetPort {port : Nat} : PowerGone r (resetPort s port) := h.clearVfs.resetFn.setPort
end

end PowerGone

/-- Main power lost, of the platform nothing changes, and nothing runs. -/
theorem loseMainPower_gone : PowerGone s (loseMainPower s) := by
  unfold loseMainPower
  extract_lets down old s1 s2 s3 h'
  have h1 : PowerGone s s1 := ⟨⟨rfl, rfl, ⟨_, rfl⟩, rfl, rfl, rfl⟩, rfl, rfl⟩
  have h3 : PowerGone s s3 := (h1.foldl fun _ h => h.losePower).foldl fun _ h => h.resetPort
  exact h3.after ⟨rfl, rfl, ⟨_, rfl⟩, rfl, rfl, rfl⟩ rfl rfl

end Sys2Proof.Machine
end

