-- ==== Sys2Proof/Proofs/Startup.lean ====
section
/-! Start-up, power loss, the resets of the module and recovery (O55). -/
namespace Sys2Proof.Machine

variable {r s t : State}

/-! ### The log is read again (18 R449) -/

theorem reloadLog_frame : ∃ l d, reloadLog s = { s with ras := { s.ras with log := l, logDirty := d } } := by
  unfold reloadLog
  generalize s.ras.logDirty = pages
  induction pages generalizing s with
  | nil => exact ⟨s.ras.log, s.ras.logDirty, rfl⟩
  | cons p pages ih =>
    rw [List.foldl_cons]
    obtain ⟨l, d, h⟩ := ih (s := _)
    exact ⟨l, d, h⟩

/-! ### The boot ROM (21 Table 21.2 steps 2 to 4, R516) -/

/-- The image in slot `k`. -/
def slotImage (s : State) (k : Nat) : List Byte := (s.boot.slots.get {} k).image

theorem imgCheck_congr (h : t.sec = s.sec) (magic : Nat) (img : List Byte) : imgCheck t magic img = imgCheck s magic img := by
  unfold imgCheck
  rw [h]

/-- The boot ROM at step 2. -/
def romStart (s : State) : State :=
  { s with boot := { s.boot with state := 0, step := 2, failStep := 0, recovery := false, recStatus := 0, recCause := 0,
                                 fallback := false } }

/-- The slot that the boot ROM tries first. -/
def firstSlot (s : State) : Nat := if s.boot.attempts < 3 then s.boot.selected else 1 - s.boot.selected

theorem bootRom_eq : bootRom s =
    (let s0 := rebuildFloor (romStart s)
     let a := trySlot (firstSlot s0) s0
     if a.2 then runFirmware a.1
     else
       let b := trySlot (1 - firstSlot s0) a.1
       if b.2 then runFirmware b.1 else enterRecovery 3 b.1) := rfl

/-- The attempt at slot `k` counted. -/
def tried (k : Nat) (s : State) : State :=
  if k = s.boot.selected then { s with boot := { s.boot with attempts := satInc s.boot.attempts 3 } } else s

theorem tried_frame (k : Nat) : ∃ n, tried k s = { s with boot := { s.boot with attempts := n } } := by
  unfold tried
  split
  · exact ⟨_, rfl⟩
  · exact ⟨s.boot.attempts, rfl⟩

theorem trySlot_eq (k : Nat) : trySlot k s =
    if imgCheck (tried k s) fwMagic (slotImage (tried k s) k) = .ok then
      ({ tried k s with boot := { (tried k s).boot with
        slot := k, fallback := k != (tried k s).boot.selected, running := imgBody (slotImage (tried k s) k) } }, true)
    else (markFailed k (tried k s), false) := rfl

theorem trySlot_ok {k : Nat} (h : imgCheck s fwMagic (slotImage s k) = .ok) : ∃ n, trySlot k s =
    ({ s with boot := { s.boot with
      attempts := n, slot := k, fallback := k != s.boot.selected, running := imgBody (slotImage s k) } }, true) := by
  obtain ⟨n, hn⟩ := tried_frame (s := s) k
  rw [trySlot_eq, hn]
  exact ⟨n, if_pos h⟩

theorem trySlot_fails {k : Nat} (h : imgCheck s fwMagic (slotImage s k) ≠ .ok) : trySlot k s = (markFailed k (tried k s), false) := by
  obtain ⟨n, hn⟩ := tried_frame (s := s) k
  rw [trySlot_eq, hn]
  exact if_neg h

theorem slotImage_markFailed (k j : Nat) : slotImage (markFailed k s) j = slotImage s j := by
  unfold slotImage markFailed Table.upd
  by_cases h : j = k
  · subst h
    rw [Table.get_set_self]
  · rw [Table.get_set_ne _ _ _ h]

theorem slotImage_tried (k j : Nat) : slotImage (tried k s) j = slotImage s j := by
  obtain ⟨n, hn⟩ := tried_frame (s := s) k
  rw [hn]
  rfl

theorem sec_tried (k : Nat) : (tried k s).sec = s.sec := by
  obtain ⟨n, hn⟩ := tried_frame (s := s) k
  rw [hn]

theorem sec_markFailed_tried (k j : Nat) : (markFailed k (tried j s)).sec = s.sec := sec_tried j

/-- With a valid copy of page 4 the floor stands. -/
theorem rebuildFloor_valid (h : pageCurrent 4 (s.ras.pages.get {} 4) ≠ none) : rebuildFloor s = s := by
  unfold rebuildFloor
  split
  · rfl
  next hnone => exact absurd hnone h

theorem bootRom_selected (hpage : pageCurrent 4 (s.ras.pages.get {} 4) ≠ none)
    (hok : imgCheck s fwMagic (slotImage s s.boot.selected) = .ok) (hn : s.boot.attempts < 3) : ∃ n, bootRom s =
    runFirmware { romStart s with boot := { (romStart s).boot with
      attempts := n, slot := s.boot.selected, fallback := s.boot.selected != s.boot.selected
      running := imgBody (slotImage s s.boot.selected) } } := by
  have hfirst : firstSlot (romStart s) = s.boot.selected := if_pos hn
  obtain ⟨n, htry⟩ := trySlot_ok (s := romStart s) (k := s.boot.selected) hok
  refine ⟨n, ?_⟩
  rw [bootRom_eq, rebuildFloor_valid (s := romStart s) hpage]
  dsimp only
  rw [hfirst, htry]
  exact if_pos rfl

theorem bootRom_noImage (hpage : pageCurrent 4 (s.ras.pages.get {} 4) ≠ none)
    (hbad : ∀ k, imgCheck s fwMagic (slotImage s k) ≠ .ok) : ∃ t, bootRom s = enterRecovery 3 t := by
  have hfirst : trySlot (firstSlot (romStart s)) (romStart s) =
      (markFailed (firstSlot (romStart s)) (tried (firstSlot (romStart s)) (romStart s)), false) := trySlot_fails (hbad _)
  rw [bootRom_eq, rebuildFloor_valid (s := romStart s) hpage]
  dsimp only
  rw [hfirst, trySlot_fails]
  · exact ⟨_, rfl⟩
  · dsimp only
    rw [slotImage_markFailed, slotImage_tried, imgCheck_congr (s := romStart s) (sec_markFailed_tried _ _)]
    exact hbad _

theorem exec_standbyPresent (h : s.mod.standby = false) (m : Nat) : exec (.standbyPresent m) s =
    .next (bootRom { s with mod := { s.mod with standby := true, modId := m % 8 } }) :=
  congrArg Host.Outcome.next (if_neg (ne_true_of_eq_false h))

/-! ### A module reset (21 R512, R513, Table 21.6) -/

/-- What the boot ROM leaves. -/
structure RomKept (r s : State) : Prop where
  sclk : s.sclk = r.sclk
  hbm : s.hbm = r.hbm
  fab : s.fab = r.fab
  own : s.own = r.own
  power : s.power = r.power
  pending : s.pending = r.pending
  pages : s.ras.pages = r.ras.pages
  lastRestart : s.boot.lastRestart = r.boot.lastRestart
  mainOn : s.mod.mainOn = r.mod.mainOn
  debugUnlocked : s.sec.debugUnlocked = r.sec.debugUnlocked

namespace RomKept

theorem refl (s : State) : RomKept s s := ⟨rfl, rfl, rfl, rfl, rfl, rfl, rfl, rfl, rfl, rfl⟩

theorem trans (h1 : RomKept r s) (h2 : RomKept s t) : RomKept r t :=
  ⟨h2.sclk.trans h1.sclk, h2.hbm.trans h1.hbm, h2.fab.trans h1.fab, h2.own.trans h1.own, h2.power.trans h1.power,
    h2.pending.trans h1.pending, h2.pages.trans h1.pages, h2.lastRestart.trans h1.lastRestart, h2.mainOn.trans h1.mainOn,
    h2.debugUnlocked.trans h1.debugUnlocked⟩

section
variable (h : RomKept r s)
include h

theorem event {e : Ev} {fns : List Nat} {log : Bool} : RomKept r (s.event e fns log) := by
  have hras := logTold_event s e fns log
  obtain ⟨⟨_, _, _, heq⟩, -⟩ := (RecordsOnly.refl s).event (e := e) (fns := fns) (log := log)
  rw [heq] at hras ⊢
  obtain ⟨_, _, _, hras⟩ := hras
  exact h.trans ⟨rfl, rfl, rfl, rfl, rfl, rfl, by rw [hras], rfl, rfl, rfl⟩

theorem romStart : RomKept r (romStart s) := h.trans ⟨rfl, rfl, rfl, rfl, rfl, rfl, rfl, rfl, rfl, rfl⟩
theorem runFirmware : RomKept r (runFirmware s) := h.trans ⟨rfl, rfl, rfl, rfl, rfl, rfl, rfl, rfl, rfl, rfl⟩
theorem enterRecovery {k : Nat} : RomKept r (enterRecovery k s) := h.trans ⟨rfl, rfl, rfl, rfl, rfl, rfl, rfl, rfl, rfl, rfl⟩
theorem markFailed {k : Nat} : RomKept r (markFailed k s) := h.trans ⟨rfl, rfl, rfl, rfl, rfl, rfl, rfl, rfl, rfl, rfl⟩

theorem tried {k : Nat} : RomKept r (tried k s) := by
  obtain ⟨n, hn⟩ := tried_frame (s := s) k
  rw [hn]
  exact h.trans ⟨rfl, rfl, rfl, rfl, rfl, rfl, rfl, rfl, rfl, rfl⟩

theorem rebuildFloor : RomKept r (rebuildFloor s) := by
  unfold Machine.rebuildFloor State.eventSteward
  split
  · exact h
  · extract_lets slots good fl s1
    have h1 : RomKept r s1 := h.event
    exact h1.trans ⟨rfl, rfl, rfl, rfl, rfl, rfl, rfl, rfl, rfl, rfl⟩

theorem trySlot {k : Nat} : RomKept r (trySlot k s).1 := by
  rw [trySlot_eq]
  split
  · exact h.tried.trans ⟨rfl, rfl, rfl, rfl, rfl, rfl, rfl, rfl, rfl, rfl⟩
  · exact h.tried.markFailed

theorem bootRom : RomKept r (bootRom s) := by
  rw [bootRom_eq]
  extract_lets s0 a b
  have ha : RomKept r a.1 := h.romStart.rebuildFloor.trySlot
  have hb : RomKept r b.1 := ha.trySlot
  split
  · exact ha.runFirmware
  · split
    · exact hb.runFirmware
    · exact hb.enterRecovery
end

end RomKept

/-- The state from which the boot ROM starts after a module reset. -/
def atReset (code : Nat) (s : State) : State :=
  { moduleState s with boot := { (moduleState s).boot with lastRestart := code } }

theorem moduleReset_eq (code : Nat) : moduleReset code s = bootRom (atReset code (reloadLog s)) := rfl

/-- A module reset: what the boot ROM leaves of the state that it starts from. -/
theorem moduleReset_spec (code : Nat) : (moduleReset code s).boot.lastRestart = code ∧ (moduleReset code s).sclk = s.sclk ∧
    (moduleReset code s).hbm = {} ∧ (moduleReset code s).fab = {} ∧ (∀ l, (moduleReset code s).leaseOf l = {}) ∧
    (moduleReset code s).mod.mainOn = false ∧ (moduleReset code s).sec.debugUnlocked = s.sec.debugUnlocked ∧
    (moduleReset code s).power.triggers = s.power.triggers ∧ (moduleReset code s).ras.pages = s.ras.pages ∧
    (moduleReset code s).pending = s.pending := by
  obtain ⟨l, d, hlog⟩ := reloadLog_frame (s := s)
  have h := (RomKept.refl (atReset code (reloadLog s))).bootRom
  rw [moduleReset_eq, h.lastRestart, h.sclk, h.hbm, h.fab, h.mainOn, h.debugUnlocked, h.power, h.pages, h.pending]
  simp only [State.leaseOf, h.own]
  rw [hlog]
  exact ⟨rfl, rfl, rfl, rfl, fun _ => rfl, rfl, rfl, rfl, rfl, rfl⟩

theorem exec_startupWatchdog (h1 : s.boot.state = 2) (h2 : s.mod.mainGood = true) (h3 : 75000000 ≤ s.sclk - s.boot.goodAt) :
    exec .startupWatchdog s = .next (moduleReset 4 s) := by
  have hsec : 3 * second ≤ s.sclk - s.boot.goodAt := h3
  exact congrArg Host.Outcome.next (if_pos (by simp [h1, h2, hsec]))

theorem exec_moduleReset {k : Nat} (hk : k = 2 ∨ k = 3) (hp : s.boot.resetPending = k) (hq : s.boot.state ≠ 5) :
    exec (.moduleReset k) s = .next (moduleReset k s) := congrArg Host.Outcome.next (if_pos ⟨hk, hp, hq⟩)

theorem exec_standbyLoss : ∃ l d, exec .standbyLoss s =
    .next (coldState { s with ras := { s.ras with log := l, logDirty := d } }) := by
  obtain ⟨l, d, hlog⟩ := reloadLog_frame (s := s)
  exact ⟨l, d, congrArg (fun x => Host.Outcome.next (coldState x)) hlog⟩

/-! ### Main power is enabled (21 R502) -/

theorem exec_mainPowerEnable : exec .mainPowerEnable s = .next
    (if (s.boot.state == 1 || (s.boot.state == 6 && s.boot.recovery)) && !s.mod.mainOn && !s.boot.restart5 &&
      powerAllowed s then enablePower s else s) := rfl

theorem exec_startupRetry {c : Nat} (hc : s.boot.clearSince = some c) : exec .startupRetry s = .next
    (if s.boot.state == 1 && s.boot.restart5 && !s.mod.mainOn && decide (10 * second ≤ s.sclk - c) && powerAllowed s then
      enablePower { s with boot := { s.boot with restart5 := false, lastRestart := 5, clearSince := none } }
    else s) := by
  refine congrArg Host.Outcome.next ?_
  rw [hc]

/-! ### Steps 6 to 9 (21 Table 21.2) -/

/-- The clocks of a die at their lowest rates. -/
def clockLowest (s : State) (c : DieClk) : DieClk :=
  { c with stopped := false, fclk := 32, fTarget := 32, tclk := if s.hasEngines then 16 else 0
           tTarget := if s.hasEngines then 16 else 0, fChanged := s.sclk, tChanged := s.sclk }

/-- The clocks of die `d` started where it is usable. -/
def startClock (s : State) (d : Nat) : State := if s.dieUsable d then s.setClk d (clockLowest s (s.clkOf d)) else s

theorem foldl_startClock (n : Nat) : ∃ c, (upTo n).foldl startClock s = { s with power := { s.power with dies := c } } ∧
    ∀ d, d < n → s.dieUsable d = true → (c.get {} d).stopped = false ∧ (c.get {} d).fclk = 32 := by
  induction n with
  | zero => exact ⟨s.power.dies, rfl, fun d hd => absurd hd (Nat.not_lt_zero d)⟩
  | succ n ih =>
    obtain ⟨c, hc, hclk⟩ := ih
    rw [show upTo (n + 1) = upTo n ++ [n] from List.range_succ, List.foldl_append, hc, List.foldl_cons, List.foldl_nil]
    by_cases hu : s.dieUsable n = true
    · refine ⟨_, if_pos hu, fun d hd hd' => ?_⟩
      by_cases hdn : d = n
      · subst hdn
        rw [Table.get_set_self]
        exact ⟨rfl, rfl⟩
      · rw [Table.get_set_ne _ _ _ hdn]
        exact hclk d (by omega) hd'
    · refine ⟨c, if_neg hu, fun d hd hd' => hclk d ?_ hd'⟩
      rcases Nat.lt_succ_iff_lt_or_eq.mp hd with h | rfl
      · exact h
      · exact absurd hd' hu

theorem lowestClocks_frame : ∃ c, lowestClocks s = { s with power := { s.power with dies := c } } ∧
    ∀ d, d < s.nDies → s.dieUsable d = true → (c.get {} d).stopped = false ∧ (c.get {} d).fclk = 32 := foldl_startClock s.nDies

/-- No row of the repair list is without a spare. -/
theorem foldl_repairRow (rows : List (Nat × Bool)) : rows.foldl (repairRow []) s =
    { s with ras := { s.ras with rowsRepaired := s.ras.rowsRepaired + rows.length } } := by
  induction rows generalizing s with
  | nil => rfl
  | cons x rows ih =>
    rw [List.foldl_cons, ih, List.length_cons, Nat.add_comm rows.length 1, ← Nat.add_assoc]
    rfl

/-- The state after step 9 with no failure, the dies' clocks being `c`. -/
def startedTo9 (c : Table DieClk) (s : State) : State :=
  { s with power := { s.power with dies := c }
           ras := { s.ras with hbmRows := [], rowsRepaired := s.ras.rowsRepaired + s.ras.hbmRows.length, sramRows := [] }
           dev := { s.dev with dies := s.dev.dies.mapVals {} (fun _ m => { m with pendingSteer := none }) }
           boot := { s.boot with step := 9 } }

section
variable {x : StartupTests} (hunits : x.failedUnits = []) (htiles : x.failedTiles = []) (hrows : x.exhaustedRows = [])
include hunits

theorem startStep6_clean : startStep6 x s = atStep 6 (lowestClocks s) := by
  rw [startStep6, hunits]
  rfl

include hrows in
theorem startStep7_clean : startStep7 x s = atStep 7 { s with ras := { s.ras with
    hbmRows := [], rowsRepaired := s.ras.rowsRepaired + s.ras.hbmRows.length } } := by
  rw [startStep7, hunits, hrows]
  dsimp only
  rw [foldl_repairRow]
  rfl

include htiles in
theorem startStep8_clean : startStep8 x s = atStep 8 { s with ras := { s.ras with sramRows := [] } } := by
  rw [startStep8, hunits, htiles]
  rfl

include htiles hrows in
theorem startTo9_clean : ∃ c, startStep9 (startStep8 x (startStep7 x (startStep6 x s))) = startedTo9 c s ∧
    ∀ d, d < s.nDies → s.dieUsable d = true → (c.get {} d).stopped = false ∧ (c.get {} d).fclk = 32 := by
  obtain ⟨c, hc, hclk⟩ := lowestClocks_frame (s := s)
  refine ⟨c, ?_, hclk⟩
  rw [startStep6_clean hunits, hc, startStep7_clean hunits hrows, startStep8_clean hunits htiles]
  rfl

end

/-! ### Steps 10 to 12 -/

theorem foldl_release (n : Nat) : ∃ p, (upTo n).foldl (fun s n => s.setPort n { s.portOf n with released := true }) s =
    { s with host := { s.host with ports := p } } ∧ ∀ k, k < n → (p.get {} k).released = true := by
  induction n with
  | zero => exact ⟨s.host.ports, rfl, fun k hk => absurd hk (Nat.not_lt_zero k)⟩
  | succ n ih =>
    obtain ⟨p, hp, hrel⟩ := ih
    rw [show upTo (n + 1) = upTo n ++ [n] from List.range_succ, List.foldl_append, hp, List.foldl_cons, List.foldl_nil]
    refine ⟨_, rfl, fun k hk => ?_⟩
    by_cases hkn : k = n
    · rw [hkn, Table.get_set_self]
    · rw [Table.get_set_ne _ _ _ hkn]
      exact hrel k (by omega)

theorem startStep11_frame : ∃ p, startStep11 s = { s with
      host := { s.host with ports := p }
      mod := { s.mod with cfgErr := s.mod.cfgErr && !s.boot.recovery }
      boot := { s.boot with step := 11 } } ∧ ∀ k, k < s.nPorts → (p.get {} k).released = true := by
  obtain ⟨p, hp, hrel⟩ := foldl_release (s := s) s.nPorts
  refine ⟨p, ?_, hrel⟩
  rw [startStep11, hp]
  rfl

theorem raiseFloor_frame : ∃ blown pages, raiseFloor s = { s with
    sec := { s.sec with floor := max s.sec.floor (imgFloorRaise s.boot.running), blown := blown }
    ras := { s.ras with pages := pages } } := ⟨_, _, rfl⟩

/-- Step 12 under the firmware of a slot. -/
theorem startStep12_booted (h : s.boot.recovery = false) : ∃ blown pages, startStep12 s = { s with
    sec := { s.sec with floor := max s.sec.floor (imgFloorRaise s.boot.running), blown := blown }
    ras := { s.ras with bootCount := s.ras.bootCount + 1, pages := pages }
    boot := { s.boot with attempts := 0, step := 12, state := s.readyState, hubLoaded := true } } := by
  obtain ⟨blown, pages, hraise⟩ := raiseFloor_frame (s := { s with
    ras := { s.ras with bootCount := s.ras.bootCount + 1 }, boot := { s.boot with attempts := 0 } })
  refine ⟨blown, pages, ?_⟩
  unfold startStep12
  dsimp only at hraise ⊢
  rw [if_neg (ne_true_of_eq_false h), hraise]
  dsimp only [atStep]
  rw [if_neg (ne_true_of_eq_false h)]
  rfl

theorem startFrom6_whole {x : StartupTests} (h : x.hangAt = none) : startFrom6 x s =
    startFrom10 x (startStep9 (startStep8 x (startStep7 x (startStep6 x s)))) := by
  unfold startFrom6
  rw [h]
  rfl

theorem startFrom10_whole {x : StartupTests} (h : x.hangAt = none) (hok : x.hubConfigOk = true) :
    startFrom10 x s = startStep12 (startStep11 (atStep 10 s)) := by
  unfold startFrom10
  rw [h, hok]
  rfl

theorem startFrom10_noConfig {x : StartupTests} (h : x.hangAt = none) (hbad : x.hubConfigOk = false) : startFrom10 x s =
    enterRecovery 10 (recordHubError (Config.freeNat s.free % 256) (Config.freeNat (s.free + 1)) (s.drew.drew)) := by
  unfold startFrom10
  rw [h, hbad]
  rfl

theorem recordHubError_valid (cause addr : Nat) : ((recordHubError cause addr s).engOf 0).errValid = true := by
  unfold recordHubError
  extract_lets e e1
  rw [State.engOf_setEng]
  dsimp only
  unfold e1
  split
  · assumption
  · rfl

theorem exec_mainPowerGood (x : StartupTests) (h1 : s.mod.mainOn = true) (h2 : s.mod.mainGood = false) (h3 : s.boot.state = 2) :
    exec (.mainPowerGood x) s = .next
      (startFrom6 x { s with mod := { s.mod with mainGood := true }, boot := { s.boot with goodAt := s.sclk } }) :=
  congrArg Host.Outcome.next (if_pos (by simp [h1, h2, h3]))

/-! ### Main power goes (22 R529, 21 R513) -/

theorem exec_mainPowerLoss_up (h1 : s.mod.mainOn = true) (h2 : s.boot.step = 12) : exec .mainPowerLoss s = .next
    (let s1 := stopClocks (loseMainPower s)
     { s1 with
       boot := { s1.boot with state := 1, step := 4, restart5 := true, hubLoaded := false
                              clearSince := if s.power.triggers = 0 then some s.sclk else none }
       mod := { s1.mod with mainOn := false, mainGood := false, quenchDrive := ownTrigger s }
       power := { s1.power with active := false, selfRefresh := false } }) :=
  congrArg Host.Outcome.next ((if_neg (by simp [h1])).trans (if_pos h2))

/-! ### Recovery (21 R508 to R510) -/

/-- The pushed package checked: its status stands in the recovery registers. -/
def packageChecked (s : State) : State :=
  { s.drew with boot := { s.boot with
      pushed := false, recStatus := packageCode s (imgCheck s recoveryMagic (pushedPackage s)), recCause := 0 } }

theorem packageChecked_frame : ∃ n, n = packageCode s (imgCheck s recoveryMagic (pushedPackage s)) ∧
    packageChecked s = { s.drew with boot := { s.boot with pushed := false, recStatus := n, recCause := 0 } } := ⟨_, rfl, rfl⟩

theorem exec_recoveryPackageCheck (h1 : s.boot.pushed = true) (h2 : s.boot.state = 6) (h3 : s.boot.recovery = false) :
    exec .recoveryPackageCheck s = .next
      (if imgCheck s recoveryMagic (pushedPackage s) = .ok then
        { packageChecked s with boot := { (packageChecked s).boot with
          recovery := true, running := imgBody (pushedPackage s), step := if s.mod.mainGood then 9 else 4, failStep := 0 } }
      else { packageChecked s with boot := { (packageChecked s).boot with hubFrames := [] } }) :=
  congrArg Host.Outcome.next (if_pos (by simp [h1, h2, h3]))

/-! ### The rows -/

theorem standbyPresent_boots (hoff : s.mod.standby = false) (m : Nat) (hpage : pageCurrent 4 (s.ras.pages.get {} 4) ≠ none)
    (hok : imgCheck s fwMagic (slotImage s s.boot.selected) = .ok) (hn : s.boot.attempts < 3) :
    ∃ t, exec (.standbyPresent m) s = .next t ∧ t.mod.standby = true ∧ t.boot.state = 1 ∧ t.boot.step = 4 ∧
      t.boot.running = imgBody (slotImage s s.boot.selected) ∧ t.boot.slot = s.boot.selected ∧ t.boot.fallback = false ∧
      t.sec.seeded = true ∧ t.fab = s.fab ∧ t.hbm = s.hbm := by
  obtain ⟨n, hboot⟩ := bootRom_selected (s := { s with mod := { s.mod with standby := true, modId := m % 8 } }) hpage hok hn
  rw [exec_standbyPresent hoff, hboot]
  exact ⟨_, rfl, rfl, rfl, rfl, rfl, rfl, bne_self_eq_false _, rfl, rfl, rfl⟩

theorem standbyPresent_recovers (hoff : s.mod.standby = false) (m : Nat) (hpage : pageCurrent 4 (s.ras.pages.get {} 4) ≠ none)
    (hbad : ∀ k, imgCheck s fwMagic (slotImage s k) ≠ .ok) :
    ∃ t, exec (.standbyPresent m) s = .next t ∧ t.boot.state = 6 ∧ t.boot.failStep = 3 ∧ t.mod.cfgErr = true := by
  obtain ⟨t, hboot⟩ := bootRom_noImage (s := { s with mod := { s.mod with standby := true, modId := m % 8 } }) hpage hbad
  rw [exec_standbyPresent hoff, hboot]
  exact ⟨_, rfl, rfl, rfl, rfl⟩

section
variable {x : StartupTests} (hon : s.mod.mainOn = true) (hgood : s.mod.mainGood = false) (hstate : s.boot.state = 2)
  (hrec : s.boot.recovery = false) (hunits : x.failedUnits = []) (htiles : x.failedTiles = []) (hrows : x.exhaustedRows = [])
  (hhang : x.hangAt = none)
include hon hgood hstate hunits htiles hrows hhang

theorem exec_mainPowerGood_from10 : ∃ c, exec (.mainPowerGood x) s = .next (startFrom10 x (startedTo9 c
      { s with mod := { s.mod with mainGood := true }, boot := { s.boot with goodAt := s.sclk } })) ∧
    ∀ d, d < s.nDies → s.dieUsable d = true → (c.get {} d).stopped = false ∧ (c.get {} d).fclk = 32 := by
  obtain ⟨c, h9, hclk⟩ := startTo9_clean (s := { s with
    mod := { s.mod with mainGood := true }, boot := { s.boot with goodAt := s.sclk } }) hunits htiles hrows
  refine ⟨c, ?_, hclk⟩
  rw [exec_mainPowerGood x hon hgood hstate, startFrom6_whole hhang, h9]

include hrec in
theorem mainPowerGood_boots (hok : x.hubConfigOk = true) : ∃ t, exec (.mainPowerGood x) s = .next t ∧
    t.boot.step = 12 ∧ t.boot.state = s.readyState ∧ t.boot.hubLoaded = true ∧ t.boot.attempts = 0 ∧
    t.mod.mainGood = true ∧ t.mod.cfgErr = s.mod.cfgErr ∧ t.ras.bootCount = s.ras.bootCount + 1 ∧
    t.ras.rowsRepaired = s.ras.rowsRepaired + s.ras.hbmRows.length ∧
    t.sec.floor = max s.sec.floor (imgFloorRaise s.boot.running) ∧
    (∀ n, n < s.nPorts → (t.portOf n).released = true) ∧
    (∀ d, d < s.nDies → s.dieUsable d = true → (t.clkOf d).stopped = false ∧ (t.clkOf d).fclk = 32) ∧
    t.hbm = s.hbm ∧ t.fab = s.fab ∧ t.own = s.own := by
  obtain ⟨c, hexec, hclk⟩ := exec_mainPowerGood_from10 hon hgood hstate hunits htiles hrows hhang
  obtain ⟨p, h11, hrel⟩ := startStep11_frame (s := atStep 10 (startedTo9 c { s with
    mod := { s.mod with mainGood := true }, boot := { s.boot with goodAt := s.sclk } }))
  obtain ⟨b, pages, h12⟩ := startStep12_booted (s := startStep11 (atStep 10 (startedTo9 c { s with
    mod := { s.mod with mainGood := true }, boot := { s.boot with goodAt := s.sclk } }))) (by rw [h11]; exact hrec)
  have hcfgErr : (s.mod.cfgErr && !s.boot.recovery) = s.mod.cfgErr := by rw [hrec, Bool.not_false, Bool.and_true]
  rw [hexec, startFrom10_whole hhang hok, h12, h11]
  exact ⟨_, rfl, rfl, rfl, rfl, rfl, rfl, hcfgErr, rfl, rfl, rfl, hrel, hclk, rfl, rfl, rfl⟩

theorem mainPowerGood_noConfig (hbad : x.hubConfigOk = false) : ∃ t, exec (.mainPowerGood x) s = .next t ∧ t.boot.state = 6 ∧
    t.boot.failStep = 10 ∧ t.mod.cfgErr = true ∧ (t.engOf 0).errValid = true := by
  obtain ⟨c, hexec, -⟩ := exec_mainPowerGood_from10 hon hgood hstate hunits htiles hrows hhang
  rw [hexec, startFrom10_noConfig hhang hbad]
  exact ⟨_, rfl, rfl, rfl, rfl, recordHubError_valid _ _⟩
end

theorem mainPowerLoss_up (h1 : s.mod.mainOn = true) (h2 : s.boot.step = 12) : ∃ t, exec .mainPowerLoss s = .next t ∧
    t.boot.state = 1 ∧ t.boot.step = 4 ∧ t.boot.restart5 = true ∧ t.mod.mainOn = false ∧ t.mod.mainGood = false ∧
    (∀ l, t.leaseOf l = {}) ∧ t.fab = {} ∧ t.hbm.mem = [] ∧ t.hbm.arb = s.hbm.arb ∧ t.seq.progs = [] ∧ t.seq.sections = [] ∧
    t.sec.policy = s.sec.policy ∧ t.sec.lock = s.sec.lock ∧ t.sec.debugUnlocked = s.sec.debugUnlocked ∧ t.dev = s.dev ∧
    t.sclk = s.sclk := by
  obtain ⟨hkept, hprogs, hsections⟩ := loseMainPower_gone (s := s)
  obtain ⟨c, hstop⟩ := stopClocks_frame (s := loseMainPower s)
  obtain ⟨ch, hsec⟩ := hkept.sec
  rw [exec_mainPowerLoss_up h1 h2]
  dsimp only
  rw [hstop]
  refine ⟨_, rfl, rfl, rfl, rfl, rfl, rfl, fun _ => rfl, rfl, rfl, rfl, hprogs, hsections, ?_, ?_, ?_, hkept.dev, hkept.sclk⟩ <;>
    dsimp only <;> rw [hsec]

/-- Settles O55: the boot ROM, the power rows and the resets, each by its own lemmas. -/
theorem startupRows : Obligations.StartupRows := by
  unfold Obligations.StartupRows
  intro s img
  refine ⟨fun m hoff hpage => ⟨fun hok hn => standbyPresent_boots hoff m hpage hok hn, fun hbad => standbyPresent_recovers hoff m hpage hbad⟩,
    fun m hon => congrArg Host.Outcome.next (if_pos hon), ?_, fun h1 hoff hj ht => ⟨fun h5 => ?_, fun h5 => ⟨?_, fun c hc hlong => ?_,
      fun c hc hshort => ?_⟩⟩, fun hbad => ?_, fun r hon hgood hstate hrec hunits htiles hrows hhang =>
      ⟨mainPowerGood_boots hon hgood hstate hrec hunits htiles hrows hhang,
        mainPowerGood_noConfig hon hgood hstate hunits htiles hrows hhang⟩,
    fun hoff => ?_, mainPowerLoss_up, fun c hc hdog hreset => ?_, fun hq k => ?_, fun hpushed hstate hrec => ?_⟩
  · obtain ⟨l, d, hexec⟩ := exec_standbyLoss (s := s)
    exact ⟨_, hexec, rfl, rfl, rfl, rfl, rfl, rfl, rfl, rfl, rfl, rfl, rfl, rfl⟩
  · rw [exec_mainPowerEnable, if_pos (by simp [h1, hoff, h5, powerAllowed, hj, ht])]
    rfl
  · rw [exec_mainPowerEnable, if_neg (by simp [h5])]
  · have hten : 10 * second ≤ s.sclk - c := hlong
    rw [exec_startupRetry hc, if_pos (by simp [h1, h5, hoff, hten, powerAllowed, hj, ht])]
    rfl
  · have hten : ¬ 10 * second ≤ s.sclk - c := Nat.not_le.mpr hshort
    rw [exec_startupRetry hc, if_neg (by simp [hten])]
  · have hno : powerAllowed s = false := by simpa [powerAllowed] using not_and_or.mpr hbad
    rw [exec_mainPowerEnable, if_neg (by simp [hno])]
  · exact congrArg Host.Outcome.next (if_pos (by simp [hoff]))
  · simp only [List.mem_cons, List.not_mem_nil, or_false] at hc
    obtain rfl | rfl | rfl := hc
    · obtain ⟨h2, hgood, hlong⟩ := hdog rfl
      exact ⟨_, exec_startupWatchdog h2 hgood hlong, moduleReset_spec 4⟩
    · obtain ⟨hp, hq⟩ := hreset 2 rfl
      rw [if_neg (by simp), hp]
      exact ⟨_, exec_moduleReset (.inl rfl) hp hq, moduleReset_spec 2⟩
    · obtain ⟨hp, hq⟩ := hreset 3 rfl
      rw [if_neg (by simp), hp]
      exact ⟨_, exec_moduleReset (.inr rfl) hp hq, moduleReset_spec 3⟩
  · exact congrArg Host.Outcome.next (if_neg fun h => h.2.2 hq)
  · obtain ⟨n, hn, hchecked⟩ := packageChecked_frame (s := s)
    rw [exec_recoveryPackageCheck hpushed hstate hrec, hchecked]
    intro c
    refine ⟨fun hok => ?_, fun hbad => ?_⟩
    · rw [if_pos hok]
      exact ⟨_, rfl, rfl, hn.trans (congrArg (packageCode s) hok), rfl, rfl, rfl, rfl⟩
    · rw [if_neg hbad]
      exact ⟨_, rfl, hrec, rfl, rfl, rfl, fun hkey => hn.trans (congrArg (packageCode s) hkey),
        fun hsvn => hn.trans (congrArg (packageCode s) hsvn)⟩

end Sys2Proof.Machine
end
